-- ==== Sys2Proof/Word.lean ====
section
/-!
DEFINITION. The word types of the block and their plainest arithmetic: 64-bit scalar words, 32-bit
instruction and register words, bytes, and the finite map in one canonical form that every indexed
store of the state uses (a list of key and value pairs with rising keys, no default value listed).
-/

namespace Sys2Proof

/-- A scalar register (spec/11, R320). -/
abbrev Word := BitVec 64

/-- An instruction word or a management register (R29, R325). -/
abbrev W32 := BitVec 32

/-- One byte of a memory (R6). -/
abbrev Byte := BitVec 8

/-- A finite store: pairs of key and value, keys strictly rising, values equal to the store's
default never listed. The operations are in Machine/MapOps.lean. -/
abbrev Map (α : Type) := List (Nat × α)

/-- The four words of a long instruction (R326). -/
structure Long where
  w0 : W32
  w1 : W32
  w2 : W32
  w3 : W32
  deriving DecidableEq, Repr

/-- Who executes a short instruction: one of the 64 contexts (R320) or the Miller (R348). -/
inductive Exe where
  | ctx (c : Fin 64)
  | miller
  deriving DecidableEq, Repr

end Sys2Proof
end

