-- ==== Sys2Proof/Machine/MapOps.lean ====
section
/-!
DEFINITION. Reading and writing a `Map` (the canonical finite store of Word.lean). Every indexed
piece of state goes through these two operations: registers of a context, slots of a core, bytes of
a memory, entries of a table.
-/

namespace Sys2Proof.Map

variable {α : Type}

/-- The value under key `k`, the store's default `d` where nothing is listed. -/
def get (d : α) : Map α → Nat → α
  | [], _ => d
  | (j, v) :: m, k => if k = j then v else if k < j then d else get d m k

/-- Remove key `k`. -/
def erase : Map α → Nat → Map α
  | [], _ => []
  | (j, v) :: m, k => if k = j then m else if k < j then (j, v) :: m else (j, v) :: erase m k

/-- List the value `v` under key `k`. -/
def insert : Map α → Nat → α → Map α
  | [], k, v => [(k, v)]
  | (j, u) :: m, k, v =>
    if k = j then (j, v) :: m
    else if k < j then (k, v) :: (j, u) :: m
    else (j, u) :: insert m k v

/-- Write `v` under key `k`, keeping the canonical form: the default is never listed. -/
def set [DecidableEq α] (d : α) (m : Map α) (k : Nat) (v : α) : Map α :=
  if v = d then erase m k else insert m k v

/-- Write `f` of the value under key `k`. -/
def modify [DecidableEq α] (d : α) (m : Map α) (k : Nat) (f : α → α) : Map α :=
  set d m k (f (get d m k))

/-- Write a list of pairs, the later ones last. -/
def setMany [DecidableEq α] (d : α) (m : Map α) : List (Nat × α) → Map α
  | [] => m
  | (k, v) :: l => setMany d (set d m k v) l

/-- `f` of every listed value; what becomes the default is listed no longer. -/
def mapVals [DecidableEq α] (d : α) (f : α → α) (m : Map α) : Map α := (m.map fun p => (p.1, f p.2)).filter fun p => p.2 ≠ d

/-- Every key of `m` lies above `lo` and the keys rise, and no value is the default. -/
def wfFrom [DecidableEq α] (d : α) : Nat → Map α → Bool
  | _, [] => true
  | lo, (k, v) :: m => decide (lo ≤ k) && decide (v ≠ d) && wfFrom d (k + 1) m

/-- The canonical form. -/
def wf [DecidableEq α] (d : α) (m : Map α) : Bool := wfFrom d 0 m

/-- A set of keys, held as a map to `true`. -/
def has (m : Map Bool) (k : Nat) : Bool := get false m k

/-- The keys listed. -/
def keys (m : Map α) : List Nat := m.map Prod.fst

end Sys2Proof.Map
end

