-- ==== Sys2Proof/Machine/Bits.lean ====
section
/-!
DEFINITION. Bit fields, sign extension and byte order (R6: bit 0 is the least significant bit,
multi-byte values are little-endian).
-/

namespace Sys2Proof

/-- Bits `[lo + n - 1 : lo]` of a number. -/
def fld (w lo n : Nat) : Nat := (w / 2 ^ lo) % 2 ^ n

/-- Bit `i` of a number. -/
def bitOf (w i : Nat) : Bool := w / 2 ^ i % 2 == 1

/-- A number from `n` bits read as two's complement. -/
def sextNat (n x : Nat) : Int := if 2 * (x % 2 ^ n) < 2 ^ n then (x % 2 ^ n : Nat) else (x % 2 ^ n : Nat) - (2 : Int) ^ n

/-- The `n` low bits of an integer, as a number. -/
def wrapInt (n : Nat) (x : Int) : Nat := (x % (2 : Int) ^ n).toNat

/-- Replace bits `[lo + n - 1 : lo]` of `w` by `v`. -/
def setFld (w lo n v : Nat) : Nat := w - fld w lo n * 2 ^ lo + v % 2 ^ n * 2 ^ lo

/-- One bit as a number. -/
def b2n (b : Bool) : Nat := if b then 1 else 0

/-- `ceil(a / b)` on naturals. -/
def cdiv (a b : Nat) : Nat := (a + b - 1) / b

/-- The number a little-endian byte list spells. -/
def leNat : List Byte → Nat
  | [] => 0
  | b :: bs => b.toNat + 256 * leNat bs

/-- `n` little-endian bytes of a number. -/
def natLe : Nat → Nat → List Byte
  | 0, _ => []
  | n + 1, x => BitVec.ofNat 8 x :: natLe n (x / 256)

/-- Bytes `[i, i + n)` of a list, as a number. -/
def leAt (bs : List Byte) (i n : Nat) : Nat := leNat ((bs.drop i).take n)

/-- `n` zero bytes. -/
def zeroBytes (n : Nat) : List Byte := List.replicate n 0

/-- True when every byte of `[i, i + n)` is zero. -/
def zeroAt (bs : List Byte) (i n : Nat) : Bool := ((bs.drop i).take n).all (· == 0)

/-- Overwrite bytes from offset `i`. -/
def patch (bs : List Byte) (i : Nat) (v : List Byte) : List Byte := bs.take i ++ v ++ bs.drop (i + v.length)

/-- A counter that holds at 0xFFFF_FFFF. -/
def holdAdd (x n : Nat) : Nat := min (x + n) 0xFFFFFFFF

/-- The bits set in `w` below `n`, ascending. -/
def bitsSet (n w : Nat) : List Nat := (List.range n).filter (bitOf w)

/-- The number of bits set in `w` below `n`. -/
def popCount (n w : Nat) : Nat := (bitsSet n w).length

/-- The smaller number of a list, `d` if the list is empty. -/
def minOr (d : Nat) : List Nat → Nat
  | [] => d
  | x :: xs => xs.foldl min x

/-- The larger number of a list, `d` if the list is empty. -/
def maxOr (d : Nat) : List Nat → Nat
  | [] => d
  | x :: xs => xs.foldl max x

/-- The larger integer of a list, `d` if the list is empty. -/
def maxIntOr (d : Int) : List Int → Int
  | [] => d
  | x :: xs => xs.foldl max x

/-- Bits set of `w` as a mask with bit `i` set. -/
def setBit (w i : Nat) : Nat := if bitOf w i then w else w + 2 ^ i

/-- `w` with bit `i` clear. -/
def clrBit (w i : Nat) : Nat := if bitOf w i then w - 2 ^ i else w

/-- Distinct items of a list, in order of first occurrence. -/
def dedup {α : Type} [DecidableEq α] : List α → List α
  | [] => []
  | x :: xs => x :: (dedup xs).filter fun y => decide (y ≠ x)

/-- Distinct numbers, in order of first occurrence. -/
def dedupNat : List Nat → List Nat
  | [] => []
  | x :: xs => x :: (dedupNat xs).filter (· != x)

/-- Split a list into runs of `n` (the last may be shorter), at most `fuel` runs. -/
def chunks {α : Type} (n : Nat) : Nat → List α → List (List α)
  | 0, _ => []
  | _ + 1, [] => []
  | fuel + 1, l => l.take n :: chunks n fuel (l.drop n)

end Sys2Proof
end

