-- ==== Sys2Proof/Config.lean ====
section
/-!
DEFINITION. What an implementation fixes and the spec leaves free. Every constant here is opaque: no
proof can see a value, so a claim that holds, holds whatever the part returns.
-/

namespace Sys2Proof.Config

/-- FREE VALUE (log 10). R200: a built-in function into binary32 whose exact value is not
representable returns one of the two neighbours. True picks the neighbour of larger magnitude. The
arguments are the FN code and the input's binary32 bits (R195: nothing else decides). -/
opaque laneUp : Nat → Nat → Bool

/-- FREE VALUE (log 10). R199: within a relative distance of 2^-38 of a rounding boundary the result
is one of the two neighbours. True picks the neighbour of larger magnitude. -/
opaque laneNear : Nat → Nat → Bool

/-- FREE VALUE (log 14). The value of a byte whose read was not sent (R499, R444): only that it is
poisoned is stated. The arguments are the address and the model's free-value counter. -/
opaque deniedByte : Nat → Nat → Byte

/-- FREE VALUE (log 21). R203: the integer of a REDUCE step whose operand is NaN. -/
opaque reduceNan : Int

/-- FREE VALUE (log 22). R121: the F of an entry that a fixed-anchor drain writes with an infinity flag. The
arguments are the instruction's number and the entry. -/
opaque overF : Nat → Nat → BitVec 96

/-- FREE VALUE (log 32). R55 lists no site for the conversions of KVAP: the draw of an element under stochastic
rounding. The arguments are the seed, the instruction's number and the element. -/
opaque kvDraw : Nat → Nat → Nat → Nat

/-- FREE VALUE (log 134). R20 gives the Granary 4 MiB a slice and no replacement rule: which line of a full slice gives way. The
argument is the model's free-value counter; it is taken modulo the lines held. -/
opaque granVictim : Nat → Nat

/-- FREE VALUE (log 146). R518: whether an uncorrectable error arises now in bay memory (0, its 64-byte unit), the Granary (1,
its line) or a link buffer (2, the place in the order of the write or update whose data it holds). The arguments are the
model's free-value counter and the root cycle. -/
opaque upset : Nat → Nat → Option (Nat × Nat)

end Sys2Proof.Config
end

