-- ==== Sys2Proof/Syntax.lean ====
section
/-!
DEFINITION. The commands of the block: one constructor for each row of spec/opcode_table.json, in the
table's order, with the row's operands. A row that is an instruction of a program takes the words the
program holds (R325, R326); a row that is an event takes what the event carries; a row that is a write
takes the value written.
-/

namespace Sys2Proof

/-- What a test instrument may reach (R511, log 12): internal state of a bay, the registers of the shared units, the retention
memory. -/
inductive TapTarget where
  /-- word `k` of an AccM entry: 0 to 2 are F, 3 the flags -/
  | entry (core : Fin 64) (slot : Fin 6) (e : Fin 1024) (k : Fin 4)
  /-- a byte of bay memory -/
  | bayByte (off : BitVec 23)
  /-- a byte of a core's operand buffer -/
  | obByte (core : Fin 64) (off : BitVec 17)
  /-- a register of the shared units, by its management address -/
  | shared (a : BitVec 20)
  /-- a byte of the retention memory -/
  | retByte (off : BitVec 16)
  deriving DecidableEq, Repr

/-- The commands, one for each row of the table. -/
inductive Instr where
  /-- NOP (R325). -/
  | nop (x : Exe) (w : W32)
  /-- ADD (R325). -/
  | add (x : Exe) (w : W32)
  /-- SUB (R325). -/
  | sub (x : Exe) (w : W32)
  /-- MUL (R325). -/
  | mul (x : Exe) (w : W32)
  /-- AND (R325). -/
  | and (x : Exe) (w : W32)
  /-- OR (R325). -/
  | or (x : Exe) (w : W32)
  /-- XOR (R325). -/
  | xor (x : Exe) (w : W32)
  /-- SHL (R325). -/
  | shl (x : Exe) (w : W32)
  /-- SHR (R325). -/
  | shr (x : Exe) (w : W32)
  /-- SRA (R325). -/
  | sra (x : Exe) (w : W32)
  /-- ADDI (R325). -/
  | addi (x : Exe) (w : W32)
  /-- SHLI (R325). -/
  | shli (x : Exe) (w : W32)
  /-- CMP (R325). -/
  | cmp (x : Exe) (w : W32)
  /-- PLOG (R325). -/
  | plog (x : Exe) (w : W32)
  /-- BR (R332). -/
  | br (x : Exe) (w : W32)
  /-- LD (R325). -/
  | ld (x : Exe) (w : W32)
  /-- ST (R325). -/
  | st (x : Exe) (w : W32)
  /-- LDT (R325). -/
  | ldt (x : Exe) (w : W32)
  /-- STT (R325). -/
  | stt (x : Exe) (w : W32)
  /-- LDL (R290). -/
  | ldl (x : Exe) (w : W32)
  /-- LDH (R325). -/
  | ldh (x : Exe) (w : W32)
  /-- EVR (R325). -/
  | evr (x : Exe) (w : W32)
  /-- EVW (R342). -/
  | evw (x : Exe) (w : W32)
  /-- CSRR (R321). -/
  | csrr (x : Exe) (w : W32)
  /-- CSRW (R321). -/
  | csrw (x : Exe) (w : W32)
  /-- HALT (R325). -/
  | halt (x : Exe) (w : W32)
  /-- MRD (R348). -/
  | mrd (x : Exe) (w : W32)
  /-- MWR (R348). -/
  | mwr (x : Exe) (w : W32)
  /-- EVQ (R350). -/
  | evq (x : Exe) (w : W32)
  /-- WFE (R348). -/
  | wfe (x : Exe) (w : W32)
  /-- WFE_RELEASE (R348). -/
  | wfeRelease
  /-- MILLER_FAULT (R509). -/
  | millerFault
  /-- MMP (R362). -/
  | mmp (c : Fin 64) (w : Long)
  /-- MMW (R362). -/
  | mmw (c : Fin 64) (w : Long)
  /-- MMC (R364). -/
  | mmc (c : Fin 64) (w : Long)
  /-- DRAIN (R365). -/
  | drain (c : Fin 64) (w : Long)
  /-- ACCZ (R366). -/
  | accz (c : Fin 64) (w : Long)
  /-- RSTAT (R124). -/
  | rstat (c : Fin 64) (w : Long)
  /-- ACCSV (R129). -/
  | accsv (c : Fin 64) (w : Long)
  /-- ACCLD (R130). -/
  | accld (c : Fin 64) (w : Long)
  /-- ATTF (R372). -/
  | attf (c : Fin 64) (w : Long)
  /-- ATTB (R373). -/
  | attb (c : Fin 64) (w : Long)
  /-- ATTM_CONFIRM (R286). -/
  | attmConfirm (c : Fin 64) (w : Long)
  /-- ATTM_MERGE (R287). -/
  | attmMerge (c : Fin 64) (w : Long)
  /-- BIAS (R158). -/
  | bias (c : Fin 64) (w : Long)
  /-- FNX (R377). -/
  | fnx (c : Fin 64) (w : Long)
  /-- FNX_LOAD (R206). -/
  | fnxLoad (c : Fin 64) (w : Long)
  /-- FNX_COMPAT (R210). -/
  | fnxCompat (c : Fin 64) (w : Long)
  /-- GATE (R378). -/
  | gate (c : Fin 64) (w : Long)
  /-- NORM (R212). -/
  | norm (c : Fin 64) (w : Long)
  /-- QNT (R380). -/
  | qnt (c : Fin 64) (w : Long)
  /-- KVAP (R239). -/
  | kvap (c : Fin 64) (w : Long)
  /-- KVAP_SPEC (R241). -/
  | kvapSpec (c : Fin 64) (w : Long)
  /-- KVCM (R242). -/
  | kvcm (c : Fin 64) (w : Long)
  /-- KVDS (R242). -/
  | kvds (c : Fin 64) (w : Long)
  /-- KVFN (R247). -/
  | kvfn (c : Fin 64) (w : Long)
  /-- KVIV (R248). -/
  | kviv (c : Fin 64) (w : Long)
  /-- PGCW_COPY (R253). -/
  | pgcwCopy (c : Fin 64) (w : Long)
  /-- PGCW_PROMOTE (R257). -/
  | pgcwPromote (c : Fin 64) (w : Long)
  /-- PGCW_DEMOTE (R257). -/
  | pgcwDemote (c : Fin 64) (w : Long)
  /-- PGCW_PROTECT (R258). -/
  | pgcwProtect (c : Fin 64) (w : Long)
  /-- PGCW_UNPROTECT (R258). -/
  | pgcwUnprotect (c : Fin 64) (w : Long)
  /-- PGCW_DIGEST (R263). -/
  | pgcwDigest (c : Fin 64) (w : Long)
  /-- PGFR (R252). -/
  | pgfr (c : Fin 64) (w : Long)
  /-- PGFR_LOG (R261). -/
  | pgfrLog (c : Fin 64) (w : Long)
  /-- PGPN (R254). -/
  | pgpn (c : Fin 64) (w : Long)
  /-- BOLT (R270). -/
  | bolt (c : Fin 64) (w : Long)
  /-- BPRF (R284). -/
  | bprf (c : Fin 64) (w : Long)
  /-- MOV (R390). -/
  | mov (c : Fin 64) (w : Long)
  /-- LDOP (R391). -/
  | ldop (c : Fin 64) (w : Long)
  /-- HALO (R392). -/
  | halo (c : Fin 64) (w : Long)
  /-- RING (R186). -/
  | ring (c : Fin 64) (w : Long)
  /-- SEND (R395). -/
  | send (c : Fin 64) (w : Long)
  /-- RECV (R395). -/
  | recv (c : Fin 64) (w : Long)
  /-- WRED_CONTRIBUTE (R488). -/
  | wredContribute (c : Fin 64) (w : Long)
  /-- WRED_REDUCE (R485). -/
  | wredReduce (c : Fin 64) (w : Long)
  /-- TOPK (R397). -/
  | topk (c : Fin 64) (w : Long)
  /-- FENCE (R340). -/
  | fence (c : Fin 64) (w : Long)
  /-- FENCE_SATISFIED (R340). -/
  | fenceSatisfied (c : Fin 64)
  /-- WAIT (R339). -/
  | wait (c : Fin 64) (w : Long)
  /-- WAIT_SATISFIED (R339). -/
  | waitSatisfied (c : Fin 64)
  /-- SIG (R341). -/
  | sig (c : Fin 64) (w : Long)
  /-- SIG_INCREMENT (R341). -/
  | sigIncrement (n : Nat)
  /-- CALL (R343). -/
  | call (c : Fin 64) (w : Long)
  /-- RET (R343). -/
  | ret (c : Fin 64) (w : Long)
  /-- TENSOR_INSTRUCTION_END (R335). -/
  | tensorInstructionEnd (n : Nat)
  /-- PASS_START (R418). -/
  | passStart (core : Fin 2048) (bed : Bool)
  /-- DRAIN_START (R118). -/
  | drainStart (core : Fin 2048)
  /-- BUNDLE_APPEND (R329). -/
  | bundleAppend (ch : Fin 4) (b : BitVec 512)
  /-- BUNDLE_RESYNC (R329). -/
  | bundleResync (ch : Fin 4) (b : BitVec 512)
  /-- HELD_BUNDLE_RELEASE (R331). -/
  | heldBundleRelease (ch : Fin 4)
  /-- CONS_ADDR_POLL (R345). -/
  | consAddrPoll (c : Fin 64)
  /-- NMP_READ_RETURN (R436). -/
  | nmpReadReturn (port : Fin 32) (tag : Nat) (err : Bool)
  /-- NMP_WRITE_ACK (R437). -/
  | nmpWriteAck (port : Fin 32) (tag : Nat) (err : Bool)
  /-- PORT_TIMEOUT (R443). -/
  | portTimeout (port : Fin 32) (wr : Bool) (tag : Nat)
  /-- ATOMIC_LINE_UPDATE (R445). -/
  | atomicLineUpdate (port : Fin 32) (err : Bool)
  /-- GINV_ALL (R449). -/
  | ginvAll
  /-- GINV_RANGE (R449). -/
  | ginvRange
  /-- GINV_DONE (R449). -/
  | ginvDone
  /-- DATA_PACKET (R471). -/
  | dataPacket (l : Fin 64) (bytes : List Byte) (err : Bool)
  /-- LLCTL (R469). -/
  | llctl (l : Fin 64) (bytes : List Byte) (err : Bool)
  /-- READY (R187). -/
  | ready (l : Fin 64) (bytes : List Byte) (err : Bool)
  /-- CACK (R472). -/
  | cack (l : Fin 64) (bytes : List Byte) (err : Bool)
  /-- NACK (R487). -/
  | nack (l : Fin 64) (bytes : List Byte) (err : Bool)
  /-- INIT (R470). -/
  | init (l : Fin 64) (bytes : List Byte) (err : Bool)
  /-- PACKET_SEND (R466). -/
  | packetSend (l : Fin 64)
  /-- REPLAY_TIMEOUT (R469). -/
  | replayTimeout (l : Fin 64)
  /-- LLCTL_REPORT_DEADLINE (R467). -/
  | llctlReportDeadline (l : Fin 64)
  /-- INIT_RESEND (R470). -/
  | initResend (l : Fin 64)
  /-- READY_RESEND (R188). -/
  | readyResend (n : Nat)
  /-- LNK_UP_CHANGE (R470). -/
  | lnkUpChange (l : Fin 64) (up : Bool)
  /-- BUCKET_DEADLINE (R485). -/
  | bucketDeadline (job : BitVec 12) (bkt : W32)
  /-- RES_ADMIT (R410). -/
  | resAdmit (r : Fin 32)
  /-- RES_RELEASE (R425). -/
  | resRelease (r : Fin 32)
  /-- RES_REVOKE (R424). -/
  | resRevoke (r : Fin 32)
  /-- WINDOW_CLOSE (R403). -/
  | windowClose (r : Fin 32)
  /-- PENDING_CLEAR (R411). -/
  | pendingClear (r : Fin 32)
  /-- AEN_WRITE (R97). -/
  | aenWrite (v : W32)
  /-- AEN_EFF_CHANGE (R97). -/
  | aenEffChange (b : Fin 32)
  /-- BATCH_HOLD_EXPIRY (R428). -/
  | batchHoldExpiry (n : Nat)
  /-- DIVIDER_DECREASE_EFFECT (R427). -/
  | dividerDecreaseEffect
  /-- PARK_ABORT (R256). -/
  | parkAbort
  /-- PWU_COMMIT (R266). -/
  | pwuCommit
  /-- CTX_ENABLE (R347). -/
  | ctxEnable (c : Fin 64) (on : Bool)
  /-- CTX_RESET (R347). -/
  | ctxReset (c : Fin 64)
  /-- CTX_RESUME (R347). -/
  | ctxResume (c : Fin 64)
  /-- CTX_COMMIT (R347). -/
  | ctxCommit (c : Fin 64)
  /-- INJECT (R349). -/
  | inject (v : W32)
  /-- STREAM_CLEAR (R58). -/
  | streamClear (c : Fin 64) (strm : Fin 16)
  /-- BOLTER_CLEAR (R289). -/
  | bolterClear (c : Fin 64)
  /-- RECOVERY_WRITE (R128). -/
  | recoveryWrite (b : Fin 32) (v : W32)
  /-- ACCM_DBG_READ (R132). -/
  | accmDbgRead (b : Fin 32)
  /-- LEAT_COMMIT (R475). -/
  | leatCommit (g : Fin 8)
  /-- LINK_EN_WRITE (R470). -/
  | linkEnWrite (hi : Bool) (v : W32)
  /-- CSTATE_WRITE (R491). -/
  | cstateWrite (k : Fin 16) (v : W32)
  /-- FENCE_SET (R514). -/
  | fenceSet (v : W32)
  /-- FENCE_CLR (R513). -/
  | fenceClr (v : W32)
  /-- ELOG_CONS_WRITE (R521). -/
  | elogConsWrite (v : W32)
  /-- SCARF_STAGE_WRITE (R503). -/
  | scarfStageWrite (operator : Bool) (off : BitVec 12) (v : W32)
  /-- SCARF_GO (R505). -/
  | scarfGo (operator : Bool)
  /-- SCARF_ABANDON (R503). -/
  | scarfAbandon (operator : Bool)
  /-- SCARF_WINDOW_EXPIRY (R503). -/
  | scarfWindowExpiry
  /-- SCARF_CHECK_DONE (R506). -/
  | scarfCheckDone
  /-- SCARF_IMAGE_CHECK (R510). -/
  | scarfImageCheck (poisoned : Bool)
  /-- CDIV_WRITE (R530). -/
  | cdivWrite (v : W32)
  /-- VCODE_WRITE (R530). -/
  | vcodeWrite (v : W32)
  /-- BAY_LIMIT_WRITE (R531). -/
  | bayLimitWrite (b : Fin 32) (v : W32)
  /-- PWR_CMD_ON (R554). -/
  | pwrCmdOn (d : Fin 64)
  /-- PWR_CMD_RETENTION (R539). -/
  | pwrCmdRetention (d : Fin 64)
  /-- PWR_CMD_OFF (R539). -/
  | pwrCmdOff (d : Fin 64)
  /-- IDLE_TIMER_EXPIRY (R539). -/
  | idleTimerExpiry (d : Fin 56)
  /-- PWR_GOOD_CHANGE (R534). -/
  | pwrGoodChange (d : Fin 56) (code : BitVec 2)
  /-- EXIT_STEP_READY (R542). -/
  | exitStepReady (d : Fin 56)
  /-- VGOOD_CHANGE (R529). -/
  | vgoodChange (good : Bool)
  /-- EMTHROT_ASSERT (R519). -/
  | emthrotAssert
  /-- EMTHROT_RELEASE (R519). -/
  | emthrotRelease
  /-- ROOT_LOCK_LOSS (R527). -/
  | rootLockLoss
  /-- ROOT_LOCK_RISE (R527). -/
  | rootLockRise
  /-- ROOT_STOP (R546). -/
  | rootStop
  /-- ROOT_RESTART (R546). -/
  | rootRestart
  /-- NIA_WAKE (R538). -/
  | niaWake
  /-- NIA_RST_N_ASSERT (R548). -/
  | niaRstNAssert
  /-- NIA_RST_N_RELEASE (R549). -/
  | niaRstNRelease
  /-- FUSE_SENSE_DONE (R549). -/
  | fuseSenseDone (present : W32) (keyP keyO : BitVec 256) (vmin8 vmin10 vmin12 vmin16 : BitVec 8)
  /-- SELF_TEST_DONE (R551). -/
  | selfTestDone (cores : List (Fin 2048 × Fin 5)) (bays : W32)
  /-- READY_REACHED (R552). -/
  | readyReached
  /-- CORE_ERROR_DETECT (R518). -/
  | coreErrorDetect (core : Fin 2048) (store : Fin 5) (slot : Fin 6) (mid : Option Nat)
  /-- BAY_ERROR_DETECT (R524). -/
  | bayErrorDetect (b : Fin 32)
  /-- MGT_WRITE (R19). -/
  | mgtWrite (addr : BitVec 24) (v : W32)
  /-- SYNC_BEAT_RECEIVED (R468). -/
  | syncBeatReceived (l : Fin 64)
  /-- ENTRY_STEP_DONE (R540). -/
  | entryStepDone (d : Fin 56)
  /-- NMP_REQUEST_ACCEPTED (R435). -/
  | nmpRequestAccepted (port : Fin 32) (wr : Bool)
  /-- TAP_INSTRUMENT_ACCESS (R511). -/
  | tapInstrumentAccess (b : Fin 32) (t : TapTarget) (v : Option W32)
  deriving DecidableEq, Repr

end Sys2Proof
end

