-- ==== Sys2Proof/Machine/Forms.lean ====
section
/-!
DEFINITION. The words of an instruction and which row of the table they name (R325, R326, R351, R361
to R398): the opcode, and for opcodes that several rows share the field that tells the rows apart.
-/

namespace Sys2Proof

def Long.nat (w : Long) (k : Nat) : Nat := match k with
  | 0 => w.w0.toNat
  | 1 => w.w1.toNat
  | 2 => w.w2.toNat
  | _ => w.w3.toNat
def Long.opc (w : Long) : Nat := fld w.w0.toNat 1 7
def Long.words (w : Long) : List W32 := [w.w0, w.w1, w.w2, w.w3]
def Long.evc (w : Long) : Nat := fld w.w3.toNat 0 5
def Long.even' (w : Long) : Bool := bitOf w.w3.toNat 5
def Long.rec' (w : Long) : Bool := bitOf w.w3.toNat 6
def Long.int' (w : Long) : Bool := bitOf w.w3.toNat 7

/-- Bit `k` of MOD (R326). -/
def Long.md (w : Long) (k : Nat) : Bool := bitOf w.w0.toNat (26 + k)
/-- The FORM field of R381. -/
def Long.pform (w : Long) : Nat := fld w.w2.toNat 21 3
/-- The ROLE field of R396. -/
def Long.role (w : Long) : Nat := fld w.w2.toNat 23 2

/-- A short word names opcode `op` (R325). -/
def shortIs (op : Nat) (w : W32) : Bool := !bitOf w.toNat 0 && fld w.toNat 1 6 == op
/-- Long words name opcode `op` (R326). -/
def longIs (op : Nat) (w : Long) : Bool := bitOf w.w0.toNat 0 && w.opc == op

/-- The PGCW row of a FORM; the reserved values 6 and 7 are refused in the first row (R385). -/
def pgcwIs (k : Nat) (w : Long) : Bool := w.pform == k || (k == 0 && decide (6 ≤ w.pform))

/-- Byte `k` of a bundle. -/
def bByte (b : BitVec 512) (k : Nat) : Nat := fld b.toNat (8 * k) 8
/-- The KIND byte of a bundle (R329). -/
def bKind (b : BitVec 512) : Nat := bByte b 1

end Sys2Proof
end

