-- ==== Sys2Proof/WellFormed.lean ====
section
/-!
DEFINITION. Well-formed commands: an instruction row is well formed when its words name that row (R325,
R326, R351 and the form fields of R374, R377, R382, R385, R386, R396). Every other command is well
formed as its type has it.
-/

namespace Sys2Proof

/-- The words of an instruction row name the row. -/
def Instr.wf : Instr → Bool
  | .nop _ w => shortIs 0x00 w
  | .add _ w => shortIs 0x01 w
  | .sub _ w => shortIs 0x02 w
  | .mul _ w => shortIs 0x03 w
  | .and _ w => shortIs 0x04 w
  | .or _ w => shortIs 0x05 w
  | .xor _ w => shortIs 0x06 w
  | .shl _ w => shortIs 0x07 w
  | .shr _ w => shortIs 0x08 w
  | .sra _ w => shortIs 0x09 w
  | .addi _ w => shortIs 0x0A w
  | .shli _ w => shortIs 0x0B w
  | .cmp _ w => shortIs 0x0C w
  | .plog _ w => shortIs 0x0D w
  | .br _ w => shortIs 0x0E w
  | .ld _ w => shortIs 0x0F w
  | .st _ w => shortIs 0x10 w
  | .ldt _ w => shortIs 0x11 w
  | .stt _ w => shortIs 0x12 w
  | .ldl _ w => shortIs 0x13 w
  | .ldh _ w => shortIs 0x14 w
  | .evr _ w => shortIs 0x15 w
  | .evw _ w => shortIs 0x16 w
  | .csrr _ w => shortIs 0x17 w
  | .csrw _ w => shortIs 0x18 w
  | .halt _ w => shortIs 0x19 w
  | .mrd _ w => shortIs 0x20 w
  | .mwr _ w => shortIs 0x21 w
  | .evq _ w => shortIs 0x22 w
  | .wfe _ w => shortIs 0x23 w
  | .wfeRelease => true
  | .millerFault => true
  | .mmp _ w => longIs 0x00 w
  | .mmw _ w => longIs 0x01 w
  | .mmc _ w => longIs 0x02 w
  | .drain _ w => longIs 0x03 w
  | .accz _ w => longIs 0x04 w
  | .rstat _ w => longIs 0x05 w
  | .accsv _ w => longIs 0x06 w
  | .accld _ w => longIs 0x07 w
  | .attf _ w => longIs 0x20 w
  | .attb _ w => longIs 0x21 w
  | .attmConfirm _ w => longIs 0x22 w && (w.md 0)
  | .attmMerge _ w => longIs 0x22 w && (!w.md 0)
  | .bias _ w => longIs 0x23 w
  | .fnx _ w => longIs 0x30 w && (!w.md 0 && !w.md 1)
  | .fnxLoad _ w => longIs 0x30 w && (w.md 0)
  | .fnxCompat _ w => longIs 0x30 w && (!w.md 0 && w.md 1)
  | .gate _ w => longIs 0x31 w
  | .norm _ w => longIs 0x32 w
  | .qnt _ w => longIs 0x33 w
  | .kvap _ w => longIs 0x40 w && (!w.md 0)
  | .kvapSpec _ w => longIs 0x40 w && (w.md 0)
  | .kvcm _ w => longIs 0x41 w
  | .kvds _ w => longIs 0x42 w
  | .kvfn _ w => longIs 0x43 w
  | .kviv _ w => longIs 0x44 w
  | .pgcwCopy _ w => longIs 0x45 w && (pgcwIs 0 w)
  | .pgcwPromote _ w => longIs 0x45 w && (pgcwIs 1 w)
  | .pgcwDemote _ w => longIs 0x45 w && (pgcwIs 2 w)
  | .pgcwProtect _ w => longIs 0x45 w && (pgcwIs 3 w)
  | .pgcwUnprotect _ w => longIs 0x45 w && (pgcwIs 4 w)
  | .pgcwDigest _ w => longIs 0x45 w && (pgcwIs 5 w)
  | .pgfr _ w => longIs 0x46 w && (!w.md 1)
  | .pgfrLog _ w => longIs 0x46 w && (w.md 1)
  | .pgpn _ w => longIs 0x47 w
  | .bolt _ w => longIs 0x50 w
  | .bprf _ w => longIs 0x51 w
  | .mov _ w => longIs 0x58 w
  | .ldop _ w => longIs 0x59 w
  | .halo _ w => longIs 0x5A w
  | .ring _ w => longIs 0x60 w
  | .send _ w => longIs 0x61 w
  | .recv _ w => longIs 0x62 w
  | .wredContribute _ w => longIs 0x63 w && (w.role == 0 || w.role == 3)
  | .wredReduce _ w => longIs 0x63 w && (w.role == 1 || w.role == 2)
  | .topk _ w => longIs 0x64 w
  | .fence _ w => longIs 0x70 w
  | .fenceSatisfied _ => true
  | .wait _ w => longIs 0x71 w
  | .waitSatisfied _ => true
  | .sig _ w => longIs 0x72 w
  | .sigIncrement _ => true
  | .call _ w => longIs 0x73 w
  | .ret _ w => longIs 0x74 w
  | .tensorInstructionEnd _ => true
  | .passStart _ _ => true
  | .drainStart _ => true
  | .bundleAppend _ b => bKind b != 1
  | .bundleResync _ b => bKind b == 1
  | .heldBundleRelease _ => true
  | .consAddrPoll _ => true
  | .nmpReadReturn _ _ _ => true
  | .nmpWriteAck _ _ _ => true
  | .portTimeout _ _ _ => true
  | .atomicLineUpdate _ _ => true
  | .ginvAll => true
  | .ginvRange => true
  | .ginvDone => true
  | .dataPacket _ _ _ => true
  | .llctl _ _ _ => true
  | .ready _ _ _ => true
  | .cack _ _ _ => true
  | .nack _ _ _ => true
  | .init _ _ _ => true
  | .packetSend _ => true
  | .replayTimeout _ => true
  | .llctlReportDeadline _ => true
  | .initResend _ => true
  | .readyResend _ => true
  | .lnkUpChange _ _ => true
  | .bucketDeadline _ _ => true
  | .resAdmit _ => true
  | .resRelease _ => true
  | .resRevoke _ => true
  | .windowClose _ => true
  | .pendingClear _ => true
  | .aenWrite _ => true
  | .aenEffChange _ => true
  | .batchHoldExpiry _ => true
  | .dividerDecreaseEffect => true
  | .parkAbort => true
  | .pwuCommit => true
  | .ctxEnable _ _ => true
  | .ctxReset _ => true
  | .ctxResume _ => true
  | .ctxCommit _ => true
  | .inject _ => true
  | .streamClear _ _ => true
  | .bolterClear _ => true
  | .recoveryWrite _ _ => true
  | .accmDbgRead _ => true
  | .leatCommit _ => true
  | .linkEnWrite _ _ => true
  | .cstateWrite _ _ => true
  | .fenceSet _ => true
  | .fenceClr _ => true
  | .elogConsWrite _ => true
  | .scarfStageWrite _ _ _ => true
  | .scarfGo _ => true
  | .scarfAbandon _ => true
  | .scarfWindowExpiry => true
  | .scarfCheckDone => true
  | .scarfImageCheck _ => true
  | .cdivWrite _ => true
  | .vcodeWrite _ => true
  | .bayLimitWrite _ _ => true
  | .pwrCmdOn _ => true
  | .pwrCmdRetention _ => true
  | .pwrCmdOff _ => true
  | .idleTimerExpiry _ => true
  | .pwrGoodChange _ _ => true
  | .exitStepReady _ => true
  | .vgoodChange _ => true
  | .emthrotAssert => true
  | .emthrotRelease => true
  | .rootLockLoss => true
  | .rootLockRise => true
  | .rootStop => true
  | .rootRestart => true
  | .niaWake => true
  | .niaRstNAssert => true
  | .niaRstNRelease => true
  | .fuseSenseDone _ _ _ _ _ _ _ => true
  | .selfTestDone _ _ => true
  | .readyReached => true
  | .coreErrorDetect _ _ _ _ => true
  | .bayErrorDetect _ => true
  | .mgtWrite _ _ => true
  | .syncBeatReceived _ => true
  | .entryStepDone _ => true
  | .nmpRequestAccepted _ _ => true
  | .tapInstrumentAccess _ _ _ => true

end Sys2Proof
end

