-- ==== Sys2Proof/Decode.lean ====
section
/-!
DEFINITION. Decoding of a table word. The table gives no row bits, so no word of it spells a command:
a command reaches the block as itself, not as a word (log 17).
-/

namespace Sys2Proof

/-- The command that a word of the table spells: none, since no row of the table has bits. -/
def decodeTableWord (_nbits _w : Nat) : Option Instr := none

end Sys2Proof
end

