-- ==== Sys2Proof/Machine/Num.lean ====
section
/-!
DEFINITION. Exact numbers and the roundings of the spec: extended reals with signed zeros and signed
infinities (R42, R43, R50), round to nearest even, toward zero and stochastic rounding (R52, R53),
the draw generator (R54), and rounding of a real known only through enclosing intervals.
-/

namespace Sys2Proof

/-- A value that may be special. A finite value is a sign and a magnitude, so a zero keeps its sign
(R43). -/
inductive Ext where
  | nan
  | inf (neg : Bool)
  | fin (neg : Bool) (mag : ℚ)
  deriving DecidableEq, Repr

namespace Ext

/-- The signed rational of a finite value, 0 for a special. -/
def toRat : Ext → ℚ
  | fin true m => -m
  | fin false m => m
  | _ => 0

def isFin : Ext → Bool
  | fin _ _ => true
  | _ => false

def isNan : Ext → Bool
  | nan => true
  | _ => false

def isNeg : Ext → Bool
  | inf b => b
  | fin b _ => b
  | nan => false

def isZero : Ext → Bool
  | fin _ m => decide (m = 0)
  | _ => false

/-- An exact rational; zero is +0 (R43: a zero drained from AccM is written as +0). -/
def ofRat (q : ℚ) : Ext := if q < 0 then fin true (-q) else fin false q

/-- The magnitude of a finite value, 0 for a special. -/
def mag : Ext → ℚ
  | fin _ m => m
  | _ => 0

/-- IEEE 754 product, exact (R50; zeros take the exclusive-or of the signs, R43). -/
def mul : Ext → Ext → Ext
  | nan, _ => nan
  | _, nan => nan
  | inf a, inf b => inf (a != b)
  | inf a, fin b m => if m = 0 then nan else inf (a != b)
  | fin a m, inf b => if m = 0 then nan else inf (a != b)
  | fin a m, fin b n => fin (a != b) (m * n)

/-- IEEE 754 sum, exact. A zero sum is +0 unless both operands are −0. -/
def add : Ext → Ext → Ext
  | nan, _ => nan
  | _, nan => nan
  | inf a, inf b => if a = b then inf a else nan
  | inf a, fin _ _ => inf a
  | fin _ _, inf b => inf b
  | fin a m, fin b n =>
    if m = 0 ∧ n = 0 then fin (a && b) 0 else ofRat (toRat (fin a m) + toRat (fin b n))

def negate : Ext → Ext
  | nan => nan
  | inf a => inf (!a)
  | fin a m => fin (!a) m

/-- A value times an exact positive factor. -/
def scale (k : ℚ) : Ext → Ext
  | fin a m => fin a (m * k)
  | x => x

end Ext

/-- `2^e` for any integer exponent. -/
def pow2 (e : Int) : ℚ := if 0 ≤ e then (2 : ℚ) ^ e.toNat else 1 / (2 : ℚ) ^ (-e).toNat

/-- `floor(log2 x)` of a positive rational; 0 for a number that is not positive. -/
def floorLog2 (x : ℚ) : Int :=
  if x ≤ 0 then 0
  else
    let e : Int := (Nat.log2 x.num.natAbs : Int) - (Nat.log2 x.den : Int)
    if x < pow2 e then e - 1 else e

/-- Rounding modes of the RND field (R52), the stochastic one with its 24-bit draw (R53). -/
inductive Rnd where
  | rne
  | sr (u : Nat)
  | rtz
  deriving DecidableEq, Repr

/-- Round a magnitude to the integer grid: lo is the neighbour nearer to zero (R53). -/
def roundMag (r : Rnd) (x : ℚ) : Nat :=
  let n := x.floor.toNat
  let f := x - n
  if f = 0 then n
  else match r with
    | .rtz => n
    | .rne => if f < 1 / 2 then n else if 1 / 2 < f then n + 1 else if n % 2 = 0 then n else n + 1
    | .sr u => if u < (f * 2 ^ 24).floor.toNat then n + 1 else n

/-- Round to the integer grid with lo the floor and hi the ceiling whatever the sign: AccM's grid
(R53, R109, R110, R121, R147). -/
def roundFloorGrid (u : Nat) (x : ℚ) : Int :=
  let n := x.floor
  let f := x - n
  if f = 0 then n else if u < (f * 2 ^ 24).floor.toNat then n + 1 else n

/-- Round to nearest integer, ties to even, signed. -/
def rneInt (x : ℚ) : Int := if x < 0 then -(roundMag .rne (-x) : Int) else (roundMag .rne x : Int)

/-- Round a magnitude to a floating-point grid with `mb` fraction bits and minimum exponent `emin`. -/
def roundFloatMag (mb : Nat) (emin : Int) (r : Rnd) (x : ℚ) : ℚ :=
  if x = 0 then 0
  else
    let e := max (floorLog2 x) emin
    let q := pow2 (e - mb)
    (roundMag r (x / q) : ℚ) * q

/-- The largest finite binary32 value. -/
def f32Max : ℚ := (2 ^ 24 - 1) * 2 ^ 104

/-- Round a magnitude into binary32: `none` is infinity. -/
def rnd32Mag (r : Rnd) (x : ℚ) : Option ℚ :=
  let y := roundFloatMag 23 (-126) r x
  if f32Max < y then (match r with | .rtz => some f32Max | _ => none) else some y

/-- Round into binary32 in a mode. -/
def rnd32 (r : Rnd) : Ext → Ext
  | .fin s m => match rnd32Mag r m with
    | some y => .fin s y
    | none => .inf s
  | x => x

/-- rn32: round to nearest even into binary32 (R148). -/
def rn32 (x : Ext) : Ext := rnd32 .rne x

/-- rn32 of an exact rational. -/
def rn32Q (x : ℚ) : Ext := rn32 (Ext.ofRat x)

/-- A square rounded into binary32 and held at the largest finite value (R57). -/
def sq32 (x : ℚ) : ℚ := match rnd32Mag .rne (x * x) with
  | some y => y
  | none => f32Max

/-- r24: a positive real to 24 significant bits, to nearest even, unbounded exponent (R151). -/
def r24 (x : ℚ) : ℚ :=
  if x ≤ 0 then 0
  else
    let q := pow2 (floorLog2 x - 23)
    (roundMag .rne (x / q) : ℚ) * q

/-- The bits of a binary32 value (a finite magnitude must lie on binary32's grid). -/
def f32Bits : Ext → Nat
  | .nan => 0x7FC00000
  | .inf s => (if s then 0xFF800000 else 0x7F800000)
  | .fin s m =>
    let sg := if s then 0x80000000 else 0
    if m = 0 then sg
    else
      let e := max (floorLog2 m) (-126)
      let k := (m / pow2 (e - 23)).floor.toNat
      if k < 2 ^ 23 then sg + k else sg + (e + 127).toNat * 2 ^ 23 + (k - 2 ^ 23)

/-- Decode an IEEE format with `eb` exponent bits and `mb` fraction bits. -/
def ieeeDecode (eb mb x : Nat) : Ext :=
  let s := bitOf x (eb + mb)
  let e := fld x mb eb
  let f := fld x 0 mb
  let bias : Int := 2 ^ (eb - 1) - 1
  if e = 2 ^ eb - 1 then (if f = 0 then .inf s else .nan)
  else if e = 0 then .fin s ((f : ℚ) * pow2 (1 - bias - mb))
  else .fin s (((f + 2 ^ mb : Nat) : ℚ) * pow2 ((e : Int) - bias - mb))

/-- Decode a binary32 word. -/
def f32Decode (x : Nat) : Ext := ieeeDecode 8 23 x

/-! ### The draw generator -/

/-- One mixing round of R54. -/
def srMix (h : Nat) : Nat :=
  let h1 := h ^^^ (h >>> 31)
  let h2 := h1 * 0xBF58476D1CE4E5B9 % 2 ^ 64
  let h3 := h2 ^^^ (h2 >>> 27)
  h3 * 0x94D049BB133111EB % 2 ^ 64

/-- sr_draw (R54): 24 bits from the seed and the key fields of R55. -/
def srDraw (seed site issue element count : Nat) : Nat :=
  let w0 := (element + 2 ^ 32 * count) % 2 ^ 64
  let w1 := (site + 256 * issue) % 2 ^ 64
  let h := seed ^^^ (w1 * 0x9E3779B97F4A7C15 % 2 ^ 64) ^^^ w0
  srMix (srMix (srMix h)) >>> 40

/-- A rounding mode from an RND code and the draw it would take. -/
def rndOf (code u : Nat) : Rnd := if code = 1 then .sr u else if code = 2 then .rtz else .rne

/-! ### Reals given by intervals -/

/-- A positive real given by enclosing intervals, one for each precision. -/
abbrev Apx := Nat → ℚ × ℚ

/-- The interval of an exact rational. -/
def Apx.exact (q : ℚ) : Apx := fun _ => (q, q)

/-- The value of a rounding on a real: the first precision at which both ends of the interval round
alike decides. -/
def decideApx {β : Type} [DecidableEq β] (f : ℚ → β) (a : Apx) : List Nat → β
  | [] => f (a 64).1
  | n :: ns =>
    let i := a n
    let lo := f i.1
    if lo = f i.2 then lo
    else match ns with
      | [] => lo
      | _ => decideApx f a ns

/-- The precisions tried. -/
def precisions : List Nat := [64, 128, 256, 512, 1024, 2048]

def roundApx {β : Type} [DecidableEq β] (f : ℚ → β) (a : Apx) : β := decideApx f a precisions

end Sys2Proof
end

