-- ==== Sys2Proof/Machine/Trans.lean ====
section
/-!
DEFINITION. Enclosing intervals for the real functions of R196: exp2, exp, log2, log, sqrt, tanh,
erf and what is made of them. Each takes a precision in bits and answers rationals on both sides of
the exact value; where the exact value is rational the two are equal. R198 rounds the exact function
value once, and `roundApx` (Num.lean) does so through these intervals.
-/

namespace Sys2Proof.Trans

/-- Largest multiple of `2^-n` not above. -/
def dn (n : Nat) (x : ℚ) : ℚ := ((x * 2 ^ n).floor : ℚ) / 2 ^ n

/-- Smallest multiple of `2^-n` not below. -/
def up (n : Nat) (x : ℚ) : ℚ := ((x * 2 ^ n).ceil : ℚ) / 2 ^ n

/-- An interval of reals. -/
abbrev Iv := ℚ × ℚ

/-- Sum of the exponential series: `i` counts terms, `t` the current term (within `t.1..t.2`). -/
def expLoop (n : Nat) (x : Iv) : Nat → Nat → Iv → Iv → Iv
  | 0, _, t, s => (s.1, s.2 + 2 * t.2)
  | k + 1, i, t, s =>
    let t' : Iv := (dn n (t.1 * x.1 / i), up n (t.2 * x.2 / i))
    expLoop n x k (i + 1) t' (s.1 + t.1, s.2 + t.2)

/-- `e^x` for `0 ≤ x ≤ 1`, terms until they fall below the precision. -/
def expUnit (n : Nat) (x : Iv) : Iv := expLoop n x (n / 4 + 12) 1 (1, 1) (0, 0)

/-- Repeated squaring of a positive interval. -/
def sqTimes (n : Nat) : Nat → Iv → Iv
  | 0, a => a
  | k + 1, a => sqTimes n k (dn n (a.1 * a.1), up n (a.2 * a.2))

/-- `e^x` for `x` in a nonnegative interval below 512. -/
def expPos (n : Nat) (x : Iv) : Iv :=
  let m := n + 32
  let k := if x.2 ≤ 1 then 0 else (floorLog2 x.2).toNat + 1
  sqTimes m k (expUnit m (x.1 / 2 ^ k, x.2 / 2 ^ k))

/-- `e^x` of an interval of one sign. Beyond ±512 the value lies outside every destination's range,
and a fixed huge or tiny interval stands for it. -/
def expIv (n : Nat) (x : Iv) : Iv :=
  if 0 ≤ x.1 then
    if 512 < x.2 then (2 ^ 700, 2 ^ 700) else expPos n x
  else if x.1 < -512 then (1 / 2 ^ 700, 1 / 2 ^ 700)
  else
    let y := expPos (n + 800) (max 0 (-x.2), -x.1)
    (dn (n + 800) (1 / y.2), up (n + 800) (1 / y.1))

/-- Sum of `z^(2i+1) / (2i+1)`. -/
def atanhLoop (n : Nat) (z2 : Iv) : Nat → Nat → Iv → Iv → Iv
  | 0, _, t, s => (s.1, s.2 + 2 * t.2)
  | k + 1, i, t, s =>
    atanhLoop n z2 k (i + 2) (dn n (t.1 * z2.1), up n (t.2 * z2.2)) (s.1 + dn n (t.1 / i), s.2 + up n (t.2 / i))

/-- `2 atanh z` for a rational `0 ≤ z ≤ 1/3`. -/
def ln2z (n : Nat) (z : ℚ) : Iv :=
  let m := n + 16
  let s := atanhLoop m (dn m (z * z), up m (z * z)) (n / 3 + 12) 1 (dn m z, up m z) (0, 0)
  (2 * s.1, 2 * s.2)

/-- `ln 2`. -/
def ln2 (n : Nat) : Iv := ln2z n (1 / 3)

/-- `ln x` of a positive rational, signed. -/
def lnIv (n : Nat) (x : ℚ) : Iv :=
  if x = 1 then (0, 0)
  else
    let k := floorLog2 x
    let m := x / pow2 k
    let a := ln2z (n + 16) ((m - 1) / (m + 1))
    let l := ln2 (n + 16)
    if 0 ≤ k then (a.1 + k * l.1, a.2 + k * l.2) else (a.1 + k * l.2, a.2 + k * l.1)

/-- `log2 x` of a positive rational, exact at powers of two. -/
def log2Iv (n : Nat) (x : ℚ) : Iv :=
  let k := floorLog2 x
  if x = pow2 k then (k, k)
  else
    let m := x / pow2 k
    let a := ln2z (n + 16) ((m - 1) / (m + 1))
    let l := ln2 (n + 16)
    (k + dn (n + 16) (a.1 / l.2), k + up (n + 16) (a.2 / l.1))

/-- `2^x` of a rational, exact at integers. -/
def exp2Iv (n : Nat) (x : ℚ) : Iv :=
  let k := x.floor
  let f := x - k
  if f = 0 then (pow2 (max (-5000) (min 5000 k)), pow2 (max (-5000) (min 5000 k)))
  else
    let l := ln2 (n + 16)
    let e := expPos (n + 8) (dn (n + 16) (f * l.1), up (n + 16) (f * l.2))
    let p := pow2 (max (-5000) (min 5000 k))
    (p * e.1, p * e.2)

/-- `√x` of a nonnegative rational, exact at squares. -/
def sqrtIv (n : Nat) (x : ℚ) : Iv :=
  let a := x.num.natAbs
  let b := x.den
  let r := Nat.sqrt a
  let t := Nat.sqrt b
  if r * r = a ∧ t * t = b then ((r : ℚ) / t, (r : ℚ) / t)
  else
    let s := Nat.sqrt (a * b * 4 ^ (n + 200))
    ((s : ℚ) / ((b : ℚ) * 2 ^ (n + 200)), ((s + 1 : Nat) : ℚ) / ((b : ℚ) * 2 ^ (n + 200)))

def sqrtOfIv (n : Nat) (x : Iv) : Iv := ((sqrtIv n x.1).1, (sqrtIv n x.2).2)

/-- Sum of the alternating arctangent series of `1/q`. -/
def atanInvLoop (n q : Nat) : Nat → Nat → ℚ → Iv → Bool → Iv
  | 0, _, t, s, _ => (s.1 - 2 * t, s.2 + 2 * t)
  | k + 1, i, t, s, neg =>
    let d : ℚ := t / i
    let s' : Iv := if neg then (s.1 - up n d, s.2 - dn n d) else (s.1 + dn n d, s.2 + up n d)
    atanInvLoop n q k (i + 2) (t / (q * q)) s' (!neg)

/-- π by Machin's formula. -/
def piIv (n : Nat) : Iv :=
  let a := atanInvLoop (n + 16) 5 (n / 4 + 8) 1 (1 / 5) (0, 0) false
  let b := atanInvLoop (n + 16) 239 (n / 15 + 8) 1 (1 / 239) (0, 0) false
  (16 * a.1 - 4 * b.2, 16 * a.2 - 4 * b.1)

/-- Sum of `2^i x^(2i+1) / (2i+1)!!`, all terms positive. -/
def erfLoop (n : Nat) (x2 : ℚ) : Nat → Nat → Iv → Iv → Iv
  | 0, _, t, s => (s.1, s.2 + 2 * t.2)
  | k + 1, i, t, s =>
    erfLoop n x2 k (i + 2) (dn n (t.1 * 2 * x2 / i), up n (t.2 * 2 * x2 / i)) (s.1 + t.1, s.2 + t.2)

/-- `erf x` for a positive `x` given by an interval and its exact rational square. Where the square passes 500 the
distance from 1 is below 2^-700 and below every rounding. -/
def erfOf (n : Nat) (x : Iv) (x2 : ℚ) : Iv :=
  if 500 < x2 then (1 - 1 / 2 ^ 700, 1 - 1 / 2 ^ 2400)
  else
    let m := n + 64
    let s := erfLoop m x2 ((6 * x2).ceil.toNat + n / 2 + 16) 3 (dn m x.1, up m x.2) (0, 0)
    let e := expIv m (-x2, -x2)
    let p := sqrtOfIv m (piIv (m + 8))
    (dn m (2 * s.1 * e.1 / p.2), up m (2 * s.2 * e.2 / p.1))

/-- `1 / (1 + e^-x)`. -/
def sigmoidIv (n : Nat) (x : ℚ) : Iv :=
  if x = 0 then (1 / 2, 1 / 2)
  else
    let e := expIv n (-x, -x)
    (1 / (1 + e.2), 1 / (1 + e.1))

/-- `tanh x` for `0 < x`. -/
def tanhPosIv (n : Nat) (x : Iv) : Iv :=
  let e := expIv n (-2 * x.2, -2 * x.1)
  ((1 - e.2) / (1 + e.2), (1 - e.1) / (1 + e.1))

/-- `0.5 (1 + tanh z)` for an interval `z` of one sign: `1 / (1 + e^(-2z))`. -/
def halfTanh (n : Nat) (z : Iv) : Iv :=
  let e := expIv n (-2 * z.2, -2 * z.1)
  (1 / (1 + e.2), 1 / (1 + e.1))

/-- Order an interval's ends. -/
def ord (a b : ℚ) : Iv := if a ≤ b then (a, b) else (b, a)

end Sys2Proof.Trans
end

