-- ==== Sys2Proof/Machine/Formats.lean ====
section
/-!
DEFINITION. The element formats of spec/02: FMT codes (R32), decoding of elements and scales (R34 to
R39), conversion into a destination with its counts (R42, R43, R57), block quantising (R44 to R46),
multi-word splits (R49 to R51) and the packing of elements (R41).
-/

namespace Sys2Proof

/-- The FMT codes 0x0 to 0xC of R32, in order. -/
inductive Fmt where
  | e4m3 | e5m2 | e3m2 | e2m3 | e2m1 | int8 | n4 | t2 | bf16 | f16 | f32 | i32 | wide
  deriving DecidableEq, Repr

namespace Fmt

/-- The format of a FMT code; the codes 0xD to 0xF are reserved (R33). -/
def ofCode : Nat → Option Fmt
  | 0 => some e4m3
  | 1 => some e5m2
  | 2 => some e3m2
  | 3 => some e2m3
  | 4 => some e2m1
  | 5 => some int8
  | 6 => some n4
  | 7 => some t2
  | 8 => some bf16
  | 9 => some f16
  | 10 => some f32
  | 11 => some i32
  | 12 => some wide
  | _ => none

def code : Fmt → Nat
  | e4m3 => 0
  | e5m2 => 1
  | e3m2 => 2
  | e2m3 => 3
  | e2m1 => 4
  | int8 => 5
  | n4 => 6
  | t2 => 7
  | bf16 => 8
  | f16 => 9
  | f32 => 10
  | i32 => 11
  | wide => 12

/-- Element bits (R32). -/
def bits : Fmt → Nat
  | e4m3 | e5m2 | int8 => 8
  | e3m2 | e2m3 => 6
  | e2m1 | n4 => 4
  | t2 => 2
  | bf16 | f16 => 16
  | f32 | i32 => 32
  | wide => 128

/-- Elements in one scaled block: 32, 16 for N4, 1 where the format has no block scale. -/
def block : Fmt → Nat
  | n4 => 16
  | e4m3 | e5m2 | e3m2 | e2m3 | e2m1 | int8 | t2 => 32
  | _ => 1

/-- FMT 0x0 to 0x7: element plane and scale plane (R41). -/
def isBlock : Fmt → Bool
  | bf16 | f16 | f32 | i32 | wide => false
  | _ => true

/-- FMT 0x8 to 0xA. -/
def isWord : Fmt → Bool
  | bf16 | f16 | f32 => true
  | _ => false

/-- FMT 0x0 to 0x9: the destinations that R57 counts. -/
def counted (f : Fmt) : Bool := f.isBlock || f == bf16 || f == f16

/-- Bytes of one unit of R323: a block, an element, or a WIDE tile. -/
def unitBytes : Fmt → Nat
  | e4m3 | e5m2 | int8 => 32
  | e3m2 | e2m3 => 24
  | e2m1 => 16
  | n4 | t2 => 8
  | bf16 | f16 => 2
  | f32 | i32 => 4
  | wide => 16448

/-- The floor of R61: the formats a floored tensor may not have. -/
def belowFloor : Fmt → Bool
  | e3m2 | e2m3 | e2m1 | n4 | t2 => true
  | _ => false

/-- Words of a multi-word split (R49): 2 for bfloat16 and binary16, 3 for binary32, 1 otherwise. -/
def words : Fmt → Nat
  | bf16 | f16 => 2
  | f32 => 3
  | _ => 1

/-- Fraction bits and exponent bias of the small and word float formats. -/
def fracBits : Fmt → Nat
  | e4m3 => 3
  | e5m2 => 2
  | e3m2 => 2
  | e2m3 => 3
  | e2m1 | n4 => 1
  | bf16 => 7
  | f16 => 10
  | f32 => 23
  | _ => 0

def bias : Fmt → Nat
  | e4m3 => 7
  | e5m2 => 15
  | e3m2 => 3
  | e2m3 | e2m1 | n4 => 1
  | bf16 | f32 => 127
  | f16 => 15
  | _ => 0

/-- Exponent bits. -/
def expBits : Fmt → Nat
  | e4m3 => 4
  | e5m2 => 5
  | e3m2 => 3
  | e2m3 | e2m1 | n4 => 2
  | bf16 | f32 => 8
  | f16 => 5
  | _ => 0

/-- Largest finite magnitude (R34, R42; the word formats by IEEE 754). -/
def maxFin : Fmt → ℚ
  | e4m3 => 448
  | e5m2 => 57344
  | e3m2 => 28
  | e2m3 => 15 / 2
  | e2m1 | n4 => 6
  | int8 => 127 / 64
  | t2 => 1
  | bf16 => 255 * 2 ^ 120
  | f16 => 65504
  | f32 => f32Max
  | _ => 0

/-- emax of R44. -/
def emax : Fmt → Int
  | e4m3 => 8
  | e5m2 => 15
  | e3m2 => 4
  | e2m3 | e2m1 => 2
  | _ => 0

/-- Lead bit G of the term bound table (R106). -/
def leadG : Fmt → Int
  | e4m3 => 8
  | e5m2 => 15
  | e3m2 => 4
  | e2m3 => 2
  | e2m1 => 2
  | int8 => 1
  | n4 => 3
  | t2 => 0
  | _ => 7

/-- Quantum exponent q of the term bound table (R106). -/
def quantQ : Fmt → Int
  | e4m3 => -9
  | e5m2 => -16
  | e3m2 => -4
  | e2m3 => -3
  | e2m1 => -1
  | int8 => -6
  | n4 => -4
  | _ => 0

end Fmt

/-! ### Decoding -/

/-- An element's value before its block scale (R34, R36, R37, R39). -/
def decodeElem (f : Fmt) (x : Nat) : Ext :=
  let flt := fun (fm : Fmt) =>
    let mb := fm.fracBits
    let eb := fm.expBits
    let s := bitOf x (eb + mb)
    let e := fld x mb eb
    let m := fld x 0 mb
    if e = 0 then Ext.fin s ((m : ℚ) * pow2 (1 - (fm.bias : Int) - mb))
    else Ext.fin s (((m + 2 ^ mb : Nat) : ℚ) * pow2 ((e : Int) - fm.bias - mb))
  match f with
  | .e4m3 => if x % 128 = 127 then .nan else flt .e4m3
  | .e5m2 => if x % 128 = 124 then .inf (bitOf x 7) else if 124 < x % 128 then .nan else flt .e5m2
  | .int8 => Ext.ofRat ((sextNat 8 x : ℚ) / 64)
  | .t2 => if x % 4 = 1 then .fin false 1 else if x % 4 = 3 then .fin true 1 else .fin false 0
  | .bf16 => ieeeDecode 8 7 x
  | .f16 => ieeeDecode 5 10 x
  | .f32 => ieeeDecode 8 23 x
  | .i32 => Ext.ofRat (sextNat 32 x : ℚ)
  | .wide => .fin false 0
  | fm => flt fm

/-- A block scale's value; `none` is NaN (R35, R37). Formats without a block scale have scale 1. -/
def decodeScale (f : Fmt) (b : Nat) : Option ℚ :=
  if !f.isBlock then some 1
  else if b = 255 then none
  else if f = .n4 then
    let e := b / 8
    let m : ℚ := (b % 8 : Nat)
    if e = 0 then some (m / 8 * pow2 (-14)) else some ((1 + m / 8) * pow2 ((e : Int) - 15))
  else some (pow2 ((b : Int) - 127))

/-- The scale exponent e of R106's table; `none` where the scale is not finite. -/
def scaleExp (f : Fmt) (b : Nat) : Option Int :=
  if !f.isBlock then some 0
  else if b = 255 then none
  else if f = .n4 then (if b / 8 = 0 then some (-14) else some ((b / 8 : Nat) - 15))
  else some ((b : Int) - 127)

/-- A scaled element (R35: a NaN scale makes every element NaN). -/
def scaled (x : Ext) : Option ℚ → Ext
  | none => .nan
  | some s => x.scale s

/-! ### Conversion of one value -/

/-- What one conversion counted (R57): at most one of the three. -/
inductive ConvFlag where
  | none | sat | flush | nonfin
  deriving DecidableEq, Repr

/-- One converted element: its bits, its decoded value before the scale, what it counted. -/
structure Conv where
  bits : Nat
  val : Ext
  flag : ConvFlag
  deriving DecidableEq, Repr

/-- The bits of a finite value on the grid of a float format. -/
def encodeFloat (f : Fmt) (neg : Bool) (mag : ℚ) : Nat :=
  let mb := f.fracBits
  let eb := f.expBits
  let sg := if neg then 2 ^ (eb + mb) else 0
  if mag = 0 then sg
  else
    let emin : Int := 1 - (f.bias : Int)
    let e := max (floorLog2 mag) emin
    let k := (mag / pow2 (e - mb)).floor.toNat
    if k < 2 ^ mb then sg + k else sg + (e + f.bias).toNat * 2 ^ mb + (k - 2 ^ mb)

/-- Special inputs in the formats that have no code for them: the block becomes NaN (R42). -/
def noSpecial : Fmt → Bool
  | .e3m2 | .e2m3 | .e2m1 | .int8 | .n4 | .t2 => true
  | _ => false

/-- Conversion into a destination of a value already divided by its block scale (R42, R43, R46). -/
def conv (f : Fmt) (r : Rnd) : Ext → Conv
  | .nan => match f with
    | .e4m3 => ⟨0x7F, .nan, .nonfin⟩
    | .e5m2 => ⟨0x7E, .nan, .nonfin⟩
    | .bf16 => ⟨0x7FC0, .nan, .nonfin⟩
    | .f16 => ⟨0x7E00, .nan, .nonfin⟩
    | .f32 => ⟨0x7FC00000, .nan, .nonfin⟩
    | _ => ⟨0, .nan, .nonfin⟩
  | .inf s => match f with
    | .e4m3 => ⟨0x7F, .nan, .nonfin⟩
    | .e5m2 => ⟨if s then 0xFC else 0x7C, .inf s, .nonfin⟩
    | .bf16 => ⟨if s then 0xFF80 else 0x7F80, .inf s, .nonfin⟩
    | .f16 => ⟨if s then 0xFC00 else 0x7C00, .inf s, .nonfin⟩
    | .f32 => ⟨if s then 0xFF800000 else 0x7F800000, .inf s, .nonfin⟩
    | _ => ⟨0, .nan, .nonfin⟩
  | .fin s m => match f with
    | .int8 =>
      let n := roundMag r (m * 64)
      let lim := if s then 128 else 127
      let k := min n lim
      let fl := if lim < n then ConvFlag.sat else if n = 0 ∧ m ≠ 0 then .flush else .none
      let v : Int := if s then -(k : Int) else k
      ⟨wrapInt 8 v, Ext.ofRat ((v : ℚ) / 64), fl⟩
    | .t2 =>
      let n := roundMag r m
      let k := min n 1
      let fl := if 1 < n then ConvFlag.sat else if n = 0 ∧ m ≠ 0 then .flush else .none
      ⟨if k = 0 then 0 else if s then 3 else 1, if k = 0 then .fin false 0 else .fin s 1, fl⟩
    | .i32 | .wide => ⟨0, .fin false 0, .none⟩
    | _ =>
      let y := roundFloatMag f.fracBits (1 - (f.bias : Int)) r m
      if f.maxFin < y then
        if f.isWord && r != .rtz then
          ⟨encodeFloat f s 0 + (2 ^ f.expBits - 1) * 2 ^ f.fracBits, .inf s, .sat⟩
        else ⟨encodeFloat f s f.maxFin, .fin s f.maxFin, .sat⟩
      else if y = 0 ∧ m ≠ 0 then
        let z := s && !noSpecial f
        ⟨encodeFloat f z 0, .fin z 0, .flush⟩
      else ⟨encodeFloat f s y, .fin s y, .none⟩

/-! ### Counters -/

/-- What a run of conversions adds to a stream counter set (R57). -/
structure Counts where
  elem : Nat := 0
  sat : Nat := 0
  flush : Nat := 0
  nonfin : Nat := 0
  err2 : ℚ := 0
  sig2 : ℚ := 0
  deriving DecidableEq, Repr

namespace Counts

def zero : Counts := {}

def add (a b : Counts) : Counts :=
  ⟨a.elem + b.elem, a.sat + b.sat, a.flush + b.flush, a.nonfin + b.nonfin, a.err2 + b.err2, a.sig2 + b.sig2⟩

/-- One converted element: `x` its input, `q` its decoded result with the scale (R57: a special
result counts q as 0; a special input adds nothing to either sum). -/
def one (x q : Ext) (fl : ConvFlag) : Counts :=
  let e := if x.isFin then sq32 (x.toRat - q.toRat) else 0
  let g := if x.isFin then sq32 x.toRat else 0
  ⟨1, b2n (fl == .sat), b2n (fl == .flush), b2n (fl == .nonfin), e, g⟩

end Counts

/-- The result of converting one block (or one element of an unscaled format). -/
structure Block where
  scale : Nat
  elems : List Nat
  vals : List Ext
  counts : Counts
  deriving DecidableEq, Repr

/-- The largest finite magnitude of a list. -/
def maxMag (xs : List Ext) : ℚ := xs.foldl (fun a x => if x.isFin && decide (a < x.mag) then x.mag else a) 0

/-- The N4 scale byte of R45: the smallest at or above a target, 0xFE if none. -/
def n4Scale (t : ℚ) : Nat :=
  if t ≤ 0 then 0
  else if t ≤ 7 / 8 * pow2 (-14) then (t * 8 / pow2 (-14)).ceil.toNat
  else
    let e := max (floorLog2 t) (-14)
    let k := (t / pow2 e * 8).ceil.toNat
    let b : Int := if k ≤ 15 then (e + 15) * 8 + (k - 8) else (e + 16) * 8
    if b < 8 then 8 else if 254 < b then 254 else b.toNat

/-- The scale byte that quantising chooses (R44, R45, R46): `x` is the largest finite magnitude,
`hr` the headroom. -/
def chooseScale (f : Fmt) (hr : Nat) (x : ℚ) : Nat :=
  if x = 0 then 0
  else if f = .n4 then n4Scale (x * 2 ^ hr / 6)
  else
    let e := floorLog2 x - (if f = .t2 then 0 else f.emax) + hr
    (max (-127) (min 127 e) + 127).toNat

/-- Convert the elements of one block by given draws (one rounding mode each), with a given scale
byte. A special element in a format without codes for it makes the whole block NaN (R42). -/
def convWithScale (f : Fmt) (sb : Nat) (ts : ℚ) (xs : List (Ext × Rnd)) : Block :=
  let bad := noSpecial f && xs.any (fun p => !p.1.isFin)
  if bad then
    ⟨255, xs.map (fun _ => 0), xs.map (fun _ => .nan),
      (xs.map fun p => Counts.one p.1 .nan (if p.1.isFin then .none else .nonfin)).foldl Counts.add Counts.zero⟩
  else
    let s : ℚ := (decodeScale f sb).getD 1 * ts
    let cs := xs.map fun p => conv f p.2 (if s = 0 then p.1 else p.1.scale (1 / s))
    let vs := cs.map fun c => c.val.scale (if s = 0 then 1 else s)
    ⟨sb, cs.map Conv.bits, vs,
      (List.zipWith (fun (p : Ext × Rnd) (c : Conv × Ext) => Counts.one p.1 c.2 c.1.flag) xs (cs.zip vs)).foldl
        Counts.add Counts.zero⟩

/-- Quantise one block (R44 to R46): a block whose finite elements are all zero gets scale 0x00.
`ts` is the tensor scale of an N4 destination. -/
def quantBlock (f : Fmt) (hr : Nat) (ts : ℚ) (xs : List (Ext × Rnd)) : Block :=
  let x := maxMag (xs.map Prod.fst) / ts
  convWithScale f (chooseScale f hr x) ts xs

/-- Convert a run of values into a destination row: in blocks where the format has a scale. -/
def convRow (f : Fmt) (hr : Nat) (ts : ℚ) (xs : List (Ext × Rnd)) : List Block :=
  if f.isBlock then (chunks f.block xs.length xs).map (quantBlock f hr ts)
  else xs.map fun p =>
    let c := conv f p.2 p.1
    ⟨0, [c.bits], [c.val], Counts.one p.1 c.val c.flag⟩

/-- The sum of what a list of blocks counted. -/
def sumCounts (bs : List Block) : Counts := (bs.map Block.counts).foldl Counts.add Counts.zero

/-! ### Packing (R41) -/

/-- Pack elements of `b` bits little-endian into bytes. -/
def packBits (b n : Nat) (xs : List Nat) : List Byte :=
  natLe n ((xs.foldr (fun x acc => x % 2 ^ b + acc * 2 ^ b) 0))

/-! ### Multi-word splits (R49 to R51) -/

/-- Exponent of a finite nonzero element, subnormals at the minimum normal exponent (R49). -/
def wordExp (f : Fmt) (x : Ext) : Int := max (floorLog2 x.mag) (1 - (f.bias : Int))

/-- Emax of a block: `none` if every element is zero or special. -/
def blockEmax (f : Fmt) (xs : List Ext) : Option Int :=
  (xs.filter fun x => x.isFin && !x.isZero).foldl
    (fun a x => match a with
      | none => some (wordExp f x)
      | some e => some (max e (wordExp f x))) none

/-- The balanced digits of R49, least significant first. -/
def digits : Nat → Int → List Int
  | 0, _ => []
  | n + 1, q =>
    let d := ((q + 128) % 256) - 128
    d :: digits n ((q - d) / 256)

/-- The word digits of one element; specials contribute zero (R50). -/
def splitElem (f : Fmt) (em : Int) (x : Ext) : List Int :=
  let w := f.words
  let k : Int := if w = 3 then 21 else 13
  if x.isFin then digits w (rneInt (x.toRat * pow2 (k - em))) else List.replicate w 0

/-- The exponent that word `j` of a block carries: `8j + Emax − k` (R49, R106). -/
def wordScaleExp (f : Fmt) (em : Int) (j : Nat) : Int := 8 * j + em - (if f.words = 3 then 21 else 13)

end Sys2Proof
end

