-- ==== Sys2Proof/Machine/State.lean ====
section
/-!
DEFINITION. The state of the block: every register, memory, queue, counter, mode and pin the spec
names, as plain data, and the queue of waiting commands. INVENTORY.md lists each field with the rule
that names it and its reset value. Stores with an index are `Map`s in canonical form, so equal
machines are equal data.
-/

namespace Sys2Proof.Machine

/-- Reasons to stop with a fault. No meaning of this model raises one: what the spec calls a fault is
a record and a change of state. The constructor is kept for the interface (safe). -/
inductive Fault where
  /-- raised by no command; safe -/
  | unused
  deriving DecidableEq, Repr

/-- Reasons to refuse a command. -/
inductive Refusal where
  /-- raised by an arm of `exec` whose row has no meaning yet; safe -/
  | notModelled (mnemonic : String)
  /-- raised by an instruction row whose words name another row of the table, so that no such
  command exists; safe -/
  | otherRow
  deriving DecidableEq, Repr

/-! ### Accumulator memory and cores -/

/-- An AccM entry: F, the four flags and the parity bits (R101, R102). -/
structure Entry where
  f : BitVec 96 := 0
  nan : Bool := false
  pinf : Bool := false
  ninf : Bool := false
  inex : Bool := false
  par : BitVec 4 := 0
  deriving DecidableEq, Repr

/-- An AccM slot (R95, R99, R103, R105, R112; R146 for the row-anchored form). `anch` holds the anchor
under key 0, the sub-slot anchors under keys 0 to 3 when `quad`, and the row anchors under keys 0 to
31 when `rowForm`; no key listed is the unanchored state. -/
structure Slot where
  quad : Bool := false
  rowForm : Bool := false
  poisoned : Bool := false
  passes : BitVec 64 := 0
  owner : Nat := 0
  anch : Map (Option Int) := []
  ent : Map Entry := []
  deriving DecidableEq, Repr

/-- A row-statistic entry (R63, R145): the maximum, the row sum, the sum of squares, each sum with
its anchor; the row state has the codes of R153. -/
structure RowStat where
  m : Int := 0
  sum : Entry := {}
  sumA : Option Int := none
  sq : Entry := {}
  sqA : Option Int := none
  st : Nat := 0
  deriving DecidableEq, Repr

/-- One column of the stationary tile that a bank holds (R66, R74): the values of its cells down the column, the word
of them that a word pass multiplies, and their scale exponents. -/
structure BankCol where
  col : Nat
  vals : List Ext
  word : List Ext
  exps : List (Option Int)
  /-- the K positions that its cells hold, where a fold can make them differ from another column's (R77, R303) -/
  pos : List Int := []
  deriving DecidableEq, Repr

/-- A core (R62, R73, R89, R311, R314, R516). `bankRun` and `bankBed` are the bank bits of the last passes; a bank is
listed under 2 × array + bank, the runner being array 0. `chain` holds the two banks of the chain buffer. -/
structure Core where
  slots : Map Slot := []
  stat : Map RowStat := []
  bankRun : Bool := false
  bankBed : Bool := false
  banks : Map (List BankCol) := []
  chain : Map (List Byte) := []
  chainBit : Bool := false
  ob : Map Byte := []
  obTag : Map (Option Nat) := []
  obPoison : Map Bool := []
  deriving DecidableEq, Repr

/-- An entry of the translation micro-buffer or the look-aside buffer (R245). -/
structure Lab where
  dom : Nat
  record : Nat
  gen : Nat
  layer : Nat
  page : Nat
  pte : Nat
  deriving DecidableEq, Repr

/-- A bay (R17, R128, R131, R132, R161, R208, R245, R531). -/
structure Bay where
  mode : Nat := 1
  recovery : Bool := false
  reanch : Nat := 0
  dbgAddr : Nat := 0
  dbgD0 : W32 := 0
  dbgD1 : W32 := 0
  dbgD2 : W32 := 0
  dbgD3 : W32 := 0
  biasGen : Nat := 0
  biasBank : Nat := 0
  biasLoading : Bool := false
  biasReserved : Bool := false
  biasValid : Bool := false
  upGen : Nat := 0
  upBank : Nat := 0
  upLoading : Bool := false
  upValid : Bool := false
  upStore : Map Byte := []
  micro : List Lab := []
  mem : Map Byte := []
  memPoison : Map Bool := []
  limit : Nat := 16
  limitEff : Nat := 16
  limPend : Bool := false
  /-- a landing cleared the bay's TEST_EN bit while it was not on: its slots go at its exit (R511, R543) -/
  dropDue : Bool := false
  deriving DecidableEq, Repr

/-! ### Contexts -/

/-- Run state of a context (R347): FENCED is read from the fence register, OFF from ENABLE. -/
inductive Run where
  | going | stopped | halted
  deriving DecidableEq, Repr

/-- Why issue holds (R331 to R345, R427, R159, R207, R278). -/
inductive Hold where
  | none | wait | fence | ring | inflight | evw | scalar | fetch | bank | decrease | work | record
  deriving DecidableEq, Repr

/-- The committed or staged fields of a context (R347). -/
structure CtxCfg where
  fwOwned : Bool := false
  cmplBase : Nat := 0
  cmplSize : Nat := 0
  consAddr : Nat := 0
  deriving DecidableEq, Repr

/-- A stream counter set (R57, R58). The two sums are exact. -/
structure Stream where
  sat : Nat := 0
  flush : Nat := 0
  nonfin : Nat := 0
  elem : Nat := 0
  err2 : ℚ := 0
  sig2 : ℚ := 0
  escalated : Bool := false
  deriving DecidableEq, Repr

/-- What an outstanding scalar access will do on its return (R333); `record` is the sequence record that the instruction at
the issue position waits for (R230). -/
inductive ScalarOp where
  | ld (d : Nat) | ldt (d : Nat) | ldl (i : Nat) | st | fetch | record (no : Nat)
  deriving DecidableEq, Repr

/-- A scalar access that holds its context: lines still outstanding, and what failed (R333, R517). -/
structure Scalar where
  op : ScalarOp
  addr : Nat
  need : Nat
  bad : Option (Nat × Nat)
  word : W32
  spos : Nat
  called : Bool
  deriving DecidableEq, Repr

/-- A context (R320, R321, R331, R343 to R347, R289, R430). A return-stack entry is a position in the
stream (`true`) or an address in called code (`false`). -/
structure Ctx where
  s : Map Word := []
  p : Map Bool := []
  t : Map (BitVec 256) := []
  l : Map (BitVec 2048) := []
  e : Map W32 := []
  h : Map (BitVec 24) := []
  seed : Word := 0
  issueSeq : Nat := 0
  defClass : Nat := 2
  lastErr : W32 := 0
  err : Bool := false
  window : Map W32 := []
  nextPos : Nat := 0
  newest : Nat := 0
  stack : List (Bool × Nat) := []
  code : Option Nat := none
  codeBuf : List (Nat × List Byte) := []
  callSpos : Nat := 0
  enable : Bool := false
  run : Run := .going
  hold : Hold := .none
  scalar : Option Scalar := none
  /-- a record that the instruction at the issue position could not read: its number, the fault code, the port (R230) -/
  recBad : Option (Nat × Nat × Nat) := none
  cfg : CtxCfg := {}
  staged : CtxCfg := {}
  commitErr : Bool := false
  rseq : Nat := 0
  domain : Nat := 0
  resv : Nat := 0
  consRead : Nat := 0
  streams : Map Stream := []
  sink : Nat := 0
  win : Nat := 0
  specDiscarded : Nat := 0
  groupsConfirmed : Nat := 0
  draftsCommitted : Nat := 0
  weight : Nat := 0x10
  baymask : Nat := 0
  vtime : ℚ := 0
  deriving DecidableEq, Repr

/-! ### Tensor instructions in flight -/

/-- Where an instruction's data lands: the destinations that poison marks (R516). -/
inductive Tgt where
  | slot (core slot : Nat)
  | bay (b off len : Nat)
  | ob (core off len : Nat)
  | ext (addr len : Nat)
  /-- an operand of the item `ix` of instruction `n` on a core, on its way to the staging region for a pass into `slot` (R299) -/
  | work (n core : Nat) (ix : List Nat) (slot : Option (Nat × Nat))
  /-- a chunk that instruction `n` is to send (R517), and the payload that a link's replay reads again (R469) -/
  | chunk (n c : Nat)
  | resend (link : Nat)
  /-- keys of the summary of page `p` that instruction `n` is to write (R227, R516) -/
  | keys (n p : Nat)
  deriving DecidableEq, Repr

/-- Bytes of an operand in the staging half of a core's operand buffer (R74, R299): where they were read from, and the
slots that their poison marks. -/
structure Held where
  loc : Nat
  addr : Nat
  bytes : List Byte
  bad : List (Option (Nat × Nat)) := []
  deriving DecidableEq, Repr

/-- How an instruction's reads reach the operand buffer: at once; into the staging region for the item named (R299), with
what has been read for each item so far; or they have been made, and their bytes and what poison they brought are known. -/
inductive Staging where
  | off
  | fetching (core : Nat) (ix : List Nat) (got : List (Nat × List Nat × Held))
  | staged (bad : List (Option (Nat × Nat))) (held : List Held)
  deriving DecidableEq, Repr

/-- A pass of an item that is several: the core, the array and the streamed rows (R72). -/
structure Part where
  core : Nat
  bed : Bool
  rows : Nat
  deriving DecidableEq, Repr

/-- One piece of an array instruction's work on one core: a pass (R71) or a drain-path item (R118),
the slots it touches, what the instruction's own meaning reads it by, whether its operands have been requested, and
the slots whose operands came poisoned. -/
structure Work where
  core : Nat
  pass : Bool
  bed : Bool
  rows : Nat
  slots : List Nat
  ix : List Nat
  /-- the passes of a chained or key tile that have not started: its rows are those of all of them -/
  parts : List Part := []
  fetched : Bool := false
  bad : List (Option (Nat × Nat)) := []
  /-- its operands as they came into the staging half of the operand buffer -/
  held : List Held := []
  deriving DecidableEq, Repr

/-- A resolved page of an instruction's key list (R143, R234): its index in the sequence, its entry, the token
slots `[lo, hi)` of it that are keys, and whether it is there (0), missing under R280 (1), the speculative
extent of R277 (2), or a page of that extent that is missing (3). -/
structure PageRef where
  page : Nat
  pte : Nat
  lo : Nat
  hi : Nat
  state : Nat
  deriving DecidableEq, Repr

/-- A chunk's progress at its sender: index, link it was sent on, 0 unsent, 1 sent, 2 acknowledged,
3 its data read and not sent yet, 4 withheld because a read brought poison (R517). -/
structure TxChunk where
  link : Nat
  st : Nat
  poison : Bool
  deriving DecidableEq, Repr

/-- What RING, SEND, RECV and WRED hold while they run (R186 to R191, R477 to R490). -/
structure LinkOp where
  job : Nat := 0
  step : Nat := 0
  mode : Nat := 0
  isWred : Bool := false
  role : Nat := 0
  src : Nat := 0
  len : Nat := 0
  dst : Nat := 0
  rlen : Nat := 0
  rb : Nat := 0
  tx : Nat := 0
  rx : Nat := 0
  res : Nat := 0
  nc : Nat := 0
  dl : Nat := 0
  readyIn : Bool := false
  readyOut : Bool := false
  chunks : Map TxChunk := []
  rxMask : Map Nat := []
  rxDone : Map Bool := []
  /-- chunks of which a write or add was not sent, its header check failed or its access denied: they are not acknowledged
  (R446, R472, log 143) -/
  rxBad : Map Bool := []
  ackDue : List (Nat × Nat) := []
  /-- link to 1 + the XCLK cycle of its last READY (R188) -/
  sent : Map Nat := []
  /-- the reducer's verdict has arrived, or the bucket is done (R488, R490) -/
  decided : Bool := false
  deriving DecidableEq, Repr

/-- The scope of a KVIV (R384): its form, and the domain, record, layer and pages that it names. -/
structure IvScope where
  form : Nat
  dom : Nat
  record : Nat
  layer : Nat
  page : Nat
  n : Nat
  deriving DecidableEq, Repr

/-- What the Page Walk Unit has read for the instruction that it serves (R243): lines of tables, records, metadata, rings and
logs, round by round, with the fault code that each brought or 0; the lines of the round that is out and what of them is
back; the rounds used so far and the lines asked for as the instruction's work is gone through again; whether the round
is the first (1) or a later (2) level of a walk; the KVIV scopes whose pages its walk does not install (R248); and
whether every round counts as read, when the lines are only counted (R359). -/
structure Turn where
  got : List (List (Nat × Nat)) := []
  wait : List Nat := []
  back : List (Nat × Nat) := []
  done : Nat := 0
  want : List Nat := []
  walk : Nat := 0
  kills : List IvScope := []
  all : Bool := false
  deriving DecidableEq, Repr

/-- A tensor instruction issued and not ended, with everything it captured (R334). -/
structure Inst where
  n : Nat
  ctx : Nat
  opc : Nat
  w : Long
  spos : Nat
  called : Bool
  issue : Nat
  seed : Word
  cls : Nat
  dom : Nat
  bays : List Nat
  cores : List Nat
  /-- the span width on each bay, listed where it is above 1 (R136, R176) -/
  span : Map Nat := []
  /-- one above the highest slot its class may use on each bay, listed where it is not 6 (R96, R97) -/
  slotTop : Map Nat := []
  s : Map Word
  t : Map (BitVec 256)
  l : BitVec 2048
  h : Map (BitVec 24)
  apb : List Byte := []
  resv : Option Nat := none
  cost : Nat := 0
  deadline : Option Nat := none
  work : List Work := []
  wrote : List (Nat × Nat) := []
  faults : List Nat := []
  memErr : Option (Nat × Nat) := none
  poison : Bool := false
  t2seen : Bool := false
  result : Word := 0
  /-- SEQID of the named record, and its record number and generation (R229, R230) -/
  seqid : Nat := 0
  seq : Option (Nat × Nat) := none
  /-- the second sequence that PGPN names (R254) -/
  seq2 : Option (Nat × Nat) := none
  spec : Bool := false
  session : Option Nat := none
  /-- bay to 1 + the bias bank, and 1 + the micro-program bank, captured at issue (R159, R207) -/
  biasG : Map Nat := []
  upG : Map Nat := []
  /-- sums of squares of the deferred and the two-pass RMS forms, by row (R218, R220) -/
  rowQ : List (List Nat × RowStat) := []
  pages : List PageRef := []
  parked : List Nat := []
  /-- pages whose parked request walks again (R256) -/
  again : List Nat := []
  /-- how many pieces of its table edits are done (R250) -/
  pos : Nat := 0
  turn : Turn := {}
  /-- CLEN and SLEN of the record it names, and S and W of its context, at issue (R272, R277) -/
  clen : Nat := 0
  slen : Nat := 0
  sink : Nat := 0
  win : Nat := 0
  /-- pages of which a key came poisoned (R516) -/
  badPages : List Nat := []
  recBad : Option (Nat × Nat × Nat) := none
  /-- frames of each pool reserved and not used, and log entries under key 64 (R238) -/
  held : Map Nat := []
  link : Option LinkOp := none
  /-- the batch it was joined into, and its first row on each core (R428) -/
  batch : Option Nat := none
  /-- rows that its next pass still writes before a core fault stops it (R518) -/
  cut : Option Nat := none
  staging : Staging := .off
  /-- bays and items whose stationary tile has been read for the relay (R300) -/
  relayed : List (Nat × List Nat) := []
  rowOff : Map Nat := []
  /-- its lane work waits for a chained instruction to leave the softmax stage (R193) -/
  laneDue : Bool := false
  aux : List Nat := []
  deriving DecidableEq, Repr

/-! ### Memory ports and the Granary -/

/-- What a request serves. -/
inductive Why where
  /-- a read or write of tensor instruction `n` -/
  | tensor (n : Nat)
  /-- LD, ST, LDT, STT, LDL or a CALL fetch of context `c` -/
  | scalar (c : Nat)
  /-- a completion record of context `c`; `irq` says that a completion pulse follows (R346) -/
  | record (c : Nat) (irq : Bool)
  /-- error record `n` with its code (R521) -/
  | elog (n code : Nat)
  /-- the consumed count of context `c` (R345) -/
  | cons (c : Nat)
  /-- a line of the firmware image (R510) -/
  | image
  /-- a chunk landing of instruction `n`: link and chunk (R471, R472) -/
  | land (n link chunk : Nat)
  /-- a write of the Page Walk Unit that serves no instruction (R250) -/
  | pwu
  /-- a write of a Weir bucket: JOB and BKT (R490) -/
  | weir (job bkt : Nat)
  /-- a write that stages the local contribution of a bucket (R480, R485) -/
  | stage (job bkt : Nat)
  /-- the read of a line that the port's atomic unit updates, for the update numbered `seq` (R445) -/
  | line (seq : Nat)
  /-- a line that the Page Walk Unit reads for instruction `n` (R243) -/
  | table (n : Nat)
  /-- a payload that a link's replay reads again for an instruction that has ended (R469) -/
  | leat
  deriving DecidableEq, Repr

/-- A request of a memory port (R435). A write carries the bytes it enables with the values it writes
and the values they replace. -/
structure Req where
  seq : Nat
  addr : Nat
  size : Nat
  wr : Bool
  clsA : Bool
  dom : Nat
  data : List (Nat × Byte)
  old : List (Nat × Byte)
  poison : Bool
  fill : Bool
  why : Why
  tgt : List Tgt
  tag : Nat := 0
  since : Nat := 0
  deriving DecidableEq, Repr

/-- A line of a WIDE contribution waiting for its atomic update (R445, R446): `hdr` marks the tile's
header line; an entry line waits while its tile's header is unchecked. -/
structure Atom where
  seq : Nat
  line : Nat
  tile : Nat
  hdr : Bool
  ready : Bool
  data : List Byte
  poison : Bool
  clsA : Bool
  dom : Nat
  why : Why
  /-- the line's read has returned; whether in error -/
  got : Option Bool := none
  deriving DecidableEq, Repr

/-- A memory port (R435 to R445, R474). `atoms` is its atomic unit, at most 256 lines; `atomsIn` holds what the senders have
for it that the unit has not taken up. -/
structure Port where
  waiting : List Req := []
  rq : List Req := []
  wr : List Req := []
  rdOut : List Req := []
  wrOut : List Req := []
  lateRd : List Nat := []
  lateWr : List Nat := []
  atoms : List Atom := []
  atomsIn : List Atom := []
  reads : Nat := 0
  writes : Nat := 0
  atomics : Nat := 0
  hits : Nat := 0
  errs : Nat := 0
  timeouts : Nat := 0
  deriving DecidableEq, Repr

/-- The ports' global registers and the Granary (R448, R449, R474): a line held is listed under its
128-byte line number with its bytes. -/
structure Mem where
  ext : Map Byte := []
  gran : Map (List Byte) := []
  /-- lines of the Granary with an uncorrectable error (R518) -/
  granBad : List Nat := []
  ports : Map Port := []
  tmo : Nat := 0x4000
  poisonKept : Bool := false
  ginvBusy : Bool := false
  ginvAll : Bool := false
  ginvBase : Nat := 0
  ginvPages : Nat := 0
  nextSeq : Nat := 1
  deriving DecidableEq, Repr

/-! ### Sluice -/

/-- The staged or admitted fields of a reservation (R401, R431). -/
structure ResvCfg where
  ctx : Nat := 0
  maxdiv : Nat := 0
  lcred : Nat := 0
  bays : Nat := 0
  cores : Nat := 0
  w : Nat := 0
  p : Nat := 0
  d : Nat := 0
  links : Nat := 0
  portsh : Map Nat := []
  deriving DecidableEq, Repr

/-- A reservation (R400 to R425, R431): STATE 0 FREE, 1 ADMITTED, 2 REVOKED, 3 REFUSED. -/
structure Resv where
  cfg : ResvCfg := {}
  staged : ResvCfg := {}
  state : Nat := 0
  pending : Bool := false
  opened : Bool := false
  start : Nat := 0
  reason : Nat := 0
  lastbud : Nat := 0
  rt : Nat := 0
  aseq : Nat := 0
  used : Nat := 0
  misses : Nat := 0
  releasing : Bool := false
  deriving DecidableEq, Repr

/-- A batch not yet released (R428): its first instruction, the CCLK cycle it reached the former, its members. -/
structure Batch where
  head : Nat
  t0 : Nat
  members : List Nat
  deriving DecidableEq, Repr

/-- The Sluice's global state (R428, R429). -/
structure Sluice where
  uCap : Nat := 0
  aen : Nat := 0
  aenEff : Nat := 0
  lMem : Nat := 0
  holdA : Nat := 0
  holdBC : Nat := 0
  cGap : Nat := 0
  revokes : Nat := 0
  budget : Nat := 0
  misses : Nat := 0
  nextAseq : Nat := 1
  resv : Map Resv := []
  gap : Map Nat := []
  /-- the contexts that had ready Class B work at the last pass or drain boundary (R420) -/
  readyB : List Nat := []
  batches : List Batch := []
  told : List Nat := []
  deriving DecidableEq, Repr

/-! ### Page Walk Unit and Bolter -/

/-- A pool's fields (R265). -/
structure PoolCfg where
  tpp : Nat := 0
  kvf : Nat := 0
  kind : Nat := 0
  heads : Nat := 0
  dim : Nat := 0
  tier : Nat := 0
  enable : Bool := false
  partner : Nat := 0
  partnerEn : Bool := false
  snapPool : Nat := 0
  snapEn : Bool := false
  frameBase : Nat := 0
  slots : Nat := 0
  metaBase : Nat := 0
  ringBase : Nat := 0
  ringInit : Nat := 0
  deriving DecidableEq, Repr

/-- A pool (R237, R265). -/
structure Pool where
  cfg : PoolCfg := {}
  staged : PoolCfg := {}
  last : PoolCfg := {}
  fstride : Nat := 0
  avail : Nat := 0
  retiring : Nat := 0
  head : Nat := 0
  tail : Nat := 0
  deriving DecidableEq, Repr

/-- An entry of the retire queue (R250). -/
structure Retire where
  pool : Nat
  slot : Nat
  epoch : Nat
  dom : Nat
  deriving DecidableEq, Repr

/-- A parked request (R256): the instruction and the page it waits for. -/
structure Park where
  inst : Nat
  record : Nat
  gen : Nat
  layer : Nat
  page : Nat
  deriving DecidableEq, Repr

/-- A walk slot (R244): the instruction whose walk holds it. -/
structure WalkSlot where
  inst : Nat
  clsA : Bool
  deriving DecidableEq, Repr

/-- The PWU's fields in a staged group (R264). -/
structure PwuCfg where
  enable : Bool := false
  seqBase : Nat := 0
  tablePool : Nat := 0
  snapBase : Nat := 0
  snapSize : Nat := 0
  deriving DecidableEq, Repr

/-- The PWU (R230, R244, R245, R249, R250, R256, R259, R264) and the Bolter (R289). -/
structure Pwu where
  cfg : PwuCfg := {}
  staged : PwuCfg := {}
  commitErr : Bool := false
  walkEpoch : Nat := 0
  walks : Nat := 0
  labHits : Nat := 0
  promotes : Nat := 0
  snapHead : Nat := 0
  snapTail : Nat := 0
  snapEpoch : Map Nat := []
  pools : Map Pool := []
  lab : List Lab := []
  recs : List (Nat × List Byte) := []
  parks : List Park := []
  /-- instructions that wait for a walk slot or for their turn at a sequence's tables, in order of arrival (R244, R246) -/
  queue : List Nat := []
  slots : List WalkSlot := []
  retire : List Retire := []
  boltEnable : Bool := false
  scored : Nat := 0
  lists : Nat := 0
  deriving DecidableEq, Repr

/-! ### Links and the Weir -/

/-- A packet of a link (R460, R461): its header and payload bytes, the VC, the cells it takes. -/
structure Pkt where
  bytes : List Byte
  vc : Nat
  cells : Nat
  inst : Nat
  seqd : Bool
  resv : Option Nat
  /-- where its payload is read again from on a replay (R469); none for a header-only packet -/
  src : Option (Nat × Nat)
  /-- the links an acknowledgement may move to (R472, R487) -/
  mask : Nat := 0
  /-- the domain and class that its payload is read for -/
  dom : Nat := 0
  clsA : Bool := false
  deriving DecidableEq, Repr

/-- A link group (R475). -/
structure LinkGroup where
  sepmode : Bool := false
  vc0 : Nat := 0
  vcmax : Nat := 0x3F8
  sSepmode : Bool := false
  sVc0 : Nat := 0
  sVcmax : Nat := 0x3F8
  retryMax : Nat := 8
  replayTmo : Nat := 0x1000
  commitErr : Bool := false
  deriving DecidableEq, Repr

/-- A link (R462 to R471, R475): `st` is LSTATE. -/
structure Link where
  st : Nat := 0
  up : Bool := false
  partner : Nat := 0
  pvc0 : Nat := 0
  pvcmax : Nat := 0
  seenInit : Bool := false
  frameErrs : Nat := 0
  replays : Nat := 0
  strays : Nat := 0
  txPkts : Nat := 0
  rxPkts : Nat := 0
  nextSeq : Nat := 0
  expSeq : Nat := 0
  unacked : List Pkt := []
  queue : List Pkt := []
  replay : List Pkt := []
  replayDue : Bool := false
  initDue : Bool := false
  ctlDue : Bool := false
  nakOwed : Bool := false
  ignoring : Bool := false
  repCount : Nat := 0
  ackSince : Nat := 0
  repSince : Nat := 0
  initSince : Nat := 0
  held : Map Nat := []
  freed : Map Nat := []
  lastVc : Nat := 0
  /-- the chunk in progress on each virtual channel: instruction, chunk, next part, parts (R466, R480) -/
  part : Map (Option (Nat × Nat × Nat × Nat)) := []
  lastTx : List Byte := []
  /-- cells held on the partner's VC0, in order, with their reservation (R465) -/
  vc0Q : List (Option Nat × Nat) := []
  initAcked : Bool := false
  /-- the payload of the replay's next packet has been asked for: whether a read brought poison -/
  reread : Option Bool := none
  /-- job, bucket, contributor, tile and next part of the reduction chunk in progress on each virtual channel -/
  rxPart : Map (List Nat) := []
  deriving DecidableEq, Repr

/-- A READY that waits for its instruction (R188). -/
structure ReadyEnt where
  job : Nat
  key : Nat
  wred : Bool
  mask : Nat
  deriving DecidableEq, Repr

/-- A contribution to a bucket (R481 to R486): KIND 1 dense, 2 pairs; the part mask of each tile; verdict 0 open,
1 counted, 2 counted with non-finite elements, 3 excluded, 4 late, 5 refused. -/
structure Contrib where
  id : Nat
  loc : Bool := false
  slot : Nat
  kind : Nat := 0
  nblk : Nat := 0
  tiles : Map Nat := []
  verdict : Nat := 0
  link : Nat := 0
  last : Nat := 0
  acked : Bool := false
  /-- the first 64 bytes of each chunk whose part 0 has landed -/
  heads : Map (List Byte) := []
  deriving DecidableEq, Repr

/-- A bucket the Weir has closed (R486): its RX mask, and the contributors that it has decided with their chunks landed or that
it turned away, each with whether it has been acknowledged. -/
structure ClosedKey where
  job : Nat
  bkt : Nat
  rx : Nat
  known : List (Nat × Bool)
  deriving DecidableEq, Repr

/-- An open bucket (R480 to R486), or one closed and not yet done. -/
structure Bucket where
  job : Nat
  bkt : Nat
  inst : Nat
  exclude : Bool
  started : Bool := false
  t0 : Nat := 0
  closed : Bool := false
  closeAt : Nat := 0
  contribs : List Contrib := []
  late : List Nat := []
  refused : List Nat := []
  dead : List Nat := []
  deriving DecidableEq, Repr

/-- The Weir (R480 to R495). -/
structure Weir where
  enable : Bool := false
  nanPolicy : Bool := false
  id : Nat := 0xFF
  bucketsDone : Nat := 0
  lateSent : Nat := 0
  nonfinSeen : Nat := 0
  returned : Nat := 0
  unknown : Nat := 0
  cstate : Map Nat := []
  buckets : List Bucket := []
  closedKeys : List ClosedKey := []
  deriving DecidableEq, Repr

/-- The Leat (R475, R188). -/
structure Leat where
  linkEn : Map Bool := []
  groups : Map LinkGroup := []
  links : Map Link := []
  readyJob : List ReadyEnt := []
  readyKey : List ReadyEnt := []
  /-- packets for the Weir that wait until it is ON: link, header, payload (R536) -/
  weirHeld : List (Nat × List Byte × List Byte) := []
  deriving DecidableEq, Repr

/-! ### Hopper, protection, log -/

/-- A Hopper channel (R329 to R331, R450 to R453): the bundles it holds with no credit returned. -/
structure Channel where
  exp : Nat := 0
  inSeq : Bool := true
  held : List (BitVec 512) := []
  rdy : Bool := false
  credits : Nat := 0
  deriving DecidableEq, Repr

/-- The scarf commit (R501 to R506, R510, R522). Areas hold their words by offset. -/
structure Scarf where
  cseq : W32 := 0
  phase : Nat := 0
  pGo : Bool := false
  oGo : Bool := false
  result : Nat := 0
  start : Nat := 0
  win : Nat := 0xB2D05E00
  areaP : Map W32 := []
  areaO : Map W32 := []
  digP : Nat := 0
  digO : Nat := 0
  imaging : Bool := false
  imgBad : Bool := false
  deriving DecidableEq, Repr

/-- The protection unit (R496, R511, R513, R522). -/
structure Prot where
  win : Map W32 := []
  coreF : Map Bool := []
  bayF : Map Bool := []
  portF : Map Bool := []
  linkF : Map Bool := []
  ctxF : Map Bool := []
  domF : Map Bool := []
  seqF : Map (Option (Nat × Nat)) := []
  dbgEn : W32 := 0
  testEn : W32 := 0
  imgAddr : Nat := 0
  imgLen : Nat := 0
  imgDigest : Map W32 := []
  scarf : Scarf := {}
  /-- 1 + the NCLK cycle in which fences last landed, and their units: scope, index, GEN (R515) -/
  landedAt : Nat := 0
  landed : List (Nat × Nat × Nat) := []
  deriving DecidableEq, Repr

/-- The error log and the event queue (R350, R521). A held record keeps its bytes and code. -/
structure Log where
  head : Nat := 0
  cons : Nat := 0
  lost : Nat := 0
  valid : Bool := false
  full : Bool := false
  held : List (List Byte × Nat) := []
  base : Nat := 0
  evq : List (BitVec 128) := []
  evqLost : Nat := 0
  deriving DecidableEq, Repr

/-! ### Power, clocks, start-up, the Miller -/

/-- A power domain (R533 to R544, R553). `step` counts the completed NCLK steps of an entry, the steps left of one that
is being undone (`target` 0), or the step of an exit that runs; `cmd` is a PWR_CMD target that waits for the domain. -/
structure Dom where
  state : Nat := 4
  entering : Bool := false
  exiting : Bool := false
  step : Nat := 0
  target : Nat := 0
  cmd : Nat := 0
  abort : Bool := false
  wake : Bool := false
  req : Nat := 0
  good : Nat := 0
  saved : Bool := false
  t1 : Nat := 0
  t2 : Nat := 0
  t3 : Nat := 0
  since : Nat := 0
  idle : Nat := 0
  deriving DecidableEq, Repr

/-- The power and clock controller (R526 to R531, R553). -/
structure Pwr where
  cdiv : Nat := 3
  cdivEff : Nat := 3
  divPend : Bool := false
  /-- the change of the divider waits only for an edge common to both dividers (R526) -/
  divGo : Bool := false
  divErr : Bool := false
  rootStopEn : Bool := false
  vcode : Nat := 140
  vcodeEff : Nat := 140
  vreq : Nat := 140
  vgood : Bool := false
  /-- the level of the VGOOD input -/
  vgoodPin : Bool := false
  vgoodFrom : Nat := 0
  voltErr : Bool := false
  cmdErr : Bool := false
  emthrot : Bool := false
  doms : Map Dom := []
  /-- 1 + the NCLK cycle in which bays last came up, and how many (R532) -/
  upAt : Nat := 0
  ups : Nat := 0
  deriving DecidableEq, Repr

/-- Fuses (R21, R504, R530). -/
structure Fuse where
  present : Nat := 0xFFFFFFFF
  keyP : BitVec 256 := 0
  keyO : BitVec 256 := 0
  vmin8 : Nat := 140
  vmin10 : Nat := 140
  vmin12 : Nat := 140
  vmin16 : Nat := 140
  deriving DecidableEq, Repr

/-- Start-up (R527, R546 to R553). -/
structure Boot where
  rstN : Bool := false
  step : Nat := 0
  ready : Bool := false
  stDone : Bool := false
  stBayFail : Nat := 0
  stBays : Nat := 0
  rootLoss : Bool := false
  rootLock : Bool := false
  rootReq : Bool := false
  onRef : Bool := true
  /-- the REF_CLK count when ROOT_LOCK rose, and that from which ROOT_CLK is in use (R527, R546, R549) -/
  lockSince : Nat := 0
  usableAt : Nat := 0
  /-- the REF_CLK count when NIA_RST_N rose, the NCLK count when the self-test's round began (R549) -/
  relAt : Nat := 0
  roundAt : Nat := 0
  /-- accesses and NIA_WAKE that wait for the root clock, oldest first (R546) -/
  access : List Instr := []
  wakeCause : Nat := 0
  deriving DecidableEq, Repr

/-- The Miller (R348, R507 to R510). -/
structure Miller where
  s : Map Word := []
  p : Map Bool := []
  pc : Nat := 0
  started : Bool := false
  inReset : Bool := false
  halted : Bool := false
  waiting : Bool := false
  store : Map Byte := []
  resetEntry : Nat := 0
  faultEntry : Nat := 0
  deriving DecidableEq, Repr

/-- Cycle counters of the clocks since cold start (R7), and the counter free values are taken by. -/
structure Time where
  root : Nat := 0
  cclk : Nat := 0
  mclk : Nat := 0
  xclk : Nat := 0
  sclk : Nat := 0
  nclk : Nat := 0
  ref : Nat := 0
  fresh : Nat := 0
  deriving DecidableEq, Repr

/-- What the outside last saw at the pins (R432, R454 to R457). -/
structure Pins where
  cmplIrq : Map Nat := []
  cmplAt : Map Nat := []
  errIrq : Nat := 0
  errAt : Nat := 0
  hopCredit : Map Nat := []
  mgtRdata : W32 := 0
  mgtPwr : Bool := false
  sbRdata : W32 := 0
  tdo : W32 := 0
  deriving DecidableEq, Repr

/-- The Hopper's channels, the injection registers and the global counter thresholds (R349, R59). -/
structure Hop where
  ch : Map Channel := []
  inj : Map W32 := []
  injHeld : List (Nat × BitVec 512) := []
  /-- injected bundles that wait for the Hopper to be on (R542) -/
  injWait : List (Nat × BitVec 512) := []
  satThr : Nat := 0
  flushThr : Nat := 0
  errThr : Nat := 0
  deriving DecidableEq, Repr

/-- The whole block and the commands that wait for it. -/
structure State where
  ctx : Map Ctx := []
  core : Map Core := []
  bay : Map Bay := []
  insts : Map (Option Inst) := []
  nextInst : Nat := 0
  mem : Mem := {}
  sluice : Sluice := {}
  pwu : Pwu := {}
  leat : Leat := {}
  weir : Weir := {}
  hop : Hop := {}
  prot : Prot := {}
  log : Log := {}
  pwr : Pwr := {}
  fuse : Fuse := {}
  boot : Boot := {}
  miller : Miller := {}
  time : Time := {}
  pins : Pins := {}
  pending : List Instr := []
  deriving DecidableEq, Repr

/-- The block under NIA_RST_N (R548; log 5): every register at its reset value, no memory listed, no
command waiting. -/
def State.reset : State := {}

end Sys2Proof.Machine
end

