-- ==== Sys2Proof/Machine/Ops.lean ====
section
/-!
DEFINITION. The named operations over the state: reading and writing each kind of register and
memory, power-domain wakes, events (R350), window checks (R496 to R500), memory requests (R433 to
R448), error records (R520, R521), fences (R513 to R515), revocation (R424) and completion records
(R344). Every meaning goes through these.
-/

namespace Sys2Proof.Machine

/-! ### Indexed parts of the state -/

def State.cx (s : State) (c : Nat) : Ctx := Map.get {} s.ctx c
def State.onCx (s : State) (c : Nat) (f : Ctx → Ctx) : State := { s with ctx := Map.modify {} s.ctx c f }
def State.co (s : State) (g : Nat) : Core := Map.get {} s.core g
def State.onCo (s : State) (g : Nat) (f : Core → Core) : State := { s with core := Map.modify {} s.core g f }
def State.by (s : State) (b : Nat) : Bay := Map.get {} s.bay b
def State.onBy (s : State) (b : Nat) (f : Bay → Bay) : State := { s with bay := Map.modify {} s.bay b f }
def State.inst (s : State) (n : Nat) : Option Inst := Map.get none s.insts n
def State.onInst (s : State) (n : Nat) (f : Inst → Inst) : State :=
  match s.inst n with
  | none => s
  | some i => { s with insts := Map.set none s.insts n (some (f i)) }
def State.instList (s : State) : List Inst := s.insts.filterMap Prod.snd
def State.port (s : State) (p : Nat) : Port := Map.get {} s.mem.ports p
def State.onPort (s : State) (p : Nat) (f : Port → Port) : State :=
  { s with mem := { s.mem with ports := Map.modify {} s.mem.ports p f } }
/-- `f` of every port, and of every instruction in flight. -/
def State.onPorts (s : State) (f : Port → Port) : State := { s with mem := { s.mem with ports := Map.mapVals {} f s.mem.ports } }
def State.onInsts (s : State) (f : Inst → Inst) : State := { s with insts := Map.mapVals none (Option.map f) s.insts }
def State.link (s : State) (l : Nat) : Link := Map.get {} s.leat.links l
def State.onLink (s : State) (l : Nat) (f : Link → Link) : State :=
  { s with leat := { s.leat with links := Map.modify {} s.leat.links l f } }
def State.group (s : State) (g : Nat) : LinkGroup := Map.get {} s.leat.groups g
def State.onGroup (s : State) (g : Nat) (f : LinkGroup → LinkGroup) : State :=
  { s with leat := { s.leat with groups := Map.modify {} s.leat.groups g f } }
def State.rv (s : State) (r : Nat) : Resv := Map.get {} s.sluice.resv r
def State.onRv (s : State) (r : Nat) (f : Resv → Resv) : State :=
  { s with sluice := { s.sluice with resv := Map.modify {} s.sluice.resv r f } }
def State.pool (s : State) (p : Nat) : Pool := Map.get {} s.pwu.pools p
def State.onPool (s : State) (p : Nat) (f : Pool → Pool) : State :=
  { s with pwu := { s.pwu with pools := Map.modify {} s.pwu.pools p f } }
def State.chan (s : State) (c : Nat) : Channel := Map.get {} s.hop.ch c
def State.onChan (s : State) (c : Nat) (f : Channel → Channel) : State :=
  { s with hop := { s.hop with ch := Map.modify {} s.hop.ch c f } }
def State.dom (s : State) (d : Nat) : Dom := Map.get {} s.pwr.doms d
def State.onDom (s : State) (d : Nat) (f : Dom → Dom) : State :=
  { s with pwr := { s.pwr with doms := Map.modify {} s.pwr.doms d f } }
def State.onPwu (s : State) (f : Pwu → Pwu) : State := { s with pwu := f s.pwu }
def State.onSluice (s : State) (f : Sluice → Sluice) : State := { s with sluice := f s.sluice }
def State.onLog (s : State) (f : Log → Log) : State := { s with log := f s.log }
def State.onPins (s : State) (f : Pins → Pins) : State := { s with pins := f s.pins }

/-- The parity bits of an entry (R102): bit k covers F bits [24k + 23 : 24k] and flag bit k. -/
def Entry.parity (e : Entry) : BitVec 4 :=
  let bit := fun (k : Nat) (flag : Bool) => ((List.range 24).filter fun j => e.f.getLsbD (24 * k + j)).length % 2 + b2n flag
  BitVec.ofNat 4 (bit 0 e.nan % 2 + 2 * (bit 1 e.pinf % 2) + 4 * (bit 2 e.ninf % 2) + 8 * (bit 3 e.inex % 2))
/-- An entry as it is written: with its parity bits (R102). -/
def Entry.sealed (e : Entry) : Entry := { e with par := e.parity }
/-- The 104 stored bits of an entry: F, the flags, the parity bits (R102). -/
def Entry.stored (e : Entry) : BitVec 104 :=
  e.par ++ BitVec.ofBool e.inex ++ BitVec.ofBool e.ninf ++ BitVec.ofBool e.pinf ++ BitVec.ofBool e.nan ++ e.f
def Slot.sealed (x : Slot) : Slot := { x with ent := (x.ent.map fun p => (p.1, p.2.sealed)).filter fun p => p.2 != {} }
def RowStat.sealed (q : RowStat) : RowStat := { q with sum := q.sum.sealed, sq := q.sq.sealed }

/-- The slot `k` of a core. -/
def Core.slot (x : Core) (k : Nat) : Slot := Map.get {} x.slots k
def Core.onSlot (x : Core) (k : Nat) (f : Slot → Slot) : Core := { x with slots := Map.modify {} x.slots k fun y => (f y).sealed }
def State.slot (s : State) (g k : Nat) : Slot := (s.co g).slot k
def State.onSlot (s : State) (g k : Nat) (f : Slot → Slot) : State := s.onCo g fun x => x.onSlot k f
def Core.rowStat (x : Core) (r : Nat) : RowStat := Map.get {} x.stat r
def State.onStat (s : State) (g r : Nat) (f : RowStat → RowStat) : State :=
  s.onCo g fun x => { x with stat := Map.modify {} x.stat r fun q => (f q).sealed }

/-- A fresh number from the free values (log 3). -/
def State.fresh (s : State) : Nat × State :=
  (s.time.fresh, { s with time := { s.time with fresh := s.time.fresh + 1 } })

/-! ### Registers of an executor (R320, R348) -/

/-- s0 reads 0. -/
def regRead (m : Map Word) (n : Nat) : Word := if n = 0 then 0 else Map.get 0 m n
/-- A write to s0 is discarded. -/
def regWrite (m : Map Word) (n : Nat) (v : Word) : Map Word := if n = 0 then m else Map.set 0 m n v
/-- p0 reads 1. -/
def predRead (m : Map Bool) (n : Nat) : Bool := if n = 0 then true else Map.get false m n
/-- A write to p0 is discarded. -/
def predWrite (m : Map Bool) (n : Nat) (v : Bool) : Map Bool := if n = 0 then m else Map.set false m n v

def Ctx.rs (x : Ctx) (n : Nat) : Word := regRead x.s n
def Ctx.ws (x : Ctx) (n : Nat) (v : Word) : Ctx := { x with s := regWrite x.s n v }
def Ctx.rp (x : Ctx) (n : Nat) : Bool := predRead x.p n
def Ctx.wp (x : Ctx) (n : Nat) (v : Bool) : Ctx := { x with p := predWrite x.p n v }
def Ctx.ev (x : Ctx) (n : Nat) : W32 := Map.get 0 x.e n
def Ctx.wev (x : Ctx) (n : Nat) (v : W32) : Ctx := { x with e := Map.set 0 x.e n v }

/-! ### Codes (R523, R524) -/

namespace Code
def encoding : Nat := 0x0101
def format : Nat := 0x0102
def mode : Nat := 0x0103
def floor : Nat := 0x0104
def operand : Nat := 0x0105
def priv : Nat := 0x0106
def state : Nat := 0x0107
def absent : Nat := 0x0108
def fenced : Nat := 0x0109
def shape : Nat := 0x010A
def capacity : Nat := 0x010B
def range : Nat := 0x010C
def slot : Nat := 0x010D
def pool : Nat := 0x010E
def budget : Nat := 0x010F
def fPoison : Nat := 0x0201
def fWindow : Nat := 0x0202
def fTier : Nat := 0x0203
def fSlotDomain : Nat := 0x0204
def fObDomain : Nat := 0x0205
def fGather : Nat := 0x0206
def fWideHeader : Nat := 0x0207
def fWideAnchor : Nat := 0x0208
def fPageAbsent : Nat := 0x0209
def fPageFar : Nat := 0x020A
def fPteFormat : Nat := 0x020B
def fFrameMeta : Nat := 0x020C
def fDigest : Nat := 0x020D
def fBiasValue : Nat := 0x020E
def fUprogImage : Nat := 0x020F
def fLinkFenced : Nat := 0x0210
def fPortFenced : Nat := 0x0211
def fMemError : Nat := 0x0212
def fPortTimeout : Nat := 0x0213
def fLinkDown : Nat := 0x0214
def fWeirFormat : Nat := 0x0215
def fBundleSeq : Nat := 0x0216
def fBundle : Nat := 0x0217
def fHopOverrun : Nat := 0x0218
def fStream : Nat := 0x0219
def fCallDepth : Nat := 0x021A
def fCoreError : Nat := 0x021B
def fBayError : Nat := 0x021C
def fFenced : Nat := 0x021D
def fScarf : Nat := 0x021E
def fMiller : Nat := 0x021F
end Code

/-! ### Clocks and power domains -/

/-- The divider that a CDIV code names (R553). -/
def divOf (code : Nat) : Nat := match code with
  | 0 => 8
  | 1 => 10
  | 2 => 12
  | _ => 16

/-- A bay that the fuses leave present (R22). -/
def State.present (s : State) (b : Nat) : Bool := bitOf s.fuse.present b

/-- The present bays, ascending. -/
def State.presentBays (s : State) : List Nat := bitsSet 32 s.fuse.present

/-- Power domain `d` delivers its clock: ON or RUN, or IDLE of a ladder domain (R533, R538). -/
def State.isOn (s : State) (d : Nat) : Bool :=
  let x := s.dom d
  !x.entering && !x.exiting && decide (x.state ≤ 1)

/-- Bytes of a domain's save list (R544). -/
def saveBytes (d : Nat) : Nat :=
  if d < 32 then 64 else if d < 40 then 128 else if d < 48 then 256 else if d = 48 then 2048 else if d = 49 then 4864
  else if d = 50 then 256 else 512

/-- NCLK cycles that the save takes on the way to a state: none on the way to OFF (R540). -/
def saveCycles (d target : Nat) : Nat := if target = 3 then cdiv (saveBytes d) 8 else 0

/-- A wake event of domain `d` (R541, R542): it abandons an entry that has not passed abort point 4,
returns a ladder domain to RUN, or starts the exit once the supplies rest. An entry with target 0 is being undone. In reset, and
after a loss of root, nothing wakes (R527, R548). -/
def State.wakeDom (s : State) (d : Nat) : State :=
  let x := s.dom d
  if x.state = 5 || s.boot.step == 0 then s
  else if x.entering then
    if x.target = 0 then s
    else if x.step ≤ 3 + saveCycles d x.target then s.onDom d fun y => { y with abort := true }
    else s.onDom d fun y => { y with wake := true }
  else if x.exiting then s
  else if x.state ≤ 1 then s.onDom d fun y => { y with state := 0, idle := 0 }
  else if x.state = 2 then s.onDom d fun y => { y with exiting := true, step := 1, since := s.time.nclk }
  else if x.req = x.good then
    s.onDom d fun y => { y with exiting := true, step := 0, req := 3, since := s.time.nclk, wake := false }
  else s.onDom d fun y => { y with wake := true }

/-- DOWN to INIT, where the link is enabled and trained and its group is on (R470). -/
def State.startLink (s : State) (l : Nat) : State :=
  if (s.link l).st = 0 && (s.link l).up && Map.get false s.leat.linkEn l && s.isOn (40 + l / 8) then
    s.onLink l fun x => { x with st := 1, initDue := true, initSince := s.time.xclk }
  else s

/-- The links of group `g` that are enabled and trained start. -/
def State.startLinks (s : State) (g : Nat) : State := (List.range 8).foldl (fun s k => s.startLink (8 * g + k)) s

/-- What returns a cluster from IDLE to RUN (R538): a word, an increment, an event. -/
def State.stir (s : State) (d : Nat) : State := if (s.dom d).state = 1 then s.wakeDom d else s

/-- A wake that holds work only where the domain is not OFF or on its way there: a cluster in OFF answers to PWR_CMD
only (R538). -/
def State.wakeLadder (s : State) (d : Nat) : State :=
  let x := s.dom d
  if x.state = 4 || (x.entering && x.target == 4) then s else s.wakeDom d

/-! ### The management port (R24, R31, R456, R457) -/

/-- The management registers answer: reset released, the root clock in use (R31, R527, R546, R549). -/
def State.mgtUp (s : State) : Bool := s.boot.rstN && decide (2 ≤ s.boot.step) && !s.boot.onRef

/-- The registers of power domain `d` answer: it is neither absent nor in retention or off (R24, R457). -/
def State.winOn (s : State) (d : Nat) : Bool := decide ((s.dom d).state ≤ 2)

/-- A write that reaches registers of power domain `d`; `none` is the always-on island. -/
def State.gated (s : State) (d : Option Nat) (f : State → State) : State :=
  match d with
  | none => f s
  | some d => if s.winOn d then f s else s

/-- Raise ROOT_REQ where the root clock is stopped: AON returns to NCLK 16 cycles after ROOT_LOCK has held for 2 (R527, R546). -/
def State.rootRestart (s : State) : State :=
  let b := s.boot
  if b.rstN && b.onRef && !b.rootReq && decide (2 ≤ b.step) then
    { s with boot := { b with rootReq := true, usableAt := max (b.lockSince + 2) s.time.ref + 16 } }
  else s

/-- A command that finds the root clock stopped, or not yet in use, waits for it and restarts it (R546). -/
def State.holdAccess (s : State) (c : Instr) : State :=
  if s.boot.rstN && s.boot.onRef && decide (2 ≤ s.boot.step) then
    { s with boot := { s.boot with access := s.boot.access ++ [c] } }.rootRestart
  else s

/-- A management-port write of a register, which command `c` makes: MGT_PWR tells a domain that is not on. -/
def State.mgt (s : State) (c : Instr) (d : Option Nat) (f : State → State) : State :=
  if !s.mgtUp then s.holdAccess c
  else
    let off := (d.map fun d => decide ((s.dom d).state = 3) || decide ((s.dom d).state = 4)).getD false
    (s.gated d f).onPins fun q => { q with mgtPwr := off }

/-! ### Events (R350, R525) -/

/-- An event entry: CODE, unit window number, up to three 32-bit arguments. -/
def eventBits (code unit : Nat) (args : List Nat) : BitVec 128 :=
  BitVec.ofNat 128 (code % 2 ^ 16 + unit % 2 ^ 8 * 2 ^ 16
    + leNat ((args.flatMap fun a => natLe 4 a).take 12) * 2 ^ 32)

/-- Wake the Miller; WAKE_CAUSE tells the cause where that starts it, from SLEEP or DEEP SLEEP or after an entry that can no
longer be abandoned (R541, R553). -/
def State.startMiller (s : State) (cause : Nat) : State :=
  let x := s.dom 55
  let past := x.entering && x.target != 0 && decide (3 + saveCycles 55 x.target < x.step)
  (if decide (2 ≤ x.state) || past then { s with boot := { s.boot with wakeCause := cause } } else s).wakeDom 55

/-- An event wakes a Miller that is in IDLE, SLEEP or DEEP SLEEP, or on its way there (R538, R541). -/
def State.wakeMiller (s : State) : State :=
  let x := s.dom 55
  if (x.state = 0 && !x.entering) || x.state = 4 || x.state = 5 || x.exiting || (x.entering && x.target == 4) then s
  else s.startMiller 1

/-- Raise an event: a full queue drops it and counts it. -/
def State.raise (s : State) (code unit : Nat) (args : List Nat) : State :=
  if 256 ≤ s.log.evq.length then s.onLog fun l => { l with evqLost := holdAdd l.evqLost 1 }
  else (s.onLog fun l => { l with evq := l.evq ++ [eventBits code unit args] }).wakeMiller

/-! ### Bytes of memory -/

/-- A byte of external memory as an access that reaches it reads it; an unlisted byte reads 0 (log 6). -/
def State.extByte (s : State) (a : Nat) : Byte := Map.get 0 s.mem.ext a

/-- A byte as a read through the Granary sees it: the line held, else memory (R448). -/
def State.granByte (s : State) (a : Nat) : Byte :=
  match Map.get [] s.mem.gran (a / 128) with
  | [] => s.extByte a
  | bs => bs.getD (a % 128) 0

def State.extBytes (s : State) (a n : Nat) : List Byte := (List.range n).map fun i => s.extByte (a + i)
def State.granBytes (s : State) (a n : Nat) : List Byte := (List.range n).map fun i => s.granByte (a + i)

/-- Pairs of address and byte of a run of bytes. -/
def cells (a : Nat) (bs : List Byte) : List (Nat × Byte) := (List.range bs.length).zip bs |>.map fun p => (a + p.1, p.2)

/-- Write bytes into external memory. -/
def State.putExt (s : State) (ws : List (Nat × Byte)) : State :=
  { s with mem := { s.mem with ext := Map.setMany 0 s.mem.ext ws } }

def Bay.bytes (b : Bay) (off n : Nat) : List Byte := (List.range n).map fun i => Map.get 0 b.mem (off + i)
def Core.obBytes (x : Core) (off n : Nat) : List Byte := (List.range n).map fun i => Map.get 0 x.ob (off + i)

/-- The 64-byte units that `[off, off + n)` touches. -/
def unitsOf (off n : Nat) : List Nat :=
  if n = 0 then [] else (List.range ((off + n - 1) / 64 - off / 64 + 1)).map (· + off / 64)

/-- The poison bits after a write of `[off, off + n)` (R516): a poisoned write sets the bits of the
units it touches, a clean write of a whole unit clears its bit, a partial one keeps it. -/
def poisonAfter (m : Map Bool) (off n : Nat) (bad : Bool) : Map Bool :=
  (unitsOf off n).foldl (fun m u =>
    if bad then Map.set false m u true
    else if decide (off ≤ 64 * u) && decide (64 * u + 64 ≤ off + n) then Map.set false m u false else m) m

/-- Write bay memory. -/
def State.putBay (s : State) (b off : Nat) (bs : List Byte) (bad : Bool) : State :=
  s.onBy b fun x => { x with mem := Map.setMany 0 x.mem (cells off bs), memPoison := poisonAfter x.memPoison off bs.length bad }

/-- Mark units of bay memory poisoned. -/
def State.poisonUnits (s : State) (b : Nat) (us : List Nat) : State :=
  s.onBy b fun x => { x with memPoison := us.foldl (fun m u => Map.set false m u true) x.memPoison }

/-- Write a core's operand buffer. -/
def State.putOb (s : State) (g off : Nat) (bs : List Byte) (bad : Bool) : State :=
  s.onCo g fun x => { x with ob := Map.setMany 0 x.ob (cells off bs), obPoison := poisonAfter x.obPoison off bs.length bad }

def anyPoison (m : Map Bool) (off n : Nat) : Bool := (unitsOf off n).any fun u => Map.get false m u

/-- Mark a destination poisoned, its values unchanged (R516). -/
def State.poisonTgt (s : State) : Tgt → State
  | .slot g k => s.onSlot g k fun x => { x with poisoned := true }
  | .bay b off n => s.onBy b fun x => { x with memPoison := poisonAfter x.memPoison off n true }
  | .ob g off n => s.onCo g fun x => { x with obPoison := poisonAfter x.obPoison off n true }
  | .ext a n =>
    let hit : Req → Bool := fun r => r.wr && r.data.any fun c => decide (a ≤ c.1) && decide (c.1 < a + n)
    let f : List Req → List Req := fun l => l.map fun r => if hit r then { r with poison := true } else r
    let g : List Atom → List Atom := fun l => l.map fun u => if decide (a < u.line + 64) && decide (u.line < a + n) then { u with poison := true } else u
    s.onPorts fun x => { x with waiting := f x.waiting, atoms := g x.atoms, atomsIn := g x.atomsIn }
  | .work n g ix t => s.onInst n fun i => { i with work := i.work.map fun w =>
      if w.core = g ∧ w.ix = ix then { w with bad := t :: w.bad.filter fun b => b != t } else w }
  | .resend l => s.onLink l fun x => { x with reread := x.reread.map fun _ => true }
  | .chunk _ _ => s
  | .keys n p => s.onInst n fun y => { y with badPages := p :: y.badPages }

/-! ### Windows (R496 to R500) -/

/-- The rights, in the bit order of a window's word 0 and of FAULT.WINDOW's DETAIL. -/
inductive Right where
  | rd | wr | at | ex
  deriving DecidableEq, Repr

def Right.bit : Right → Nat
  | .rd => 0
  | .wr => 1
  | .at => 2
  | .ex => 3

/-- Word `k` of window `w` of domain `d`. -/
def State.winWord (s : State) (d w k : Nat) : Nat := (Map.get 0 s.prot.win (d * 256 + w * 4 + k)).toNat

/-- Window `w` of domain `d` grants the right at an address (R497). -/
def State.winGrants (s : State) (d w : Nat) (r : Right) (a : Nat) : Bool :=
  let w0 := s.winWord d w 0
  let base := fld w0 12 20 + fld (s.winWord d w 1) 0 20 * 2 ^ 20
  let lim := fld (s.winWord d w 2) 12 20 + fld (s.winWord d w 3) 0 20 * 2 ^ 20
  bitOf w0 0 && bitOf w0 (1 + r.bit) && decide (base ≤ fld a 12 40) && decide (fld a 12 40 ≤ lim)

/-- The lowest-numbered window that grants the access. -/
def State.grant (s : State) (d : Nat) (r : Right) (a : Nat) : Option Nat :=
  (List.range 64).find? fun w => s.winGrants d w r a

/-- The answer of the protection unit. -/
inductive Access where
  | ok
  | window
  | tier (w : Nat)
  | fencedDom
  deriving DecidableEq, Repr

/-- Check one access of a domain (R497, R499, R500, R513). -/
def State.checkAcc (s : State) (d : Nat) (clsA : Bool) (r : Right) (a : Nat) : Access :=
  if Map.get false s.prot.domF d then .fencedDom
  else match s.grant d r a with
    | none => .window
    | some w => if clsA && bitOf (s.winWord d w 0) 5 then .tier w else .ok

/-! ### Requests (R433 to R448) -/

/-- The home port of an address (R433). -/
def homePort (a : Nat) : Nat := [12, 17, 22, 27, 32, 37, 42, 47].foldl (fun acc lo => acc ^^^ fld a lo 5) 0

def State.portFenced (s : State) (p : Nat) : Bool := Map.get false s.prot.portF p

/-- Two requests touch a common 64-byte line. -/
def Req.meets (r q : Req) : Bool := decide (r.addr < q.addr + q.size) && decide (q.addr < r.addr + r.size)

/-- A port keeps 256 of its 3,072 entries for Class A while an admitted reservation has a share there
(R439). -/
def State.portReserved (s : State) (p : Nat) : Bool :=
  (List.range 32).any fun r =>
    let x := s.rv r
    decide (x.state = 1) && decide (0 < Map.get 0 x.cfg.portsh p)

/-- Every request of a port. -/
def Port.allReqs (x : Port) : List Req := x.waiting ++ x.rq ++ x.wr ++ x.rdOut ++ x.wrOut
/-- Every atomic line update of a port, taken up by its unit or not. -/
def Port.allAtoms (x : Port) : List Atom := x.atoms ++ x.atomsIn

/-! ### WIDE lines (R125, R126, R446) -/

/-- The header fields that R126 and R446 compare: ANCHOR, ROWS, COLS, QUAD, QANCH. -/
def wideSame (h k : List Byte) : Bool :=
  leAt h 0 4 == leAt k 0 4 && leAt h 4 1 % 2 == leAt k 4 1 % 2 && leAt h 16 8 == leAt k 16 8

/-- The target header after an add (R125). -/
def wideHeaderAdd (h k : List Byte) : List Byte :=
  patch (patch h 8 (natLe 8 (leAt h 8 8 + leAt k 8 8))) 4 [BitVec.ofNat 8 (leAt h 4 1 ||| (leAt k 4 1 &&& 2))]

/-- One 16-byte entry after an add: F modulo 2^96, the flags ORed (R125). -/
def wideEntryAdd (x y : Nat) : Nat := (fld x 0 96 + fld y 0 96) % 2 ^ 96 + (fld x 96 4 ||| fld y 96 4) * 2 ^ 96

/-- The four entries of a line after an add, those outside ROWS × COLS like the others (log 144). -/
def wideLineAdd (t k : List Byte) : List Byte :=
  (List.range 4).flatMap fun j => natLe 16 (wideEntryAdd (leAt t (16 * j) 16) (leAt k (16 * j) 16))

/-- The line after one update: a header that does not match is not updated. -/
def Atom.onto (a : Atom) (t : List Byte) : List Byte :=
  if a.hdr then (if wideSame t a.data then wideHeaderAdd t a.data else t) else wideLineAdd t a.data

/-- The updates of a line that have been sent and not applied. -/
def State.adds (s : State) (l : Nat) : List Atom := (s.port (homePort l)).allAtoms.filter fun a => a.ready && a.line == l

/-- A byte as a read sent now returns it: R438 keeps the read behind the updates of its line that were sent before it. -/
def State.soonByte (s : State) (a : Nat) : Byte :=
  match s.adds (a / 64 * 64) with
  | [] => s.extByte a
  | us => (us.foldl (fun t u => u.onto t) (s.extBytes (a / 64 * 64) 64)).getD (a % 64) 0

/-- Bytes as a read sent now returns them. -/
def State.soonBytes (s : State) (a n : Nat) : List Byte :=
  if s.mem.ports.any fun p => !p.2.allAtoms.isEmpty then (List.range n).map fun i => s.soonByte (a + i) else s.extBytes a n

/-- The entry updates of line `l` that were sent before a write of it take effect before it (R438): their sums are in memory
from now on, and what the unit still adds is zero. -/
def State.addFirst (s : State) (l : Nat) : State :=
  match (s.adds l).filter fun a => !a.hdr with
  | [] => s
  | us =>
    let zero : Atom → Atom := fun a => if a.ready && !a.hdr && a.line == l then { a with data := zeroBytes 64 } else a
    (s.putExt (cells l (us.foldl (fun t u => u.onto t) (s.extBytes l 64)))).onPort (homePort l) fun x =>
      { x with atoms := x.atoms.map zero, atomsIn := x.atomsIn.map zero }

/-- The lowest tag not in use. -/
def freeTag (n : Nat) (used : List Nat) : Option Nat := (List.range n).find? fun t => !used.contains t

/-- A read whose data the write carries has not come back: its poison would be missing (R516, log 127). -/
def State.dataDue (s : State) (r : Req) : Bool := s.mem.ports.any fun p => p.2.allReqs.any fun q =>
  !q.wr && decide (q.seq < r.seq) && q.tgt.any fun t => match t with
    | .ext a n => r.data.any fun c => decide (a ≤ c.1) && decide (c.1 < a + n)
    | _ => false

/-- A read whose data an atomic line update carries has not come back (R516, log 127). -/
def State.addDue (s : State) (u : Atom) : Bool := s.mem.ports.any fun p => p.2.allReqs.any fun q =>
  !q.wr && decide (q.seq < u.seq) && q.tgt.any fun t => match t with
    | .ext a n => decide (a < u.line + 64) && decide (u.line < a + n)
    | _ => false

/-- The place of a request among those for its line: the unit's own read of a line has that of the update it is for. -/
def Req.place (r : Req) : Nat := match r.why with
  | .line q => q
  | _ => r.seq

/-- The request waits for an atomic update of its line that was sent before it (R438). -/
def Port.behindAdd (x : Port) (r : Req) : Bool := x.allAtoms.any fun a =>
  a.ready && decide (a.seq < r.place) && decide (r.addr < a.line + 64) && decide (a.line < r.addr + r.size)

/-- The next waiting request that may be offered (R435, R436, R438, R439): Class A first, then in order
of arrival; never while a write or an atomic update of one of its lines is unacknowledged or waits before it, and a
write not before the data it carries. Of the read entries 256 are kept for Class A where a reservation has a share. -/
def State.nextOffer (s : State) (p : Nat) : Option Req :=
  let x := s.port p
  let busy := x.wr ++ x.wrOut
  let rdUse := x.rq.map Req.tag ++ x.rdOut.map Req.tag ++ x.lateRd
  let wrUse := x.wr.map Req.tag ++ x.wrOut.map Req.tag ++ x.lateWr
  let others := ((x.rq ++ x.rdOut).filter fun q => !q.clsA).length + x.lateRd.length
  let can : Req → Bool := fun r =>
    !(busy.any r.meets) && !(r.wr && s.dataDue r) && !x.behindAdd r
    && !(x.waiting.any fun q => decide (q.seq < r.seq) && (q.wr || r.wr) && r.meets q)
    && (if r.wr then decide (x.wr.length < 2) && decide (wrUse.length < 1024)
        else decide (x.rq.length < 4) && decide (rdUse.length < 3072)
          && (r.clsA || !s.portReserved p || decide (others < 2816)))
  match x.waiting.find? fun r => r.clsA && can r with
  | some r => some r
  | none => x.waiting.find? can

/-- Offer waiting requests in the free slots, at most `fuel` of them. -/
def State.offer (p : Nat) : Nat → State → State
  | 0, s => s
  | fuel + 1, s =>
    if !s.isOn (32 + p / 4) || s.portFenced p then s
    else match s.nextOffer p with
      | none => s
      | some r =>
        let x := s.port p
        let used := if r.wr then x.wr.map Req.tag ++ x.wrOut.map Req.tag ++ x.lateWr
          else x.rq.map Req.tag ++ x.rdOut.map Req.tag ++ x.lateRd
        match freeTag (if r.wr then 1024 else 3072) used with
        | none => s
        | some t =>
          let r' := { r with tag := t }
          State.offer p fuel (s.onPort p fun y =>
            { y with waiting := y.waiting.filter (fun q => decide (q.seq ≠ r.seq)),
                     rq := if r.wr then y.rq else y.rq ++ [r'],
                     wr := if r.wr then y.wr ++ [r'] else y.wr })

/-- Offer at every port: a read that came back may have held a write elsewhere. -/
def State.offerAll (s : State) : State := (List.range 32).foldl (fun s p => if (s.port p).waiting.isEmpty then s else State.offer p 8 s) s

/-- Queue a request at its home port, with its own place in the order where it has one; a port group that is not on is
woken (R536). -/
def State.queueReq (s : State) (r : Req) : State :=
  let p := homePort r.addr
  let s1 := { s with mem := { s.mem with nextSeq := s.mem.nextSeq + 1 } }
  let s2 := s1.onPort p fun x => { x with waiting := x.waiting ++ [{ r with seq := if r.seq = 0 then s.mem.nextSeq else r.seq }] }
  State.offer p 8 (s2.wakeDom (32 + p / 4))

/-- Queue a write of bytes that lie in one aligned unit of 64 or 128 bytes, at place `seq` in the order where it is not 0. The
bytes are in `ext` from now on: R438 lets no other request for the line pass the unacknowledged write (log 16). The Granary
gives up its copy of the line (R448). -/
def State.queueWriteAt (s : State) (seq d : Nat) (clsA : Bool) (why : Why) (a : Nat) (bs : List Byte) (bad : Bool) : State :=
  let ws := cells a bs
  let r : Req :=
    { seq := seq, addr := a / 64 * 64, size := 64, wr := true, clsA := clsA, dom := d,
      data := ws, old := ws.map fun c => (c.1, s.extByte c.1), poison := bad, fill := false, why := why, tgt := [] }
  let s1 := s.putExt ws
  let s2 := { s1 with mem := { s1.mem with gran := Map.erase s1.mem.gran (a / 128) } }
  s2.queueReq r

/-- Queue a write behind everything sent before it. -/
def State.queueWrite (s : State) (d : Nat) (clsA : Bool) (why : Why) (a : Nat) (bs : List Byte) (bad : Bool) : State :=
  (s.addFirst (a / 64 * 64)).queueWriteAt 0 d clsA why a bs bad

/-- Queue a read. -/
def State.queueRead (s : State) (d : Nat) (clsA : Bool) (why : Why) (a size : Nat) (fill : Bool) (tgt : List Tgt) : State :=
  s.queueReq
    { seq := 0, addr := a / size * size, size := size, wr := false, clsA := clsA, dom := d,
      data := [], old := [], poison := false, fill := fill, why := why, tgt := tgt }

/-! ### Error records (R520, R521) -/

/-- What an error record says. -/
structure Err where
  code : Nat
  scope : Nat := 0
  unit : Nat := 0
  index : Nat := 0
  ctx : Option Nat := none
  poison : Bool := false
  first : Bool := false
  spos : Nat := 0
  issue : Nat := 0
  gen : Nat := 0
  addr : Nat := 0
  detail : Nat := 0
  deriving DecidableEq, Repr

/-- The 32 bytes of error record `n`. -/
def Err.bytes (e : Err) (n : Nat) : List Byte :=
  natLe 2 e.code ++ natLe 1 e.scope ++ natLe 1 e.unit ++ natLe 2 (if e.scope = 0 then 0 else e.index)
    ++ natLe 1 (match e.ctx with | none => 0 | some c => c % 64 + 64)
    ++ natLe 1 ((n / 4096 + 1) % 2 + 2 * b2n e.poison + 4 * b2n e.first)
    ++ natLe 4 e.spos ++ natLe 4 (e.issue % 2 ^ 24 + (if e.scope = 6 then e.gen % 256 * 2 ^ 24 else 0))
    ++ natLe 8 (e.addr % 2 ^ 52) ++ natLe 4 e.detail ++ natLe 4 n

/-- A record is lost: it is counted and LOG_FULL sets. -/
def State.logLost (s : State) : State := s.onLog fun l => { l with lost := holdAdd l.lost 1, full := true }

/-- Send the write of log record `n`. -/
def State.sendLog (s : State) (n code : Nat) (bs : List Byte) : State :=
  let a := s.log.base + 32 * (n % 4096)
  if s.portFenced (homePort a) then s.logLost else s.queueWrite 0 false (.elog n code) a bs false

/-- Write an error record, hold it until LOG_BASE is set, or count it lost (R521). -/
def State.logErr (s : State) (e : Err) : State :=
  let n := s.log.head
  if 4096 ≤ (n + 2 ^ 32 - s.log.cons % 2 ^ 32) % 2 ^ 32 then s.logLost
  else if s.log.valid then (s.onLog fun l => { l with head := (n + 1) % 2 ^ 32 }).sendLog n e.code (e.bytes n)
  else if s.log.held.length < 16 then
    s.onLog fun l => { l with head := (n + 1) % 2 ^ 32, held := l.held ++ [(e.bytes n, e.code)] }
  else s.logLost

/-! ### Fences (R513 to R515) and revocation (R422, R424) -/

/-- A core is fenced, in its own right or by its bay. -/
def State.coreFenced (s : State) (g : Nat) : Bool := Map.get false s.prot.coreF g || Map.get false s.prot.bayF (g / 64)
/-- A context is fenced. -/
def State.ctxFenced (s : State) (c : Nat) : Bool := Map.get false s.prot.ctxF c
/-- A sequence is fenced. -/
def State.seqFenced (s : State) (rec gen : Nat) : Bool :=
  (List.range 64).any fun i => decide (Map.get none s.prot.seqF i = some (rec, gen))

/-- Revoke reservation `r` with a cause (R424). -/
def State.revoke (s : State) (r cause : Nat) : State :=
  let x := s.rv r
  if x.state ≠ 1 then s
  else
    let s1 := s.onRv r fun y => { y with state := 2, pending := false, releasing := false }
    let s2 := s1.onSluice fun q => { q with revokes := holdAdd q.revokes 1 }
    let s3 := s2.raise 0x0308 0x01 [r, x.cfg.ctx, cause]
    s3.onInsts fun i => if i.resv = some r && i.cls = 1 then { i with cls := 2 } else i

/-- The unit of a fence is already fenced. -/
def State.isFenced (s : State) (scope index gen : Nat) : Bool :=
  match scope with
  | 1 => Map.get false s.prot.coreF index || Map.get false s.prot.bayF (index / 64)
  | 2 => Map.get false s.prot.bayF index
  | 3 => s.portFenced index
  | 4 => Map.get false s.prot.linkF index
  | 5 => s.ctxFenced index
  | 6 => s.seqFenced index gen
  | _ => Map.get false s.prot.domF index

/-- Instruction `n` has a request or an atomic line at the port. -/
def State.usesPort (s : State) (p n : Nat) : Bool :=
  let x := s.port p
  let mine : Why → Bool := fun y => match y with
    | .tensor m | .table m => m == n
    | .land m _ _ => m == n
    | _ => false
  (x.allReqs.any fun r => mine r.why) || (x.allAtoms.any fun r => mine r.why)

/-- Core `g` is an assignee of the instruction or in the span of one. -/
def Inst.spans (i : Inst) (g : Nat) : Bool := i.cores.any fun l => decide (l ≤ g) && decide (g < l + Map.get 1 i.span (l / 64))

/-- Instruction `i` has work or access on the unit, or belongs to it (R514). -/
def State.usesUnit (s : State) (scope index gen : Nat) (i : Inst) : Bool :=
  match scope with
  | 1 => i.spans index && (!i.work.isEmpty)
  | 2 => (i.bays.contains index) && (!i.work.isEmpty)
  | 3 => s.usesPort index i.n
  | 4 => false
  | 5 => i.ctx == index
  | 6 => decide (i.seq = some (index, gen)) || decide (i.seq2 = some (index, gen))
  | _ => i.dom == index

/-- Instruction `n` waits in the PWU no more (R514). -/
def State.leavePwu (s : State) (n : Nat) : State :=
  (s.onPwu fun p => { p with queue := p.queue.filter (· != n), parks := p.parks.filter (fun k => k.inst != n),
                             slots := p.slots.filter fun x => x.inst != n }).onInst n fun y => { y with turn := {} }

/-- End an instruction's work at the fence that fault `cause` raised: its slots written since their last drain are poisoned, and
it ends with FAULT.FENCED, but where the fault is its own (log 147). -/
def State.endFenced (s : State) (scope cause : Nat) (i : Inst) : State :=
  let own := i.faults.contains cause || i.faults.contains Code.fFenced
  let s1 := i.wrote.foldl (fun s p => s.poisonTgt (.slot p.1 p.2)) s
  let s2 := if !own then
      s1.logErr { code := Code.fFenced, unit := 0x08, ctx := some i.ctx, spos := i.spos, issue := i.issue, detail := scope }
    else s1
  let s3 := { s2 with weir := { s2.weir with buckets := s2.weir.buckets.filter fun b => b.inst != i.n } }
  (s3.leavePwu i.n).onInst i.n fun j =>
    { j with work := [], parked := [], again := [], link := none, faults := if own then j.faults else j.faults ++ [Code.fFenced] }

/-- An admitted reservation names the fenced unit (R422). -/
def Resv.names (x : Resv) (scope index : Nat) : Bool :=
  decide (x.state = 1) && (match scope with
  | 1 => bitOf x.cfg.bays (index / 64) && bitOf x.cfg.cores (index % 64)
  | 2 => bitOf x.cfg.bays index
  | 3 => decide (0 < Map.get 0 x.cfg.portsh index)
  | 4 => bitOf x.cfg.links index
  | _ => false)

/-- Set a fence's flag. A sequence fence that finds the table full fences the domain `dom` instead; the
scope and index set are answered. -/
def State.setFence (s : State) (scope index gen dom : Nat) : State × Nat × Nat :=
  let p := s.prot
  match scope with
  | 1 => ({ s with prot := { p with coreF := Map.set false p.coreF index true } }, 1, index)
  | 2 => ({ s with prot := { p with bayF := Map.set false p.bayF index true } }, 2, index)
  | 3 => ({ s with prot := { p with portF := Map.set false p.portF index true } }, 3, index)
  | 4 => ({ s with prot := { p with linkF := Map.set false p.linkF index true } }, 4, index)
  | 5 => ({ s with prot := { p with ctxF := Map.set false p.ctxF index true } }, 5, index)
  | 6 =>
    match (List.range 64).find? fun i => (Map.get none p.seqF i).isNone with
    | some i => ({ s with prot := { p with seqF := Map.set none p.seqF i (some (index, gen)) } }, 6, index)
    | none => ({ s with prot := { p with domF := Map.set false p.domF dom true } }, 7, dom)
  | _ => ({ s with prot := { p with domF := Map.set false p.domF index true } }, 7, index)

/-- Note that a fence has landed in this NCLK cycle (R515). -/
def State.noteFence (s : State) (scope index gen : Nat) : State :=
  let p := s.prot
  { s with prot := { p with landedAt := s.time.nclk + 1,
                            landed := (scope, index, if scope = 6 then gen else 0) :: (if p.landedAt = s.time.nclk + 1 then p.landed else []) } }

/-- The contexts of a fenced domain are fenced with it (R513). -/
def State.fenceDomCtxs (s : State) (d : Nat) : State :=
  (List.range 64).foldl (fun s c => if (s.cx c).domain = d then
    { s with prot := { s.prot with ctxF := Map.set false s.prot.ctxF c true } } else s) s

/-- Land a fence (R513, R514): set it, raise PROT.FENCE, end what uses the unit, revoke what names it.
A unit already fenced gets no second fence (R515). A link's state becomes FENCED (R470). -/
def State.fence (s : State) (scope index gen cause dom : Nat) : State :=
  if s.isFenced scope index gen then s
  else
    let r := s.setFence scope index gen dom
    let sc := r.2.1
    let ix := r.2.2
    let s1 := (r.1.noteFence sc ix gen).raise 0x030E 0x08 [sc, ix, cause]
    let s2 := if sc = 7 then s1.fenceDomCtxs ix else s1
    let s3 := if sc = 4 then s2.onLink ix fun l => { l with st := 3 } else s2
    let s4 := (s3.instList.filter fun i => s3.usesUnit sc ix gen i).foldl
      (fun s i => s.endFenced sc cause i) s3
    (List.range 32).foldl (fun s r => if (s.rv r).names sc ix then s.revoke r 0 else s) s4

/-- Report an error: its record, with FIRST when it raises its fence, and the fence. -/
def State.report (s : State) (e : Err) (dom : Nat) : State :=
  if e.scope = 0 then s.logErr e
  else
    let was := s.isFenced e.scope e.index e.gen
    let s1 := s.logErr { e with first := !was }
    s1.fence e.scope e.index e.gen e.code dom

/-! ### Faults of a tensor instruction (R13) -/

/-- Instruction `n` raises a fault, once for each code: the error record, the fence of its scope, and the
code kept for its completion record. -/
def State.instFault (s : State) (n : Nat) (e : Err) : State :=
  match s.inst n with
  | none => s
  | some i =>
    if i.faults.contains e.code then s
    else
      let s1 := s.onInst n fun j => { j with faults := j.faults ++ [e.code] }
      s1.report { e with ctx := some i.ctx, spos := i.spos, issue := i.issue } i.dom

/-- The fault that a denied access raises; a denial by a fenced domain raises none (R513), a speculative read none
(R280). -/
def State.denied (s : State) (n : Nat) (r : Right) (a : Nat) (acc : Access) : State :=
  match s.inst n with
  | none => s
  | some i => if i.spec && r == .rd then s else match acc with
    | .ok | .fencedDom => s
    | .window => s.instFault n
        { code := Code.fWindow, scope := 5, unit := 0x08, index := i.ctx, addr := a, poison := r == .rd,
          detail := 2 ^ r.bit + 16 * i.dom }
    | .tier w => s.instFault n { code := Code.fTier, unit := 0x08, addr := a, poison := r == .rd, detail := w }

/-- The fault of an access whose home port is fenced (R444). -/
def State.portDenied (s : State) (n p a : Nat) (rd : Bool) : State :=
  if rd && ((s.inst n).map Inst.spec).getD false then s else s.instFault n { code := Code.fPortFenced, unit := 0x06, addr := a, poison := rd, detail := p }

/-! ### Reads and writes of a tensor instruction -/

/-- A read answers its bytes and whether any of them is poisoned. -/
abbrev Got := List Byte × Bool

/-- Where a read brings its data: to its targets, or to the staging region for the item that the instruction fetches (R299). -/
def Staging.aim (st : Staging) (n : Nat) (tgt : List Tgt) : List Tgt :=
  match st with
  | .fetching c ix _ => if tgt.isEmpty then [.work n c ix none] else tgt.map fun t => match t with
    | .slot g k => .work n c ix (some (g, k))
    | t => t
  | _ => tgt

/-- The operands are in the staging region: a read makes no request. -/
def Staging.here : Staging → Bool
  | .staged _ _ => true
  | _ => false

/-- A staged operand for one of the targets came poisoned. -/
def Staging.hit (st : Staging) (tgt : List Tgt) : Bool :=
  match st with
  | .staged bs _ => if tgt.isEmpty then bs.contains none else tgt.any fun t => match t with
    | .slot g k | .work _ _ _ (some (g, k)) => bs.contains (some (g, k))
    | _ => false
  | _ => false

/-- The byte at a place as it came into the staging half. -/
def heldAt (hs : List Held) (loc a : Nat) : Option Byte :=
  (hs.find? fun h => h.loc == loc && decide (h.addr ≤ a) && decide (a < h.addr + h.bytes.length)).bind fun h => h.bytes[a - h.addr]?

/-- What a staging region holds. -/
def Staging.held : Staging → List Held
  | .staged _ hs => hs
  | _ => []

/-- Note what has been read for the items that `tgt` names. -/
def Staging.take (st : Staging) (n : Nat) (tgt : List Tgt) (hs : List Held) (bad : Bool) : Staging :=
  match st with
  | .fetching c ix got =>
    let ts := (st.aim n tgt).filterMap fun t => match t with
      | .work _ g jx k => some (g, jx, k)
      | _ => none
    let items := dedup (ts.map fun t => (t.1, t.2.1))
    .fetching c ix (got ++ items.flatMap fun q =>
      let slots := (ts.filter fun t => t.1 == q.1 && t.2.1 == q.2).map fun t => t.2.2
      hs.map fun h => (q.1, q.2, { h with bad := if bad then slots else [] }))
  | _ => st

/-- Send the read of one line of instruction `n` and say whether it is denied. -/
def State.readLine (s : State) (n : Nat) (gran : Bool) (tgt : List Tgt) (a : Nat) : State × Bool :=
  match s.inst n with
  | none => (s, true)
  | some i =>
    match s.checkAcc i.dom (i.cls == 1) .rd a with
    | .ok =>
      let p := homePort a
      if gran && !(Map.get [] s.mem.gran (a / 128)).isEmpty then
        (if i.staging.here then s else s.onPort p fun x => { x with hits := holdAdd x.hits 1 }, false)
      else if s.portFenced p then (s.portDenied n p a true, true)
      else if i.staging.here then (s, false)
      else (s.queueRead i.dom (i.cls == 1) (.tensor n) a (if gran then 128 else 64) gran (i.staging.aim n tgt), false)
    | acc => (s.denied n .rd a acc, true)

/-- Take over the reads that a copy of the machine asks for, and its Granary hits. -/
def State.takeReads (s t : State) : State :=
  let new := (t.mem.ports.flatMap fun q => q.2.waiting ++ q.2.rq).filter fun r => decide (s.mem.nextSeq ≤ r.seq) && !r.wr
  let u := (new.mergeSort fun a b => decide (a.seq ≤ b.seq)).foldl (fun u r => u.queueReq { r with seq := 0, tag := 0 }) s
  t.mem.ports.foldl (fun u q => u.onPort q.1 fun x => { x with hits := q.2.hits }) u

/-- The line addresses that `[a, a + n)` touches, for lines of `k` bytes. -/
def linesOf (k a n : Nat) : List Nat :=
  if n = 0 then [] else (List.range ((a + n - 1) / k - a / k + 1)).map fun i => (a / k + i) * k

/-- The Granary holds the line of an address with an uncorrectable error (R518). -/
def State.granErr (s : State) (a : Nat) : Bool := s.mem.granBad.contains (a / 128) && !(Map.get [] s.mem.gran (a / 128)).isEmpty

/-- Read bytes of external memory for instruction `n` (R434, R448, R499): through the Granary when `gran`.
The value of a denied byte is free. -/
def State.readExt (s : State) (n : Nat) (gran : Bool) (tgt : List Tgt) (a len : Nat) : State × Got :=
  let k := if gran then 128 else 64
  let r := (linesOf k a len).foldl (fun (acc : State × List Nat) l =>
    let q := acc.1.readLine n gran tgt (max l a)
    (q.1, if q.2 then l / k :: acc.2 else acc.2)) (s, [])
  if r.2.isEmpty then (r.1, ((if gran then s.granBytes a len else s.soonBytes a len), gran && (linesOf k a len).any s.granErr))
  else
    let f := r.1.fresh
    (f.2, ((List.range len).map fun i =>
      if r.2.contains ((a + i) / k) then Config.deniedByte (a + i) f.1
      else if gran then s.granByte (a + i) else s.soonByte (a + i), true))

/-- Write bytes of external memory for instruction `n`: a denied or fenced line is discarded. `w` says what the writes serve. -/
def State.writeExtFor (s : State) (w : Why) (n : Nat) (a : Nat) (bs : List Byte) (bad : Bool) : State :=
  match s.inst n with
  | none => s
  | some i =>
    ((linesOf 64 a bs.length)).foldl (fun s l =>
      let a0 := max l a
      let a1 := min (l + 64) (a + bs.length)
      let seg := (bs.drop (a0 - a)).take (a1 - a0)
      match s.checkAcc i.dom (i.cls == 1) .wr a0 with
      | .ok =>
        if s.portFenced (homePort a0) then s.portDenied n (homePort a0) a0 false
        else s.queueWrite i.dom (i.cls == 1) w a0 seg bad
      | acc => s.denied n .wr a0 acc) s

/-- Write bytes of external memory as a request of instruction `n` itself. -/
def State.writeExt (s : State) (n : Nat) (a : Nat) (bs : List Byte) (bad : Bool) : State := s.writeExtFor (.tensor n) n a bs bad

/-- Mark an instruction as writing poisoned data. -/
def State.markPoison (s : State) (n : Nat) (bad : Bool) : State :=
  if bad then s.onInst n fun i => { i with poison := true } else s

/-! ### Completion records (R344 to R346) -/

/-- What a completion record says. -/
structure Rec where
  kind : Nat
  code : Nat := 0
  opc : Nat := 0
  spec : Bool := false
  poison : Bool := false
  int : Bool := false
  called : Bool := false
  spos : Nat := 0
  issue : Nat := 0
  result : Nat := 0
  seqid : Nat := 0
  deriving DecidableEq, Repr

def Rec.bytes (r : Rec) (c n size : Nat) : List Byte :=
  natLe 1 r.kind ++ natLe 1 c ++ natLe 2 r.code ++ natLe 1 r.opc
    ++ natLe 1 (b2n r.spec + 2 * b2n r.poison + 4 * b2n r.int + 8 * b2n r.called) ++ natLe 1 0
    ++ natLe 1 ((n / 2 ^ size + 1) % 2) ++ natLe 4 r.spos ++ natLe 4 (r.issue % 2 ^ 24)
    ++ natLe 8 r.result ++ natLe 4 r.seqid ++ natLe 4 n

/-- Set ERR and LASTERR with the first code since ERR was cleared (R321, R337). -/
def Ctx.setErr (x : Ctx) (code rseq : Nat) : Ctx :=
  if x.err then x else { x with err := true, lastErr := BitVec.ofNat 32 (code % 2 ^ 16 + rseq % 2 ^ 16 * 2 ^ 16) }

/-- Write the next completion record of context `c`. Its number is consumed whether or not the write can
be sent. -/
def State.writeRec (s : State) (c : Nat) (clsA : Bool) (r : Rec) : State :=
  let x := s.cx c
  let n := x.rseq
  let a := x.cfg.cmplBase + 32 * (n % 2 ^ x.cfg.cmplSize)
  let s1 := s.onCx c fun y => { y with rseq := (n + 1) % 2 ^ 32 }
  let e : Err := { code := Code.fWindow, ctx := some c, spos := r.spos, issue := r.issue, addr := a }
  match s1.grant x.domain .wr a with
  | none => s1.report { e with scope := 5, unit := 0x08, index := c, detail := 2 + 16 * x.domain } x.domain
  | some _ =>
    let p := homePort a
    if s1.portFenced p then s1.logErr { e with code := Code.fPortFenced, unit := 0x06, detail := p }
    else s1.queueWrite x.domain clsA
      (.record c (r.int || r.kind == 1 || r.kind == 2 || r.kind == 3 || r.kind == 6)) a (r.bytes c n x.cfg.cmplSize) false

/-- A record of the ring can be written without overtaking the consumer (R345). -/
def Ctx.ringFull (x : Ctx) : Bool :=
  decide ((x.rseq + x.resv + 2 ^ 32 - x.consRead % 2 ^ 32) % 2 ^ 32 ≥ 2 ^ x.cfg.cmplSize)

end Sys2Proof.Machine
end

