-- ==== Sys2Proof/Machine/Operands.lean ====
section
/-!
DEFINITION. Operands: tensor descriptors (R322 to R324), loop entries and their checks (R290 to R310,
R555), coordinates, folds and visit orders, and reading and writing the elements of a tensor in
external memory, bay memory and the program region.
-/

namespace Sys2Proof.Machine

/-! ### Descriptors -/

/-- The fields of a tensor descriptor (R322); extents are the extents themselves. -/
structure Desc where
  base : Nat
  fmtCode : Nat
  loc : Nat
  grad : Bool
  tsp : Bool
  e0 : Nat
  e1 : Nat
  e2 : Nat
  e3 : Nat
  s1 : Nat
  s2 : Nat
  s3 : Nat
  soff : Nat
  rsv : Nat
  tscale : Nat
  deriving DecidableEq, Repr

def Desc.of (v : BitVec 256) : Desc :=
  let w := v.toNat
  { base := 64 * fld w 0 46, fmtCode := fld w 46 4, loc := fld w 50 2, grad := bitOf w 52, tsp := bitOf w 53,
    e0 := fld w 54 24 + 1, e1 := fld w 78 24 + 1, e2 := fld w 102 8 + 1, e3 := fld w 110 8 + 1,
    s1 := fld w 118 24 * 2 ^ fld w 142 3, s2 := fld w 145 24 * 2 ^ fld w 169 3,
    s3 := fld w 172 24 * 2 ^ fld w 196 3, soff := fld w 199 22, rsv := fld w 221 3, tscale := fld w 224 32 }

def Desc.fmt (d : Desc) : Fmt := (Fmt.ofCode d.fmtCode).getD .e4m3

/-- REFUSE.ENCODING of R324. -/
def Desc.badEnc (d : Desc) : Bool := d.loc == 3 || d.rsv != 0 || (!d.tsp && d.tscale != 0)

/-- A tensor scale that R38 refuses: zero, negative, subnormal, infinite or NaN. -/
def badTscale (w : Nat) : Bool := bitOf w 31 || fld w 23 8 == 0 || fld w 23 8 == 255

/-- REFUSE.FORMAT of R324 and R33 (`idx` for an index-list operand). -/
def Desc.badFmt (d : Desc) (idx : Bool) : Bool :=
  decide (13 ≤ d.fmtCode) || (if idx then d.fmtCode != 11 else d.fmtCode == 11)
  || (d.tsp && (d.fmtCode != 6 || badTscale d.tscale)) || (d.soff != 0 && decide (8 ≤ d.fmtCode))

/-- REFUSE.SHAPE of R324. -/
def Desc.badShape (d : Desc) : Bool := d.fmtCode == 12 && (d.e0 % 32 != 0 || d.e1 % 32 != 0)

/-- The tensor scale of a descriptor. -/
def Desc.ts (d : Desc) : ℚ := if d.tsp then (f32Decode d.tscale).toRat else 1

/-- A coordinate of a tensor. -/
structure Coord where
  c0 : Int
  c1 : Int
  c2 : Int
  c3 : Int
  deriving DecidableEq, Repr

def Coord.zero : Coord := ⟨0, 0, 0, 0⟩

/-- Add a step along dimension `d`. -/
def Coord.add (x : Coord) (d : Nat) (v : Int) : Coord :=
  match d with
  | 0 => { x with c0 := x.c0 + v }
  | 1 => { x with c1 := x.c1 + v }
  | 2 => { x with c2 := x.c2 + v }
  | _ => { x with c3 := x.c3 + v }

/-- Inside the descriptor's shape (R298). -/
def Desc.has (d : Desc) (x : Coord) : Bool :=
  decide (0 ≤ x.c0) && decide (x.c0 < d.e0) && decide (0 ≤ x.c1) && decide (x.c1 < d.e1)
  && decide (0 ≤ x.c2) && decide (x.c2 < d.e2) && decide (0 ≤ x.c3) && decide (x.c3 < d.e3)

/-- The unit index of R323. -/
def Desc.unit (d : Desc) (i0 i1 i2 i3 : Nat) : Nat :=
  if d.fmtCode = 12 then i0 / 32 + i1 / 32 * d.s1 + i2 * d.s2 + i3 * d.s3
  else i0 / d.fmt.block + i1 * d.s1 + i2 * d.s2 + i3 * d.s3

/-- The address of a unit, of a WIDE entry or of a block's scale (R323). -/
def Desc.unitAddr (d : Desc) (u : Nat) : Nat := d.base + u * d.fmt.unitBytes
def Desc.scaleAddr (d : Desc) (u : Nat) : Nat := d.base + 4096 * d.soff + u
def Desc.wideEntry (d : Desc) (u i j : Nat) : Nat := d.base + 16448 * u + 64 + 16 * (32 * i + j)

/-- The largest unit index. -/
def Desc.lastUnit (d : Desc) : Nat := d.unit (d.e0 - 1) (d.e1 - 1) (d.e2 - 1) (d.e3 - 1)

/-- The first byte beyond the element plane and beyond the scale plane. -/
def Desc.endAddr (d : Desc) : Nat :=
  max (d.unitAddr (d.lastUnit + 1)) (if d.fmt.isBlock then d.scaleAddr (d.lastUnit + 1) else 0)

/-- REFUSE.RANGE of R324 for bay memory; the program region is checked at PLAN bounds (R313, Nest.lean). -/
def Desc.badRange (d : Desc) : Bool := d.loc == 1 && decide (0x600000 < d.endAddr)

/-- A program-region operand whose largest coordinates are `x` reaches beyond 0xBFFF (R313). -/
def Desc.beyondOb (d : Desc) (x : List Nat) : Bool :=
  let u := d.unit (min (x.getD 0 0) (d.e0 - 1)) (min (x.getD 1 0) (d.e1 - 1)) (min (x.getD 2 0) (d.e2 - 1)) (min (x.getD 3 0) (d.e3 - 1))
  d.loc == 2 && decide (0xC000 < max (d.unitAddr (u + 1)) (if d.fmt.isBlock then d.scaleAddr (u + 1) else 0))

/-- The linear element index (R55), from the extents. -/
def Desc.linear (d : Desc) (x : Coord) : Nat :=
  (x.c0.toNat + d.e0 * (x.c1.toNat + d.e1 * (x.c2.toNat + d.e2 * x.c3.toNat))) % 2 ^ 32

/-- Elements of a tensor. -/
def Desc.count (d : Desc) : Nat := d.e0 * d.e1 * d.e2 * d.e3

/-- The captured descriptor `tn` of an instruction. -/
def Inst.desc (i : Inst) (n : Nat) : Desc := Desc.of (Map.get 0 i.t n)
/-- The captured scalar `sn`; s0 supplies 0 (R352). -/
def Inst.sv (i : Inst) (n : Nat) : Nat := (regRead i.s n).toNat
/-- An address operand: bits [51:0] of a captured scalar (log 18). -/
def Inst.sa (i : Inst) (n : Nat) : Nat := i.sv n % 2 ^ 52
/-- A word of the instruction. -/
def Inst.wd (i : Inst) (k : Nat) : Nat := match k with
  | 0 => i.w.w0.toNat
  | 1 => i.w.w1.toNat
  | 2 => i.w.w2.toNat
  | _ => i.w.w3.toNat
/-- Bits of a word. -/
def Inst.f (i : Inst) (k lo n : Nat) : Nat := fld (i.wd k) lo n
def Inst.b (i : Inst) (k lo : Nat) : Bool := bitOf (i.wd k) lo
/-- The named slot, the overwrite flag. -/
def Inst.slot (i : Inst) : Nat := i.f 0 22 3
def Inst.ow (i : Inst) : Bool := i.b 0 25

/-- The refusal codes that descriptors of an instruction raise under R324. -/
def descCodes (ds : List Desc) : List Nat :=
  (if ds.any Desc.badEnc then [Code.encoding] else []) ++ (if ds.any (Desc.badFmt · false) then [Code.format] else [])
  ++ (if ds.any Desc.badShape then [Code.shape] else []) ++ (if ds.any Desc.badRange then [Code.range] else [])

def idxCodes (d : Desc) : List Nat :=
  (if d.badEnc then [Code.encoding] else []) ++ (if d.badFmt true then [Code.format] else [])
  ++ (if d.badRange then [Code.range] else [])

/-- One code where a condition holds. -/
def when (b : Bool) (code : Nat) : List Nat := if b then [code] else []

/-! ### Loop entries -/

/-- A stride word (R290). -/
structure Stride where
  dim : Nat
  used : Bool
  rsv : Nat
  step : Int
  deriving DecidableEq, Repr

def Stride.of (w : Nat) : Stride := ⟨fld w 0 2, bitOf w 2, fld w 3 5, sextNat 24 (fld w 8 24)⟩
def Stride.bad (t : Stride) : Bool := t.rsv != 0 || (!t.used && (t.dim != 0 || t.step != 0))

/-- The operands a stride word may move, in their order. -/
inductive Opnd where
  | a | b | c | x
  deriving DecidableEq, Repr

def Opnd.ix : Opnd → Nat
  | .a => 0
  | .b => 1
  | .c => 2
  | .x => 3

/-- A level (R290): roles are 0 M, 1 N, 2 K, 3 B, 4 J. -/
structure Level where
  plan : Nat
  reg : Nat
  role : Nat
  pos : Nat
  rsv : Bool
  strides : List Stride
  deriving DecidableEq, Repr

def Level.stride (l : Level) (o : Opnd) : Stride := l.strides.getD o.ix ⟨0, false, 0, 0⟩

/-- A loop entry (R290). -/
structure LoopE where
  nlev : Nat
  order : Nat
  tm : Nat
  tn : Nat
  dlev : Nat
  srot : Nat
  cores : Nat
  target : Nat
  ff : Nat
  fast : List Stride
  slow : List Stride
  levels : List Level
  rsv : Bool
  deriving DecidableEq, Repr

/-- Bytes `[i, i + n)` of an entry. -/
def lby (l : BitVec 2048) (i n : Nat) : Nat := fld l.toNat (8 * i) (8 * n)

def strideWords (l : BitVec 2048) (at' : Nat) : List Stride := (List.range 4).map fun k => Stride.of (lby l (at' + 4 * k) 4)

def Level.of (l : BitVec 2048) (k : Nat) : Level :=
  let o := 80 + 24 * k
  { plan := fld (lby l o 4) 0 25, reg := fld (lby l o 4) 25 5, role := lby l (o + 4) 1 % 8, pos := lby l (o + 5) 1 % 8,
    rsv := fld (lby l o 4) 30 2 != 0 || lby l (o + 4) 1 / 8 != 0 || lby l (o + 5) 1 / 8 != 0 || lby l (o + 6) 2 != 0,
    strides := strideWords l (o + 8) }

def LoopE.of (l : BitVec 2048) : LoopE :=
  let n := lby l 0 1 % 8
  { nlev := n, order := lby l 1 1 % 4, tm := lby l 2 1, tn := lby l 3 1, dlev := lby l 4 1 % 8, srot := lby l 5 1 % 8,
    cores := lby l 8 8, target := lby l 32 1 % 4, ff := fld (lby l 36 4) 0 17,
    fast := strideWords l 40, slow := strideWords l 56, levels := (List.range n).map (Level.of l),
    rsv := lby l 0 1 / 8 != 0 || lby l 1 1 / 4 != 0 || lby l 4 1 / 8 != 0 || lby l 5 1 / 8 != 0 || lby l 6 2 != 0
      || lby l 16 16 != 0 || lby l 32 1 / 4 != 0 || lby l 33 3 != 0 || fld (lby l 36 4) 17 15 != 0 || lby l 72 8 != 0
      || lby l (80 + 24 * n) (176 - 24 * n) != 0 }

/-- Levels in visit order, outermost first. -/
def LoopE.sorted (e : LoopE) : List Level := (List.range e.nlev).filterMap fun p => e.levels.find? fun l => l.pos == p

/-- The tile level of a role: its level of largest POS (R291). -/
def LoopE.tile (e : LoopE) (role : Nat) : Option Level := e.sorted.reverse.find? fun l => l.role == role
def LoopE.isTile (e : LoopE) (l : Level) : Bool := (e.tile l.role).any fun t => t.pos == l.pos

/-- A level's bound at run time (R295). -/
def Inst.bound (i : Inst) (l : Level) : Nat := if l.reg = 0 then l.plan else i.sv l.reg

/-- The bound of a role's tile level, 0 where the role has none. -/
def Inst.roleBound (i : Inst) (e : LoopE) (role : Nat) : Nat := ((e.tile role).map i.bound).getD 0

/-- What a tile level must name (R292): the dimension of each operand, exchanged under transposition. -/
def tileDim (role : Nat) (o : Opnd) (tr : Bool) : Option Nat :=
  let sw := fun (d : Nat) => if tr then 1 - d else d
  match role, o with
  | 2, .a => some (sw 0)
  | 2, .b => some (sw 0)
  | 2, .x => some (sw 0)
  | 0, .a => some (sw 1)
  | 0, .c => some 1
  | 1, .b => some (sw 1)
  | 1, .c => some 0
  | 1, .x => some (sw 1)
  | _, _ => none

/-- The checks of R294 that are common to every entry, and R304 and R306 on the order and the rotation. -/
def LoopE.badEntry (e : LoopE) : Bool :=
  e.rsv || e.nlev == 0 || e.nlev == 7 || e.tm == 0 || decide (128 < e.tm) || e.tn == 0 || decide (32 < e.tn)
  || e.order == 3 || e.srot == 0 || e.srot == 7 || e.dlev == 6 || (e.dlev != 7 && decide (e.nlev ≤ e.dlev))
  || !((List.range e.nlev).all fun p => e.levels.any fun l => l.pos == p)
  || decide (1 < (e.levels.filter fun l => l.role == 4).length)
  || e.levels.any (fun l => l.rsv || decide (5 ≤ l.role) || decide (2 ^ 24 < l.plan) || l.strides.any Stride.bad)
  || e.target == 3 || e.ff == 0 || decide (65536 < e.ff)
  || e.fast.any Stride.bad || e.slow.any Stride.bad
  || (decide (1 < e.srot) && e.dlev == 7)
  || (e.order != 0 && (e.dlev == 0 ||
      !(match e.sorted with
        | p :: q :: _ => (p.role == 0 && q.role == 1) || (p.role == 1 && q.role == 0)
        | _ => false)))

/-- A tile level's stride words name R292's dimensions. `tra`, `trb`, `trx` say which operands are
transposed, `roles` which roles the instruction reads. -/
def LoopE.badTile (e : LoopE) (roles : List Nat) (tra trb trx : Bool) : Bool :=
  e.levels.any fun l => e.isTile l && roles.contains l.role &&
    ([Opnd.a, .b, .c, .x].any fun o =>
      let t := l.stride o
      t.used && (match tileDim l.role o (match o with | .a => tra | .b => trb | .x => trx | .c => false) with
        | some d => t.dim != d
        | none => false))

/-- A level takes a role the instruction does not use (R293). -/
def LoopE.badRole (e : LoopE) (roles : List Nat) : Bool := e.levels.any fun l => !roles.contains l.role

/-- The pass level is the K tile level (R291). -/
def LoopE.badPass (e : LoopE) : Bool :=
  match e.sorted.reverse with
  | l :: _ => l.role != 2
  | [] => true

/-- A run-time bound above its plan (R295). -/
def Inst.badBound (i : Inst) (e : LoopE) : Bool := e.levels.any fun l => l.reg != 0 && decide (l.plan < i.bound l)

/-- Some level of the role list has bound 0 (R296). -/
def Inst.zeroRole (i : Inst) (e : LoopE) (roles : List Nat) : Bool :=
  e.levels.any fun l => roles.contains l.role && i.bound l == 0

/-! ### Assignees (R301, R302) -/

/-- The assignees of an instruction over a bay set. -/
def assignees (bays : List Nat) (cores : Nat) : List Nat := bays.flatMap fun b => (bitsSet 64 cores).map fun c => 64 * b + c

/-- The lead cores of spans of a width (R301). -/
def leads (bays : List Nat) (cores width : Nat) : List Nat :=
  bays.flatMap fun b => ((List.range 64).filter fun c =>
    (c % 8) % width == 0 && decide (c % 8 + width ≤ 8) && (List.range width).all fun k => bitOf cores (c + k)).map (64 * b + ·)

/-- The codes of R302 for a core set, and R25 for the bay set. -/
def State.coreCodes (s : State) (bays : List Nat) (cores : List Nat) : List Nat :=
  when cores.isEmpty Code.operand ++ when (bays.any fun b => !s.present b) Code.absent
  ++ when (cores.any s.coreFenced) Code.fenced

/-- Class A is enabled on a bay for R96 and R138: by AEN, or still in effect (R97, R98). -/
def State.aOn (s : State) (b : Nat) : Bool := bitOf s.sluice.aen b || bitOf s.sluice.aenEff b

/-- R96: a slot range that the class may not use on some bay of the set. -/
def State.badSlots (s : State) (i : Inst) (lo n : Nat) : Bool :=
  n != 0 && i.bays.any fun b => s.aOn b && (if i.cls = 1 then decide (lo < 4) else decide (4 < lo + n))

/-! ### Visit order (R304) -/

def leastPow (n : Nat) : Nat → Nat → Nat
  | 0, p => p
  | k + 1, p => if n ≤ p then p else leastPow n k (2 * p)

/-- Bits `par, par + 2, …` of `d`. -/
def unzip (par d : Nat) : Nat := ((List.range 26).map fun k => b2n (bitOf d (2 * k + par)) * 2 ^ k).sum

/-- The loop of HILBERT in R304. -/
def hilbert : Nat → Nat → Nat → Nat → Nat × Nat → Nat × Nat
  | 0, _, _, _, p => p
  | fuel + 1, n, s, t, (x, y) =>
    if n ≤ s then (x, y)
    else
      let rx := t / 2 % 2
      let ry := (t ^^^ rx) % 2
      let q : Nat × Nat := if ry = 0 then (if rx = 1 then (s - 1 - y, s - 1 - x) else (y, x)) else (x, y)
      hilbert fuel n (2 * s) (t / 4) (q.1 + s * rx, q.2 + s * ry)

/-- The points of the first two loops in visit order. -/
def curve (order X Y : Nat) : List (Nat × Nat) :=
  if order = 0 then (List.range X).flatMap fun x => (List.range Y).map fun y => (x, y)
  else
    let n := leastPow (max X Y) 26 1
    ((List.range (n * n)).map fun d => if order = 1 then (unzip 0 d, unzip 1 d) else hilbert 26 n 1 d (0, 0)).filter
      fun p => decide (p.1 < X) && decide (p.2 < Y)

/-- All index vectors of nested loops. -/
def product : List Nat → List (List Nat)
  | [] => [[]]
  | n :: ns => (List.range n).flatMap fun i => (product ns).map (i :: ·)

/-- The iterations of a level on assignee `ai` of `C`, where `tk` is the tile's K length: rounds for the
M tile level, tiles for the other tile levels, iterations otherwise (R291, R301). -/
def Inst.iters (i : Inst) (e : LoopE) (tk : Nat) (ai C : Nat) (l : Level) : Nat :=
  let bd := i.bound l
  if e.isTile l then
    match l.role with
    | 0 => let m := cdiv bd e.tm; (m + C - 1 - ai) / C
    | 1 => cdiv bd e.tn
    | 2 => cdiv bd tk
    | _ => bd
  else bd

/-- The digit of a level in an index vector: the global tile for the M tile level. -/
def LoopE.digit (e : LoopE) (ai C : Nat) (v : List Nat) (l : Level) : Nat :=
  let d := v.getD l.pos 0
  if e.isTile l && l.role == 0 then d * C + ai else d

/-- An operand's coordinate before the tile's own extent: the levels' steps (R291). -/
def LoopE.origin (e : LoopE) (o : Opnd) (ai C : Nat) (v : List Nat) (local' : Bool) : Coord :=
  e.levels.foldl (fun x l =>
    let t := l.stride o
    if t.used && !(local' && e.isTile l && l.role == 0) then x.add t.dim ((e.digit ai C v l : Int) * t.step) else x) Coord.zero

/-- The fold moves operand `o` along role `role` (R303). -/
def LoopE.folds (e : LoopE) (role : Nat) : Bool := (e.target == 1 && role == 0) || (e.target == 2 && role == 1)
def LoopE.fastOf (e : LoopE) (o : Opnd) : Stride := e.fast.getD o.ix ⟨0, false, 0, 0⟩
def LoopE.slowOf (e : LoopE) (o : Opnd) : Stride := e.slow.getD o.ix ⟨0, false, 0, 0⟩

/-- Add the fold's steps for folded index `x`. -/
def LoopE.foldAt (e : LoopE) (o : Opnd) (x : Nat) (p : Coord) : Coord :=
  let f := e.fastOf o
  let g := e.slowOf o
  let p1 := if f.used then p.add f.dim ((x % e.ff : Nat) * f.step) else p
  if g.used then p1.add g.dim ((x / e.ff : Nat) * g.step) else p1

/-- The coordinate of row or column `r` (folded index `x`) of an operand that has an extent along the
role, on dimension `dim` (R292, R303). -/
def LoopE.along (e : LoopE) (o : Opnd) (role dim r x : Nat) (p : Coord) : Coord :=
  if e.folds role && ((e.fastOf o).used || (e.slowOf o).used) then e.foldAt o x p else p.add dim r

/-- The once-per-tile move of an operand with no extent along the fold's role (R303). -/
def LoopE.once (e : LoopE) (o : Opnd) (role x : Nat) (p : Coord) : Coord := if e.folds role then e.foldAt o x p else p

/-! ### Reading elements -/

/-- A view of the three memories at one core for the length of one read. -/
structure View where
  ext : Nat → Byte
  bay : Nat → Byte
  ob : Nat → Byte

def View.at (v : View) (loc a : Nat) : Byte := match loc with
  | 0 => v.ext a
  | 1 => v.bay a
  | _ => v.ob a

def View.nat (v : View) (loc a n : Nat) : Nat := leNat ((List.range n).map fun k => v.at loc (a + k))

/-- A run of bytes in one of the memories. -/
structure Span where
  loc : Nat
  addr : Nat
  len : Nat
  deriving DecidableEq, Repr

/-- The bytes of the element at a coordinate, with its block's scale. -/
def Desc.spans (d : Desc) (x : Coord) : List Span :=
  let u := d.unit x.c0.toNat x.c1.toNat x.c2.toNat x.c3.toNat
  if d.fmt.isBlock then [⟨d.loc, d.unitAddr u, d.fmt.unitBytes⟩, ⟨d.loc, d.scaleAddr u, 1⟩]
  else if d.fmtCode = 12 then
    [⟨d.loc, d.base + 16448 * u, 64⟩, ⟨d.loc, d.wideEntry u (x.c1.toNat % 32) (x.c0.toNat % 32), 16⟩]
  else [⟨d.loc, d.unitAddr u, d.fmt.unitBytes⟩]

/-- The raw element bits at a coordinate. -/
def Desc.raw (d : Desc) (v : View) (x : Coord) : Nat :=
  let u := d.unit x.c0.toNat x.c1.toNat x.c2.toNat x.c3.toNat
  fld (v.nat d.loc (d.unitAddr u) d.fmt.unitBytes) (x.c0.toNat % d.fmt.block * d.fmt.bits) d.fmt.bits

/-- The scale byte of the block at a coordinate. -/
def Desc.scaleByte (d : Desc) (v : View) (x : Coord) : Nat :=
  (v.at d.loc (d.scaleAddr (d.unit x.c0.toNat x.c1.toNat x.c2.toNat x.c3.toNat))).toNat

/-- The value at a coordinate with its block scale, without a tensor scale (R38). -/
def Desc.val (d : Desc) (v : View) (x : Coord) : Ext :=
  if d.fmt.isBlock then scaled (decodeElem d.fmt (d.raw v x)) (decodeScale d.fmt (d.scaleByte v x))
  else decodeElem d.fmt (d.raw v x)

/-- The value with the tensor scale (R37), for every reader but an array pass. -/
def Desc.valTs (d : Desc) (v : View) (x : Coord) : Ext := (d.val v x).scale d.ts

/-- The element is T2's reserved code (R39). -/
def Desc.t2bad (d : Desc) (v : View) (x : Coord) : Bool := d.fmtCode == 7 && d.raw v x == 2

/-- The distinct lines of external memory that a list of spans touches, in order of first use. -/
def extLines (k : Nat) (sp : List Span) : List Nat :=
  dedupNat ((sp.filter fun p => p.loc == 0).flatMap fun p => linesOf k p.addr p.len)

/-- A read of a program-region block last written by another domain (R314). -/
def State.foreignBlock (s : State) (g dom : Nat) (sp : List Span) : Option Nat :=
  ((sp.filter fun p => p.loc == 2).flatMap fun p => (linesOf 1024 p.addr p.len).map (· / 1024)).find? fun b =>
    match Map.get none (s.co g).obTag b with
    | none => false
    | some d => d != dom

/-- FAULT.OB_DOMAIN of instruction `n` on block `b` (R314); none for speculative work (R280). -/
def State.obFault (s : State) (n g b : Nat) : State :=
  match s.inst n with
  | none => s
  | some i => if i.spec then s else s.instFault n
      { code := Code.fObDomain, scope := 5, unit := 0x10 + g / 64, index := i.ctx, detail := b }

/-- Fetch spans for instruction `n` on core `g` (R434, R448, R499, R516): the requests of external lines,
the poison of bay memory and the program region, and a view of the bytes. `gran` says whether external
reads pass through the Granary. A program-region block of another domain is FAULT.OB_DOMAIN (R314), and what the
instruction writes with the read is poisoned. -/
def State.fetch (s : State) (n g : Nat) (gran : Bool) (tgt : List Tgt) (sp : List Span) : State × View × Bool :=
  let k := if gran then 128 else 64
  let fb := s.foreignBlock g (((s.inst n).map Inst.dom).getD 0) sp
  let s0 := match fb with
    | some b => s.obFault n g b
    | none => s
  let r := (extLines k sp).foldl (fun (acc : State × List Nat) l =>
    let q := acc.1.readLine n gran tgt l
    (q.1, if q.2 then l / k :: acc.2 else acc.2)) (s0, [])
  let f := r.1.fresh
  let x := s.co g
  let b := s.by (g / 64)
  let st := ((s.inst n).map Inst.staging).getD .off
  let hs := st.held
  -- what the staging half holds was good or bad when it came
  let now := sp.filter fun p => (heldAt hs p.loc p.addr).isNone
  let bad := !r.2.isEmpty || fb.isSome || st.hit tgt || (gran && (extLines k now).any s.granErr) || now.any fun p =>
    (p.loc == 1 && anyPoison b.memPoison p.addr p.len) || (p.loc == 2 && anyPoison x.obPoison p.addr p.len)
  let s2 := if r.2.isEmpty then r.1 else f.2
  let v : View :=
    { ext := fun a => if r.2.contains (a / k) then Config.deniedByte a f.1 else (heldAt hs 0 a).getD (if gran then s.granByte a else s.extByte a),
      bay := fun a => (heldAt hs 1 a).getD (Map.get 0 b.mem a),
      ob := fun a => Map.get 0 x.ob a }
  let s3 := match st with
    | .fetching _ _ _ =>
      let got := (sp.filter fun p => p.loc != 2).map fun p => (⟨p.loc, p.addr, (List.range p.len).map fun j => v.at p.loc (p.addr + j), []⟩ : Held)
      s2.onInst n fun y => { y with staging := y.staging.take n tgt got bad }
    | _ => s2
  (s3, v, bad)

/-- Raise FMT.T2_CODE once for an instruction (R39), from the bay of its first core; never by
speculative work (R280). -/
def State.t2Event (s : State) (n : Nat) (seen : Bool) : State :=
  match s.inst n with
  | none => s
  | some i => if seen && !i.t2seen && !i.spec then
      (s.raise 0x0303 (match i.cores with | g :: _ => 0x10 + g / 64 | [] => 0x07) [i.ctx]).onInst n fun j =>
        { j with t2seen := true } else s

/-! ### Writing -/

/-- Write bytes at a place of one of the memories for instruction `n` on core `g`; a write to the program
region marks its blocks with the instruction's domain (R314). -/
def State.store (s : State) (n g loc a : Nat) (bs : List Byte) (bad : Bool) : State :=
  let s0 := s.markPoison n bad
  match loc with
  | 0 => s0.writeExt n a bs bad
  | 1 => s0.putBay (g / 64) a bs bad
  | _ =>
    let dom := ((s.inst n).map Inst.dom).getD 0
    let s1 := s0.putOb g a bs bad
    s1.onCo g fun x => { x with obTag := Map.setMany none x.obTag ((linesOf 1024 a bs.length).map fun l => (l / 1024, some dom)) }

/-- Read the bytes of a place as they stand, with no request: for a partial update of a unit (log 19). -/
def State.peek (s : State) (g loc a n : Nat) : List Byte :=
  match loc with
  | 0 => s.extBytes a n
  | 1 => (s.by (g / 64)).bytes a n
  | _ => (s.co g).obBytes a n

/-- The target that a store marks. -/
def tgtOf (g loc a n : Nat) : Tgt := match loc with
  | 0 => .ext a n
  | 1 => .bay (g / 64) a n
  | _ => .ob g a n

/-- Store the converted blocks of a run of elements that starts at coordinate `x` of a tensor and goes
along dimension 0: elements and scales of a block format, elements of a word format. Elements of a
last partial block are written as zero (R323). -/
def State.storeRow (s : State) (n g : Nat) (d : Desc) (x : Coord) (bs : List Block) (bad : Bool) : State :=
  let f := d.fmt
  if f.isBlock then
    ((List.range bs.length).zip bs).foldl (fun s p =>
      let u := d.unit (x.c0.toNat + p.1 * f.block) x.c1.toNat x.c2.toNat x.c3.toNat
      let e := p.2.elems ++ List.replicate (f.block - p.2.elems.length) 0
      let s1 := s.store n g d.loc (d.unitAddr u) (packBits f.bits f.unitBytes e) bad
      s1.store n g d.loc (d.scaleAddr u) [BitVec.ofNat 8 p.2.scale] bad) s
  else
    s.store n g d.loc (d.unitAddr (d.unit x.c0.toNat x.c1.toNat x.c2.toNat x.c3.toNat))
      ((bs.flatMap Block.elems).flatMap fun e => natLe f.unitBytes e) bad

/-! ### Counting (R57) -/

/-- Add what a conversion counted to a stream of a context; speculative work counts nothing (R279). What counts nothing is no
conversion into the stream, so the end of the instruction does not test it (R60). -/
def State.count (s : State) (n strm : Nat) (k : Counts) : State :=
  match s.inst n with
  | none => s
  | some i =>
    if i.spec || decide (k = Counts.zero) then s
    else
      let s1 := s.onCx i.ctx fun x => { x with streams := Map.modify {} x.streams strm fun q =>
        { q with sat := holdAdd q.sat k.sat, flush := holdAdd q.flush k.flush, nonfin := holdAdd q.nonfin k.nonfin,
                 elem := (q.elem + k.elem) % 2 ^ 64, err2 := q.err2 + k.err2, sig2 := q.sig2 + k.sig2 } }
      s1.onInst n fun j => if j.aux.contains (1000 + strm) then j else { j with aux := j.aux ++ [1000 + strm] }

/-- The drain-control fields (R356). -/
def Inst.rnd (i : Inst) : Nat := i.f 3 8 2
def Inst.strm (i : Inst) : Nat := i.f 3 10 4
def Inst.hr (i : Inst) : Nat := i.f 3 14 2

/-- The draw of a conversion into the destination of descriptor `tn` (R55, sites 32 to 63). -/
def Inst.draw (i : Inst) (tn element count : Nat) : Nat := srDraw i.seed.toNat (32 + tn) i.issue element count

/-- The rounding of a conversion into the destination of descriptor `tn`. -/
def Inst.rndAt (i : Inst) (tn element count : Nat) : Rnd := rndOf i.rnd (i.draw tn element count)

/-- REFUSE.FLOOR of R61: a gradient tensor in a format below the floor. -/
def floorCodes (ds : List Desc) : List Nat := when (ds.any fun d => d.grad && d.fmtCode < 13 && d.fmt.belowFloor) Code.floor

end Sys2Proof.Machine
end

