-- ==== Sys2Proof/Machine/Accm.lean ====
section
/-!
DEFINITION. Accumulator memory (R95 to R132): entries, anchors, adding a row (R108 to R113), the term
bound (R106), passes into a slot (R100, R104, R105, R112), the WIDE tile of a slot and save records
(R47, R121, R129, R130), and row-statistic sums (R124).
-/

namespace Sys2Proof.Machine

/-! ### Entries -/

/-- F as an integer. -/
def Entry.int (e : Entry) : Int := e.f.toInt

/-- The value an entry reads as at anchor `a` (R101, R102); an entry of an unanchored slot reads 0. -/
def Entry.ext (e : Entry) (a : Option Int) : Ext :=
  if e.nan || (e.pinf && e.ninf) then .nan
  else if e.pinf then .inf false
  else if e.ninf then .inf true
  else match a with
    | none => .fin false 0
    | some k => Ext.ofRat ((e.int : ℚ) * pow2 (k - 72))

/-- A special flag is set. -/
def Entry.special (e : Entry) : Bool := e.nan || e.pinf || e.ninf

/-- The flags after a column sum with a special value (R113). -/
def Entry.tag (e : Entry) (x : Ext) : Entry :=
  match x with
  | .fin _ _ => e
  | .nan => { e with nan := true, pinf := false, ninf := false }
  | .inf s =>
    if e.nan || (e.pinf && e.ninf) then { e with nan := true, pinf := false, ninf := false }
    else if s then (if e.pinf then { e with nan := true, pinf := false } else { e with ninf := true })
    else if e.ninf then { e with nan := true, ninf := false } else { e with pinf := true }

/-- F := `v` rounded to an integer with draw `u`; the inexact flag sets if `v` is no integer (R110). -/
def Entry.put (e : Entry) (v : ℚ) (u : Nat) : Entry :=
  { e with f := BitVec.ofInt 96 (roundFloorGrid u v), inex := e.inex || v.den != 1 }

/-- F / 2^s, rounded with draw `u` (R109). -/
def Entry.shift (e : Entry) (s u : Nat) : Entry := e.put ((e.int : ℚ) / 2 ^ s) u

/-- The exact value F + c / 2^(A − 72) of R108. -/
def Entry.plus (e : Entry) (a : Int) (c : ℚ) : ℚ := (e.int : ℚ) + c * pow2 (72 - a)

/-- The shift that a row of values needs before it is added (R108): 0 while every |v| < 2^94. -/
def rowShift (vs : List ℚ) : Nat :=
  let m := vs.foldl (fun a v => max a |v|) 0
  if m < 2 ^ 94 then 0 else 8 * ((floorLog2 m - 93 + 7) / 8).toNat

/-! ### Slots -/

/-- The key of the anchor that an entry is weighed by (R95, R99, R146). -/
def Slot.anchKey (x : Slot) (e : Nat) : Nat :=
  if x.rowForm then e / 32 else if x.quad then 2 * (e / 32 / 16) + e % 32 / 16 else 0

def Slot.anchor (x : Slot) (key : Nat) : Option Int := Map.get none x.anch key
def Slot.anchorOf (x : Slot) (e : Nat) : Option Int := x.anchor (x.anchKey e)
def Slot.entry (x : Slot) (e : Nat) : Entry := Map.get {} x.ent e
def Slot.val (x : Slot) (e : Nat) : Ext := (x.entry e).ext (x.anchorOf e)
/-- Unanchored (R103): no anchor at all. -/
def Slot.unanchored (x : Slot) : Bool := x.anch.isEmpty

/-- The slot's single anchor as WIDE and the debug registers show it (R121): the largest, −512 for none. -/
def Slot.topAnchor (x : Slot) : Int := maxIntOr (-512) (x.anch.filterMap Prod.snd)

/-- What the draws of a slot are keyed by (R55). -/
structure Draws where
  seed : Nat
  issue : Nat
  core : Nat
  slot : Nat
  count : Nat
  /-- rows that a pass cut short by a core fault still writes (R518) -/
  cut : Option Nat := none
  deriving DecidableEq, Repr

/-- The draw of an entry at site `base + slot`. -/
def Draws.at (d : Draws) (base e : Nat) : Nat := srDraw d.seed (base + d.slot) d.issue (1024 * d.core + e) d.count

/-- Re-anchor the entries under one anchor by `s` bits (R109). -/
def Slot.reanchor (x : Slot) (d : Draws) (key s : Nat) : Slot :=
  { x with ent := x.ent.map fun p => if x.anchKey p.1 = key then (p.1, p.2.shift s (d.at 8 p.1)) else p,
           anch := Map.modify none x.anch key fun a => a.map (· + s) }

/-- Write one entry of a row (R110, R113). -/
def Slot.addEntry (x : Slot) (d : Draws) (a : Int) (p : Nat × Ext) : Slot :=
  { x with ent := Map.modify {} x.ent p.1 fun e => (e.put (e.plus a p.2.toRat) (d.at 0 p.1)).tag p.2 }

/-- Write one entry of a row that may not re-anchor (R111). An infinity flag of the other sign that the entry holds makes
it NaN by R113's table (DEDUCED, log 110). -/
def Slot.addEntryMax (x : Slot) (d : Draws) (a : Int) (p : Nat × Ext) : Slot :=
  { x with ent := Map.modify {} x.ent p.1 fun e =>
      let v := e.plus a p.2.toRat
      if 2 ^ 94 ≤ |v| then (e.tag (.inf (decide (v < 0)))).tag p.2 else (e.put v (d.at 0 p.1)).tag p.2 }

/-- Add one row of column sums, all under anchor `key`, to a slot (R108 to R113). The second part counts
the re-anchor. -/
def Slot.addRow (x : Slot) (d : Draws) (key : Nat) (cs : List (Nat × Ext)) : Slot × Nat :=
  match x.anchor key with
  | none => ({ x with ent := cs.foldl (fun m p => Map.modify {} m p.1 fun e => e.tag p.2) x.ent }, 0)
  | some a =>
    let s := rowShift (cs.map fun p => (x.entry p.1).plus a p.2.toRat)
    if s = 0 then (cs.foldl (fun y p => y.addEntry d a p) x, 0)
    else if 511 < a + s then (cs.foldl (fun y p => y.addEntryMax d a p) x, 0)
    else (cs.foldl (fun y p => y.addEntry d (a + s) p) (x.reanchor d key s), 1)

/-- A slot with nothing in it (R115). -/
def Slot.zero : Slot := {}

/-- A slot as the clear modifier of a drain leaves it: unanchored; POISONED stays (R103, R120, R146). -/
def Slot.cleared (x : Slot) : Slot := { poisoned := x.poisoned }

/-- Give a plain slot four sub-slots (R100). -/
def Slot.toQuad (x : Slot) : Slot :=
  match x.anchor 0 with
  | none => { x with quad := true }
  | some a => { x with quad := true, anch := [(0, some a), (1, some a), (2, some a), (3, some a)] }

/-- Bring four sub-slots to their largest anchor (R100); each sub-slot moved counts one re-anchor (DESIGN CHOICE, log 109). -/
def Slot.toPlain (x : Slot) (d : Draws) : Slot × Nat :=
  if x.unanchored then ({ x with quad := false }, 0)
  else
    let t := x.topAnchor
    let r := (List.range 4).foldl (fun (acc : Slot × Nat) k =>
      match acc.1.anchor k with
      | none => acc
      | some a => if a < t then (acc.1.reanchor d k (t - a).toNat, acc.2 + 1) else acc) (x, 0)
    ({ r.1 with quad := false, anch := [(0, some t)] }, r.2)

/-- Begin a pass on a slot (R100, R104, R105, R107, R112): `tau` gives the term bound of each anchor key. -/
def Slot.begin' (x : Slot) (d : Draws) (ow quad : Bool) (dom : Nat) (keys : Nat) (tau : Nat → Option Int) : Slot × Nat :=
  let r : Slot × Nat :=
    if ow then ({ quad := quad }, 0)
    else if quad = x.quad then (x, 0)
    else if quad then (x.toQuad, 0) else x.toPlain d
  let was := r.1.unanchored
  let y := (List.range keys).foldl (fun (y : Slot) k => match y.anchor k, tau k with
    | none, some t => { y with anch := Map.set none y.anch k (some (t + 8)) }
    | _, _ => y) r.1
  ({ y with owner := if was && !y.unanchored then dom else y.owner }, r.2)

/-- One whole pass into a slot: rows in order, each a list of anchor keys with the entries under them. A
pass that used poisoned data marks the slot (R93). -/
def Slot.pass (x : Slot) (d : Draws) (ow quad : Bool) (dom : Nat) (tau : Nat → Option Int)
    (rows : List (List (Nat × List (Nat × Ext)))) (bad : Bool) : Slot × Nat :=
  let d1 := { d with count := if ow then 0 else x.passes.toNat % 2 ^ 32 }
  let r0 := x.begin' d1 ow quad dom (if quad then 4 else 1) tau
  let kept := match d.cut with
    | none => rows
    | some k => rows.take k
  let r := kept.foldl (fun (acc : Slot × Nat) row => row.foldl (fun (acc : Slot × Nat) g =>
    let q := acc.1.addRow d1 g.1 g.2
    (q.1, acc.2 + q.2)) acc) r0
  -- a pass that a core fault cuts short never brings its last row to D (R112)
  ({ r.1 with passes := if kept.length < rows.length then r.1.passes else r.1.passes + 1, poisoned := r.1.poisoned || bad }, r.2)

/-- Write a slot back and count its bay's re-anchors (R131). -/
def State.putSlot (s : State) (g k : Nat) (r : Slot × Nat) : State :=
  (s.onSlot g k fun _ => r.1).onBy (g / 64) fun b => if r.2 = 0 then b else { b with reanch := holdAdd b.reanch r.2 }

/-- Another domain's context may not add to, drain or save a slot that is anchored (R105). -/
def State.foreignSlot (s : State) (g k dom : Nat) : Bool := !(s.slot g k).unanchored && (s.slot g k).owner != dom

/-- FAULT.SLOT_DOMAIN (R105). -/
def State.slotFault (s : State) (n g k : Nat) : State :=
  match s.inst n with
  | none => s
  | some i => s.instFault n { code := Code.fSlotDomain, scope := 5, unit := 0x10 + g / 64, index := i.ctx, detail := k }

/-! ### Column sums and the term bound -/

/-- The exact sum of products with the flags of R68; a flagged sum has a finite part of zero. -/
def colSum (ps : List Ext) : Ext :=
  if ps.any Ext.isNan then .nan
  else
    let p := ps.any fun x => !x.isFin && !x.isNeg
    let n := ps.any fun x => !x.isFin && x.isNeg
    if p && n then .nan else if p then .inf false else if n then .inf true
    else Ext.ofRat ((ps.map Ext.toRat).sum)

/-- The larger of two optional exponents. -/
def maxOpt (a b : Option Int) : Option Int := match a, b with
  | none, y => y
  | x, none => x
  | some x, some y => some (max x y)

/-- τ of R106 from the scale exponents at each K position of the streamed and the stationary side. -/
def termBound (ga gb : Int) (ea eb : List (List (Option Int))) : Option Int :=
  let col := fun (l : List (List (Option Int))) (k : Nat) => l.foldl (fun a r => maxOpt a (r.getD k none)) none
  let n := maxOr 0 (ea.map List.length)
  ((List.range n).foldl (fun acc k => match col ea k, col eb k with
    | some x, some y => maxOpt acc (some (x + y))
    | _, _ => acc) none).map fun e => ga + gb + 1 + e

/-! ### WIDE tiles (R47, R48, R121) -/

/-- A WIDE tile. -/
structure Tile where
  anchor : Int
  rows : Nat
  cols : Nat
  quad : Bool
  inexact : Bool
  passes : Nat
  qanch : List Int
  ent : Map Entry
  deriving DecidableEq, Repr

def Entry.nat (e : Entry) : Nat := e.f.toNat + 2 ^ 96 * (b2n e.nan + 2 * b2n e.pinf + 4 * b2n e.ninf + 8 * b2n e.inex)
def Entry.ofNat (n : Nat) : Entry :=
  ⟨BitVec.ofNat 96 n, bitOf n 96, bitOf n 97, bitOf n 98, bitOf n 99, 0⟩

/-- The bytes of a tile: entries outside ROWS × COLS are zero. -/
def Tile.bytes (t : Tile) : List Byte :=
  natLe 2 (wrapInt 16 t.anchor) ++ natLe 1 t.rows ++ natLe 1 t.cols ++ natLe 1 (b2n t.quad + 2 * b2n t.inexact) ++ zeroBytes 3
  ++ natLe 8 t.passes ++ (if t.quad then (List.range 4).flatMap fun k => natLe 2 (wrapInt 16 (t.qanch.getD k (-512))) else zeroBytes 8)
  ++ zeroBytes 40
  ++ (List.range 1024).flatMap fun e =>
    if e / 32 < t.rows && e % 32 < t.cols then natLe 16 (Map.get ({} : Entry) t.ent e).nat else zeroBytes 16

/-- The anchor of a tile's entry. -/
def Tile.anchorOf (t : Tile) (e : Nat) : Int :=
  if t.quad then t.qanch.getD (2 * (e / 32 / 16) + e % 32 / 16) 0 else t.anchor

/-- Read a header. -/
def tileHeader (h : List Byte) : Tile :=
  { anchor := sextNat 16 (leAt h 0 2), rows := leAt h 2 1, cols := leAt h 3 1, quad := leAt h 4 1 % 2 == 1,
    inexact := leAt h 4 1 / 2 % 2 == 1, passes := leAt h 8 8,
    qanch := (List.range 4).map fun k => sextNat 16 (leAt h (16 + 2 * k) 2), ent := [] }

/-- A valid header (R48): QANCH holds anchors under QUAD and is zero otherwise. -/
def tileOk (h : List Byte) : Bool :=
  let t := tileHeader h
  decide (-512 ≤ t.anchor) && decide (t.anchor ≤ 511) && t.rows != 0 && decide (t.rows ≤ 32) && t.cols != 0 && decide (t.cols ≤ 32)
  && leAt h 4 1 / 4 == 0 && zeroAt h 5 3 && zeroAt h 24 40
  && (if t.quad then t.qanch.all fun a => decide (-512 ≤ a) && decide (a ≤ 511) else zeroAt h 16 8)

/-- Read the entries of a whole tile; a nonzero bit [127:100] of an entry inside ROWS × COLS is bad (R48). -/
def tileOf (bs : List Byte) : Tile × Bool :=
  let h := tileHeader (bs.take 64)
  let raw := (List.range 1024).filterMap fun e =>
    if e / 32 < h.rows && e % 32 < h.cols then
      let n := leAt bs (64 + 16 * e) 16
      if n = 0 then none else some (e, n)
    else none
  ({ h with ent := (raw.map fun p => (p.1, Entry.ofNat p.2)).filter fun p => p.2 != {} },
   tileOk (bs.take 64) && raw.all fun p => p.2 / 2 ^ 100 == 0)

/-- The tile of a slot at its own anchor (R121). A slot in row-anchored form is first brought to its largest
row anchor (R147). -/
def Slot.tile (x : Slot) (rows cols : Nat) : Tile :=
  let es := x.ent.filter fun p => decide (p.1 / 32 < rows) && decide (p.1 % 32 < cols)
  { anchor := x.topAnchor, rows := rows, cols := cols, quad := x.quad, inexact := es.any fun p => p.2.inex,
    passes := x.passes.toNat, qanch := if x.quad then (List.range 4).map fun k => (x.anchor k).getD (-512) else [],
    ent := if x.unanchored then es.map fun p => (p.1, { p.2 with f := 0, inex := false }) else es }

/-- The draw with which the rounding of R53 gives the nearest integer, ties to even. -/
def nearDraw (v : ℚ) : Nat :=
  let f := v - v.floor
  if 1 / 2 < f || (f = 1 / 2 && v.floor % 2 != 0) then 0 else 2 ^ 24

/-- Move one entry from its anchor to a fixed one, with an exact factor (R121, R153, R556); `u` is its draw, `none` where
it rounds to nearest even. The second part counts SAT. `n` is the instruction's number. -/
def Entry.toFixed (e : Entry) (a : Option Int) (at' : Int) (ts : ℚ) (u : Option Nat) (n ix : Nat) : Entry × Nat :=
  match a with
  | none => (e, 0)
  | some k =>
    let v := (e.int : ℚ) * ts * pow2 (k - at')
    if ts = 1 && decide (k = at') then (e, 0)
    else if (ts != 1 || decide (at' < k)) && decide (2 ^ 94 ≤ |v|) then ({ e.tag (.inf (decide (v < 0))) with f := Config.overF n ix }, 1)
    else (e.put v (u.getD (nearDraw v)), 0)

/-- The tile of a slot at a fixed anchor (R121), with the draw of each entry. -/
def Slot.tileAt (x : Slot) (at' : Int) (rows cols n : Nat) (draw : Nat → Nat) : Tile × Nat :=
  let es := x.ent.filter fun p => decide (p.1 / 32 < rows) && decide (p.1 % 32 < cols)
  let ms := es.map fun p => (p.1, p.2.toFixed (x.anchorOf p.1) at' 1 (some (draw p.1)) n p.1)
  ({ anchor := at', rows := rows, cols := cols, quad := false, inexact := ms.any fun p => p.2.1.inex, passes := x.passes.toNat,
     qanch := [], ent := (ms.map fun p => (p.1, p.2.1)).filter fun p => p.2 != {} }, (ms.map fun p => p.2.2).sum)

/-! ### Save records (R129, R130) -/

def Slot.record (x : Slot) : List Byte :=
  (x.tile 32 32).bytes ++ [BitVec.ofNat 8 (b2n x.unanchored + 2 * b2n x.poisoned), BitVec.ofNat 8 x.owner] ++ zeroBytes 62

/-- The slot that a save record restores; `none` where R130 or R48 rejects it. A sub-slot saved at −512 with
every F and inexact flag zero is unanchored again (log 23). -/
def slotOfRecord (bs : List Byte) : Option Slot :=
  let t := tileOf bs
  let st := leAt bs 16448 1
  let ow := leAt bs 16449 1
  let un := st % 2 == 1
  let es := t.1.ent
  if !t.2 || 4 ≤ st || 16 ≤ ow || !zeroAt bs 16450 62 || (un && es.any fun p => p.2.f != 0 || p.2.inex) then none
  else
    let empty := fun (k : Nat) => !(es.any fun p => 2 * (p.1 / 32 / 16) + p.1 % 32 / 16 == k && (p.2.f != 0 || p.2.inex))
    some { quad := t.1.quad, poisoned := st / 2 == 1, passes := BitVec.ofNat 64 t.1.passes, owner := ow, ent := es,
           anch := if un then []
             else if t.1.quad then (List.range 4).filterMap fun k =>
               let a := t.1.qanch.getD k (-512)
               if a = -512 && empty k then none else some (k, some a)
             else [(0, some t.1.anchor)] }

/-! ### Row-statistic sums (R124) -/

/-- Add a group's exact sum to a row-statistic sum (R107 to R113, R124): `u6` and `u14` are its draws. -/
def statAdd (e : Entry) (a : Option Int) (v : ℚ) (tau : Int) (u6 u14 : Nat) : Entry × Option Int :=
  let k := a.getD (tau + 8)
  let w := e.plus k v
  let s := rowShift [w]
  if s = 0 then (e.put w u6, some k)
  else if 511 < k + s then (if 2 ^ 94 ≤ |w| then e.tag (.inf (decide (w < 0))) else e.put w u6, some k)
  else
    let e1 := e.shift s u14
    (e1.put (e1.plus (k + s) v) u6, some (k + s))

/-- The value of a row-statistic sum. -/
def statVal (e : Entry) (a : Option Int) : ℚ := match a with
  | none => 0
  | some k => (e.int : ℚ) * pow2 (k - 72)

/-- τ of a group of terms (R124): `none` if every term is zero. -/
def groupTau (ts : List ℚ) : Option Int :=
  let m := ts.foldl (fun a v => max a |v|) 0
  if m = 0 then none else some (floorLog2 m + 5)

/-- The draw of a row-statistic sum `f` of row `r` at site 6 or 14 (R55). -/
def statDraw (seed site issue core r f count : Nat) : Nat := srDraw seed site issue (1024 * core + 32 * r + f) count

/-- Add one group of a row's elements to Σx (when `lin`) and Σx² (R124). Specials set the NaN flag. -/
def RowStat.group (q : RowStat) (seed issue core r count : Nat) (lin : Bool) (xs : List Ext) : RowStat :=
  let vs := xs.map Ext.toRat
  let bad := xs.any fun x => !x.isFin
  let q1 := if !lin then q else match groupTau vs with
    | none => q
    | some t =>
      let z := statAdd q.sum q.sumA vs.sum t (statDraw seed 6 issue core r 0 count) (statDraw seed 14 issue core r 0 count)
      { q with sum := z.1, sumA := z.2 }
  let sq := vs.map fun v => v * v
  let q2 := match groupTau sq with
    | none => q1
    | some t =>
      let z := statAdd q1.sq q1.sqA sq.sum t (statDraw seed 6 issue core r 1 count) (statDraw seed 14 issue core r 1 count)
      { q1 with sq := z.1, sqA := z.2 }
  if bad then { q2 with sum := q2.sum.tag .nan, sq := q2.sq.tag .nan } else q2

/-- ρ of R212 and R218: `none` for a row with NaN or infinity, 0 for den = 0. -/
def rowRho (q : RowStat) (n : ℚ) (eps : ℚ) : Option ℚ :=
  if q.sq.special then none
  else
    let den := statVal q.sq q.sqA / n + eps
    if den = 0 then some 0
    else some (roundApx r24 fun k => Trans.sqrtIv (k + 40) (1 / den))

/-- ε of an EPS operand; `none` where R212 rejects it. -/
def epsOf (w : Nat) : Option ℚ := match f32Decode w with
  | .fin s m => if s && m != 0 then none else some m
  | _ => none

end Sys2Proof.Machine
end

