-- ==== Sys2Proof/Machine/Lanes.lean ====
section
/-!
DEFINITION. The function lanes (R193 to R205, R209 to R211): the function codes of R196, their special
values, their accuracy into each destination, micro-programs, and the compatibility functions.
-/

namespace Sys2Proof

/-! ### Values that a lane hands to a conversion -/

/-- A value on its way into a destination: `ext` is the exact value, or the lane's binary32 result where
`real` says that the exact value is the real given there with the sign of `neg`. `near` marks the case of
R199; `fn` and `bits` are what the lane's free choices depend on. -/
structure Src where
  ext : Ext
  real : Option Apx
  neg : Bool
  near : Bool
  fn : Nat
  bits : Nat

/-- An exactly known value. -/
def Src.exact (x : Ext) : Src := ⟨x, none, false, false, 0, 0⟩

/-- Round the magnitude of a real result (R198, R199). -/
def Src.round {β : Type} [DecidableEq β] (s : Src) (a : Apx) (f : ℚ → β) : β :=
  if s.near then
    let lo := roundApx (fun m => f (m * (1 - 1 / 2 ^ 38))) a
    let hi := roundApx (fun m => f (m * (1 + 1 / 2 ^ 38))) a
    if lo = hi then lo else if Config.laneNear s.fn s.bits then hi else lo
  else roundApx f a

/-- Convert with a block scale of `k` already chosen (R42, R198). -/
def Src.conv (s : Src) (f : Fmt) (r : Rnd) (k : ℚ) : Conv :=
  match s.real with
  | none => Sys2Proof.conv f r (if k = 0 then s.ext else s.ext.scale (1 / k))
  | some a =>
    if f = .f32 then
      let c := Sys2Proof.conv f r s.ext
      if s.ext.isFin then c else { c with flag := .sat }
    else s.round a fun m => Sys2Proof.conv f r (.fin s.neg (m / k))

/-- What one converted element counts (R57), its result `q` with its scale. -/
def Src.counts (s : Src) (q : Ext) (fl : ConvFlag) : Counts :=
  match s.real with
  | none => Counts.one s.ext q fl
  | some a =>
    let sg : ℚ := if s.neg then -1 else 1
    ⟨1, b2n (fl == .sat), b2n (fl == .flush), b2n (fl == .nonfin),
      roundApx (fun m => sq32 (sg * m - q.toRat)) a, roundApx (fun m => sq32 m) a⟩

/-- Convert one block; a special in a format without a code for it makes the block NaN (R42). The scale
is chosen from the binary32 results (R198); an exact value whose binary32 result has overflowed saturates and has
no part in the scale (log 108). Where a block's binary32 results are all zero and its exact values are not, its scale is 0x00, by
which nothing can be divided: the elements are zero and count no FLUSH (DESIGN CHOICE, log 161). -/
def quantSrc (f : Fmt) (hr : Nat) (ts : ℚ) (xs : List (Src × Rnd)) : Block :=
  let bad := noSpecial f && xs.any fun p => !p.1.ext.isFin && p.1.real.isNone
  if bad then
    ⟨255, xs.map fun _ => 0, xs.map fun _ => .nan,
      (xs.map fun p => p.1.counts .nan (if p.1.ext.isFin || p.1.real.isSome then .none else .nonfin)).foldl Counts.add Counts.zero⟩
  else
    let sb := chooseScale f hr (maxMag (xs.map fun p => p.1.ext) / ts)
    let k : ℚ := (decodeScale f sb).getD 1 * ts
    let cs := xs.map fun p =>
      let c := p.1.conv f p.2 k
      (c, c.val.scale k, p.1)
    ⟨sb, cs.map fun c => c.1.bits, cs.map fun c => c.2.1,
      (cs.map fun c => c.2.2.counts c.2.1 c.1.flag).foldl Counts.add Counts.zero⟩

/-- Convert a run of values into a destination row. -/
def convSrc (f : Fmt) (hr : Nat) (ts : ℚ) (xs : List (Src × Rnd)) : List Block :=
  if f.isBlock then (chunks f.block xs.length xs).map (quantSrc f hr ts)
  else xs.map fun p =>
    let c := p.1.conv f p.2 1
    ⟨0, [c.bits], [c.val], p.1.counts c.val c.flag⟩

/-! ### Built-in functions -/

namespace Lane
open Sys2Proof.Trans

/-- The neighbours of a real in binary32: the one nearer to zero, and the next. -/
def b32Below (a : Apx) : ℚ := roundApx (fun m => (rnd32Mag .rtz m).getD f32Max) a
def b32Next (y : ℚ) : Ext :=
  let q := pow2 (max (floorLog2 y) (-126) - 23)
  if y = 0 then .fin false (pow2 (-149)) else if f32Max ≤ y then .inf false else .fin false (y + q)

/-- The lane's binary32 result for a real magnitude (R200): infinity from 2^128 on, where both neighbours have
overflowed (R42, R197). -/
def b32Of (fn bits : Nat) (neg : Bool) (a : Apx) : Ext :=
  let lo := b32Below a
  let e := if roundApx (fun m => decide (2 ^ 128 ≤ m)) a then Ext.inf false
    else if Config.laneUp fn bits then b32Next lo else .fin false lo
  if neg then e.negate else e

/-- A result that is an exact rational magnitude. -/
def ofQ (neg : Bool) (m : ℚ) (near : Bool) (fn bits : Nat) : Src :=
  if rnd32Mag .rtz m = some m then ⟨.fin neg m, none, neg, false, fn, bits⟩
  else ⟨b32Of fn bits neg (Apx.exact m), some (Apx.exact m), neg, near, fn, bits⟩

/-- A result that is a real magnitude. -/
def ofReal (neg : Bool) (a : Apx) (near : Bool) (fn bits : Nat) : Src :=
  let i := a 64
  if i.1 = i.2 then ofQ neg i.1 near fn bits
  else ⟨b32Of fn bits neg a, some a, neg, near, fn, bits⟩

/-- Special inputs (R197): the value of each function at the zeros and infinities. -/
def special (fn : Nat) (x : Ext) : Option Ext :=
  let neg := x.isNeg
  let one : Ext := .fin false 1
  let zero : Ext := .fin false 0
  if x.isNan then some .nan
  else if x.isZero then
    match fn with
    | 1 | 2 => some one
    | 3 | 4 => some (.inf true)
    | 5 => some (.inf neg)
    | 6 => some (.inf neg)
    | 7 | 8 | 14 | 10 | 11 | 12 => some x
    | 9 => some (.fin false (1 / 2))
    | 15 => some zero
    | _ => none
  else if !x.isFin then
    match fn with
    | 1 | 2 => some (if neg then zero else x)
    | 3 | 4 => some (if neg then .nan else x)
    | 5 => some (.fin neg 0)
    | 6 => some (if neg then .nan else zero)
    | 7 => some (if neg then .nan else x)
    | 8 | 14 => some (.fin neg 1)
    | 9 => some (if neg then zero else one)
    | 10 | 11 | 12 => some (if neg then .fin true 0 else x)
    | 13 => some (if neg then zero else x)
    | 15 => some (if neg then zero else x)
    | _ => none
  else if neg && (fn == 3 || fn == 4 || fn == 6 || fn == 7) then some .nan
  else if neg && fn == 15 then some zero
  else none

/-- The magnitude of a function at a finite nonzero input, with its sign. -/
def real (fn : Nat) (q : ℚ) : Bool × Apx :=
  let neg := decide (q < 0)
  let m := if neg then -q else q
  match fn with
  | 1 => (false, fun n => exp2Iv n q)
  | 2 => (false, fun n => expIv n (q, q))
  | 3 => let s := decide (q < 1); (s, fun n => let i := log2Iv n q; if s then (-i.2, -i.1) else i)
  | 4 => let s := decide (q < 1); (s, fun n => let i := lnIv n q; if s then (-i.2, -i.1) else i)
  | 5 => (neg, Apx.exact (1 / m))
  | 6 => (false, fun n => sqrtIv n (1 / m))
  | 7 => (false, fun n => sqrtIv n m)
  | 8 => (neg, fun n => tanhPosIv n (m, m))
  | 9 => (false, fun n => sigmoidIv n q)
  | 10 => (neg, fun n => let s := sigmoidIv n q; (m * s.1, m * s.2))
  | 11 => (neg, fun n =>
      let c := sqrtOfIv (n + 16) (2 / (piIv (n + 32)).2, 2 / (piIv (n + 32)).1)
      let p := q + 44715 / 1000000 * q * q * q
      let z := ord (c.1 * p) (c.2 * p)
      let h := halfTanh (n + 16) z
      (m * h.1, m * h.2))
  | 12 => (neg, fun n =>
      let y := sqrtIv (n + 16) (m * m / 2)
      let e := erfOf (n + 16) y (m * m / 2)
      if neg then (m / 2 * (1 - e.2), m / 2 * (1 - e.1)) else (m / 2 * (1 + e.1), m / 2 * (1 + e.2)))
  | 14 => (neg, fun n => erfOf n (m, m) (m * m))
  | _ => -- softplus
    if 200 < q then (false, Apx.exact (q + 1 / 2 ^ 400))
    else (false, fun n =>
      let e := if q = 0 then (1, 1) else expIv (n + 16) (q, q)
      ((lnIv (n + 16) (1 + e.1)).1, (lnIv (n + 16) (1 + e.2)).2))

/-- A built-in function (R196 to R200). `exactIn` says that the input was passed exactly from FMT 0x0 to
0x9; `dst` is the destination. -/
def builtin (fn : Nat) (exactIn : Bool) (dst : Fmt) (x : Ext) : Src :=
  let bits := f32Bits x
  let near := !exactIn && !(fn == 1 && (dst == .e4m3 || dst == .e5m2))
  if fn = 0 then Src.exact x
  else match special fn x with
    | some y => Src.exact y
    | none =>
      if fn = 15 then Src.exact x
      else if fn = 13 && x.isZero then ofReal false (fun n => ln2 n) near fn bits
      else
        let r := real fn x.toRat
        if (r.2 64).1 = 0 && (r.2 64).2 = 0 then Src.exact (.fin false 0) else ofReal r.1 r.2 near fn bits

/-! ### Micro-programs (R201 to R205) -/

/-- The registers of a running micro-program. -/
structure Regs where
  v : List Ext
  n : List Int
  deriving DecidableEq, Repr

def Regs.gv (r : Regs) (i : Nat) : Ext := r.v.getD i (.fin false 0)
def Regs.gn (r : Regs) (i : Nat) : Int := r.n.getD i 0
def Regs.sv (r : Regs) (i : Nat) (x : Ext) : Regs := { r with v := r.v.set i x }
def Regs.sn (r : Regs) (i : Nat) (x : Int) : Regs := { r with n := r.n.set i x }

/-- Table word `k` of an image (R203), a binary32. -/
def word (img : List Byte) (k : Nat) : Ext := f32Decode (leAt img (0x80 + 4 * k) 4)

/-- `rn32(a × b + c)`. -/
def fma (a b c : Ext) : Ext := rn32 ((a.mul b).add c)

/-- Horner evaluation from the highest coefficient. -/
def horner (x : Ext) : List Ext → Ext → Ext
  | [], p => p
  | c :: cs, p => horner x cs (fma p x c)

/-- One halving of an Estrin list. -/
def pairUp (x : Ext) : List Ext → List Ext
  | a :: b :: r => fma b x a :: pairUp x r
  | l => l

/-- Estrin evaluation (R204). -/
def estrin : Nat → Ext → List Ext → Ext
  | 0, _, q => q.headD (.fin false 0)
  | k + 1, x, q =>
    match q with
    | [] => .fin false 0
    | [p] => p
    | _ => estrin k (rn32 (x.mul x)) (pairUp x q)

/-- The class of a value for FIXUP, in R203's order; a NaN has none. -/
def fixClass (x : Ext) : Option Nat :=
  match x with
  | .nan => none
  | .inf true => some 0
  | .inf false => some 7
  | .fin s m =>
    if m = 0 then some (if s then 3 else 4)
    else if m < pow2 (-126) then some (if s then 2 else 5)
    else some (if s then 1 else 6)

/-- COND of SELECT. -/
def selCond (c : Nat) (x : Ext) (t : Ext) : Bool :=
  let lt0 := x.isNeg && !x.isZero && !x.isNan
  let gt0 := !x.isNeg && !x.isZero && !x.isNan
  let absGe : Bool := match x, t with
    | .nan, _ => false
    | _, .nan => false
    | .inf _, .inf false => true
    | .inf _, .inf true => true
    | .inf _, _ => true
    | .fin _ _, .inf s => s
    | .fin _ m, .fin s k => decide ((if s then -k else k) ≤ m)
  match c with
  | 0 => lt0
  | 1 => lt0 || x.isZero
  | 2 => x.isZero
  | 3 => gt0
  | 4 => gt0 || x.isZero
  | 5 => absGe
  | 6 => !absGe && !x.isNan && !t.isNan
  | _ => !x.isFin && !x.isNan

/-- One step; `none` when the program ended with a value. -/
def step (img : List Byte) (w : Nat) (r : Regs) : Regs :=
  let d := fld w 4 3
  let a := r.gv (fld w 7 3)
  let b := r.gv (fld w 10 3)
  let n := fld w 13 2
  match fld w 0 4 with
  | 1 =>
    let s := fld w 17 5
    if fld w 16 1 = 0 then
      let k : Int := match a with
        | .nan => Config.reduceNan
        | .inf true => -(2 ^ 30)
        | .inf false => 2 ^ 30
        | x => max (-(2 ^ 30)) (min (2 ^ 30) (rneInt (x.toRat * 2 ^ s)))
      (r.sn n k).sv d (if k = 0 then rn32 a else rn32 (a.add (Ext.ofRat (-(k : ℚ) / 2 ^ s))))
    else match a with
      | .nan => (r.sn n Config.reduceNan).sv d .nan
      | .inf _ => (r.sn n 128).sv d (.fin false 1)
      | .fin _ m =>
        if m = 0 then (r.sn n 0).sv d (.fin false 0)
        else (r.sn n (floorLog2 m)).sv d (.fin false (m * pow2 (-(floorLog2 m))))
  | 2 =>
    let bb := fld w 26 4
    let ix := if bitOf w 30 then fld (f32Bits a) 0 23 / 2 ^ (23 - bb) else ((r.gn n) % (2 : Int) ^ bb).toNat
    r.sv d (word img (fld w 16 10 + ix))
  | 3 =>
    let base := fld w 16 10
    let dg := fld w 26 4
    let cs := (List.range (dg + 1)).map fun i => word img (base + i)
    let p := if bitOf w 30 then
        if dg = 0 then cs.headD .nan else estrin 8 (rn32 (a.mul a)) (pairUp a cs)
      else match cs.reverse with
        | [] => .nan
        | c :: rest => horner a rest c
    r.sv d (if bitOf w 31 then rn32 (p.mul b) else p)
  | 4 =>
    let e := (if bitOf w 16 then (r.gn n) / (2 : Int) ^ fld w 17 5 else 0) + sextNat 10 (fld w 22 10)
    r.sv d (rn32 (a.scale (pow2 (max (-5000) (min 5000 e)))))
  | 5 => if selCond (fld w 16 3) a (f32Decode (fld w 32 32)) then r.sv d b else r
  | 6 =>
    match fixClass a with
    | none => r
    | some c => match fld w (16 + 3 * c) 3 with
      | 1 => r.sv d (.fin false 0)
      | 2 => r.sv d (.fin true 0)
      | 3 => r.sv d (.fin false 1)
      | 4 => r.sv d (.fin true 1)
      | 5 => r.sv d (.inf false)
      | 6 => r.sv d (.inf true)
      | 7 => r.sv d a
      | _ => r
  | _ => r

/-- Run the steps from index `pc` (R203). -/
def run (img : List Byte) : Nat → Nat → Regs → Ext
  | 0, _, r => r.gv 0
  | k + 1, pc, r =>
    let w := leAt img (0x80 + 8 * pc) 8
    if fld w 0 4 = 0 then r.gv (fld w 7 3) else run img k (pc + 1) (step img w r)

/-- The directory entry of FN 0x10 + i: start and step count. -/
def dirEntry (img : List Byte) (i : Nat) : Nat × Nat := (leAt img (8 * i) 2, leAt img (8 * i + 2) 1)

/-- Micro-program `i` on a binary32 input (R205). -/
def micro (img : List Byte) (i : Nat) (x : Ext) : Ext :=
  if x.isNan then .nan
  else
    let d := dirEntry img i
    run img d.2 d.1 ⟨x :: List.replicate 7 (.fin false 0), List.replicate 4 0⟩

/-- The bits that a step's code names, from bit 16 (R203). -/
def stepMask (op : Nat) : Nat := match op with
  | 1 => 0x3F
  | 2 => 0x7FFF
  | 3 => 0xFFFF
  | 4 => 0xFFFF
  | 5 => 0xFFFFFFFF0007
  | 6 => 0xFFFFFF
  | _ => 0

/-- A step that fails the checks of R206. -/
def badStep (w : Nat) : Bool :=
  let op := fld w 0 4
  let hi := w / 2 ^ 16
  bitOf w 15 || decide (7 ≤ op) || decide (hi &&& stepMask op ≠ hi)
  || (op == 2 && (decide (9 < fld w 26 4) || decide (991 < fld w 16 10 + (2 ^ fld w 26 4 - 1))))
  || (op == 3 && (decide (12 < fld w 26 4) || decide (991 < fld w 16 10 + fld w 26 4)))

/-- The byte offset of the first check of R206 that an image fails. -/
def imageBad (img : List Byte) : Option Nat :=
  (List.range 16).findSome? fun i =>
    let d := dirEntry img i
    if !zeroAt img (8 * i + 3) 5 then some (8 * i)
    else if d.2 = 0 then none
    else if 32 < d.2 then some (8 * i)
    else if 496 < d.1 + d.2 then some (8 * i)
    else (List.range d.2).findSome? fun k =>
      let w := leAt img (0x80 + 8 * (d.1 + k)) 8
      if badStep w || (decide (fld w 0 4 = 0) != decide (k + 1 = d.2)) then some (0x80 + 8 * (d.1 + k)) else none

/-! ### Compatibility functions (R209 to R211) -/

/-- Round toward zero into binary32, a subnormal result to a zero of its sign. -/
def rtz (x : Ext) : Ext :=
  match x with
  | .fin s m => match rnd32Mag .rtz m with
    | some y => .fin s (if y < pow2 (-126) then 0 else y)
    | none => .fin s f32Max
  | y => y

def rtzQ (x : ℚ) : Ext := rtz (Ext.ofRat x)
/-- A table value: a positive real rounded toward zero. -/
def rtzReal (a : Apx) : Ext := .fin false (b32Below a)

def tabE (j : Nat) : Ext := rtzReal fun n => exp2Iv n ((j : ℚ) / 64)
def tabR (j : Nat) : Ext := rtzQ (1 / (1 + (j : ℚ) / 64))
def tabL (j : Nat) : Ext := if j = 0 then .fin false 0 else rtzReal fun n => lnIv n (1 + (j : ℚ) / 64)

def cLog2e : Ext := f32Decode 0x3FB8AA3B
def cLn2 : Ext := f32Decode 0x3F317218
def cC2 : Ext := f32Decode 0x3E75FDF0
def cC3 : Ext := f32Decode 0x3D635847
def cD2 : Ext := f32Decode 0xBF000000
def cD3 : Ext := f32Decode 0x3EAAAAAA
def cSq2pi : Ext := f32Decode 0x3F4C422A
def cGc : Ext := f32Decode 0x3D372713
def cOne : Ext := .fin false 1

/-- A fused step. -/
def fz (a b c : Ext) : Ext := rtz ((a.mul b).add c)
def mz (a b : Ext) : Ext := rtz (a.mul b)
def az (a b : Ext) : Ext := rtz (a.add b)
/-- A quotient of finite values, rounded toward zero. -/
def dz (a b : Ext) : Ext := rtz (.fin (a.isNeg != b.isNeg) (a.mag / b.mag))

def expF1 (x : Ext) : Ext :=
  let t := mz x cLog2e
  let n := rneInt (t.toRat * 64)
  let f := rtz (t.add (Ext.ofRat (-(n : ℚ) / 64)))
  let p := fz (fz (fz cC3 f cC2) f cLn2) f cOne
  let r := mz (tabE (n % 64).toNat) p
  rtz (r.scale (pow2 (max (-5000) (min 5000 (n / 64)))))

def logF1 (x : Ext) : Ext :=
  let e := floorLog2 x.mag
  let m := x.mag * pow2 (-e)
  let j := ((m - 1) * 64).floor.toNat
  let u := fz (.fin false m) (tabR j) (.fin true 1)
  let p := mz (fz (fz cD3 u cD2) u cOne) u
  let s := fz (Ext.ofRat (e : ℚ)) cLn2 (tabL j)
  az s p

def tanhF1 (x : Ext) : Ext :=
  let a : Ext := .fin false x.mag
  let r := if 9 ≤ x.mag then cOne
    else
      let e := expF1 (a.scale 2)
      dz (az e (.fin true 1)) (az e cOne)
  .fin x.isNeg r.mag

def sigmoidF1 (x : Ext) : Ext := dz cOne (az cOne (expF1 x.negate))

def geluF1 (x : Ext) : Ext :=
  let w := fz cGc (mz (mz x x) x) x
  mz (mz (.fin false (1 / 2)) x) (az cOne (tanhF1 (mz cSq2pi w)))

/-- A compatibility function on a binary32 input (R210). -/
def compat (fn : Nat) (x : Ext) : Ext :=
  let y := match x with
    | .fin s m => if m < pow2 (-126) then Ext.fin s 0 else .fin s m
    | z => z
  match special fn y with
  | some z => if fn = 6 && y.isZero then .inf false else z
  | none => match fn with
    | 2 => expF1 y
    | 4 => logF1 y
    | 6 => rtzReal fun n => sqrtIv n (1 / y.mag)
    | 8 => tanhF1 y
    | 9 => sigmoidF1 y
    | _ => geluF1 y

/-- The functions that COMPAT accepts (R209). -/
def isCompat (fn : Nat) : Bool := [2, 4, 6, 8, 9, 11].contains fn

/-- The activations of GATE (R214). -/
def isGate (fn : Nat) : Bool := fn == 0 || fn == 9 || fn == 10 || fn == 11 || fn == 12 || fn == 15 || (decide (16 ≤ fn) && decide (fn < 32))

/-- The general path on a value (R194 to R205): `src` is the input's format, `img` the micro-program bank. -/
def general (fn : Nat) (img : List Byte) (src : Option Fmt) (dst : Fmt) (x : Ext) : Src :=
  let y := rn32 x
  let ok := (match src with | some f => f.counted | none => false) && decide (y = x)
  if 16 ≤ fn then Src.exact (micro img (fn - 16) y) else builtin fn ok dst y

end Lane

end Sys2Proof
end

