-- ==== Sys2Proof/Machine/Issue.lean ====
section
/-!
DEFINITION. How a context issues (R325 to R346, R354, R398, R399) and how the Sluice decides a tensor
instruction (R400, R403, R412 to R414): the words at the issue position, refused and faulting scalar
instructions, scalar loads and stores and their returns, the acceptance of a tensor instruction with
all it captures, and its end.
-/

namespace Sys2Proof.Machine

/-- A next state. -/
abbrev Out := Host.Outcome State Fault Refusal
/-- The step cannot occur in this state: nothing changes (log 1). -/
def idle (s : State) : Out := .next s

/-! ### The words at the issue position -/

/-- `a − b` of two stream positions, signed. -/
def sdiff (a b : Nat) : Int := sextNat 32 ((a + 2 ^ 32 - b % 2 ^ 32) % 2 ^ 32)

/-- Word `k` at the issue position: from the window, or from a fetched line of called code. -/
def Ctx.wordAt (x : Ctx) (k : Nat) : Option W32 :=
  match x.code with
  | none =>
    let p := (x.nextPos + k) % 2 ^ 32
    if 0 < sdiff x.newest p then some (Map.get 0 x.window (p % 1024)) else none
  | some a =>
    let b := a + 4 * k
    match x.codeBuf.find? fun l => l.1 == b / 64 * 64 with
    | none => none
    | some l => some (BitVec.ofNat 32 (leAt l.2 (b % 64) 4))

/-- The context may issue its next instruction (R333, R347, R538). -/
def State.canIssue (s : State) (c : Nat) : Bool :=
  let x := s.cx c
  x.enable && x.run == .going && !s.ctxFenced c && x.scalar.isNone && s.isOn (51 + c / 16) && (s.dom (51 + c / 16)).state == 0

/-- The words of an instruction stand at the issue position. -/
def State.readyAt (s : State) (c : Nat) (ws : List W32) : Bool :=
  let x := s.cx c
  s.canIssue c && ((List.range ws.length).zip ws).all fun p => x.wordAt p.1 == some p.2

/-- Pass `k` words. -/
def Ctx.adv (x : Ctx) (k : Nat) : Ctx :=
  match x.code with
  | none => { x with nextPos := (x.nextPos + k) % 2 ^ 32, hold := .none, recBad := none }
  | some a => { x with code := some (a + 4 * k), hold := .none, recBad := none }

/-- The SPOS and the CALLED flag of the instruction at the issue position (R344). -/
def Ctx.sposNow (x : Ctx) : Nat × Bool := match x.code with
  | none => (x.nextPos, false)
  | some _ => (x.callSpos, true)

/-! ### Scalar and system instructions that stop (R333, R399) -/

/-- Stop context `c` on the instruction at SPOS `sp` with a record of KIND `kind`. -/
def State.stopRec (s : State) (c kind code opc : Nat) (sp : Nat × Bool) : State :=
  let r := (s.cx c).rseq
  let s1 := s.onCx c fun y => { (y.setErr code r) with run := .stopped, hold := .none }
  s1.writeRec c false { kind := kind, code := code, opc := opc, spos := sp.1, called := sp.2 }

/-- Refuse the scalar or system instruction of `k` words at the issue position. A record waits for a free
ring entry (R345). -/
def State.refuseScalar (s : State) (c k code opc : Nat) : State :=
  let x := s.cx c
  if x.ringFull then s.onCx c fun y => { y with hold := .ring }
  else
    let s1 := s.onCx c fun y => y.adv k
    let s2 := if code = Code.floor then s1.raise 0x0302 0x07 [c] else s1
    s2.stopRec c 1 code opc x.sposNow

/-- A scalar or system instruction faults: error record, fence if its code has one, stop and record. -/
def State.faultScalar (s : State) (c opc : Nat) (sp : Nat × Bool) (e : Err) : State :=
  let s1 := s.report { e with ctx := some c, spos := sp.1 } (s.cx c).domain
  s1.stopRec c 2 e.code opc sp

/-! ### Code fetch (R343) -/

/-- Start the fetch of the first missing code line among those that hold `k` words; `none` if all are here. -/
def State.fetchCode (s : State) (c k : Nat) : Option State :=
  let x := s.cx c
  match x.code with
  | none => none
  | some a =>
    match (linesOf 64 a (4 * k)).find? fun l => !(x.codeBuf.any fun b => b.1 == l) with
    | none => none
    | some l =>
      let sp := x.sposNow
      let p := homePort l
      match s.checkAcc x.domain false .ex l with
      | .ok =>
        if s.granErr l then
          some (s.faultScalar c 0x73 sp { code := Code.fMemError, unit := 0x06, addr := l, poison := true, detail := p })
        else if !(Map.get [] s.mem.gran (l / 128)).isEmpty then
          some ((s.onPort p fun y => { y with hits := holdAdd y.hits 1 }).onCx c fun y =>
            { y with codeBuf := (y.codeBuf ++ [(l, s.granBytes l 64)]).reverse.take 2 |>.reverse })
        else if s.portFenced p then
          some (s.faultScalar c 0x73 sp { code := Code.fPortFenced, unit := 0x06, addr := l, poison := true, detail := p })
        else
          some ((s.queueRead x.domain false (.scalar c) l 128 true []).onCx c fun y =>
            { y with hold := .fetch,
                     scalar := some { op := .fetch, addr := l, need := 1, bad := none, word := 0, spos := sp.1, called := sp.2 } })
      | .fencedDom => some s
      | _ => some (s.faultScalar c 0x73 sp
          { code := Code.fWindow, scope := 5, unit := 0x08, index := c, addr := l, poison := true, detail := 8 + 16 * x.domain })

/-! ### Short instructions -/

/-- The registers a short instruction works on. -/
structure Regs where
  s : Map Word
  p : Map Bool
  deriving DecidableEq, Repr

/-- Opcodes that no row of the table has (R325). -/
def reservedShort (o : Nat) : Bool := (decide (0x1A ≤ o) && decide (o ≤ 0x1F)) || decide (0x24 ≤ o)

/-- The bits that a short opcode uses; every other bit must be zero (R325). -/
def shortMask (o : Nat) : Nat :=
  let d := 0x00000F80
  let a := 0x0001F000
  let b := 0x003E0000
  let im := 0xFFC00000
  let op := 0x7F
  op + (match o with
    | 0x00 | 0x19 | 0x23 => 0
    | 0x01 | 0x02 | 0x03 | 0x04 | 0x05 | 0x06 | 0x07 | 0x08 | 0x09 => d + a + b
    | 0x0A | 0x0B | 0x0F | 0x11 | 0x12 | 0x20 => d + a + im
    | 0x0C => 0x380 + a + b + 0x01C00000
    | 0x0D => 0x380 + 0x7000 + 0xE0000 + 0x00C00000
    | 0x0E => 0xFFFFF000 + 0x780
    | 0x10 | 0x21 => a + b + im
    | 0x13 => a + 0x0FC00000
    | 0x14 => 0x780 + a
    | 0x15 | 0x16 => d + a
    | 0x17 => d + im
    | 0x18 => a + im
    | 0x22 => d
    | _ => 0)

/-- A field that must be zero is not, or holds a reserved code. -/
def shortBad (o w : Nat) : Bool :=
  reservedShort o || (w &&& (0xFFFFFFFF - shortMask o)) != 0 || (o == 0x0C && decide (6 ≤ fld w 22 3)) || (o == 0x22 && bitOf w 7)

def fd (w : W32) : Nat := fld w.toNat 7 5
def fa (w : W32) : Nat := fld w.toNat 12 5
def fb (w : W32) : Nat := fld w.toNat 17 5
def fimm (w : W32) : Nat := fld w.toNat 22 10
def simm (w : W32) : Int := sextNat 10 (fimm w)

/-- Run a short instruction in a context: the row must name the word's opcode; the context must stand at
the word; a code line is fetched first where one is missing. -/
def ctxShort (op : Nat) (c : Nat) (w : W32) (s : State) (f : State → Out) : Out :=
  let o := fld w.toNat 1 6
  if bitOf w.toNat 0 || (o != op && !reservedShort o) then .refused .otherRow
  else if !s.canIssue c then idle s
  else if (s.cx c).ringFull then .next (s.onCx c fun y => { y with hold := .ring })
  else match s.fetchCode c 1 with
    | some s1 => .next s1
    | none =>
      if !s.readyAt c [w] then idle s
      else if shortBad o w.toNat then .next (s.refuseScalar c 1 Code.encoding (0x80 + o))
      else f s

/-- A context instruction that changes only the scalar and predicate registers. -/
def ctxRegs (op : Nat) (c : Nat) (w : W32) (s : State) (f : Regs → Regs) : Out :=
  ctxShort op c w s fun s => .next (s.onCx c fun x =>
    let r := f ⟨x.s, x.p⟩
    ({ x with s := r.s, p := r.p }).adv 1)

/-! ### The record cache (R229, R230) -/

/-- The address of sequence record `no`. -/
def State.recAddr (s : State) (no : Nat) : Nat := s.pwu.cfg.seqBase + 64 * no

/-- The record cache's copy of a record. -/
def State.cachedRec (s : State) (no : Nat) : Option (List Byte) := (s.pwu.recs.find? fun r => r.1 == no).map Prod.snd

/-- Keep a record: the cache holds 256, the newest first (log 13). -/
def State.keepRec (s : State) (no : Nat) (b : List Byte) : State :=
  s.onPwu fun p => { p with recs := ((no, b) :: p.recs.filter fun r => r.1 != no).take 256 }

/-- The record number and generation of handle field `k`. -/
def Inst.handle (i : Inst) (k : Nat) : Nat × Nat :=
  let h := (Map.get 0 i.h k).toNat
  (h % 2 ^ 16, h / 2 ^ 16 % 256)

/-! ### Scalar loads and stores (R325, R333) -/

/-- The effective address of a scalar access: `none` where the register or the sum is not a 52-bit address. -/
def scalarAddr (base : Word) (off : Int) : Option Nat :=
  let a := (base + BitVec.ofInt 64 off).toNat
  if base.toNat < 2 ^ 52 ∧ a < 2 ^ 52 then some a else none

/-- Start a scalar load of `len` bytes at `a`: Granary hits complete at once (R448), missing lines hold the
context. `done` is the register write. -/
def State.scalarLoad (s : State) (c opc a len : Nat) (op : ScalarOp) (done : State → State) : State :=
  let x := s.cx c
  let sp := x.sposNow
  let ls := linesOf 64 a len
  let bad := ls.find? fun l => s.checkAcc x.domain false .rd (max l a) != .ok
  match bad with
  | some l =>
    let s1 := s.onCx c fun y => y.adv 1
    s1.faultScalar c opc sp
      { code := Code.fWindow, scope := 5, unit := 0x08, index := c, addr := max l a, poison := true, detail := 1 + 16 * x.domain }
  | none =>
    let big := linesOf 128 a len
    let miss := big.filter fun l => (Map.get [] s.mem.gran (l / 128)).isEmpty
    match miss.find? fun l => s.portFenced (homePort l) with
    | some l =>
      (s.onCx c fun y => y.adv 1).faultScalar c opc sp
        { code := Code.fPortFenced, unit := 0x06, addr := l, poison := true, detail := homePort l }
    | none =>
      match big.find? s.granErr with
      | some l =>
        (s.onCx c fun y => y.adv 1).faultScalar c opc sp
          { code := Code.fMemError, unit := 0x06, addr := l, poison := true, detail := homePort l }
      | none =>
      let s1 := (big.filter fun l => !miss.contains l).foldl
        (fun s l => s.onPort (homePort l) fun y => { y with hits := holdAdd y.hits 1 }) s
      let s2 := s1.onCx c fun y => y.adv 1
      if miss.isEmpty then done s2
      else
        let s3 := s2.onCx c fun y => { y with hold := .scalar, scalar := some { op := op, addr := a, need := miss.length, bad := none, word := (BitVec.ofNat 32 opc), spos := sp.1, called := sp.2 } }
        miss.foldl (fun s l => s.queueRead x.domain false (.scalar c) l 128 true []) s3

/-- Start a scalar store of bytes that lie in one line. -/
def State.scalarStore (s : State) (c opc a : Nat) (bs : List Byte) : State :=
  let x := s.cx c
  let sp := x.sposNow
  let s1 := s.onCx c fun y => y.adv 1
  if s.checkAcc x.domain false .wr a != .ok then
    s1.faultScalar c opc sp { code := Code.fWindow, scope := 5, unit := 0x08, index := c, addr := a, detail := 2 + 16 * x.domain }
  else if s.portFenced (homePort a) then
    s1.faultScalar c opc sp { code := Code.fPortFenced, unit := 0x06, addr := a, detail := homePort a }
  else
    let s2 := s1.onCx c fun y => { y with hold := .scalar, scalar := some { op := .st, addr := a, need := 1, bad := none, word := (BitVec.ofNat 32 opc), spos := sp.1, called := sp.2 } }
    s2.queueWrite x.domain false (.scalar c) a bs false

/-- The register write of a load that has its bytes. -/
def Ctx.loaded (x : Ctx) (op : ScalarOp) (bs : List Byte) : Ctx :=
  match op with
  | .ld d => x.ws d (BitVec.ofNat 64 (leNat bs))
  | .ldt d => { x with t := Map.set 0 x.t d (BitVec.ofNat 256 (leNat bs)) }
  | .ldl k => { x with l := Map.set 0 x.l k (BitVec.ofNat 2048 (leNat bs)) }
  | _ => x

def ScalarOp.len : ScalarOp → Nat
  | .ld _ => 8
  | .ldt _ => 32
  | .ldl _ => 256
  | .fetch | .record _ => 64
  | .st => 0

/-- The sequence record that context `c` waits for has returned: the cache keeps it, or the instruction at the issue
position learns what the read brought instead (R230). -/
def State.recordReturn (s : State) (c no a : Nat) (bad : Option (Nat × Nat)) : State :=
  match bad with
  | none => s.keepRec no (s.extBytes a 64)
  | some (code, p) => s.onCx c fun y => { y with recBad := some (no, code, p) }

/-- One line of the outstanding scalar access of `c` has returned; `bad` is the fault it brings, if any. The
last line completes the instruction or stops its context (R333, R517). A timeout has its error record already (R443). -/
def State.scalarReturn (s : State) (c : Nat) (bad : Option (Nat × Nat)) : State :=
  match (s.cx c).scalar with
  | none => s
  | some q =>
    let b := if q.bad.isSome then q.bad else bad
    if 1 < q.need then s.onCx c fun y => { y with scalar := some { q with need := q.need - 1, bad := b } }
    else
      let s1 := (s.onCx c fun y => { y with scalar := none, hold := .none }).stir (51 + c / 16)
      match q.op with
      | .record no => s1.recordReturn c no q.addr b
      | _ =>
      match b with
      | some (code, p) =>
        if code = Code.fPortTimeout then s1.stopRec c 2 code q.word.toNat (q.spos, q.called)
        else s1.faultScalar c q.word.toNat (q.spos, q.called)
          { code := code, unit := 0x06, addr := q.addr, poison := q.op != .st, detail := p }
      | none =>
        match q.op with
        | .fetch => s1.onCx c fun y => { y with codeBuf := (y.codeBuf ++ [(q.addr, s1.granBytes q.addr 64)]).reverse.take 2 |>.reverse }
        | op => s1.onCx c fun y => y.loaded op (s1.granBytes q.addr op.len)

/-! ### Long instructions: common fields -/

/-- Opcodes of R351. -/
def longOpcodes : List Nat :=
  [0x00, 0x01, 0x02, 0x03, 0x04, 0x05, 0x06, 0x07, 0x20, 0x21, 0x22, 0x23, 0x30, 0x31, 0x32, 0x33, 0x40, 0x41, 0x42, 0x43,
   0x44, 0x45, 0x46, 0x47, 0x50, 0x51, 0x58, 0x59, 0x5A, 0x60, 0x61, 0x62, 0x63, 0x64, 0x70, 0x71, 0x72, 0x73, 0x74]

/-- Tensor instructions and SIGs of a context issued and not ended (R334, R399). -/
def State.inflight (s : State) (c : Nat) : Nat := (s.instList.filter fun i => i.ctx == c).length

/-- Increment the event counter of an instruction under EVEN (R338); a cluster in IDLE returns to RUN (R538). -/
def State.bump (s : State) (c : Nat) (w : Long) : State :=
  if w.even' then (s.onCx c fun x => x.wev w.evc (x.ev w.evc + 1)).stir (51 + c / 16) else s

/-- Refuse a tensor instruction at issue (R12, R334, R337); `seqid` is that of the record it names (R344). -/
def State.refuseTensor (s : State) (c : Nat) (w : Long) (code : Nat) (cls : Nat) (seqid : Nat) : State :=
  let x := s.cx c
  let sp := x.sposNow
  let s1 := s.onCx c fun y => (y.adv 4).setErr code y.rseq
  let s2 := if code = Code.floor then s1.raise 0x0302 0x07 [c] else s1
  let s3 := s2.writeRec c (cls == 1)
    { kind := 1, code := code, opc := w.opc, int := w.int', spos := sp.1, called := sp.2, issue := x.issueSeq, seqid := seqid }
  s3.bump c w

/-- Retire at issue with the ordering effect only (R327, R357). -/
def State.retire (s : State) (c : Nat) (w : Long) (cls : Nat) (takes : Bool) (seqid : Nat) : State :=
  let x := s.cx c
  let sp := x.sposNow
  let s1 := s.onCx c fun y =>
    let z := y.adv 4
    if takes then { z with issueSeq := (z.issueSeq + 1) % 2 ^ 24 } else z
  let s2 := if w.rec' then
      s1.writeRec c (cls == 1)
        { kind := 0, opc := w.opc, int := w.int', spos := sp.1, called := sp.2, issue := x.issueSeq, seqid := seqid }
    else s1
  s2.bump c w

/-! ### The Sluice at issue -/

/-- The class of an instruction (R326, R400). -/
def clsOf (x : Ctx) (w : Long) : Nat := match fld w.w0.toNat 8 4 with
  | 0 => x.defClass
  | k => k

/-- The reservation entry of a context: the admitted one, else the last it held. -/
def State.resvOf (s : State) (c : Nat) : Option Nat :=
  match (List.range 32).find? fun r => (s.rv r).state == 1 && (s.rv r).cfg.ctx == c with
  | some r => some r
  | none => (List.range 32).find? fun r => (s.rv r).state != 0 && (s.rv r).cfg.ctx == c && (s.rv r).aseq != 0

def State.admitted (s : State) (c : Nat) : Option Nat :=
  (List.range 32).find? fun r => (s.rv r).state == 1 && (s.rv r).cfg.ctx == c

/-- The bay set of an instruction of a class (R354, R430). -/
def State.baySet (s : State) (c cls : Nat) : List Nat :=
  let m := (s.cx c).baymask
  let own := if m = 0 then s.presentBays else bitsSet 32 m
  if cls = 1 then match s.admitted c with
    | some r => bitsSet 32 (s.rv r).cfg.bays
    | none => own
  else own

/-- Open a window of the context's admitted reservation if none is open (R403). -/
def State.openWindow (s : State) (c : Nat) : State :=
  match s.admitted c with
  | none => s
  | some r => if (s.rv r).opened then s
    else s.onRv r fun x => { x with opened := true, start := s.time.cclk, used := 0 }

/-- The Hopper has accepted a bundle of context `c`: it reports that to the Sluice in the next SCLK cycle (R404). -/
def State.tellSluice (s : State) (c : Nat) : State := s.onSluice fun q => { q with told := q.told ++ [c] }

/-- The Sluice learns of the bundles accepted in the SCLK cycle before: their reservations' windows open (R403, R404). -/
def State.hearHopper (s : State) : State :=
  (s.sluice.told.foldl (fun t c => t.openWindow c) s).onSluice fun q => { q with told := [] }

/-- LEAT.VC0_SHORT (R465) of a link whose partner has sent its INIT: the partner's VC0 cells do not cover the admitted
reservations that name the link (log 139). -/
def State.shortLink (s : State) (l : Nat) : State :=
  let sum := ((List.range 32).map fun r => let x := s.rv r; if x.state = 1 && bitOf x.cfg.links l then x.cfg.lcred else 0).sum
  if (s.link l).seenInit && decide ((s.link l).pvc0 < 32 * sum) then s.raise 0x0309 0x05 [l] else s

/-- Granule entries of a sequence of addresses (R359): one for each start of a granule or move into another. -/
def granEntries : Option Nat → List Nat → List Nat
  | _, [] => []
  | prev, a :: as => if prev = some (a / 4096) then granEntries prev as else a / 4096 * 4096 :: granEntries (some (a / 4096)) as

/-- Bytes per CCLK cycle of a reservation at a port (R401). -/
def Resv.bw (x : Resv) (p : Nat) : Nat := 4 * Map.get 0 x.cfg.portsh p

/-- C_mem of R359 for a Class A instruction, from its granule entries and its dependent rounds. -/
def State.cMem (s : State) (x : Resv) (ents : List Nat) (dep : Nat) : Nat :=
  let ps := ents.map homePort
  maxOr 0 ((List.range 32).map fun p =>
    let n := (ps.filter (· == p)).length
    if n = 0 || x.bw p = 0 then 0 else cdiv (4096 * n) (x.bw p))
  + dep * cdiv (4 * s.sluice.lMem) (divOf s.pwr.cdivEff)

/-- The tests of R412 in order; `none` is acceptance, else the reason. -/
def State.budget (s : State) (i : Inst) (r : Option Nat) (ents : List Nat) (charge : Nat) : Option Nat :=
  match r with
  | none => some 0x10
  | some k =>
    let x := s.rv k
    if x.state ≠ 1 || x.pending || x.releasing then some 0x10
    else if i.cores.any fun g => !(bitOf x.cfg.bays (g / 64) && bitOf x.cfg.cores (g % 64)) then some 0x13
    else if ents.any fun a => x.bw (homePort a) = 0 then some 0x14
    else
      let used := if x.opened then x.used else 0
      let t := if x.opened then s.time.cclk - x.start else 0
      if x.cfg.w < used + charge then some 0x11
      else if x.cfg.d < t + x.rt then some 0x12
      else none

/-! ### Acceptance of a tensor instruction -/

/-- What a row of the table gives the shared issue path. -/
structure TRow where
  opc : Nat
  form : Long → Bool
  /-- reads its loop entry; SLOT, OW may be nonzero (R355) -/
  useLoop : Bool
  useSlot : Bool
  useOw : Bool
  /-- its work runs in bays, which must be ON -/
  useBays : Bool
  /-- further power domains its work needs -/
  doms : Inst → List Nat
  /-- the address of the 64 bytes that it is checked against: its attention parameter block or its bucket record (R369, R484) -/
  apb : Inst → Option Nat
  /-- the refusal codes of the checks that need no parameter block, for one that cannot be read (R11, R12) -/
  pre : State → Inst → List Nat
  /-- the handle fields whose sequence records it names (R230) -/
  recs : Inst → List Nat
  /-- fill in the assignees and what else is known at issue -/
  prep : State → Inst → Inst
  /-- the refusal codes of its checks -/
  checks : State → Inst → List Nat
  /-- a reason to hold it at issue -/
  hold : State → Inst → Option Hold
  /-- zero length (R357) -/
  zero : State → Inst → Bool
  /-- its cost counts from a later event than its issue (R192) -/
  late : Inst → Bool
  /-- C_core (R358), the addresses of its memory accesses in R359's order, n_dep (R360) -/
  cost : State → Inst → Nat
  addrs : State → Inst → List Nat
  dep : State → Inst → Nat
  /-- the effect of acceptance on the state that holds the instruction in flight -/
  effect : State → Inst → State

/-- A row with nothing special. -/
def TRow.plain (opc : Nat) (effect : State → Inst → State) : TRow :=
  { opc := opc, form := fun _ => true, useLoop := false, useSlot := false, useOw := false, useBays := false, doms := fun _ => [],
    apb := fun _ => none, pre := fun _ _ => [], recs := fun _ => [], prep := fun _ i => i, checks := fun _ _ => [], hold := fun _ _ => none,
    zero := fun _ _ => false, late := fun _ => false,
    cost := fun _ _ => 0, addrs := fun _ _ => [], dep := fun _ _ => 0, effect := effect }

/-- The instruction at the issue position with every register captured (R334). -/
def State.capture (s : State) (c : Nat) (w : Long) : Inst :=
  let x := s.cx c
  let sp := x.sposNow
  let cls := clsOf x w
  { n := s.nextInst, ctx := c, opc := w.opc, w := w, spos := sp.1, called := sp.2, issue := x.issueSeq, seed := x.seed,
    cls := cls, dom := x.domain, bays := s.baySet c cls, cores := [], s := x.s, t := x.t,
    l := Map.get 0 x.l (fld w.w0.toNat 16 6), h := x.h, recBad := x.recBad,
    slotTop := if cls = 1 then [] else Map.setMany 6 [] (((s.baySet c cls).filter s.aOn).map fun b => (b, 4)) }

/-- The checks common to every tensor instruction (R25, R326, R355). -/
def State.commonCodes (s : State) (r : TRow) (i : Inst) : List Nat :=
  when (decide (4 ≤ i.f 0 8 4) || decide (6 ≤ i.slot) || (!r.useLoop && i.f 0 16 6 != 0) || (!r.useSlot && i.slot != 0)
    || (!r.useOw && i.ow)) Code.encoding
  ++ when (i.bays.any fun b => !s.present b) Code.absent

/-- Put an accepted instruction in flight. -/
def State.accept (s : State) (i : Inst) (takes : Bool) : State :=
  let s1 := s.onCx i.ctx fun y =>
    let z := y.adv 4
    { z with issueSeq := if takes then (z.issueSeq + 1) % 2 ^ 24 else z.issueSeq, resv := z.resv + 1 }
  { s1 with insts := Map.set none s1.insts i.n (some i), nextInst := i.n + 1 }

/-- Power domains that a row's work needs and that are not on. -/
def State.offDoms (s : State) (r : TRow) (i : Inst) : List Nat :=
  ((48 :: r.doms i) ++ (if r.useBays then i.bays else [])).filter fun d => !s.isOn d

/-- Put a passed instruction in flight and do what its row does, or retire it if its length is zero (R357). -/
def State.takeOn (s : State) (r : TRow) (i : Inst) (zero : Bool) : State :=
  if zero then s.retire i.ctx i.w i.cls true i.seqid else r.effect (s.accept i true) i

/-- Count the cost of a Class A instruction against its reservation's window, from which its deadline runs (R403, R413). -/
def State.countCost (s : State) (i : Inst) (k : Nat) : State × Inst :=
  let s1 := s.onRv k fun y => { y with used := y.used + i.cost }
  (s1, { i with deadline := some ((s1.rv k).start + (s1.rv k).cfg.d) })

/-- Charge and accept a Class A instruction, or refuse it with REFUSE.BUDGET (R412 to R414); accept any other. One of zero
length meets the same tests, at no cost. One whose cost counts from a later event is charged then (R192). -/
def State.sluiceDecide (s : State) (r : TRow) (i : Inst) : State :=
  let zero := r.zero s i
  if i.cls ≠ 1 then s.takeOn r i zero
  else if s.pwr.divPend then s.onCx i.ctx fun x => { x with hold := .decrease }
  else
    let s0 := s.openWindow i.ctx
    let k := s0.resvOf i.ctx
    let ents := if zero then [] else granEntries none (r.addrs s0 i)
    let x := match k with
      | some k => s0.rv k
      | none => {}
    let e := LoopE.of i.l
    let charge := if zero then 0 else r.cost s0 i + s0.cMem x ents (r.dep s0 i)
      + (if (i.opc = 0 || i.opc = 1) && s0.sluice.holdA ≠ 0 && i.roleBound e 0 < 32 then s0.sluice.holdA else 0)
    match s0.budget i k ents charge with
    | some reason =>
      let s1 := s0.onSluice fun q => { q with budget := holdAdd q.budget 1 }
      let s2 := match k with
        | some k => s1.onRv k fun y => { y with lastbud := reason }
        | none => s1
      s2.refuseTensor i.ctx i.w Code.budget 1 i.seqid
    | none =>
      let kk := k.getD 0
      let j := { i with resv := some kk, cost := charge }
      let q := if r.late i then (s0, j) else s0.countCost j kk
      q.1.takeOn r q.2 zero

/-- A record that the instruction names, is not in the record cache, and can be read: it holds at issue until the record
arrives (R230, R244). One whose read is denied or has failed is left to the instruction's own work. -/
def State.recDue (s : State) (r : TRow) (i : Inst) : Option Nat :=
  if !s.pwu.cfg.enable && r.opc != 0x44 then none
  else ((r.recs i).map fun k => (i.handle k).1).find? fun no =>
    (s.cachedRec no).isNone && s.checkAcc i.dom (i.cls == 1) .rd (s.recAddr no) == .ok && !s.portFenced (homePort (s.recAddr no))
    && !(i.recBad.any fun b => b.1 == no)

/-- Send the read of record `no` and hold context `c` for it. -/
def State.readRec (s : State) (c : Nat) (i : Inst) (no : Nat) : State :=
  let a := s.recAddr no
  (s.onCx c fun y => { y with
    hold := .record
    scalar := some { op := .record no, addr := a, need := 1, bad := none, word := i.w.w0, spos := i.spos, called := i.called } }).queueRead
    i.dom (i.cls == 1) (.scalar c) a 64 false []

/-- Issue a tensor instruction (R326, R327, R334, R353, R357, R412). Of an unreadable parameter block only the checks that
need no byte of it are made, and one that applies refuses before the block's FAULT.WINDOW (DEDUCED, log 105). -/
def issueTensor (r : TRow) (c : Nat) (w : Long) (s : State) : Out :=
  if !bitOf w.w0.toNat 0 || (longOpcodes.contains w.opc && !(w.opc == r.opc && r.form w)) then .refused .otherRow
  else if !s.canIssue c then idle s
  else if (s.cx c).ringFull then .next (s.onCx c fun y => { y with hold := .ring })
  else match s.fetchCode c 4 with
    | some s1 => .next s1
    | none =>
      if !s.readyAt c w.words then idle s
      else
        let x := s.cx c
        if x.rp (fld w.w0.toNat 12 3) == bitOf w.w0.toNat 15 then
          -- its record, if it writes one, carries the SEQID of the record it names (R344)
          let i0 := s.capture c w
          match if w.rec' && longOpcodes.contains w.opc then s.recDue r i0 else none with
          | some no => .next (s.readRec c i0 no)
          | none => .next (s.retire c w (clsOf x w) false (if longOpcodes.contains w.opc then (r.prep s i0).seqid else 0))
        else if !longOpcodes.contains w.opc then .next (s.refuseTensor c w Code.encoding (clsOf x w) 0)
        else if 32 ≤ s.inflight c then .next (s.onCx c fun y => { y with hold := .inflight })
        else
          let i0 := s.capture c w
          match s.recDue r i0 with
          | some no => .next (s.readRec c i0 no)
          | none =>
          match r.apb i0 with
          | some at' =>
            let a := at' / 64 * 64
            let ap := { i0 with apb := s.granBytes a 64 }
            let i := r.prep s ap
            let acc := s.checkAcc i.dom (i.cls == 1) .rd a
            if acc != .ok && at' % 64 = 0 then
              match s.commonCodes r i ++ r.pre s i with
              | k :: ks => .next (s.refuseTensor c w (minOr 0x0101 (k :: ks)) i.cls i.seqid)
              | [] =>
                let named := r.prep s i0
                .next (((s.accept i0 false).denied i0.n .rd a acc).onInst i0.n fun y =>
                  { y with seq := named.seq, seqid := named.seqid, spec := named.spec })
            else
              let codes := s.commonCodes r i ++ r.checks s i
              match codes with
              | _ :: _ => .next (s.refuseTensor c w (minOr 0x0101 codes) i.cls i.seqid)
              | [] => finish i
          | none =>
            let i := r.prep s i0
            let codes := s.commonCodes r i ++ r.checks s i
            match codes with
            | _ :: _ => .next (s.refuseTensor c w (minOr 0x0101 codes) i.cls i.seqid)
            | [] => finish i
where
  /-- the rest of the issue, once every check has passed -/
  finish (i : Inst) : Out :=
    match s.offDoms r i with
    | d :: ds => .next (((d :: ds).foldl State.wakeDom s).onCx c fun y => { y with hold := .work })
    | [] =>
      match r.hold s i with
      | some h => .next (s.onCx c fun y => { y with hold := h })
      | none =>
        .next (s.sluiceDecide r i)

/-! ### The end of a tensor instruction (R335, R337, R338, R60, R417) -/

/-- A request or an atomic line of instruction `n` is still at some port. -/
def State.outstanding (s : State) (n : Nat) : Bool :=
  s.mem.ports.any fun p => (p.2.allReqs.any fun r => match r.why with | .tensor m | .table m => m == n | .land m _ _ => m == n | _ => false)
    || (p.2.allAtoms.any fun r => match r.why with | .tensor m => m == n | _ => false)

/-- The tests of R59 and R60 on one stream of a context. -/
def State.precTest (s : State) (c strm : Nat) : State :=
  let q := Map.get ({} : Stream) (s.cx c).streams strm
  let h := s.hop
  let hit := (h.satThr != 0 && decide (h.satThr * q.elem < q.sat * 2 ^ 16))
    || (h.flushThr != 0 && decide (h.flushThr * q.elem < q.flush * 2 ^ 16))
    || (h.errThr != 0 && decide ((h.errThr : ℚ) * q.sig2 < q.err2 * 2 ^ 16))
  if hit && !q.escalated then
    (s.onCx c fun x => { x with streams := Map.modify {} x.streams strm fun y => { y with escalated := true } }).raise 0x0301 0x07 [c, strm]
  else s

/-- AEN_EFF bits that may now change are left to AEN_EFF_CHANGE; here the reservation of a released entry
becomes FREE when its last issued instruction has ended (R425). -/
def State.freeReleased (s : State) : State :=
  (List.range 32).foldl (fun s r =>
    let x := s.rv r
    if x.releasing && !(s.instList.any fun i => i.resv == some r) then
      s.onRv r fun y => { y with state := 0, releasing := false, pending := false, opened := false } else s) s

/-- The code an instruction that faulted ends with: the first that is not FAULT.POISON, which only follows the data (DESIGN
CHOICE, log 104). -/
def Inst.endCode (i : Inst) : Nat := (i.faults.find? (· != Code.fPoison)).getD (i.faults.headD 0)

/-- End instruction `n`: its memory error is reported, its record written, its counter incremented, its
tests made, its miss counted, and it leaves flight. -/
def State.finishInst (s : State) (n : Nat) : State :=
  match s.inst n with
  | none => s
  | some i0 =>
    let s0 := match i0.memErr with
      | some p => if i0.faults.contains Code.fMemError then s
        else s.instFault n { code := Code.fMemError, unit := 0x06, addr := p.2, poison := i0.poison, detail := p.1 }
      | none => s
    match s0.inst n with
    | none => s0
    | some i =>
      let code := i.endCode
      let kind := if i.faults.isEmpty then 0 else 2
      let x := s0.cx i.ctx
      let s1 := if kind = 2 then s0.onCx i.ctx fun y => y.setErr code y.rseq else s0
      let s2 := s1.onCx i.ctx fun y => { y with resv := y.resv - 1 }
      let s3 := if kind = 2 || i.w.rec' then
          s2.writeRec i.ctx (i.cls == 1)
            { kind := kind, code := code, opc := i.opc, spec := i.spec, poison := i.poison, int := i.w.int', called := i.called,
              spos := i.spos, issue := i.issue, result := if i.spec then 0 else i.result.toNat, seqid := i.seqid }
        else s2
      let s4 := s3.bump i.ctx i.w
      let s5 := (i.aux.filter fun k => decide (1000 ≤ k) && decide (k < 1016)).foldl (fun s k => s.precTest i.ctx (k - 1000)) s4
      let miss := match i.deadline with
        | some d => i.cls == 1 && decide (d < s.time.cclk)
        | none => false
      let s6 := if miss then
          let r := i.resv.getD 0
          ((s5.onRv r fun y => { y with misses := holdAdd y.misses 1 }).onSluice fun q => { q with misses := holdAdd q.misses 1 }).raise
            0x0307 0x01 [r, i.issue]
        else s5
      let _ := x
      ({ s6 with insts := Map.erase s6.insts n }).freeReleased

end Sys2Proof.Machine
end

