-- ==== Sys2Proof/Machine/Ports.lean ====
section
/-!
DEFINITION. The memory ports' events (R433 to R449): acceptance of requests, returns and
acknowledgements, timeouts, atomic WIDE line updates (R125, R126, R445, R446), and Granary invalidation.
-/

namespace Sys2Proof.Machine

/-! ### What a return or an acknowledgement completes -/

/-- Note the first failing request of an instruction (R441). -/
def State.memError (s : State) (n p a : Nat) : State :=
  s.onInst n fun i => if i.memErr.isSome then i else { i with memErr := some (p, a) }

/-- A fold or a bucket's record is the reducing instruction's, while the bucket is open. -/
def State.owner (s : State) : Why → Why
  | .weir j k | .stage j k => match s.weir.buckets.find? fun b => b.job == j && b.bkt == k with
    | some b => .tensor b.inst
    | none => .weir j k
  | w => w

/-- Whose request it is: the read of a line that the atomic unit updates is that of the update's sender. -/
def State.actor (s : State) : Why → Why
  | .line q => match (s.mem.ports.flatMap fun p => p.2.atoms).find? fun a => a.seq == q with
    | some a => s.owner a.why
    | none => .line q
  | w => s.owner w

/-- A read of R286's test: a group whose record or partial cannot be read raises no fault. -/
def Req.quiet (r : Req) : Bool := r.tgt.any fun t => match t with
  | .work _ _ ix (some (_, k)) => ix == [28] && k == 0
  | _ => false

/-- The lines that the slice of a port group holds (R20: one slice of 4 MiB for each). -/
def State.sliceLines (s : State) (g : Nat) : List Nat := (s.mem.gran.map Prod.fst).filter fun l => homePort (128 * l) / 4 == g

/-- Keep a line that a read has brought (R448). A full slice gives up one line (log 134). -/
def State.granFill (s : State) (a : Nat) : State :=
  let ls := s.sliceLines (homePort a / 4)
  let put := fun (s : State) => { s with mem := { s.mem with gran := Map.set [] s.mem.gran (a / 128) (s.extBytes (a / 128 * 128) 128), granBad := s.mem.granBad.filter (· != a / 128) } }
  if ls.length < 32768 || ls.contains (a / 128) then put s
  else
    let f := s.fresh
    put { f.2 with mem := { f.2.mem with gran := Map.erase f.2.mem.gran (ls.getD (Config.granVictim f.1 % 32768) 0) } }

/-- A chunk whose source read returned poison is withheld, and its sender raises FAULT.POISON; a contribution ends there,
its residual unchanged (R517, log 137). -/
def State.withhold (s : State) (n c : Nat) : State :=
  let unit := match (s.inst n).bind Inst.link with
    | some o => if o.isWred then 0x04 else 0x05
    | none => 0x05
  (s.instFault n { code := Code.fPoison, unit := unit, poison := true }).onInst n fun y =>
    { y with link := y.link.bind fun o =>
        if o.isWred then none
        else some { o with chunks := Map.modify ⟨0, 0, false⟩ o.chunks c fun z => { z with st := 4, poison := true } } }

/-- A line that the Page Walk Unit reads for instruction `n` is back; the last one of its round makes the round known. -/
def State.tableBack (s : State) (n a code : Nat) : State := s.onInst n fun y =>
  let t := y.turn
  if !t.wait.contains a then y
  else
    let b := (a, code) :: t.back
    { y with turn := if b.length < t.wait.length then { t with back := b } else { t with got := t.got ++ [b], back := [], wait := [] } }

/-- A read has its data; `bad` is the fault code it completes with instead (R441, R444, R448, R517). -/
def State.completeRead (s : State) (r : Req) (bad : Option Nat) : State :=
  let p := homePort r.addr
  let back : Atom → Atom := fun a => if r.why == .line a.seq then { a with got := some bad.isSome } else a
  let s00 := s.onPort p fun x => { x with atoms := x.atoms.map back }
  let s0 := if bad.isNone && r.fill then s00.granFill r.addr else s00
  match s.actor r.why with
  | .table n => s0.tableBack n r.addr (bad.getD 0)
  | .tensor n | .land n _ _ =>
    match bad with
    | none => s0
    | some code =>
      let s1 := r.tgt.foldl (fun s t => match t with | .chunk m c => s.withhold m c | t => s.poisonTgt t) s0
      let s2 := s1.markPoison n true
      if ((s.inst n).map Inst.spec).getD false || r.quiet || code == Code.fPortTimeout then s2
      else if code = Code.fMemError then s2.memError n p r.addr else s2.portDenied n p r.addr true
  | .scalar c => s0.scalarReturn c (bad.map fun code => (code, p))
  | .cons c =>
    match bad with
    | none => s0.onCx c fun x => { x with consRead := leNat (s0.extBytes (x.cfg.consAddr) 8) }
    | some code => if code = Code.fPortTimeout then s0
      else s0.logErr { code := code, unit := 0x06, ctx := some c, addr := r.addr, poison := true, detail := p }
  | .leat => if bad.isSome then r.tgt.foldl State.poisonTgt s0 else s0
  | .image =>
    if bad.isNone then s0
    else { s0 with prot := { s0.prot with scarf := { s0.prot.scarf with imgBad := true } } }
  | _ => s0

/-- A write that did not take effect (R441): its bytes get back what they held, through the first younger
write of the same byte where there is one. -/
def State.unwrite (s : State) (r : Req) : State :=
  let p := homePort r.addr
  r.old.foldl (fun s c =>
    let young := ((s.port p).allReqs.filter fun q => q.wr && decide (r.seq < q.seq) && q.data.any fun d => d.1 == c.1)
    match young.foldl (fun (acc : Option Req) q => match acc with
        | none => some q
        | some b => if q.seq < b.seq then some q else acc) none with
    | none => s.putExt [c]
    | some q =>
      let fix : List Req → List Req := fun l => l.map fun x =>
        if x.seq = q.seq then { x with old := x.old.map fun d => if d.1 = c.1 then c else d } else x
      s.onPort p fun x => { x with waiting := fix x.waiting, rq := fix x.rq, wr := fix x.wr, wrOut := fix x.wrOut }) s

/-- The completion interrupt of a cluster: one pulse for all the records acknowledged in one SCLK cycle (R346). -/
def State.pulseCmpl (s : State) (k : Nat) : State :=
  if Map.get 0 s.pins.cmplAt k = s.time.sclk + 1 then s
  else s.onPins fun q => { q with cmplIrq := Map.modify 0 q.cmplIrq k (· + 1), cmplAt := Map.set 0 q.cmplAt k (s.time.sclk + 1) }

/-- The error interrupt: one pulse for all the records acknowledged in one NCLK cycle (R455). -/
def State.pulseErr (s : State) : State :=
  if s.pins.errAt = s.time.nclk + 1 then s else s.onPins fun q => { q with errIrq := q.errIrq + 1, errAt := s.time.nclk + 1 }

/-- A write is acknowledged, or has failed with a fault code. -/
def State.completeWrite (s : State) (r : Req) (bad : Option Nat) : State :=
  let p := homePort r.addr
  let s0 := if bad.isSome then s.unwrite r else s
  match s.actor r.why with
  | .tensor n | .land n _ _ =>
    match bad with
    | none => s0
    | some code => if code = Code.fMemError then s0.memError n p r.addr
      else if code = Code.fPortTimeout then s0
      else s0.portDenied n p r.addr false
  | .scalar c => s0.scalarReturn c (bad.map fun code => (code, p))
  | .record c irq =>
    match bad with
    | none => if irq then s0.pulseCmpl (c / 16) else s0
    | some code => if code = Code.fPortTimeout then s0
      else s0.logErr { code := code, unit := 0x06, ctx := some c, addr := r.addr, detail := p }
  | .elog n code =>
    match bad with
    | none => s0.pulseErr.raise 0x0311 0x0A [n, code]
    | some _ => s0.logLost
  | _ => s0

/-- A chunk of which a part is not written or added is not acknowledged (R472, log 143). -/
def State.badChunk (s : State) (w : Why) : State := match w with
  | .land n _ c => s.onInst n fun y => { y with link := y.link.map fun o => { o with rxBad := Map.set false o.rxBad c true } }
  | _ => s

/-- Drop the lines of one tile of one sender everywhere (R446): no line of it is sent. -/
def State.dropTile (s : State) (w : Why) (tile : Nat) : State :=
  let f : List Atom → List Atom := fun l => l.filter fun a => !(a.why == w && a.tile == tile)
  (s.onPorts fun x => { x with atoms := f x.atoms, atomsIn := f x.atomsIn }).badChunk w

/-- Everything a fenced port has not yet sent completes: reads as poisoned data, writes and atomic updates
discarded, a tile's entry lines with its header (R444). -/
def State.drainPort (s : State) (p : Nat) : State :=
  let x := s.port p
  let s1 := s.onPort p fun y => { y with waiting := [], rq := [], wr := [], atoms := [], atomsIn := [] }
  let s2 := (x.waiting ++ x.rq ++ x.wr).foldl (fun s r =>
    if r.wr then (s.completeWrite r (some Code.fPortFenced)).badChunk r.why else s.completeRead r (some Code.fPortFenced)) s1
  (x.allAtoms.foldl (fun s a =>
    let s1 := if a.hdr then s.dropTile a.why a.tile else s.badChunk a.why
    match s.owner a.why with
    | .tensor n | .land n _ _ => s1.portDenied n p a.line false
    | _ => s1) s2).offerAll

/-! ### Rows of the ports -/

/-- READY in a cycle with valid slots: every valid slot of the channel is accepted (R435). -/
def execNmpRequestAccepted (p : Fin 32) (wr : Bool) (s : State) : Out :=
  let x := s.port p
  let slots := if wr then x.wr else x.rq
  if slots.isEmpty || s.portFenced p then idle s
  else
    let acc := slots.map fun r => { r with since := s.time.mclk }
    let s1 := s.onPort p fun y =>
      if wr then { y with wr := [], wrOut := y.wrOut ++ acc, writes := holdAdd y.writes acc.length }
      else { y with rq := [], rdOut := y.rdOut ++ acc, reads := holdAdd y.reads acc.length }
    .next (State.offer p 8 s1)

/-- A write acknowledgement at a port: the request it answers leaves the port and is completed; the request is
answered for what else follows from it. -/
def State.ackWrite (s : State) (p tag : Nat) (err : Bool) : Option (State × Req) :=
  let x := s.port p
  match x.wrOut.find? fun r => r.tag == tag with
  | none => none
  | some r =>
    let s1 := s.onPort p fun y =>
      { y with wrOut := y.wrOut.filter (fun q => q.tag != tag), errs := if err then holdAdd y.errs 1 else y.errs }
    let s2 := s1.completeWrite r (if err then some Code.fMemError else none)
    some (State.offer p 8 s2, r)

/-- The error record of a request that timed out, and the fence of its port (R443). The instruction that made the request
raises the fault; a speculative one raises none of its own (R280). -/
def State.timeoutReport (s : State) (p : Nat) (wr : Bool) (tag : Nat) (r : Req) : State :=
  let e : Err := { code := Code.fPortTimeout, scope := 3, unit := 0x06, index := p, addr := r.addr, poison := !wr, detail := tag + (if wr then 4096 else 0) }
  let s1 := s.onPort p fun y => { y with timeouts := holdAdd y.timeouts 1 }
  match s.actor r.why with
  | .tensor n | .land n _ _ | .table n =>
    match s1.inst n with
    | none => s1.report e 0
    | some i =>
      if i.spec || r.quiet then s1.report { e with ctx := some i.ctx, spos := i.spos, issue := i.issue } 0
      else (s1.instFault n e).fence 3 p 0 Code.fPortTimeout 0
  | .scalar c => s1.report { e with ctx := some c, spos := ((s1.cx c).scalar.map Scalar.spos).getD 0 } 0
  | .record c _ | .cons c => s1.report { e with ctx := some c } 0
  | _ => s1.report e 0

/-! ### WIDE headers and atomic adds -/

/-- Entries `e0` on of a tile with header `h`: none inside ROWS × COLS has a reserved bit; the others are ignored (R47, R48). -/
def entriesOk (h : List Byte) (e0 : Nat) (bs : List Byte) : Bool :=
  let t := tileHeader h
  (List.range (bs.length / 16)).all fun j => decide (t.rows ≤ (e0 + j) / 32) || decide (t.cols ≤ (e0 + j) % 32) || decide (leAt bs (16 * j) 16 < 2 ^ 100)

/-- The first entry of the line of an update. -/
def Atom.e0 (a : Atom) : Nat := (a.line - a.tile - 64) / 16

/-- The atomic unit of a port takes up lines that are sent to it, Class A first, while it has room for them; each is first
read through the port's own request channel (R439, R445). -/
def State.takeAtoms (s : State) (p : Nat) : State :=
  let x := s.port p
  let r := x.atomsIn.filter Atom.ready
  let pick := ((r.filter Atom.clsA) ++ r.filter fun a => !a.clsA).take (256 - x.atoms.length)
  pick.foldl (fun s a => s.queueRead a.dom a.clsA (.line a.seq) a.line 64 false []) (s.onPort p fun y =>
    { y with atoms := y.atoms ++ pick, atomsIn := y.atomsIn.filter fun a => !pick.contains a })

/-- Release the entry lines of a tile whose header has been checked. -/
def State.readyTile (s : State) (w : Why) (tile : Nat) : State :=
  let s1 := s.onPorts fun x => { x with atomsIn := x.atomsIn.map fun a => if a.why == w && a.tile == tile then { a with ready := true } else a }
  (List.range 32).foldl (fun s p => if (s.port p).atomsIn.isEmpty then s else s.takeAtoms p) s1

/-- No entry line of a contribution's tile with header `h` holds a reserved bit. -/
def State.tileEntriesOk (s : State) (w : Why) (tile : Nat) (h : List Byte) : Bool :=
  s.mem.ports.all fun p => p.2.allAtoms.all fun a => !(a.why == w && a.tile == tile && !a.hdr) || entriesOk h a.e0 a.data

/-- Queue atomic adds of lines `k0` on of the tile at `a` (R445, R446): the header line may go, the entry lines wait for
its check unless `free`. Every line needs the AT right (R497). A header line that is not sent takes the tile's other lines
with it. -/
def State.addLines (s : State) (n : Nat) (w : Why) (dom : Nat) (clsA : Bool) (a k0 : Nat) (bs : List Byte) (free bad : Bool) : State :=
  let lost := k0 = 0 && (s.checkAcc dom clsA .at a != .ok || s.portFenced (homePort a))
  (List.range (if lost then 1 else bs.length / 64)).foldl (fun s j =>
    let k := k0 + j
    let l := a + 64 * k
    match s.checkAcc dom clsA .at l with
    | .ok =>
      let p := homePort l
      if s.portFenced p then (s.portDenied n p l false).badChunk w
      else
        let at' : Atom :=
          { seq := s.mem.nextSeq, line := l, tile := a, hdr := k == 0, ready := k == 0 || free, data := (bs.drop (64 * j)).take 64,
            poison := bad, clsA := clsA, dom := dom, why := w }
        let s1 := { s with mem := { s.mem with nextSeq := s.mem.nextSeq + 1, gran := Map.erase s.mem.gran (l / 128) } }
        ((s1.onPort p fun x => { x with atomsIn := x.atomsIn ++ [at'] }).wakeDom (32 + p / 4)).takeAtoms p
    | acc => (s.denied n .at l acc).badChunk w) s

/-- Queue the atomic add of a whole tile into external memory. -/
def State.addTile (s : State) (n : Nat) (w : Why) (dom : Nat) (clsA : Bool) (a : Nat) (tile : List Byte) (bad : Bool) : State :=
  s.addLines n w dom clsA a 0 (tile.take 16448) false bad

/-- The header line of a tile of one sender waits for its check. -/
def State.hdrWaits (s : State) (w : Why) (tile : Nat) : Bool := s.mem.ports.any fun p => p.2.allAtoms.any fun a => a.hdr && a.why == w && a.tile == tile

/-- The fault of a WIDE tile (R48, R126). -/
def State.wideFault (s : State) (n code a : Nat) : State := s.instFault n { code := code, unit := 0x06, addr := a, poison := true }

/-- The add of a tile into bay memory at once (R125, R126): `none` is success, else the fault code. A unit that carried
poison keeps it (R445, R516). -/
def State.addTileBay (s : State) (b off : Nat) (tile : List Byte) (bad : Bool) : State × Option Nat :=
  let x := s.by b
  let h := x.bytes off 64
  if !tileOk h || !tileOk (tile.take 64) || !entriesOk tile 0 ((tile.drop 64).take 16384) || !entriesOk h 0 (x.bytes (off + 64) 16384) then (s, some Code.fWideHeader)
  else if !wideSame h (tile.take 64) then (s, some Code.fWideAnchor)
  else
    let body := (List.range 256).flatMap fun k => wideLineAdd (x.bytes (off + 64 + 64 * k) 64) ((tile.drop (64 + 64 * k)).take 64)
    let was := (unitsOf off 16448).filter fun u => Map.get false x.memPoison u
    ((s.putBay b off (wideHeaderAdd h (tile.take 64) ++ body) bad).poisonUnits b was, none)

/-- The home port updates the line that is next among those whose read has returned, in error as `err` says (R445): Class A first (R439), and not before the data that it adds
has come. After an error the add proceeds on the values received, the write-back carries poison, and the instruction notes its
memory error when the read returns (R441). A header line is first compared (R446). -/
def execAtomicLineUpdate (p : Fin 32) (err : Bool) (s : State) : Out :=
  let x := s.port p
  let can : Atom → Bool := fun a => a.got.isSome && !s.addDue a
  match (x.atoms.find? fun a => a.clsA && can a).or (x.atoms.find? can) with
  | none => idle s
  | some a =>
    if a.got != some err || s.portFenced p || !s.isOn (32 + p.val / 4) then idle s
    else
      let n := match s.owner a.why with
        | .tensor n | .land n _ _ => n
        | _ => s.nextInst
      let s0 := s.onPort p fun y => { y with atoms := y.atoms.filter fun b => b.seq != a.seq }
      let s1 := s0.onPort p fun y => { y with atomics := holdAdd y.atomics 1 }
      let t := s.extBytes a.line 64
      let bad := a.poison || err
      let back := fun (s : State) (bs : List Byte) => s.queueWriteAt a.seq a.dom a.clsA a.why a.line bs bad
      if a.hdr then
        if !tileOk t || !tileOk a.data || !s.tileEntriesOk a.why a.tile a.data then .next (((s0.dropTile a.why a.tile).wideFault n Code.fWideHeader a.line).takeAtoms p)
        else if !wideSame t a.data then .next (((s0.dropTile a.why a.tile).wideFault n Code.fWideAnchor a.line).takeAtoms p)
        else .next ((back (s1.readyTile a.why a.tile) (wideHeaderAdd t a.data)).takeAtoms p)
      else if !entriesOk (s.extBytes a.tile 64) a.e0 t then .next (((s0.dropTile a.why a.tile).wideFault n Code.fWideHeader a.line).takeAtoms p)
      else .next ((back s1 (wideLineAdd t a.data)).takeAtoms p)

/-! ### Granary invalidation (R449, R474) -/

/-- Remove the Granary lines that a condition on the line's address picks. -/
def State.granDrop (s : State) (f : Nat → Bool) : State :=
  { s with mem := { s.mem with gran := s.mem.gran.filter fun p => !f (128 * p.1) } }

def State.ginvAll (s : State) : State :=
  let s1 := s.granDrop fun _ => true
  { s1 with mem := { s1.mem with ginvBusy := true } }

def State.ginvRange (s : State) : State :=
  let b := s.mem.ginvBase / 4096
  let s1 := s.granDrop fun a => decide (b ≤ a / 4096) && decide (a / 4096 < b + s.mem.ginvPages)
  { s1 with mem := { s1.mem with ginvBusy := true } }

def execGinvAll (s : State) : Out := .next (s.mgt .ginvAll none State.ginvAll)
def execGinvRange (s : State) : Out := .next (s.mgt .ginvRange none State.ginvRange)

/-- The invalidation in progress ends. -/
def execGinvDone (s : State) : Out :=
  if s.mem.ginvBusy then .next { s with mem := { s.mem with ginvBusy := false } } else idle s

end Sys2Proof.Machine
end

