-- ==== Sys2Proof/Machine/Drain.lean ====
section
/-!
DEFINITION. Drains (R118 to R122, R214 to R219, R356, R365): the drain control, the epilogue chain of one
row, and writing a slot to a destination in an element format or as a WIDE tile.
-/

namespace Sys2Proof.Machine

/-! ### The drain control (R356) -/

def Inst.dcFn (i : Inst) : Nat := i.f 3 16 6
def Inst.gate (i : Inst) : Bool := i.b 3 22
def Inst.rsc (i : Inst) : Bool := i.b 3 23
def Inst.qep (i : Inst) : Bool := i.b 3 24
def Inst.sf (i : Inst) : Nat := i.f 3 25 4
def Inst.kw (i : Inst) : Bool := i.b 3 29
def Inst.clr (i : Inst) : Bool := i.b 3 30
def Inst.epi (i : Inst) : Bool := i.gate || i.rsc || i.qep

/-- The micro-program bank of a bay: the 4,096 bytes of bank `k`. -/
def Bay.bank (b : Bay) (k : Nat) : List Byte := (List.range 4096).map fun o => Map.get 0 b.upStore (4096 * k + o)

/-- A micro-program function that some bay cannot run (R207). -/
def State.noMicro (s : State) (i : Inst) (fn : Nat) : Bool :=
  decide (16 ≤ fn) && decide (fn < 32) && i.bays.any fun b =>
    let x := s.by b
    !x.upValid || (Map.get 0 x.upStore (4096 * x.upBank + 8 * (fn - 16) + 2)) == 0

/-- The captured micro-program image on a core's bay. -/
def State.image (s : State) (i : Inst) (g : Nat) : List Byte := (s.by (g / 64)).bank (Map.get 0 i.upG (g / 64) - 1)

/-- Capture the micro-program generation of each bay (R207). -/
def State.captureUp (s : State) (i : Inst) : Inst := { i with upG := i.bays.foldl (fun m b => Map.set 0 m b ((s.by b).upBank + 1)) i.upG }

/-- The refusal codes of a drain control over destinations `cs`, with the row-scale vector `r` (R52, R214,
R215, R356); an epilogue into WIDE is refused with REFUSE.FORMAT (log 24). -/
def State.dcCodes (s : State) (i : Inst) (cs : List Desc) (r : Desc) : List Nat :=
  when (i.rnd == 3 || i.b 3 31 || (i.dcFn != 0 && !i.gate) || (i.sf != 0 && !i.epi) || (i.gate && !Lane.isGate i.dcFn)) Code.encoding
  ++ when (decide (10 < i.sf) || (i.qep && cs.any fun c => decide (7 < c.fmtCode)) || (i.epi && cs.any fun c => c.fmtCode == 12) || (i.rsc && r.fmtCode != 10)) Code.format
  ++ when (i.rnd == 2) Code.mode
  ++ when (i.gate && s.noMicro i i.dcFn) Code.state

/-! ### One row -/

/-- A row to drain: its row in the slot, its M coordinate, its columns with their places in C, the factor of
R218 (`some none` for a NaN row), and whether that factor is poisoned. -/
structure DRow where
  i : Nat
  gm : Nat
  cols : List (Nat × Coord)
  rho : Option (Option ℚ) := none
  bad : Bool := false
  deriving DecidableEq, Repr

/-- Split columns into runs that are consecutive along dimension 0. -/
def runsOf : List (Nat × Coord) → List (List (Nat × Coord))
  | [] => []
  | x :: xs => match runsOf xs with
    | (y :: ys) :: rs =>
      if y.2 = { x.2 with c0 := x.2.c0 + 1 } then (x :: y :: ys) :: rs else [x] :: (y :: ys) :: rs
    | _ => [[x]]

/-- The drained value: both operands' tensor scales and the factor of R218, exactly (R38, R218). -/
def drained (ts : ℚ) (rho : Option (Option ℚ)) (x : Ext) : Ext :=
  match rho with
  | none => x.scale ts
  | some none => .nan
  | some (some k) => if k = 0 then .fin false 0 else x.scale (ts * k)

/-- What one stage leaves: the values and what it counted. -/
structure Staged where
  vals : List Ext
  counts : Counts
  deriving DecidableEq, Repr

/-- One conversion of a run at stage `k`, counted into FMT 0x0 to 0x9. -/
def stage (f : Fmt) (hr : Nat) (ts : ℚ) (xs : List (Src × Rnd)) : List Block × Counts :=
  let bs := convSrc f hr ts xs
  (bs, if f.counted then sumCounts bs else Counts.zero)

/-- The values of a list of converted blocks. -/
def blockVals (bs : List Block) : List Ext := bs.flatMap Block.vals

/-- The epilogue chain of R215 and R219 on one run of one row: `a` and `b` are the drained values, `rs` the
row-scale value, `rnd k` the rounding modes of stage `k`. Only the quantise stage has headroom. -/
def epilogue (i : Inst) (img : List Byte) (f : Fmt) (ts : ℚ) (a : List Ext) (b : Option (List Ext)) (rs : Ext)
    (rnd : Nat → List Rnd) : List Block × Counts :=
  let out := fun (xs : List Src) => stage f (if i.qep then i.hr else 0) ts (xs.zip (rnd 0))
  let sf := (Fmt.ofCode i.sf).getD .e4m3
  let st := fun (k : Nat) (xs : List Src) => stage sf 0 1 (xs.zip (rnd k))
  let ex := fun (xs : List Ext) => xs.map Src.exact
  if !i.epi then out (ex a)
  else if i.kw then
    let h := match b with
      | some bv => List.zipWith (fun x y => ((Lane.general i.dcFn img none .f32 x).ext).mul y) a bv
      | none => a
    out (ex (if i.rsc then h.map fun x => x.mul rs else h))
  else
    let a1 := st 1 (ex a)
    let p : List Src × Counts := match b with
      | some bv =>
        let b1 := st 2 (ex bv)
        let h := st 3 ((blockVals a1.1).map fun x => Lane.general i.dcFn img (some sf) sf x)
        (ex (List.zipWith Ext.mul (blockVals h.1) (blockVals b1.1)), b1.2.add h.2)
      | none => (ex (blockVals a1.1), Counts.zero)
    let c0 := a1.2.add p.2
    let q : List Src × Counts :=
      if i.gate && (i.rsc || i.qep) then let z := st 4 p.1; (ex (blockVals z.1), c0.add z.2) else (p.1, c0)
    let r : List Src × Counts :=
      if i.rsc then
        let v := ex (q.1.map fun x => x.ext.mul rs)
        if i.qep then let z := st 5 v; (ex (blockVals z.1), q.2.add z.2) else (v, q.2)
      else q
    let o := out r.1
    (o.1, r.2.add o.2)

/-! ### A slot to its destination -/

/-- Rows of a drain item: all of them, or those of the half that a lower-class GATE drain has come to (R419). -/
def halfRows (half : Nat) (rows : List DRow) : List DRow :=
  match half with
  | 0 => rows
  | 1 => rows.filter fun r => decide (r.i < 16)
  | _ => rows.filter fun r => decide (16 ≤ r.i)

/-- FAULT.POISON of a drain (R122). -/
def State.poisonFault (s : State) (n g : Nat) (bad : Bool) : State :=
  if bad then (s.markPoison n true).instFault n { code := Code.fPoison, unit := 0x10 + g / 64, poison := true } else s

/-- Drain a slot, or a GATE pair, in an element format (R120, R215). -/
def State.drainElems (s : State) (i : Inst) (g a : Nat) (b : Option Nat) (c : Desc) (cn : Nat) (rv : Desc) (ts : ℚ)
    (rows : List DRow) : State :=
  let x := s.slot g a
  let img := if i.gate then s.image i g else []
  let bad0 := x.poisoned || (match b with | some k => (s.slot g k).poisoned | none => false)
  let rc : Nat → Coord := fun m => ⟨m, 0, 0, 0⟩
  let sp := if i.rsc then rows.flatMap fun r => rv.spans (rc r.gm) else []
  let tgt := if i.rsc then rows.flatMap fun r => r.cols.flatMap fun x => (c.spans x.2).map fun y => tgtOf g y.loc y.addr y.len else []
  let q := s.fetch i.n g true tgt sp
  rows.foldl (fun s r =>
    let bad := bad0 || r.bad || q.2.2
    (runsOf r.cols).foldl (fun s run =>
      let vals := fun (k : Nat) => run.map fun p => drained ts r.rho ((s.slot g k).val (32 * r.i + p.1))
      let rnd := fun (k : Nat) => run.map fun p => i.rndAt cn (c.linear p.2) k
      let o := epilogue i img c.fmt c.ts (vals a) (b.map vals) (rv.val q.2.1 (rc r.gm)) rnd
      let at' := (run.headD (0, Coord.zero)).2
      (s.storeRow i.n g c at' o.1 bad).count i.n i.strm o.2) s) q.1

/-- The WIDE tile of a slot whose rows are multiplied by the factor of R218: exactly, before the drain's one rounding, on the
grid of the tile's anchor with the draws of R120 (DESIGN CHOICE, log 149). A row with no factor keeps its entries; a row of
zeros has none, a NaN row has the NaN flag in every entry. -/
def Slot.tileRho (x : Slot) (fixa : Option Int) (rows cols n : Nat) (draw : Nat → Nat) (rho : Nat → Option (Option ℚ)) : Tile × Nat :=
  let h := x.tile rows cols
  let ms := ((List.range (32 * rows)).filter fun e => decide (e % 32 < cols)).map fun e =>
    let y := if x.unanchored then { x.entry e with f := 0, inex := false } else x.entry e
    let a := x.anchorOf e
    let q : Entry × Nat := match rho (e / 32) with
      | none => y.toFixed a (fixa.getD (a.getD (-512))) 1 (some (draw e)) n e
      | some none => ({ nan := true }, 0)
      | some (some k) => if k = 0 then ({}, 0) else y.toFixed a (fixa.getD (a.getD (-512))) k (some (draw e)) n e
    (e, q)
  let es := (ms.map fun m => (m.1, m.2.1)).filter fun p => p.2 != {}
  let t : Tile := match fixa with
    | none => { h with inexact := es.any fun p => p.2.inex, ent := es }
    | some k => { h with anchor := k, quad := false, inexact := es.any fun p => p.2.inex, qanch := [], ent := es }
  (t, (ms.map fun m => m.2.2).sum)

/-- Drain a slot as a WIDE tile (R121, R125, R218). -/
def State.drainWide (s : State) (i : Inst) (g a : Nat) (c : Desc) (cn : Nat) (fixa : Option Int) (atom : Bool) (rows : List DRow) : State :=
  match rows with
  | [] => s
  | r0 :: _ =>
    let x := s.slot g a
    let nr := maxOr 0 (rows.map fun r => r.i + 1)
    let nc := maxOr 0 (r0.cols.map fun p => p.1 + 1)
    let org := (r0.cols.headD (0, Coord.zero)).2
    let u := c.unit org.c0.toNat org.c1.toNat org.c2.toNat org.c3.toNat
    let draw := fun (e : Nat) =>
      i.draw cn (c.linear ⟨org.c0 + (e % 32 : Nat), org.c1 - r0.i + (e / 32 : Nat), org.c2, org.c3⟩) 0
    let rho := fun (r : Nat) => (rows.find? fun z => z.i == r).bind DRow.rho
    let t : Tile × Nat := if rows.any fun z => z.rho.isSome then x.tileRho fixa nr nc i.n draw rho else match fixa with
      | none => (x.tile nr nc, 0)
      | some k => x.tileAt k nr nc i.n draw
    let s1 := s.count i.n i.strm { sat := t.2 }
    let addr := c.unitAddr u
    if !atom then s1.store i.n g c.loc addr t.1.bytes x.poisoned
    else if c.loc = 0 then s1.addTile i.n (.tensor i.n) i.dom (i.cls == 1) addr t.1.bytes x.poisoned
    else
      let z := s1.addTileBay (g / 64) addr t.1.bytes x.poisoned
      match z.2 with
      | none => z.1
      | some code => z.1.wideFault i.n code addr

/-- The header checks of an instruction's atomic drains, whose targets are known when it issues, sent in its first memory
round (R446): a target header that R48 rejects faults, as does one whose ANCHOR, QUAD or QANCH cannot be those of the drains'
fixed anchor. The home port compares a header again with the tile that comes, of which then no line is sent. -/
def State.headChecks (s : State) (i : Inst) (fixa : Option Int) (heads : List Nat) : State :=
  heads.foldl (fun s a =>
    let r := s.readExt i.n false [] a 64
    let h := r.2.1
    if r.2.2 then r.1
    else if !tileOk h then r.1.wideFault i.n Code.fWideHeader a
    else match fixa with
      | some k => if (tileHeader h).anchor != k || (tileHeader h).quad then r.1.wideFault i.n Code.fWideAnchor a else r.1
      | none => r.1) s

/-- The header address of the WIDE tile that a drain to `x` goes to, in external memory. -/
def Desc.headAt (d : Desc) (x : Coord) : List Nat := if d.loc = 0 then [d.unitAddr (d.unit x.c0.toNat x.c1.toNat x.c2.toNat x.c3.toNat)] else []

/-- Drain one slot or GATE pair of instruction `n` on core `g` (R105, R118 to R122): the domain check, the
write, the clear modifier, the poison fault. A drain whose rows are not the `last` leaves the slots as they are. -/
def State.drainSlot (s : State) (n g a : Nat) (b : Option Nat) (c : Desc) (cn : Nat) (rv : Desc) (ts : ℚ) (fixa : Option Int)
    (atom : Bool) (rows : List DRow) (last : Bool) : State :=
  match s.inst n with
  | none => s
  | some i =>
    let ks := a :: b.toList
    match ks.find? fun k => s.foreignSlot g k i.dom with
    | some k => s.slotFault n g k
    | none =>
    -- the row-scale vector's domain is checked before the drain reads it (R314)
    match s.foreignBlock g i.dom (if i.rsc && c.fmtCode != 12 then rows.flatMap fun r => rv.spans ⟨(r.gm : Nat), 0, 0, 0⟩ else []) with
    | some k => s.obFault n g k
    | none =>
      let bad := ks.any fun k => (s.slot g k).poisoned
      let s1 := if c.fmtCode = 12 then s.drainWide i g a c cn fixa atom rows else s.drainElems i g a b c cn rv ts rows
      let s2 := if i.clr && last then ks.foldl (fun s k => s.onSlot g k Slot.cleared) s1 else s1
      let s3 := if !last then s2 else s2.onInst n fun j => { j with wrote := j.wrote.filter fun p => !(p.1 == g && ks.contains p.2) }
      s3.poisonFault n g (bad && !rows.isEmpty)

end Sys2Proof.Machine
end

