-- ==== Sys2Proof/Machine/Nest.lean ====
section
/-!
DEFINITION. The loop nest of one instruction (R291 to R313): drain intervals, the iterations inside each,
the slots of a tile, the coordinates of its rows and columns, and what its PLAN bounds reach.
-/

namespace Sys2Proof.Machine

/-- Index vectors of nested loops in visit order (R304). `all` are the counts of the assignee with the most rounds:
every assignee walks the curve that they give (R305). -/
def walk (order : Nat) (all ns : List Nat) : List (List Nat) :=
  if order = 0 then product ns
  else match all, ns with
    | X0 :: Y0 :: _, X :: Y :: rest =>
      ((curve order X0 Y0).filter fun p => decide (p.1 < X) && decide (p.2 < Y)).flatMap fun p => (product rest).map fun v => p.1 :: p.2 :: v
    | _, _ => product ns

/-- What places an assignee in a nest: the K length of a tile, its index among the assignees, their number,
and whether the N tile level runs inside each iteration (MMC, R309). -/
structure Place where
  tk : Nat
  ai : Nat
  C : Nat
  nIn : Bool := false
  deriving DecidableEq, Repr

/-- The number of levels outside a drain interval's inside (R306). -/
def LoopE.outer (e : LoopE) : Nat := if e.dlev = 7 then 0 else e.dlev + 1

/-- Iterations of each level, by POS. -/
def Inst.counts (i : Inst) (e : LoopE) (p : Place) : List Nat :=
  e.sorted.map fun l => if p.nIn && l.role == 1 && e.isTile l then 1 else i.iters e p.tk p.ai p.C l

/-- The counts of the first assignee, which has the most rounds (R300). -/
def Inst.countsAll (i : Inst) (e : LoopE) (p : Place) : List Nat := i.counts e { p with ai := 0 }

/-- The assignee takes part: an entry without an M level has one tile, which goes to the first assignee. -/
def LoopE.takes (e : LoopE) (p : Place) : Bool := (e.tile 0).isSome || p.ai == 0

/-- The index vectors of the levels outside a drain interval; a K or J level of bound 0 counts once (R296). -/
def Inst.intervals (i : Inst) (e : LoopE) (p : Place) : List (List Nat) :=
  let ns := List.zipWith (fun (n : Nat) (l : Level) => if (l.role == 2 || l.role == 4) && n == 0 then 1 else n) (i.counts e p) e.sorted
  if e.outer = 0 then [[]] else walk e.order (i.countsAll e p) (ns.take e.outer)

/-- A level of role K or J has bound 0. -/
def Inst.zeroK (i : Inst) (e : LoopE) : Bool := i.zeroRole e [2, 4]

/-- The iterations inside a drain interval. -/
def Inst.inside (i : Inst) (e : LoopE) (p : Place) : List (List Nat) :=
  if i.zeroK e then []
  else if e.outer = 0 then walk e.order (i.countsAll e p) (i.counts e p) else product ((i.counts e p).drop e.outer)

/-- The tiles inside a drain interval: one index vector for each M and N iteration, the other levels at their
last iteration. -/
def Inst.tilesIn (i : Inst) (e : LoopE) (p : Place) : List (List Nat) :=
  let ns := i.counts e p
  let ls := e.sorted
  let mn := List.zipWith (fun (n : Nat) (l : Level) => if l.role ≤ 1 then n else 1) ns ls
  let vs := if e.outer = 0 then walk e.order (i.countsAll e p) mn else product (mn.drop e.outer)
  vs.map fun v => List.zipWith (fun (x : Nat) (q : Nat × Level) => if q.2.role ≤ 1 then x else q.1 - 1) v ((ns.zip ls).drop e.outer)

/-- PLAN iterations of a level. -/
def LoopE.planCount (e : LoopE) (tk C : Nat) (l : Level) : Nat :=
  if e.isTile l then
    match l.role with
    | 0 => cdiv (cdiv l.plan e.tm) C
    | 1 => cdiv l.plan e.tn
    | 2 => cdiv l.plan tk
    | _ => l.plan
  else l.plan

/-- Stationary tiles are relayed (R300): no level of role M and no fold word with TARGET M moves operand B or X. -/
def LoopE.relays (e : LoopE) : Bool :=
  !(e.levels.any fun l => l.role == 0 && [Opnd.b, .x].any fun o => (l.stride o).used && (l.stride o).step != 0)
  && !(e.target == 1 && [Opnd.b, .x].any fun o => (e.fastOf o).used || (e.slowOf o).used)

/-- The M and N levels inside DLEV (R306). -/
def LoopE.inMN (e : LoopE) : List Level := (e.sorted.drop e.outer).filter fun l => decide (l.role ≤ 1)

/-- G_t, U and u of R306. -/
def LoopE.G (e : LoopE) : Nat := cdiv e.tm 32
def LoopE.U (e : LoopE) (tk C : Nat) : Nat := (e.inMN.map fun l => max 1 (e.planCount tk C l)).foldl (· * ·) 1
def LoopE.u (e : LoopE) (tk C : Nat) (v : List Nat) : Nat :=
  e.inMN.foldl (fun a l => a * max 1 (e.planCount tk C l) + v.getD l.pos 0) 0

/-- The digits that tell tiles apart. -/
def LoopE.tileKey (e : LoopE) (v : List Nat) : List Nat := (e.sorted.filter fun l => l.role != 2 && l.role != 4).map fun l => v.getD l.pos 0

/-- The global tile index and the round of the M tile level, the N tile index, and the K tile index. -/
def LoopE.mTile (e : LoopE) (p : Place) (v : List Nat) : Nat := ((e.tile 0).map fun l => v.getD l.pos 0 * p.C + p.ai).getD 0
def LoopE.round (e : LoopE) (v : List Nat) : Nat := ((e.tile 0).map fun l => v.getD l.pos 0).getD 0
def LoopE.nTile (e : LoopE) (v : List Nat) : Nat := ((e.tile 1).map fun l => v.getD l.pos 0).getD 0
def LoopE.kTile (e : LoopE) (v : List Nat) : Nat := ((e.tile 2).map fun l => v.getD l.pos 0).getD 0

/-- A position lies below its role's run-time bound; a role without a level has none (R298). -/
def Inst.below (i : Inst) (e : LoopE) (role x : Nat) : Bool := match e.tile role with
  | none => true
  | some l => decide (x < i.bound l)

/-- The global M coordinate of row `r` of a tile: it indexes gather lists and row-scale vectors (R313). -/
def LoopE.gm (e : LoopE) (p : Place) (v : List Nat) (r : Nat) : Nat := e.mTile p v * e.tm + r

/-- The coordinate of row `r` of a tile in an operand whose M positions run along dimension `dim`; the
operand is local to the core in the program region (R313). -/
def LoopE.rowAt (e : LoopE) (o : Opnd) (p : Place) (v : List Nat) (dim : Nat) (ob : Bool) (r : Nat) : Coord :=
  let x0 := e.origin o p.ai p.C v ob
  let x := e.once o 1 (e.nTile v * e.tn) x0
  let lr := e.round v * e.tm + r
  e.along o 0 dim (if ob then lr else r) (if ob then lr else e.gm p v r) x

/-- The coordinate of column `j` of N tile `nt` in an operand whose N positions run along dimension `dim`. -/
def LoopE.colAt (e : LoopE) (o : Opnd) (p : Place) (v : List Nat) (dim : Nat) (j : Nat) : Coord :=
  let x := e.once o 0 (e.mTile p v * e.tm) (e.origin o p.ai p.C v false)
  e.along o 1 dim j (e.nTile v * e.tn + j) x

/-- The coordinate of row `r` and column `j` of a tile in C. -/
def LoopE.outAt (e : LoopE) (p : Place) (v : List Nat) (ob : Bool) (r j : Nat) : Coord :=
  let x := e.origin .c p.ai p.C v ob
  let lr := e.round v * e.tm + r
  let y := e.along .c 0 1 (if ob then lr else r) (if ob then lr else e.gm p v r) x
  e.along .c 1 0 j (e.nTile v * e.tn + j) y

/-- The dimension of a coordinate. -/
def Coord.get (x : Coord) (d : Nat) : Int := match d with
  | 0 => x.c0
  | 1 => x.c1
  | 2 => x.c2
  | _ => x.c3

/-- Inside a descriptor in every dimension but one. -/
def Desc.hasBut (d : Desc) (but : Nat) (x : Coord) : Bool :=
  let ext := [d.e0, d.e1, d.e2, d.e3]
  (List.range 4).all fun k => k == but || (decide (0 ≤ x.get k) && decide (x.get k < (ext.getD k 0 : Nat)))

/-! ### What PLAN bounds reach (R310, R313) -/

/-- The largest of a list of integers, at least 0. -/
def maxInt0 (l : List Int) : Int := l.foldl max 0

/-- The largest value of `t × step + (the positions of tile t) − 1` over the `n` tiles of a level that cover `plan`
positions, `sz` in each. -/
def tileReach (plan sz : Nat) (step : Int) : Int :=
  let n := cdiv plan sz
  if n = 0 then 0
  else maxInt0 ([((n - 1 : Nat) : Int) * step + ((plan - (n - 1) * sz - 1 : Nat) : Int)]
    ++ (if 2 ≤ n then [((n - 2 : Nat) : Int) * step + ((sz - 1 : Nat) : Int), ((sz - 1 : Nat) : Int)] else []))

/-- Local rows of the assignee that has most at PLAN (R313). -/
def LoopE.localRows (e : LoopE) (plan C : Nat) : Nat :=
  let n := cdiv plan e.tm
  let r := cdiv n C
  if r = 0 then 0 else (r - 1) * e.tm + min e.tm (plan - (r - 1) * C * e.tm)

/-- The largest step that a fold gives along dimension `dim` over the folded indices below `x`, or over the first of
each tile of `sz` where the operand moves once per tile (R303). -/
def LoopE.foldReach (e : LoopE) (o : Opnd) (dim x : Nat) (sz : Option Nat) : Int :=
  let f := e.fastOf o
  let g := e.slowOf o
  let at' := fun (k : Nat) => (if f.used && f.dim == dim then ((k % e.ff : Nat) : Int) * f.step else 0)
    + (if g.used && g.dim == dim then ((k / e.ff : Nat) : Int) * g.step else 0)
  if x = 0 then 0
  else match sz with
    | some t => maxInt0 ((List.range (cdiv x t)).map fun k => at' (k * t))
    | none =>
      let s := (x - 1) / e.ff * e.ff
      -- a sum of two steps is largest at a corner of the indices
      maxInt0 ([0, s, x - 1, s - 1, min (e.ff - 1) (x - 1), s - min s e.ff].map at')

/-- The largest coordinate of an operand along dimension `dim` at PLAN bounds (R310, R313): the levels' steps, the extent
of the tile along the roles in `ext` (a role and its dimension), and the fold. `loc` says that its rows are local to
the assignee. -/
def LoopE.planMax (e : LoopE) (o : Opnd) (tk C : Nat) (loc : Bool) (ext : List (Nat × Nat)) (dim : Nat) : Nat :=
  let size := fun (role : Nat) => match role with
    | 0 => e.tm
    | 1 => e.tn
    | _ => tk
  let folded := fun (role : Nat) => e.folds role && ((e.fastOf o).used || (e.slowOf o).used)
  let has := fun (role : Nat) => ext.any fun x => x.1 == role && x.2 == dim
  -- levels that are no tile level of a role with an extent here
  let lv := e.levels.foldl (fun (a : Int) l =>
    let t := l.stride o
    let n := if e.isTile l && l.role == 0 then cdiv l.plan e.tm else e.planCount tk C l
    if t.used && t.dim == dim && !(e.isTile l && l.role == 0 && loc) && !(e.isTile l && has l.role && !folded l.role)
    then a + max 0 (((n - 1 : Nat) : Int) * t.step) else a) 0
  let tile := (ext.filter fun x => x.2 == dim && !folded x.1).foldl (fun (a : Int) x =>
    match e.tile x.1 with
    | none => a + (if x.1 = 0 then ((e.tm - 1 : Nat) : Int) else ((size x.1 - 1 : Nat) : Int))
    | some l =>
      let t := l.stride o
      let step : Int := if t.used && t.dim == dim then t.step else 0
      a + (if x.1 = 0 && loc then ((e.localRows l.plan C - 1 : Nat) : Int) else tileReach l.plan (size x.1) step)) 0
  let fold := if e.target = 0 then 0 else
    let role := e.target - 1
    let plan := ((e.tile role).map Level.plan).getD 0
    let x := if loc && role == 0 then e.localRows plan C else plan
    e.foldReach o dim x (if ext.any fun y => y.1 == role then none else some (max 1 (size role)))
  (lv + tile + fold).toNat

/-- A vector of one entry for each row of the global M coordinate reaches beyond the program region (R313). -/
def LoopE.vecBeyond (e : LoopE) (d : Desc) : Bool := d.beyondOb [((e.tile 0).map Level.plan).getD e.tm - 1]

/-- The farthest that the levels of role B move an operand along a dimension at PLAN bounds. -/
def LoopE.bMoves (e : LoopE) (o : Opnd) (dim : Nat) : Nat :=
  (e.levels.foldl (fun (a : Int) l =>
    let t := l.stride o
    if l.role == 3 && t.used && t.dim == dim then a + max 0 (((l.plan - 1 : Nat) : Int) * t.step) else a) 0).toNat

/-- REFUSE.RANGE of R313 for one operand. -/
def LoopE.beyond (e : LoopE) (d : Desc) (o : Opnd) (tk C : Nat) (ext : List (Nat × Nat)) : Bool :=
  d.beyondOb ((List.range 4).map (e.planMax o tk C (d.loc == 2 && (o == .a || o == .c)) ext))

/-- The same for an operand of MMC whose 32 chained positions lie along dimension `dim` (R309). -/
def LoopE.beyondChain (e : LoopE) (d : Desc) (o : Opnd) (tk C : Nat) (ext : List (Nat × Nat)) (dim : Nat) : Bool :=
  d.beyondOb ((List.range 4).map fun k => e.planMax o tk C false ext k + (if k = dim then 31 else 0))

/-- Bytes of `n` elements of a format with their scale bytes, as R312 counts them. -/
def stageBytes (f : Fmt) (n : Nat) : Nat := cdiv (n * f.bits) 8 + (if f.isBlock then cdiv n f.block else 0)

/-- The region of the bias table is reserved on some bay of the set, and the operand would write it (R160): its descriptor's whole
extent is tested, not only what the run-time bounds leave of it (DESIGN CHOICE, log 159). -/
def State.biasHit (s : State) (i : Inst) (d : Desc) : Bool :=
  d.loc == 1 && decide (0x5E0000 < d.endAddr) && i.bays.any fun b => (s.by b).biasReserved

end Sys2Proof.Machine
end

