-- ==== Sys2Proof/Machine/Matrix.lean ====
section
/-!
DEFINITION. MMP, MMW and MMC (R80 to R90, R290 to R319, R361 to R364): the checks at issue, the passes and
drains an instruction forms, its cost, and one pass, one chained tile and one drain of it.
-/

namespace Sys2Proof.Machine

/-! ### Fields (R361, R364) -/

def Inst.isMmc (i : Inst) : Bool := i.opc == 2
def Inst.quad (i : Inst) : Bool := i.b 0 26
def Inst.cplx (i : Inst) : Bool := i.b 0 27 && !i.isMmc
def Inst.tra (i : Inst) : Bool := i.b 0 28
def Inst.trb (i : Inst) : Bool := i.b 0 29
def Inst.trx (i : Inst) : Bool := i.b 0 30 && i.isMmc
def Inst.drms (i : Inst) : Bool := i.b 0 30 && !i.isMmc
def Inst.normf (i : Inst) : Bool := i.b 0 31 && !i.isMmc
def Inst.aN (i : Inst) : Nat := i.f 1 0 5
def Inst.bN (i : Inst) : Nat := i.f 1 5 5
def Inst.cN (i : Inst) : Nat := i.f 1 10 5
def Inst.xN (i : Inst) : Nat := i.f 1 15 5
def Inst.idxN (i : Inst) : Nat := i.f 1 20 5
def Inst.gvN (i : Inst) : Nat := i.f 1 25 5
def Inst.fixa (i : Inst) : Option Int := if i.b 2 10 then some (sextNat 10 (i.f 2 0 10)) else none
def Inst.atom (i : Inst) : Bool := i.b 2 11
def Inst.gath (i : Inst) : Bool := i.b 2 12
def Inst.gain (i : Inst) : Bool := i.b 2 13
def Inst.epsN (i : Inst) : Nat := i.f 2 14 5
def Inst.cfmt (i : Inst) : Nat := i.f 2 19 4
def Inst.chr (i : Inst) : Nat := i.f 2 23 2
def Inst.rsvN (i : Inst) : Nat := i.f 2 25 5
def Inst.cplxF (i : Inst) : Nat := if i.cplx then 2 else 1
def Inst.loop (i : Inst) : LoopE := LoopE.of i.l

/-- The descriptors of product `p` (R85): the streamed, the stationary. -/
def Inst.pA (i : Inst) (p : Nat) : Nat := i.aN + (if p = 1 ∨ p = 3 then 1 else 0)
def Inst.pB (i : Inst) (p : Nat) : Nat := i.bN + (if p = 1 ∨ p = 2 then 1 else 0)

/-- Elements per cell (R66). -/
def cellN (fa fb : Fmt) : Nat :=
  let four := fun (f : Fmt) => f == .e2m1 || f == .n4
  if fa.isWord || fb.isWord then 1
  else if fa == .t2 || fb == .t2 then (if (four fa || fa == .t2) && (four fb || fb == .t2) then 4 else 1)
  else if four fa && four fb then 2 else 1

/-- The products of a tile (R85). -/
def Inst.prods (i : Inst) : List Nat := if i.cplx then [0, 1, 2, 3] else [0]

/-- Elements per cell of an instruction's passes: the least of its products' pairings (log 125). -/
def Inst.cellN (i : Inst) : Nat := (i.prods.map fun q => Machine.cellN (i.desc (i.pA q)).fmt (i.desc (i.pB q)).fmt).foldl min 4
/-- TK (R297). -/
def Inst.tk (i : Inst) : Nat := (if i.quad then 16 else 32) * i.cellN

/-- The word passes of one pair of tiles in order (R84). -/
def wordOrder (wa wb : Nat) : List (Nat × Nat) :=
  (List.range (wa + wb - 1)).reverse.flatMap fun s => (List.range wb).reverse.filterMap fun jb =>
    if jb ≤ s ∧ s - jb < wa then some (s - jb, jb) else none

/-- The word passes of product `q`. -/
def Inst.words (i : Inst) (q : Nat) : List (Nat × Nat) := wordOrder (i.desc (i.pA q)).fmt.words (i.desc (i.pB q)).fmt.words
/-- Word passes of the bed over one bed tile of MMC (R83, R84): the chained operand counts as one word. -/
def Inst.bedWords (i : Inst) : List (Nat × Nat) := wordOrder 1 (i.desc i.xN).fmt.words

/-- The assignees and the place of one. -/
def Inst.place (i : Inst) (ai : Nat) : Place := ⟨i.tk, ai, i.cores.length, i.isMmc⟩

/-- Live slots (R306, R309). -/
def Inst.live (i : Inst) (e : LoopE) (C : Nat) : Nat :=
  if i.isMmc then 1 + cdiv (((e.tile 1).map Level.plan).getD 0) 32 * e.srot
  else i.cplxF * (e.G * (e.U i.tk C * e.srot))

/-- The first slot of a tile in interval `k` (R306). A complex tile takes two slots for each that R306 gives, the second
for the imaginary part (DESIGN CHOICE, log 115). -/
def Inst.tileSlot (i : Inst) (e : LoopE) (p : Place) (k : Nat) (v : List Nat) : Nat :=
  i.slot + i.cplxF * (e.G * (e.U p.tk p.C * (k % e.srot) + e.u p.tk p.C v))
/-- The bed slot of N tile `nb` (R309). -/
def Inst.bedSlot (i : Inst) (e : LoopE) (k nb : Nat) : Nat :=
  i.slot + 1 + cdiv (((e.tile 1).map Level.plan).getD 0) 32 * (k % e.srot) + nb

/-! ### Rows and columns of a tile (R298) -/

/-- The dimension of A that carries rows. -/
def Inst.aRow (i : Inst) : Nat := if i.tra then 0 else 1
def Inst.bCol (i : Inst) : Nat := if i.trb then 0 else 1
def Inst.xCol (i : Inst) : Nat := if i.trx then 0 else 1

/-- The row coordinate of A before gather, without its K position. -/
def Inst.aAt (i : Inst) (e : LoopE) (p : Place) (v : List Nat) (r : Nat) : Coord :=
  e.rowAt .a p v i.aRow ((i.desc i.aN).loc == 2) r

/-- Row `r` of a tile is valid: below the M bound, inside A's shape and inside the index list. -/
def Inst.rowOk (i : Inst) (e : LoopE) (p : Place) (v : List Nat) (r : Nat) : Bool :=
  let x := i.aAt e p v r
  let d := i.desc i.aN
  i.below e 0 (e.gm p v r)
  && (if i.gath then decide (e.gm p v r < (i.desc i.idxN).e0) && (d.hasBut 0 { x with c1 := 0 }) else d.hasBut (1 - i.aRow) x)

def Inst.tileRows (i : Inst) (e : LoopE) (p : Place) (v : List Nat) : List Nat := (List.range e.tm).filter (i.rowOk e p v)

/-- The rows that pass `x` of a tile streams: all of them, or those of its group of 32 in a complex instruction (R85). -/
def Inst.passRows (i : Inst) (e : LoopE) (p : Place) (v : List Nat) (x : Nat) : List Nat :=
  if i.cplx then (i.tileRows e p v).filter fun r => r / 32 == x / 4 else i.tileRows e p v

/-- The streamed row that brings a row of a tile: under the quadrant modifier rows 16 apart come together (R80, R297).
A tile row at or above TM that R297's formula names is no row, whatever TM is (DEDUCED, log 119). -/
def streamOf (quad : Bool) (r : Nat) : Nat := if quad then 16 * (r / 32) + r % 16 else r
def streamed (quad : Bool) (rs : List Nat) : List Nat := dedupNat (rs.map (streamOf quad))

/-- The column coordinate of B, without its K position. In MMC the columns of B run along the chained
dimension. -/
def Inst.bAt (i : Inst) (e : LoopE) (p : Place) (v : List Nat) (j : Nat) : Coord :=
  if i.isMmc then (e.once .b 0 (e.mTile p v * e.tm) (e.origin .b p.ai p.C v false)).add i.bCol j else e.colAt .b p v i.bCol j

/-- Column `n` of E, counted over all N tiles (R89, R309). -/
def Inst.xAt (i : Inst) (e : LoopE) (p : Place) (v : List Nat) (n : Nat) : Coord :=
  let v' := match e.tile 1 with
    | some l => v.set l.pos (n / e.tn)
    | none => v
  e.colAt .x p v' i.xCol (n % e.tn)

/-- The valid columns of the stationary tile B. -/
def Inst.bCols (i : Inst) (e : LoopE) (p : Place) (v : List Nat) : List Nat :=
  let d := i.desc i.bN
  if i.isMmc then (List.range 32).filter fun j => d.hasBut (1 - i.bCol) (i.bAt e p v j) && (i.desc i.xN).hasBut i.xCol ((i.xAt e p v 0).add (1 - i.xCol) j)
  else (List.range e.tn).filter fun j => i.below e 1 (e.nTile v * e.tn + j) && d.hasBut (1 - i.bCol) (i.bAt e p v j)

/-- Where column `j` of row `r` of a tile goes; in MMC column `j` of bed tile `nb`. -/
def Inst.cAt (i : Inst) (e : LoopE) (p : Place) (v : List Nat) (ob : Bool) (r nb j : Nat) : Coord :=
  if i.isMmc then
    let n := 32 * nb + j
    let v' := match e.tile 1 with
      | some l => v.set l.pos (n / e.tn)
      | none => v
    e.outAt p v' ob r (n % e.tn)
  else e.outAt p v ob r j

/-- The valid columns of bed tile `nb`. -/
def Inst.xCols (i : Inst) (e : LoopE) (p : Place) (v : List Nat) (nb : Nat) : List Nat :=
  (List.range 32).filter fun j => i.below e 1 (32 * nb + j) && (i.desc i.xN).hasBut (1 - i.xCol) (i.xAt e p v (32 * nb + j))

/-- Where K begins in the rows of A and in the columns of B: one place each, but where a fold steps the operand along K
from row to row or from column to column (R303). -/
def Inst.aOrgs (i : Inst) (e : LoopE) (p : Place) (v : List Nat) : List Int :=
  dedup (((i.tileRows e p v).map fun r => (i.aAt e p v r).get (1 - i.aRow)))
def Inst.bOrg (i : Inst) (e : LoopE) (p : Place) (v : List Nat) (j : Nat) : Int := (i.bAt e p v j).get (1 - i.bCol)
def Inst.bOrgs (i : Inst) (e : LoopE) (p : Place) (v : List Nat) : List Int :=
  match dedup ((i.bCols e p v).map (i.bOrg e p v)) with
  | [] => [i.bOrg e p v 0]
  | l => l

/-- The K positions of a pass of product `q` in `[lo, hi)` that are below the bound and inside both operands and the gain
vector: for a row of A, with the columns' places in B; for a column of B, with the rows' places in A (R298). A position that is
invalid for one of them has no part in a block's Emax either (DESIGN CHOICE, log 118). -/
def Inst.kPos (i : Inst) (e : LoopE) (p : Place) (v : List Nat) (q : Nat) (as bs : List Int) (lo hi : Int) : List Int :=
  let a := i.desc (i.pA q)
  let b := i.desc (i.pB q)
  let k0 : Int := (e.kTile v * p.tk : Nat)
  let ext := fun (d : Desc) (k : Nat) => if k = 0 then d.e0 else d.e1
  ((List.range (hi - lo).toNat).map fun n => lo + (n : Int)).filter fun kk =>
    decide (0 ≤ k0 + kk) && i.below e 2 (k0 + kk).toNat
    && (as.any fun o => decide (0 ≤ o + kk) && decide (o + kk < (ext a (1 - i.aRow) : Nat)) && (!i.gain || decide (o + kk < ((i.desc i.gvN).e0 : Nat))))
    && bs.any fun o => decide (0 ≤ o + kk) && decide (o + kk < (ext b (1 - i.bCol) : Nat))

/-- The K positions of one row of A. -/
def Inst.rowPos (i : Inst) (e : LoopE) (p : Place) (v : List Nat) (q : Nat) (row : Coord) (lo hi : Int) : List Int :=
  i.kPos e p v q [row.get (1 - i.aRow)] (i.bOrgs e p v) lo hi

/-- The K positions of column `j` of B. -/
def Inst.colPos (i : Inst) (e : LoopE) (p : Place) (v : List Nat) (q j : Nat) (lo hi : Int) : List Int :=
  i.kPos e p v q (i.aOrgs e p v) [i.bOrg e p v j] lo hi

/-- The K range that R49's blocks of a pass lie in: the pass's own positions, or the 32 that hold them. -/
def Inst.kBlock (i : Inst) (e : LoopE) (p : Place) (v : List Nat) : Int × Int :=
  if i.quad && p.tk == 16 then (if e.kTile v % 2 = 1 then (-16, 16) else (0, 32)) else (0, (p.tk : Nat))

/-- The ordinal of a pass along K. -/
def Inst.kOrd (i : Inst) (e : LoopE) (p : Place) (v : List Nat) : Nat :=
  ((e.sorted.zip (i.counts e p)).filter fun q => q.1.role == 2).foldl (fun a q => a * q.2 + v.getD q.1.pos 0) 0

/-- The tile is of the first output column tile (R218). -/
def LoopE.firstCol (e : LoopE) (v : List Nat) : Bool := e.levels.all fun l => l.role != 1 || v.getD l.pos 0 == 0

/-- The key of a row's sum of squares on core `g`. -/
def LoopE.qKey (e : LoopE) (g : Nat) (v : List Nat) (r : Nat) : List Nat :=
  g :: ((e.sorted.filter fun l => l.role == 0 || l.role == 3).map fun l => v.getD l.pos 0) ++ [r]

/-- The key under which product `q` finds a row's sum of squares: under NORMF the real and the imaginary part of a complex
operand are rows of their own, as two NORMs have them (R220). -/
def Inst.qKeyOf (i : Inst) (e : LoopE) (g : Nat) (v : List Nat) (r q : Nat) : List Nat :=
  e.qKey g v r ++ (if i.normf && (q % 4 == 1 || q % 4 == 3) then [1] else [])

/-- The total K length of the instruction. -/
def Inst.kTotal (i : Inst) (e : LoopE) : Nat := ((e.levels.filter fun l => l.role == 2).map i.bound).foldl (· * ·) 1

/-- The index vectors of every K iteration of the tile at `v`. -/
def Inst.walkK (i : Inst) (e : LoopE) (p : Place) (v : List Nat) : List (List Nat) :=
  product (List.zipWith (fun (n : Nat) (l : Level) => if l.role == 2 then n else 1) (i.counts e p) e.sorted) |>.map fun w =>
    List.zipWith (fun (x : Nat) (q : Level × Nat) => if q.1.role == 2 then x else q.2) w (e.sorted.zip v)

/-! ### What an instruction forms -/

/-- One interval's items of MMP and MMW on one assignee: passes in order, then drains. `seen` are the tiles that have
had their first pass in their slots, in this interval or an earlier one (R104, R308). -/
def Inst.mmItems (i : Inst) (e : LoopE) (p : Place) (g : Nat) (k : Nat) (pre : List Nat) (seen : List (List Nat)) :
    List Work × List (List Nat) :=
  let vs := (i.inside e p).map (pre ++ ·)
  let groups := if i.cplx then List.range e.G else [0]
  let ps := vs.foldl (fun (acc : List Work × List (List Nat)) v =>
    let key := i.tileSlot e p k v :: e.tileKey v
    let fresh := !acc.2.contains key
    let items := groups.flatMap fun sg => i.prods.flatMap fun q =>
      let rs := i.passRows e p v (q + 4 * sg)
      if rs.isEmpty then [] else
      (List.range (i.words q).length).zip (i.words q) |>.map fun w =>
        let first := fresh && i.ow && w.1 == 0 && (q == 0 || q == 2)
        { core := g, pass := true, bed := false, rows := (streamed i.quad rs).length,
          slots := dedupNat (rs.map fun r => i.tileSlot e p k v + i.cplxF * (r / 32) + q / 2),
          ix := [0, k, q + 4 * sg, w.2.1, w.2.2, b2n first] ++ v : Work }
    if items.isEmpty then acc else (acc.1 ++ items, key :: acc.2)) (([] : List Work), seen)
  let ts := (i.tilesIn e p).map (pre ++ ·)
  let kind := if i.zeroK e && i.ow then 2 else 1
  let ds := ts.flatMap fun v =>
    if i.gate && e.u p.tk p.C v % 2 == 1 then []
    else (List.range e.G).flatMap fun sg => (List.range i.cplxF).map fun part =>
      let a := i.tileSlot e p k v + i.cplxF * sg + part
      let sl := if i.gate then [a, a + i.cplxF] else [a]
      { core := g, pass := false, bed := false, rows := 0, slots := sl, ix := [kind, k, sg, part] ++ v : Work }
  (ps.1 ++ ds, ps.2)

/-- One interval's items of MMC: runner passes, a chained tile after each group of them, then drains. The first runner pass of
each group overwrites the chain slot, whatever bit [25] says, which rules the bed tiles (R104; DESIGN CHOICE, log 153). -/
def Inst.mmcItems (i : Inst) (e : LoopE) (p : Place) (g : Nat) (k ord : Nat) (pre : List Nat) (seen : List (List Nat)) :
    List Work × List (List Nat) :=
  let vs := (i.inside e p).map (pre ++ ·)
  let group : List Nat → List Nat := fun v => match e.tile 4 with
    | some l => v.take (l.pos + 1)
    | none => e.tileKey v
  let nb := cdiv (i.roleBound e 1) 32
  let bed := (List.range nb).map (i.bedSlot e k)
  let rowsIn := fun (v : List Nat) => (i.tileRows e p v).length
  let live := vs.filter fun v => rowsIn v != 0
  let items := ((List.range live.length).zip live).foldl (fun (acc : List Work × Nat × List (List Nat)) (q : Nat × List Nat) =>
    let v := q.2
    let prev : Option (List Nat) := if q.1 = 0 then none else (live[q.1 - 1]?).map group
    let next : Option (List Nat) := (live[q.1 + 1]?).map group
    let fresh := prev != some (group v)
    let runs := ((List.range (i.words 0).length).zip (i.words 0)).map fun w =>
      { core := g, pass := true, bed := false, rows := rowsIn v, slots := [i.slot],
        ix := [0, k, 0, w.2.1, w.2.2, b2n (fresh && w.1 == 0)] ++ v : Work }
    if next = some (group v) then (acc.1 ++ runs, acc.2.1, acc.2.2)
    else
      let key := k % e.srot :: e.tileKey v
      let chain : Work :=
        { core := g, pass := true, bed := true, rows := rowsIn v * nb * i.bedWords.length, slots := i.slot :: bed,
          parts := List.replicate (nb * i.bedWords.length) ⟨g, true, rowsIn v⟩, ix := [3, k, b2n (i.ow && !acc.2.2.contains key), acc.2.1] ++ v }
      (acc.1 ++ runs ++ [chain], acc.2.1 + 1, key :: acc.2.2)) (([] : List Work), ord, seen)
  let ts := (i.tilesIn e p).map (pre ++ ·)
  let kind := if i.zeroK e && i.ow then 2 else 1
  -- with K = 0 an overwrite zeroes the chain slot too, which R309 names (R115)
  let zs : List Work := if kind = 2 && k == 0 then [{ core := g, pass := false, bed := false, rows := 0, slots := [i.slot], ix := [5] }] else []
  let ds := ts.flatMap fun v => (List.range nb).filterMap fun n =>
    if i.gate && n % 2 == 1 then none
    else some { core := g, pass := false, bed := false, rows := 0,
                slots := if i.gate then [i.bedSlot e k n, i.bedSlot e k (n + 1)] else [i.bedSlot e k n],
                ix := [kind, k, n, 0] ++ v : Work }
  (zs ++ items.1 ++ ds, items.2.2)

/-- Everything an instruction forms on its assignees, in order. A chained tile's ordinal counts from 0 on each core, in
the order that the core visits its tiles (DESIGN CHOICE, log 116). -/
def Inst.mmWork (i : Inst) : List Work :=
  let e := i.loop
  ((List.range i.cores.length).zip i.cores).flatMap fun q =>
    let p := i.place q.1
    if !e.takes p then []
    else
      let pre := i.intervals e p
      (((List.range pre.length).zip pre).foldl (fun (acc : List Work × List (List Nat)) x =>
        let r := if i.isMmc then i.mmcItems e p q.2 x.1 ((acc.1.filter fun w => w.bed).length) x.2 acc.2
          else i.mmItems e p q.2 x.1 x.2 acc.2
        (acc.1 ++ r.1, r.2)) ([], [])).1

/-! ### Checks at issue (R319, R363) -/

/-- Staging demand of R312. -/
def Inst.stageNeed (i : Inst) (e : LoopE) : Nat :=
  let a := i.desc i.aN
  let b := i.desc i.bN
  let rows := if i.quad then e.tm / 2 else if i.cplx then min 32 e.tm else e.tm
  (if a.loc = 2 then 0 else 2 * rows * stageBytes a.fmt i.tk)
  + 2 * stageBytes b.fmt (i.tk * e.tn)
  + (if i.isMmc then 2 * stageBytes (i.desc i.xN).fmt (32 * e.tn) + 2112 else 0)
  + (if i.gath then 2 * e.tm * 4 else 0)
  + (if i.gain then 2 * cdiv (i.tk * (i.desc i.gvN).fmt.bits) 8 else 0)
  + (if i.rsc then 2 * e.tm * 4 else 0)

/-- The cores that R138 denies to an instruction of the class. -/
def State.badPlace (s : State) (i : Inst) (cores : Nat) : Bool :=
  i.bays.any fun b => s.aOn b && (List.range 64).any fun c => bitOf cores c && (if i.cls = 1 then decide (c < 56) else decide (56 ≤ c))

/-- The descriptors that an instruction names. -/
def Inst.mmDescs (i : Inst) : List Desc :=
  let two := fun (n : Nat) => if i.cplx then [i.desc n, i.desc (n + 1)] else [i.desc n]
  two i.aN ++ two i.bN ++ two i.cN ++ (if i.isMmc then [i.desc i.xN] else []) ++ (if i.gain then [i.desc i.gvN] else [])
  ++ (if i.rsc then [i.desc i.rsvN] else [])

def State.mmChecks (s : State) (i : Inst) : List Nat :=
  let e := i.loop
  let a := i.desc i.aN
  let b := i.desc i.bN
  let c := i.desc i.cN
  let x := i.desc i.xN
  let gv := i.desc i.gvN
  let C := i.cores.length
  let roles := if i.isMmc then [0, 1, 2, 3, 4] else [0, 1, 2, 3]
  let kOut := e.dlev != 7 && e.levels.any fun l => l.role == 2 && decide (l.pos ≤ e.dlev)
  let both := fun (f : Desc → Bool) (n : Nat) => f (i.desc n) || (i.cplx && f (i.desc (n + 1)))
  let live := i.live e C
  when ((i.isMmc && (i.quad || i.b 0 27 || i.b 0 31)) || (!i.isMmc && (i.f 1 15 5 != 0 || i.f 2 19 6 != 0)) || i.f 1 30 2 != 0
    || (i.isMmc && i.epsN != 0) || i.f 2 30 2 != 0
    || (!i.gath && i.idxN != 0) || (!i.gain && i.gvN != 0) || (!i.rsc && i.rsvN != 0)
    || (i.cplx && (i.quad || i.aN == 31 || i.bN == 31 || i.cN == 31)) || (i.drms && i.normf) || (i.gath && i.tra)
    || ((i.fixa.isSome || i.atom) && both (fun d => d.fmtCode != 12) i.cN) || (i.atom && both (fun d => d.loc == 2) i.cN)
    || e.badEntry || e.badRole roles || e.badTile [0, 1, 2] i.tra i.trb i.trx || e.badPass
    || (kOut && !(c.fmtCode == 12 && i.atom))
    || (i.gate && !(e.G == 1 && (if i.isMmc then cdiv (((e.tile 1).map Level.plan).getD 0) 32 == 2 else e.U i.tk C == 2)))) Code.encoding
  ++ descCodes i.mmDescs ++ (if i.gath then idxCodes (i.desc i.idxN) else [])
  ++ when (both (fun d => decide (11 ≤ d.fmtCode)) i.aN || both (fun d => decide (11 ≤ d.fmtCode)) i.bN
    || (i.opc == 0 && both (fun d => d.fmt.isWord) i.bN) || (i.tra && both (fun d => d.fmt.isBlock) i.aN) || (i.trb && both (fun d => d.fmt.isBlock) i.bN)
    || (i.drms && both (fun d => !d.fmt.isWord) i.aN) || (i.gain && decide (11 ≤ gv.fmtCode))
    || (i.isMmc && (decide (7 < i.cfmt) || decide (11 ≤ x.fmtCode) || (i.trx && x.fmt.isBlock)))) Code.format
  ++ s.dcCodes i (if i.cplx then [c, i.desc (i.cN + 1)] else [c]) (i.desc i.rsvN) ++ floorCodes i.mmDescs
  ++ when ((i.drms || i.normf) && (epsOf (i.sv i.epsN % 2 ^ 32)).isNone) Code.operand
  ++ s.coreCodes i.bays i.cores
  ++ when (i.badBound e || (i.quad && (e.tm % 2 != 0 || e.tn != 32)) || (i.isMmc && decide (32 < e.tm))) Code.shape
  ++ when (decide (6 < i.slot + live) || decide ((if i.isMmc then 49152 else 24576) < i.stageNeed e)) Code.capacity
  ++ when (both (fun d => e.beyond d .a i.tk C [(0, i.aRow), (2, 1 - i.aRow)]) i.aN || (if i.isMmc then e.beyondChain b .b i.tk C [(2, 1 - i.bCol)] i.bCol || e.beyondChain x .x i.tk C [(1, i.xCol)] (1 - i.xCol)
      else both (fun d => e.beyond d .b i.tk C [(1, i.bCol), (2, 1 - i.bCol)]) i.bN)
    || both (fun d => e.beyond d .c i.tk C [(0, 1), (1, 0)]) i.cN
    || (i.gath && e.vecBeyond (i.desc i.idxN)) || (i.rsc && e.vecBeyond (i.desc i.rsvN))
    || (i.gain && gv.beyondOb [e.planMax .a i.tk C (a.loc == 2) [(0, i.aRow), (2, 1 - i.aRow)] (1 - i.aRow)])
    || both (s.biasHit i) i.cN) Code.range
  ++ when ((decide (i.slot + live ≤ 6) && s.badSlots i i.slot live)
    || ((i.isMmc || i.drms || i.normf) && s.badPlace i e.cores)) Code.slot

/-! ### Cost (R76, R358 to R360) -/

/-- The cost of a list of passes on one array: rows and load length of each. -/
def arrayCost (ps : List (Nat × Nat)) : Nat :=
  ((ps.foldl (fun (acc : Nat × Nat) q => (acc.1 + q.1 + 8 + (q.2 - acc.2), q.1)) (0, 0))).1

/-- CCLK cycles that a pass's stationary tile takes to load: one for each valid cell row (R74); under the quadrant modifier one
for two cell rows of the quadrants that have a tile (R81). -/
def Inst.loadLen (i : Inst) (e : LoopE) (p : Place) (v : List Nat) : Nat :=
  let cs := i.bCols e p v
  let cells := cdiv (dedup (cs.flatMap fun j => i.colPos e p v 0 j 0 (p.tk : Nat))).length i.cellN
  if !i.quad then cells
  else cdiv (cells * (dedupNat ((i.tileRows e p v).map fun r => r % 32 / 16)).length * (dedupNat (cs.map (· / 16))).length) 2

/-- C_core of an array instruction. -/
def Inst.mmCost (i : Inst) : Nat :=
  let e := i.loop
  let ws := i.mmWork
  maxOr 0 (((List.range i.cores.length).zip i.cores).map fun q =>
    let p := i.place q.1
    let mine := ws.filter fun w => w.core == q.2
    let run := (mine.filter fun w => w.pass && !w.bed).map fun w =>
      (w.rows, i.loadLen e p (w.ix.drop 6))
    let chains := mine.filter fun w => w.bed
    let bed := chains.flatMap fun w =>
      let v := w.ix.drop 4
      w.parts.map fun z => (z.rows, (i.bCols e p v).length)
    let dr := (mine.filter fun w => !w.pass).map fun w => if w.ix.headD 0 = 5 then 1 else if i.gate then 72 else 40
    let nf := if i.normf then
        ((((mine.filter fun w => w.pass).map fun w => w.ix.drop 6).foldl (fun (acc : List (List Nat)) v =>
          if acc.any fun x => e.qKey 0 x 0 == e.qKey 0 v 0 then acc else v :: acc) []).map fun v =>
        (i.tileRows e p v).length * (cdiv (i.kTotal e) 32 + 1)).sum
      else 0
    arrayCost run + arrayCost bed + 12 * chains.length + dr.sum + nf)

/-- Line addresses in external memory of a list of spans, ascending. -/
def extSorted (sp : List Span) : List Nat := (extLines 64 sp).mergeSort (· ≤ ·)

/-- The memory accesses of an array instruction in R359's order. The rows that a gather names are not known
at issue: A's whole extent stands for them (log 25). -/
def Inst.mmAddrs (i : Inst) : List Nat :=
  let e := i.loop
  let relayed := e.relays
  let whole := fun (d : Desc) => (⟨d.loc, d.base, d.unitAddr (d.lastUnit + 1) - d.base⟩ : Span)
  let aOf := fun (p : Place) (v : List Nat) (x : Nat) =>
    let q := x % 4
    let d := i.desc (i.pA q)
    if i.gath then extSorted [whole d]
    else extSorted ((i.passRows e p v x).flatMap fun r =>
      let c := i.aAt e p v r
      (i.rowPos e p v q c 0 (p.tk : Nat)).flatMap fun kk => d.spans (c.add (1 - i.aRow) kk))
  let bOf := fun (p : Place) (v : List Nat) (q : Nat) =>
    let d := i.desc (i.pB q)
    extSorted ((i.bCols e p v).flatMap fun j => (i.colPos e p v q j 0 (p.tk : Nat)).flatMap fun kk => d.spans ((i.bAt e p v j).add (1 - i.bCol) kk))
  let idx := fun (p : Place) (v : List Nat) =>
    if i.gath then extSorted ((i.tileRows e p v).flatMap fun r => (i.desc i.idxN).spans ⟨(e.gm p v r : Nat), 0, 0, 0⟩) else []
  let gvA := fun (p : Place) (v : List Nat) =>
    if i.gain then
      extSorted ((i.aOrgs e p v).flatMap fun o => (i.kPos e p v 0 [o] (i.bOrgs e p v) 0 (p.tk : Nat)).flatMap fun kk => (i.desc i.gvN).spans ⟨o + kk, 0, 0, 0⟩)
    else []
  let cOf := fun (p : Place) (v : List Nat) (sg nb part : Nat) =>
    let d := i.desc (i.cN + part)
    let ob := d.loc == 2
    let rows := (i.tileRows e p v).filter fun r => r / 32 == sg || i.isMmc
    extSorted (rows.flatMap fun r => (if i.isMmc then i.xCols e p v nb else i.bCols e p v).flatMap fun j =>
      let x := i.cAt e p v ob r nb j
      if d.has x then d.spans x else [])
  ((List.range i.cores.length).zip i.cores).flatMap fun q =>
    let p := i.place q.1
    let own := !relayed || !((i.cores.take q.1).any fun g => g / 64 == q.2 / 64)
    ((i.mmWork.filter fun w => w.core == q.2).foldl (fun (acc : List Nat × List (List Nat)) w =>
      let out := match w.ix with
      | 0 :: _ :: pr :: _ :: _ :: _ :: v =>
        -- the first read of each row under NORMF (R220, log 122)
        (if i.normf && !acc.2.contains (i.qKeyOf e 0 v 0 pr) then (i.walkK e p v).flatMap fun z => aOf p z pr else [])
        ++ aOf p v pr ++ (if own then bOf p v (pr % 4) else []) ++ idx p v ++ gvA p v
      | 3 :: _ :: _ :: _ :: v =>
        if !own then [] else
        (List.range (w.slots.length - 1)).flatMap fun nb => extSorted ((i.xCols e p v nb).flatMap fun j =>
          (i.bCols e p v).flatMap fun k => (i.desc i.xN).spans ((i.xAt e p v (32 * nb + j)).add (1 - i.xCol) k))
      | _ :: _ :: sg :: part :: v =>
        cOf p v sg sg part
        ++ (if i.rsc then extSorted ((i.tileRows e p v).flatMap fun r => (i.desc i.rsvN).spans ⟨(e.gm p v r : Nat), 0, 0, 0⟩) else [])
      | _ => []
      (acc.1 ++ out, if w.pass && !w.bed then i.qKeyOf e 0 (w.ix.drop 6) 0 (w.ix.getD 2 0) :: acc.2 else acc.2)) ([], [])).1

/-- The target headers of the drains of MMP, MMW or MMC with ATOM. -/
def Inst.mmHeads (i : Inst) : List Nat :=
  if !i.atom then [] else
  let e := i.loop
  dedupNat (((List.range i.cores.length).zip i.cores).flatMap fun q =>
    let p := i.place q.1
    (i.mmWork.filter fun w => w.core == q.2 && !w.pass).flatMap fun w => match w.ix with
      | _ :: _ :: sg :: part :: v =>
        let d := i.desc (i.cN + part)
        (((i.tileRows e p v).filter fun r => r / 32 == sg || i.isMmc).take 1).flatMap fun r =>
          let x := i.cAt e p v (d.loc == 2) r sg 0
          if d.has x then d.headAt x else []
      | _ => [])

/-! ### Reading a pass's operands -/

/-- One vector along K of an operand: values, scale exponents, the values of its R49 block, and the K positions of the values
(none given where all vectors of a pass share theirs). -/
structure KVec where
  vals : List Ext
  exps : List (Option Int)
  blk : List Ext
  pos : List Int := []
  deriving DecidableEq, Repr

/-- Word `j` of a vector: values and exponents (R49, R106). A block with no finite nonzero element has no Emax: its words are
zero and count no scale exponent (DESIGN CHOICE, log 150). -/
def KVec.word (k : KVec) (f : Fmt) (j : Nat) : List Ext × List (Option Int) :=
  if !f.isWord then (k.vals, k.exps)
  else match blockEmax f k.blk with
    | none => (k.vals.map fun _ => .fin false 0, k.vals.map fun _ => none)
    | some em =>
      let we := wordScaleExp f em j
      (k.vals.map fun x => Ext.ofRat (((splitElem f em x).getD j 0 : ℚ) * pow2 we), k.vals.map fun _ => some we)

/-- The product of one pair in a word pass: tagged elements act in the first word pass only (R50, R83). -/
def pairMul (mw first : Bool) (a b aw bw : Ext) : Ext :=
  if mw && (!a.isFin || !b.isFin) then (if first then a.mul b else .fin false 0) else aw.mul bw

/-- The pairs of two vectors along K at the positions that both hold: a position that one lacks is masked (R77). -/
def joinPos {α β : Type} (ps qs : List Int) (xs : List α) (ys : List β) : List (α × β) :=
  if ps = qs then xs.zip ys
  else (ps.zip xs).filterMap fun x => ((qs.zip ys).find? fun y => y.1 == x.1).map fun y => (x.2, y.2)

/-- Scale exponents placed at K positions 0 to `n - 1`. -/
def spreadPos (n : Nat) (ps : List Int) (es : List (Option Int)) : List (Option Int) :=
  if ps = (List.range ps.length).map fun (k : Nat) => (k : Int) then es
  else (List.range n).map fun k => (((ps.zip es).find? fun x => x.1 == (k : Int)).map Prod.snd).getD none

/-- The column sums of one row: every valid K position of each column (R66 to R68, R77). -/
def rowSums (mw first neg : Bool) (a : KVec) (aw : List Ext) (cols : List BankCol) : List (Nat × Ext) :=
  cols.map fun c =>
    let t := colSum ((joinPos a.pos c.pos (a.vals.zip aw) (c.vals.zip c.word)).map fun z => pairMul mw first z.1.1 z.2.1 z.1.2 z.2.2)
    (c.col, if neg then t.negate else t)

/-- A column of a stationary tile as a pass on word `j` loads it. -/
def KVec.bankCol (k : KVec) (f : Fmt) (j col : Nat) : BankCol := let w := k.word f j; ⟨col, k.vals, w.1, w.2, k.pos⟩

/-- Load the stationary tile of the next pass of an array into its other bank (R73, R74). -/
def State.loadBank (s : State) (g : Nat) (bed : Bool) (t : List BankCol) : State :=
  s.onCo g fun x =>
    let b := !(if bed then x.bankBed else x.bankRun)
    let y := { x with banks := Map.set [] x.banks (2 * b2n bed + b2n b) t }
    if bed then { y with bankBed := b } else { y with bankRun := b }

/-- The bank that the streamed rows of the current pass name (R73). -/
def State.bank (s : State) (g : Nat) (bed : Bool) : List BankCol :=
  let x := s.co g
  Map.get [] x.banks (2 * b2n bed + b2n (if bed then x.bankBed else x.bankRun))

/-- Write a chained tile into the other bank of a core's chain buffer (R89). -/
def State.putChain (s : State) (g : Nat) (bs : List Byte) : State :=
  s.onCo g fun x => { x with chainBit := !x.chainBit, chain := Map.set [] x.chain (b2n !x.chainBit) bs }

/-- Element values and scale exponents along K of a vector at `c`, moved along dimension `kd`. -/
def Desc.kvec (d : Desc) (v : View) (c : Coord) (kd : Nat) (pos blk : List Int) : KVec :=
  { vals := pos.map fun k => d.val v (c.add kd k),
    exps := pos.map fun k => scaleExp d.fmt (if d.fmt.isBlock then d.scaleByte v (c.add kd k) else 0),
    blk := blk.map fun k => d.val v (c.add kd k), pos := pos }

/-- The prologue of one row (R318, R218): gain applied and rounded into the operand's own format. The values
and exponents after it, with the counts. `pos` are K coordinates. Values, ERR2 and SIG2 are taken without a tensor
scale, which the drain applies (DESIGN CHOICE, log 113). -/
def Inst.gainRow (i : Inst) (d : Desc) (dn : Nat) (c : Coord) (kd : Nat) (g : List Ext) (pos : List Int) (xs : List Ext) :
    List Ext × List (Option Int) × Counts :=
  let ps := List.zipWith Ext.mul xs g
  let rnd := fun (k : Int) => if i.drms then Rnd.rne else i.rndAt dn (d.linear (c.add kd k)) 0
  let bs := convRow d.fmt i.hr 1 (ps.zip (pos.map rnd))
  let exps := bs.flatMap fun b => b.vals.map fun _ => scaleExp d.fmt b.scale
  (bs.flatMap Block.vals, exps, if d.fmt.counted && !i.drms then sumCounts bs else Counts.zero)

/-- The row of the faithful two-pass form (R220): conv(x × ρ × g) at the positions of this pass. -/
def Inst.normRow (i : Inst) (d : Desc) (dn : Nat) (c : Coord) (kd : Nat) (rho : Option ℚ) (g : List Ext) (pos : List Int) (xs : List Ext) :
    List Ext × List (Option Int) × Counts :=
  let ps : List Ext := match rho with
    | none => xs.map fun _ => .nan
    | some k => if k = 0 then xs.map fun _ => .fin false 0 else List.zipWith (fun x y => (x.scale (k * d.ts)).mul y) xs g
  let bs := convRow d.fmt 0 d.ts (ps.zip (pos.map fun k => i.rndAt dn (d.linear (c.add kd k)) 0))
  let exps := bs.flatMap fun b => b.vals.map fun _ => scaleExp d.fmt b.scale
  let vals := (bs.flatMap Block.vals).map fun x => x.scale (1 / d.ts)
  (vals, exps, if d.fmt.counted then sumCounts bs else Counts.zero)

/-- One streamed row ready for the array. -/
structure MRow where
  r : Nat
  mute : Bool
  vec : KVec
  deriving DecidableEq, Repr

/-- The gather list's answer for a row (R316): a row of A, zeros, or a bad entry. -/
inductive Gat where
  | row (k : Nat)
  | zeros
  | bad (k : Nat)
  deriving DecidableEq, Repr

def gatOf (x : Nat) (rows : Nat) : Gat :=
  let k := sextNat 32 x
  if k = -1 then .zeros else if 0 ≤ k ∧ k < rows then .row k.toNat else .bad x

/-- The row coordinate of A at another K iteration. -/
def Inst.reAt (i : Inst) (e : LoopE) (p : Place) (w : List Nat) (c : Coord) (r : Nat) : Coord :=
  let x := i.aAt e p w r
  if i.gath then { x with c1 := c.c1 } else x

/-- Distinct spans. -/
def dedupSpan : List Span → List Span
  | [] => []
  | x :: xs => x :: (dedupSpan xs).filter fun y => y != x

/-- The streamed rows of one pass on core `g`, with their prologues. -/
structure Rows where
  s : State
  rows : List MRow
  bad : Bool
  fault : Option Nat
  t2 : Bool
  /-- a program-region block of another domain that the rows would read (R314) -/
  foreign : Option Nat

/-- What a prologue leaves of its block at the positions of the pass. -/
def pickAt {α : Type} (blk pos : List Int) (xs : List α) : List α := ((blk.zip xs).filter fun z => pos.contains z.1).map Prod.snd

/-- Read and prepare the rows of pass `x` of a tile; `first` marks the first word pass of its product. -/
def State.mmRows (s : State) (i : Inst) (p : Place) (g x : Nat) (first : Bool) (v : List Nat) (tgt : List Tgt) : Rows :=
  let e := i.loop
  let q := x % 4
  let dn := i.pA q
  let d := i.desc dn
  let kd := 1 - i.aRow
  let rs := i.passRows e p v x
  let ix := i.desc i.idxN
  let isp := if i.gath then rs.flatMap fun r => ix.spans ⟨(e.gm p v r : Nat), 0, 0, 0⟩ else []
  let f0 := s.fetch i.n g true tgt isp
  let gat : Nat → Gat := fun r => if i.gath then gatOf (ix.raw f0.2.1 ⟨(e.gm p v r : Nat), 0, 0, 0⟩) d.e1 else .row 0
  let at' : Nat → Coord := fun r =>
    let c := i.aAt e p v r
    match gat r with
    | .row k => if i.gath then { c with c1 := (k : Nat) } else c
    | _ => c
  let live := rs.filter fun r => match gat r with | .row _ => true | _ => false
  let bl := i.kBlock e p v
  let pos := fun (r : Nat) => i.rowPos e p v q (at' r) 0 (p.tk : Nat)
  let blk := fun (r : Nat) => i.rowPos e p v q (at' r) bl.1 bl.2
  let known := fun (r : Nat) => (i.rowQ.find? fun y => y.1 == i.qKeyOf e g v r q).map Prod.snd
  -- under NORMF the first pass that meets a row reads all of it first (R220, log 122)
  let all := fun (r : Nat) => if i.normf && (known r).isNone then (i.walkK e p v).flatMap fun w => (i.rowPos e p w q (i.reAt e p w (at' r) r) 0 (p.tk : Nat)).map fun kk => (i.reAt e p w (at' r) r).add kd kk else []
  let qsp := live.flatMap fun r => (all r).flatMap d.spans
  let asp := live.flatMap fun r => dedupSpan ((blk r ++ pos r).flatMap fun kk => d.spans ((at' r).add kd kk))
  let gv := i.desc i.gvN
  let gco := fun (r : Nat) (kk : Int) => (⟨(at' r).get kd + kk, 0, 0, 0⟩ : Coord)
  let gsp := if i.gain then live.flatMap fun r => dedupSpan ((blk r ++ pos r).flatMap fun kk => gv.spans (gco r kk)) else []
  match s.foreignBlock g i.dom (isp ++ qsp ++ asp ++ gsp) with
  | some b => ⟨s, [], false, none, false, some b⟩
  | none =>
  let fq := f0.1.fetch i.n g true tgt qsp
  let f1 := fq.1.fetch i.n g true tgt (asp ++ gsp)
  let vw := f1.2.1
  let eps := (epsOf (i.sv i.epsN % 2 ^ 32)).getD 0
  let fault := rs.findSome? fun r => match gat r with | .bad k => some k | _ => none
  let note := fun (s : State) (r : Nat) (st : RowStat) =>
    (s.onInst i.n fun j => { j with rowQ := (i.qKeyOf e g v r q, st) :: j.rowQ.filter fun y => y.1 != i.qKeyOf e g v r q }).onStat g (r % 32) fun _ => st
  let out := rs.foldl (fun (acc : State × List MRow × Bool) r =>
    match gat r with
    | .row _ =>
      let c := at' r
      let ps := pos r
      let bs := blk r
      let base := d.kvec vw c kd ps bs
      let gs := fun (l : List Int) => l.map fun kk => if i.gain then gv.valTs vw (gco r kk) else Ext.fin false 1
      let t2 := ps.any fun kk => d.t2bad vw (c.add kd kk) || (i.gain && gv.t2bad vw (gco r kk))
      let cnt := first && (q == 0 || q == 1)
      -- the deferred form adds the squares of the first column tile's rows (R218)
      let s1 := if i.drms && cnt && e.firstCol v then
          let ord := i.kOrd e p v * i.cplxF + (if q = 1 then 1 else 0)
          let old := (((acc.1.inst i.n).getD i).rowQ.find? fun y => y.1 == e.qKey g v r).map Prod.snd
          note acc.1 r ((old.getD {}).group i.seed.toNat i.issue g (r % 32) ord false base.vals)
        else acc.1
      -- a prologue converts whole blocks; the pass takes its own positions of them
      let pick := fun (s : State) (y : List Ext × List (Option Int) × Counts) =>
        (s, KVec.mk (pickAt bs ps y.1) (pickAt bs ps y.2.1) y.1 ps, if bs.head? == ps.head? then y.2.2 else Counts.zero)
      let res : State × KVec × Counts :=
        if i.normf then
          let q := (known r).getD (
            let xs := (all r).map fun y => d.valTs fq.2.1 y
            ((List.range (cdiv xs.length 32)).zip (chunks 32 xs.length xs)).foldl
              (fun (st : RowStat) z => st.group i.seed.toNat i.issue g (r % 32) z.1 false z.2) ({} : RowStat))
          let rho := rowRho q (i.kTotal e : Nat) eps
          pick (if (known r).isNone then note s1 r q else s1) (i.normRow d dn c kd rho (gs bs) bs base.blk)
        else if i.gain then pick s1 (i.gainRow d dn c kd (gs bs) bs base.blk)
        else (s1, base, Counts.zero)
      let s2 := if cnt && (i.gain || i.normf) && (e.firstCol v || !i.normf) then res.1.count i.n i.strm res.2.2 else res.1
      (s2, acc.2.1 ++ [⟨r, false, res.2.1⟩], acc.2.2 || t2)
    | _ => (acc.1, acc.2.1 ++ [⟨r, true, ⟨[], [], [], []⟩⟩], acc.2.2)) (f1.1, [], false)
  ⟨out.1, out.2.1, f0.2.2 || fq.2.2 || f1.2.2, fault, out.2.2, none⟩

/-! ### Stationary tiles (R91, R92, R300) -/

/-- The core of a bay that forwards a relayed tile to core `c`. -/
def relayParent (c : Nat) : Option Nat := if c % 8 = 0 then (if c = 0 then none else some (c - 8)) else some (c - 1)

/-- Bay dispatch delivers a relayed tile to core `c` of bay `b` itself: it is core 0, or its parent is fenced. -/
def State.relayRoot (s : State) (b c : Nat) : Bool := match relayParent c with
  | none => true
  | some k => s.coreFenced (64 * b + k)

/-- Where core `c` gets a relayed tile from: the first core on its way back that bay dispatch delivers to. -/
def State.relayFrom (s : State) (b : Nat) : Nat → Nat → Nat
  | 0, c => c
  | k + 1, c => if s.relayRoot b c then c else match relayParent c with
    | none => c
    | some d => s.relayFrom b k d

/-- The bytes of the three memories at a core, with no request. -/
def State.view (s : State) (g : Nat) : View :=
  let x := s.co g
  let b := s.by (g / 64)
  { ext := fun a => s.granByte a, bay := fun a => Map.get 0 b.mem a, ob := fun a => Map.get 0 x.ob a }

/-- The instruction's stationary tiles are relayed (R300): the B and X words of a paged attention move nothing (R555). -/
def Inst.relays (i : Inst) : Bool := decide (i.opc ≤ 0x21) && ((decide (0x20 ≤ i.opc) && i.f 1 30 2 != 0) || i.loop.relays)

/-- What names the stationary tiles of an item to the relay: items of several cores with one key use the same tiles. An item of
ATTF or ATTB has its page group, its key tile and the indices of its sliver's levels. -/
def Inst.tileKey (i : Inst) (w : Work) : List Nat :=
  if i.opc < 0x20 then w.ix else w.ix.headD 0 :: (w.ix.drop 2).take 2 ++ w.ix.drop 5

/-- Fetch a stationary tile for item `w` into slots `ks` of core `g`: a relayed tile is read once for its bay and once more for
each core whose parent in the relay is fenced, and its data and its poison reach every core with the item (R91 to R93). -/
def State.fetchTile (s : State) (i : Inst) (g : Nat) (w : Work) (ks : List Nat) (sp : List Span) : State × View × Bool :=
  let b := g / 64
  match i.staging with
  | .fetching _ _ _ =>
    if !i.relays then s.fetch i.n g true (ks.map (Tgt.slot g ·)) sp
    else if i.relayed.contains (b, i.tileKey w) then (s, s.view g, false)
    else
      -- the items that use the tile, each with the core of its own that the tile reaches
      let all := (i.work.filter fun x => x.core / 64 == b && x.pass && i.tileKey x == i.tileKey w).map fun x => (x, x.core + (g - w.core))
      let roots := (List.range 64).filter fun c => !s.coreFenced (64 * b + c) && s.relayRoot b c
      roots.foldl (fun (acc : State × View × Bool) r =>
        let mine := all.filter fun x => s.relayFrom b 15 (x.2 % 64) == r
        let q := acc.1.fetch i.n g true (mine.flatMap fun x => ks.map fun k => Tgt.work i.n x.1.core x.1.ix (some (x.2, k))) sp
        (q.1, q.2.1, acc.2.2 || q.2.2)) (s, s.view g, false)
  | _ => s.fetch i.n g true (ks.map (Tgt.slot g ·)) sp

/-! ### One pass, one chained tile, one drain -/

/-- Faults before a read: a program-region block of another domain (R314). -/
def State.obCheck (s : State) (i : Inst) (g : Nat) (sp : List Span) : Option State := (s.foreignBlock g i.dom sp).map fun b => s.obFault i.n g b

/-- A member of a joined pass: the instruction and the slot row its tile begins at on the core (R428). -/
abbrev Mate := Inst × Nat

/-- The entries of columns `ks` of slot row `r`: a masked column adds zero (R77, R108). -/
def fillRow (r : Nat) (ks : List Nat) (cs : List (Nat × Ext)) : List (Nat × Ext) :=
  ks.map fun c => (32 * r + c, ((cs.find? fun x => x.1 == c).map Prod.snd).getD (.fin false 0))

/-- The streamed rows of a pass that fall in its slot `sg`, each with the anchor keys it writes under (R71, R80;
its rows are those below TM, DEDUCED, log 119). -/
def slotRows (quad : Bool) (rows : List (Nat × List (Nat × Ext))) (sg : Nat) : List (List (Nat × List (Nat × Ext))) :=
  let mine := rows.filter fun r => r.1 / 32 == sg
  if quad then
    (List.range 16).filterMap fun k =>
      let l := mine.filter fun r => r.1 % 16 == k
      if l.isEmpty then none
      else some (l.flatMap fun r =>
        let rr := r.1 % 32
        [(2 * (rr / 16), fillRow rr (List.range 16) r.2), (2 * (rr / 16) + 1, fillRow rr ((List.range 16).map (16 + ·)) r.2)])
  else mine.map fun r => [(0, fillRow (r.1 % 32) (List.range 32) r.2)]

/-- How many of the first `n` streamed rows of a pass fall in its slot `sg`. -/
def cutRows (quad : Bool) (rs : List Nat) (sg n : Nat) : Nat :=
  (((streamed quad rs).take n).filter fun k => k / (if quad then 16 else 32) == sg).length

/-- One pass of MMP, MMW or MMC's runner array (R71, R83, R85, R104 to R113). -/
def State.mmPass (s : State) (ms : List Mate) (g : Nat) (w : Work) (bed : Bool) : State :=
  match ms, w.ix with
  | (i, _) :: _, _ :: _ :: x :: ja :: jb :: first :: v =>
    let e := i.loop
    let q := x % 4
    let p := i.place (i.cores.idxOf g)
    let a := i.desc (i.pA q)
    let b := i.desc (i.pB q)
    let mw := a.fmt.isWord || b.fmt.isWord
    let fw := ((i.words q).headD (0, 0)) == (ja, jb)
    let ow := first == 1
    let base := if i.isMmc then i.slot else i.tileSlot e p (w.ix.getD 1 0) v + q / 2
    let slotOf := fun (r : Nat) => base + i.cplxF * (r / 32)
    let slots := dedupNat (ms.flatMap fun m => (m.1.passRows e p v x).map fun r => slotOf (m.2 + r))
    let tgt := slots.map (Tgt.slot g ·)
    match (if ow then none else slots.find? fun k => s.foreignSlot g k i.dom) with
    | some k => s.slotFault i.n g k
    | none =>
      -- the stationary tile
      let cols := i.bCols e p v
      let bl := i.kBlock e p v
      let pos := fun (j : Nat) => i.colPos e p v q j 0 (p.tk : Nat)
      let blk := fun (j : Nat) => i.colPos e p v q j bl.1 bl.2
      let bk := 1 - i.bCol
      let bsp := cols.flatMap fun j => dedupSpan ((blk j ++ pos j).flatMap fun kk => b.spans ((i.bAt e p v j).add bk kk))
      match s.obCheck i g bsp with
      | some t => t
      | none =>
        let fb := s.fetchTile i g w slots bsp
        let bt2 := cols.any fun j => (pos j).any fun kk => b.t2bad fb.2.1 ((i.bAt e p v j).add bk kk)
        let s0 := fb.1.loadBank g bed (cols.map fun j => (b.kvec fb.2.1 (i.bAt e p v j) bk (pos j) (blk j)).bankCol b.fmt jb j)
        -- the streamed rows of every member
        let acc := ms.foldl (fun (acc : State × List (Inst × Nat × MRow) × Bool × List (Inst × Nat) × List Nat) m =>
          let r := acc.1.mmRows m.1 p g x fw v tgt
          match r.foreign with
          | some k => (acc.1.obFault m.1.n g k, acc.2)
          | none => (r.s, acc.2.1 ++ r.rows.map (fun x => (m.1, m.2, x)), acc.2.2.1 || r.bad,
              acc.2.2.2.1 ++ (match r.fault with | some k => [(m.1, k)] | none => []), if r.t2 then m.1.n :: acc.2.2.2.2 else acc.2.2.2.2)) (s0, [], fb.2.2, [], [])
        let s1 := acc.1
        if acc.2.1.isEmpty then s1 else
        match acc.2.2.2.1 with
        | (j, k) :: _ =>
          -- R316: the entry faults; the slots written are poisoned and the instruction's work ends
          let s2 := slots.foldl (fun s k => s.poisonTgt (.slot g k)) s1
          let s3 := j.wrote.foldl (fun s x => s.poisonTgt (.slot x.1 x.2)) s2
          (s3.instFault j.n { code := Code.fGather, unit := 0x10 + g / 64, detail := k }).onInst j.n fun y => { y with work := [] }
        | [] =>
          let bw := s1.bank g bed
          let rows := acc.2.1.map fun x =>
            let y := x.2.2
            let wd := y.vec.word a.fmt ja
            let sums := if y.mute then bw.map fun c => (c.col, Ext.fin false 0) else rowSums mw fw (q == 1) y.vec wd.1 bw
            (x.1, x.2.1 + y.r, sums, if y.mute then [] else spreadPos p.tk y.vec.pos wd.2)
          let ga := if a.fmt.isWord then 7 else a.fmt.leadG
          let gb := if b.fmt.isWord then 7 else b.fmt.leadG
          let s2 := slots.foldl (fun s k =>
            let sg := (k - base) / i.cplxF
            let mine := rows.filter fun r => r.2.1 / 32 == sg
            let tau := fun (key : Nat) =>
              let rr := if i.quad then mine.filter fun r => r.2.1 % 32 / 16 == key / 2 else mine
              let cc := if i.quad then bw.filter fun c => c.col / 16 == key % 2 else bw
              termBound ga gb (rr.map fun r => r.2.2.2) (cc.map fun c => spreadPos p.tk c.pos c.exps)
            let rs := slotRows i.quad (mine.map fun r => (r.2.1, r.2.2.1)) sg
            let d : Draws := ⟨i.seed.toNat, 0, g, k, 0, i.cut.map (cutRows i.quad (rows.map fun r => r.2.1) sg ·)⟩
            s.putSlot g k ((s.slot g k).pass d ow i.quad i.dom tau rs acc.2.2.1)) s1
          (ms.filter fun m => rows.any fun r => r.1.n == m.1.n).foldl (fun s m => (s.onInst m.1.n fun y =>
            { y with wrote := (slots.map fun k => (g, k)).foldl (fun l x => if l.contains x then l else x :: l) y.wrote }).t2Event m.1.n (bt2 || acc.2.2.2.2.contains m.1.n)) s2
  | _, _ => s

/-- The bytes of one converted row in the chain buffer (R89): its elements, its scales, zeros up to `stride` (log 121). -/
def chainRow (f : Fmt) (stride : Nat) (bs : List Block) : List Byte :=
  let b := bs.flatMap (fun b => packBits f.bits (cdiv (b.elems.length * f.bits) 8) b.elems) ++ bs.map fun b => BitVec.ofNat 8 b.scale
  b ++ zeroBytes (stride - b.length)

/-- One chained tile of MMC (R86 to R89, R309): the chain slot's rows are converted into the chain buffer and streamed
against every bed tile. -/
def State.mmcChain (s : State) (i : Inst) (g : Nat) (w : Work) : State :=
  match w.ix with
  | _ :: _ :: first :: ord :: v =>
    let e := i.loop
    let p := i.place (i.cores.idxOf g)
    let x := i.desc i.xN
    let beds := w.slots.tail
    let ow := first == 1
    match (i.slot :: (if ow then [] else beds)).find? fun k => s.foreignSlot g k i.dom with
    | some k => s.slotFault i.n g k
    | none =>
      let ch := s.slot g i.slot
      let rows := i.tileRows e p v
      let ks := i.bCols e p v
      let f := (Fmt.ofCode i.cfmt).getD .e4m3
      -- CONVERT (R88)
      let conv := rows.map fun r =>
        let vals := (List.range 32).map fun c => if ks.contains c then ch.val (32 * r + c) else Ext.fin false 0
        let rnd := (List.range 32).map fun c => rndOf i.rnd (srDraw i.seed.toNat 16 i.issue (1024 * g + 32 * r + c) ord)
        (r, convRow f i.chr 1 (vals.zip rnd))
      let cnt := conv.foldl (fun (a : Counts) c => a.add (sumCounts c.2)) Counts.zero
      let buf := (List.range 32).flatMap fun r => match conv.find? fun c => c.1 == r with
        | some c => chainRow f 33 c.2
        | none => zeroBytes 33
      let arow := conv.map fun c =>
        let vs := c.2.flatMap fun b => b.elems.map fun x => scaled (decodeElem f x) (decodeScale f b.scale)
        let es := c.2.flatMap fun b => b.elems.map fun _ => scaleExp f b.scale
        (c.1, KVec.mk (ks.map fun k => vs.getD k (.fin false 0)) (ks.map fun k => es.getD k none) [] (ks.map fun k => ((k : Nat) : Int)))
      let xk := 1 - i.xCol
      let sp := (List.range beds.length).flatMap fun nb => (i.xCols e p v nb).flatMap fun j =>
        dedupSpan (ks.flatMap fun k => x.spans ((i.xAt e p v (32 * nb + j)).add xk k))
      match s.obCheck i g sp with
      | some t => t
      | none =>
        let fx := s.fetchTile i g w beds sp
        let bad := fx.2.2 || ch.poisoned
        let s1 := (fx.1.putChain g buf).count i.n i.strm cnt
        let kz := ks.map fun k => ((k : Nat) : Int)
        let runs := (List.range beds.length).flatMap fun nb => (List.range i.bedWords.length).map fun z => (nb, z)
        let s2 := ((List.range runs.length).zip runs).foldl (fun s q =>
          let nb := q.2.1
          let slot := beds.getD nb 0
          let cols := i.xCols e p v nb
          let t := s.loadBank g true (cols.map fun j =>
            (x.kvec fx.2.1 (i.xAt e p v (32 * nb + j)) xk kz kz).bankCol x.fmt (i.bedWords.getD q.2.2 (0, 0)).2 j)
          let bank := t.bank g true
          let rs := arow.map fun a => (a.1, rowSums x.fmt.isWord (q.2.2 == 0) false a.2 a.2.vals bank)
          let tau := fun (_ : Nat) => termBound f.leadG (if x.fmt.isWord then 7 else x.fmt.leadG) (arow.map fun a => spreadPos 32 a.2.pos a.2.exps)
            (bank.map fun c => spreadPos 32 c.pos c.exps)
          let d : Draws := ⟨i.seed.toNat, 0, g, slot, 0, i.cut.map (· - rows.length * q.1)⟩
          t.putSlot g slot ((t.slot g slot).pass d (ow && q.2.2 == 0) false i.dom tau (slotRows false rs 0) bad)) s1
        let t2 := (List.range beds.length).any fun nb => (i.xCols e p v nb).any fun j => ks.any fun k => x.t2bad fx.2.1 ((i.xAt e p v (32 * nb + j)).add xk k)
        (s2.onInst i.n fun y =>
          { y with wrote := (beds.map fun k => (g, k)).foldl (fun l z => if l.contains z then l else z :: l) y.wrote }).t2Event i.n t2
  | _ => s

/-- One drain item of MMP, MMW or MMC for one member (R306, R307, R115): the rows of its tile, from slot row
`off` on. A complex instruction's tile takes the tensor scales of its real descriptors (DESIGN CHOICE, log 112). -/
def State.mmDrainOne (s : State) (i : Inst) (off g : Nat) (w : Work) : State :=
  match w.ix with
  | _ :: _ :: sg :: part :: v =>
    let e := i.loop
    let p := i.place (i.cores.idxOf g)
    let cn := i.cN + part
    let c := i.desc cn
    let ob := c.loc == 2
    let ts := (i.desc i.aN).ts * (i.desc i.bN).ts * (if i.isMmc then (i.desc i.xN).ts else 1)
    let eps := (epsOf (i.sv i.epsN % 2 ^ 32)).getD 0
    let nb := if i.isMmc then sg else 0
    let cols := if i.isMmc then i.xCols e p v nb else i.bCols e p v
    let rv := i.desc i.rsvN
    let rows := halfRows w.rows (((i.tileRows e p v).filter fun r => i.isMmc || (off + r) / 32 == sg || decide (0 < off)).filterMap fun r =>
      let gm := e.gm p v r
      let cs := (cols.map fun j => (j, i.cAt e p v ob r nb j)).filter fun x => c.has x.2
      if cs.isEmpty || (i.rsc && decide (rv.e0 ≤ gm)) then none
      else
        let q := (i.rowQ.find? fun x => x.1 == e.qKey g v r).map Prod.snd
        some { i := (off + r) % 32, gm := gm, cols := cs,
               rho := if i.drms then some (rowRho (q.getD {}) (i.kTotal e : Nat) eps) else none : DRow })
    match w.slots with
    | [a] => s.drainSlot i.n g a none c cn rv ts i.fixa i.atom rows (w.rows != 1)
    | [a, b] => s.drainSlot i.n g a (some b) c cn rv ts i.fixa i.atom rows (w.rows != 1)
    | _ => s
  | _ => s

/-- One drain item: an overwrite with K = 0 first zeroes the slots (R115, R296); the clear modifier acts after
every member has been drained. -/
def State.mmDrain (s : State) (ms : List Mate) (g : Nat) (w : Work) : State :=
  let s1 := if w.ix.headD 0 = 2 && decide (w.rows ≤ 1) then w.slots.foldl (fun s k => s.onSlot g k fun _ => Slot.zero) s else s
  let n := ms.length
  ((List.range n).zip ms).foldl (fun s m =>
    -- the slot is cleared once, with the last member's rows
    let i := m.2.1
    let j := if m.1 + 1 < n then { i with w := { i.w with w3 := i.w.w3 &&& 0xBFFFFFFF#32 } } else i
    (s.onInst i.n fun y => { y with w := j.w }).mmDrainOne j m.2.2 g w |>.onInst i.n fun y => { y with w := i.w }) s1

end Sys2Proof.Machine
end

