-- ==== Sys2Proof/Machine/Array.lean ====
section
/-!
DEFINITION. The rows MMP, MMW and MMC (R361 to R364): what each gives the shared issue path, and the batch
former (R288, R428).
-/

namespace Sys2Proof.Machine

/-! ### The batch former -/

/-- The hold limit of a class (R428). -/
def State.holdOf (s : State) (cls : Nat) : Nat := if cls = 1 then s.sluice.holdA else s.sluice.holdBC

/-- Rows of an instruction that the batch former would hold, on assignee `ai`. -/
def Inst.rowsOn (i : Inst) (ai : Nat) : Nat :=
  let e := i.loop
  let v := List.replicate e.nlev 0
  (i.tileRows e (i.place ai) v).length

/-- The former may hold it: joining is on in its class, its run-time M bound is below 32, each assignee has at
most one tile, and it overwrites its slots (log 26). -/
def State.joins (s : State) (i : Inst) : Bool :=
  let e := i.loop
  decide (i.opc ≤ 1) && s.holdOf i.cls != 0 && (e.tile 0).isSome && decide (i.roleBound e 0 < 32) && i.ow
  && decide (cdiv (i.roleBound e 0) e.tm ≤ i.cores.length)

/-- The loop entry apart from the M bound. -/
def LoopE.butM (e : LoopE) : LoopE :=
  { e with levels := e.levels.map fun l => if l.role = 0 && e.isTile l then { l with plan := 0, reg := 0 } else l }

/-- Two instructions that the former may join (R288, R428; log 26 for what the spec leaves to the former). -/
def Inst.mayJoin (i j : Inst) : Bool :=
  let e := i.loop
  let f := j.loop
  let kExt := fun (x : Inst) => let d := x.desc x.aN; if x.aRow = 1 then d.e0 else d.e1
  i.opc == j.opc && i.cls == j.cls && i.dom == j.dom && i.spec == j.spec && i.cores == j.cores && i.w.w3 == j.w.w3
  && i.f 0 22 10 == j.f 0 22 10 && i.f 2 10 4 == j.f 2 10 4 && decide (e.butM = f.butM)
  && decide (i.live e i.cores.length = j.live f j.cores.length)
  && ((e.levels.zip f.levels).all fun p => (p.1.role == 0 && e.isTile p.1) || i.bound p.1 == j.bound p.2)
  && i.desc i.bN == j.desc j.bN && (!i.cplx || i.desc (i.bN + 1) == j.desc (j.bN + 1))
  && (i.desc i.aN).fmtCode == (j.desc j.aN).fmtCode && ((i.desc i.aN).loc == 2) == ((j.desc j.aN).loc == 2) && kExt i == kExt j
  && (!i.gain || (i.desc i.gvN).e0 == (j.desc j.gvN).e0)

/-- Rows that a batch holds on assignee `ai`. -/
def State.batchRows (s : State) (b : Batch) (ai : Nat) : Nat :=
  (b.members.map fun m => match s.inst m with
    | some i => i.rowsOn ai
    | none => 0).sum

/-- The batch that an instruction joins. -/
def State.batchFor (s : State) (i : Inst) : Option Batch :=
  s.sluice.batches.find? fun b => (match s.inst b.head with
    | some h => h.mayJoin i
    | none => false) && (List.range i.cores.length).all fun a => decide (s.batchRows b a + i.rowsOn a ≤ 32)

/-- Release a batch: its members' passes may start. -/
def State.releaseBatch (s : State) (head : Nat) : State :=
  s.onSluice fun q => { q with batches := q.batches.filter fun b => b.head != head }

/-- Hand an accepted instruction to the former. -/
def State.form (s : State) (i : Inst) : State :=
  if !s.joins i then s
  else
    match s.batchFor i with
    | none =>
      let s1 := s.onSluice fun q => { q with batches := q.batches ++ [⟨i.n, s.time.cclk, [i.n]⟩] }
      s1.onInst i.n fun y => { y with batch := some i.n }
    | some b =>
      let off : Map Nat := (List.range i.cores.length).foldl (fun m a => Map.set 0 m (i.cores.getD a 0) (s.batchRows b a)) []
      let s1 := s.onSluice fun q =>
        { q with batches := q.batches.map fun x => if x.head = b.head then { x with members := x.members ++ [i.n] } else x }
      let s2 := s1.onInst i.n fun y => { y with batch := some b.head, rowOff := off }
      if (List.range i.cores.length).any fun a => decide (32 ≤ s.batchRows b a + i.rowsOn a) then s2.releaseBatch b.head else s2

/-- The first batch that instruction `n` begins has been held for its limit (R428). -/
def execBatchHoldExpiry (n : Nat) (s : State) : Out :=
  match s.sluice.batches.find? fun b => b.head == n with
  | none => idle s
  | some b =>
    match s.inst n with
    | none => .next (s.releaseBatch n)
    | some i => if s.time.cclk < b.t0 + s.holdOf i.cls then idle s else .next (s.releaseBatch n)

/-! ### The rows -/

/-- What MMP, MMW and MMC give the issue path. -/
def mmRow (opc : Nat) : TRow :=
  { TRow.plain opc (fun s i => ((s.onInst i.n fun y => { y with work := i.mmWork }).form i).headChecks i i.fixa i.mmHeads) with
    useLoop := true
    useSlot := true
    useOw := true
    useBays := true
    prep := fun s i =>
      let j := { i with cores := assignees i.bays i.loop.cores }
      if j.gate then s.captureUp j else j
    checks := State.mmChecks
    zero := fun _ i => i.zeroRole i.loop [0, 1, 3]
    cost := fun _ i => i.mmCost
    addrs := fun _ i => i.mmAddrs
    dep := fun _ i => if i.gath && !i.isMmc then 2 else 1 }

def execMmp (c : Fin 64) (w : Long) (s : State) : Out := issueTensor (mmRow 0x00) c.val w s
def execMmw (c : Fin 64) (w : Long) (s : State) : Out := issueTensor (mmRow 0x01) c.val w s
def execMmc (c : Fin 64) (w : Long) (s : State) : Out := issueTensor (mmRow 0x02) c.val w s

end Sys2Proof.Machine
end

