-- ==== Sys2Proof/Machine/Rows.lean ====
section
/-!
DEFINITION. Instructions whose rows are split over the assignees (R301, R355): RSTAT, NORM, FNX, GATE, QNT,
MOV, LDOP and HALO. Their rows, the checks they share, their cost's addresses, and reading and writing a row.
-/

namespace Sys2Proof.Machine

/-- The levels of roles M and B alone, in their order: what a row-split instruction walks (R355). -/
def LoopE.rowsOnly (e : LoopE) : LoopE :=
  let ls := e.sorted.filter fun l => l.role == 0 || l.role == 3
  { e with nlev := ls.length, order := 0, dlev := 7, srot := 1,
           levels := ((List.range ls.length).zip ls).map fun p => { p.2 with pos := p.1 } }

def Inst.rloop (i : Inst) : LoopE := (LoopE.of i.l).rowsOnly

/-- One row of an instruction: the core, its place, the level indices, the row of its tile. -/
structure RowRef where
  g : Nat
  p : Place
  v : List Nat
  r : Nat
  deriving DecidableEq, Repr

/-- The row's coordinate in a source: operand word A, rows along dimension 1. -/
def Inst.srcAt (i : Inst) (d : Desc) (x : RowRef) : Coord := i.rloop.rowAt .a x.p x.v 1 (d.loc == 2) x.r
/-- The row's coordinate in a destination: operand word C. -/
def Inst.dstAt (i : Inst) (d : Desc) (x : RowRef) : Coord := i.rloop.outAt x.p x.v (d.loc == 2) x.r 0
/-- The row's global M coordinate. -/
def Inst.gmOf (i : Inst) (x : RowRef) : Nat := i.rloop.gm x.p x.v x.r

/-- Every row below the run-time bounds, on each assignee in order (R298, R301). -/
def Inst.rowRefs (i : Inst) : List RowRef :=
  let e := i.rloop
  ((List.range i.cores.length).zip i.cores).flatMap fun q =>
    let p : Place := ⟨1, q.1, i.cores.length, false⟩
    if !e.takes p then []
    else (product (i.counts e p)).flatMap fun v => (List.range e.tm).filterMap fun r =>
      if i.below e 0 (e.gm p v r) then some ⟨q.2, p, v, r⟩ else none

/-- The rows that lie inside a source and a destination (R298). -/
def Inst.rowsIn (i : Inst) (a c : Desc) : List RowRef :=
  i.rowRefs.filter fun x => a.hasBut 0 (i.srcAt a x) && c.hasBut 0 (i.dstAt c x)

/-- Set the assignees from CORES. -/
def Inst.spread (i : Inst) : Inst := { i with cores := assignees i.bays (lby i.l 8 8) }

/-- The checks of the loop entry (R294, R295, R302, R355): `strict` refuses other roles than M and B, `tra` says that operand A is transposed. -/
def State.rowCodes (s : State) (i : Inst) (strict : Bool) (tra : Bool := false) : List Nat :=
  let e := LoopE.of i.l
  when (e.badEntry || (strict && e.badRole [0, 3]) || e.badTile [0] tra false false) Code.encoding
  ++ s.coreCodes i.bays i.cores ++ when (i.badBound i.rloop) Code.shape

/-- A row operand in the program region that reaches beyond it (R313). -/
def Inst.rowBeyond (i : Inst) (d : Desc) (o : Opnd) : Bool :=
  let e := i.rloop
  let C := i.cores.length
  d.beyondOb ((d.e0 - 1) :: [1, 2, 3].map (e.planMax o 1 C (d.loc == 2) [(0, 1)]))

/-- The refusals of a destination: reserved bias region, reach of the program region (R160, R313). -/
def State.rangeCodes (s : State) (i : Inst) (srcs dsts : List Desc) : List Nat :=
  when (srcs.any (i.rowBeyond · .a) || dsts.any (i.rowBeyond · .c) || dsts.any (s.biasHit i)) Code.range

/-- The spans of `n` elements of a row from coordinate `x` on. -/
def Desc.rowSpans (d : Desc) (x : Coord) (n : Nat) : List Span :=
  let b := max d.fmt.block 1
  ((List.range (cdiv (x.c0.toNat % b + n) b)).flatMap fun k => d.spans { x with c0 := ((x.c0.toNat / b + k) * b : Nat) })

/-- Spans of a row of a WIDE tensor or of an element format. -/
def Desc.anySpans (d : Desc) (x : Coord) (n : Nat) : List Span :=
  if d.fmtCode = 12 then (List.range n).flatMap fun k => d.spans (x.add 0 (k : Nat)) else d.rowSpans x n

/-- The value of a WIDE element (R48): its entry at the tile's anchor. -/
def Desc.wideVal (d : Desc) (v : View) (x : Coord) : Ext :=
  let u := d.unit x.c0.toNat x.c1.toNat x.c2.toNat x.c3.toNat
  let h := tileHeader ((List.range 64).map fun k => v.at d.loc (d.base + 16448 * u + k))
  let e := 32 * (x.c1.toNat % 32) + x.c0.toNat % 32
  if e / 32 < h.rows ∧ e % 32 < h.cols then
    (Entry.ofNat (v.nat d.loc (d.wideEntry u (x.c1.toNat % 32) (x.c0.toNat % 32)) 16)).ext (some (h.anchorOf e))
  else .fin false 0

/-- The value of an element of any format but INT32, with the tensor scale. -/
def Desc.anyVal (d : Desc) (v : View) (x : Coord) : Ext := if d.fmtCode = 12 then d.wideVal v x else d.valTs v x

/-- A WIDE tile with an invalid header, or a reserved bit of an entry read, among the elements read (R48). -/
def Desc.wideBad (d : Desc) (v : View) (x : Coord) : Bool :=
  d.fmtCode == 12 &&
    (let u := d.unit x.c0.toNat x.c1.toNat x.c2.toNat x.c3.toNat
     !tileOk ((List.range 64).map fun k => v.at d.loc (d.base + 16448 * u + k))
     || v.nat d.loc (d.wideEntry u (x.c1.toNat % 32) (x.c0.toNat % 32)) 16 / 2 ^ 100 != 0)

/-- A row read: its values, whether it is poisoned, whether T2's reserved code was met, whether a WIDE header
was bad, which makes it poisoned (R48), and whether the read faulted before it was made (R314). -/
structure RowIn where
  s : State
  vals : List Ext
  bad : Bool
  t2 : Bool
  wide : Bool
  stop : Bool := false

/-- Read `n` elements of a row from coordinate `x` for instruction `i` on core `g` (R314, R434, R448, R516). WIDE
lines are never kept in the Granary. -/
def State.readRow (s : State) (i : Inst) (g : Nat) (d : Desc) (x : Coord) (n : Nat) (tgt : List Tgt) : RowIn :=
  let sp := d.anySpans x n
  match s.foreignBlock g i.dom sp with
  | some b => ⟨s.obFault i.n g b, (List.range n).map fun _ => .fin false 0, true, false, false, true⟩
  | none =>
    let f := s.fetch i.n g (d.fmtCode != 12) tgt sp
    let xs := (List.range n).map fun k => x.add 0 (k : Nat)
    let w := xs.any (d.wideBad f.2.1)
    ⟨f.1, xs.map (d.anyVal f.2.1), f.2.2 || w, xs.any (d.t2bad f.2.1), w, false⟩

/-- Write a row of converted blocks with its counts into stream STRM. -/
def State.writeRow (s : State) (i : Inst) (g : Nat) (d : Desc) (x : Coord) (bs : List Block) (bad : Bool) : State :=
  (s.storeRow i.n g d x bs bad).count i.n i.strm (if d.fmt.counted then sumCounts bs else Counts.zero)

/-- The targets that a run of elements of a destination occupies. -/
def Desc.targets (d : Desc) (g : Nat) (x : Coord) (n : Nat) : List Tgt := (d.anySpans x n).map fun p => tgtOf g p.loc p.addr p.len

/-- One value per row: the element at dimension 0 = 0 of the row's destination coordinate (log 27). -/
def State.writeOne (s : State) (i : Inst) (g : Nat) (d : Desc) (x : Coord) (b : Block) (bad : Bool) : State :=
  if d.has x then s.writeRow i g d x [b] bad else s

/-- The byte of a status descriptor at a coordinate: its units are of one byte (log 27). -/
def Desc.byteAt (d : Desc) (x : Coord) : Span := ⟨d.loc, d.base + x.c0.toNat + x.c1.toNat * d.s1 + x.c2.toNat * d.s2 + x.c3.toNat * d.s3, 1⟩

/-- One status byte per row (R154, R212): the one-byte unit of the row's destination coordinate (log 27). -/
def State.writeStatus (s : State) (i : Inst) (g : Nat) (d : Desc) (x : Coord) (v : Nat) (bad : Bool) : State :=
  if d.hasBut 0 x && decide (0 ≤ x.c0) then s.store i.n g d.loc (d.byteAt x).addr [BitVec.ofNat 8 v] bad else s

/-- A binary32 block of one value, with no rounding left to make. -/
def f32Block (x : Ext) : Block := ⟨0, [f32Bits x], [x], Counts.zero⟩

/-- The charge of R360: the largest over the assignees of `f` of the core and the number of its rows. -/
def Inst.rowCost (i : Inst) (rows : List RowRef) (f : Nat → Nat → Nat) : Nat :=
  maxOr 0 (i.cores.map fun g => let n := (rows.filter fun x => x.g == g).length; if n = 0 then 0 else f g n)

/-- The checks of a loop entry that an instruction of R355's second row makes where it does not split rows: R294, R295. -/
def Inst.entryCodes (i : Inst) : List Nat :=
  let e := LoopE.of i.l
  when (e.badEntry || e.badTile [0] false false false) Code.encoding ++ when (i.badBound i.rloop) Code.shape

/-- Distinct line addresses in external memory of a list of spans, ascending (R359). -/
def lineSort (sp : List Span) : List Nat := (extLines 64 sp).mergeSort (· ≤ ·)

/-- What a row that read bad data still raises: the fault of a WIDE header (R48), T2's event (R39). -/
def State.rowNotes (s : State) (i : Inst) (r : RowIn) : State :=
  let s1 := if r.wide && !i.spec then s.instFault i.n { code := Code.fWideHeader, unit := 0x10 + (i.cores.headD 0) / 64, poison := true } else s
  s1.t2Event i.n r.t2

end Sys2Proof.Machine
end

