-- ==== Sys2Proof/Machine/Slots.lean ====
section
/-!
DEFINITION. The slot instructions: DRAIN and ACCZ (R365, R366), RSTAT (R124, R367), ACCSV and ACCLD (R128 to
R130, R368). What works on a slot waits for its turn on the core and is run by DRAIN_START (log 28).
-/

namespace Sys2Proof.Machine

/-- Work items on `ns` slots of every assignee, one for each slot. -/
def Inst.slotItems (i : Inst) (kind ns : Nat) : List Work :=
  ((List.range i.cores.length).zip i.cores).flatMap fun q => (List.range ns).map fun j =>
    { core := q.2, pass := false, bed := false, rows := 0, slots := [i.slot + j], ix := [kind, q.1, j] }

/-- A chained instruction other than `n` holds the softmax stage of core `g` (R193): one of its passes there has started, and
not all have. -/
def State.stageHeld (s : State) (g n : Nat) : Bool := s.instList.any fun j =>
  j.n != n && (j.opc == 2 || j.opc == 0x20 || j.opc == 0x21)
  && j.work.any fun w => w.pass && w.core == g && (j.wrote.contains (g, j.slot) || (!w.parts.isEmpty && decide ((w.parts.map Part.rows).sum < w.rows)))

/-- The refusals that slot counts raise: NS of 7 or slots beyond 5, and R96. -/
def State.slotCodes (s : State) (i : Inst) (ns : Nat) : List Nat :=
  when (decide (6 < i.slot + ns)) Code.encoding
  ++ when (decide (i.slot + ns ≤ 6) && s.badSlots i i.slot ns) Code.slot

/-! ### DRAIN -/

def Inst.drC (i : Inst) : Nat := i.f 1 0 5
def Inst.drRsv (i : Inst) : Nat := i.f 1 5 5
def Inst.drNs (i : Inst) : Nat := i.f 1 10 3
def Inst.fixA (i : Inst) : Option Int := if i.b 2 10 then some (sextNat 10 (i.f 2 0 10)) else none
def Inst.atomW (i : Inst) : Bool := i.b 2 11

/-- The rows of slot `j` of assignee `a`: 32 rows of C at 32 (NS a + j), local to the core in the program
region (R313, R365). -/
def Inst.drRows (i : Inst) (a j : Nat) : List DRow :=
  let c := i.desc i.drC
  let n := if i.gate then 1 else i.drNs
  let rv := i.desc i.drRsv
  (List.range 32).filterMap fun r =>
    let gm := 32 * (n * a + j) + r
    let y := if c.loc = 2 then 32 * j + r else gm
    let cs := (List.range 32).filterMap fun k => let x : Coord := ⟨(k : Nat), (y : Nat), 0, 0⟩; if c.has x then some (k, x) else none
    if cs.isEmpty || (i.rsc && decide (rv.e0 ≤ gm)) then none else some { i := r, gm := gm, cols := cs }

def Inst.drWork (i : Inst) : List Work :=
  if i.gate then
    ((List.range i.cores.length).zip i.cores).map fun q =>
      { core := q.2, pass := false, bed := false, rows := 0, slots := [i.slot, i.slot + 1], ix := [4, q.1, 0] }
  else i.slotItems 4 i.drNs

def State.drChecks (s : State) (i : Inst) : List Nat :=
  let c := i.desc i.drC
  let r := i.desc i.drRsv
  when (i.f 0 26 6 != 0 || i.f 1 13 19 != 0 || i.f 2 12 20 != 0 || (!i.rsc && i.drRsv != 0)
    || ((i.fixA.isSome || i.atomW) && c.fmtCode != 12) || (i.atomW && c.loc == 2) || (i.gate && i.drNs != 2)) Code.encoding
  ++ descCodes ([c] ++ (if i.rsc then [r] else [])) ++ s.dcCodes i [c] r ++ floorCodes [c] ++ s.coreCodes i.bays i.cores
  ++ when (s.biasHit i c || c.beyondOb [31, if i.gate then 31 else 32 * i.drNs - 1]
    || (i.rsc && r.beyondOb [32 * i.drNs * i.cores.length - 1])) Code.range
  ++ s.slotCodes i i.drNs

/-- The target headers of DRAIN with ATOM. -/
def Inst.drHeads (i : Inst) : List Nat :=
  if !i.atomW then [] else
  dedupNat (i.drWork.flatMap fun w => match i.drRows (w.ix.getD 1 0) (w.ix.getD 2 0) with
    | r :: _ => (r.cols.take 1).flatMap fun x => (i.desc i.drC).headAt x.2
    | [] => [])

/-- One drain item of DRAIN. -/
def State.runDrain (s : State) (i : Inst) (w : Work) : State :=
  let rows := halfRows w.rows (i.drRows (w.ix.getD 1 0) (w.ix.getD 2 0))
  match w.slots with
  | [a] => s.drainSlot i.n w.core a none (i.desc i.drC) i.drC (i.desc i.drRsv) 1 i.fixA i.atomW rows (w.rows != 1)
  | [a, b] => s.drainSlot i.n w.core a (some b) (i.desc i.drC) i.drC (i.desc i.drRsv) 1 i.fixA i.atomW rows (w.rows != 1)
  | _ => s

def drRow : TRow :=
  { TRow.plain 0x03 (fun s i => (s.onInst i.n fun y => { y with work := i.drWork }).headChecks i i.fixA i.drHeads) with
    useLoop := true
    useSlot := true
    useBays := true
    prep := fun s i => if i.gate then s.captureUp i.spread else i.spread
    checks := State.drChecks
    zero := fun _ i => i.drNs == 0
    cost := fun _ i => if i.gate then 72 else 40 * i.drNs
    addrs := fun _ i => i.drWork.flatMap fun w =>
      let rows := i.drRows (w.ix.getD 1 0) (w.ix.getD 2 0)
      lineSort (rows.flatMap fun r => r.cols.flatMap fun x => (i.desc i.drC).spans x.2)
      ++ (if i.rsc then lineSort (rows.flatMap fun r => (i.desc i.drRsv).spans ⟨(r.gm : Nat), 0, 0, 0⟩) else [])
    dep := fun _ _ => 1 }

def execDrain (c : Fin 64) (w : Long) (s : State) : Out := issueTensor drRow c.val w s

/-! ### ACCZ -/

/-- Zero the slots of an item (R115). -/
def State.runZero (s : State) (w : Work) : State := w.slots.foldl (fun s k => s.onSlot w.core k fun _ => Slot.zero) s

def zeroRow : TRow :=
  { TRow.plain 0x04 (fun s i => s.onInst i.n fun y => { y with work := i.slotItems 5 (i.f 1 0 3) }) with
    useLoop := true
    useSlot := true
    useBays := true
    prep := fun _ i => i.spread
    checks := fun s i =>
      when (i.f 0 26 6 != 0 || i.f 1 3 29 != 0 || i.wd 2 != 0 || i.f 3 8 24 != 0) Code.encoding
      ++ s.coreCodes i.bays i.cores ++ s.slotCodes i (i.f 1 0 3)
    zero := fun _ i => i.f 1 0 3 == 0
    cost := fun _ i => i.f 1 0 3 }

def execAccz (c : Fin 64) (w : Long) (s : State) : Out := issueTensor zeroRow c.val w s

/-! ### ACCSV and ACCLD -/

/-- The record of slot `j` of assignee `a`. -/
def Inst.recAt (i : Inst) (a j : Nat) : Nat := i.sa (i.f 2 0 5) + 16512 * (i.f 1 0 3 * a + j)

/-- REFUSE.PRIV of R128: the access mode of a bay does not allow the slots to be saved or restored. -/
def State.modeDenies (s : State) (i : Inst) (ns : Nat) : Bool :=
  i.cores.any fun g =>
    let b := g / 64
    let m := (s.by b).mode
    (m == 0 && !bitOf s.prot.dbgEn.toNat b)
    || (m == 2 && (List.range ns).any fun j => !(s.slot g (i.slot + j)).unanchored && (s.slot g (i.slot + j)).owner != i.dom)

def State.svChecks (s : State) (i : Inst) : List Nat :=
  let ns := i.f 1 0 3
  when (i.f 0 26 6 != 0 || i.f 1 3 29 != 0 || i.f 2 5 27 != 0 || i.f 3 8 24 != 0) Code.encoding
  ++ when (i.sv (i.f 2 0 5) % 64 != 0) Code.operand ++ when (s.modeDenies i ns) Code.priv
  ++ s.coreCodes i.bays i.cores ++ s.slotCodes i ns

/-- Save one slot (R129). A poisoned slot's record carries POISONED and its bytes are no poison (log 29). -/
def State.runSave (s : State) (i : Inst) (w : Work) : State :=
  let k := w.slots.headD 0
  if s.foreignSlot w.core k i.dom then s.slotFault i.n w.core k
  else s.writeExt i.n (i.recAt (w.ix.getD 1 0) (w.ix.getD 2 0)) (s.slot w.core k).record false

/-- Restore one slot (R130). -/
def State.runLoad (s : State) (i : Inst) (w : Work) : State :=
  let k := w.slots.headD 0
  let a := i.recAt (w.ix.getD 1 0) (w.ix.getD 2 0)
  let r := s.readExt i.n false [.slot w.core k] a 16512
  let s1 := r.1.onInst i.n fun y => { y with wrote := if y.wrote.contains (w.core, k) then y.wrote else (w.core, k) :: y.wrote }
  match slotOfRecord r.2.1 with
  | some x => s1.onSlot w.core k fun _ => { x with poisoned := x.poisoned || r.2.2 }
  | none =>
    (s1.onSlot w.core k fun x => { x with poisoned := true }).instFault i.n
      { code := Code.fWideHeader, unit := 0x10 + w.core / 64, addr := a, poison := true }

def svRow (opc kind : Nat) : TRow :=
  { TRow.plain opc (fun s i => s.onInst i.n fun y => { y with work := i.slotItems kind (i.f 1 0 3) }) with
    useLoop := true
    useSlot := true
    useBays := true
    prep := fun _ i => i.spread
    checks := State.svChecks
    zero := fun _ i => i.f 1 0 3 == 0
    cost := fun _ i => 40 * i.f 1 0 3
    addrs := fun _ i => (i.slotItems kind (i.f 1 0 3)).flatMap fun w => linesOf 64 (i.recAt (w.ix.getD 1 0) (w.ix.getD 2 0)) 16512
    dep := fun _ _ => 1 }

def execAccsv (c : Fin 64) (w : Long) (s : State) : Out := issueTensor (svRow 0x06 6) c.val w s
def execAccld (c : Fin 64) (w : Long) (s : State) : Out := issueTensor (svRow 0x07 7) c.val w s

/-! ### RSTAT -/

def Inst.stX (i : Inst) : Desc := i.desc (i.f 1 0 5)
def Inst.stMean (i : Inst) : Desc := i.desc (i.f 1 5 5)
def Inst.stVar (i : Inst) : Desc := i.desc (i.f 1 10 5)
def Inst.stSsq (i : Inst) : Desc := i.desc (i.f 1 15 5)
def Inst.stN (i : Inst) : Nat := i.sv (i.f 2 0 5)

/-- The row's sums (R124): its elements in groups of 32. -/
def rowSumsOf (i : Inst) (g r : Nat) (lin : Bool) (xs : List Ext) : RowStat :=
  ((List.range (cdiv xs.length 32)).zip (chunks 32 xs.length xs)).foldl
    (fun (q : RowStat) z => q.group i.seed.toNat i.issue g (r % 32) z.1 lin z.2) {}

/-- Mean, variance and sum of squares of a row (R124): exact values before their rounding. -/
def rstatVals (q : RowStat) (n : Nat) : Option (ℚ × ℚ × ℚ) :=
  if q.sum.special || q.sq.special then none
  else
    let a := statVal q.sum q.sumA
    let b := statVal q.sq q.sqA
    some (a / n, max 0 ((n * b - a * a) / (n * n)), b)

/-- The sum of squares as a WIDE entry in its tile: the tile's entry of the row takes the entry at its own
anchor, the tile's other entries keep their bytes (log 30). -/
def State.writeSsqWide (s : State) (i : Inst) (g : Nat) (d : Desc) (x : Coord) (q : RowStat) (bad : Bool) : State :=
  if !d.has x then s
  else
    let u := d.unit x.c0.toNat x.c1.toNat x.c2.toNat x.c3.toNat
    let a := d.base + 16448 * u
    let t : Tile :=
      { anchor := q.sqA.getD (-512), rows := 32, cols := 32, quad := false, inexact := q.sq.inex, passes := 0, qanch := [], ent := [] }
    let e : Entry := if q.sqA.isSome then q.sq else { q.sq with f := 0, inex := false }
    let s1 := s.store i.n g d.loc a (t.bytes.take 64) bad
    s1.store i.n g d.loc (d.wideEntry u (x.c1.toNat % 32) (x.c0.toNat % 32)) (natLe 16 e.nat) bad

def State.rstatRow (s : State) (i : Inst) (x : RowRef) : State :=
  let d := i.stX
  let n := i.stN
  let m := i.stMean
  let v := i.stVar
  let q := i.stSsq
  let tgt := m.targets x.g (i.dstAt m x) 1 ++ v.targets x.g (i.dstAt v x) 1 ++ q.targets x.g (i.dstAt q x) 1
  let r := s.readRow i x.g d (i.srcAt d x) n tgt
  if r.stop then r.s else
  let st := rowSumsOf i x.g x.r true r.vals
  let s1 := (r.s.rowNotes i r).onStat x.g (x.r % 32) fun _ => st
  let vs := rstatVals st n
  let val := fun (f : ℚ × ℚ × ℚ → ℚ) => match vs with
    | none => Ext.nan
    | some z => Ext.ofRat (f z)
  let s2 := s1.writeOne i x.g m (i.dstAt m x) (f32Block (rn32 (val fun z => z.1))) r.bad
  let s3 := s2.writeOne i x.g v (i.dstAt v x) (f32Block (rn32 (val fun z => z.2.1))) r.bad
  let s4 := if q.fmtCode = 12 then s3.writeSsqWide i x.g q (i.dstAt q x) st r.bad
    else s3.writeOne i x.g q (i.dstAt q x)
      (f32Block (rnd32 (i.rndAt (i.f 1 15 5) (q.linear (i.dstAt q x)) 0) (val fun z => z.2.2))) r.bad
  if r.bad then s4.instFault i.n { code := Code.fPoison, unit := 0x10 + x.g / 64, poison := true } else s4

def State.rstatChecks (s : State) (i : Inst) : List Nat :=
  let ds := [i.stX, i.stMean, i.stVar, i.stSsq]
  when (i.f 0 26 6 != 0 || i.f 1 20 12 != 0 || i.f 2 5 27 != 0 || i.f 3 14 18 != 0 || i.rnd == 3) Code.encoding
  ++ descCodes ds
  ++ when (i.stMean.fmtCode != 10 || i.stVar.fmtCode != 10 || (i.stSsq.fmtCode != 10 && i.stSsq.fmtCode != 12) || decide (10 < i.stX.fmtCode)) Code.format
  ++ when (i.rnd == 2) Code.mode ++ floorCodes ds ++ s.rowCodes i true
  ++ when (decide (i.stX.e0 < i.stN) || decide (2 ^ 24 < i.stN)) Code.shape
  ++ s.rangeCodes i [i.stX] [i.stMean, i.stVar, i.stSsq]
  ++ when (s.badPlace i i.rloop.cores) Code.slot

/-- Every row of a row-split instruction in order. -/
def State.eachRow (s : State) (rows : List RowRef) (f : State → RowRef → State) : State := rows.foldl f s

def rstatRow : TRow :=
  { TRow.plain 0x05 (fun s i => s.eachRow (i.rowsIn i.stX i.stMean) fun s x => s.rstatRow i x) with
    useLoop := true
    useOw := true
    useBays := true
    prep := fun _ i => i.spread
    checks := State.rstatChecks
    zero := fun _ i => i.stN == 0 || i.zeroRole i.rloop [0, 3]
    cost := fun _ i => i.rowCost (i.rowsIn i.stX i.stMean) fun _ r => r * (cdiv i.stN 32 + 1) + 8
    addrs := fun _ i =>
      let rows := i.rowsIn i.stX i.stMean
      i.cores.flatMap fun g =>
        let mine := rows.filter fun x => x.g == g
        let one := fun (d : Desc) => lineSort (mine.flatMap fun x => if d.has (i.dstAt d x) then d.spans (i.dstAt d x) else [])
        lineSort (mine.flatMap fun x => i.stX.anySpans (i.srcAt i.stX x) i.stN) ++ one i.stMean ++ one i.stVar ++ one i.stSsq
    dep := fun _ _ => 1 }

def execRstat (c : Fin 64) (w : Long) (s : State) : Out := issueTensor rstatRow c.val w s

end Sys2Proof.Machine
end

