-- ==== Sys2Proof/Machine/Func.lean ====
section
/-!
DEFINITION. The function instructions: FNX with its LOAD and COMPAT forms, GATE, NORM and QNT (R193 to R214,
R377 to R380).
-/

namespace Sys2Proof.Machine

/-! ### FNX -/

def Inst.fnA (i : Inst) : Desc := i.desc (i.f 1 0 5)
def Inst.fnCn (i : Inst) : Nat := i.f 1 5 5
def Inst.fnC (i : Inst) : Desc := i.desc i.fnCn
def Inst.fnR (i : Inst) : Desc := i.desc (i.f 1 10 5)
def Inst.fn (i : Inst) : Nat := i.f 2 0 6
def Inst.fnLoad (i : Inst) : Bool := i.b 0 26
def Inst.fnCompat (i : Inst) : Bool := i.b 0 27

/-- Formats a lane reads (R194). -/
def laneIn (d : Desc) : Bool := decide (d.fmtCode ≤ 10) || d.fmtCode == 12

/-- Equal extents. -/
def Desc.same (a b : Desc) : Bool := a.e0 == b.e0 && a.e1 == b.e1 && a.e2 == b.e2 && a.e3 == b.e3

def State.fnxChecks (s : State) (i : Inst) : List Nat :=
  let load := i.fnLoad
  let cm := i.fnCompat
  when (i.f 0 28 4 != 0 || i.f 1 15 17 != 0 || i.f 2 11 21 != 0 || i.f 3 14 9 != 0 || i.f 3 24 8 != 0
    || (load && (cm || i.f 1 0 10 != 0 || i.fn != 0)) || (!load && i.f 2 6 5 != 0) || (!i.rsc && i.f 1 10 5 != 0)
    || decide (32 ≤ i.fn) || i.rnd == 3) Code.encoding
  ++ (if load then [] else descCodes ([i.fnA, i.fnC] ++ (if i.rsc then [i.fnR] else [])))
  ++ when (!load && (!laneIn i.fnA || decide (10 < i.fnC.fmtCode) || (i.rsc && i.fnR.fmtCode != 10))) Code.format
  ++ when ((cm && !Lane.isCompat i.fn) || (i.rnd == 2 && !cm)) Code.mode
  ++ (if load then [] else floorCodes [i.fnA, i.fnC])
  ++ when (load && i.sv (i.f 2 6 5) % 64 != 0) Code.operand
  ++ when (!load && s.noMicro i i.fn) Code.state
  ++ s.rowCodes i false
  ++ when (!load && !i.fnA.same i.fnC) Code.shape
  ++ (if load then [] else s.rangeCodes i [i.fnA] [i.fnC] ++ when (i.rsc && i.rloop.vecBeyond i.fnR) Code.range)

/-- One element of FNX on its way to its conversion (R377): the function's value, or its product with the
row's scale. -/
def fnxSrc (i : Inst) (img : List Byte) (a c : Desc) (rs : Ext) (x : Ext) : Src :=
  if i.fnCompat then
    let y := Lane.compat i.fn (rn32 x)
    Src.exact (if i.rsc then y.mul rs else y)
  else if i.rsc then Src.exact (if i.fn = 0 then x.mul rs else (Lane.general i.fn img a.fmt .f32 x).ext.mul rs)
  else Lane.general i.fn img (some a.fmt) c.fmt x

/-- A row-scale value: entry `gm` of a binary32 vector (R313); a row beyond the vector is not written (R298). -/
def State.rowScale (s : State) (i : Inst) (g : Nat) (d : Desc) (gm : Nat) (tgt : List Tgt) : State × Ext × Bool :=
  let r := s.readRow i g d ⟨(gm : Nat), 0, 0, 0⟩ 1 tgt
  (r.s, r.vals.headD (.fin false 0), r.bad)

/-- One row of FNX. -/
def State.fnxRow (s : State) (i : Inst) (x : RowRef) : State :=
  let a := i.fnA
  let c := i.fnC
  let at' := i.dstAt c x
  let tgt := c.targets x.g at' a.e0
  let r := s.readRow i x.g a (i.srcAt a x) a.e0 tgt
  let q : State × Ext × Bool := if i.rsc then r.s.rowScale i x.g i.fnR (i.gmOf x) tgt else (r.s, .fin false 0, false)
  let img := if 16 ≤ i.fn then s.image i x.g else []
  if r.stop then r.s else
  let xs := ((List.range r.vals.length).zip r.vals).map fun p =>
    (fnxSrc i img a c q.2.1 p.2, i.rndAt i.fnCn (c.linear (at'.add 0 (p.1 : Nat))) 0)
  (q.1.rowNotes i r).writeRow i x.g c at' (convSrc c.fmt 0 c.ts xs) (r.bad || q.2.2)

def Inst.fnRows (i : Inst) : List RowRef := (i.rowsIn i.fnA i.fnC).filter fun x => !i.rsc || decide (i.gmOf x < i.fnR.e0)

/-- Steps of the micro-program that a function code names on core `g`, 0 for a built-in. -/
def State.stepsOf (s : State) (g fn : Nat) : Nat :=
  let b := s.by (g / 64)
  if fn < 16 then 0 else (Map.get 0 b.upStore (4096 * b.upBank + 8 * (fn - 16) + 2)).toNat

/-- The lines of the operands of row-split instructions in R359's order: sources, destinations, whole vectors, one value
of a vector for each row, status bytes. -/
def Inst.laneAddrs (i : Inst) (rows : List RowRef) (src : List (Desc × Nat)) (dst : List (Desc × Nat)) (vec : List Desc)
    (whole : List (Desc × Nat) := []) (stat : List Desc := []) : List Nat :=
  i.cores.flatMap fun g =>
    let mine := rows.filter fun x => x.g == g
    if mine.isEmpty then [] else
    (src.flatMap fun d => lineSort (mine.flatMap fun x => d.1.anySpans (i.srcAt d.1 x) d.2))
    ++ (dst.flatMap fun d => lineSort (mine.flatMap fun x => d.1.anySpans (i.dstAt d.1 x) d.2))
    ++ (whole.flatMap fun d => lineSort (d.1.rowSpans Coord.zero d.2))
    ++ (vec.flatMap fun d => lineSort (mine.flatMap fun x => d.spans ⟨(i.gmOf x : Nat), 0, 0, 0⟩))
    ++ (stat.flatMap fun d => lineSort ((mine.filter fun x => d.hasBut 0 (i.dstAt d x)).map fun x => d.byteAt (i.dstAt d x)))

/-- Do the lane work of an instruction now, or when no chained instruction holds the softmax stage of its cores (R193). -/
def State.startLane (s : State) (i : Inst) (run : State → Inst → State) : State :=
  if i.cores.any fun g => s.stageHeld g i.n then s.onInst i.n fun y => { y with laneDue := true } else run s i

/-- Every row of FNX. -/
def State.fnxRun (s : State) (i : Inst) : State := s.eachRow i.fnRows fun s x => s.fnxRow i x

def fnxRowOf (form : Long → Bool) (effect : State → Inst → State) : TRow :=
  { TRow.plain 0x30 effect with
    form := form
    useLoop := true
    useBays := true
    prep := fun s i => s.captureUp i.spread
    checks := State.fnxChecks }

def fnxRowDef (form : Long → Bool) : TRow :=
  { fnxRowOf form (fun s i => s.startLane i State.fnxRun) with
    zero := fun _ i => i.zeroRole i.rloop [0, 3]
    cost := fun s i => i.rowCost i.fnRows fun g r =>
      let e := r * i.fnA.e0
      if i.fnCompat then 40 + 2 * cdiv e 16
      else let t := s.stepsOf g i.fn; 12 + t + cdiv e 16 * max 1 (cdiv t 8)
    addrs := fun _ i => i.laneAddrs i.fnRows [(i.fnA, i.fnA.e0)] [(i.fnC, i.fnC.e0)] (if i.rsc then [i.fnR] else [])
    dep := fun _ _ => 1 }

def execFnx (c : Fin 64) (w : Long) (s : State) : Out :=
  issueTensor (fnxRowDef fun w => !w.md 0 && !w.md 1) c.val w s
def execFnxCompat (c : Fin 64) (w : Long) (s : State) : Out :=
  issueTensor (fnxRowDef fun w => !w.md 0 && w.md 1) c.val w s

/-! ### Loads of the micro-program store -/

/-- Read a table or image of `n` bytes into the instruction, to be checked, written and committed at its end; every
bay of its set is LOADING until then (log 31). -/
def State.beginLoad (s : State) (i : Inst) (bytes : State × Got) (up : Bool) : State :=
  let s1 := bytes.1.onInst i.n fun y => { y with apb := bytes.2.1, poison := y.poison || bytes.2.2, aux := if bytes.2.2 then 1 :: y.aux else y.aux }
  i.bays.foldl (fun s b => s.onBy b fun x => if up then { x with upLoading := true } else { x with biasLoading := true }) s1

/-- An instruction in flight captured bank `k` of bay `b`. -/
def State.captured (s : State) (up : Bool) (b k n : Nat) : Bool :=
  s.instList.any fun j => j.n != n && (if up then Map.get 0 j.upG b else Map.get 0 j.biasG b) == k + 1

/-- The bank of bay `b` that a load writes. -/
def Bay.spare (x : Bay) (up : Bool) : Nat := 1 - (if up then x.upBank else x.biasBank)

/-- A load may write its banks (R159, R207). -/
def State.loadReady (s : State) (i : Inst) (up : Bool) : Bool :=
  i.bays.all fun b => !s.captured up b ((s.by b).spare up) i.n

/-- No load of the kind is in progress on the bay but for `n`. -/
def State.otherLoad (s : State) (opc b n : Nat) (form : Inst → Bool) : Bool :=
  s.instList.any fun j => j.n != n && j.opc == opc && form j && j.bays.contains b

/-- Commit a micro-program image on every bay (R206, R207): the bytes before a failed check are written, the bank
changes only if every check passes and the image was read whole. -/
def State.commitImage (s : State) (i : Inst) : State :=
  let done := fun (s : State) => i.bays.foldl (fun s b => s.onBy b fun x =>
    { x with upLoading := s.otherLoad 0x30 b i.n Inst.fnLoad }) s
  let write := fun (s : State) (k : Nat) => i.bays.foldl (fun s b => s.onBy b fun x =>
    { x with upStore := Map.setMany 0 x.upStore (cells (4096 * x.spare true) (i.apb.take k)) }) s
  if i.aux.contains 1 || i.memErr.isSome || !i.faults.isEmpty then done (write s 4096)
  else match Lane.imageBad i.apb with
    | some k => done ((write s k).instFault i.n { code := Code.fUprogImage, unit := 0x10 + i.bays.headD 0, detail := k })
    | none => done (i.bays.foldl (fun s b => s.onBy b fun x =>
        { x with upBank := x.spare true, upValid := true, upGen := (x.upGen + 1) % 2 ^ 16 }) (write s 4096))

/-- The row FNX_LOAD. -/
def fnxLoadRow : TRow :=
  { fnxRowOf (fun w => w.md 0) (fun s i => s.beginLoad i (s.readExt i.n true [] (i.sa (i.f 2 6 5)) 4096) true) with
    prep := fun _ i => i.spread
    zero := fun _ i => i.zeroRole i.rloop [0, 3]
    cost := fun _ _ => 12
    addrs := fun _ i => linesOf 64 (i.sa (i.f 2 6 5)) 4096
    dep := fun _ _ => 2 }

def execFnxLoad (c : Fin 64) (w : Long) (s : State) : Out := issueTensor fnxLoadRow c.val w s

/-! ### GATE -/

def Inst.gaA (i : Inst) : Desc := i.desc (i.f 1 0 5)
def Inst.gaB (i : Inst) : Desc := i.desc (i.f 1 5 5)
def Inst.gaCn (i : Inst) : Nat := i.f 1 10 5
def Inst.gaC (i : Inst) : Desc := i.desc i.gaCn

def State.gateChecks (s : State) (i : Inst) : List Nat :=
  let ds := [i.gaA, i.gaB, i.gaC]
  when (i.f 0 26 6 != 0 || i.f 1 15 17 != 0 || i.f 2 6 26 != 0 || i.f 3 14 18 != 0 || !Lane.isGate i.fn || i.rnd == 3) Code.encoding
  ++ descCodes ds ++ when (ds.any fun d => decide (10 < d.fmtCode)) Code.format
  ++ when (i.rnd == 2) Code.mode ++ floorCodes ds ++ when (s.noMicro i i.fn) Code.state
  ++ s.rowCodes i false
  ++ when (!i.gaA.same i.gaB || !i.gaA.same i.gaC) Code.shape
  ++ s.rangeCodes i [i.gaA, i.gaB] [i.gaC]

/-- One row of GATE (R214, R378): act(a) rounded to C's format (count 3), then the product (count 0). B is read at
A's coordinates. -/
def State.gateRow (s : State) (i : Inst) (x : RowRef) : State :=
  let a := i.gaA
  let b := i.gaB
  let c := i.gaC
  let at' := i.dstAt c x
  let tgt := c.targets x.g at' a.e0
  let ra := s.readRow i x.g a (i.srcAt a x) a.e0 tgt
  let rb := ra.s.readRow i x.g b (i.srcAt b x) a.e0 tgt
  if ra.stop || rb.stop then rb.s else
  let img := if 16 ≤ i.fn then s.image i x.g else []
  let rnd := fun (k n : Nat) => i.rndAt i.gaCn (c.linear (at'.add 0 (k : Nat))) n
  let h := convSrc c.fmt 0 c.ts (((List.range ra.vals.length).zip ra.vals).map fun p => (Lane.general i.fn img (some a.fmt) c.fmt p.2, rnd p.1 3))
  let hv := blockVals h
  let ps := List.zipWith Ext.mul hv rb.vals
  let o := convSrc c.fmt 0 c.ts (((List.range ps.length).zip ps).map fun p => (Src.exact p.2, rnd p.1 0))
  let s1 := (rb.s.rowNotes i ra).rowNotes i rb
  (s1.count i.n i.strm (if c.fmt.counted then sumCounts h else Counts.zero)).writeRow i x.g c at' o (ra.bad || rb.bad)

/-- Every row of GATE. -/
def State.gateRun (s : State) (i : Inst) : State := s.eachRow (i.rowsIn i.gaA i.gaC) fun s x => s.gateRow i x

def gateRowDef : TRow :=
  { TRow.plain 0x31 (fun s i => s.startLane i State.gateRun) with
    useLoop := true
    useBays := true
    prep := fun s i => s.captureUp i.spread
    checks := State.gateChecks
    zero := fun _ i => i.zeroRole i.rloop [0, 3]
    cost := fun _ i => i.rowCost (i.rowsIn i.gaA i.gaC) fun _ r => 12 + cdiv (r * i.gaA.e0) 16
    addrs := fun _ i => i.laneAddrs (i.rowsIn i.gaA i.gaC) [(i.gaA, i.gaA.e0), (i.gaB, i.gaA.e0)] [(i.gaC, i.gaC.e0)] []
    dep := fun _ _ => 1 }

def execGate (c : Fin 64) (w : Long) (s : State) : Out := issueTensor gateRowDef c.val w s

/-- Do the lane work whose wait has ended, in issue order (R193). -/
def State.runLanes (s : State) : State := s.instList.foldl (fun s j =>
  if j.laneDue && !(j.cores.any fun g => s.stageHeld g j.n) then
    let t := s.onInst j.n fun y => { y with laneDue := false }
    if j.opc = 0x31 then t.gateRun j else t.fnxRun j
  else s) s

/-! ### NORM -/

def Inst.noX (i : Inst) : Desc := i.desc (i.f 1 0 5)
def Inst.noG (i : Inst) : Desc := i.desc (i.f 1 5 5)
def Inst.noYn (i : Inst) : Nat := i.f 1 10 5
def Inst.noY (i : Inst) : Desc := i.desc i.noYn
def Inst.noS (i : Inst) : Desc := i.desc (i.f 1 15 5)
def Inst.gainEn (i : Inst) : Bool := i.b 1 20
def Inst.statEn (i : Inst) : Bool := i.b 1 21
def Inst.noN (i : Inst) : Nat := i.sv (i.f 2 0 5)
def Inst.noEps (i : Inst) : Nat := i.sv (i.f 2 5 5) % 2 ^ 32

def Inst.noDescs (i : Inst) : List Desc :=
  [i.noX, i.noY] ++ (if i.gainEn then [i.noG] else []) ++ (if i.statEn then [i.noS] else [])

def State.normChecks (s : State) (i : Inst) : List Nat :=
  when (i.f 0 26 6 != 0 || i.f 1 22 10 != 0 || i.f 2 10 22 != 0 || i.f 3 14 18 != 0 || i.rnd == 3
    || (!i.gainEn && i.f 1 5 5 != 0) || (!i.statEn && i.f 1 15 5 != 0)) Code.encoding
  ++ descCodes i.noDescs
  ++ when (!laneIn i.noX || decide (10 < i.noY.fmtCode) || (i.gainEn && decide (10 < i.noG.fmtCode))) Code.format
  ++ when (i.rnd == 2) Code.mode ++ floorCodes i.noDescs ++ when (epsOf i.noEps).isNone Code.operand
  ++ s.rowCodes i true
  ++ when (decide (i.noX.e0 < i.noN) || decide (2 ^ 24 < i.noN) || (i.gainEn && decide (i.noG.e0 < i.noN))) Code.shape
  ++ s.rangeCodes i [i.noX] ([i.noY] ++ (if i.statEn then [i.noS] else []))
  ++ when (s.badPlace i i.rloop.cores) Code.slot

/-- One row of NORM (R212, R213): the first read of the row forms Q in the row-statistic entry, the second the output. -/
def State.normRow1 (s : State) (i : Inst) (x : RowRef) : State :=
  let a := i.noX
  let y := i.noY
  let n := i.noN
  let at' := i.dstAt y x
  let tgt := y.targets x.g at' n ++ (if i.statEn then i.noS.targets x.g (i.dstAt i.noS x) 1 else [])
  let r0 := s.readRow i x.g a (i.srcAt a x) n tgt
  if r0.stop then r0.s else
  let st := rowSumsOf i x.g x.r false r0.vals
  let r := r0.s.readRow i x.g a (i.srcAt a x) n tgt
  let g : RowIn := if i.gainEn then r.s.readRow i x.g i.noG Coord.zero n tgt else ⟨r.s, r.vals.map fun _ => .fin false 1, false, false, false, false⟩
  if g.stop then g.s else
  let rho := rowRho st (n : Nat) ((epsOf i.noEps).getD 0)
  let vs : List Ext := match rho with
    | none => r.vals.map fun _ => .nan
    | some k => if k = 0 then r.vals.map fun _ => .fin false 0 else List.zipWith (fun u v => (u.scale k).mul v) r.vals g.vals
  let bs := convRow y.fmt 0 y.ts (((List.range vs.length).zip vs).map fun p => (p.2, i.rndAt i.noYn (y.linear (at'.add 0 (p.1 : Nat))) 0))
  let status := b2n (rho == some 0) + 2 * b2n rho.isNone + 32 * b2n st.sq.inex
  let s1 := ((g.s.rowNotes i r).rowNotes i g).onStat x.g (x.r % 32) fun _ => st
  let s2 := s1.writeRow i x.g y at' bs (r.bad || g.bad)
  if i.statEn then s2.writeStatus i x.g i.noS (i.dstAt i.noS x) status (r.bad || g.bad) else s2

def normRowDef : TRow :=
  { TRow.plain 0x32 (fun s i => s.eachRow (i.rowsIn i.noX i.noY) fun s x => s.normRow1 i x) with
    useLoop := true
    useOw := true
    useBays := true
    prep := fun _ i => i.spread
    checks := State.normChecks
    zero := fun _ i => i.noN == 0 || i.zeroRole i.rloop [0, 3]
    cost := fun _ i => i.rowCost (i.rowsIn i.noX i.noY) fun _ r => r * (2 * cdiv i.noN 32 + 1) + 8
    addrs := fun _ i => i.laneAddrs (i.rowsIn i.noX i.noY) [(i.noX, i.noN), (i.noX, i.noN)] [(i.noY, i.noN)] []
      (if i.gainEn then [(i.noG, i.noN)] else []) (if i.statEn then [i.noS] else [])
    dep := fun _ _ => 1 }

def execNorm (c : Fin 64) (w : Long) (s : State) : Out := issueTensor normRowDef c.val w s

/-! ### QNT -/

def Inst.qnA (i : Inst) : Desc := i.desc (i.f 1 0 5)
def Inst.qnCn (i : Inst) : Nat := i.f 1 5 5
def Inst.qnC (i : Inst) : Desc := i.desc i.qnCn

def State.qntChecks (s : State) (i : Inst) : List Nat :=
  let ds := [i.qnA, i.qnC]
  when (i.f 0 26 6 != 0 || i.f 1 10 22 != 0 || i.wd 2 != 0 || i.f 3 16 16 != 0 || i.rnd == 3) Code.encoding
  ++ descCodes ds ++ when (!laneIn i.qnA || decide (7 < i.qnC.fmtCode)) Code.format
  ++ when (i.rnd == 2) Code.mode ++ floorCodes ds ++ s.rowCodes i false
  ++ when (!i.qnA.same i.qnC) Code.shape ++ s.rangeCodes i [i.qnA] [i.qnC]

/-- One row of QNT (R44 to R46). A WIDE entry enters with its exact value (DEDUCED, log 114). -/
def State.qntRow (s : State) (i : Inst) (x : RowRef) : State :=
  let a := i.qnA
  let c := i.qnC
  let at' := i.dstAt c x
  let r := s.readRow i x.g a (i.srcAt a x) a.e0 (c.targets x.g at' a.e0)
  if r.stop then r.s else
  let bs := convRow c.fmt i.hr c.ts (((List.range r.vals.length).zip r.vals).map fun p => (p.2, i.rndAt i.qnCn (c.linear (at'.add 0 (p.1 : Nat))) 0))
  (r.s.rowNotes i r).writeRow i x.g c at' bs r.bad

def qntRowDef : TRow :=
  { TRow.plain 0x33 (fun s i => s.eachRow (i.rowsIn i.qnA i.qnC) fun s x => s.qntRow i x) with
    useLoop := true
    useBays := true
    prep := fun _ i => i.spread
    checks := State.qntChecks
    zero := fun _ i => i.zeroRole i.rloop [0, 3]
    cost := fun _ i => i.rowCost (i.rowsIn i.qnA i.qnC) fun _ r => 8 + cdiv (r * i.qnA.e0) 32
    addrs := fun _ i => i.laneAddrs (i.rowsIn i.qnA i.qnC) [(i.qnA, i.qnA.e0)] [(i.qnC, i.qnC.e0)] []
    dep := fun _ _ => 1 }

def execQnt (c : Fin 64) (w : Long) (s : State) : Out := issueTensor qntRowDef c.val w s

end Sys2Proof.Machine
end

