-- ==== Sys2Proof/Machine/Crypto.lean ====
section
/-!
DEFINITION. The checks over byte strings that the spec names by standard: CRC-32C (R262, R460) with
the reflected polynomial 0x82F6_3B78, SHA-256 of FIPS 180-4 and HMAC-SHA-256 of FIPS 198-1 (R504).
-/

namespace Sys2Proof.Crypto

/-- One bit step of the reflected CRC (R262). -/
def crcBit (c : W32) : W32 := if c.getLsbD 0 then (c >>> 1) ^^^ 0x82F63B78#32 else c >>> 1

/-- One byte into the CRC. -/
def crcByte (c : W32) (b : Byte) : W32 :=
  crcBit (crcBit (crcBit (crcBit (crcBit (crcBit (crcBit (crcBit (c ^^^ b.setWidth 32))))))))

/-- CRC-32C: start at all ones, final exclusive-or with all ones (R262). -/
def crc32c (bs : List Byte) : W32 := bs.foldl crcByte 0xFFFFFFFF#32 ^^^ 0xFFFFFFFF#32

/-- The round constants of SHA-256. -/
def shaK : List W32 := [
  0x428a2f98#32, 0x71374491#32, 0xb5c0fbcf#32, 0xe9b5dba5#32, 0x3956c25b#32, 0x59f111f1#32, 0x923f82a4#32, 0xab1c5ed5#32,
  0xd807aa98#32, 0x12835b01#32, 0x243185be#32, 0x550c7dc3#32, 0x72be5d74#32, 0x80deb1fe#32, 0x9bdc06a7#32, 0xc19bf174#32,
  0xe49b69c1#32, 0xefbe4786#32, 0x0fc19dc6#32, 0x240ca1cc#32, 0x2de92c6f#32, 0x4a7484aa#32, 0x5cb0a9dc#32, 0x76f988da#32,
  0x983e5152#32, 0xa831c66d#32, 0xb00327c8#32, 0xbf597fc7#32, 0xc6e00bf3#32, 0xd5a79147#32, 0x06ca6351#32, 0x14292967#32]
  ++ [
  0x27b70a85#32, 0x2e1b2138#32, 0x4d2c6dfc#32, 0x53380d13#32, 0x650a7354#32, 0x766a0abb#32, 0x81c2c92e#32, 0x92722c85#32,
  0xa2bfe8a1#32, 0xa81a664b#32, 0xc24b8b70#32, 0xc76c51a3#32, 0xd192e819#32, 0xd6990624#32, 0xf40e3585#32, 0x106aa070#32,
  0x19a4c116#32, 0x1e376c08#32, 0x2748774c#32, 0x34b0bcb5#32, 0x391c0cb3#32, 0x4ed8aa4a#32, 0x5b9cca4f#32, 0x682e6ff3#32,
  0x748f82ee#32, 0x78a5636f#32, 0x84c87814#32, 0x8cc70208#32, 0x90befffa#32, 0xa4506ceb#32, 0xbef9a3f7#32, 0xc67178f2#32]

/-- The eight working words of SHA-256. -/
structure Sha where
  a : W32
  b : W32
  c : W32
  d : W32
  e : W32
  f : W32
  g : W32
  h : W32
  deriving DecidableEq, Repr

def rotr (x : W32) (n : Nat) : W32 := x.rotateRight n

/-- The initial hash value. -/
def sha0 : Sha := ⟨0x6a09e667#32, 0xbb67ae85#32, 0x3c6ef372#32, 0xa54ff53a#32, 0x510e527f#32, 0x9b05688c#32, 0x1f83d9ab#32, 0x5be0cd19#32⟩

/-- Four bytes, most significant first. -/
def beWord : List Byte → W32
  | a :: b :: c :: d :: _ => a ++ b ++ c ++ d
  | _ => 0

/-- The first sixteen words of a block. -/
def blockWords : Nat → List Byte → List W32
  | 0, _ => []
  | n + 1, bs => beWord bs :: blockWords n (bs.drop 4)

/-- The message schedule, held newest first: sixteen words grown to sixty-four. -/
def schedule : Nat → List W32 → List W32
  | 0, ws => ws
  | n + 1, ws =>
    let w15 := ws.getD 14 0
    let w2 := ws.getD 1 0
    let s0 := rotr w15 7 ^^^ rotr w15 18 ^^^ (w15 >>> 3)
    let s1 := rotr w2 17 ^^^ rotr w2 19 ^^^ (w2 >>> 10)
    schedule n ((ws.getD 15 0 + s0 + ws.getD 6 0 + s1) :: ws)

/-- One round. -/
def shaRound (s : Sha) (kw : W32) : Sha :=
  let s1 := rotr s.e 6 ^^^ rotr s.e 11 ^^^ rotr s.e 25
  let ch := (s.e &&& s.f) ^^^ (~~~s.e &&& s.g)
  let t1 := s.h + s1 + ch + kw
  let s0 := rotr s.a 2 ^^^ rotr s.a 13 ^^^ rotr s.a 22
  let mj := (s.a &&& s.b) ^^^ (s.a &&& s.c) ^^^ (s.b &&& s.c)
  ⟨t1 + (s0 + mj), s.a, s.b, s.c, s.d + t1, s.e, s.f, s.g⟩

/-- One 64-byte block. -/
def shaBlock (s : Sha) (bs : List Byte) : Sha :=
  let ws := (schedule 48 (blockWords 16 bs).reverse).reverse
  let t := (List.zipWith (· + ·) shaK ws).foldl shaRound s
  ⟨s.a + t.a, s.b + t.b, s.c + t.c, s.d + t.d, s.e + t.e, s.f + t.f, s.g + t.g, s.h + t.h⟩

def wordBytesBE (w : W32) : List Byte := (natLe 4 w.toNat).reverse

/-- The padding of FIPS 180-4: a one bit, zeros, and the bit length in eight bytes. -/
def shaPad (bs : List Byte) : List Byte :=
  bs ++ [0x80#8] ++ zeroBytes ((119 - bs.length % 64) % 64) ++ (natLe 8 (8 * bs.length)).reverse

/-- SHA-256 of a byte string. -/
def sha256 (bs : List Byte) : List Byte :=
  let p := shaPad bs
  let s := (chunks 64 (p.length / 64) p).foldl shaBlock sha0
  [s.a, s.b, s.c, s.d, s.e, s.f, s.g, s.h].flatMap wordBytesBE

/-- HMAC-SHA-256 with a 32-byte key (R504). -/
def hmac (key msg : List Byte) : List Byte :=
  let k := key ++ zeroBytes (64 - key.length)
  sha256 (k.map (· ^^^ 0x5c#8) ++ sha256 (k.map (· ^^^ 0x36#8) ++ msg))

end Sys2Proof.Crypto
end

