-- ==== Sys2Proof/Machine/Pwu.lean ====
section
/-!
DEFINITION. The Page Walk Unit (R221 to R266): pools and frames, sequence records, table entries and walks,
the translation buffers, frame metadata, allocation, release and reclaim, page copies, digests, summaries
and the snapshot log. Every access of an instruction's walk is one of its requests (R498).
-/

namespace Sys2Proof.Machine

/-! ### Pools (R221, R222, R265) -/

/-- The head dimension of a DIM code (R221, R265). -/
def dimOf (k : Nat) : Nat := [64, 96, 128, 192, 256].getD k 0
def PoolCfg.T (c : PoolCfg) : Nat := 16 * 2 ^ c.tpp
def PoolCfg.H (c : PoolCfg) : Nat := c.heads + 1
def PoolCfg.d (c : PoolCfg) : Nat := dimOf c.dim
/-- Element and scale bytes of one head of one token (R223). -/
def PoolCfg.eb (c : PoolCfg) : Nat := if c.kvf = 0 then c.d else c.d / 2
def PoolCfg.sb (c : PoolCfg) : Nat := if c.kvf = 0 then c.d / 32 else c.d / 16
def PoolCfg.fmt (c : PoolCfg) : Fmt := if c.kvf = 0 then .e4m3 else .n4
/-- The regions of a page frame (R223). -/
def PoolCfg.ke (c : PoolCfg) : Nat := cdiv (32 + c.H * c.d) 64 * 64
def PoolCfg.ks (c : PoolCfg) : Nat := c.ke + c.H * c.T * c.eb
def PoolCfg.ve (c : PoolCfg) : Nat := c.ks + c.H * c.T * c.sb
def PoolCfg.vs (c : PoolCfg) : Nat := c.ve + c.H * c.T * c.eb
def PoolCfg.bytes (c : PoolCfg) : Nat := c.vs + c.H * c.T * c.sb
/-- FSTRIDE (R222). -/
def PoolCfg.stride (c : PoolCfg) : Nat := if c.kind = 1 then 1 else cdiv c.bytes 4096

/-- The offset of head `h`, token slot `t` in a region of `n` bytes a token (R224). -/
def PoolCfg.at' (c : PoolCfg) (base n h t : Nat) : Nat := base + (h * c.T + t) * n

/-- The slot of a frame number; `none` where R222 does not accept it. -/
def Pool.slotOf (p : Pool) (frame : Nat) : Option Nat :=
  if p.fstride = 0 || frame < p.cfg.frameBase then none
  else
    let k := frame - p.cfg.frameBase
    if k % p.fstride = 0 && decide (k / p.fstride < p.cfg.slots) then some (k / p.fstride) else none

def Pool.frameOf (p : Pool) (slot : Nat) : Nat := p.cfg.frameBase + slot * p.fstride

/-! ### Sequence records (R229, R230) -/

structure SeqRec where
  no : Nat
  seqid : Nat
  dom : Nat
  pool : Nat
  gen : Nat
  valid : Bool
  specOpen : Bool
  snap : Bool
  clen : Nat
  slen : Nat
  nlayers : Nat
  ltbl : Nat
  snapep : Nat
  rsv : Bool
  deriving DecidableEq, Repr

def SeqRec.of (no : Nat) (b : List Byte) : SeqRec :=
  { no := no, seqid := leAt b 0 4, dom := leAt b 4 1 % 16, pool := leAt b 5 1 % 64, gen := leAt b 6 1, valid := bitOf (leAt b 7 1) 0,
    specOpen := bitOf (leAt b 7 1) 1, snap := bitOf (leAt b 7 1) 2, clen := leAt b 8 4, slen := leAt b 12 1,
    nlayers := leAt b 13 1, ltbl := leAt b 16 8 % 2 ^ 52, snapep := leAt b 24 4,
    rsv := leAt b 4 1 / 16 != 0 || leAt b 5 1 / 64 != 0 || leAt b 7 1 / 8 != 0 || !zeroAt b 14 2 || !zeroAt b 28 36 }

def SeqRec.flags (r : SeqRec) : Nat := b2n r.valid + 2 * b2n r.specOpen + 4 * b2n r.snap

/-- The bytes of a record as the PWU reads them. -/
def State.recBytes (s : State) (no : Nat) : List Byte := (s.cachedRec no).getD (s.extBytes (s.recAddr no) 64)
def State.seqRec (s : State) (no : Nat) : SeqRec := SeqRec.of no (s.recBytes no)

/-- The record of a handle is known: the instruction has held for it until the cache has it (R230). One that cannot be read
refuses nothing: the accepted instruction meets what its read meets (log 128). -/
def State.recAllowed (s : State) (no : Nat) : Bool := (s.cachedRec no).isSome

/-- The refusals of naming a sequence (R230, R266, R513). -/
def State.nameCodes (s : State) (i : Inst) (k : Nat) : List Nat :=
  let h := i.handle k
  let r := s.seqRec h.1
  when (s.seqFenced h.1 h.2) Code.fenced
  ++ (if !s.recAllowed h.1 then []
      else when (!r.valid || r.rsv || r.gen != h.2 || !(s.pool r.pool).cfg.enable) Code.state ++ when (r.dom != i.dom) Code.priv)

/-- The refusals of an instruction that walks a sequence's tables (R230, R264, R266, R513). -/
def State.seqCodes (s : State) (i : Inst) (k : Nat) : List Nat := when (!s.pwu.cfg.enable) Code.state ++ s.nameCodes i k

/-- A layer at or above NLAYERS (R352). -/
def State.layerCodes (s : State) (i : Inst) (k layer : Nat) : List Nat :=
  when (s.recAllowed (i.handle k).1 && decide ((s.seqRec (i.handle k).1).nlayers ≤ layer)) Code.shape

/-- Name the sequence of handle field `k` in the instruction, with its lengths at issue (R272, R277, R344, R514). -/
def State.nameSeq (s : State) (i : Inst) (k : Nat) : Inst :=
  let h := i.handle k
  let r := s.seqRec h.1
  { i with seq := some h, seqid := r.seqid, clen := r.clen, slen := r.slen }

/-- The fault of a line that the Page Walk Unit could not use (R517): FAULT.MEM_ERROR, or that of its port; a timeout has its
error record already (R443), a speculative instruction raises none (R280). -/
def State.tableFault (s : State) (i : Inst) (a code : Nat) : State :=
  if i.spec then s
  else if code = Code.fPortTimeout then s.onInst i.n fun y => { y with faults := if y.faults.contains code then y.faults else y.faults ++ [code] }
  else s.instFault i.n { code := code, unit := 0x06, addr := a, poison := true, detail := homePort a }

/-- The instruction's work has met lines that it must wait for: nothing after them counts. -/
def State.waits (s : State) (n : Nat) : Bool := ((s.inst n).map fun y => !y.turn.want.isEmpty).getD false

/-- One round of the Page Walk Unit's reads for an instruction: lines of records, tables, metadata, rings or the log, whole
and together (R243, R498). The answer names the lines that bring nothing: denied ones, and those that came back in error,
of which nothing is used (R517). Lines that have not been read yet are asked for, and the instruction's work waits for
them. `walk` says which level of a walk they are. -/
def State.readLines (s : State) (i : Inst) (walk : Nat) (ls : List Nat) : State × List Nat :=
  match s.inst i.n with
  | none => (s, ls)
  | some j =>
    if !j.turn.want.isEmpty then (s, ls)
    else
      let q := ls.foldl (fun (acc : State × List Nat × List Nat) l =>
        match acc.1.checkAcc i.dom (i.cls == 1) .rd l with
        | .ok =>
          if acc.1.portFenced (homePort l) then (acc.1.portDenied i.n (homePort l) l true, acc.2.1, l :: acc.2.2)
          else (acc.1, acc.2.1 ++ [l], acc.2.2)
        | a => (acc.1.denied i.n .rd l a, acc.2.1, l :: acc.2.2)) (s, [], [])
      let go := q.2.1
      let g := j.turn.got.getD j.turn.done []
      if go.isEmpty then (q.1, q.2.2)
      else if j.turn.all then (go.foldl (fun s l => s.queueRead i.dom (i.cls == 1) (.table i.n) l 64 false []) q.1, q.2.2)
      else if go.all fun l => g.any fun e => e.1 == l then
        let bad := g.filter fun e => e.2 != 0 && go.contains e.1
        (bad.foldl (fun s e => s.tableFault i e.1 e.2) (q.1.onInst i.n fun y => { y with turn := { y.turn with done := y.turn.done + 1 } }),
         q.2.2 ++ bad.map Prod.fst)
      else (s.onInst i.n fun y => { y with turn := { y.turn with want := go, walk := walk } }, ls)

/-- Read the record of an accepted instruction, through the record cache; `none` where the read is denied or has failed. -/
def State.openSeq (s : State) (i : Inst) (k : Nat) : State × Option SeqRec :=
  let no := (i.handle k).1
  match s.cachedRec no, i.recBad.filter fun b => b.1 == no with
  | some b, _ => (s, some (SeqRec.of no b))
  | none, some b => (s.tableFault i (s.recAddr no) b.2.1, none)
  | none, none =>
    let q := s.readLines i 0 [s.recAddr no]
    if q.2.isEmpty then (q.1.keepRec no (s.extBytes (s.recAddr no) 64), some (s.seqRec no)) else (q.1, none)

/-- Write through a field of a record: its bytes `[off, off + 8)` are one aligned write, the cache's copy takes what
memory then holds. -/
def State.putRec (s : State) (i : Inst) (r : SeqRec) (off : Nat) : State :=
  let b := s.extBytes (s.recAddr r.no) 64
  let b1 := patch (patch (patch (patch b 7 [BitVec.ofNat 8 r.flags]) 8 (natLe 4 r.clen)) 12 [BitVec.ofNat 8 r.slen]) 24 (natLe 4 r.snapep)
  let s1 := s.writeExt i.n (s.recAddr r.no + off) ((b1.drop off).take 8) false
  match s1.cachedRec r.no with
  | some c => s1.keepRec r.no (patch c off (s1.extBytes (s1.recAddr r.no + off) 8))
  | none => s1

/-! ### Table entries (R232 to R234) -/

abbrev Pte := Nat
def Pte.v (e : Pte) : Bool := bitOf e 0
def Pte.t (e : Pte) : Bool := bitOf e 1
def Pte.s (e : Pte) : Bool := bitOf e 2
def Pte.w (e : Pte) : Bool := bitOf e 3
def Pte.m (e : Pte) : Bool := bitOf e 4
def Pte.p (e : Pte) : Bool := bitOf e 5
def Pte.frame (e : Pte) : Nat := fld e 8 40
def Pte.fill (e : Pte) : Nat := fld e 48 8
def Pte.pool (e : Pte) : Nat := fld e 56 8
def Pte.addr (e : Pte) : Nat := e.frame * 4096
def pteFlag (e : Pte) (k : Nat) (b : Bool) : Pte := if b then setBit e k else clrBit e k
def mkPte (flags frame fill pool : Nat) : Pte := flags + frame * 2 ^ 8 + fill * 2 ^ 48 + pool * 2 ^ 56

/-- A leaf or TAIL entry that R234 rejects. -/
def State.leafBad (s : State) (r : SeqRec) (e : Pte) : Bool :=
  let c := (s.pool r.pool).cfg
  let far := e.t
  fld e 6 2 != 0 || decide (c.T < e.fill)
  || (if far then !c.partnerEn || e.pool != c.partner else e.pool != r.pool)
  || ((s.pool e.pool).slotOf e.frame).isNone

/-- A directory or ROOT entry that R234 rejects. -/
def State.dirBad (s : State) (e : Pte) : Bool :=
  fld e 1 7 != 0 || e.fill != 0 || e.pool != s.pwu.cfg.tablePool || ((s.pool e.pool).slotOf e.frame).isNone

/-- What a walk finds for a page. -/
inductive Walk where
  | pte (e : Pte)
  | absent
  | bad
  | denied
  deriving DecidableEq, Repr

/-- An aligned 8-byte entry. -/
def State.qword (s : State) (a : Nat) : Nat := leNat (s.extBytes a 8)

def SeqRec.rootAt (r : SeqRec) (layer : Nat) : Nat := r.ltbl + 16 * layer
def SeqRec.tailAt (r : SeqRec) (layer : Nat) : Nat := r.ltbl + 16 * layer + 8

/-- The address of a page's directory entry, where its ROOT is valid. -/
def State.dirAt (s : State) (r : SeqRec) (layer page : Nat) : Option Nat :=
  let e : Pte := s.qword (r.rootAt layer)
  if e.v && !s.dirBad e then some (e.addr + 8 * (page / 512)) else none

/-- The address of a page's leaf entry, where the levels above it are valid. -/
def State.leafAt (s : State) (r : SeqRec) (layer page : Nat) : Option Nat :=
  match s.dirAt r layer page with
  | none => none
  | some a =>
    let e : Pte := s.qword a
    if e.v && !s.dirBad e then some (e.addr + 8 * (page % 512)) else none

/-- What a page's tables say. -/
def State.look (s : State) (r : SeqRec) (layer page : Nat) : Walk :=
  let root : Pte := s.qword (r.rootAt layer)
  if !root.v then .absent else if s.dirBad root then .bad
  else
    let d : Pte := s.qword (root.addr + 8 * (page / 512))
    if !d.v then .absent else if s.dirBad d then .bad
    else
      let e : Pte := s.qword (d.addr + 8 * (page % 512))
      if !e.v then .absent else if s.leafBad r e then .bad else .pte e

/-- What the layer's TAIL entry says. -/
def State.tailOf (s : State) (r : SeqRec) (layer : Nat) : Walk :=
  let t : Pte := s.qword (r.tailAt layer)
  if !t.v then .absent else if s.leafBad r t then .bad else .pte t

/-- The aligned line of an address. -/
def lineOf (a : Nat) : Nat := a / 64 * 64

/-- Cut a list into pieces of `k`. -/
def piecesOf (k : Nat) (l : List Nat) : List (List Nat) := (List.range (cdiv l.length k)).map fun j => (l.drop (k * j)).take k

/-- Read the lines of one level of a walk, together, once the level above is back; the pages that a line without data
leaves. A speculative walk loses only the pages that need the line (R280), any other ends. -/
def State.readLevel (i : Inst) (walk : Nat) (line : State → Nat → Option Nat) (acc : State × List Nat) : State × List Nat :=
  let q := acc.1.readLines i walk (dedupNat (acc.2.filterMap (line acc.1)))
  (q.1, if q.2.isEmpty then acc.2 else if i.spec then acc.2.filter fun p => !(line acc.1 p).any q.2.contains else [])

/-- One walk, of up to 64 pages (R243): the layer's line, then each needed directory line, then each leaf line, once each. -/
def State.walkOne (s : State) (i : Inst) (r : SeqRec) (layer : Nat) (pages : List Nat) : State × List (Nat × Walk) :=
  let q := State.readLevel i 2 (fun s p => (s.leafAt r layer p).map lineOf) (State.readLevel i 2 (fun s p => (s.dirAt r layer p).map lineOf)
    (State.readLevel i 1 (fun _ _ => some (lineOf (r.rootAt layer))) (s, pages)))
  (q.1, pages.map fun p => (p, if q.2.contains p then s.look r layer p else .denied))

/-- Walk pages for instruction `i`, 64 in each walk (R243). -/
def State.walk (s : State) (i : Inst) (r : SeqRec) (layer : Nat) (pages : List Nat) : State × List (Nat × Walk) :=
  (piecesOf 64 pages).foldl (fun (acc : State × List (Nat × Walk)) ps =>
    let w := acc.1.walkOne i r layer ps
    (w.1, acc.2 ++ w.2)) (s, [])

/-! ### Translation buffers (R245, R246, R248) -/

def Lab.set (l : Lab) : Nat := (l.record % 64) ^^^ (l.layer % 64) ^^^ (l.page % 64)
def Lab.same (a b : Lab) : Bool := a.record == b.record && a.gen == b.gen && a.layer == b.layer && a.page == b.page

/-- Install an entry at the front, dropping the least recently used of its set. -/
def labPut (l : List Lab) (x : Lab) : List Lab :=
  let rest := l.filter fun y => !y.same x
  let mine := rest.filter fun y => y.set == x.set
  let keep := mine.take 7
  x :: rest.filter fun y => y.set != x.set || keep.contains y

def microPut (l : List Lab) (x : Lab) : List Lab := (x :: l.filter fun y => !y.same x).take 32

def State.labFind (s : State) (x : Lab) : Option Lab := s.pwu.lab.find? fun y => y.same x
def State.microFind (s : State) (b : Nat) (x : Lab) : Option Lab := (s.by b).micro.find? fun y => y.same x

/-- What a KVIV's scope covers (R384). -/
def IvScope.covers (v : IvScope) (x : Lab) : Bool := match v.form with
  | 0 => true
  | 1 => x.dom == v.dom
  | 2 => x.record == v.record
  | 3 => x.record == v.record && x.layer == v.layer
  | _ => x.record == v.record && x.layer == v.layer && decide (v.page ≤ x.page) && decide (x.page < v.page + v.n)

/-- Remove translations (R246, R248). -/
def State.dropLab (s : State) (f : Lab → Bool) : State :=
  let s1 := s.onPwu fun p => { p with lab := p.lab.filter fun x => !f x }
  (List.range 32).foldl (fun s b => if (s.by b).micro.any f then s.onBy b fun x => { x with micro := x.micro.filter fun y => !f y } else s) s1

/-- Translate pages for instruction `i` (R245): the micro-buffer of `bay` where there is one, the look-aside
buffer, then a walk. A speculative walk leaves the buffers as they are, and a walk that a KVIV met in flight installs nothing
of its scope (R248). -/
def State.translateAt (s : State) (i : Inst) (bay : Option Nat) (r : SeqRec) (layer : Nat) (pages : List Nat) :
    State × List (Nat × Walk) :=
  let key := fun (p : Nat) => (⟨r.dom, r.no, r.gen, layer, p, 0⟩ : Lab)
  let hit := fun (s : State) (p : Nat) => match bay.bind fun b => s.microFind b (key p) with
    | some x => some (x, true)
    | none => (s.labFind (key p)).map fun x => (x, false)
  let miss := pages.filter fun p => (hit s p).isNone
  let w := s.walk i r layer miss
  let put := fun (s : State) (x : Lab) =>
    if ((s.inst i.n).map fun y => y.turn.kills.any fun v => v.covers x).getD false then s else
    let s1 := s.onPwu fun p => { p with lab := labPut p.lab x }
    match bay with
    | some b => s1.onBy b fun y => { y with micro := microPut y.micro x }
    | none => s1
  pages.foldl (fun (acc : State × List (Nat × Walk)) p =>
    match hit s p with
    | some (x, inMicro) =>
      let s1 := if i.spec then acc.1
        else if inMicro then (match bay with
          | some b => acc.1.onBy b fun y => { y with micro := microPut y.micro x }
          | none => acc.1)
        else (put acc.1 x).onPwu fun q => { q with labHits := holdAdd q.labHits 1 }
      (s1, acc.2 ++ [(p, .pte x.pte)])
    | none =>
      let res := ((w.2.find? fun q => q.1 == p).map Prod.snd).getD .absent
      let s1 := match res with
        | .pte e => if i.spec then acc.1 else put acc.1 { key p with pte := e }
        | _ => acc.1
      (s1, acc.2 ++ [(p, res)])) (w.1, [])

/-- Translate pages for an instruction on its bays, each of which looks them up (R245); with none, the PWU looks them up
for a unit of its own. The instruction takes what its first bay finds (R251). -/
def State.translate (s : State) (i : Inst) (bays : List Nat) (r : SeqRec) (layer : Nat) (pages : List Nat) : State × List (Nat × Walk) :=
  let w := s.translateAt i bays.head? r layer pages
  let found := w.2.filterMap fun q => match q.2 with
    | .pte _ => some q.1
    | _ => none
  (if i.spec then w.1 else bays.tail.foldl (fun s b => (s.translateAt i (some b) r layer found).1) w.1, w.2)

/-- The fault of a page entry (R234): scope sequence; none for speculative work (R280). -/
def State.pageFault (s : State) (i : Inst) (r : SeqRec) (code page : Nat) : State :=
  if i.spec then s else s.instFault i.n { code := code, scope := 6, unit := 0x02, index := r.no, gen := r.gen, poison := true, detail := page }

/-- The fault of a walk's answer for a page that must exist. -/
def State.walkFault (s : State) (i : Inst) (r : SeqRec) (page : Nat) (w : Walk) : State :=
  match w with
  | .absent => s.pageFault i r Code.fPageAbsent page
  | .bad => s.pageFault i r Code.fPteFormat page
  | _ => s

/-- Write a table entry (R243, R246): an aligned 8-byte write; the matching translations are removed. -/
def State.putPte (s : State) (i : Inst) (r : SeqRec) (layer page a : Nat) (e : Pte) : State :=
  (s.writeExt i.n a (natLe 8 e) false).dropLab fun x => x.record == r.no && x.gen == r.gen && x.layer == layer && x.page == page

/-! ### Frame metadata (R236, R237) -/

structure Meta where
  ref : Nat
  st : Nat
  flags : Nat
  pin : Nat
  dig : Nat
  deriving DecidableEq, Repr

def Pool.metaAt (p : Pool) (slot : Nat) : Nat := p.cfg.metaBase + 16 * slot
def Meta.bytes (m : Meta) : List Byte := natLe 2 m.ref ++ natLe 1 m.st ++ natLe 1 m.flags ++ natLe 4 m.pin ++ natLe 4 m.dig ++ zeroBytes 4
def metaOf (b : List Byte) : Option Meta :=
  if 2 < leAt b 2 1 || leAt b 3 1 / 4 != 0 || !zeroAt b 12 4 then none
  else some ⟨leAt b 0 2, leAt b 2 1, leAt b 3 1, leAt b 4 4, leAt b 8 4⟩

/-- FAULT.FRAME_META (R236). -/
def State.metaFault (s : State) (i : Inst) (slot : Nat) : State :=
  if i.spec then s else match i.seq with
  | some q => s.instFault i.n { code := Code.fFrameMeta, scope := 6, unit := 0x02, index := q.1, gen := q.2, poison := true, detail := slot }
  | none => s.instFault i.n { code := Code.fFrameMeta, unit := 0x02, poison := true, detail := slot }

/-- Read the metadata of a frame; `none` raises the fault, or follows a read that brought nothing. -/
def State.readMeta (s : State) (i : Inst) (p slot : Nat) : State × Option Meta :=
  let a := (s.pool p).metaAt slot
  let q := s.readLines i 0 [lineOf a]
  if !q.2.isEmpty then (q.1, none)
  else match metaOf (s.extBytes a 16) with
    | none => (q.1.metaFault i slot, none)
    | some m => (q.1, some m)

def State.writeMeta (s : State) (i : Inst) (p slot : Nat) (m : Meta) : State := s.writeExt i.n ((s.pool p).metaAt slot) m.bytes false

/-! ### Reservation, allocation, release, reclaim (R237, R238, R249, R250) -/

/-- Entries of the snapshot log that instructions have reserved. -/
def State.snapHeld (s : State) : Nat := (s.instList.map fun i => Map.get 0 i.held 64).sum
/-- SNAPLOG_AVAIL (R264). -/
def State.snapAvail (s : State) : Nat := s.pwu.cfg.snapSize - (s.pwu.snapHead - s.pwu.snapTail) - s.snapHeld

/-- REFUSE.POOL of R238 for a list of pools with frame counts, and log entries. -/
def State.poolCodes (s : State) (need : List (Nat × Nat)) (logs : Nat) : List Nat :=
  let tot := fun (p : Nat) => ((need.filter fun q => q.1 == p).map Prod.snd).sum
  when (need.any (fun q => decide ((s.pool q.1).avail < tot q.1)) || decide (s.snapAvail < logs)) Code.pool

/-- Take the reservation. -/
def State.reserve (s : State) (i : Inst) (need : List (Nat × Nat)) (logs : Nat) : State :=
  let s1 := need.foldl (fun s q => (s.onPool q.1 fun p => { p with avail := p.avail - q.2 }).onInst i.n fun y =>
    { y with held := Map.modify 0 y.held q.1 (· + q.2) }) s
  s1.onInst i.n fun y => { y with held := Map.modify 0 y.held 64 (· + logs) }

/-- Return what an instruction did not use. -/
def State.unreserve (s : State) (i : Inst) : State :=
  (i.held.filter fun q => decide (q.1 < 64)).foldl (fun s q => s.onPool q.1 fun p => { p with avail := p.avail + q.2 }) s

/-- Allocate a frame of pool `p` for instruction `i` (R237): `none` where the popped slot is not FREE or a
read brings nothing. The frame is one that the instruction reserved, else one of those not reserved (R238, R265). -/
def State.alloc (s : State) (i : Inst) (p : Nat) : State × Option Nat :=
  let x := s.pool p
  let a := x.cfg.ringBase + 4 * (x.head % max 1 x.cfg.slots)
  let q := s.readLines i 0 [lineOf a]
  if !q.2.isEmpty then (q.1, none)
  else
    let slot := leNat (s.extBytes a 4)
    let own := ((q.1.inst i.n).map fun y => decide (0 < Map.get 0 y.held p)).getD false
    let s1 := (q.1.onPool p fun y => { y with head := y.head + 1, avail := if own then y.avail else y.avail - 1 }).onInst i.n fun y =>
      { y with held := Map.modify 0 y.held p (· - 1) }
    let m := s1.readMeta i p slot
    match m.2 with
    | none => (m.1, none)
    | some v =>
      if v.st ≠ 0 then (m.1.metaFault i slot, none)
      else (m.1.writeMeta i p slot { v with ref := 1, st := 1, flags := 0 }, some slot)

/-- How far an epoch lies behind the walk epoch. -/
def State.behind (s : State) (e : Nat) : Nat := (s.pwu.walkEpoch + 2 ^ 32 - e % 2 ^ 32) % 2 ^ 32
/-- The open read sessions' epochs (R249). -/
def State.sessions (s : State) : List Nat := s.instList.filterMap Inst.session
/-- OLDEST, as a distance behind the walk epoch. -/
def State.oldestBehind (s : State) : Nat := maxOr 0 (s.sessions.map s.behind)
/-- OLDEST_EPOCH (R264). -/
def State.oldest (s : State) : Nat := (s.pwu.walkEpoch + 2 ^ 32 - s.oldestBehind) % 2 ^ 32

/-- Advance the walk epoch while R250 says so. -/
def State.advance : Nat → State → State
  | 0, s => s
  | fuel + 1, s =>
    let e := s.pwu.walkEpoch
    if (s.pwu.retire.any fun r => r.epoch == e) && !(s.sessions.any fun x => s.behind x == 63) then
      State.advance fuel (s.onPwu fun p => { p with walkEpoch := (e + 1) % 2 ^ 32 })
    else s

/-- A write of the PWU itself for a domain, sent where that domain's windows allow it (R497, log 33). -/
def State.pwuWrite (s : State) (dom a : Nat) (bs : List Byte) : State :=
  if s.checkAcc dom false .wr a != .ok || s.portFenced (homePort a) then s else s.queueWrite dom false .pwu a bs false

/-- Push a slot onto its pool's ring and free its metadata, as writes of the PWU itself (log 33). -/
def State.freeSlot (s : State) (p slot dom : Nat) : State :=
  let x := s.pool p
  let a := x.cfg.ringBase + 4 * (x.tail % max 1 x.cfg.slots)
  let m := x.metaAt slot
  ((s.pwuWrite dom a (natLe 4 slot)).pwuWrite dom (m + 2) [0]).onPool p fun y => { y with tail := y.tail + 1, avail := y.avail + 1 }

/-- Reclaim frames in the order in which they retired (R250). -/
def State.reclaim : Nat → State → State
  | 0, s => s
  | fuel + 1, s =>
    match s.pwu.retire with
    | [] => s
    | r :: rest =>
      if s.oldestBehind < s.behind r.epoch then
        State.reclaim fuel (((s.onPwu fun p => { p with retire := rest }).freeSlot r.pool r.slot r.dom).onPool r.pool
          fun y => { y with retiring := y.retiring - 1 })
      else s

/-- What follows from a retirement or the close of a session. -/
def State.settle (s : State) : State := State.reclaim 4096 (State.advance 64 s)

/-- Release one reference of a frame (R250, R252). -/
def State.release (s : State) (i : Inst) (p frame : Nat) : State :=
  match (s.pool p).slotOf frame with
  | none => s
  | some slot =>
    let m := s.readMeta i p slot
    match m.2 with
    | none => m.1
    | some v =>
      if 1 < v.ref then m.1.writeMeta i p slot { v with ref := v.ref - 1 }
      else
        let e := m.1.pwu.walkEpoch
        let s1 := m.1.writeMeta i p slot { v with ref := 0, st := 2, pin := e }
        ((s1.onPwu fun q => { q with retire := q.retire ++ [⟨p, slot, e, i.dom⟩] }).onPool p fun y => { y with retiring := y.retiring + 1 }).settle

/-- Change the reference count of a frame by one more (R254, R258). -/
def State.addRef (s : State) (i : Inst) (p frame : Nat) : State :=
  match (s.pool p).slotOf frame with
  | none => s
  | some slot =>
    let m := s.readMeta i p slot
    match m.2 with
    | none => m.1
    | some v => m.1.writeMeta i p slot { v with ref := v.ref + 1 }

/-- The reference count of a frame; `none` follows a fault. -/
def State.refOf (s : State) (i : Inst) (p frame : Nat) : State × Option Nat :=
  match (s.pool p).slotOf frame with
  | none => (s, none)
  | some slot => let m := s.readMeta i p slot; (m.1, m.2.map Meta.ref)

/-! ### Page contents (R224 to R228, R262, R263) -/

/-- Copy a frame's regions: the unused one is never read (R224). The second part says whether the copy carries poison; `more`
is what else is formed from what is read. -/
def State.copyFrame (s : State) (i : Inst) (c : PoolCfg) (src dst : Nat) (more : List Tgt) : State × Bool :=
  let r := s.readExt i.n false (.ext dst c.bytes :: more) src c.bytes
  (r.1.writeExt i.n dst r.2.1 r.2.2, r.2.2)

/-- The byte ranges of a digest over FILL tokens, in address order (R262). -/
def PoolCfg.digestRuns (c : PoolCfg) (fill : Nat) : List (Nat × Nat) :=
  (0, c.ke) :: [(c.ke, c.eb), (c.ks, c.sb), (c.ve, c.eb), (c.vs, c.sb)].flatMap fun r =>
    (List.range c.H).map fun h => (c.at' r.1 r.2 h 0, fill * r.2)

/-- The digest of a page at frame address `a`. -/
def State.digest (s : State) (c : PoolCfg) (a fill : Nat) : Nat :=
  (Crypto.crc32c ((c.digestRuns fill).flatMap fun r => s.extBytes (a + r.1) r.2)).toNat

/-- Read the bytes of a page that its digest runs over, and compute it from what the reads bring (R262, R499). The last part says
whether any of it is poisoned. -/
def State.readDigest (s : State) (i : Inst) (c : PoolCfg) (a fill : Nat) (tgt : List Tgt) : State × Nat × Bool :=
  let q := (c.digestRuns fill).foldl (fun (acc : State × List Byte × Bool) r =>
    let g := acc.1.readExt i.n false tgt (a + r.1) r.2
    (g.1, acc.2.1 ++ g.2.1, acc.2.2 || g.2.2)) (s, [], false)
  (q.1, (Crypto.crc32c q.2.1).toNat, q.2.2)

/-- The metadata of a frame, with its slot. -/
def State.metaOfFrame (s : State) (i : Inst) (p frame : Nat) : State × Option (Nat × Meta) :=
  match (s.pool p).slotOf frame with
  | none => (s, none)
  | some slot => let m := s.readMeta i p slot; (m.1, m.2.map fun v => (slot, v))

/-- Write a digest, valid or not, into a frame's metadata `m`; one formed from poison is written as poison (R516). -/
def State.writeDigest (s : State) (i : Inst) (p : Nat) (m : Nat × Meta) (valid : Bool) (dig : Nat) (bad : Bool) : State :=
  s.writeExt i.n ((s.pool p).metaAt m.1) { m.2 with flags := m.2.flags / 2 * 2 + b2n valid, dig := dig }.bytes bad

/-- Put a digest, valid or not, into a frame's metadata. -/
def State.putDigest (s : State) (i : Inst) (p frame : Nat) (valid : Bool) (dig : Nat) (bad : Bool) : State :=
  let m := s.metaOfFrame i p frame
  match m.2 with
  | none => m.1
  | some v => m.1.writeDigest i p v valid dig bad

/-- Compute a page's digest and store it in its metadata `m` (R263). -/
def State.digestInto (s : State) (i : Inst) (p frame fill : Nat) (m : Nat × Meta) : State :=
  let d := s.readDigest i (s.pool p).cfg (frame * 4096) fill [.ext ((s.pool p).metaAt m.1) 16]
  d.1.writeDigest i p m true d.2.1 d.2.2

/-- Store a page's digest in its metadata (R263). -/
def State.storeDigest (s : State) (i : Inst) (p frame fill : Nat) : State :=
  let m := s.metaOfFrame i p frame
  match m.2 with
  | none => m.1
  | some v => m.1.digestInto i p frame fill v

/-- The K values of `n` tokens of one head, decoded from their elements and scales. -/
def PoolCfg.keys (c : PoolCfg) (el sc : List Byte) (n : Nat) : List (List Ext) := (List.range n).map fun t =>
  let f := c.fmt
  let e := leNat ((el.drop (t * c.eb)).take c.eb)
  (List.range c.d).map fun k => scaled (decodeElem f (fld e (k * f.bits) f.bits)) (decodeScale f (sc.getD (t * c.sb + k / f.block) 0).toNat)

/-- The least scale byte that covers a magnitude (R226): 255 for none. -/
def coverScale (x : ℚ) : Nat := ((List.range 255).find? fun (b : Nat) => decide (x ≤ 7 * pow2 ((b : Int) - 127))).getD 255

/-- One head's HSCALE and bounds after merging new tokens into `old` (HSCALE, bounds; `none` for no token covered)
(R226, R227). -/
def mergeHead (d : Nat) (old : Option (Nat × List (Int × Int))) (new : List (List Ext)) : Nat × List (Int × Int) :=
  let bad := new.any fun v => v.any fun x => !x.isFin
  let zero := (List.range d).map fun _ => ((0 : Int), (0 : Int))
  match old with
  | some (255, _) => (255, zero)
  | _ =>
    let x := new.foldl (fun a v => max a (maxMag v)) 0
    let b0 := match old with
      | some (b, _) => b
      | none => 0
    let b := max b0 (coverScale x)
    if bad || b = 255 then (255, zero)
    else
      let q := pow2 ((b : Int) - 127)
      (b, (List.range d).map fun k =>
        let vs := new.map fun v => (v.getD k (.fin false 0)).toRat
        let lo := vs.map fun y => (y / q).floor
        let hi := vs.map fun y => (y / q).ceil
        let o : List (Int × Int) := match old with
          | some (c, l) =>
            let p := l.getD k (0, 0)
            let m : ℚ := 2 ^ (b - c)
            [(((p.1 : ℚ) / m).floor, ((p.2 : ℚ) / m).ceil)]
          | none => []
        ((lo ++ o.map Prod.fst).foldl min ((lo ++ o.map Prod.fst).headD 0), (hi ++ o.map Prod.snd).foldl max ((hi ++ o.map Prod.snd).headD 0)))

/-- The HSCALE and bounds of head `h` in a summary. -/
def PoolCfg.headSummary (c : PoolCfg) (b : List Byte) (h : Nat) : Nat × List (Int × Int) :=
  ((b.getD (16 + h) 0).toNat,
   (List.range c.d).map fun k => let y := (b.getD (32 + h * c.d + k) 0).toNat; (sextNat 4 (y % 16), sextNat 4 (y / 16)))

/-- The keys of token slots `[lo, hi)` of a page, head by head: those that the instruction has written or, where `found` says
so, what its reads bring. The last part says whether any of them is poisoned. -/
def State.readKeys (s : State) (i : Inst) (c : PoolCfg) (a lo hi : Nat) (found : Bool) : State × List (List (List Ext)) × Bool :=
  (List.range c.H).foldl (fun (acc : State × List (List (List Ext)) × Bool) h =>
    let ea := a + c.at' c.ke c.eb h lo
    let sa := a + c.at' c.ks c.sb h lo
    if !found then (acc.1, acc.2.1 ++ [c.keys (s.extBytes ea ((hi - lo) * c.eb)) (s.extBytes sa ((hi - lo) * c.sb)) (hi - lo)], acc.2.2)
    else
      let x := acc.1.readExt i.n false [.ext a c.ke] ea ((hi - lo) * c.eb)
      let y := x.1.readExt i.n false [.ext a c.ke] sa ((hi - lo) * c.sb)
      (y.1, acc.2.1 ++ [c.keys x.2.1 y.2.1 (hi - lo)], acc.2.2 || x.2.2 || y.2.2)) (s, [], false)

/-- Merge token slots `[lo, hi)` of a page into its summary (R227); COVER counts them. A summary formed from poison is written
as poison (R499, R516). -/
def State.mergeSummary (s : State) (i : Inst) (c : PoolCfg) (a lo hi : Nat) (found bad : Bool) : State :=
  let z := s.readExt i.n false [.ext a c.ke] a c.ke
  let b := z.2.1
  let ks := z.1.readKeys i c a lo hi found
  let cover := (b.getD 0 0).toNat
  let hs := ((List.range c.H).zip ks.2.1).map fun h => mergeHead c.d (if cover = 0 then none else some (c.headSummary b h.1)) h.2
  let nonfin := (bitOf (b.getD 1 0).toNat 0 && cover != 0) || (ks.2.1.any fun h => h.any fun t => t.any fun x => !x.isFin) || hs.any fun h => h.1 == 255
  let body := natLe 1 (cover + (hi - lo)) ++ natLe 1 (b2n nonfin) ++ zeroBytes 14 ++ (hs.map fun h => BitVec.ofNat 8 h.1) ++ zeroBytes (16 - c.H)
    ++ (hs.flatMap fun h => h.2.map fun p => BitVec.ofNat 8 (wrapInt 4 p.1 + 16 * wrapInt 4 p.2))
  ks.1.writeExt i.n a (body ++ zeroBytes (c.ke - body.length)) (bad || z.2.2 || ks.2.2)

/-! ### Snapshot preservation (R258, R259) and copies on write (R240, R253) -/

/-- Where the next entry of the snapshot log goes. -/
def State.snapNext (s : State) : Nat := s.pwu.cfg.snapBase + 32 * (s.pwu.snapHead % max 1 s.pwu.cfg.snapSize)

/-- Append an entry to the snapshot log; a digest formed from poison makes it poison. -/
def State.snapLog (s : State) (i : Inst) (r : SeqRec) (kind layer page : Nat) (e : Pte) (dig : Nat) (bad : Bool) : State :=
  let b := natLe 2 r.no ++ natLe 1 r.gen ++ natLe 1 kind ++ natLe 2 layer ++ zeroBytes 2 ++ natLe 4 page ++ natLe 4 r.snapep
    ++ natLe 8 (pteFlag e 3 false) ++ natLe 4 dig ++ zeroBytes 4
  let s1 := (s.writeExt i.n s.snapNext b bad).onPwu fun q => { q with snapHead := q.snapHead + 1 }
  s1.onInst i.n fun y => { y with held := Map.modify 0 y.held 64 (· - 1) }

/-- Preserve a page as a reference (kind 1): the frame gains the log's reference. -/
def State.snapRef (s : State) (i : Inst) (r : SeqRec) (layer page : Nat) (e : Pte) : State :=
  let d := s.readDigest i (s.pool e.pool).cfg e.addr e.fill [.ext s.snapNext 32]
  (d.1.addRef i e.pool e.frame).snapLog i r 1 layer page e d.2.1 d.2.2

/-- Copy a page into a new frame of pool `dst`; the new frame's number, and whether the copy is poisoned. `more` gives from
the new frame's metadata entry what else is formed from the page. -/
def State.copyPage (s : State) (i : Inst) (e : Pte) (dst : Nat) (more : Nat → List Tgt) : State × Option (Nat × Bool) :=
  let q := s.alloc i dst
  match q.2 with
  | none => (q.1, none)
  | some slot =>
    let f := (q.1.pool dst).frameOf slot
    let k := q.1.copyFrame i (q.1.pool e.pool).cfg e.addr (f * 4096) (more ((q.1.pool dst).metaAt slot))
    (k.1, some (f, k.2))

/-- A copy of a page with the digest of what was copied (R263); the new frame's number, the digest, and whether they are
poisoned. -/
def State.copyWithDigest (s : State) (i : Inst) (e : Pte) (dst : Nat) (more : List Tgt) : State × Option (Nat × Nat × Bool) :=
  let k := s.copyPage i e dst fun a => .ext a 16 :: more
  match k.2 with
  | none => (k.1, none)
  | some (f, bad) =>
    let d := k.1.digest (k.1.pool dst).cfg (f * 4096) e.fill
    (k.1.putDigest i dst f true d bad, some (f, d, bad))

/-- Preserve a page as a copy (kind 0) in a frame of the pool's SNAP_POOL. -/
def State.snapCopy (s : State) (i : Inst) (r : SeqRec) (layer page : Nat) (e : Pte) : State × Bool :=
  let k := s.copyWithDigest i e (s.pool e.pool).cfg.snapPool [.ext s.snapNext 32]
  match k.2 with
  | none => (k.1, false)
  | some (f, d, bad) => (k.1.snapLog i r 0 layer page (mkPte (e % 256) f e.fill e.pool) d bad, true)

/-- Resolve a page before a write into it (R240): the entry to write through, `none` after a fault. A write-protected
shared page is kept by a reference of the log, so that its frame is copied whatever its count was. -/
def State.forWrite (s : State) (i : Inst) (r : SeqRec) (layer page a : Nat) (e : Pte) : State × Option Pte :=
  let ref := s.refOf i e.pool e.frame
  match ref.2 with
  | none => (ref.1, none)
  | some n =>
    let s0 := ref.1
    let cow := e.s && (e.w || decide (1 < n))
    let s1 : State × Bool := if !e.w then (s0, true) else if cow then (s0.snapRef i r layer page e, true) else s0.snapCopy i r layer page e
    if !s1.2 then (s1.1, none)
    else if cow then
      let c := s1.1.copyWithDigest i e e.pool []
      match c.2 with
      | none => (c.1, none)
      | some (f, _) =>
        let e1 := pteFlag (pteFlag (mkPte (e % 256) f e.fill e.pool) 2 false) 3 false
        ((c.1.putPte i r layer page a e1).release i e.pool e.frame, some e1)
    else
      let e1 := pteFlag (if e.s then pteFlag e 2 false else e) 3 false
      (if e1 = e then s1.1 else s1.1.putPte i r layer page a e1, some e1)

/-! ### Table frames -/

/-- Allocate a directory or leaf frame with every entry invalid. -/
def State.newTable (s : State) (i : Inst) : State × Option Nat :=
  let tp := s.pwu.cfg.tablePool
  let q := s.alloc i tp
  match q.2 with
  | none => (q.1, none)
  | some slot =>
    let f := (q.1.pool tp).frameOf slot
    (q.1.writeExt i.n (f * 4096) (zeroBytes 4096) false, some f)

/-- The address of a page's leaf entry, its directory and leaf made where they are missing (R239); `none` after a
fault. -/
def State.makeLeaf (s : State) (i : Inst) (r : SeqRec) (layer page : Nat) : State × Option Nat :=
  let tp := s.pwu.cfg.tablePool
  let root : Pte := s.qword (r.rootAt layer)
  let s1 : State × Option Nat :=
    if root.v then (if s.dirBad root then (s.pageFault i r Code.fPteFormat page, none) else (s, some root.frame))
    else
      let q := s.newTable i
      match q.2 with
      | none => (q.1, none)
      | some f => (q.1.writeExt i.n (r.rootAt layer) (natLe 8 (mkPte 1 f 0 tp)) false, some f)
  match s1.2 with
  | none => (s1.1, none)
  | some f =>
    let da := f * 4096 + 8 * (page / 512)
    let d : Pte := s1.1.qword da
    let s2 : State × Option Nat :=
      if d.v then (if s1.1.dirBad d then (s1.1.pageFault i r Code.fPteFormat page, none) else (s1.1, some d.frame))
      else
        let q := s1.1.newTable i
        match q.2 with
        | none => (q.1, none)
        | some g => (q.1.writeExt i.n da (natLe 8 (mkPte 1 g 0 tp)) false, some g)
    (s2.1, s2.2.map fun g => g * 4096 + 8 * (page % 512))

/-- A new page of the record's pool with nothing covered (R237, R239): its frame. -/
def State.newPage (s : State) (i : Inst) (pool : Nat) : State × Option Nat :=
  let q := s.alloc i pool
  match q.2 with
  | none => (q.1, none)
  | some slot =>
    let f := (q.1.pool pool).frameOf slot
    (q.1.writeExt i.n (f * 4096) (zeroBytes 64) false, some f)

/-! ### Walk slots and the order of edits (R244, R246, R250, R256) -/

/-- The walk slots in use, with their classes: one for each walk in progress, an instruction's own walks running one after
another, and those of requests that a full park list keeps. -/
def State.walkers (s : State) : List (Nat × Bool) :=
  let kept := dedupNat ((s.pwu.parks.drop 64).map Park.inst)
  s.pwu.slots.map (fun x => (x.inst, x.clsA))
    ++ (kept.filter fun n => !(s.pwu.slots.any fun x => x.inst == n)).map fun n => (n, ((s.inst n).map fun i => i.cls == 1).getD false)

/-- A walk slot is free for a class: 4 of the 16 serve only Class A where it is enabled on any bay. -/
def State.slotFree (s : State) (clsA : Bool) : Bool :=
  let w := s.walkers
  decide (w.length < 16) && (clsA || !(s.presentBays.any fun b => s.aOn b) || decide ((w.filter fun x => !x.2).length < 12))

/-- The instruction edits the tables of sequences: their records and generations. -/
def Inst.edits (i : Inst) : List (Nat × Nat) :=
  if i.opc = 0x47 then [i.handle (i.f 2 0 4), i.handle (i.f 2 24 4)]
  else if [0x40, 0x41, 0x42, 0x45].contains i.opc || (i.opc == 0x46 && !i.b 0 27) then [i.handle (i.f 2 0 4)] else []

/-- The instruction's edits are not all made yet. -/
def State.editsDue (s : State) (i : Inst) : Bool := s.pwu.queue.contains i.n || !i.parked.isEmpty

/-- An instruction issued before it has edits of one of its sequences to make first (R246). -/
def State.editsFirst (s : State) (i : Inst) : Bool :=
  s.instList.any fun j => decide (j.n < i.n) && s.editsDue j && j.edits.any i.edits.contains

/-- The retire queue has room for `k` frames more (R250). -/
def State.room (s : State) (k : Nat) : Bool := decide (s.pwu.retire.length + k ≤ 4096)

/-- Do an instruction's edits piece by piece from where it stands, while it raises no fault, parks nothing, and the retire
queue has room for the `k` frames that a piece may retire; whether none is left. A piece that has lines to wait for is done
once they are back, as a whole. -/
def State.pieces (n k : Nat) (f : State → Nat → State) : Nat → State → State × Bool
  | 0, s => (s, true)
  | fuel + 1, s =>
    match s.inst n with
    | none => (s, true)
    | some i =>
      if !i.faults.isEmpty || !i.parked.isEmpty then (s, true)
      else if !s.room k then (s, false)
      else
        let t := f s i.pos
        match t.inst n with
        | none => (t, true)
        | some j =>
          if !j.turn.want.isEmpty then (s.onInst n fun y => { y with turn := j.turn }, false)
          else if !j.parked.isEmpty then (t, true)
          else State.pieces n k f fuel (t.onInst n fun y => { y with pos := i.pos + 1, turn := { kills := j.turn.kills, all := j.turn.all } })

/-- A read of instruction `n`'s own data is out. -/
def State.readsOut (s : State) (n : Nat) : Bool := s.mem.ports.any fun p => p.2.allReqs.any fun r => !r.wr && r.why == .tensor n

/-- The parked requests that a scope covers leave the park list, and walk again in their turn (R256). -/
def State.unpark (s : State) (f : Park → Bool) : State :=
  let gone := s.pwu.parks.filter f
  let s1 := s.onPwu fun p => { p with
    parks := p.parks.filter fun x => !f x
    queue := p.queue ++ (dedupNat (gone.map Park.inst)).filter fun n => !p.queue.contains n }
  gone.foldl (fun s k => s.onInst k.inst fun y => { y with again := y.again ++ [k.page] }) s1

end Sys2Proof.Machine
end

