-- ==== Sys2Proof/Machine/Kv.lean ====
section
/-!
DEFINITION. The cache instructions (R239 to R263, R381 to R387): KVAP, KVCM, KVDS, KVFN, KVIV, PGCW, PGFR and
PGPN: their checks and what the PWU does for each when its turn comes (R244, R246; Walks.lean, log 34).
-/

namespace Sys2Proof.Machine

/-! ### Fields and checks shared by the family (R381) -/

def Inst.hnd (i : Inst) : Nat := i.f 2 0 4
def Inst.layer (i : Inst) : Nat := i.f 2 4 7
def Inst.pg (i : Inst) : Nat := i.sv (i.f 2 11 5)
def Inst.np (i : Inst) : Nat := i.sv (i.f 2 16 5)
def Inst.aux4 (i : Inst) : Nat := i.f 2 24 4

/-- A page and its count below 2^24 (R381). -/
def Inst.pageCodes (i : Inst) : List Nat := when (decide (2 ^ 24 ≤ i.pg) || decide (2 ^ 24 ≤ i.np)) Code.shape

/-- The record that an instruction names, as it is now. -/
def State.recOf (s : State) (i : Inst) : SeqRec := s.seqRec (i.handle i.hnd).1

/-- Speculative instructions of the sequence are in flight (R278). -/
def State.specBusy (s : State) (i : Inst) : Bool := s.instList.any fun j => j.spec && j.seq == some (i.handle i.hnd)

/-- Do `f` with the record of the instruction's handle; nothing more where it cannot be read. -/
def State.withSeq (s : State) (i : Inst) (f : State → SeqRec → State) : State :=
  let q := s.openSeq i i.hnd
  match q.2 with
  | none => q.1
  | some r => f q.1 r

/-- Run `f` on each item while the instruction raises no fault and waits for nothing: what is done before a fault stays done. -/
def State.untilFault {α : Type} (n : Nat) : List α → (State → α → State) → State → State
  | [], _, s => s
  | x :: xs, f, s =>
    match s.inst n with
    | some i => if i.faults.isEmpty && i.turn.want.isEmpty then State.untilFault n xs f (f s x) else s
    | none => s

/-- Put an instruction of Class B or C on the park list for the far pages it needs, or raise FAULT.PAGE_FAR in Class A
(R256). The answer says whether it may go on. -/
def State.parkFar (s : State) (i : Inst) (r : SeqRec) (layer : Nat) (far : List Nat) : State × Bool :=
  match far with
  | [] => (s, true)
  | p :: _ =>
    if i.cls = 1 then (s.instFault i.n { code := Code.fPageFar, unit := 0x02, poison := true, detail := p }, false)
    else
      let s1 := far.foldl (fun s p => (s.raise 0x0305 0x02 [r.no, layer, p]).onPwu fun q =>
        { q with promotes := holdAdd q.promotes 1, parks := q.parks ++ [⟨i.n, r.no, r.gen, layer, p⟩] }) s
      (s1.onInst i.n fun y => { y with parked := y.parked ++ far }, false)

/-- The pages of a walk whose entries lie in the far tier. -/
def farOf (ws : List (Nat × Walk)) : List Nat := ws.filterMap fun w => match w.2 with
  | .pte e => if Pte.t e then some w.1 else none
  | _ => none

/-- The first page of a walk that is not there as an instruction needs it, with what the walk found. -/
def badOf (ws : List (Nat × Walk)) : Option (Nat × Walk) := ws.find? fun w => match w.2 with
  | .bad | .denied => true
  | _ => false

/-- A page of the range lies in a far pool that is disabled: the instruction would name it (R266). -/
def State.farClosed (s : State) (r : SeqRec) (layer : Nat) (pages : List Nat) : Bool :=
  let c := (s.pool r.pool).cfg
  c.partnerEn && !(s.pool c.partner).cfg.enable && pages.any fun p => match s.look r layer p with
    | .pte e => Pte.t e
    | _ => false

/-- The snapshot pool in which the instruction would take a frame is not there, or is disabled (R266). -/
def State.snapClosed (s : State) (r : SeqRec) (snap : Nat) : Bool :=
  let c := (s.pool r.pool).cfg
  snap != 0 && !(c.snapEn && (s.pool c.snapPool).cfg.enable)

/-- Open an instruction's read session (R249). -/
def State.openSession (s : State) (i : Inst) : State := s.onInst i.n fun y => { y with session := some s.pwu.walkEpoch }

/-! ### KVAP (R239 to R241, R382) -/

def Inst.apK (i : Inst) : Desc := i.desc (i.f 1 0 5)
def Inst.apV (i : Inst) : Desc := i.desc (i.f 1 5 5)
def Inst.apN (i : Inst) : Nat := i.sv (i.f 2 11 5) + i.f 2 16 9
def Inst.isSpecAp (i : Inst) : Bool := i.b 0 26

/-- Pages from that of token `lo` to that of token `hi - 1`. -/
def pagesOf (T lo hi : Nat) : List Nat := if hi ≤ lo then [] else (List.range ((hi - 1) / T - lo / T + 1)).map (· + lo / T)

/-- The worst case that KVAP reserves (R238, R258): a frame for every page it touches, a leaf for each of their directory
slots and a directory, for a layer may still be empty; under SNAP a snapshot frame and a log entry for each page. -/
def State.kvapNeed (s : State) (i : Inst) (r : SeqRec) : List (Nat × Nat) × Nat :=
  let c := (s.pool r.pool).cfg
  let start := if i.isSpecAp then r.clen + r.slen else r.clen
  let ps := pagesOf c.T start (start + i.apN)
  let snap := if r.snap then ps.length else 0
  ([(r.pool, ps.length), (s.pwu.cfg.tablePool, (dedupNat (ps.map (· / 512))).length + 1)]
    ++ (if snap = 0 then [] else [(c.snapPool, snap)]), snap)

/-- The coordinate of head `h` of token `j` in a source: heads are the rows of the M level, at the first iteration of every
other level, and tokens lie along dimension 2 (R355, R382; log 131). -/
def Inst.apAt (i : Inst) (d : Desc) (h j : Nat) : Coord :=
  let e := i.rloop
  let v := e.sorted.map fun l => if l.role == 0 && e.isTile l then h / e.tm else 0
  (e.rowAt .a ⟨1, 0, 1, false⟩ v 1 (d.loc == 2) (if (e.tile 0).isSome then h % e.tm else h)).add 2 (j : Nat)

/-- Head `h` of the last token of a source in the program region lies beyond it (R313). -/
def Inst.apBeyond (i : Inst) (d : Desc) (h : Nat) : Bool :=
  let x := i.apAt d h (i.apN - 1)
  d.beyondOb [d.e0 - 1, x.c1.toNat, x.c2.toNat, x.c3.toNat]

def State.kvapChecks (s : State) (i : Inst) : List Nat :=
  let ds := [i.apK, i.apV]
  let e := LoopE.of i.l
  let r := s.recOf i
  let c := (s.pool r.pool).cfg
  let seen := s.pwu.cfg.enable && s.recAllowed (i.handle i.hnd).1 && r.valid
  let need := s.kvapNeed i r
  when (i.f 0 27 5 != 0 || i.f 1 10 22 != 0 || i.f 2 25 7 != 0 || i.f 3 16 16 != 0 || i.rnd == 3 || e.badEntry
    || e.badTile [0] false false false) Code.encoding
  ++ descCodes ds ++ when (ds.any fun d => !laneIn d) Code.format ++ when (i.rnd == 2) Code.mode ++ floorCodes ds
  ++ s.coreCodes i.bays i.cores ++ when (i.badBound i.rloop) Code.shape
  ++ s.seqCodes i i.hnd ++ s.layerCodes i i.hnd i.layer
  ++ when (seen && s.snapClosed r (if i.isSpecAp then 0 else need.2)) Code.state
  ++ when (seen && (ds.any (fun d => d.e0 != c.d || d.e1 != c.H)
    || decide (min (2 ^ 24) (262144 * c.T) < r.clen + r.slen + i.apN) || (i.isSpecAp && decide (8 < r.slen + i.apN)))) Code.shape
  ++ when (seen && ds.any fun d => (List.range c.H).any fun h => i.apBeyond d h) Code.range
  ++ (if seen then s.poolCodes need.1 need.2 else [])

/-- Write token `j` of the instruction into token slot `t` of the frame at `a` (R224, R239): every head's K and V
converted on assignee `j mod C`. What lies outside a source is zero and never fetched (R298). Speculative work counts
nothing (R279). Keys that come poisoned are noted for page `p`, whose summary will be formed from them (R516). -/
def State.putToken (s : State) (i : Inst) (c : PoolCfg) (p a t j : Nat) : State :=
  let g := i.cores.getD (j % max 1 i.cores.length) 0
  let f := c.fmt
  (List.range c.H).foldl (fun s h =>
    [(i.apK, c.ke, c.ks, 0), (i.apV, c.ve, c.vs, 1)].foldl (fun s q =>
      let ea := a + c.at' q.2.1 c.eb h t
      let sa := a + c.at' q.2.2.1 c.sb h t
      let x := i.apAt q.1 h j
      let r := if q.1.hasBut 0 x then s.readRow i g q.1 x c.d ([.ext ea c.eb, .ext sa c.sb] ++ if q.2.2.2 = 0 then [.keys i.n p] else [])
        else ⟨s, List.replicate c.d (.fin false 0), false, false, false, false⟩
      let rnd := fun (k : Nat) => rndOf i.rnd (Config.kvDraw i.seed.toNat i.issue (((j * c.H + h) * c.d + k) * 2 + q.2.2.2) % 2 ^ 24)
      let bs := convRow f i.hr 1 (((List.range r.vals.length).zip r.vals).map fun p => (p.2, rnd p.1))
      let s0 := (r.s.rowNotes i r).markPoison i.n r.bad
      let s1 := if r.bad && q.2.2.2 == 0 then s0.poisonTgt (.keys i.n p) else s0
      let s2 := s1.writeExt i.n ea (packBits f.bits c.eb (bs.flatMap Block.elems)) r.bad
      (s2.writeExt i.n sa (bs.map fun b => BitVec.ofNat 8 b.scale) r.bad).count i.n i.strm (sumCounts bs)) s) s

/-- The metadata that a commit of a page up to token `hi` will write: that of a page that becomes full (R263). The last part says
whether the commit may go on. -/
def State.fullMeta (s : State) (i : Inst) (e : Pte) (hi : Nat) : State × Option (Nat × Meta) × Bool :=
  if hi = (s.pool e.pool).cfg.T then
    let m := s.metaOfFrame i e.pool e.frame
    (m.1, m.2, m.2.isSome || ((s.pool e.pool).slotOf e.frame).isNone)
  else (s, none, true)

/-- Commit `[lo, hi)` of a page (R227, R228, R242, R263): summary, FILL, M, P clear, and the digest of a full page, whose
metadata is `m`. -/
def State.commitPage (s : State) (i : Inst) (r : SeqRec) (layer page a : Nat) (e : Pte) (lo hi : Nat) (found bad : Bool) (m : Option (Nat × Meta)) : State :=
  let c := (s.pool e.pool).cfg
  let s1 := s.mergeSummary i c e.addr lo hi found bad
  let full := (s1.extByte e.addr).toNat == hi
  let flags := pteFlag (pteFlag (e % 64) 4 full) 5 false
  let s2 := s1.putPte i r layer page a (mkPte flags e.frame hi e.pool)
  match m with
  | some v => s2.digestInto i e.pool e.frame hi v
  | none => s2

/-- The token slots of page `p` that a committed append fills. -/
def State.appendSpan (s : State) (i : Inst) (r : SeqRec) (p : Nat) : Nat × Nat :=
  let T := (s.pool r.pool).cfg.T
  (max r.clen (p * T) - p * T, min (r.clen + i.apN) ((p + 1) * T) - p * T)

/-- The tokens of one page of a committed append: a page that the layer has not entered is allocated, wherever CLEN stands
(R239). Its entry keeps FILL and M until the append completes. -/
def State.appendPage (s : State) (i : Inst) (r : SeqRec) (p : Nat) : State :=
  let c := (s.pool r.pool).cfg
  let sp := s.appendSpan i r p
  let m := s.makeLeaf i r i.layer p
  match m.2 with
  | none => m.1
  | some a =>
    let e : Pte := m.1.qword a
    let q : State × Option Pte :=
      if !e.v then
        let n := m.1.newPage i r.pool
        (match n.2 with
          | some f => n.1.putPte i r i.layer p a (mkPte 1 f 0 r.pool)
          | none => n.1, n.2.map fun f => mkPte 1 f 0 r.pool)
      else if m.1.leafBad r e then (m.1.pageFault i r Code.fPteFormat p, none)
      else m.1.forWrite i r i.layer p a e
    match q.2 with
    | none => q.1
    | some e => (List.range (sp.2 - sp.1)).foldl (fun s k => s.putToken i c p e.addr (sp.1 + k) (p * c.T + sp.1 + k - r.clen)) q.1

/-- The walk of a committed append: a far page parks it (R256), a malformed entry ends it. -/
def State.appendWalk (s : State) (i : Inst) (r : SeqRec) (ps : List Nat) : State :=
  let w := s.walk i r i.layer ps
  match badOf w.2 with
  | some b => w.1.walkFault i r b.1 b.2
  | none => (w.1.parkFar i r i.layer (farOf w.2)).1

/-- The completion of a committed append (R227, R239): FILL, M, the summaries and digests of its pages, then CLEN. What a page
that becomes full has in its metadata is read first, so that a fault leaves every page as it was. -/
def State.appendEnd (s : State) (i : Inst) (r : SeqRec) (ps : List Nat) : State :=
  let pre := ps.foldl (fun (acc : State × List (Nat × Nat × Pte × Option (Nat × Meta)) × Bool) p =>
    if !acc.2.2 then acc
    else match acc.1.leafAt r i.layer p with
      | none => acc
      | some a =>
        let e : Pte := acc.1.qword a
        let m := acc.1.fullMeta i e (acc.1.appendSpan i r p).2
        (m.1, acc.2.1 ++ [(p, a, e, m.2.1)], m.2.2)) (s, [], true)
  if !pre.2.2 then pre.1
  else
    let bad := fun (p : Nat) => ((s.inst i.n).map fun y => y.badPages.contains p).getD false
    let s1 := pre.2.1.foldl (fun s q =>
      let sp := s.appendSpan i r q.1
      s.commitPage i r i.layer q.1 q.2.1 q.2.2.1 sp.1 sp.2 false (bad q.1) q.2.2.2) pre.1
    s1.putRec i { r with clen := r.clen + i.apN } 8

/-- The append of a committed KVAP: the walk, then page by page the tokens, and once its sources have been read the rest. -/
def State.append (s : State) (i : Inst) (r : SeqRec) : State × Bool :=
  let ps := pagesOf (s.pool r.pool).cfg.T r.clen (r.clen + i.apN)
  let m := ps.length
  let q := State.pieces i.n 1 (fun s k => if k = 0 then s.appendWalk i r ps else s.appendPage i r (ps.getD (k - 1) 0)) (m + 1 - i.pos) s
  match q.1.inst i.n with
  | none => q
  | some j =>
    if !q.2 || j.pos != m + 1 then q
    else if !j.turn.all && q.1.readsOut i.n then (q.1, false)
    else State.pieces i.n 0 (fun s _ => s.appendEnd i r ps) 1 q.1

/-- Where a draft's page lies (R241, R279): the frame address of a P = 1 page, of an unshared tail page, or of the TAIL
frame, which is copied for the first draft that needs it; `none` for a page that cannot take drafts (log 129). -/
def State.draftPage (s : State) (i : Inst) (r : SeqRec) (p : Nat) : State × Option Nat :=
  let c := (s.pool r.pool).cfg
  let m := s.makeLeaf i r i.layer p
  match m.2 with
  | none => (m.1, none)
  | some a =>
    let e : Pte := m.1.qword a
    if !e.v then
      let n := m.1.newPage i r.pool
      match n.2 with
      | none => (n.1, none)
      | some f => (n.1.putPte i r i.layer p a (mkPte 33 f 0 r.pool), some (f * 4096))
    else if m.1.leafBad r e || e.t then (m.1, none)
    else if e.p then (m.1, some e.addr)
    else if p != r.clen / c.T then (m.1, none)
    else
      let q := m.1.refOf i e.pool e.frame
      match q.2 with
      | none => (q.1, none)
      | some n =>
        if !(e.w || (e.s && decide (1 < n))) then (q.1, some e.addr)
        else match q.1.tailOf r i.layer with
          | .pte t => (q.1, if Pte.t t then none else some (Pte.addr t))
          | .absent =>
            let k := q.1.copyPage i e r.pool fun _ => []
            match k.2 with
            | none => (k.1, none)
            | some (f, _) =>
              (k.1.writeExt i.n (r.tailAt i.layer) (natLe 8 (mkPte (e % 64 / 16 % 2 * 16 + 33) f e.fill r.pool)) false, some (f * 4096))
          | _ => (q.1, none)

/-- The append of drafts (R241). -/
def State.appendDrafts (s : State) (i : Inst) (r : SeqRec) : State :=
  let c := (s.pool r.pool).cfg
  let start := r.clen + r.slen
  let w := s.walk i r i.layer (pagesOf c.T start (start + i.apN))
  let s1 := w.2.foldl (fun s x =>
    match x.2 with
    | .bad | .denied => s
    | _ =>
      let p := x.1
      let q := s.draftPage i r p
      match q.2 with
      | none => q.1
      | some a =>
        let lo := max start (p * c.T)
        let hi := min (start + i.apN) ((p + 1) * c.T)
        (List.range (hi - lo)).foldl (fun s k => s.putToken i c p a (lo + k - p * c.T) (lo + k - start)) q.1) w.1
  let r1 := { r with slen := r.slen + i.apN, specOpen := true }
  (s1.putRec i r1 8).putRec i r1 0

/-- KVAP in its turn. -/
def State.kvap (s : State) (i : Inst) : State × Bool :=
  let q := s.openSeq i i.hnd
  match q.2 with
  | none => (q.1, true)
  | some r => if i.isSpecAp then (q.1.appendDrafts i r, true) else q.1.append i r

/-- Addresses that lie in a frame of a page pool. -/
def State.inFrames (s : State) (p a : Nat) : Bool :=
  let x := s.pool p
  decide (x.cfg.frameBase * 4096 ≤ a) && decide (a < (x.cfg.frameBase + x.cfg.slots * x.fstride) * 4096)

/-- The lines of KVAP's sources (R359). -/
def Inst.apLines (i : Inst) : List Nat := (List.range i.apN).flatMap fun j => [i.apK, i.apV].flatMap fun d =>
  lineSort ((List.range d.e1).flatMap fun h => d.anySpans (i.apAt d h j) d.e0)

/-! ### KVCM and KVDS (R242, R283, R383) -/

def Inst.cmC (i : Inst) : Nat := if i.opc = 0x42 then 0 else i.sv (i.f 2 11 5) + i.f 2 16 4

/-- Pages that KVCM commits into in one layer, and those it may touch. -/
def State.cmPages (s : State) (i : Inst) (r : SeqRec) : List Nat := pagesOf (s.pool r.pool).cfg.T r.clen (r.clen + i.cmC)
def State.cmTouch (s : State) (r : SeqRec) : List Nat := pagesOf (s.pool r.pool).cfg.T r.clen (r.clen + r.slen)

/-- What KVCM reserves (R238, R258): a frame for each layer's tail page; under SNAP a snapshot frame and a log entry for each
page it may touch. -/
def State.kvcmNeed (s : State) (i : Inst) (r : SeqRec) : List (Nat × Nat) × Nat :=
  let snap := if r.snap then (s.cmTouch r).length * r.nlayers else 0
  ((if i.cmC = 0 then [] else [(r.pool, r.nlayers)]) ++ (if snap = 0 then [] else [((s.pool r.pool).cfg.snapPool, snap)]), snap)

def State.kvcmChecks (s : State) (i : Inst) : List Nat :=
  let r := s.recOf i
  let seen := s.pwu.cfg.enable && s.recAllowed (i.handle i.hnd).1 && r.valid
  let need := s.kvcmNeed i r
  when (i.f 0 26 6 != 0 || i.wd 1 != 0 || i.f 3 8 24 != 0 || i.f 2 4 7 != 0 || i.f 2 20 12 != 0 || (i.opc == 0x42 && i.f 2 11 9 != 0)) Code.encoding
  ++ s.seqCodes i i.hnd ++ when (seen && s.snapClosed r (if i.cmC = 0 then 0 else need.2)) Code.state
  ++ when (seen && decide (r.slen < i.cmC)) Code.shape ++ (if seen then s.poolCodes need.1 need.2 else [])

/-- Act on a page's leaf entry where it is valid; a malformed entry at any level faults (R234). -/
def State.onLeaf (s : State) (i : Inst) (r : SeqRec) (layer p : Nat) (f : State → Nat → Pte → State) : State :=
  match s.look r layer p, s.leafAt r layer p with
  | .pte e, some a => f s a e
  | .bad, _ => s.pageFault i r Code.fPteFormat p
  | _, _ => s

/-- Do `f` once the layer's line, with its TAIL entry, has been read. -/
def State.withTail (s : State) (i : Inst) (r : SeqRec) (layer : Nat) (f : State → State) : State :=
  let q := s.readLines i 0 [lineOf (r.tailAt layer)]
  if q.2.isEmpty then f q.1 else q.1

/-- Step 1 of R242: the leaf entry of the tail page takes the TAIL frame. -/
def State.swingTail (s : State) (i : Inst) (r : SeqRec) (layer : Nat) : State := s.withTail i r layer fun s =>
  let pt := r.clen / (s.pool r.pool).cfg.T
  match s.tailOf r layer with
  | .bad => s.pageFault i r Code.fPteFormat pt
  | .pte t =>
    if i.cmC = 0 then s
    else s.onLeaf i r layer pt fun s a e =>
      let k := if Pte.w e then s.snapCopy i r layer pt e else (s, true)
      if !k.2 then k.1
      else
        let s2 := k.1.putPte i r layer pt a (mkPte (pteFlag (t % 64) 5 false) (Pte.frame t) (Pte.fill t) (Pte.pool t))
        (s2.writeExt i.n (r.tailAt layer) (natLe 8 0) false).release i (Pte.pool e) (Pte.frame e)
  | _ => s

/-- Step 2 of R242 in one layer: each page that now holds committed tokens. -/
def State.commitLayer (s : State) (i : Inst) (r : SeqRec) (layer : Nat) : State :=
  let c := (s.pool r.pool).cfg
  State.untilFault i.n (s.cmPages i r) (fun s p => s.onLeaf i r layer p fun s a e =>
    let lo := max r.clen (p * c.T) - p * c.T
    let hi := min (r.clen + i.cmC) ((p + 1) * c.T) - p * c.T
    let q := s.forWrite i r layer p a e
    match q.2 with
    | none => q.1
    | some e =>
      let m := q.1.fullMeta i e hi
      if m.2.2 then m.1.commitPage i r layer p a e lo hi true false m.2.1 else m.1) s

/-- Step 4 of R242 in one layer: the pages that still have P = 1, and a TAIL frame that was not swung in. A write-protected
draft page is kept by a reference before its entry goes (R258). -/
def State.dropDrafts (s : State) (i : Inst) (r : SeqRec) (layer : Nat) : State :=
  let s1 := State.untilFault i.n (s.cmTouch r) (fun s p => s.onLeaf i r layer p fun s a e =>
    if Pte.p e then
      let s1 := if Pte.w e then s.snapRef i r layer p e else s
      (s1.putPte i r layer p a (clrBit e 0)).release i (Pte.pool e) (Pte.frame e)
    else s) s
  State.untilFault i.n [0] (fun s _ => s.withTail i r layer fun s => match s.tailOf r layer with
    | .pte t => (s.writeExt i.n (r.tailAt layer) (natLe 8 0) false).release i (Pte.pool t) (Pte.frame t)
    | _ => s) s1

/-- Walk the pages that KVCM may touch, in every layer, before it changes anything: a malformed entry faults, a far page that
it commits into parks it or faults (R256). Whether it may go on. -/
def State.openCommit (s : State) (i : Inst) (r : SeqRec) : State × Bool :=
  (List.range r.nlayers).foldl (fun (acc : State × Bool) l =>
    if !acc.2 then acc
    else
      let w := acc.1.walk i r l (s.cmTouch r)
      match badOf w.2 with
      | some b => (w.1.walkFault i r b.1 b.2, false)
      | none => w.1.parkFar i r l ((farOf w.2).filter (s.cmPages i r).contains)) (s, true)

/-- Step 3 of R242; the counters of R283 follow at the end. -/
def State.commitLen (s : State) (i : Inst) (r : SeqRec) : State :=
  match s.inst i.n with
  | some j =>
    if !j.faults.isEmpty then s
    else
      let r1 := { r with clen := r.clen + i.cmC, slen := 0, specOpen := false }
      ((s.putRec i r1 8).putRec i r1 0).onInst i.n fun y => { y with aux := y.aux ++ [3000 + i.cmC, 4000 + (r.slen - i.cmC)] }
  | none => s

/-- Piece `k` of KVCM: the steps of R242 in their order, each layer by layer. -/
def State.kvcmPiece (s : State) (i : Inst) (r : SeqRec) (k : Nat) : State :=
  let L := r.nlayers
  if k < L then s.swingTail i r k
  else if k < 2 * L then s.commitLayer i r (k - L)
  else if k = 2 * L then s.commitLen i r
  else s.dropDrafts i r (k - 2 * L - 1)

/-- KVCM and KVDS in their turn, piece by piece: a piece retires at most four frames. -/
def State.kvcm (s : State) (i : Inst) : State × Bool :=
  let q := s.openSeq i i.hnd
  match q.2 with
  | none => (q.1, true)
  | some r =>
    let f := if i.pos = 0 then q.1.openCommit i r else (q.1, true)
    if !f.2 then (f.1, true) else State.pieces i.n 4 (fun s k => s.kvcmPiece i r k) (3 * r.nlayers + 1 - i.pos) f.1

/-- DRAFTS_COMMITTED and SPEC_DISCARDED when KVCM or KVDS completes (R283). -/
def State.kvcmEnd (s : State) (i : Inst) : State :=
  let c := ((i.aux.find? fun k => decide (3000 ≤ k) && decide (k < 4000)).getD 3000) - 3000
  let d := ((i.aux.find? fun k => decide (4000 ≤ k)).getD 4000) - 4000
  s.onCx i.ctx fun x => { x with draftsCommitted := holdAdd x.draftsCommitted c, specDiscarded := holdAdd x.specDiscarded d }

/-! ### KVFN and KVIV (R247, R248, R384) -/

/-- The row KVFN (R247). -/
def kvfnRow : TRow :=
  { TRow.plain 0x43 (fun s _ => s) with
    checks := fun _ i => when (i.f 0 26 6 != 0 || i.wd 1 != 0 || i.wd 2 != 0 || i.f 3 8 24 != 0) Code.encoding
    dep := fun _ _ => 1 }

def execKvfn (c : Fin 64) (w : Long) (s : State) : Out := issueTensor kvfnRow c.val w s

/-- The scope of a KVIV (R384). -/
def Inst.ivScope (i : Inst) : IvScope := ⟨i.f 2 21 3, i.aux4, (i.handle i.hnd).1, i.layer, i.pg, i.np⟩
/-- What KVIV's scope covers (R384). -/
def Inst.ivCovers (i : Inst) (x : Lab) : Bool :=
  i.ivScope.covers x

/-- The scope of a KVIV names a record. -/
def Inst.ivRec (i : Inst) : Bool := decide (2 ≤ i.f 2 21 3) && decide (i.f 2 21 3 ≤ 4)

def State.kvivChecks (s : State) (i : Inst) : List Nat :=
  let f := i.f 2 21 3
  when (i.f 0 26 6 != 0 || i.wd 1 != 0 || i.f 3 8 24 != 0 || i.f 2 28 4 != 0 || decide (5 ≤ f) || (decide (f < 2) && i.hnd != 0)) Code.encoding
  ++ when ((f == 0 || (f == 1 && i.aux4 != i.dom)) && !(s.cx i.ctx).cfg.fwOwned) Code.priv
  ++ (if i.ivRec then s.nameCodes i i.hnd ++ (if f = 2 then [] else s.layerCodes i i.hnd i.layer) else [])
  ++ (if f = 4 then i.pageCodes else [])

/-- The frames of the pages that a paged MOV names, copied to consecutive addresses from its destination's base; a
destination in bay memory is that of every bay of its bay set (R390, log 39). What lies in a frame beyond its regions
is neither read nor written (R224, log 130). -/
def State.copyPages (s : State) (i : Inst) (pages : List Pte) : State :=
  let d := i.desc (i.f 1 5 5)
  ((List.range pages.length).zip pages).foldl (fun s q =>
    let c := (s.pool (Pte.pool q.2)).cfg
    let a := d.base + q.1 * 4096 * (s.pool (Pte.pool q.2)).fstride
    if d.loc = 0 then
      let k := s.copyFrame i c (Pte.addr q.2) a []
      k.1.markPoison i.n k.2
    else i.bays.foldl (fun s b =>
      let r := s.readExt i.n false [.bay b a c.bytes] (Pte.addr q.2) c.bytes
      (r.1.markPoison i.n r.2.2).putBay b a r.2.1 r.2.2) s) s

/-- The removal of KVIV (R248); the record cache drops the records in scope, and the walks in flight will install none of its
pages. -/
def State.kviv (s : State) (i : Inst) : State :=
  let h := i.handle i.hnd
  let s0 := s.onInsts fun y => if y.turn.wait.isEmpty then y else { y with turn := { y.turn with kills := i.ivScope :: y.turn.kills } }
  let s1 := s0.dropLab i.ivCovers
  s1.onPwu fun p => { p with recs := p.recs.filter fun r =>
    !(match i.f 2 21 3 with
      | 0 => true
      | 1 => (SeqRec.of r.1 r.2).dom == i.aux4
      | _ => r.1 == h.1) }

/-- Parked requests in the scope of a KVIV or PGCW PROMOTE that has completed walk again (R256). -/
def State.parkEnd (s : State) (i : Inst) : State :=
  if i.opc = 0x44 then s.unpark fun k => i.ivCovers ⟨(((s.inst k.inst).map Inst.dom).getD 0), k.record, k.gen, k.layer, k.page, 0⟩
  else if i.opc = 0x45 && i.f 2 21 3 == 1 then s.unpark fun k => k.record == (i.handle i.hnd).1 && k.gen == (i.handle i.hnd).2
    && k.layer == i.layer && decide (i.pg ≤ k.page) && decide (k.page < i.pg + i.np)
  else s

/-- The row KVIV (R248, R384). -/
def kvivRow : TRow :=
  { TRow.plain 0x44 State.kviv with
    doms := fun _ => [49]
    recs := fun i => if i.ivRec then [i.hnd] else []
    prep := fun s i => if i.ivRec then { i with seqid := (s.seqRec (i.handle i.hnd).1).seqid } else i
    checks := State.kvivChecks
    zero := fun _ i => i.f 2 21 3 == 4 && i.np == 0
    dep := fun _ _ => 1 }

def execKviv (c : Fin 64) (w : Long) (s : State) : Out := issueTensor kvivRow c.val w s

/-! ### PGCW (R253, R257, R258, R263, R385) -/

/-- What PGCW reserves (R238, R258): for COPY a frame for each page in the pool it lies in, near or far. -/
def State.pgcwNeed (s : State) (i : Inst) (r : SeqRec) : List (Nat × Nat) × Nat :=
  let c := (s.pool r.pool).cfg
  let dst := match i.f 2 21 3 with
    | 0 => (r.pool, i.np) :: (if c.partnerEn then [(c.partner, i.np)] else [])
    | 1 => [(r.pool, i.np)]
    | 2 => [(c.partner, i.np)]
    | _ => []
  let snap := if r.snap then i.np else 0
  (dst ++ (if snap = 0 then [] else [(c.snapPool, snap)]), snap)

/-- The checks of every PGCW form. -/
def State.pgcwChecks (s : State) (i : Inst) : List Nat :=
  let r := s.recOf i
  let c := (s.pool r.pool).cfg
  let seen := s.pwu.cfg.enable && s.recAllowed (i.handle i.hnd).1 && r.valid
  let f := i.f 2 21 3
  let need := s.pgcwNeed i r
  when (i.f 0 26 6 != 0 || i.wd 1 != 0 || i.f 3 8 24 != 0 || i.f 2 28 4 != 0 || i.aux4 != 0 || decide (6 ≤ f)) Code.encoding
  ++ s.seqCodes i i.hnd ++ s.layerCodes i i.hnd i.layer ++ i.pageCodes
  ++ when (seen && (((f == 1 || f == 2) && !(c.partnerEn && (s.pool c.partner).cfg.enable)) || (f == 3 && !c.snapEn)
    || ((f == 0 || f == 5) && s.farClosed r i.layer ((List.range i.np).map (i.pg + ·))))) Code.state
  ++ (if seen then s.poolCodes need.1 need.2 else [])

/-- Act on each page of the range in ascending order, 64 in each walk, where its entry is valid. `must` says that an absent
page faults. Pages done before a fault stay done (R385); one page may retire a frame. -/
def State.eachPage (s : State) (i : Inst) (r : SeqRec) (must : Bool) (f : State → Nat → Nat → Pte → State) : State × Bool :=
  State.pieces i.n 1 (fun s k =>
    let p := i.pg + k
    let s1 := if k % 64 = 0 then (s.walk i r i.layer ((List.range (min 64 (i.np - k))).map (· + p))).1 else s
    State.untilFault i.n [p] (fun s p => match s.look r i.layer p, s.leafAt r i.layer p with
      | .pte e, some a => f s p a e
      | .absent, _ => if must then s.walkFault i r p .absent else s
      | k, _ => s.walkFault i r p k) s1) (i.np - i.pos) s

/-- COPY of one page (R253): the frame with DIG_VALID and DIGEST. -/
def State.copyOne (s : State) (i : Inst) (r : SeqRec) (p a : Nat) (e : Pte) : State :=
  match (s.pool e.pool).slotOf e.frame with
  | none => s
  | some slot =>
    let m := s.readMeta i e.pool slot
    match m.2 with
    | none => m.1
    | some v =>
      if v.ref ≤ 1 then (if e.s then m.1.putPte i r i.layer p a (clrBit e 2) else m.1)
      else
        let s1 := if e.w then m.1.snapRef i r i.layer p e else m.1
        let k := s1.copyPage i e e.pool fun _ => []
        match k.2 with
        | none => k.1
        | some (f, _) =>
          let e1 := pteFlag (pteFlag (mkPte (e % 64) f e.fill e.pool) 2 false) 3 false
          ((k.1.putDigest i e.pool f (v.flags % 2 == 1) v.dig false).putPte i r i.layer p a e1).release i e.pool e.frame

/-- PROMOTE and DEMOTE of one page (R257): into pool `dst`, tier `far`. The copy keeps DIG_VALID and DIGEST (R253, log 132). -/
def State.moveTier (s : State) (i : Inst) (r : SeqRec) (dst : Nat) (far : Bool) (p a : Nat) (e : Pte) : State :=
  if e.t == far then s
  else match (s.pool e.pool).slotOf e.frame with
    | none => s
    | some slot =>
      let m := s.readMeta i e.pool slot
      match m.2 with
      | none => m.1
      | some v =>
        let k := m.1.copyPage i e dst fun _ => []
        match k.2 with
        | none => k.1
        | some (f, _) =>
          if v.flags % 2 = 1 && k.1.digest (k.1.pool dst).cfg (f * 4096) e.fill != v.dig then
            (k.1.instFault i.n { code := Code.fDigest, unit := 0x02, detail := p }).release i dst f
          else
            let s1 := if e.w then k.1.snapRef i r i.layer p e else k.1
            let e1 := pteFlag (pteFlag (mkPte (e % 64) f e.fill dst) 1 far) 3 false
            ((s1.putDigest i dst f (v.flags % 2 == 1) v.dig false).putPte i r i.layer p a e1).release i e.pool e.frame

/-- PROTECT and UNPROTECT set the record's fields once every page is done (R258). -/
def State.thenRec (s : State × Bool) (n : Nat) (f : State → State) : State × Bool := (if s.2 then State.untilFault n [0] (fun s _ => f s) s.1 else s.1, s.2)

/-- PGCW in its turn, by its form (R253, R257, R258, R263). -/
def State.pgcw (s : State) (i : Inst) : State × Bool :=
  let q := s.openSeq i i.hnd
  match q.2 with
  | none => (q.1, true)
  | some r => match i.f 2 21 3 with
    | 0 => q.1.eachPage i r true fun s p a e => s.copyOne i r p a e
    | 1 => q.1.eachPage i r true fun s p a e => s.moveTier i r r.pool false p a e
    | 2 => q.1.eachPage i r true fun s p a e => s.moveTier i r (s.pool r.pool).cfg.partner true p a e
    | 3 => State.thenRec (q.1.eachPage i r false fun s p a e => s.putPte i r i.layer p a (setBit e 3)) i.n fun s =>
      let r1 := { r with snap := true, snapep := Map.get 0 s.pwu.snapEpoch r.dom }
      (s.putRec i r1 0).putRec i r1 24
    | 4 => State.thenRec (q.1.eachPage i r false fun s p a e => s.putPte i r i.layer p a (clrBit e 3)) i.n fun s =>
      s.putRec i { r with snap := false } 0
    | _ => q.1.eachPage i r true fun s _ _ e => s.storeDigest i e.pool e.frame e.fill

/-! ### PGFR (R252, R261, R386) -/

def Inst.frAll (i : Inst) : Bool := i.b 0 26
def Inst.frLog (i : Inst) : Bool := i.b 0 27

/-- The valid pages of a layer, drafts and pages beyond CLEN among them. -/
def State.layerPages (s : State) (r : SeqRec) (layer : Nat) : Nat :=
  let root : Pte := s.qword (r.rootAt layer)
  if !root.v || s.dirBad root then 0
  else ((List.range 512).map fun d =>
    let e : Pte := s.qword (root.addr + 8 * d)
    if !e.v || s.dirBad e then 0 else ((List.range 512).filter fun k => Pte.v (s.qword (e.addr + 8 * k))).length).sum

/-- What PGFR reserves under SNAP, for each page that it may touch (R258). -/
def State.pgfrNeed (s : State) (i : Inst) (r : SeqRec) : List (Nat × Nat) × Nat :=
  let snap := if r.snap then (if i.frAll then s.layerPages r i.layer else i.np) else 0
  (if snap = 0 then [] else [((s.pool r.pool).cfg.snapPool, snap)], snap)

def State.pgfrChecks (s : State) (i : Inst) : List Nat :=
  let r := s.recOf i
  let seen := s.pwu.cfg.enable && s.recAllowed (i.handle i.hnd).1 && r.valid
  let need := s.pgfrNeed i r
  let zeros := i.f 0 28 4 != 0 || i.wd 1 != 0 || i.f 3 8 24 != 0 || i.f 2 21 11 != 0 || (i.frAll && i.frLog)
  if i.frLog then
    when (zeros || i.f 2 0 11 != 0 || i.f 2 16 5 != 0) Code.encoding ++ when (decide (2 ^ 24 ≤ i.pg)) Code.shape
  else
    when (zeros || (i.frAll && i.f 2 11 10 != 0)) Code.encoding
    ++ s.seqCodes i i.hnd ++ s.layerCodes i i.hnd i.layer ++ (if i.frAll then [] else i.pageCodes)
    ++ (if seen then s.poolCodes need.1 need.2 else [])

/-- Release one page (R252). -/
def State.freeOne (s : State) (i : Inst) (r : SeqRec) (p a : Nat) (e : Pte) : State :=
  let s1 := if e.w then s.snapRef i r i.layer p e else s
  (s1.putPte i r i.layer p a (clrBit e 0)).release i e.pool e.frame

/-- Piece `k` of PGFR ALL on the directory entries `dirs`: each leaf's 512 pages, 64 in each walk, then its frame; last the
directory, ROOT and CLEN. -/
def State.freePiece (s : State) (i : Inst) (r : SeqRec) (root : Pte) (dirs : List Nat) (k : Nat) : State :=
  match dirs[k / 513]? with
  | none =>
    let s1 := if root.v then s.release i root.pool root.frame else s
    State.untilFault i.n [0] (fun s _ => (s.writeExt i.n (r.rootAt i.layer) (natLe 8 (clrBit root 0)) false).putRec i { r with clen := 0 } 8) s1
  | some d =>
    let j := k % 513
    let de : Pte := s.qword (root.addr + 8 * d)
    if s.dirBad de then s.pageFault i r Code.fPteFormat (512 * d)
    else if j = 512 then s.release i de.pool de.frame
    else
      let p := 512 * d + j
      let s1 := if j % 64 = 0 then (s.walk i r i.layer ((List.range 64).map (· + p))).1 else s
      State.untilFault i.n [p] (fun s p => s.onLeaf i r i.layer p fun s a e => s.freeOne i r p a e) s1

/-- Release every page, leaf and directory of the layer; CLEN becomes 0 and ROOT invalid (R252). A fault leaves the frames
that still name pages. -/
def State.freeLayer (s : State) (i : Inst) (r : SeqRec) : State × Bool :=
  let first := fun (s : State) (ls : List Nat) => if i.pos = 0 then s.readLines i 0 ls else (s, [])
  let q := first s [lineOf (r.rootAt i.layer)]
  if !q.2.isEmpty then (q.1, true)
  else
    let root : Pte := s.qword (r.rootAt i.layer)
    if root.v && s.dirBad root then (q.1.pageFault i r Code.fPteFormat 0, true)
    else
      let p := if root.v then first q.1 (linesOf 64 root.addr 4096) else (q.1, [])
      if !p.2.isEmpty then (p.1, true)
      else
        let dirs := if root.v then (List.range 512).filter fun k => Pte.v (s.qword (root.addr + 8 * k)) else []
        State.pieces i.n 1 (fun s k => s.freePiece i r root dirs k) (513 * dirs.length + 1 - i.pos) p.1

/-- PGFR in its turn. -/
def State.pgfr (s : State) (i : Inst) : State × Bool :=
  let q := s.openSeq i i.hnd
  match q.2 with
  | none => (q.1, true)
  | some r => if i.frAll then q.1.freeLayer i r else q.1.eachPage i r false fun s p a e => s.freeOne i r p a e

/-- Release the oldest log entry: its reference, or the frame of its copy. An entry that cannot be read, or whose frame's
metadata faults, stays (R261); the fault is that of the sequence which the entry names (R524). -/
def State.dropLog (s : State) (i : Inst) : State :=
  let p := s.pwu
  let a := p.cfg.snapBase + 32 * (p.snapTail % max 1 p.cfg.snapSize)
  let q := s.readLines i 0 [lineOf a]
  if !q.2.isEmpty then q.1
  else
    let b := s.extBytes a 32
    let e : Pte := leAt b 16 8
    let pool := if leAt b 3 1 = 0 then (s.pool e.pool).cfg.snapPool else e.pool
    State.untilFault i.n [0] (fun s _ => s.onPwu fun q => { q with snapTail := q.snapTail + 1 })
      (q.1.release { i with seq := some (leAt b 0 2, leAt b 2 1) } pool e.frame)

/-- Release log entries from SNAPLOG_TAIL up to an index (R261). -/
def State.pgfrLog (s : State) (i : Inst) : State × Bool :=
  let p := s.pwu
  let size := max 1 p.cfg.snapSize
  State.pieces i.n 1 (fun s _ => s.dropLog i) (min ((i.pg + size - p.snapTail % size) % size) (p.snapHead - p.snapTail)) s

/-! ### PGPN (R254, R387) -/

/-- What PGPN reserves: the leaves its destination may lack, and a directory. -/
def State.pgpnNeed (s : State) (i : Inst) : List (Nat × Nat) :=
  [(s.pwu.cfg.tablePool, if i.np = 0 then 0 else (i.pg + i.np - 1) / 512 - i.pg / 512 + 2)]

def State.pgpnChecks (s : State) (i : Inst) : List Nat :=
  let a := s.recOf i
  let b := s.seqRec (i.handle i.aux4).1
  let seen := s.pwu.cfg.enable && s.recAllowed (i.handle i.hnd).1 && s.recAllowed (i.handle i.aux4).1 && a.valid && b.valid
  let T := (s.pool a.pool).cfg.T
  when (i.f 0 26 6 != 0 || i.wd 1 != 0 || i.f 3 8 24 != 0 || i.f 2 28 4 != 0 || i.f 2 21 3 != 0) Code.encoding
  ++ s.seqCodes i i.hnd ++ s.seqCodes i i.aux4 ++ s.layerCodes i i.hnd i.layer ++ s.layerCodes i i.aux4 i.layer ++ i.pageCodes
  ++ when (seen && (a.pool != b.pool || a.dom != b.dom || (i.np != 0 && decide (a.clen ≤ (i.pg + i.np - 1) * T)))) Code.operand
  ++ (if seen then s.poolCodes (s.pgpnNeed i) 0 else [])

/-- Share one page; the answer counts it. -/
def State.shareOne (s : State) (i : Inst) (a b : SeqRec) (p : Nat) : State × Bool :=
  match s.look a i.layer p, s.leafAt a i.layer p with
  | .pte e, some at' =>
    if Pte.p e then (s, false)
    else
      let q := s.refOf i (Pte.pool e) (Pte.frame e)
      match q.2 with
      | none => (q.1, false)
      | some n =>
        if 65535 ≤ n then (q.1, false)
        else
          let m := q.1.makeLeaf i b i.layer p
          match m.2 with
          | none => (m.1, false)
          | some da =>
            let s1 := m.1.addRef i (Pte.pool e) (Pte.frame e)
            let s2 := s1.putPte i a i.layer p at' (setBit e 2)
            (s2.putPte i b i.layer p da (clrBit (setBit e 2) 3), true)
  | k, _ => (s.walkFault i a p k, false)

/-- Page `k` of PGPN: 64 pages are in each walk of each sequence; RESULT counts the pages shared, and a page that cannot be
shared leaves the later ones. -/
def State.sharePiece (s : State) (i : Inst) (a b : SeqRec) (k : Nat) : State :=
  if ((s.inst i.n).map fun y => y.aux.contains 5000).getD true then s
  else
    let ps := (List.range (min 64 (i.np - k))).map (· + (i.pg + k))
    let s1 := if k % 64 = 0 then ((s.walk i a i.layer ps).1.walk i b i.layer ps).1 else s
    State.untilFault i.n [i.pg + k] (fun s p =>
      let x := s.shareOne i a b p
      x.1.onInst i.n fun y => if x.2 then { y with result := y.result + 1 } else { y with aux := 5000 :: y.aux }) s1

/-- PGPN in its turn: pages in order, up to the first that cannot be shared. -/
def State.pgpn (s : State) (i : Inst) : State × Bool :=
  let p := s.openSeq i i.hnd
  match p.2 with
  | none => (p.1, true)
  | some a =>
    let q := p.1.openSeq i i.aux4
    match q.2 with
    | none => (q.1, true)
    | some b => State.pieces i.n 0 (fun s k => s.sharePiece i a b k) (i.np - i.pos) q.1

/-! ### Registers of the PWU: commit and park abort (R256, R264, R266) -/

/-- Every parked request ends with FAULT.PAGE_FAR. The list holds 64; those behind them keep their walk slots and park
now (R256). -/
def State.parkAbort (s : State) : State :=
  let gone := s.pwu.parks.take 64
  let s1 := s.onPwu fun p => { p with parks := p.parks.drop 64 }
  gone.foldl (fun s k =>
    ((s.leavePwu k.inst).onInst k.inst fun y => { y with parked := [], again := [], work := [] }).instFault k.inst
      { code := Code.fPageFar, unit := 0x02, poison := true, detail := k.page }) s1

def PoolCfg.likeGeom (a b : PoolCfg) : Bool := a.tpp == b.tpp && a.kvf == b.kvf && a.heads == b.heads && a.dim == b.dim

/-- A staged set that R266 rejects. -/
def State.pwuBad (s : State) : Bool :=
  let p := s.pwu
  let st := fun (k : Nat) => (s.pool k).staged
  let bad := (List.range 64).any fun k =>
    let c := st k
    let now := (s.pool k).cfg
    decide (5 ≤ c.dim) || c.metaBase % 64 != 0 || c.ringBase % 64 != 0 || decide (c.slots < c.ringInit) || (c.enable && c.slots == 0)
    || (c.partnerEn && (st c.partner).enable && (!c.likeGeom (st c.partner) || c.tier == (st c.partner).tier))
    || (c.snapEn && (st c.snapPool).enable && !c.likeGeom (st c.snapPool))
    || (now.enable && { c with enable := true } != now)
  bad || p.staged.seqBase % 64 != 0 || p.staged.snapBase % 64 != 0
  || !((st p.staged.tablePool).enable && (st p.staged.tablePool).kind == 1)

/-- COMMIT of the PWU (R237, R264, R266): all staged fields together, or none. A pool that becomes enabled takes the
first RING_INIT entries of its ring as free, but one enabled again with the configuration it last had goes on with its
ring as it was, so that its LIVE frames are usable again (log 107). -/
def State.pwuCommit (s : State) : State :=
  if s.pwuBad then s.onPwu fun p => { p with commitErr := true }
  else
    let s1 := s.onPwu fun p => { p with cfg := { p.staged with enable := p.cfg.enable }, commitErr := false }
    (List.range 64).foldl (fun s k => s.onPool k fun x =>
      let y := { x with cfg := x.staged, fstride := x.staged.stride, last := if x.staged.enable then x.staged else x.last }
      if x.staged.enable && !x.cfg.enable && x.staged != x.last then
        { y with avail := x.staged.ringInit, head := 0, tail := x.staged.ringInit }
      else y) s1

def execPwuCommit (s : State) : Out := .next (s.mgt .pwuCommit (some 49) State.pwuCommit)

end Sys2Proof.Machine
end

