-- ==== Sys2Proof/Machine/Att.lean ====
section
/-!
DEFINITION. What the attention instructions share (R133 to R166, R369, R370, R555 to R557): the parameter
block, slivers, spans, key lists and key tiles, masks and skips, the bias table, and the score of one
sliver against one key tile.
-/

namespace Sys2Proof.Machine

/-! ### The attention parameter block (R369) -/

structure Apb where
  qpos : Nat
  kpos : Nat
  nk : Nat
  scale : Nat
  win : Nat
  bstride : Nat
  bmap : Nat
  dim : Nat
  g : Nat
  t : Nat
  head0 : Nat
  biasrow : Nat
  biasen : Bool
  mask : Nat
  rndp : Nat
  rndo : Nat
  rnds : Nat
  bwd : Nat
  atq : Nat
  atk : Nat
  atv : Nat
  strm : Nat
  kvh : Nat
  segq : Nat
  segk : Nat
  rsv : Bool
  deriving DecidableEq, Repr

def Apb.of (b : List Byte) : Apb :=
  { qpos := leAt b 0 4 % 2 ^ 24, kpos := leAt b 4 4 % 2 ^ 24, nk := leAt b 8 4 % 2 ^ 25, scale := leAt b 12 4,
    win := leAt b 16 4 % 2 ^ 25, bstride := leAt b 20 4 % 2 ^ 25, bmap := leAt b 24 8 % 2 ^ 52, dim := leAt b 32 1,
    g := leAt b 33 1 % 32, t := leAt b 34 1 % 64, head0 := leAt b 35 1 % 128, biasrow := leAt b 36 1 % 64,
    biasen := bitOf (leAt b 36 1) 6, mask := leAt b 37 1 % 32, rndp := leAt b 38 1 % 4, rndo := leAt b 38 1 / 4 % 4,
    rnds := leAt b 38 1 / 16 % 4, bwd := leAt b 39 1 % 128, atq := leAt b 40 2 % 1024, atk := leAt b 42 2 % 1024,
    atv := leAt b 44 2 % 1024, strm := leAt b 46 1 % 16, kvh := leAt b 47 1 % 16, segq := leAt b 48 1 % 32,
    segk := leAt b 49 1 % 32,
    rsv := leAt b 3 1 != 0 || leAt b 7 1 != 0 || leAt b 8 4 / 2 ^ 25 != 0 || leAt b 16 4 / 2 ^ 25 != 0 || leAt b 20 4 / 2 ^ 25 != 0
      || leAt b 24 8 / 2 ^ 52 != 0 || leAt b 33 1 / 32 != 0 || leAt b 34 1 / 64 != 0 || leAt b 35 1 / 128 != 0
      || bitOf (leAt b 36 1) 7 || leAt b 37 1 / 32 != 0 || leAt b 38 1 / 64 != 0 || bitOf (leAt b 39 1) 7
      || leAt b 40 2 / 1024 != 0 || leAt b 42 2 / 1024 != 0 || leAt b 44 2 / 1024 != 0 || leAt b 46 1 / 16 != 0
      || leAt b 47 1 / 16 != 0 || leAt b 48 1 / 32 != 0 || leAt b 49 1 / 32 != 0 || !zeroAt b 50 14 }

def Apb.causal (a : Apb) : Bool := bitOf a.mask 0
def Apb.window (a : Apb) : Bool := bitOf a.mask 1
def Apb.segment (a : Apb) : Bool := bitOf a.mask 2
def Apb.block (a : Apb) : Bool := bitOf a.mask 3
def Apb.prescaled (a : Apb) : Bool := bitOf a.mask 4
def Apb.d (a : Apb) : Nat := dimOf a.dim
def Apb.dsf (a : Apb) : Nat := a.bwd % 16
def Apb.hs (a : Apb) : Nat := a.bwd / 16 % 4
def Apb.dqmode (a : Apb) : Bool := bitOf a.bwd 6
def Inst.ap (i : Inst) : Apb := Apb.of i.apb

/-- The factor c of R148, as a binary32 value. -/
def Apb.c (a : Apb) : Ext := if a.prescaled then f32Decode a.scale else rn32 ((f32Decode a.scale).mul (f32Decode 0x3FB8AA3B))

/-- A positive normal binary32. -/
def posNormal (x : Ext) : Bool := match x with
  | .fin false m => decide (pow2 (-126) ≤ m)
  | _ => false

/-! ### Fields (R371, R373) -/

def Inst.atQn (i : Inst) : Nat := i.f 1 0 5
def Inst.atQ (i : Inst) : Desc := i.desc i.atQn
def Inst.atK (i : Inst) : Desc := i.desc (i.f 1 5 5)
def Inst.atV (i : Inst) : Desc := i.desc (i.f 1 10 5)
def Inst.atSrc (i : Inst) : Nat := i.f 1 30 2
def Inst.atNpg (i : Inst) : Nat := i.f 3 8 11
def Inst.atPg (i : Inst) : Nat := i.sv (i.f 2 11 5)
def Inst.atPgs (i : Inst) : Nat := if i.opc = 0x20 then i.f 3 19 5 else 0
def Inst.atPart (i : Inst) : Bool := i.b 0 27
def Inst.atSpec (i : Inst) : Bool := i.opc == 0x20 && i.b 0 28
def Inst.atSpecx (i : Inst) : Bool := i.opc == 0x20 && i.b 0 29
def Inst.paged (i : Inst) : Bool := i.atSrc != 0
def parAddr (i : Inst) : Nat := i.sa (i.f 2 16 5)

/-! ### Spans (R136, R175, R176, R301) -/

/-- S_av: slots from the named slot up that the class may use on a bay (R136). -/
def State.sAv (_s : State) (i : Inst) (b : Nat) : Nat := Map.get 6 i.slotTop b - i.slot

/-- The span width of an ATTF or ATTM. -/
def spanF (chunks sav : Nat) : Nat := if chunks + 1 ≤ sav then 1 else 1 + cdiv (chunks + 1 - sav) sav
/-- Followers of an ATTB. -/
def followB (chunks sav : Nat) : Nat := cdiv (3 * chunks) (max 1 sav)

/-- The core offset and slot offset of output chunk `k` of an ATTF (R136). -/
def chunkF (sav k : Nat) : Nat × Nat := if k + 1 < sav then (0, k + 1) else (1 + (k + 1 - sav) / sav, (k + 1 - sav) % sav)
/-- The core offset and slot offset of chunk `k` of an ATTB (R175). -/
def chunkB (followers k : Nat) : Nat × Nat := (1 + k % followers, k / followers)

/-- Set the assignees and the widths, from the width on each bay. -/
def Inst.spread' (i : Inst) (width : Nat → Nat) : Inst :=
  let m := lby i.l 8 8
  { i with cores := i.bays.flatMap (fun b => leads [b] m (width b)),
           span := i.bays.foldl (fun z b => Map.set 1 z b (width b)) [] }

/-- Every core of every span. -/
def Inst.spanCores (i : Inst) : List Nat := i.cores.flatMap fun g => (List.range (Map.get 1 i.span (g / 64))).map (g + ·)

/-! ### Slivers (R133, R557) -/

structure Sliver where
  g : Nat
  p : Place
  v : List Nat
  no : Nat
  tile : Nat
  rows : List Nat
  deriving DecidableEq, Repr

/-- The M tile of an index vector, the row reference of a row, and the query token of a row. -/
def Sliver.row (x : Sliver) (r : Nat) : RowRef := ⟨x.g, x.p, x.v, r⟩
def Inst.tokenOf (i : Inst) (x : Sliver) (r : Nat) : Nat := x.tile * i.ap.t + r / max 1 i.ap.g
def Inst.qposOf (i : Inst) (x : Sliver) (r : Nat) : Nat := i.ap.qpos + i.tokenOf x r

/-- The slivers on every lead, in order. -/
def Inst.slivers (i : Inst) : List Sliver :=
  let e := i.rloop
  let nm := match e.tile 0 with
    | some l => cdiv (i.bound l) e.tm
    | none => 1
  ((List.range i.cores.length).zip i.cores).flatMap fun q =>
    let p : Place := ⟨1, q.1, i.cores.length, false⟩
    if !e.takes p then []
    else (product (i.counts e p)).map fun v =>
      let b := (e.sorted.filter fun l => l.role == 3).foldl (fun a l => a * i.bound l + v.getD l.pos 0) 0
      { g := q.2, p := p, v := v, no := e.mTile p v + nm * b, tile := e.mTile p v,
        rows := (List.range e.tm).filter fun r => i.below e 0 (e.gm p v r) && (i.opc == 0x22 || i.atQ.hasBut 0 (i.srcAt i.atQ ⟨q.2, p, v, r⟩)) }

/-- Rows of the last query token and the count of tokens. -/
def Inst.tokens (i : Inst) : Nat :=
  let e := i.rloop
  match e.tile 0 with
  | some l => let n := i.bound l; if n = 0 then 0 else (n - 1) / e.tm * i.ap.t + (n - 1) % e.tm / max 1 i.ap.g + 1
  | none => i.ap.t

/-- Where the words of `o` put a sliver's operand that no row moves: the levels, and the fold once for each tile
(R303, R555). -/
def Inst.orgOf (i : Inst) (x : Sliver) (o : Opnd) : Coord :=
  let e := i.rloop
  if i.paged then Coord.zero else e.once o 0 (x.tile * e.tm) (e.origin o x.p.ai x.p.C x.v false)

/-- Where the role B levels alone put a segment list. -/
def Inst.segOrg (i : Inst) (x : Sliver) (o : Opnd) : Coord :=
  i.rloop.levels.foldl (fun c l => let t := l.stride o
    if l.role == 3 && t.used then c.add t.dim ((x.v.getD l.pos 0 : Nat) * t.step) else c) Coord.zero

/-- A moved descriptor lacks the dimension: a stride word in use steps along a dimension of extent 1 (R555,
log 36). -/
def Inst.lacksDim (i : Inst) (o : Opnd) (bOnly : Bool) (d : Desc) : Bool :=
  let e := i.rloop
  let bad := fun (t : Stride) => t.used && t.step != 0 && [d.e0, d.e1, d.e2, d.e3].getD t.dim 1 == 1
  let iters := fun (l : Level) => if l.role == 0 && e.isTile l then cdiv l.plan e.tm else e.planCount 1 i.cores.length l
  e.levels.any (fun l => (!bOnly || l.role == 3) && decide (1 < iters l) && bad (l.stride o))
  || (!bOnly && e.folds 0 && decide (1 < ((e.tile 0).map Level.plan).getD 0) && (bad (e.fastOf o) || bad (e.slowOf o)))

/-! ### Selection lists (R272) -/

structure SelEntry where
  page : Nat
  kind : Nat
  far : Bool
  noBound : Bool
  pte : Pte
  deriving DecidableEq, Repr

structure SelList where
  seq : Nat
  gen : Nat
  layer : Nat
  group : Nat
  flags : Nat
  clen : Nat
  epoch : Nat
  ents : List SelEntry
  deriving DecidableEq, Repr

def selEntryOf (b : List Byte) : SelEntry :=
  let w := leAt b 0 4
  ⟨w % 2 ^ 24, fld w 24 2, bitOf w 26, bitOf w 27, leAt b 8 8⟩
def SelEntry.bytes (e : SelEntry) : List Byte :=
  natLe 4 (e.page % 2 ^ 24 + e.kind * 2 ^ 24 + b2n e.far * 2 ^ 26 + b2n e.noBound * 2 ^ 27) ++ zeroBytes 4 ++ natLe 8 e.pte
def SelList.bytes (l : SelList) : List Byte :=
  natLe 2 l.seq ++ natLe 1 l.gen ++ natLe 1 l.layer ++ natLe 1 l.group ++ natLe 1 l.flags ++ natLe 2 l.ents.length ++ natLe 4 l.clen
  ++ natLe 4 l.epoch ++ zeroBytes 48 ++ l.ents.flatMap SelEntry.bytes

def selListOf (h : List Byte) (body : List Byte) : SelList :=
  { seq := leAt h 0 2, gen := leAt h 2 1, layer := leAt h 3 1, group := leAt h 4 1, flags := leAt h 5 1, clen := leAt h 8 4,
    epoch := leAt h 12 4, ents := (chunks 16 (leAt h 6 2) body).map selEntryOf }

/-- A list as memory holds it. -/
def State.selAt (s : State) (a : Nat) : SelList :=
  let h := s.granBytes a 64
  selListOf h (s.granBytes (a + 64) (16 * leAt h 6 2))

/-- Read a list for an instruction; the answer says whether it could be read. -/
def State.readSel (s : State) (i : Inst) (a : Nat) : State × SelList × Bool :=
  let h := s.readExt i.n true [] a 64
  let b := h.1.readExt i.n true [] (a + 64) (16 * leAt h.2.1 6 2)
  (b.1, selListOf h.2.1 b.2.1, !h.2.2 && !b.2.2)

/-! ### Key lists and key tiles (R143, R163, R277, R372) -/

/-- Up to 32 keys: their first ordinal and count, and for a paged source the page's index in the list and the first
token slot. -/
structure KeyTile where
  lo : Nat
  n : Nat
  ref : Option PageRef
  t0 : Nat
  group : Nat
  deriving DecidableEq, Repr

/-- The keys of one page in tiles of at most 32 (log 35). -/
def pageTiles (lo grp : Nat) (r : PageRef) : List KeyTile :=
  if r.state = 1 || r.state = 3 then []
  else (List.range (cdiv (r.hi - r.lo) 32)).map fun k => ⟨lo + 32 * k, min 32 (r.hi - r.lo - 32 * k), some r, r.lo + 32 * k, grp⟩

/-- Page groups of the instruction's list (R285, R372). -/
def Inst.groups (i : Inst) : Nat :=
  if i.atPgs = 0 then 1 else cdiv ((i.pages.filter fun r => decide (r.state < 2)).length) i.atPgs

/-- The key tiles in order; the speculative extent belongs to the last group (log 37). -/
def Inst.keyTiles (i : Inst) : List KeyTile :=
  if !i.paged then (List.range (cdiv i.ap.nk 32)).map fun k => ⟨32 * k, min 32 (i.ap.nk - 32 * k), none, 0, 0⟩
  else (((List.range i.pages.length).zip i.pages).foldl (fun (acc : List KeyTile × Nat) q =>
    let grp := if i.atPgs = 0 then 0 else min (q.1 / i.atPgs) (i.groups - 1)
    let ts := pageTiles acc.2 grp q.2
    (acc.1 ++ ts, acc.2 + (ts.map KeyTile.n).sum)) ([], 0)).1

/-- The position of key `j` of a tile; `T` is the pool's tokens per page. -/
def Inst.kposOf (i : Inst) (T : Nat) (t : KeyTile) (j : Nat) : Nat := match t.ref with
  | none => i.ap.kpos + t.lo + j
  | some r => r.page * T + t.t0 + j

/-- The pages of an SRC 1 or SRC 2 instruction, from the list `sel` where it has one. -/
def Inst.pageList (i : Inst) (sel : Option SelList) : List Nat := match sel with
  | some l => l.ents.map SelEntry.page
  | none => (List.range i.atNpg).map (i.atPg + ·)

/-- Keys of a page that a walk found; pages that hold no committed token have none. -/
def refOfWalk (page : Nat) (spec : Bool) : Walk → PageRef
  | .pte e => if spec && e.t then ⟨page, e, 0, 0, 1⟩ else ⟨page, e, 0, e.fill, 0⟩
  | _ => ⟨page, 0, 0, 0, if spec then 1 else 0⟩

/-- The speculative extent (R241, R277): one piece for each page it touches, from what a walk of them found: the tail page or
its TAIL frame, and pages with P = 1 beyond it. -/
def State.extent (s : State) (r : SeqRec) (layer : Nat) (ws : List (Nat × Walk)) : List PageRef :=
  let T := (s.pool r.pool).cfg.T
  ws.map fun w =>
    let p := w.1
    let lo := max r.clen (p * T) - p * T
    let hi := min (r.clen + r.slen) ((p + 1) * T) - p * T
    let own : Walk := if p = r.clen / T then (match s.tailOf r layer, w.2 with
      | _, .denied => .denied
      | .absent, x => x
      | t, _ => t) else w.2
    match own with
    | .pte e => if Pte.t e || (p != r.clen / T && !Pte.p e) then ⟨p, e, lo, hi, 3⟩ else ⟨p, e, lo, hi, 2⟩
    | _ => ⟨p, 0, lo, hi, 3⟩

/-- The pages of the speculative extent. -/
def State.extentPages (s : State) (r : SeqRec) : List Nat := pagesOf (s.pool r.pool).cfg.T r.clen (r.clen + r.slen)

/-- The pages as memory has them now, with no request: for the checks and the cost. -/
def State.refsNow (s : State) (i : Inst) : List PageRef :=
  if !i.paged then []
  else
    let r := s.seqRec (i.handle i.hnd).1
    let sel := if i.atSrc = 1 then some (s.selAt (i.sa (i.f 1 5 5))) else none
    (i.pageList sel).map (fun p => refOfWalk p i.atSpec (s.look r i.layer p)) ++ (if i.atSpecx then s.extent r i.layer ((s.extentPages r).map fun p => (p, s.look r i.layer p)) else [])

/-! ### Masks (R162 to R164) -/

/-- The bit of the block bitmap: its byte's address and its place. -/
def Apb.blockBit (a : Apb) (q k : Nat) : Nat × Nat :=
  let n := q / 32 * a.bstride + k / 32
  (a.bmap + n / 8, n % 8)

/-- Masked by position alone: CAUSAL and WINDOW. -/
def Apb.maskPos (a : Apb) (q k : Nat) : Bool :=
  (a.causal && decide (q < k)) || (a.window && decide (a.win ≤ max (q - k) (k - q)))

/-- A tile that is skipped (R164): every position masked for every row. A bitmap line that cannot be read skips
nothing. -/
def State.skips (s : State) (i : Inst) (T : Nat) (x : Sliver) (t : KeyTile) : Bool :=
  let a := i.ap
  x.rows.all fun r => (List.range t.n).all fun j =>
    let q := i.qposOf x r
    let k := i.kposOf T t j
    a.maskPos q k || (a.block &&
      (let b := a.blockBit q k
       s.checkAcc i.dom (i.cls == 1) .rd b.1 == .ok && !bitOf (s.granByte b.1).toNat b.2))

/-! ### Operands of a key tile -/

/-- The pool whose layout the frames of an instruction have. -/
def State.poolOf (s : State) (i : Inst) : PoolCfg := (s.pool (s.seqRec (i.handle i.hnd).1).pool).cfg

/-- The format of keys or values. -/
def Inst.keyFmt (i : Inst) (c : PoolCfg) (isV : Bool) : Fmt := if i.paged then c.fmt else (if isV then i.atV else i.atK).fmt

/-- A dense key's coordinate. -/
def Inst.keyAt (i : Inst) (x : Sliver) (t : KeyTile) (isV : Bool) (j : Nat) : Coord :=
  (i.orgOf x (if isV then .x else .b)).add 1 ((t.lo + j : Nat) : Int)

/-- Key `j` lies in both descriptors. A dense key below NK outside one of them is not live (R298; DESIGN CHOICE, log 155). -/
def Inst.keyIn (i : Inst) (x : Sliver) (t : KeyTile) (j : Nat) : Bool :=
  i.paged || (i.atK.hasBut 0 (i.keyAt x t false j) && i.atV.hasBut 0 (i.keyAt x t true j))

/-- The bytes of head-dimension elements `ks` of key `j`. -/
def Inst.keySpans (i : Inst) (c : PoolCfg) (x : Sliver) (t : KeyTile) (isV : Bool) (ks : List Nat) (j : Nat) : List Span :=
  match t.ref with
  | none => let d := if isV then i.atV else i.atK
    dedupSpan (ks.flatMap fun k => d.spans ((i.keyAt x t isV j).add 0 (k : Nat)))
  | some r =>
    let h := i.ap.kvh
    let be := if isV then c.ve else c.ke
    let bs := if isV then c.vs else c.ks
    [⟨0, Pte.addr r.pte + c.at' be c.eb h (t.t0 + j), c.eb⟩, ⟨0, Pte.addr r.pte + c.at' bs c.sb h (t.t0 + j), c.sb⟩]

/-- Elements `ks` of key `j` with their scale exponents. -/
def Inst.keyVec (i : Inst) (c : PoolCfg) (x : Sliver) (t : KeyTile) (isV : Bool) (w : View) (ks : List Nat) (j : Nat) : KVec :=
  match t.ref with
  | none => (if isV then i.atV else i.atK).kvec w (i.keyAt x t isV j) 0 (ks.map fun k => ((k : Nat) : Int)) []
  | some r =>
    let h := i.ap.kvh
    let f := c.fmt
    let n := w.nat 0 (Pte.addr r.pte + c.at' (if isV then c.ve else c.ke) c.eb h (t.t0 + j)) c.eb
    let sc := fun (k : Nat) => (w.at 0 (Pte.addr r.pte + c.at' (if isV then c.vs else c.ks) c.sb h (t.t0 + j) + k / f.block)).toNat
    { vals := ks.map fun k => scaled (decodeElem f (fld n (k * f.bits) f.bits)) (decodeScale f (sc k)),
      exps := ks.map fun k => scaleExp f (sc k), blk := [], pos := ks.map fun k => ((k : Nat) : Int) }

/-- The head-dimension slices of a chain product's passes (R139, R169): positions inside the streamed operand `a` and,
for dense keys, inside the stationary one `b`. -/
def slices (d tk : Nat) (a b : Desc) (dense : Bool) : List (List Nat) :=
  (List.range (cdiv d tk)).map fun z => (List.range (min tk (d - tk * z))).map (tk * z + ·) |>.filter fun k =>
    decide (k < a.e0) && (!dense || decide (k < b.e0))

/-- The slices of a chain product with the keys, or with the values. -/
def Inst.slicesOf (i : Inst) (c : PoolCfg) (d : Desc) (isV : Bool) : List (List Nat) :=
  slices i.ap.d (32 * Machine.cellN d.fmt (i.keyFmt c isV)) d (if isV then i.atV else i.atK) (!i.paged)

/-- The keys of a tile that lie in both descriptors. -/
def Inst.keysIn (i : Inst) (x : Sliver) (t : KeyTile) : List Nat := (List.range t.n).filter (i.keyIn x t)

/-- The streamed rows' bytes of a chain product, and its stationary tile's. -/
def Inst.chainSpans (i : Inst) (c : PoolCfg) (x : Sliver) (t : KeyTile) (d : Desc) (at' : Nat → Coord) (isV : Bool) : List Span × List Span :=
  let all := (i.slicesOf c d isV).flatten
  (x.rows.flatMap fun r => dedupSpan (all.flatMap fun k => d.spans ((at' r).add 0 (k : Nat))),
   (i.keysIn x t).flatMap fun j => i.keySpans c x t isV all j)

/-- The segment-list entries that a tile's mask reads (R162). -/
def Inst.segQ (i : Inst) (x : Sliver) (r : Nat) : Coord := (i.segOrg x .a).add 0 (i.tokenOf x r : Nat)
def Inst.segK (i : Inst) (x : Sliver) (t : KeyTile) (j : Nat) : Coord :=
  (if i.paged then Coord.zero else i.segOrg x .b).add 0 ((t.lo + j : Nat) : Int)
def Inst.segSpans (i : Inst) (x : Sliver) (t : KeyTile) : List Span :=
  let dq := i.desc i.ap.segq
  let dk := i.desc i.ap.segk
  if i.ap.segment then (x.rows.filter fun r => dq.has (i.segQ x r)).flatMap (fun r => dq.spans (i.segQ x r))
    ++ ((i.keysIn x t).filter fun j => dk.has (i.segK x t j)).flatMap fun j => dk.spans (i.segK x t j) else []

/-- A program-region block of another domain in what an item is about to read on each core: it faults, and the item
reads nothing (R314). -/
def State.attForeign (s : State) (i : Inst) (l : List (Nat × List Span)) : Option State := l.findSome? fun q => s.obCheck i q.1 q.2

/-! ### Scores of a tile (R139, R148 F1) -/

/-- The class of a live position. -/
inductive XCls where
  | nan | pinf | ninf | big
  | fin (x : ℚ)
  deriving DecidableEq, Repr

def XCls.fin? : XCls → Option ℚ
  | .fin x => some x
  | _ => none

/-- F1 of a live position: its score with the tensor scales, its bias, c. -/
def classify (sc : Ext) (b c : ℚ) : XCls :=
  match sc with
  | .nan => .nan
  | .inf false => .pinf
  | .inf true => .ninf
  | x =>
    match rn32Q ((x.toRat + b) * c) with
    | .inf false => .big
    | .inf true => .fin (-32768)
    | y => if 32767 < y.toRat then .big else .fin (max y.toRat (-32768))

/-- The bucket of a distance (R156). -/
def bucketOf (d : Int) : Nat :=
  let a := d.natAbs
  let i := if a < 64 then a else let e := Nat.log2 a; 64 + 8 * (e - 6) + a / 2 ^ (e - 3) - 8
  if 0 ≤ d then i else 256 + i

/-- The offset in bay memory of a bias entry (R155, R157). -/
def biasOff (bank row bkt : Nat) : Nat := 0x5E0000 + 0x10000 * bank + 2 * (512 * row + bkt)

/-- What a row sees of a tile: for each of its 32 positions, `none` where it is not live. -/
abbrev RowCls := List (Option XCls)

/-- The classified rows of a tile and whether what they were formed from is poisoned. -/
structure Scored where
  s : State
  rows : List (Nat × RowCls)
  bad : Bool

/-- Column sums of the streamed rows against the columns of a bank, as slot rows, and their τ. -/
def formRows (rows : List (Nat × KVec)) (bank : List BankCol) : List (List (Nat × List (Nat × Ext))) :=
  slotRows false (rows.map fun a => (a.1, rowSums false true false a.2 a.2.vals bank)) 0
def formTau (fa fb : Fmt) (rows : List (Nat × KVec)) (bank : List BankCol) : Option Int :=
  termBound fa.leadG fb.leadG (rows.map fun a => a.2.exps) (bank.map BankCol.exps)

/-- The columns of a stationary tile that are `ok`, from the vectors of its K positions across them. -/
def bankOf (vs : List KVec) (ok : Nat → Bool) : List BankCol := ((List.range 32).filter ok).map fun c =>
  let v := vs.map fun k => k.vals.getD c (.fin false 0)
  ⟨c, v, v, vs.map fun k => k.exps.getD c none, []⟩

/-- One product of a sliver with a key tile into a chain slot (R139, R169): one pass for each slice on the lead's runner,
or for dP on its bed, the first overwriting. `d` and `at'` are the streamed operand and its rows' coordinates. The key tile goes
through the relay where there is one. -/
def State.intoChain (s : State) (i : Inst) (w : Work) (c : PoolCfg) (x : Sliver) (t : KeyTile) (slot : Nat) (d : Desc) (at' : Nat → Coord) (isV : Bool) :
    State :=
  let kf := i.keyFmt c isV
  let sls := i.slicesOf c d isV
  let tgt := [Tgt.slot x.g slot]
  let sp := i.chainSpans c x t d at' isV
  let qs := s.fetch i.n x.g true tgt sp.1
  let ks := qs.1.fetchTile i x.g w [slot] sp.2
  let bad := qs.2.2 || ks.2.2
  ((List.range sls.length).zip sls).foldl (fun s z =>
    let rows := x.rows.map fun r => (r, d.kvec qs.2.1 (at' r) 0 (z.2.map fun k => ((k : Nat) : Int)) [])
    let t' := s.loadBank x.g isV ((i.keysIn x t).map fun j => (i.keyVec c x t isV ks.2.1 z.2 j).bankCol kf 0 j)
    let bank := t'.bank x.g isV
    let dr : Draws := ⟨i.seed.toNat, 0, x.g, slot, 0, i.cut.map (· - x.rows.length * z.1)⟩
    t'.putSlot x.g slot ((t'.slot x.g slot).pass dr (z.1 == 0) false i.dom (fun _ => formTau d.fmt kf rows bank) (formRows rows bank) bad)) ks.1

/-- Classify every row of a tile from chain slot `slot` (R148 F1, R157, R162, R163). -/
def State.scores (s : State) (i : Inst) (c : PoolCfg) (x : Sliver) (t : KeyTile) (slot : Nat) : Scored :=
  let a := i.ap
  let js := i.keysIn x t
  let pairs := x.rows.flatMap fun r => js.filterMap fun j =>
    if a.maskPos (i.qposOf x r) (i.kposOf c.T t j) then none else some (r, j)
  -- the block bitmap
  let bsp : List Span := if a.block then dedupSpan (pairs.map fun q => ⟨0, (a.blockBit (i.qposOf x q.1) (i.kposOf c.T t q.2)).1, 1⟩) else []
  let bm := s.fetch i.n x.g true [.slot x.g slot] bsp
  -- the segment lists
  let dq := i.desc a.segq
  let dk := i.desc a.segk
  let qc := i.segQ x
  let kc := i.segK x t
  let sg := bm.1.fetch i.n x.g true [.slot x.g slot] (i.segSpans x t)
  let segOk := fun (r j : Nat) => !a.segment || (dq.has (qc r) && dk.has (kc j) && dq.raw sg.2.1 (qc r) == dk.raw sg.2.1 (kc j))
  let live := pairs.filter fun q =>
    (!a.block || (let b := a.blockBit (i.qposOf x q.1) (i.kposOf c.T t q.2); bitOf (bm.2.1.ext b.1).toNat b.2)) && segOk q.1 q.2
  -- the bias strip
  let bay := s.by (x.g / 64)
  let bank := Map.get 0 i.biasG (x.g / 64) - 1
  let boff := fun (q : Nat × Nat) =>
    biasOff bank ((a.biasrow + q.1 % max 1 a.g) % 64) (bucketOf ((i.qposOf x q.1 : Int) - (i.kposOf c.T t q.2 : Nat)))
  let bias := fun (q : Nat × Nat) => if a.biasen then ieeeDecode 8 7 (leNat (bay.bytes (boff q) 2)) else Ext.fin false 0
  let pz := a.biasen && live.any fun q => anyPoison bay.memPoison (boff q) 2
  let sl := sg.1.slot x.g slot
  let k : ℚ := if i.paged then i.atQ.ts else i.atQ.ts * i.atK.ts
  let cc := a.c.toRat
  let rows := x.rows.map fun r => (r, (List.range 32).map fun j =>
    if !live.contains (r, j) then none
    else match bias (r, j) with
      | .inf true => none
      | b => some (classify ((sl.val (32 * r + j)).scale k) b.toRat cc))
  ⟨sg.1, rows, sl.poisoned || bm.2.2 || sg.2.2 || pz⟩

/-- The weight 2^x of R149, rounded into E4M3, with what it counts. -/
def expWeight (x : ℚ) (r : Rnd) : Conv × Counts :=
  let src : Src := ⟨.fin false 1, some fun n => Trans.exp2Iv n x, false, false, 0, 0⟩
  let k := src.conv .e4m3 r 1
  (k, src.counts k.val k.flag)

/-! ### Checks that ATTF and ATTB share -/

/-- Formats of Q, K and V (R134). -/
def sixFmt (d : Desc) : Bool := decide (d.fmtCode ≤ 6)

/-- Segment lists named under SEGMENT. -/
def Inst.segDescs (i : Inst) : List Desc := if i.ap.segment then [i.desc i.ap.segq, i.desc i.ap.segk] else []

/-- Staging demand of R312. -/
def Inst.attStaging (i : Inst) (c : PoolCfg) (chain : Nat) : Nat :=
  let q := i.atQ
  let tk := 32 * Machine.cellN q.fmt (i.keyFmt c false)
  (if q.loc = 2 then 0 else 2 * i.rloop.tm * stageBytes q.fmt tk) + 2 * stageBytes (i.keyFmt c false) (tk * 32)
  + 2 * stageBytes (i.keyFmt c true) 1024 + chain + (if i.ap.biasen then 2048 else 0)

/-- Dense keys in the program region that reach beyond it (R313). -/
def Inst.keyBeyond (i : Inst) (d : Desc) (o : Opnd) : Bool :=
  let m := fun (k : Nat) => i.rloop.planMax o 1 i.cores.length false [] k
  d.beyondOb [d.e0 - 1, m 1 + (i.ap.nk - 1), m 2, m 3]

/-- A segment list of `n` entries in the program region reaches beyond it (R313, R555). -/
def Inst.segBeyond (i : Inst) (d : Desc) (o : Opnd) (n : Nat) : Bool :=
  d.beyondOb [n - 1 + i.rloop.bMoves o 0, i.rloop.bMoves o 1, i.rloop.bMoves o 2, i.rloop.bMoves o 3]

/-- Refusals common to both that need no parameter block: fields of the words, descriptors, handles, bounds, cores and slots (R11,
R136, R138, R295, R302, R324, R352, R372). -/
def State.attWords (s : State) (i : Inst) : List Nat :=
  let e := LoopE.of i.l
  let src := i.atSrc
  let ds := [i.atQ] ++ (if src = 0 then [i.atK, i.atV] else [])
  when (i.b 0 26 || src == 3 || (src != 0 && i.f 1 10 5 != 0) || (src == 0 && i.f 2 0 4 != 0) || (src == 2 && i.f 1 5 5 != 0)
    || e.badEntry || e.badRole [0, 3] || e.badTile [0] false false false) Code.encoding
  ++ descCodes ds ++ when (!sixFmt i.atQ || (src == 0 && (!sixFmt i.atK || !sixFmt i.atV))) Code.format ++ floorCodes ds
  ++ when (parAddr i % 64 != 0 || (src == 1 && i.sv (i.f 1 5 5) % 64 != 0) || e.cores == 0) Code.operand
  ++ (if src = 0 then [] else s.seqCodes i i.hnd ++ s.layerCodes i i.hnd i.layer)
  ++ when ((src == 2 && (decide (2 ^ 24 ≤ i.atPg) || decide (1024 < i.atNpg))) || i.badBound i.rloop) Code.shape
  ++ when (i.bays.any (fun b => decide (s.sAv i b < 2)) || s.badPlace i e.cores || s.badSlots i i.slot 1) Code.slot

/-- Refusals common to both (R135, R159, R163, R166, R369, R372, R555, R557). -/
def State.attCodes (s : State) (i : Inst) (chain : Nat) : List Nat :=
  let a := i.ap
  let e := LoopE.of i.l
  let src := i.atSrc
  let c := s.poolOf i
  let ntok := i.tokens
  s.attWords i
  ++ when (a.rsv || (src != 0 && (a.kpos != 0 || a.nk != 0))
    || (!a.block && a.bmap != 0) || (!a.segment && (a.segq != 0 || a.segk != 0))
    || a.rndo == 3
    || i.lacksDim .a false i.atQ || (src == 0 && (i.lacksDim .b false i.atK || i.lacksDim .x false i.atV))
    || (a.segment && (i.lacksDim .a true (i.desc a.segq) || (src == 0 && i.lacksDim .b true (i.desc a.segk))))) Code.encoding
  ++ i.segDescs.flatMap idxCodes ++ when (a.rndo == 2) Code.mode
  ++ when (!posNormal a.c || a.bmap % 8 != 0) Code.operand
  ++ when (a.biasen && i.bays.any fun b => !(s.by b).biasValid) Code.state
  ++ when i.cores.isEmpty Code.operand ++ when (i.spanCores.any s.coreFenced) Code.fenced
  ++ when (decide (5 ≤ a.dim) || decide (16 < a.g) || decide (32 < a.t) || decide (32 < a.g * a.t) || decide (2 ^ 24 < a.nk) || decide (2 ^ 24 < a.win)
    || a.bstride % 64 != 0 || (a.g * a.t != 0 && e.tm != a.g * a.t) || decide (2 ^ 24 < a.qpos + max ntok a.t)
    || (a.segment && (decide ((i.desc a.segq).e0 < ntok) || (src == 0 && decide ((i.desc a.segk).e0 < a.nk))))
    || (src != 0 && s.recAllowed (i.handle i.hnd).1 && (c.d != a.d || decide (c.H ≤ a.kvh)))) Code.shape
  ++ when (decide (49152 < i.attStaging c chain)) Code.capacity
  ++ when (i.rowBeyond i.atQ .a || (src == 0 && (i.keyBeyond i.atK .b || i.keyBeyond i.atV .x))
    || (a.segment && (i.segBeyond (i.desc a.segq) .a ntok || (src == 0 && i.segBeyond (i.desc a.segk) .b a.nk)))) Code.range

/-- Zero length of both (R166, R185). -/
def State.attZero (s : State) (i : Inst) : Bool :=
  let a := i.ap
  a.g == 0 || a.t == 0 || (a.window && a.win == 0) || i.zeroRole i.rloop [0, 3]
  || (match i.atSrc with
    | 0 => a.nk == 0
    | 1 => s.checkAcc i.dom (i.cls == 1) .rd (i.sa (i.f 1 5 5)) == .ok && (s.selAt (i.sa (i.f 1 5 5))).ents.isEmpty
    | _ => i.atNpg == 0)

/-- Capture the bias generation of every bay (R159). -/
def State.captureBias (s : State) (i : Inst) : Inst := { i with biasG := i.bays.foldl (fun m b => Map.set 0 m b ((s.by b).biasBank + 1)) i.biasG }

/-! ### Translating the key list at issue (R245, R249, R256, R280) -/

/-- Every line of a run can be read by the instruction. -/
def State.canRead (s : State) (i : Inst) (a n : Nat) : Bool :=
  (linesOf 64 a n).all fun l => s.checkAcc i.dom (i.cls == 1) .rd (max l a) == .ok && !s.portFenced (homePort l)

/-- The keys and values of a page's piece can be read. -/
def State.pageOpen (s : State) (i : Inst) (c : PoolCfg) (x : PageRef) : Bool :=
  [(c.ke, c.eb), (c.ks, c.sb), (c.ve, c.eb), (c.vs, c.sb)].all fun q =>
    s.canRead i (Pte.addr x.pte + c.at' q.1 q.2 i.ap.kvh x.lo) ((x.hi - x.lo) * q.2)

/-- Take the pages of a translated key list into the instruction; faults end its work. A speculative page whose keys or values
cannot be read is missing (R280). -/
def State.takePages (s : State) (i : Inst) (r : SeqRec) (ws : List (Nat × Walk)) (more : List PageRef) : State × Bool :=
  let c := (s.pool r.pool).cfg
  let refs := ws.map (fun w => refOfWalk w.1 i.spec w.2) ++ more
  let kept := if i.spec then refs.map fun x =>
      if x.state % 2 = 1 || s.pageOpen i c x then x else if x.state = 0 then { x with lo := 0, hi := 0, state := 1 } else { x with state := 3 }
    else refs
  let s1 := s.onInst i.n fun y => { y with pages := kept }
  if i.spec then (s1, true)
  else
    let bad := ws.filter fun w => match w.2 with
      | .pte _ => false
      | .absent => decide (w.1 * c.T < r.clen)
      | _ => true
    match bad with
    | w :: _ => (s1.walkFault i r w.1 w.2, false)
    | [] =>
      let far := ws.filterMap fun w => match w.2 with
        | .pte e => if e.t && decide (0 < e.fill) then some w.1 else none
        | _ => none
      let p := s1.parkFar i r i.layer far
      (p.1, far.isEmpty || i.cls != 1)

/-- Read the key list of a paged instruction in its turn, with the lengths of its issue (R277); the answer says whether its work
goes on. -/
def State.openKeys (s : State) (i : Inst) : State × Bool :=
  let q := s.openSeq i i.hnd
  match q.2 with
  | none => (q.1, false)
  | some r0 =>
    let r := { r0 with clen := i.clen, slen := i.slen }
    let l : State × Option SelList × Bool := if i.atSrc = 1 then
        let z := q.1.readSel i (i.sa (i.f 1 5 5)); (z.1, some z.2.1, z.2.2)
      else (q.1, none, true)
    if !l.2.2 then (l.1, false)
    else
      let ps := i.pageList l.2.1
      let s1 := match l.2.1 with
        | some z => l.1.onInst i.n fun y => if bitOf z.flags 2 then { y with aux := 2 :: y.aux } else y
        | none => l.1
      let w := s1.translate i i.bays r i.layer ps
      if i.atSpecx then
        let x := w.1.walk i r i.layer (w.1.extentPages r)
        x.1.takePages i r w.2 (x.1.extent r i.layer x.2)
      else w.1.takePages i r w.2 []

/-- The pages of an instruction whose parked requests walk again (R256). -/
def State.rewalk (s : State) (i : Inst) : State :=
  (s.onInst i.n fun y => { y with parked := y.parked.filter fun p => !i.again.contains p, again := [] }).withSeq i fun s r =>
    let w := s.translate i i.bays r i.layer i.again
    w.2.foldl (fun s q => match q.2 with
      | .pte e =>
        if Pte.t e then (s.parkFar i r i.layer [q.1]).1
        else s.onInst i.n fun y => { y with pages := y.pages.map fun x => if x.page = q.1 && x.state = 0 then { x with pte := e } else x }
      | x => ((s.walkFault i r q.1 x).leavePwu i.n).onInst i.n fun y => { y with work := [], parked := [] }) w.1

/-- The tile's page waits on the park list. -/
def Inst.waitsPage (i : Inst) (t : KeyTile) : Bool := match t.ref with
  | some r => i.parked.contains r.page
  | none => false

/-- Mark the first item of a list with 1, the others with 0. -/
def markFirst : List Work → List Work
  | [] => []
  | w :: ws => { w with ix := w.ix ++ [1] } :: ws.map fun y => { y with ix := y.ix ++ [0] }

/-- One sliver's work on its lead in order, group by group: its live key tiles, each with the array passes that `size` gives
it and followed by `per` (its own drains), then its output drains at `drains` (core and slot offsets). -/
def State.attWork (s : State) (i : Inst) (kind : Nat) (size : Sliver → List Part) (drains : Sliver → List (Nat × Nat)) (per : Sliver → List (Nat × Nat × Nat)) : List Work :=
  let T := (s.poolOf i).T
  let ts := i.keyTiles
  let sl := i.slivers
  ((List.range sl.length).zip sl).flatMap fun q =>
    let x := q.2
    if x.rows.isEmpty then []
    else (List.range i.groups).flatMap fun gp => (markFirst (
      (((List.range ts.length).zip ts).flatMap fun t =>
        if t.2.group != gp || s.skips i T x t.2 then []
        else ({ core := x.g, pass := true, bed := false, rows := ((size x).map Part.rows).sum, slots := [i.slot], ix := [kind, q.1, gp, t.1], parts := size x } : Work)
          :: (per x).map fun k =>
            { core := x.g + k.1, pass := false, bed := false, rows := 0, slots := [i.slot + k.2.1], ix := [kind + 2, q.1, k.2.2, t.1] })
      ++ ((List.range (drains x).length).zip (drains x)).map fun k =>
        { core := x.g + k.2.1, pass := false, bed := false, rows := 0, slots := [i.slot + k.2.2], ix := [kind + 1, q.1, gp, k.1] })).map
      fun w => { w with ix := w.ix ++ x.v }

/-- The sliver of an item. -/
def Inst.sliverOf (i : Inst) (w : Work) : Option Sliver := i.slivers[w.ix.getD 1 0]?

/-- Note slots that an instruction writes. -/
def State.noteWrote (s : State) (n : Nat) (ps : List (Nat × Nat)) : State :=
  s.onInst n fun y => { y with wrote := ps.foldl (fun l z => if l.contains z then l else z :: l) y.wrote }

end Sys2Proof.Machine
end

