-- ==== Sys2Proof/Machine/AttF.lean ====
section
/-!
DEFINITION. ATTF (R133 to R166, R371, R372): one key tile of a sliver, the rows' states, tags and weights, the
output chunks, and what each row writes.
-/

namespace Sys2Proof.Machine

/-! ### Row states and tags (R145, R147, R148 F2) -/

namespace RowSt
def empty : Nat := 0
def nofin : Nat := 1
def live : Nat := 2
def inf : Nat := 3
def nan : Nat := 4
def range : Nat := 5
end RowSt

/-- A tag (R147). -/
inductive Tag where
  | keep
  | rise (n : Nat)
  | reset
  deriving DecidableEq, Repr

/-- F2: the row state, the maximum and the tag after the live positions `xs`. -/
def f2 (st : Nat) (m : Int) (xs : List XCls) : Nat × Int × Tag :=
  if xs.isEmpty || st = RowSt.nan || st = RowSt.range then (st, m, .keep)
  else if xs.contains .nan then (RowSt.nan, m, .keep)
  else if xs.contains .pinf then (RowSt.inf, m, if st = RowSt.inf then .keep else .reset)
  else if st = RowSt.inf then (st, m, .keep)
  else if xs.contains .big then (RowSt.range, m, .keep)
  else match xs.filterMap XCls.fin? with
    | [] => (if st = RowSt.empty then RowSt.nofin else st, m, .keep)
    | f :: fs =>
      let k := (fs.foldl max f).ceil
      if st = RowSt.empty || st = RowSt.nofin then (RowSt.live, k, .keep)
      else if m < k then (st, k, .rise (k - m).toNat) else (st, m, .keep)

/-- Every F of a row becomes 0: an infinity becomes NaN (R147). -/
def Entry.cleared (e : Entry) : Entry := { f := 0, nan := e.nan || e.pinf || e.ninf }

/-- Apply a tag to row `r` of a slot in row-anchored form; `d.count` is the tile ordinal. -/
def Slot.applyTag (x : Slot) (d : Draws) (r : Nat) : Tag → Slot
  | .keep => x
  | .rise n =>
    match x.anchor r with
    | none => x
    | some a =>
      let b := a - n
      let y := { x with anch := Map.set none x.anch r (some b) }
      if b < -512 then y.reanchor d r (-512 - b).toNat else y
  | .reset =>
    { x with anch := Map.set none x.anch r none,
             ent := (x.ent.map fun p => if p.1 / 32 = r then (p.1, p.2.cleared) else p).filter fun p => p.2 != {} }

/-- Apply a tag to l: `u` is its draw at site 14. -/
def RowStat.applyTag (q : RowStat) (u : Nat) : Tag → RowStat
  | .keep => q
  | .rise n =>
    match q.sumA with
    | none => q
    | some a =>
      let b := a - n
      if b < -512 then { q with sum := q.sum.shift (-512 - b).toNat u, sumA := some (-512) } else { q with sumA := some b }
  | .reset => { q with sum := q.sum.cleared, sumA := none }

/-- The weight of each live position and what forming it counted (R148 F3, R149). -/
def weights (st : Nat) (m : Int) (rnd : Nat → Rnd) (cls : RowCls) : List (Option Ext × Counts) :=
  ((List.range cls.length).zip cls).map fun p => match p.2 with
    | none => (none, Counts.zero)
    | some .pinf => (some (.fin false (if st = RowSt.inf then 1 else 0)), Counts.zero)
    | some (.fin x) =>
      if st = RowSt.live then let w := expWeight (x - m) (rnd p.1); (some w.1.val, w.2) else (some (.fin false 0), Counts.zero)
    | some _ => (some (.fin false 0), Counts.zero)

/-! ### One key tile -/

/-- Where the chunks of a sliver lie: core and slot. -/
def State.chunksF (s : State) (i : Inst) (x : Sliver) : List (Nat × Nat) :=
  (List.range (i.ap.d / 32)).map fun k => let q := chunkF (s.sAv i (x.g / 64)) k; (x.g + q.1, i.slot + q.2)

/-- Begin a sliver or a page group: rows EMPTY, output slots in row-anchored form with nothing in them (R145, R146). -/
def State.beginRows (s : State) (i : Inst) (x : Sliver) (outs : List (Nat × Nat)) : State :=
  let s1 := (List.range 32).foldl (fun s r => s.onStat x.g r fun _ => {}) s
  let s2 := outs.foldl (fun s q => s.onSlot q.1 q.2 fun _ => { rowForm := true, owner := i.dom }) s1
  (s2.noteWrote i.n ((x.g, i.slot) :: outs)).onInst i.n fun y => { y with aux := y.aux.filter (· != 2000 + x.g) }

/-- The entries of a list at the positions where `on` is live. -/
def atLive {α β : Type} (on : List (Option β)) (xs : List α) : List (β × α) := (on.zip xs).filterMap fun p => p.1.map fun b => (b, p.2)

/-- Add one weight row into one output chunk (R142, R148): `ps` holds the weight of each key that is live, `bank` the
chunk's columns over the keys. -/
def Slot.addWeights (y : Slot) (d : Draws) (r : Nat) (f : Fmt) (tag : Tag) (ps : List (Option Ext)) (bank : List BankCol) : Slot × Nat :=
  let z := y.applyTag d r tag
  if ps.all Option.isNone then (z, 0)
  else
    let tau := ((bank.flatMap fun c => (atLive ps c.exps).map Prod.snd).foldl maxOpt none).map fun e => f.leadG + 1 + e
    let z1 := match z.anchor r, tau with
      | none, some t => { z with anch := Map.set none z.anch r (some (t + 8)) }
      | _, _ => z
    z1.addRow d r (fillRow r (List.range 32) (bank.map fun c => (c.col, colSum ((atLive ps c.vals).map fun v => v.1.mul v.2))))

/-- An E4M3 weight as the chain buffer holds it. -/
def e4m3Byte : Ext → Byte
  | .fin neg m => BitVec.ofNat 8 (encodeFloat .e4m3 neg m)
  | _ => 0x7F#8

/-- A weight row's live mask in the chain buffer (R89). -/
def liveMask {α : Type} (xs : List (Option α)) : List Byte :=
  natLe 4 (((List.range xs.length).zip xs).map fun p => if p.2.isSome then 2 ^ p.1 else 0).sum

/-- A tag in the chain buffer: 0, a rise, or all ones for RESET (DESIGN CHOICE, log 121). -/
def Tag.code : Tag → Nat
  | .keep => 0
  | .rise n => n
  | .reset => 2 ^ 32 - 1

/-- A weight row of ATTF in the chain buffer: its weights, its live mask and its tag (R89, R142). -/
def weightRow (ps : List (Option Ext)) (tag : Tag) : List Byte :=
  (ps.map fun p => e4m3Byte (p.getD (.fin false 0))) ++ liveMask ps ++ natLe 4 tag.code

/-- A chain buffer bank of 32 rows of `n` bytes, the rows not named zeros (log 121). -/
def rowsBuf (n : Nat) (rs : List (Nat × List Byte)) : List Byte :=
  (List.range 32).flatMap fun r => ((rs.find? fun q => q.1 == r).map Prod.snd).getD (zeroBytes n)

/-- The value columns of output chunk `k` that exist: all of a pool's, those inside a dense V. -/
def Inst.vCol (i : Inst) (k c : Nat) : Bool := i.paged || decide (32 * k + c < i.atV.e0)

/-- One key tile of ATTF. A tile whose live positions of a row all have weight 0 brings l no first weight: it leaves l unanchored
(R146; DESIGN CHOICE, log 157). -/
def State.attfPass (s : State) (i : Inst) (w : Work) : State :=
  match i.sliverOf w, i.keyTiles[w.ix.getD 3 0]? with
  | some x, some t =>
    let k := w.ix.getD 3 0
    let c := s.poolOf i
    let outs := s.chunksF i x
    let s0 := if w.ix.getD 4 0 = 1 then s.beginRows i x outs else s
    let js := i.keysIn x t
    let at' := fun (r : Nat) => i.srcAt i.atQ (x.row r)
    let qk := i.chainSpans c x t i.atQ at' false
    let vsp := fun (k : Nat) => js.flatMap fun j => i.keySpans c x t true (((List.range 32).filter (i.vCol k)).map (32 * k + ·)) j
    match s0.attForeign i ((x.g, qk.1 ++ qk.2 ++ i.segSpans x t) :: ((List.range outs.length).zip outs).map fun o => (o.2.1, vsp o.1)) with
    | some z => z
    | none =>
    let nS := (i.slicesOf c i.atQ false).length
    let s1 := s0.intoChain i w c x t i.slot i.atQ at' false
    if i.cut.any (· < x.rows.length * nS) then s1 else
    let sc := s1.scores i c x t i.slot
    let s2 := if sc.bad then sc.s.onInst i.n fun y => { y with aux := if y.aux.contains (2000 + x.g) then y.aux else y.aux ++ [2000 + x.g] } else sc.s
    -- F2 to F5 of every row
    let rs := sc.rows.map fun r =>
      let q := (s2.co x.g).rowStat r.1
      let z := f2 q.st q.m (r.2.filterMap id)
      let ps := weights z.1 z.2.1 (fun p => rndOf i.ap.rndp (srDraw i.seed.toNat 16 i.issue (1024 * x.g + 32 * r.1 + p) k)) r.2
      let q1 := q.applyTag (statDraw i.seed.toNat 14 i.issue x.g r.1 0 k) z.2.2
      let sum := ((ps.filterMap Prod.fst).map Ext.toRat).sum
      let q2 := if sum = 0 then q1 else
        let a := statAdd q1.sum q1.sumA sum 0 (statDraw i.seed.toNat 6 i.issue x.g r.1 0 k) (statDraw i.seed.toNat 14 i.issue x.g r.1 0 k)
        { q1 with sum := a.1, sumA := a.2 }
      (r.1, { q2 with st := z.1, m := z.2.1 }, z.2.2, ps)
    let s3 := (rs.foldl (fun s r => s.onStat x.g r.1 fun _ => r.2.1) s2).putChain x.g
      (rowsBuf 40 (rs.map fun r => (r.1, weightRow (r.2.2.2.map Prod.fst) r.2.2.1)))
    let s4 := s3.count i.n i.ap.strm (rs.foldl (fun a r => r.2.2.2.foldl (fun a p => a.add p.2) a) Counts.zero)
    let wbad := ((s4.inst i.n).map fun y => y.aux.contains (2000 + x.g)).getD false
    let f := i.keyFmt c true
    -- the bed's passes, chunk by chunk
    ((List.range outs.length).zip outs).foldl (fun s o =>
      let cols := (List.range 32).map (32 * o.1 + ·)
      let g := o.2.1
      let q := s.fetchTile i g w [o.2.2] (vsp o.1)
      let u := q.1.loadBank g true (bankOf (js.map (i.keyVec c x t true q.2.1 cols)) (i.vCol o.1))
      let bank := u.bank g true
      let d : Draws := ⟨i.seed.toNat, 0, g, o.2.2, k, none⟩
      let kept := match i.cut with
        | none => rs
        | some n => rs.take (n - rs.length * (nS + o.1))
      let r := kept.foldl (fun (acc : Slot × Nat) r =>
        let z := acc.1.addWeights d r.1 f r.2.2.1 (js.map fun j => (r.2.2.2.getD j (none, Counts.zero)).1) bank
        (z.1, acc.2 + z.2)) (u.slot g o.2.2, 0)
      u.putSlot g o.2.2 ({ r.1 with passes := if kept.length < rs.length then r.1.passes else r.1.passes + 1, poisoned := r.1.poisoned || wbad || q.2.2 }, r.2)) s4
  | _, _ => s

/-! ### Finishing rows (R151 to R154) -/

/-- ρ of R151: `none` for a row that has none. -/
def RowStat.rho (q : RowStat) : Option ℚ :=
  let l := statVal q.sum q.sumA
  if (q.st = RowSt.live || q.st = RowSt.inf) && decide (0 < l) && !q.sum.special then some (r24 (1 / l)) else none

/-- The log-sum-exp (R151). -/
def RowStat.lse (q : RowStat) : Ext :=
  let l := statVal q.sum q.sumA
  if q.st = RowSt.empty || q.st = RowSt.nofin then .inf true
  else if q.st = RowSt.inf then .inf false
  else if q.rho.isNone then .nan
  else
    -- the sign of M + log2(l) is that of l - 2^-M
    let neg := decide (l < pow2 (-q.m))
    let iv : Apx := fun n => let i := Trans.log2Iv (n + 24) l; if neg then (-(q.m + i.2), -(q.m + i.1)) else (q.m + i.1, q.m + i.2)
    if l = pow2 (-q.m) then .fin false 0
    else match roundApx (fun y => rnd32Mag .rne y) iv with
      | some y => .fin neg y
      | none => .inf neg

/-- The status byte of R154. -/
def RowStat.status (q : RowStat) (inexact : Bool) : Nat :=
  b2n (q.st == RowSt.empty) + 2 * b2n (q.st == RowSt.nofin || q.st == RowSt.nan) + 4 * b2n (q.st == RowSt.inf)
  + 8 * b2n (q.st == RowSt.range) + 16 * b2n (q.st == RowSt.nofin) + 32 * b2n inexact

/-- An output value of a row (R151). -/
def RowStat.out (q : RowStat) (ts : ℚ) (v : Ext) : Ext :=
  if q.st = RowSt.empty then .fin false 0
  else match q.rho with
    | none => .nan
    | some k => v.scale (k * ts)

/-- The row record of R153. -/
def RowStat.record (q : RowStat) (status : Nat) : List Byte :=
  natLe 2 (if q.st = RowSt.live then wrapInt 16 q.m else 0) ++ natLe 1 q.st ++ natLe 1 status
  ++ natLe 2 (wrapInt 16 (q.sumA.getD (-512))) ++ zeroBytes 10
  ++ natLe 16 (if q.sumA.isSome then q.sum else { q.sum with f := 0, inex := false }).nat

/-- A chunk's WIDE tile at the fixed anchor, with a tensor scale (R121, R153, R556): ROWS and COLS are 32 (log 38). -/
def Slot.chunkTile (x : Slot) (at' : Int) (ts : ℚ) (n : Nat) (draw : Nat → Option Nat) : Tile × Nat :=
  let ms := x.ent.map fun p => (p.1, (if (x.anchorOf p.1).isNone then { p.2 with f := 0, inex := false } else p.2).toFixed (x.anchorOf p.1) at' ts (draw p.1) n p.1)
  ({ anchor := at', rows := 32, cols := 32, quad := false, inexact := ms.any fun p => p.2.1.inex, passes := x.passes.toNat,
     qanch := [], ent := (ms.map fun p => (p.1, p.2.1)).filter fun p => p.2 != {} }, (ms.map fun p => p.2.2).sum)

/-- Bytes of a partial of head dimension `d` (R370). -/
def partUnit (d : Nat) : Nat := 16448 * (d / 32) + 1024

/-- FAULT.POISON of a poisoned output; speculative work raises none (R122, R280). -/
def State.attPoison (s : State) (i : Inst) (g : Nat) (bad : Bool) : State :=
  if i.spec then s.markPoison i.n bad else s.poisonFault i.n g bad

/-- Finish row outputs of one chunk in an element format. -/
def State.writeChunk (s : State) (i : Inst) (x : Sliver) (o : Desc) (on k g slot : Nat) (bad : Bool) (row : Nat → RowStat) (ts : ℚ)
    (rnd strm : Nat) : State :=
  let y := s.slot g slot
  x.rows.foldl (fun s r =>
    let c := (i.dstAt o (x.row r)).add 0 (32 * k : Nat)
    let cs := (List.range 32).filter fun j => o.has (c.add 0 (j : Nat))
    if cs.isEmpty then s
    else
      let bs := convRow o.fmt 0 o.ts (cs.map fun j => ((row r).out ts (y.val (32 * r + j)), rndOf rnd (i.draw on (o.linear (c.add 0 (j : Nat))) 0)))
      (s.storeRow i.n g o c bs bad).count i.n strm (if o.fmt.counted then sumCounts bs else Counts.zero)) s

def Inst.atOn (i : Inst) : Nat := i.f 1 15 5
def Inst.atO (i : Inst) : Desc := i.desc i.atOn
def Inst.atLse (i : Inst) : Desc := i.desc (i.f 1 20 5)
def Inst.atStat (i : Inst) : Desc := i.desc (i.f 1 25 5)
def Inst.lseEn (i : Inst) : Bool := i.b 3 24
def Inst.statEn' (i : Inst) : Bool := i.b 3 25
def Inst.pidx (i : Inst) : Nat := i.f 3 26 6
def Inst.at' (i : Inst) : Int := sextNat 10 (i.f 2 21 10)

/-- The group record of R285. -/
def Inst.groupRec (i : Inst) (no gen gp : Nat) (bad : Bool) : List Byte :=
  let all := i.pages.filter fun r => decide (r.state < 2)
  let ps := (all.drop (gp * i.atPgs)).take i.atPgs
  let ext := if gp + 1 = i.groups then i.pages.filter fun r => decide (2 ≤ r.state) && r.lo != r.hi else []
  let miss := ps.any (fun r => r.state == 1) || ext.any fun r => r.state == 3
  natLe 2 no ++ natLe 1 gen ++ natLe 1 i.layer ++ natLe 1 i.ap.kvh ++ natLe 1 ps.length
  ++ natLe 1 (b2n (i.aux.contains 2) + 2 * b2n miss + 4 * b2n bad) ++ zeroBytes 1 ++ natLe 4 (i.session.getD 0) ++ zeroBytes 4
  ++ (List.range 16).flatMap (fun j => natLe 8 ((ps[j]?.map PageRef.pte).getD 0))
  ++ (List.range 16).flatMap (fun j => natLe 4 ((ps[j]?.map PageRef.page).getD 0)) ++ zeroBytes 48

/-- One output drain of ATTF: chunk `k` of a sliver and page group. The first chunk's drain also writes what each row
writes once: log-sum-exp, status, row records and the group record. A partial's 32 records include those of tile rows that the
sliver does not have: they are EMPTY, with ROW_EMPTY in their status (R153; DESIGN CHOICE, log 158). -/
def State.attfDrain (s : State) (i : Inst) (w : Work) : State :=
  match i.sliverOf w with
  | none => s
  | some x =>
    let gp := w.ix.getD 2 0
    let k := w.ix.getD 3 0
    let outs := s.chunksF i x
    let s0 := if w.ix.getD 4 0 = 1 then s.beginRows i x outs else s
    let q := outs.getD k (x.g, 0)
    let row := fun (r : Nat) => (s0.co x.g).rowStat r
    let wbad := ((s0.inst i.n).map fun y => y.aux.contains (2000 + x.g)).getD false
    let any := wbad || outs.any fun o => (s0.slot o.1 o.2).poisoned
    let bad := wbad || (s0.slot q.1 q.2).poisoned
    let ts := if i.paged then 1 else i.atV.ts
    let o := i.atO
    let no := i.pidx + (if i.atPgs = 0 then x.no else x.no * i.groups + gp)
    let base := o.base + no * partUnit i.ap.d
    let inex := fun (r : Nat) => (row r).sum.inex || outs.any fun z => (s0.slot z.1 z.2).ent.any fun p => p.1 / 32 == r && p.2.inex
    let s1 := if !i.atPart then s0.writeChunk i x o i.atOn k q.1 q.2 bad row ts i.ap.rndo i.ap.strm
      else
        let t := (s0.slot q.1 q.2).chunkTile i.at' ts i.n fun e =>
          some (i.draw i.atOn (o.linear ⟨(32 * k + e % 32 : Nat), (e / 32 : Nat), (no : Nat), 0⟩) 0)
        (s0.store i.n q.1 o.loc (base + 16448 * k) t.1.bytes bad).count i.n i.ap.strm { sat := t.2 }
    let s2 := if k != 0 || i.atPart || !i.lseEn then s1 else x.rows.foldl (fun s r =>
      s.writeOne i x.g i.atLse (i.dstAt i.atLse (x.row r)) (f32Block (row r).lse) wbad) s1
    let s3 := if k != 0 || !i.statEn' then s2 else x.rows.foldl (fun s r =>
      s.writeStatus i x.g i.atStat (i.dstAt i.atStat (x.row r)) ((row r).status (inex r)) any) s2
    let s4 := if k != 0 || !i.atPart then s3 else
      s3.store i.n x.g o.loc (base + 16448 * outs.length)
        ((List.range 32).flatMap fun r => let z : RowStat := if x.rows.contains r then row r else {}
          z.record (z.status (x.rows.contains r && inex r))) any
    let s5 := if k != 0 || i.atPgs = 0 then s4 else
      let h := i.handle i.hnd
      s4.writeExt i.n (i.sa (i.f 1 20 5) + 256 * (x.no * i.groups + gp)) (i.groupRec h.1 h.2 gp any) false
    let s6 := s5.attPoison i q.1 bad
    -- released after the instruction's last drain of it: unanchored, as the clear modifier leaves it (R146)
    if ((s6.inst i.n).getD i).work.any fun y => (y.pass && y.core == x.g) || (y.core == q.1 && y.slots.contains q.2) then s6
    else (s6.onSlot q.1 q.2 Slot.cleared).onInst i.n fun y => { y with wrote := y.wrote.filter fun z => z != q }

/-! ### The row -/

/-- Refusals of an ATTF that need no parameter block. -/
def Inst.attfWords (i : Inst) : List Nat :=
  let part := i.atPart
  let outs := [i.atO] ++ (if i.lseEn then [i.atLse] else []) ++ (if i.statEn' then [i.atStat] else [])
  let pgs := i.atPgs
  when (i.f 0 30 2 != 0 || (pgs != 0 && (!part || i.atSrc != 1)) || (i.atSpecx && !i.atSpec) || (i.atSpec && i.atSrc == 0)
    || (i.lseEn && part) || i.b 2 31
    || (!i.lseEn && !(part && pgs != 0) && i.f 1 20 5 != 0) || (!i.statEn' && i.f 1 25 5 != 0) || i.ow) Code.encoding
  ++ descCodes outs ++ floorCodes outs
  ++ when ((part && i.atO.fmtCode != 12) || (!part && decide (10 < i.atO.fmtCode)) || (i.lseEn && i.atLse.fmtCode != 10)) Code.format
  ++ when (pgs != 0 && i.sv (i.f 1 20 5) % 64 != 0) Code.operand ++ when (decide (16 < pgs)) Code.shape

def State.attfChecks (s : State) (i : Inst) : List Nat :=
  let a := i.ap
  let part := i.atPart
  let o := i.atO
  let outs := (if part then [] else [o]) ++ (if i.lseEn then [i.atLse] else []) ++ (if i.statEn' then [i.atStat] else [])
  let pgs := i.atPgs
  let nsl := (i.slivers.map fun x => x.no + 1).foldl max 0
  let refs := s.refsNow i
  let ng := if pgs = 0 then 1 else cdiv ((refs.filter fun r => decide (r.state < 2)).length) pgs
  s.attCodes i 2560
  ++ i.attfWords
  ++ when (a.bwd != 0 || a.atk != 0 || a.atv != 0 || a.rnds != 0 || a.rndp == 3
    || (!part && i.lacksDim .c false o) || (i.lseEn && i.lacksDim .c false i.atLse) || (i.statEn' && i.lacksDim .c false i.atStat)) Code.encoding
  ++ when (a.rndp == 2) Code.mode
  ++ when (part && (o.e0 != a.d || o.e1 != 32 || o.s1 != 0 || o.s2 != 0 || o.s3 != 0 || decide (o.e2 < i.pidx + nsl * ng))) Code.shape
  ++ s.rangeCodes i [] outs
  ++ when (part && o.loc == 1 && (decide (0x600000 < o.base + o.e2 * partUnit a.d)
      || (decide (0x5E0000 < o.base + o.e2 * partUnit a.d) && i.bays.any fun b => (s.by b).biasReserved))
    || (part && o.loc == 2 && decide (0xC000 < o.base + o.e2 * partUnit a.d))) Code.range

/-- Chunks held on the busiest core of a span. -/
def busiest (sav chunks : Nat) : Nat :=
  maxOr 0 ((List.range chunks).map fun k => ((List.range chunks).filter fun j => (chunkF sav j).1 == (chunkF sav k).1).length)

/-- Live tiles of each sliver, with the pages as they are. -/
def State.liveTiles (s : State) (i : Inst) : List (Sliver × List KeyTile) :=
  let j := { i with pages := s.refsNow i }
  let T := (s.poolOf i).T
  i.slivers.map fun x => (x, j.keyTiles.filter fun t => !s.skips j T x t)

def State.attfCost (s : State) (i : Inst) : Nat :=
  let d := i.ap.d
  let l := s.liveTiles i
  maxOr 0 (i.cores.map fun g =>
    let mine := l.filter fun q => q.1.g == g
    if mine.isEmpty then 0
    else 32 + (mine.map fun q => q.1.rows.length * max (d / 32) 2 * q.2.length).sum + 160 + 40 * busiest (s.sAv i (g / 64)) (d / 32))

/-- The accesses of a chain product's passes: in each, its slice of the streamed rows, then of the keys or values. -/
def Inst.chainAddrs (i : Inst) (c : PoolCfg) (x : Sliver) (t : KeyTile) (d : Desc) (at' : Nat → Coord) (isV : Bool) : List Nat :=
  (i.slicesOf c d isV).flatMap fun ks =>
    lineSort (x.rows.flatMap fun r => ks.flatMap fun k => d.spans ((at' r).add 0 (k : Nat)))
    ++ lineSort ((i.keysIn x t).flatMap (i.keySpans c x t isV ks))

/-- Accesses in R359's order: the parameter block and the selection list; for each sliver what it reads first, for each
live tile the score passes, the bitmap and the segment lists, and what follows them, then the outputs. -/
def State.attAddrs (s : State) (i : Inst) (first : Sliver → List Nat) (tile : Sliver → KeyTile → List Nat) (outs : Sliver → List Nat) : List Nat :=
  let c := s.poolOf i
  let a := i.ap
  let sel := i.sa (i.f 1 5 5)
  linesOf 64 (parAddr i) 64 ++ (if i.atSrc = 1 then linesOf 64 sel (64 + 16 * (s.selAt sel).ents.length) else [])
  ++ (s.liveTiles i).flatMap fun q =>
    let x := q.1
    first x ++ q.2.flatMap (fun t =>
      i.chainAddrs c x t i.atQ (fun r => i.srcAt i.atQ (x.row r)) false
      ++ (if a.block then lineSort (x.rows.flatMap fun r => (i.keysIn x t).map fun j =>
          (⟨0, (a.blockBit (i.qposOf x r) (i.kposOf c.T t j)).1, 1⟩ : Span)) else [])
      ++ lineSort (i.segSpans x t) ++ tile x t)
    ++ outs x

/-- ATTF's accesses: the chunks' passes, then each chunk's drain, the first with the log-sum-exp, the status bytes and
the records. -/
def State.attfAddrs (s : State) (i : Inst) : List Nat :=
  let c := s.poolOf i
  let nch := i.ap.d / 32
  let o := i.atO
  let ng := if i.atPgs = 0 then 1 else cdiv (((s.refsNow i).filter fun r => decide (r.state < 2)).length) i.atPgs
  s.attAddrs i (fun _ => [])
    (fun x t => (List.range nch).flatMap fun k => lineSort ((i.keysIn x t).flatMap (i.keySpans c x t true ((List.range 32).map (32 * k + ·)))))
    fun x => (List.range ng).flatMap fun gp => (List.range nch).flatMap fun k =>
      let base := o.base + (i.pidx + x.no * ng + gp) * partUnit i.ap.d
      (if i.atPart then lineSort [⟨o.loc, base + 16448 * k, 16448⟩]
        else lineSort (x.rows.flatMap fun r => o.anySpans ((i.dstAt o (x.row r)).add 0 (32 * k : Nat)) 32))
      ++ if k != 0 then [] else
        (if i.lseEn then lineSort (x.rows.flatMap fun r => i.atLse.spans (i.dstAt i.atLse (x.row r))) else [])
        ++ (if i.statEn' then lineSort (x.rows.map fun r => i.atStat.byteAt (i.dstAt i.atStat (x.row r))) else [])
        ++ (if i.atPart then lineSort [⟨o.loc, base + 16448 * nch, 1024⟩] else [])
        ++ (if i.atPgs = 0 then [] else linesOf 64 (i.sa (i.f 1 20 5) + 256 * (x.no * ng + gp)) 256)

/-- Form the work of an ATTF whose keys are known. -/
def State.attfWork (s : State) (i : Inst) : State :=
  let nS := (i.slicesOf (s.poolOf i) i.atQ false).length
  let ws := s.attWork i 20 (fun x => List.replicate nS ⟨x.g, false, x.rows.length⟩
      ++ (s.chunksF i x).map fun q => ⟨q.1, true, x.rows.length⟩)
    (fun x => (List.range (i.ap.d / 32)).map (chunkF (s.sAv i (x.g / 64)))) fun _ => []
  s.onInst i.n fun y => { y with work := ws }

/-- A paged ATTF in its turn: its key list, then its work. -/
def State.attfOpen (s : State) (i : Inst) : State :=
  let k := s.openKeys i
  if !k.2 then k.1
  else match k.1.inst i.n with
    | none => k.1
    | some j => k.1.attfWork j

end Sys2Proof.Machine
end

