-- ==== Sys2Proof/Machine/AttM.lean ====
section
/-!
DEFINITION. ATTM (R286, R287, R374, R375): the confirmation of predicted page groups, the missing list, the
merge of partials; and BIAS (R155 to R160, R376).
-/

namespace Sys2Proof.Machine

/-! ### Fields (R374) -/

def Inst.confirms (i : Inst) : Bool := i.b 0 26
def Inst.norms (i : Inst) : Bool := i.b 0 27
def Inst.mPartN (i : Inst) : Nat := i.f 1 10 5
def Inst.mPart (i : Inst) : Desc := i.desc i.mPartN
def Inst.mNg (i : Inst) : Nat := if i.confirms then i.f 2 0 8 else 0
def Inst.mNx (i : Inst) : Nat := i.f 2 8 8
def Inst.mPidx (i : Inst) : Nat := i.f 2 16 8
def Inst.mOidx (i : Inst) : Nat := i.f 2 24 8
def Inst.mLseEn (i : Inst) : Bool := i.b 1 30
/-- The head dimension of the partial set (R370). -/
def Inst.mD (i : Inst) : Nat := i.mPart.e0
def Inst.mList (i : Inst) : Nat := i.sa (i.f 1 0 5)
def Inst.mGrec (i : Inst) : Nat := i.sa (i.f 1 5 5)
def Inst.mMiss (i : Inst) : Nat := i.sa (i.f 1 20 5)
/-- Where partial `j` begins. -/
def Inst.mAt (i : Inst) (j : Nat) : Nat := i.mPart.base + j * partUnit i.mD

/-! ### Reading partials (R153, R370) -/

structure Partial where
  tiles : List Tile
  rows : List RowStat
  ok : Bool
  deriving DecidableEq, Repr

/-- A row record and whether it is well formed. -/
def rowOfRecord (b : List Byte) : RowStat × Bool :=
  let l := leAt b 16 16
  ({ m := sextNat 16 (leAt b 0 2), st := leAt b 2 1 % 8, sum := Entry.ofNat l, sumA := some (sextNat 10 (leAt b 4 2)) },
   decide (leAt b 2 1 < 6) && decide (leAt b 3 1 < 64) && zeroAt b 6 10 && decide (l < 2 ^ 100))

def partialOf (d : Nat) (b : List Byte) : Partial :=
  let ts := (chunks 16448 (d / 32) b).map tileOf
  let rs := (chunks 32 32 (b.drop (16448 * (d / 32)))).map rowOfRecord
  ⟨ts.map Prod.fst, rs.map Prod.fst, ts.all Prod.snd && rs.all Prod.snd⟩

/-- Partial `j` can be read. -/
def State.partialOpen (s : State) (i : Inst) (j : Nat) : Bool := i.mPart.loc != 0 || s.canRead i (i.mAt j) (partUnit i.mD)

/-- Read partial `j` on core `g`. -/
def State.readPartial (s : State) (i : Inst) (g j : Nat) (tgt : List Tgt) : State × Partial × Bool :=
  let n := partUnit i.mD
  let q := s.fetch i.n g false tgt [⟨i.mPart.loc, i.mAt j, n⟩]
  (q.1, partialOf i.mD ((List.range n).map fun k => q.2.1.at i.mPart.loc (i.mAt j + k)), q.2.2)

/-! ### Confirmation (R286) -/

/-- `a` is earlier than `b` modulo 2^32. -/
def earlier (a b : Nat) : Bool := let k := (b + 2 ^ 32 - a % 2 ^ 32) % 2 ^ 32; k != 0 && decide (k < 2 ^ 31)

/-- The form of a group record (R285). -/
def groupRecOk (b : List Byte) : Bool :=
  decide (1 ≤ leAt b 5 1) && decide (leAt b 5 1 ≤ 16) && decide (leAt b 6 1 < 8) && zeroAt b 7 1 && zeroAt b 12 4 && zeroAt b 208 48

/-- Test 4 of group `g`: the frame of an entry is live and never retired since. -/
def State.frameKept (s : State) (i : Inst) (g : Nat) (e : Pte) (ep : Nat) : State × Bool :=
  let p := s.pool (Pte.pool e)
  match p.slotOf (Pte.frame e) with
  | none => (s, false)
  | some k =>
    if !s.canRead i (p.metaAt k) 16 then (s, false)
    else
      let q := s.readExt i.n false [.slot g 1] (p.metaAt k) 16
      match metaOf q.2.1 with
      | none => (q.1, false)
      | some m => (q.1, m.st == 1 && earlier m.pin ep)

/-- R286 of group `g`, whose record and partial are read; the pages it covers where it is confirmed. What the test reads
is marked as for slot 0 of the group, its frames' metadata as for slot 1: a record or partial that comes back in error
leaves the group unconfirmed, with no fault. -/
def State.confirm (s : State) (i : Inst) (l : SelList) (g : Nat) : State × Option (List Nat) :=
  let a := i.mGrec + 256 * g
  if !s.canRead i a 256 || !s.partialOpen i (i.mPidx + g) then (s, none)
  else
    -- a set in the program region is read on the first assignee, after its domain check (R314)
    match s.obCheck i (i.cores.headD 0) [⟨i.mPart.loc, i.mAt (i.mPidx + g), partUnit i.mD⟩] with
    | some t => (t, none)
    | none =>
    let q := s.readExt i.n true [.slot g 0] a 256
    let b := q.2.1
    let n := leAt b 5 1
    let ps := (List.range n).map fun j => (leAt b (144 + 4 * j) 4, leAt b (16 + 8 * j) 8)
    let p := q.1.readPartial i (i.cores.headD 0) (i.mPidx + g) [.slot g 0]
    let es := leAt b 8 4
    let ep := if earlier es l.epoch then es else l.epoch
    let same := leAt b 0 2 == l.seq && leAt b 2 1 == l.gen && leAt b 3 1 == l.layer && leAt b 4 1 == l.group && leAt b 6 1 == 1
    let found := ps.all fun x => match l.ents.find? fun e => e.page == x.1 with
      | none => false
      | some e => decide (e.kind ≤ 1) && Pte.v e.pte && Pte.frame e.pte == Pte.frame x.2 && Pte.t e.pte == Pte.t x.2 && Pte.fill e.pte == Pte.fill x.2
    if !(groupRecOk b && same && found && p.2.1.ok && !p.2.2 && !i.staging.hit [.slot g 0]) then (p.1, none)
    else
      let f := ps.foldl (fun (acc : State × Bool) x =>
        let z := acc.1.frameKept i g x.2 ep
        (z.1, acc.2 && z.2)) (p.1, true)
      (f.1, if f.2 && !i.staging.hit [.slot g 1] then some (ps.map Prod.fst) else none)

/-- The missing list: pages of KIND 0 and 1 that no confirmed group covers. -/
def SelList.missing (l : SelList) (covered : List Nat) : SelList :=
  { l with ents := l.ents.filter fun e => decide (e.kind ≤ 1) && !covered.contains e.page }

/-- Confirm every group, write the missing list and count; the partials to merge are kept with the instruction in the
order of their list. -/
def State.openMerge (s : State) (i : Inst) : State × Bool :=
  let rest := (List.range i.mNx).map (i.mPidx + i.mNg + ·)
  let keep := fun (s : State) (js : List Nat) => s.onInst i.n fun y => { y with aux := y.aux ++ js.map (5000 + ·) }
  if !i.confirms then (keep s rest, true)
  else
    let l := s.readSel i i.mList
    if !l.2.2 || i.staging.hit [] then (l.1, false)
    else
      let r := (List.range i.mNg).foldl (fun (acc : State × List Nat × List Nat) g =>
        let z := acc.1.confirm i l.2.1 g
        match z.2 with
        | none => (z.1, acc.2)
        | some ps => (z.1, acc.2.1 ++ [i.mPidx + g], acc.2.2 ++ ps)) (l.1, [], [])
      let s1 := r.1.writeExt i.n i.mMiss (l.2.1.missing r.2.2).bytes false
      let s2 := s1.onCx i.ctx fun x =>
        { x with groupsConfirmed := holdAdd x.groupsConfirmed r.2.1.length, specDiscarded := holdAdd x.specDiscarded (i.mNg - r.2.1.length) }
      (keep s2 (r.2.1 ++ rest), true)

/-- The partials that an accepted ATTM merges. -/
def Inst.mInputs (i : Inst) : List Nat := i.aux.filterMap fun k => if 5000 ≤ k then some (k - 5000) else none

/-! ### The merge (R287) -/

/-- The order of the row states. -/
def stRank (st : Nat) : Nat := match st with
  | 4 => 5
  | 3 => 4
  | 5 => 3
  | 2 => 2
  | 1 => 1
  | _ => 0

def topSt (a b : Nat) : Nat := if stRank a < stRank b then b else a

/-- The merged state of a row and its maximum M*. -/
def mergedRow (rs : List RowStat) : Nat × Int :=
  ((rs.map RowStat.st).foldl topSt 0, maxIntOr 0 ((rs.filter fun q => q.st == RowSt.live).map RowStat.m))

/-- The power of two by which a partial's row is scaled; `none` where it does not contribute. -/
def contrib (st : Nat) (mx : Int) (q : RowStat) : Option Int :=
  if st = RowSt.inf then (if q.st = RowSt.inf then some 0 else none)
  else if q.st = RowSt.live then some (q.m - mx) else none

/-- The anchor that a row takes from its first contribution (log 40). -/
def firstAnchor (a k : Int) : Int := max (a + k) (-512)

/-- Add one partial's row into the accumulated sum l. -/
def RowStat.mergeL (q p : RowStat) (k : Int) (u6 u14 : Nat) : RowStat :=
  let a := p.sumA.getD (-512)
  match p.sum.ext (some a) with
  | .fin neg v =>
    let x := (if neg then -v else v) * pow2 k
    let z := statAdd q.sum q.sumA x (firstAnchor a k - 8) u6 u14
    { q with sum := { z.1 with inex := z.1.inex || p.sum.inex }, sumA := z.2 }
  | e => { q with sum := q.sum.tag e, sumA := some (q.sumA.getD (firstAnchor a k)) }

/-- Add one partial's row of a chunk into the chunk's accumulator. -/
def Slot.mergeRow (y : Slot) (d : Draws) (r : Nat) (t : Tile) (k : Int) : Slot × Nat :=
  let y1 := if (y.anchor r).isSome then y else { y with anch := Map.set none y.anch r (some (firstAnchor t.anchor k)) }
  let es := (List.range 32).map fun c => (32 * r + c, Map.get ({} : Entry) t.ent (32 * r + c))
  let z := y1.addRow d r (es.map fun e => (e.1, (e.2.ext (some (t.anchorOf e.1))).scale (pow2 k)))
  ({ z.1 with ent := es.foldl (fun m e => if e.2.inex then Map.modify {} m e.1 fun x => { x with inex := true } else m) z.1.ent }, z.2)

/-- The chunk places of a merge on a lead. -/
def State.chunksM (s : State) (i : Inst) (x : Sliver) : List (Nat × Nat) :=
  (List.range (i.mD / 32)).map fun k => let q := chunkF (s.sAv i (x.g / 64)) k; (x.g + q.1, i.slot + q.2)

/-- Leave the accumulators as the clear modifier does (R146). -/
def State.freeRowForm (s : State) (n : Nat) (ps : List (Nat × Nat)) : State :=
  (ps.foldl (fun s q => s.onSlot q.1 q.2 fun y => if y.rowForm then y.cleared else y) s).onInst n fun y =>
    { y with wrote := y.wrote.filter fun z => !ps.contains z }

/-- Merge the inputs of one sliver and write what it gives. -/
def State.attmMerge (s : State) (i : Inst) (w : Work) : State :=
  match i.sliverOf w with
  | none => s
  | some x =>
    let outs := s.chunksM i x
    let ins := i.mInputs
    let po := i.mPart
    match s.attForeign i [(x.g, ins.map fun j => ⟨po.loc, i.mAt j, partUnit i.mD⟩)] with
    | some t => t
    | none =>
    let tgt := if i.norms then x.rows.flatMap fun r => i.atO.targets x.g (i.dstAt i.atO (x.row r)) i.mD
      else [tgtOf x.g po.loc (i.mAt i.mOidx) (partUnit i.mD)]
    let s0 := (List.range 32).foldl (fun s r => s.onStat x.g r fun _ => {})
      ((outs.foldl (fun s q => s.onSlot q.1 q.2 fun _ => { rowForm := true, owner := i.dom }) s).noteWrote i.n outs)
    let rd := ins.foldl (fun (acc : State × List Partial × Bool) j =>
      if i.confirms && !acc.1.partialOpen i j then (acc.1, acc.2.1 ++ [⟨[], [], false⟩], acc.2.2)
      else
        -- the test has read a confirmed group's partial
        let q := if i.confirms && decide (j < i.mPidx + i.mNg) then
            let v := acc.1.view x.g
            (acc.1, partialOf i.mD ((List.range (partUnit i.mD)).map fun k => v.at po.loc (i.mAt j + k)), false)
          else acc.1.readPartial i x.g j tgt
        (q.1, acc.2.1 ++ [q.2.1], acc.2.2 || q.2.2)) (s0, [], false)
    let all := (List.range ins.length).zip rd.2.1
      -- a malformed partial faults and is merged as poisoned data (R48)
      let broken := if i.confirms then none else (all.find? fun p => !p.2.ok).map fun p => ins.getD p.1 0
      let sr := match broken with
        | some j => rd.1.wideFault i.n Code.fWideHeader (i.mAt j)
        | none => rd.1
      let ps := if i.confirms then all.filter fun p => p.2.ok else all
      let bad := rd.2.2 || broken.isSome
      -- the rows
      let rowsOf := fun (r : Nat) => ps.map fun p => (p.1, p.2, p.2.rows.getD r {})
      let fin := fun (r : Nat) => mergedRow ((rowsOf r).map fun p => p.2.2)
      let s1 := x.rows.foldl (fun s r =>
        let f := fin r
        let q := (rowsOf r).foldl (fun (q : RowStat) p => match contrib f.1 f.2 p.2.2 with
          | none => q
          | some k => q.mergeL p.2.2 k (statDraw i.seed.toNat 6 i.issue x.g r 0 p.1) (statDraw i.seed.toNat 14 i.issue x.g r 0 p.1)) {}
        s.onStat x.g r fun _ => { q with st := f.1, m := f.2 }) sr
      -- the chunks
      let s2 := ((List.range outs.length).zip outs).foldl (fun s o =>
        let z := ps.foldl (fun (acc : Slot × Nat) p =>
          x.rows.foldl (fun acc r =>
            let f := fin r
            match contrib f.1 f.2 (p.2.rows.getD r {}) with
            | none => acc
            | some k =>
              let y := acc.1.mergeRow ⟨i.seed.toNat, 0, o.2.1, o.2.2, p.1, none⟩ r (p.2.tiles.getD o.1 (tileHeader [])) k
              (y.1, acc.2 + y.2)) acc) (s.slot o.2.1 o.2.2, 0)
        s.putSlot o.2.1 o.2.2 ({ z.1 with poisoned := z.1.poisoned || bad }, z.2)) s1
      let row := fun (r : Nat) => (s2.co x.g).rowStat r
      let k := (List.range outs.length).zip outs
      let s3 :=
        if i.norms then
          let a := k.foldl (fun s o => s.writeChunk i x i.atO i.atOn o.1 o.2.1 o.2.2 bad row 1 i.rnd i.strm) s2
          if i.mLseEn then x.rows.foldl (fun s r =>
            let d := i.desc (i.f 1 25 5)
            s.writeOne i x.g d (i.dstAt d (x.row r)) (f32Block (row r).lse) bad) a
          else a
        else
          let at' := maxIntOr (-512) (ps.flatMap fun p => p.2.tiles.map Tile.anchor)
          let o := i.mPart
          let a := k.foldl (fun s c =>
            let t := (s.slot c.2.1 c.2.2).chunkTile at' 1 i.n fun e =>
              some (i.draw i.mPartN (o.linear ⟨(32 * c.1 + e % 32 : Nat), (e / 32 : Nat), (i.mOidx : Nat), 0⟩) 0)
            (s.store i.n c.2.1 o.loc (i.mAt i.mOidx + 16448 * c.1) t.1.bytes bad).count i.n i.strm { sat := t.2 }) s2
          let inex := fun (r : Nat) => (row r).sum.inex || outs.any fun z => (s2.slot z.1 z.2).ent.any fun p => p.1 / 32 == r && p.2.inex
          a.store i.n x.g o.loc (i.mAt i.mOidx + 16448 * outs.length)
            ((List.range 32).flatMap fun r => let z : RowStat := if x.rows.contains r then row r else {}
              z.record (z.status (x.rows.contains r && inex r))) bad
      -- released after the instruction's last use of them (R146)
      let s4 := s3.attPoison i x.g bad
      if ((s4.inst i.n).getD i).work.any fun y => y.core == x.g then s4 else s4.freeRowForm i.n outs

/-! ### The rows ATTM_CONFIRM and ATTM_MERGE -/

def State.attmChecks (s : State) (i : Inst) : List Nat :=
  let e := LoopE.of i.l
  let p := i.mPart
  let o := if i.norms then [i.atO] else []
  let l := if i.mLseEn then [i.desc (i.f 1 25 5)] else []
  let some' := decide (0 < i.mNg + i.mNx)
  let hi := i.mPidx + i.mNg + i.mNx
  when (i.f 0 28 4 != 0 || i.b 1 31 || (!i.norms && i.mLseEn) || (!i.norms && i.f 1 15 5 != 0) || (!i.mLseEn && i.f 1 25 5 != 0)
    || i.f 3 14 18 != 0 || i.rnd == 3 || e.badEntry || e.badRole [0, 3] || e.badTile [0] false false false) Code.encoding
  ++ descCodes ([p] ++ o ++ l)
  ++ when (p.fmtCode != 12 || (o.any fun d => decide (10 < d.fmtCode)) || l.any fun d => d.fmtCode != 10) Code.format
  ++ when (i.rnd == 2) Code.mode ++ floorCodes o
  ++ when ((!i.norms && some' && decide (i.mPidx ≤ i.mOidx) && decide (i.mOidx < hi))
    || (i.confirms && (i.sv (i.f 1 0 5) % 64 != 0 || i.sv (i.f 1 5 5) % 64 != 0 || i.sv (i.f 1 20 5) % 64 != 0))) Code.operand
  ++ when i.cores.isEmpty Code.operand ++ when (i.spanCores.any s.coreFenced) Code.fenced
  ++ when (!([64, 96, 128, 192, 256] : List Nat).contains p.e0 || p.e1 != 32 || p.s1 != 0 || p.s2 != 0 || p.s3 != 0 || (some' && decide (p.e2 < hi))
    || (!i.norms && some' && decide (p.e2 ≤ i.mOidx)) || i.badBound i.rloop) Code.shape
  ++ s.rangeCodes i [] (o ++ l)
  ++ when (!i.norms && some' && p.loc == 1 && (decide (0x600000 < p.base + p.e2 * partUnit p.e0)
      || (decide (0x5E0000 < p.base + p.e2 * partUnit p.e0) && i.bays.any fun b => (s.by b).biasReserved))) Code.range
  ++ when (p.loc == 2 && decide (0xC000 < p.base + p.e2 * partUnit p.e0)) Code.range
  ++ when (i.bays.any (fun b => decide (s.sAv i b < 2)) || s.badSlots i i.slot 1) Code.slot

def State.attmAddrs (s : State) (i : Inst) : List Nat :=
  let l := s.selAt i.mList
  let len := 64 + 16 * l.ents.length
  let parts := if i.mPart.loc = 0 then (List.range (i.mNg + i.mNx)).flatMap fun k => linesOf 64 (i.mAt (i.mPidx + k)) (partUnit i.mD) else []
  (if i.confirms then linesOf 64 i.mList len ++ linesOf 64 i.mGrec (256 * i.mNg) else []) ++ parts
  ++ (if i.norms then i.slivers.flatMap fun x => lineSort (x.rows.flatMap fun r => i.atO.anySpans (i.dstAt i.atO (x.row r)) i.mD)
        ++ (if i.mLseEn then lineSort (x.rows.flatMap fun r => (i.desc (i.f 1 25 5)).spans (i.dstAt (i.desc (i.f 1 25 5)) (x.row r))) else [])
      else if i.mPart.loc = 0 then linesOf 64 (i.mAt i.mOidx) (partUnit i.mD) else [])
  ++ (if i.confirms then linesOf 64 i.mMiss len else [])

/-- The work of an accepted ATTM: one merge for each sliver. -/
def State.mergeWork (s : State) (i : Inst) : List Work :=
  let sl := i.slivers
  ((List.range sl.length).zip sl).filterMap fun p =>
    if p.2.rows.isEmpty then none
    else
      let ks := (s.chunksM i p.2).filterMap fun c => if c.1 = p.2.g then some c.2 else none
      some { core := p.2.g, pass := false, bed := false, rows := 0, slots := ks, ix := [26, p.1] }

/-- Accept an ATTM: a CONFIRM asks for what it tests (log 126), and tests it in an item of its own before the merges. -/
def State.beginMerge (s : State) (i : Inst) : State :=
  let ws := if i.mNg + i.mNx = 0 then [] else s.mergeWork i
  if !i.confirms then (s.openMerge i).1.onInst i.n fun y => { y with work := ws }
  else
    let w : Work := { core := i.cores.headD 0, pass := false, bed := false, rows := 0, slots := [], ix := [28], fetched := true }
    let st : Staging := .fetching w.core w.ix []
    let s1 := s.onInst i.n fun y => { y with work := w :: ws, staging := st }
    (s1.takeReads (s1.openMerge { i with staging := st }).1).onInst i.n fun y => { y with staging := .off }

/-- Test the groups of a CONFIRM whose list, records and partials have come. -/
def State.attmTest (s : State) (i : Inst) (w : Work) : State :=
  let st : Staging := .staged w.bad []
  let q := (s.onInst i.n fun y => { y with staging := st }).openMerge { i with staging := st }
  q.1.onInst i.n fun y => { y with staging := .off, work := if q.2 then y.work else [] }

def attmRow (confirm : Bool) : TRow :=
  { TRow.plain 0x22 State.beginMerge with
    form := fun w => w.md 0 == confirm
    useLoop := true
    useSlot := true
    useBays := true
    prep := fun s i => i.spread' fun b => spanF (i.mD / 32) (max 2 (s.sAv i b))
    checks := State.attmChecks
    zero := fun _ i => (!i.confirms && i.mNx == 0) || i.zeroRole i.rloop [0, 3]
    cost := fun _ i =>
      let per := fun (g : Nat) =>
        let mine := i.slivers.filter fun x => x.g == g
        if mine.isEmpty then 0
        else 64 + (mine.map fun x => (i.mNg + i.mNx) * x.rows.length * (i.mD / 32)).sum + 40 * (i.mD / 32)
      maxOr 0 (i.cores.map per)
    addrs := State.attmAddrs
    dep := fun _ i => if i.confirms then 2 else 1 }

def execAttmConfirm (c : Fin 64) (w : Long) (s : State) : Out := issueTensor (attmRow true) c.val w s
def execAttmMerge (c : Fin 64) (w : Long) (s : State) : Out := issueTensor (attmRow false) c.val w s

/-! ### BIAS (R158 to R160, R376) -/

def Inst.biSrc (i : Inst) : Desc := i.desc (i.f 1 0 5)

/-- The elements of the table in order, as places of memory. -/
def Inst.biSpans (i : Inst) : List Span :=
  let d := i.biSrc
  (List.range d.e3).flatMap fun c3 => (List.range d.e2).flatMap fun c2 => (List.range d.e1).flatMap fun c1 =>
    (List.range d.e0).flatMap fun c0 => d.spans ⟨(c0 : Nat), (c1 : Nat), (c2 : Nat), (c3 : Nat)⟩

/-- An entry that stops the load: +∞ or a NaN. -/
def biasBad (n : Nat) : Bool := n == 0x7F80 || (n / 2 ^ 7 % 2 ^ 8 == 255 && n % 2 ^ 7 != 0)

def firstBad : Nat → List Byte → Option Nat
  | k, a :: b :: r => if biasBad (leNat [a, b]) then some k else firstBad (k + 1) r
  | _, _ => none

/-- Accept a BIAS: the region of every bay is reserved, the table is read. -/
def State.beginBias (s : State) (i : Inst) : State :=
  let s1 := i.bays.foldl (fun s b => s.onBy b fun x => { x with biasReserved := true }) s
  if i.biSrc.loc = 0 then
    let sp := i.biSpans
    let q := s1.fetch i.n 0 true [] sp
    s1.beginLoad i (q.1, sp.flatMap (fun p => (List.range p.len).map fun k => q.2.1.ext (p.addr + k)), q.2.2) false
  else s1.beginLoad i (s1, [], false) false

/-- The table that a BIAS brings bay `b`, and whether it is poisoned. -/
def State.biasTable (s : State) (i : Inst) (b : Nat) : Got :=
  let x := s.by b
  let sp := i.biSpans
  if i.biSrc.loc = 1 then (sp.flatMap fun p => x.bytes p.addr p.len, sp.any fun p => anyPoison x.memPoison p.addr p.len)
  else (i.apb, i.aux.contains 1)

/-- Write the inactive bank of every bay, and commit them if the load completes: every entry of every bay's table was read
and is allowed (R158, R159). A load that brought poison does not complete: its bytes are written as poison and it raises no
fault of its own (DESIGN CHOICE, log 156). -/
def State.commitBias (s : State) (i : Inst) : State :=
  let s1 := i.bays.foldl (fun s b => s.onBy b fun x => { x with biasLoading := s.otherLoad 0x23 b i.n fun _ => true }) s
  let lost := i.memErr.isSome || !i.faults.isEmpty
  let done := !lost && i.bays.all fun b => let t := s1.biasTable i b; !t.2 && (firstBad 0 t.1).isNone
  i.bays.foldl (fun s b =>
    let t := s1.biasTable i b
    let base := 0x5E0000 + 0x10000 * (s.by b).spare false
    if t.2 || lost then (s.putBay b base t.1 true).markPoison i.n true
    else match firstBad 0 t.1 with
      | some k =>
        (s.putBay b base (t.1.take (2 * k)) false).instFault i.n { code := Code.fBiasValue, unit := 0x10 + b, detail := k }
      | none =>
        let u := s.putBay b base t.1 false
        if !done then u else u.onBy b fun y =>
          { y with biasBank := y.spare false, biasValid := true, biasGen := (y.biasGen + 1) % 2 ^ 16 }) s1

/-- The row BIAS. -/
def biasRow : TRow :=
  { TRow.plain 0x23 State.beginBias with
    useBays := true
    checks := fun s i =>
      let d := i.biSrc
      when (i.f 0 26 6 != 0 || i.f 1 5 27 != 0 || i.wd 2 != 0 || i.f 3 8 24 != 0) Code.encoding
      ++ descCodes [d] ++ when (d.fmtCode != 8) Code.format ++ when (d.loc == 2) Code.operand
      ++ when (i.bays.any fun b => Map.get false s.prot.bayF b) Code.fenced
      ++ when (d.count != 32768) Code.shape ++ when d.badRange Code.range
    cost := fun _ _ => 2048
    addrs := fun _ i => if i.biSrc.loc = 0 then lineSort i.biSpans else []
    dep := fun _ _ => 1 }

def execBias (c : Fin 64) (w : Long) (s : State) : Out := issueTensor biasRow c.val w s

end Sys2Proof.Machine
end

