-- ==== Sys2Proof/Machine/AttB.lean ====
section
/-!
DEFINITION. ATTB (R167 to R185, R373): the five products of a key tile, the recomputed weights and score
gradients, the partial drains into tK and tV, and the drains of dQ.
-/

namespace Sys2Proof.Machine

/-! ### Fields -/

def Inst.abO (i : Inst) : Desc := i.desc (i.f 1 15 5)
def Inst.abDo (i : Inst) : Desc := i.desc (i.f 1 20 5)
def Inst.abLse (i : Inst) : Desc := i.desc (i.f 1 25 5)
def Inst.abDqn (i : Inst) : Nat := i.f 2 21 5
def Inst.abDq (i : Inst) : Desc := i.desc i.abDqn
def Inst.abTk (i : Inst) : Nat := i.f 2 26 5
def Inst.abStat (i : Inst) : Desc := i.desc (i.f 3 19 5)
def Inst.abStatEn (i : Inst) : Bool := i.b 3 24

/-- GS of R169. -/
def Apb.gs (a : Apb) : Ext := if a.prescaled then rn32 (a.c.mul (f32Decode 0x3F317218)) else f32Decode a.scale

/-- Followers on a bay. -/
def State.followers (s : State) (i : Inst) (b : Nat) : Nat := followB (i.ap.d / 32) (s.sAv i b)

/-- Where chunk `k` lies: core and slot (R175). -/
def State.chunkAtB (s : State) (i : Inst) (x : Sliver) (k : Nat) : Nat × Nat :=
  let q := chunkB (s.followers i (x.g / 64)) k
  (x.g + q.1, i.slot + q.2)

/-! ### D and LSE (R171) -/

/-- The row sum D of R171: products in groups of 32, with `u` the draw of a site and group. -/
def dSum (u : Nat → Nat → Nat) (ps : List Ext) : Entry × Option Int :=
  ((List.range (cdiv ps.length 32)).zip (chunks 32 ps.length ps)).foldl (fun (acc : Entry × Option Int) g =>
    let sp := colSum g.2
    if !sp.isFin then (acc.1.tag sp, acc.2)
    else match groupTau (g.2.map Ext.toRat) with
      | none => acc
      | some t => statAdd acc.1 acc.2 sp.toRat t (u 6 g.1) (u 14 g.1)) ({}, none)

/-- The flags that ATTB keeps for a row (R174): 1 a live position, 2 a NaN gradient, 4 a saturated weight. -/
def Inst.rowFlags (i : Inst) (g r : Nat) : RowStat := ((i.rowQ.find? fun x => x.1 == [g, r]).map Prod.snd).getD {}
def State.setRowQ (s : State) (n g r : Nat) (q : RowStat) : State :=
  s.onInst n fun y => { y with rowQ := ([g, r], q) :: y.rowQ.filter fun z => z.1 != [g, r] }

/-- Begin a sliver: D and LSE of every row, dQ chunks with nothing in them. The LSE latch holds the binary32 bits in
the field m of the row's notes. -/
def State.beginB (s : State) (i : Inst) (x : Sliver) : State :=
  let o := i.abO
  let d := i.abDo
  let l := i.abLse
  let n := i.ap.d
  let s1 := (List.range 32).foldl (fun s r => s.onStat x.g r fun _ => {}) (s.onInst i.n fun y => { y with aux := y.aux.filter (· != 2000 + x.g) })
  let s2 := x.rows.foldl (fun s r =>
    let q := x.row r
    let m := min n (min o.e0 d.e0)
    let ro := s.readRow i x.g o (i.srcAt o q) m []
    let rd := ro.s.readRow i x.g d (i.srcAt d q) m []
    let rl := rd.s.readRow i x.g l (i.srcAt l q) 1 []
    let D := dSum (fun site k => statDraw i.seed.toNat site i.issue x.g r 0 k) (List.zipWith Ext.mul rd.vals ro.vals)
    let t := ((rl.s.rowNotes i ro).rowNotes i rd).onStat x.g r fun _ => { sum := D.1, sumA := D.2 }
    let t1 := t.setRowQ i.n x.g r { m := f32Bits (rl.vals.headD .nan) }
    if ro.bad || rd.bad || rl.bad then t1.onInst i.n fun y => { y with aux := if y.aux.contains (2000 + x.g) then y.aux else y.aux ++ [2000 + x.g] } else t1) s1
  let dqs := (List.range (n / 32)).map (s2.chunkAtB i x)
  (dqs.foldl (fun s q => s.onSlot q.1 q.2 fun _ => Slot.zero) s2).noteWrote i.n ([(x.g, i.slot), (x.g, i.slot + 1)] ++ dqs)

/-! ### Weights and gradients (R172, R173) -/

/-- A position of P and g: not live, or its weight and gradient with what it notes. -/
structure GCell where
  p : Ext
  g : Ext
  nan : Bool
  range : Bool
  deriving DecidableEq, Repr

/-- One live position (R172). A weight sets ROW_RANGE where its rounding to nearest even passes 448: one in (448, 464) rounds to 448
and does not (R173; DESIGN CHOICE, log 160). -/
def gradCell (x : XCls) (l dp d : Ext) (gs : ℚ) : GCell :=
  let bad : GCell := ⟨.nan, .nan, true, false⟩
  if !l.isFin || !dp.isFin || !d.isFin then bad
  else
    let fin := fun (w : ℚ) (rg : Bool) => (⟨.fin false w, rn32Q (w * (dp.toRat - d.toRat) * gs), false, rg⟩ : GCell)
    match x with
    | .nan | .pinf | .big => bad
    | .ninf => fin 0 false
    | .fin y => let w := (expWeight (y - l.toRat) .rne).1; fin w.val.toRat (w.flag == .sat)

/-- quantise_tile (R173) over the tile's values g by row and position, g being 0 where a position is not live: the
converted block, elements row by row; all of them count (log 142). -/
def quantTile (f : Fmt) (hs : Nat) (rnd : Nat → Nat → Rnd) (rows : List Nat) (g : Nat → Nat → Ext) : Block :=
  let xs := rows.flatMap fun r => (List.range 32).map fun p => (g r p, rnd r p)
  convWithScale f (chooseScale f hs (maxMag (xs.map Prod.fst))) 1 xs

/-- The product of a chunk: streamed rows with their column sums over unmasked positions (R77). `at'` is the streamed
value at a K position of `ks`, `bank` holds the stationary columns over `ks`. -/
def chunkRows (rows ks : List Nat) (live : Nat → Nat → Bool) (at' : Nat → Nat → Ext) (bank : List BankCol) : List (List (Nat × List (Nat × Ext))) :=
  rows.map fun r => [(0, fillRow r (List.range 32) (bank.map fun c =>
    (c.col, colSum (((ks.zip c.vals).filter fun k => live r k.1).map fun k => (at' r k.1).mul k.2))))]

/-- τ of a chunk's pass: `ea` is the streamed side's exponent at each K position that some row uses. -/
def chunkTau (ga gb : Int) (ea : Option Int) (rows ks : List Nat) (live : Nat → Nat → Bool) (bank : List BankCol) : Option Int :=
  termBound ga gb [ks.map fun k => if rows.any fun r => live r k then ea else none] (bank.map BankCol.exps)

/-- ATTB's chain buffer bank (R89): rows of P, the live mask and binary32 g, then the dS tile and a line with its scale
(log 121). `cells` holds P and g where a position is live. -/
def gradBuf (cells : List (Nat × List (Option GCell))) (bits : Nat) (ds : Block) : List Byte :=
  rowsBuf 168 (cells.map fun r =>
    (r.1, (r.2.map fun c => e4m3Byte ((c.map GCell.p).getD (.fin false 0))) ++ liveMask r.2
      ++ (r.2.flatMap fun c => natLe 4 (f32Bits ((c.map GCell.g).getD (.fin false 0)))) ++ zeroBytes 4))
  ++ rowsBuf 32 ((cells.map Prod.fst).zip ((chunks 32 ds.elems.length ds.elems).map (packBits bits 32)))
  ++ natLe 1 ds.scale ++ zeroBytes 63

/-- One key tile of ATTB: the chain slots, the recomputation, and a pass into every chunk. -/
def State.attbPass (s : State) (i : Inst) (w : Work) : State :=
  match i.sliverOf w, i.keyTiles[w.ix.getD 3 0]? with
  | some x, some t =>
    let k := w.ix.getD 3 0
    let a := i.ap
    let c := s.poolOf i
    let nch := a.d / 32
    let s0 := if w.ix.getD 4 0 = 1 then s.beginB i x else s
    let js := i.keysIn x t
    let qAt := fun (r : Nat) => i.srcAt i.atQ (x.row r)
    let dAt := fun (r : Nat) => i.srcAt i.abDo (x.row r)
    let qk := i.chainSpans c x t i.atQ qAt false
    let dv := i.chainSpans c x t i.abDo dAt true
    let chunks' := (List.range (3 * nch)).map fun z => (z / nch, z % nch, s0.chunkAtB i x z)
    let colsOf := fun (k : Nat) => (List.range 32).map (32 * k + ·)
    let rowSp := fun (dd : Desc) (k : Nat) => x.rows.flatMap fun r =>
      dedupSpan (((colsOf k).filter (· < dd.e0)).flatMap fun c => dd.spans ((i.srcAt dd (x.row r)).add 0 (c : Nat)))
    let keySp := fun (k : Nat) => js.flatMap fun j => i.keySpans c x t false ((colsOf k).filter fun c => i.paged || decide (c < i.atK.e0)) j
    match s0.attForeign i ((x.g, qk.1 ++ qk.2 ++ dv.1 ++ dv.2 ++ i.segSpans x t) :: chunks'.map fun z =>
        (z.2.2.1, match z.1 with
          | 0 => keySp z.2.1
          | 1 => rowSp i.abDo z.2.1
          | _ => rowSp i.atQ z.2.1)) with
    | some z => z
    | none =>
    let n := x.rows.length
    let nS := (i.slicesOf c i.atQ false).length
    let nP := (i.slicesOf c i.abDo true).length
    let s1 := s0.intoChain i w c x t i.slot i.atQ qAt false
    let s2 := s1.intoChain { i with cut := i.cut.map (· - n * nS) } w c x t (i.slot + 1) i.abDo dAt true
    if i.cut.any (· < n * (nS + nP)) then s2 else
    let sc := s2.scores i c x t i.slot
    let sp := sc.s.slot x.g (i.slot + 1)
    let tv : ℚ := if i.paged then 1 else i.atV.ts
    let gs := a.gs.toRat
    let me := (sc.s.inst i.n).getD i
    let bad := sc.bad || sp.poisoned || me.aux.contains (2000 + x.g)
    let cells := sc.rows.map fun r =>
      let q := (sc.s.co x.g).rowStat r.1
      let D := q.sum.ext q.sumA
      let l := f32Decode (me.rowFlags x.g r.1).m.toNat
      (r.1, ((List.range 32).zip r.2).map fun p => p.2.map fun z => gradCell z l ((sp.val (32 * r.1 + p.1)).scale tv) D gs)
    let s3 := cells.foldl (fun s r =>
      let q := me.rowFlags x.g r.1
      let on := r.2.filterMap id
      let fl := b2n (bitOf q.st 0 || !on.isEmpty) + 2 * b2n (bitOf q.st 1 || on.any GCell.nan) + 4 * b2n (bitOf q.st 2 || on.any GCell.range)
      s.setRowQ i.n x.g r.1 { q with st := fl }) sc.s
    let cell := fun (r p : Nat) => ((cells.find? fun z => z.1 == r).bind fun z => z.2[p]?).getD none
    let live := fun (r p : Nat) => (cell r p).isSome
    let f := (Fmt.ofCode a.dsf).getD .e4m3
    let qt := quantTile f a.hs (fun r p => rndOf a.rnds (srDraw i.seed.toNat 16 i.issue (1024 * x.g + 32 * r + p) k)) x.rows
      fun r p => ((cell r p).map GCell.g).getD (.fin false 0)
    let ds := fun (r p : Nat) => qt.vals.getD (32 * x.rows.idxOf r + p) (.fin false 0)
    let s4 := (s3.count i.n a.strm qt.counts).putChain x.g (gradBuf cells f.bits qt)
    let e := scaleExp f qt.scale
    let pv := fun (r p : Nat) => ((cell r p).map GCell.p).getD (.fin false 0)
    (chunks'.foldl (fun s z =>
      let g := z.2.2.1
      let slot := z.2.2.2
      let cols := colsOf z.2.1
      let z0 := z.1 * nch + z.2.1
      let d : Draws := ⟨i.seed.toNat, 0, g, slot, 0,
        i.cut.map (· - (n * (nS + nP) + n * min z0 nch + 32 * (z0 - nch)))⟩
      let tgt := [Tgt.slot g slot]
      let bed := (slot - i.slot) % 2 == 1
      -- load the stationary tile, then stream `rows` over the K positions `ks`
      let go := fun (q : State × View × Bool) (bank : List BankCol) (ow : Bool) (rows ks : List Nat) (on : Nat → Nat → Bool) (ga gb : Int)
          (ea : Option Int) (at' : Nat → Nat → Ext) =>
        let u := q.1.loadBank g bed bank
        let b := u.bank g bed
        u.putSlot g slot ((u.slot g slot).pass d ow false i.dom (fun _ => chunkTau ga gb ea rows ks on b) (chunkRows rows ks on at' b) (bad || q.2.2))
      let rowBank := fun (q : State × View × Bool) (dd : Desc) => bankOf
        (x.rows.map fun r => dd.kvec q.2.1 (i.srcAt dd (x.row r)) 0 (cols.map fun k => ((k : Nat) : Int)) []) fun c => decide (32 * z.2.1 + c < dd.e0)
      let tl := fun (p r : Nat) => live r p
      match z.1 with
      | 0 =>
        let q := s.fetchTile i g w [slot] (keySp z.2.1)
        go q (bankOf (js.map (i.keyVec c x t false q.2.1 cols)) fun c => i.paged || decide (32 * z.2.1 + c < i.atK.e0)) false x.rows js live
          f.leadG (i.keyFmt c false).leadG e ds
      | 1 =>
        let q := s.fetch i.n g true tgt (rowSp i.abDo z.2.1)
        go q (rowBank q i.abDo) true js x.rows tl Fmt.e4m3.leadG i.abDo.fmt.leadG (some 0) fun p r => pv r p
      | _ =>
        let q := s.fetch i.n g true tgt (rowSp i.atQ z.2.1)
        go q (rowBank q i.atQ) true js x.rows tl f.leadG i.atQ.fmt.leadG e fun p r => ds r p) s4).noteWrote
      i.n (chunks'.map fun z => z.2.2)
  | _, _ => s

/-! ### Drains (R180 to R182) -/

/-- Add a chunk's tile atomically into the tile of target `d` at `org` (R180, R126): the fixed anchor and the tensor
scale of R556. RNDO rules its rounding, as R185 has it (DEDUCED, log 124). -/
def State.addChunk (s : State) (i : Inst) (g slot : Nat) (d : Desc) (dn : Nat) (org : Coord) (at' : Int) (ts : ℚ) : State :=
  if !d.has org then s
  else
    let x := s.slot g slot
    let t := x.chunkTile at' ts i.n fun e => if i.ap.rndo = 1 then
        some (i.draw dn (d.linear ⟨org.c0 + (e % 32 : Nat), org.c1 + (e / 32 : Nat), org.c2, org.c3⟩) 0) else none
    let s1 := s.count i.n i.ap.strm { sat := t.2 }
    let addr := d.unitAddr (d.unit org.c0.toNat org.c1.toNat org.c2.toNat org.c3.toNat)
    if d.loc = 0 then s1.addTile i.n (.tensor i.n) i.dom (i.cls == 1) addr t.1.bytes x.poisoned
    else
      let z := s1.addTileBay (g / 64) addr t.1.bytes x.poisoned
      match z.2 with
      | none => z.1
      | some code => z.1.wideFault i.n code addr

/-- The drain of a dV or dK chunk after a key tile: `ix` holds the chunk's number in place of the page group. -/
def State.attbPart (s : State) (i : Inst) (w : Work) : State :=
  match i.sliverOf w with
  | none => s
  | some x =>
    let a := i.ap
    let nch := a.d / 32
    let z := w.ix.getD 2 0
    let k := w.ix.getD 3 0
    let q := s.chunkAtB i x z
    let isV := z / nch = 1
    let dn := if isV then i.abTk + 1 else i.abTk
    let org := ((i.orgOf x (if isV then .x else .b)).add 0 (32 * (z % nch) : Nat)).add 1 (32 * k : Nat)
    let s1 := s.addChunk i q.1 q.2 (i.desc dn) dn org (sextNat 10 (if isV then a.atv else a.atk)) (if isV then 1 else i.atQ.ts)
    let bad := (s.slot q.1 q.2).poisoned
    (s1.onInst i.n fun y => { y with wrote := y.wrote.filter fun p => p != q }).attPoison i q.1 bad

/-- The drain of a dQ chunk after the last tile (R182), and with the first one the status bytes (R174). -/
def State.attbDrain (s : State) (i : Inst) (w : Work) : State :=
  match i.sliverOf w with
  | none => s
  | some x =>
    let a := i.ap
    let k := w.ix.getD 3 0
    let s0 := if w.ix.getD 4 0 = 1 then s.beginB i x else s
    let q := s0.chunkAtB i x k
    let me := (s0.inst i.n).getD i
    let dqs := (List.range (a.d / 32)).map (s0.chunkAtB i x)
    let d := i.abDq
    let ts : ℚ := if i.paged then 1 else i.atK.ts
    let bad := (s0.slot q.1 q.2).poisoned
    let s1 := if a.dqmode then
        let org := (i.dstAt d (x.row (x.rows.headD 0))).add 0 (32 * k : Nat)
        s0.addChunk i q.1 q.2 d i.abDqn org (sextNat 10 a.atq) ts
      else
        let y := s0.slot q.1 q.2
        x.rows.foldl (fun s r =>
          let c := (i.dstAt d (x.row r)).add 0 (32 * k : Nat)
          let cs := (List.range 32).filter fun j => d.has (c.add 0 (j : Nat))
          if cs.isEmpty then s
          else
            let bs := convRow d.fmt 0 d.ts (cs.map fun j => ((y.val (32 * r + j)).scale ts, rndOf a.rndo (i.draw i.abDqn (d.linear (c.add 0 (j : Nat))) 0)))
            (s.storeRow i.n q.1 d c bs bad).count i.n a.strm (if d.fmt.counted then sumCounts bs else Counts.zero)) s0
    let pall := me.aux.contains (2000 + x.g) || dqs.any fun z => (s0.slot z.1 z.2).poisoned
    let s2 := if k != 0 || !i.abStatEn then s1 else x.rows.foldl (fun s r =>
      let fl := (me.rowFlags x.g r).st
      let inex := dqs.any fun z => (s0.slot z.1 z.2).ent.any fun p => p.1 / 32 == r && p.2.inex
      s.writeStatus i x.g i.abStat (i.dstAt i.abStat (x.row r))
        (b2n (!bitOf fl 0) + 2 * b2n (bitOf fl 1) + 8 * b2n (bitOf fl 2) + 32 * b2n inex) pall) s1
    (s2.onInst i.n fun y => { y with wrote := y.wrote.filter fun p => p != q }).attPoison i q.1 bad

/-! ### The row -/

/-- A format that R185 refuses with REFUSE.FLOOR, and with REFUSE.FORMAT. -/
def gradFloor (c : Nat) : Bool := decide (c < 8) && (Fmt.ofCode c).any Fmt.belowFloor
def gradFmt (c : Nat) : Bool := !(c == 0 || c == 1 || c == 5) && !gradFloor c

/-- Refusals of an ATTB that need no parameter block. -/
def Inst.attbWords (i : Inst) : List Nat :=
  let tk := i.desc i.abTk
  let tv := i.desc (i.abTk + 1)
  when (i.f 0 27 5 != 0 || i.b 2 31 || i.abTk == 31 || i.f 3 25 7 != 0 || (!i.abStatEn && i.f 3 19 5 != 0) || i.ow
    || [tk, tv].any (fun d => d.loc == 2)) Code.encoding
  ++ descCodes ([i.abO, i.abDo, i.abLse, i.abDq, tk, tv] ++ (if i.abStatEn then [i.abStat] else []))
  ++ when (gradFloor i.abDo.fmtCode) Code.floor
  ++ when (decide (10 < i.abO.fmtCode) || gradFmt i.abDo.fmtCode || i.abLse.fmtCode != 10 || tk.fmtCode != 12 || tv.fmtCode != 12) Code.format
  ++ floorCodes ([i.abO, i.abLse, tk, tv] ++ (if i.abStatEn then [i.abStat] else []))

def State.attbChecks (s : State) (i : Inst) : List Nat :=
  let a := i.ap
  let tk := i.desc i.abTk
  let tv := i.desc (i.abTk + 1)
  let dq := i.abDq
  s.attCodes i 12928 ++ i.attbWords
  ++ when (a.rndp != 0 || a.rnds == 3 || ([i.abO, i.abDo, i.abLse].any (i.lacksDim .a false)) || (!i.paged && (i.lacksDim .b false tk || i.lacksDim .x false tv))
    || i.lacksDim .c false dq || (i.abStatEn && i.lacksDim .c false i.abStat)) Code.encoding
  ++ when (a.rnds == 2) Code.mode
  ++ when (gradFloor a.dsf || (!a.dqmode && gradFloor dq.fmtCode)) Code.floor
  ++ when (gradFmt a.dsf || (if a.dqmode then dq.fmtCode != 12 else decide (10 < dq.fmtCode))) Code.format
  ++ s.rangeCodes i [i.abO, i.abDo, i.abLse] ([dq] ++ (if i.abStatEn then [i.abStat] else []))
  ++ when (s.biasHit i tk || s.biasHit i tv) Code.range
  ++ when (a.dqmode && dq.loc == 2) Code.encoding
  ++ when (i.bays.any fun b => decide (7 < s.followers i b)) Code.slot

/-- The chunks on one array of a follower: rows and load of each, in slot order (R177). -/
def arrayB (R nch F fo : Nat) (bed : Bool) : List (Nat × Nat) :=
  (List.range (3 * nch)).filterMap fun z =>
    if z % F = fo && (z / F % 2 == 1) == bed then some (if z < nch then (R, 32) else (32, R)) else none

/-- Rows and unhidden loads of an array in steady state (R76, R179). -/
def arrayLoad (ps : List (Nat × Nat)) : Nat :=
  match ps.getLast? with
  | none => 0
  | some l => (ps.foldl (fun (acc : Nat × Nat) q => (acc.1 + q.1 + (q.2 - acc.2), q.1)) (0, l.1)).1

/-- T_B of R179. -/
def tB (R d n sav : Nat) : Nat :=
  let nch := d / 32
  let F := max 1 (followB nch sav)
  let amax := maxOr 0 ((List.range F).flatMap fun fo => [arrayLoad (arrayB R nch F fo false), arrayLoad (arrayB R nch F fo true)])
  let wmax := maxOr 0 ((List.range F).map fun fo => ((List.range (3 * nch)).filter fun z => z % F == fo && decide (nch ≤ z)).length)
  max (R * max (max (cdiv d (32 * n)) (d / 32)) 2) (max amax (40 * wmax))

def State.attbCost (s : State) (i : Inst) : Nat :=
  let d := i.ap.d
  let l := s.liveTiles i
  let n := Machine.cellN i.atQ.fmt (i.keyFmt (s.poolOf i) false)
  maxOr 0 (i.cores.map fun g =>
    let F := max 1 (s.followers i (g / 64))
    let cf := cdiv (d / 32) F
    let mine := l.filter fun q => q.1.g == g
    if mine.isEmpty then 0 else 32 + (mine.map fun q => tB q.1.rows.length d n (s.sAv i (g / 64)) * q.2.length).sum + 160 + 40 * cf)

/-- ATTB's accesses in R359's order: for each sliver its forward rows, for each live tile the passes into the chain slots
and the chunks with the drains of dV and dK, then the drains of dQ and the status bytes. -/
def State.attbAddrs (s : State) (i : Inst) : List Nat :=
  let c := s.poolOf i
  let nch := i.ap.d / 32
  let cols := fun (k : Nat) => (List.range 32).map (32 * k + ·)
  let whole := fun (d : Desc) (x : Coord) => if d.has x then
      lineSort [⟨d.loc, d.unitAddr (d.unit x.c0.toNat x.c1.toNat x.c2.toNat x.c3.toNat), 16448⟩] else []
  s.attAddrs i (fun x => x.rows.flatMap fun r =>
      let q := x.row r
      lineSort (i.abO.rowSpans (i.srcAt i.abO q) i.ap.d) ++ lineSort (i.abDo.rowSpans (i.srcAt i.abDo q) i.ap.d)
      ++ lineSort (i.abLse.spans (i.srcAt i.abLse q)))
    (fun x t =>
      let rowsAt := fun (d : Desc) (k : Nat) => lineSort (x.rows.flatMap fun r => d.rowSpans ((i.srcAt d (x.row r)).add 0 (32 * k : Nat)) 32)
      i.chainAddrs c x t i.abDo (fun r => i.srcAt i.abDo (x.row r)) true
      ++ (List.range nch).flatMap (fun k => lineSort ((i.keysIn x t).flatMap (i.keySpans c x t false (cols k))))
      ++ (List.range nch).flatMap (rowsAt i.abDo) ++ (List.range nch).flatMap (rowsAt i.atQ)
      ++ (List.range (2 * nch)).flatMap fun z =>
        let isV := decide (z < nch)
        whole (i.desc (if isV then i.abTk + 1 else i.abTk))
          (((i.orgOf x (if isV then .x else .b)).add 0 (32 * (z % nch) : Nat)).add 1 (t.lo / 32 * 32 : Nat)))
    fun x => ((List.range nch).flatMap fun k =>
      if i.ap.dqmode then whole i.abDq ((i.dstAt i.abDq (x.row (x.rows.headD 0))).add 0 (32 * k : Nat))
      else lineSort (x.rows.flatMap fun r => i.abDq.rowSpans ((i.dstAt i.abDq (x.row r)).add 0 (32 * k : Nat)) 32))
      ++ (if i.abStatEn then lineSort (x.rows.map fun r => i.abStat.byteAt (i.dstAt i.abStat (x.row r))) else [])

/-- Form the work of an ATTB whose keys are known. -/
def State.attbWork (s : State) (i : Inst) : State :=
  let nch := i.ap.d / 32
  let pl := fun (x : Sliver) (z : Nat) => chunkB (max 1 (s.followers i (x.g / 64))) z
  let nS := (i.slicesOf (s.poolOf i) i.atQ false).length
  let nP := (i.slicesOf (s.poolOf i) i.abDo true).length
  let parts := fun (x : Sliver) => List.replicate nS (⟨x.g, false, x.rows.length⟩ : Part) ++ List.replicate nP ⟨x.g, true, x.rows.length⟩
    ++ (List.range (3 * nch)).map fun z =>
      let q := s.chunkAtB i x z
      ⟨q.1, (q.2 - i.slot) % 2 == 1, if z < nch then x.rows.length else 32⟩
  let ws := s.attWork i 22 parts (fun x => (List.range nch).map (pl x))
    fun x => (List.range (2 * nch)).map fun z => ((pl x (nch + z)).1, (pl x (nch + z)).2, nch + z)
  s.onInst i.n fun y => { y with work := ws }

/-- A paged ATTB in its turn: its key list, then its work. -/
def State.attbOpen (s : State) (i : Inst) : State :=
  let k := s.openKeys i
  if !k.2 then k.1
  else match k.1.inst i.n with
    | none => k.1
    | some j => k.1.attbWork j

end Sys2Proof.Machine
end

