-- ==== Sys2Proof/Machine/Bolter.lean ====
section
/-!
DEFINITION. The Bolter (R267 to R275, R284, R388, R389): scoring pages from their summaries, choosing pages,
and the predicted lists of BPRF. Both instructions do their work in their turn in the PWU's queue (log 42).
-/

namespace Sys2Proof.Machine

/-! ### Fields (R388, R389) -/

def Inst.blG (i : Inst) : Nat := i.f 2 11 5
def Inst.blT (i : Inst) : Nat := i.f 2 16 6
def Inst.blKh (i : Inst) : Nat := i.f 2 22 4
def Inst.blHk (i : Inst) : Nat := i.f 2 26 5
def Inst.blN (i : Inst) : Nat := i.f 3 8 11
def Inst.blQ (i : Inst) : Desc := i.desc (i.f 1 0 5)

/-- Bytes between two lists (R272). -/
def lstride (n : Nat) : Nat := cdiv (64 + 16 * n) 64 * 64

/-- Pages that hold committed tokens (R270). -/
def State.pagesIn (s : State) (r : SeqRec) : Nat := cdiv r.clen (s.pool r.pool).cfg.T

/-! ### Scoring (R267 to R269) -/

/-- The group's query box in integer codes, and e_q; `none` where an element is not finite. -/
def queryBox (d : Nat) (rows : List (List Ext)) : Option (Int × List (Int × Int)) :=
  if rows.any fun r => r.any fun x => !x.isFin then none
  else
    let col := fun (k : Nat) => rows.map fun r => (r.getD k (.fin false 0)).toRat
    let box := (List.range d).map fun k => match col k with
      | [] => ((0 : ℚ), (0 : ℚ))
      | x :: xs => (xs.foldl min x, xs.foldl max x)
    let big := box.foldl (fun a b => max a (max |b.1| |b.2|)) 0
    let e : Int := if big = 0 then 0 else floorLog2 big
    some (e, box.map fun b => ((b.1 * pow2 (6 - e)).floor, (b.2 * pow2 (6 - e)).ceil))

/-- The score of a page's head; `none` is +∞. -/
def pageScore (q : Option (Int × List (Int × Int))) (merged : Bool) (b : Nat) (bounds : List (Int × Int)) : Option ℚ :=
  match q with
  | none => none
  | some (e, codes) =>
    if !merged || b = 255 then none
    else
      let sum := (List.zipWith (fun (a k : Int × Int) => max (max (a.1 * k.1) (a.1 * k.2)) (max (a.2 * k.1) (a.2 * k.2))) codes bounds).sum
      some ((sum : ℚ) * pow2 (e - 6 + b - 127))

/-- The first of two scored pages ranks before the second, or is the same page (R269). -/
def ranksBefore (a b : Nat × Option ℚ) : Bool := match a.2, b.2 with
  | none, none => decide (a.1 ≤ b.1)
  | none, some _ => true
  | some _, none => false
  | some x, some y => decide (y < x) || (decide (x = y) && decide (a.1 ≤ b.1))

/-! ### BOLT -/

def State.boltChecks (s : State) (i : Inst) : List Nat :=
  let bolt := i.opc == 0x50
  let x := s.cx i.ctx
  let c := s.poolOf i
  let r := s.recOf i
  let seen := s.pwu.cfg.enable && s.recAllowed (i.handle i.hnd).1
  when (i.f 0 26 6 != 0 || i.f 1 10 22 != 0 || i.b 2 31 || i.f 3 19 13 != 0 || (!bolt && (i.f 2 11 11 != 0 || i.blN != 0))) Code.encoding
  ++ (if bolt then descCodes [i.blQ] ++ when (!sixFmt i.blQ) Code.format ++ floorCodes [i.blQ] else [])
  ++ when (i.sv (i.f 1 5 5) % 64 != 0 || (!bolt && i.sv (i.f 1 0 5) % 64 != 0) || decide (16 < x.sink) || decide (64 < x.win)) Code.operand
  ++ s.seqCodes i i.hnd ++ s.layerCodes i i.hnd i.layer ++ when (!s.pwu.boltEnable || (bolt && seen && r.valid && s.farClosed r i.layer (List.range (s.pagesIn r)))) Code.state
  ++ when (decide (1024 < i.blN) || decide (16 < i.blG) || decide (32 < i.blT) || decide (32 < i.blG * i.blT) || decide (16 < i.blHk)
    || (seen && (decide (c.H < i.blKh + i.blHk) || (bolt && i.blQ.e0 != c.d)))) Code.shape
  ++ when (bolt && i.blQ.beyondOb [i.blQ.e0 - 1, i.blHk * i.blG * i.blT - 1]) Code.range

/-- A holder of the Bolter is free for the class (R274). -/
def State.boltFull (s : State) (i : Inst) : Bool :=
  let held := s.instList.filter fun j => j.opc == 0x50
  let anyA := s.presentBays.any fun b => s.aOn b
  decide (8 ≤ held.length) || (i.cls != 1 && anyA && decide (6 ≤ (held.filter fun j => j.cls != 1).length))

/-- Where a query in bay memory or an operand buffer is read: the first core of the lowest bay of the bay set (log 42). -/
def Inst.blCore (i : Inst) : Nat := 64 * i.bays.headD 0

/-- One group of BOLT: read its query and the candidates' summaries, choose and write its list. -/
def State.boltGroup (s : State) (i : Inst) (r : SeqRec) (ws : List (Nat × Pte)) (g : Nat) : State :=
  let c := (s.pool r.pool).cfg
  let h := i.blKh + g
  let n := s.pagesIn r
  let rows := (List.range (i.blG * i.blT)).filter fun k => decide (g * (i.blG * i.blT) + k < i.blQ.e1)
  let q := rows.foldl (fun (acc : State × List (List Ext) × Bool) k =>
    let z := acc.1.readRow i i.blCore i.blQ ⟨0, (g * (i.blG * i.blT) + k : Nat), 0, 0⟩ c.d []
    (z.s.rowNotes i z, acc.2.1 ++ [z.vals], acc.2.2 || z.bad)) (s, [], false)
  let box := queryBox c.d q.2.1
  let isWin := fun (p : Nat) => decide (n - i.win ≤ p)
  let isSink := fun (p : Nat) => decide (p < i.sink) && !isWin p
  let cand := ws.filter fun p => !isWin p.1 && !isSink p.1
  let sc := cand.foldl (fun (acc : State × List (Nat × Option ℚ) × Bool) p =>
    let a := Pte.addr p.2
    let b := acc.1.readExt i.n true [] (a + 16 + h) 1
    let k := b.1.readExt i.n true [] (a + 32 + h * c.d) c.d
    let bd := k.2.1.map fun y => (sextNat 4 (y.toNat % 16), sextNat 4 (y.toNat / 16))
    (k.1, acc.2.1 ++ [(p.1, pageScore box (Pte.m p.2) (leNat b.2.1) bd)], acc.2.2 || b.2.2 || k.2.2)) (q.1, [], q.2.2)
  let best := (sc.2.1.mergeSort ranksBefore).take i.blN
  let ents := ws.filterMap fun p =>
    let far := Pte.t p.2
    if isWin p.1 then some (⟨p.1, 2, far, false, p.2⟩ : SelEntry)
    else if isSink p.1 then some ⟨p.1, 1, far, false, p.2⟩
    else (best.find? fun b => b.1 == p.1).map fun b => ⟨p.1, 0, far, b.2.isNone, p.2⟩
  let l : SelList :=
    { seq := r.no, gen := r.gen, layer := i.layer, group := h,
      flags := b2n box.isNone + 2 * b2n (decide (cand.length < i.blN)), clen := r.clen,
      epoch := (((sc.1.inst i.n).bind Inst.session).getD 0), ents := ents }
  let s1 := if box.isNone then sc.1.raise 0x0306 0x03 [i.ctx, r.no] else sc.1
  let s2 := s1.onPwu fun p => { p with scored := holdAdd p.scored cand.length, lists := holdAdd p.lists 1 }
  (s2.markPoison i.n sc.2.2).writeExt i.n (i.sa (i.f 1 5 5) + g * lstride (i.sink + i.win + i.blN)) l.bytes sc.2.2

/-- The effect of BOLT (R271, R272; CLEN, S and W as at issue): every page below P_c is translated in a read session; a page that is not there faults. -/
def State.bolt (s : State) (i : Inst) : State :=
  s.withSeq i fun s r0 =>
    let r := { r0 with clen := i.clen }
    let w := s.translate i [] r i.layer (List.range (s.pagesIn r))
    let bad := w.2.find? fun p => match p.2 with
      | .pte _ => false
      | _ => true
    match bad with
    | some p => w.1.walkFault i r p.1 p.2
    | none =>
      let ws := w.2.filterMap fun p => match p.2 with
        | .pte x => some (p.1, x)
        | _ => none
      (List.range i.blHk).foldl (fun s g => s.boltGroup i r ws g) w.1

/-- The candidates of each group, and the entries of each list, as the record is now. -/
def State.boltCounts (s : State) (i : Inst) : Nat × Nat :=
  let n := s.pagesIn (s.recOf i)
  let x := s.cx i.ctx
  let fixed := min n x.win + min x.sink (n - x.win)
  (n - fixed, fixed + min i.blN (n - fixed))

/-! ### BPRF (R284) -/

/-- The runs of a page's frame that hold a head's keys and values. -/
def PoolCfg.headRuns (c : PoolCfg) (a h : Nat) : List (Nat × Nat) :=
  [(c.ke, c.eb), (c.ks, c.sb), (c.ve, c.eb), (c.vs, c.sb)].map fun p => (a + c.at' p.1 p.2 h 0, c.T * p.2)

/-- One predicted list. The stride is that of lists as long as the first previous one (log 43). -/
def State.bprfGroup (s : State) (i : Inst) (r : SeqRec) (stride g : Nat) : State :=
  let c := (s.pool r.pool).cfg
  let h := i.blKh + g
  let n := s.pagesIn r
  let l := s.readSel i (i.sa (i.f 1 0 5) + g * stride)
  let old := l.2.1
  let isWin := fun (p : Nat) => decide (n - i.win ≤ p)
  let fits := l.2.2 && old.seq == r.no && old.gen == r.gen && old.layer == i.layer && old.group == h
  let sinks := (List.range (min i.sink n)).filter fun p => !isWin p
  let scored := (old.ents.filter fun e => e.kind == 0 && decide (e.page < n) && !isWin e.page && !sinks.contains e.page).map SelEntry.page
  let ps := if fits then (dedupNat (sinks ++ scored)).mergeSort (· ≤ ·) else []
  let w := l.1.translate i [] r i.layer ps
  let z := w.2.foldl (fun (acc : State × List SelEntry) p =>
    let kind := if sinks.contains p.1 then 1 else 0
    match p.2 with
    | .pte e =>
      if Pte.t e then (acc.1, acc.2 ++ [⟨p.1, kind, true, false, e⟩])
      else
        let runs := c.headRuns (Pte.addr e) h
        if runs.all fun q => acc.1.canRead i q.1 q.2 then
          (runs.foldl (fun s q => (s.readExt i.n true [] q.1 q.2).1) acc.1, acc.2 ++ [⟨p.1, kind, false, false, e⟩])
        else (acc.1, acc.2 ++ [⟨p.1, kind, false, false, 0⟩])
    | _ => (acc.1, acc.2 ++ [⟨p.1, kind, false, false, 0⟩])) (w.1, [])
  let new : SelList :=
    { seq := r.no, gen := r.gen, layer := i.layer, group := h, flags := 4, clen := r.clen,
      epoch := (((z.1.inst i.n).bind Inst.session).getD 0), ents := z.2 }
  z.1.writeExt i.n (i.sa (i.f 1 5 5) + g * stride) new.bytes false

def State.bprf (s : State) (i : Inst) : State :=
  s.withSeq i fun s r0 =>
    let r := { r0 with clen := i.clen }
    let stride := lstride (s.selAt (i.sa (i.f 1 0 5))).ents.length
    (List.range i.blHk).foldl (fun s g => s.bprfGroup i r stride g) s

end Sys2Proof.Machine
end

