-- ==== Sys2Proof/Machine/Move.lean ====
section
/-!
DEFINITION. The movement instructions (R94, R184, R313 to R317, R390 to R392): MOV, LDOP and HALO.
-/

namespace Sys2Proof.Machine

/-! ### Rows as bits -/

/-- A row as it lies in memory: raw elements, a scale byte for each block, and for a WIDE tensor the header of each
tile it passes. -/
structure RawRow where
  elems : List Nat
  scales : List Nat
  hdrs : List (List Byte)
  bad : Bool
  deriving DecidableEq, Repr

/-- The header of a transposed tile (log 45). -/
def turnHeader (h : List Byte) : List Byte :=
  h.take 2 ++ (h.drop 3).take 1 ++ (h.drop 2).take 1 ++ (h.drop 4).take 14 ++ (h.drop 20).take 2 ++ (h.drop 18).take 2 ++ h.drop 22

/-- Element `k` of a row at `x`: along dimension 1 under transposition (R292, R317). -/
def turned (tra : Bool) (x : Coord) (k : Nat) : Coord := x.add (b2n tra) (k : Nat)

/-- Read `n` elements of a row as bits on core `g`; none where the read faults before it is made (R314). A bad WIDE
header faults and makes the row poisoned (R48); T2's reserved code reads as 0 and raises its event (R39). -/
def State.readRaw (s : State) (i : Inst) (g : Nat) (d : Desc) (x : Coord) (tra : Bool) (n : Nat) (tgt : List Tgt) : State × Option RawRow :=
  let xs := (List.range n).map (turned tra x)
  let sp := dedupSpan (xs.flatMap d.spans)
  match s.foreignBlock g i.dom sp with
  | some b => (s.obFault i.n g b, none)
  | none =>
    let f := s.fetch i.n g (d.fmtCode != 12) tgt sp
    let v := f.2.1
    let u := fun (y : Coord) => d.unit y.c0.toNat y.c1.toNat y.c2.toNat y.c3.toNat
    let w := xs.any (d.wideBad v)
    let t2 := xs.any (d.t2bad v)
    let t := f.1.rowNotes i ⟨f.1, [], f.2.2, t2, w, false⟩
    if d.fmtCode = 12 then
      (t, some ⟨xs.map fun y => v.nat d.loc (d.wideEntry (u y) (y.c1.toNat % 32) (y.c0.toNat % 32)) 16, [],
        (List.range (cdiv n 32)).map fun k =>
          let h := (List.range 64).map fun j => v.at d.loc (d.base + 16448 * u (turned tra x (32 * k)) + j)
          if tra then turnHeader h else h, f.2.2 || w⟩)
    else
      (t, some ⟨xs.map fun y => if d.t2bad v y then 0 else d.raw v y, if d.fmt.isBlock then (List.range (cdiv n d.fmt.block)).map fun k => d.scaleByte v (x.add 0 (d.fmt.block * k : Nat)) else [],
        [], f.2.2⟩)

/-- Write a row as bits on core `g`. -/
def State.writeRaw (s : State) (i : Inst) (g : Nat) (d : Desc) (x : Coord) (r : RawRow) : State :=
  if d.fmtCode = 12 then
    let u := fun (y : Coord) => d.unit y.c0.toNat y.c1.toNat y.c2.toNat y.c3.toNat
    let s1 := ((List.range r.hdrs.length).zip r.hdrs).foldl (fun s h =>
      s.store i.n g d.loc (d.base + 16448 * u (x.add 0 (32 * h.1 : Nat))) h.2 r.bad) s
    ((List.range r.elems.length).zip r.elems).foldl (fun s e =>
      let y := x.add 0 (e.1 : Nat)
      s.store i.n g d.loc (d.wideEntry (u y) (y.c1.toNat % 32) (y.c0.toNat % 32)) (natLe 16 e.2) r.bad) s1
  else
    let n := if d.fmt.isBlock then d.fmt.block else r.elems.length
    let es := chunks n (cdiv r.elems.length (max 1 n)) r.elems
    s.storeRow i.n g d x (((List.range es.length).zip es).map fun e => ⟨r.scales.getD e.1 0, e.2, [], Counts.zero⟩) r.bad

/-- Bytes of `n` elements of a format, with their scales. -/
def rowBytes (d : Desc) (n : Nat) : Nat := if d.fmtCode = 12 then 16 * n else stageBytes d.fmt n

/-! ### MOV (R390) -/

def Inst.mvPaged (i : Inst) : Bool := i.b 0 26
def Inst.mvTra (i : Inst) : Bool := i.b 0 27
def Inst.mvGath (i : Inst) : Bool := i.b 0 28
def Inst.mvSrc (i : Inst) : Desc := i.desc (i.f 1 0 5)
def Inst.mvDstN (i : Inst) : Nat := i.f 1 5 5
def Inst.mvDst (i : Inst) : Desc := i.desc i.mvDstN
def Inst.mvIdx (i : Inst) : Desc := i.desc (i.f 1 10 5)

/-- The row's coordinate in MOV's source: rows run along dimension 0 under transposition. -/
def Inst.mvSrcAt (i : Inst) (x : RowRef) : Coord :=
  i.rloop.rowAt .a x.p x.v (1 - b2n i.mvTra) (i.mvSrc.loc == 2) x.r

/-- The rows of MOV and LDOP: inside the destination, and inside the source where the source's row is known. -/
def Inst.mvRows (i : Inst) : List RowRef :=
  i.rowRefs.filter fun x =>
    let c := i.mvSrcAt x
    i.mvDst.hasBut 0 (i.dstAt i.mvDst x)
      && (if i.mvGath then i.mvIdx.has ⟨(i.gmOf x : Nat), 0, 0, 0⟩ else i.mvSrc.hasBut (b2n i.mvTra) c)

/-- Elements of a row: dimension 0 of the destination, which is the source's after transposition. -/
def Inst.mvLen (i : Inst) : Nat := min i.mvDst.e0 (if i.mvTra then i.mvSrc.e1 else i.mvSrc.e0)

/-- One row: the bits, or a conversion where the formats differ. -/
def State.mvPut (s : State) (i : Inst) (x : RowRef) (src : Option Coord) : State :=
  let a := i.mvSrc
  let c := i.mvDst
  let at' := i.dstAt c x
  let n := i.mvLen
  let tgt := c.targets x.g at' n
  if a.fmtCode = c.fmtCode then
    match src with
    | none => s.writeRaw i x.g c at' ⟨List.replicate n 0, [], [], false⟩
    | some q =>
      match s.readRaw i x.g a q i.mvTra n tgt with
      | (t, none) => t
      | (t, some r) => (t.writeRaw i x.g c at' r).poisonFault i.n x.g r.bad
  else
    let xs := match src with
      | none => []
      | some q => (List.range n).map (turned i.mvTra q)
    let f := s.fetch i.n x.g (a.fmtCode != 12) tgt (dedupSpan (xs.flatMap a.spans))
    let vals := if src.isNone then List.replicate n (Ext.fin false 0) else xs.map (a.anyVal f.2.1)
    let w := xs.any (a.wideBad f.2.1)
    let bad := f.2.2 || w
    let s1 := f.1.rowNotes i ⟨f.1, vals, bad, false, w, false⟩
    let bs := convRow c.fmt 0 c.ts (((List.range n).zip vals).map fun p => (p.2, i.rndAt i.mvDstN (c.linear (at'.add 0 (p.1 : Nat))) 0))
    (s1.writeRow i x.g c at' bs bad).poisonFault i.n x.g bad

/-- One row of MOV, through the gather list where it has one (R316); a bad index stops the instruction. -/
def State.mvRow (s : State) (i : Inst) (x : RowRef) : State :=
  let src := i.mvSrcAt x
  if !i.mvGath then s.mvPut i x (some src)
  else
    let k : Coord := ⟨(i.gmOf x : Nat), 0, 0, 0⟩
    let f := s.fetch i.n x.g true [] (i.mvIdx.spans k)
    match gatOf (i.mvIdx.raw f.2.1 k) i.mvSrc.e1 with
    | .row r => f.1.mvPut i x (some { src with c1 := (r : Nat) })
    | .zeros => f.1.mvPut i x none
    | .bad b => f.1.instFault i.n { code := Code.fGather, unit := 0x10 + x.g / 64, detail := b }

/-- The instruction has met a gather entry that ends it (R316); any other fault of a row leaves the other rows to run. -/
def State.badGather (s : State) (n : Nat) : Bool := (s.inst n).any fun j => j.faults.contains Code.fGather

/-- A paged MOV in its turn: its pages are translated, then their frames copied, near or far (R249, R255, R390). -/
def State.mvPages (s : State) (i : Inst) : State :=
  s.withSeq i fun s r =>
    let w := s.translate i i.bays r i.layer ((List.range i.np).map (i.pg + ·))
    match w.2.find? fun p => match p.2 with
      | .pte _ => false
      | _ => true with
    | some p => w.1.walkFault i r p.1 p.2
    | none => w.1.copyPages i (w.2.filterMap fun p => match p.2 with
        | .pte x => some x
        | _ => none)

/-- The pairs of formats that MOV takes. -/
def movePair (a c : Nat) : Bool := a == c || (a == 12 && decide (c ≤ 10)) || (8 ≤ a && a ≤ 10 && 8 ≤ c && c ≤ 10)

def State.movChecks (s : State) (i : Inst) : List Nat :=
  let a := i.mvSrc
  let c := i.mvDst
  when (i.f 0 29 3 != 0 || i.f 1 15 17 != 0 || i.f 3 14 18 != 0 || i.rnd == 3) Code.encoding ++ when (i.rnd == 2) Code.mode
  ++ (if i.mvPaged then
      let bytes := i.np * 4096 * (s.pool (s.recOf i).pool).fstride
      when (i.f 1 0 5 != 0 || i.f 1 10 5 != 0 || i.mvTra || i.mvGath || i.f 2 21 11 != 0 || c.badEnc) Code.encoding ++ i.entryCodes
      ++ when (s.pwu.cfg.enable && s.recAllowed (i.handle i.hnd).1 && (s.recOf i).valid && s.farClosed (s.recOf i) i.layer ((List.range i.np).map (i.pg + ·))) Code.state
      ++ when (c.loc == 2) Code.operand ++ s.seqCodes i i.hnd ++ s.layerCodes i i.hnd i.layer ++ i.pageCodes
      ++ when (c.loc == 1 && (decide (0x600000 < c.base + bytes)
          || (decide (0x5E0000 < c.base + bytes) && i.bays.any fun b => (s.by b).biasReserved))) Code.range
    else
      when (i.wd 2 != 0 || (i.mvGath && i.mvTra) || (!i.mvGath && i.f 1 10 5 != 0)) Code.encoding
      ++ descCodes [a, c] ++ (if i.mvGath then idxCodes i.mvIdx else [])
      ++ when (!movePair a.fmtCode c.fmtCode || (i.mvTra && decide (a.fmtCode ≤ 7))) Code.format ++ floorCodes [a, c]
      ++ when (a.loc == 2 || c.loc == 2) Code.operand ++ s.rowCodes i false i.mvTra
      ++ when (if i.mvTra then a.e0 != c.e1 || a.e1 != c.e0 || a.e2 != c.e2 || a.e3 != c.e3
          else a.e0 != c.e0 || (!i.mvGath && a.e1 != c.e1) || a.e2 != c.e2 || a.e3 != c.e3) Code.shape
      ++ s.rangeCodes i [a] [c] ++ when (i.mvGath && i.rloop.vecBeyond i.mvIdx) Code.range)

/-! ### LDOP (R391) -/

def ldopRow : TRow :=
  { TRow.plain 0x59 (fun s i => s.eachRow (i.rowsIn i.mvSrc i.mvDst) fun s x => s.mvPut i x (some (i.srcAt i.mvSrc x))) with
    useLoop := true
    useBays := true
    prep := fun _ i => i.spread
    checks := fun s i =>
      when (i.f 0 26 6 != 0 || i.f 1 10 22 != 0 || i.wd 2 != 0 || i.f 3 8 24 != 0) Code.encoding
      ++ descCodes [i.mvSrc, i.mvDst] ++ when (i.mvSrc.fmtCode != i.mvDst.fmtCode) Code.format ++ floorCodes [i.mvSrc, i.mvDst]
      ++ when (i.mvSrc.loc == 2 || i.mvDst.loc != 2) Code.operand ++ s.rowCodes i false ++ s.rangeCodes i [i.mvSrc] [i.mvDst]
    zero := fun _ i => i.zeroRole i.rloop [0, 3]
    cost := fun _ i => i.rowCost (i.rowsIn i.mvSrc i.mvDst) fun _ r => cdiv (r * rowBytes i.mvDst i.mvDst.e0) 64
    addrs := fun _ i => i.laneAddrs (i.rowsIn i.mvSrc i.mvDst) [(i.mvSrc, i.mvSrc.e0)] [] []
    dep := fun _ _ => 1 }

def execLdop (c : Fin 64) (w : Long) (s : State) : Out := issueTensor ldopRow c.val w s

/-! ### HALO (R94, R392) -/

/-- The neighbour of core `g` in direction `dir`; none on the grid's edge (R90). -/
def neighbour (g dir : Nat) : Option Nat :=
  let c := g % 64
  match dir with
  | 0 => if c / 8 = 0 then none else some (g - 8)
  | 1 => if c % 8 = 7 then none else some (g + 1)
  | 2 => if c / 8 = 7 then none else some (g + 8)
  | _ => if c % 8 = 0 then none else some (g - 1)

/-- A run of a row that does not lie on whole 32-byte units. R392's test is made for each row, and for the scale plane
too (DESIGN CHOICE, log 117). -/
def Desc.unevenAt (d : Desc) (x : Coord) (n : Nat) : Bool :=
  let u := d.unit x.c0.toNat x.c1.toNat x.c2.toNat x.c3.toNat
  if d.fmtCode = 12 then n % 2 != 0 || d.wideEntry u (x.c1.toNat % 32) (x.c0.toNat % 32) % 32 != 0
  else if d.fmt.isBlock then
    d.unitAddr u % 32 != 0 || cdiv n d.fmt.block * d.fmt.unitBytes % 32 != 0 || d.scaleAddr u % 32 != 0 || cdiv n d.fmt.block % 32 != 0
  else d.unitAddr u % 32 != 0 || n * d.fmt.unitBytes % 32 != 0

/-- Every assignee's rows are read, then written at the neighbours (R94). -/
def State.halo (s : State) (i : Inst) : State :=
  let n := min i.mvSrc.e0 i.mvDst.e0
  let r := (i.rowsIn i.mvSrc i.mvDst).foldl (fun (acc : State × List (Nat × Coord × RawRow)) x =>
    match neighbour x.g (i.f 2 0 2) with
    | none => acc
    | some h =>
      let q := acc.1.readRaw i x.g i.mvSrc (i.srcAt i.mvSrc x) false n []
      (q.1, acc.2 ++ (q.2.map fun r => (h, i.dstAt i.mvDst x, r)).toList)) (s, [])
  r.2.foldl (fun s q => if s.coreFenced q.1 then s else s.writeRaw i q.1 i.mvDst q.2.1 q.2.2) r.1

def haloRow : TRow :=
  { TRow.plain 0x5A State.halo with
    useLoop := true
    useBays := true
    prep := fun _ i => i.spread
    checks := fun s i =>
      when (i.f 0 26 6 != 0 || i.f 1 10 22 != 0 || i.f 2 2 30 != 0 || i.f 3 8 24 != 0) Code.encoding
      ++ descCodes [i.mvSrc, i.mvDst] ++ when (i.mvSrc.fmtCode != i.mvDst.fmtCode) Code.format ++ floorCodes [i.mvSrc, i.mvDst]
      ++ when (i.mvSrc.loc != 2 || i.mvDst.loc != 2 || (i.rowsIn i.mvSrc i.mvDst).any fun x =>
          i.mvSrc.unevenAt (i.srcAt i.mvSrc x) i.mvSrc.e0 || i.mvDst.unevenAt (i.dstAt i.mvDst x) i.mvDst.e0) Code.operand
      ++ s.rowCodes i false ++ s.rangeCodes i [i.mvSrc] [i.mvDst]
    zero := fun _ i => i.zeroRole i.rloop [0, 3]
    cost := fun _ i => i.rowCost (i.rowsIn i.mvSrc i.mvDst) fun _ r => cdiv (r * rowBytes i.mvSrc i.mvSrc.e0) 32
    dep := fun _ _ => 0 }

def execHalo (c : Fin 64) (w : Long) (s : State) : Out := issueTensor haloRow c.val w s

end Sys2Proof.Machine
end

