-- ==== Sys2Proof/Machine/Leat.lean ====
section
/-!
DEFINITION. The Leat's shared operations (R186 to R192, R459 to R472): packets, READY stores, chunks and their
rotation, landing, acknowledgement, and the operation that RING, SEND, RECV and WRED hold while they run.
-/

namespace Sys2Proof.Machine

/-! ### Packets (R460, R461) -/

/-- A parsed header. -/
structure Hdr where
  typ : Nat
  vcf : Nat
  len : Nat
  job : Nat
  seq : Nat
  step : Nat
  chunk : Nat
  deriving DecidableEq, Repr

def Hdr.bytes (h : Hdr) : List Byte :=
  natLe 1 h.typ ++ natLe 1 h.vcf ++ natLe 2 h.len ++ natLe 2 h.job ++ natLe 2 (h.seq % 2 ^ 16) ++ natLe 4 h.step ++ natLe 4 h.chunk
def hdrOf (b : List Byte) : Hdr :=
  ⟨leAt b 0 1, leAt b 1 1, leAt b 2 2, leAt b 4 2, leAt b 6 2, leAt b 8 4, leAt b 12 4⟩
def crcBytes (b : List Byte) : List Byte := natLe 4 (Crypto.crc32c b).toNat
/-- Cells of a packet with `n` payload bytes (R464). -/
def cellsOf (n : Nat) : Nat := cdiv (16 + n) 32

/-- The link runs. -/
def State.live (s : State) (l : Nat) : Bool := (s.link l).st == 2
def State.linkFenced (s : State) (l : Nat) : Bool := (s.link l).st == 3 || Map.get false s.prot.linkF l
/-- The LNK_EN output: LINK_EN while the link is not FENCED (R470). -/
def State.lnkEn (s : State) (l : Nat) : Bool := Map.get false s.leat.linkEn l && (s.link l).st != 3
def State.linkOn (s : State) (l : Nat) : Bool := s.isOn (40 + l / 8)

/-- Queue a header-only packet on a link; an acknowledgement may move to the links of `mask`. -/
def State.queuePkt (s : State) (l : Nat) (h : Hdr) (vc n : Nat) (resv : Option Nat) (mask : Nat) : State :=
  s.onLink l fun x => { x with queue := x.queue ++ [{ bytes := h.bytes, vc := vc, cells := 1, inst := n, seqd := true, resv := resv, src := none, mask := mask }] }

/-- A packet that the receiver has handled frees its cells at once; the report becomes due where a field would
overflow (R464, R467). -/
def State.freeCells (s : State) (l vc n : Nat) : State :=
  s.onLink l fun x =>
    let f := Map.get 0 x.freed vc + n
    { x with freed := Map.set 0 x.freed vc f, repSince := if x.repSince = 0 then s.time.xclk + 1 else x.repSince,
             ctlDue := x.ctlDue || decide ((if vc = 1 then 15 else 1023) < f) }

/-! ### The operation of an instruction -/

def Inst.isA (i : Inst) : Bool := i.cls == 1
/-- The chunk size (R186, R481). -/
def LinkOp.size (o : LinkOp) : Nat := if o.isWred || o.mode = 1 then 16448 else 4096
def LinkOp.parts (o : LinkOp) : Nat := if o.isWred || o.mode = 1 then 5 else 1
def LinkOp.nTx (o : LinkOp) : Nat := cdiv o.len o.size
def LinkOp.nRx (o : LinkOp) : Nat := cdiv o.rlen o.size
/-- It sends chunks: RING and SEND with a length, WRED in ROLE 0. -/
def LinkOp.sends (o : LinkOp) : Bool := if o.isWred then o.role == 0 else decide (0 < o.len)
/-- It receives chunks of R189. -/
def LinkOp.receives (o : LinkOp) : Bool := !o.isWred && decide (0 < o.rlen)
/-- Bytes of packet `p` of chunk `c` of `total` bytes. -/
def LinkOp.partLen (o : LinkOp) (total c p : Nat) : Nat := min 4096 (min o.size (total - c * o.size) - 4096 * p)

def State.onOp (s : State) (n : Nat) (f : LinkOp → LinkOp) : State := s.onInst n fun y => { y with link := y.link.map f }

/-- Instructions with a running link operation that satisfies `f`, in issue order. -/
def State.ops (s : State) (f : Inst → LinkOp → Bool) : List (Inst × LinkOp) := s.instList.filterMap fun i => match i.link with
  | some o => if f i o then some (i, o) else none
  | none => none

/-- End an operation: its result is set, and nothing more is sent or taken for it. -/
def State.endOp (s : State) (n : Nat) (r : Nat) : State :=
  s.onInst n fun y => { y with link := none, result := BitVec.ofNat 64 r }

/-- Every chunk of the sending part is acknowledged, or withheld (R191, R517). -/
def LinkOp.sentAll (o : LinkOp) : Bool := (o.chunks.filter fun c => c.2.st == 2 || c.2.st == 4).length == o.nTx

/-- Every chunk is acknowledged and every chunk has landed (R191). -/
def LinkOp.done (o : LinkOp) : Bool :=
  if o.isWred then o.decided
  else (!o.sends || o.sentAll) && (!o.receives || (o.rxDone.length == o.nRx && o.ackDue.isEmpty))

/-- Chunks received (R191). -/
def LinkOp.received (o : LinkOp) : Nat := o.rxDone.length

/-! ### READY (R187, R188) -/

/-- Send READY on the links of `ls` that run. -/
def State.sendReady (s : State) (i : Inst) (o : LinkOp) (ls : List Nat) : State :=
  (ls.filter s.live).foldl (fun s l =>
    (s.queuePkt l ⟨3, if i.isA then 0 else 1, 0, o.job, 0, o.step, 0⟩ (if i.isA then 0 else 1) i.n i.resv 0).onOp i.n fun y =>
      { y with sent := Map.set 0 y.sent l (s.time.xclk + 1) }) s

/-- A held READY that the sending operation takes. -/
def ReadyEnt.suits (e : ReadyEnt) (o : LinkOp) : Bool := e.job == o.job && e.key == o.step && (e.mask &&& o.tx) != 0

/-- The READY of a sending operation has come. From then on a Class A RING counts its cost, in the window then open or the
one it opens (R192, log 106). -/
def State.nowReady (s : State) (n : Nat) : State :=
  let s1 := s.onOp n fun y => { y with readyIn := true }
  match s1.inst n with
  | none => s1
  | some i =>
    match i.resv with
    | none => s1
    | some k =>
      if i.cls ≠ 1 || i.deadline.isSome then s1
      else
        let q := (s1.openWindow i.ctx).countCost i k
        q.1.onInst n fun y => { y with deadline := q.2.deadline }

/-- The sending part looks for its READY in the stores. -/
def State.takeReady (s : State) (n : Nat) : State :=
  match (s.inst n).bind Inst.link with
  | none => s
  | some o =>
    if !o.sends || o.readyIn then s
    else if (s.leat.readyJob ++ s.leat.readyKey).any fun e => e.suits o then
      ({ s with leat := { s.leat with readyJob := s.leat.readyJob.filter (fun e => !e.suits o),
                                      readyKey := s.leat.readyKey.filter fun e => !e.suits o } }).nowReady n
    else s

/-- A READY that arrived on link `l`. -/
def State.gotReady (s : State) (l job key : Nat) : State :=
  let e : ReadyEnt := ⟨job, key, false, 2 ^ l⟩
  match s.ops fun _ o => o.sends && e.suits o with
  | (i, _) :: _ => s.nowReady i.n
  | [] =>
    if job ≤ 15 then
      match s.leat.readyJob.find? fun x => x.job == job with
      | some x => if x.key = key then s else s.raise 0x0304 0x05 [l, job]
      | none => { s with leat := { s.leat with readyJob := s.leat.readyJob ++ [e] } }
    else if s.leat.readyKey.any fun x => x.job == job && x.key == key then s
    else if 240 ≤ s.leat.readyKey.length then s
    else { s with leat := { s.leat with readyKey := s.leat.readyKey ++ [e] } }

/-! ### Landing and acknowledging chunks (R189, R471, R472) -/

/-- Write landing bytes for instruction `i`, checked against its context's windows. -/
def State.landWrite (s : State) (i : Inst) (l c a : Nat) (bs : List Byte) : State :=
  (linesOf 64 a bs.length).foldl (fun s k =>
    let a0 := max k a
    let a1 := min (k + 64) (a + bs.length)
    match s.checkAcc i.dom i.isA .wr a0 with
    | .ok =>
      if s.portFenced (homePort a0) then (s.portDenied i.n (homePort a0) a0 false).badChunk (.land i.n l c)
      else s.queueWrite i.dom i.isA (.land i.n l c) a0 ((bs.drop (a0 - a)).take (a1 - a0)) false
    | acc => (s.denied i.n .wr a0 acc).badChunk (.land i.n l c)) s

/-- Writes or adds of chunk `c` of instruction `n` are not all acknowledged. -/
def State.landing (s : State) (n c : Nat) : Bool :=
  let mine : Why → Bool := fun w => match w with
    | .land m _ k => m == n && k == c
    | _ => false
  s.mem.ports.any fun p => (p.2.allReqs.any fun r => mine r.why) || p.2.allAtoms.any fun a => mine a.why

/-- The link that an answer goes out on: the one its packet came in on, else a live one of the mask (R472, R487). -/
def State.backLink (s : State) (l mask : Nat) : Option Nat := if s.live l then some l else (bitsSet 64 mask).find? s.live

/-- Send the CACKs that are due: not of a chunk of which a part was discarded (log 143), and none where no link of the RX mask
is UP or comes up. -/
def State.flushAcks (s : State) (n : Nat) : State :=
  match s.inst n with
  | none => s
  | some i => match i.link with
    | none => s
    | some o => o.ackDue.foldl (fun s a =>
      let told := fun (s : State) => s.onOp n fun y => { y with ackDue := y.ackDue.filter fun z => z != a }
      if s.landing n a.2 then s
      else if Map.get false o.rxBad a.2 then told s
      else match s.backLink a.1 o.rx with
        | none => if (bitsSet 64 o.rx).any fun l => (s.link l).st == 1 then s else told s
        | some l =>
          let vc := if i.isA then 0 else 1
          told (s.queuePkt l ⟨4, vc, 1, o.job, 0, o.step, a.2⟩ vc n i.resv o.rx)) s

/-- Send what CACKs are due of every operation. -/
def State.flushAll (s : State) : State := (s.ops fun _ o => !o.ackDue.isEmpty).foldl (fun s q => s.flushAcks q.1.n) s

/-- A DATA packet for a receiving operation (R189, R190). -/
def State.ringData (s : State) (l : Nat) (h : Hdr) (pay : List Byte) : State :=
  let c := h.chunk % 2 ^ 28
  let p := fld h.chunk 28 3
  let stray := fun (s : State) => (s.onLink l fun x => { x with strays := holdAdd x.strays 1 }).raise 0x0304 0x05 [l, h.job]
  match s.ops fun _ o => o.receives && o.job == h.job && o.step == h.step && bitOf o.rx l with
  | [] => stray s
  | (i, o) :: _ =>
    if o.nRx ≤ c || o.parts ≤ p || bitOf h.vcf 3 != (o.mode == 1) || pay.length != o.partLen o.rlen c p then stray s
    else if Map.get false o.rxDone c then
      (s.onOp i.n fun y => { y with ackDue := if y.ackDue.contains (l, c) then y.ackDue else y.ackDue ++ [(l, c)] }).flushAcks i.n
    else
      let m := Map.get 0 o.rxMask c
      if bitOf m p then s
      else
        let m' := setBit m p
        let full := m' + 1 == 2 ^ o.parts
        let a := o.dst + c * o.size
        let w := Why.land i.n 0 c
        let s1 := if o.mode = 0 then s.landWrite i l c a pay else if Map.get false o.rxBad c then s else s.addLines i.n w i.dom i.isA a (64 * p) pay (p != 0 && bitOf m 0 && !s.hdrWaits w a) false
        let s2 := s1.onOp i.n fun y =>
          { y with rxMask := if full then Map.erase y.rxMask c else Map.set 0 y.rxMask c m', readyOut := y.readyOut || full,
                   rxDone := if full then Map.set false y.rxDone c true else y.rxDone,
                   ackDue := if full then y.ackDue ++ [(l, c)] else y.ackDue }
        if !full then s2
        else
          let b := o.rb + 8 + c / 8
          (s2.landWrite i l c b [s2.extByte b ||| BitVec.ofNat 8 (2 ^ (c % 8))]).flushAcks i.n

/-! ### Sending chunks (R189, R466) -/

/-- The first unsent chunk from `c` on, among `fuel` chunks, whose turn is on position `pos` of `t` live links. -/
def nextChunk (m : Map TxChunk) (t pos : Nat) : Nat → Nat → Option Nat
  | 0, _ => none
  | fuel + 1, c => if c % t = pos && ((Map.get ⟨0, 0, false⟩ m c).st == 0 || (Map.get ⟨0, 0, false⟩ m c).st == 3) then some c else nextChunk m t pos fuel (c + 1)

/-- The chunk that operation `o` sends next on link `l`. -/
def State.chunkFor (s : State) (o : LinkOp) (l : Nat) : Option Nat :=
  let ls := (bitsSet 64 o.tx).filter s.live
  match (List.range ls.length).find? fun k => ls.getD k 64 == l with
  | none => none
  | some pos => nextChunk o.chunks ls.length pos o.nTx 0

/-- The virtual channel of an instruction's DATA on a link (R463). -/
def State.dataVc (s : State) (i : Inst) (o : LinkOp) (l : Nat) : Nat :=
  if o.isWred then (if (s.group (l / 8)).sepmode then 3 + o.job % 4 else 3) else if i.isA then 0 else 2

/-- Credit for a packet of `n` cells (R464, R465). -/
def State.credit (s : State) (l vc n : Nat) (resv : Option Nat) : Bool :=
  let x := s.link l
  let h := fun (v : Nat) => Map.get 0 x.held v
  if vc = 0 then
    decide (h 0 + n ≤ x.pvc0) && (match resv with
      | none => true
      | some r => decide (((x.vc0Q.filter fun q => q.1 == some r).map Prod.snd).sum + n ≤ 32 * (s.rv r).cfg.lcred))
  else if vc = 1 then decide (h 1 + n ≤ 8)
  else decide (h 2 + h 3 + h 4 + h 5 + h 6 + n ≤ 1016 - x.pvc0) && decide (h vc + n ≤ x.pvcmax)

/-- Send a sequenced packet: number it, take its cells, keep it until it is acknowledged. -/
def State.emit (s : State) (l : Nat) (p : Pkt) (pay : List Byte) : State :=
  s.onLink l fun x =>
    let h := patch p.bytes 6 (natLe 2 (x.nextSeq % 2 ^ 16))
    { x with nextSeq := (x.nextSeq + 1) % 2 ^ 16, txPkts := holdAdd x.txPkts 1, unacked := x.unacked ++ [{ p with bytes := h }],
             held := Map.modify 0 x.held p.vc (· + p.cells), vc0Q := if p.vc = 0 then x.vc0Q ++ [(p.resv, p.cells)] else x.vc0Q,
             ackSince := if x.unacked.isEmpty then s.time.xclk else x.ackSince, lastVc := if 2 ≤ p.vc then p.vc else x.lastVc,
             lastTx := h ++ pay ++ crcBytes (h ++ pay) }

/-- Reads that bring data to `t` are outstanding. -/
def State.tgtOut (s : State) (t : Tgt) : Bool := s.mem.ports.any fun p => p.2.allReqs.any fun r => !r.wr && r.tgt.contains t

/-- Read chunk `c` of an operation through the memory ports: it is sent once every read has come without poison. -/
def State.fetchChunk (s : State) (i : Inst) (o : LinkOp) (c : Nat) : State :=
  let r := s.readExt i.n false [.chunk i.n c] (o.src + c * o.size) (min o.size (o.len - c * o.size))
  let s1 := r.1.onOp i.n fun y => { y with chunks := Map.set ⟨0, 0, false⟩ y.chunks c ⟨0, 3, false⟩ }
  if r.2.2 then s1.withhold i.n c else s1

/-- Send packet `p` of chunk `c` of an operation on link `l`. -/
def State.sendPart (s : State) (i : Inst) (o : LinkOp) (l c p : Nat) : State :=
  let n := o.partLen o.len c p
  let a := o.src + c * o.size + 4096 * p
  let pay := s.extBytes a n
  let vc := s.dataVc i o l
  let chunk := if o.isWred then c % 2 ^ 12 + s.weir.id * 2 ^ 20 else c % 2 ^ 28 + p * 2 ^ 28
  let h : Hdr := ⟨1, vc + 8 * b2n (o.mode == 1 || o.isWred), n, o.job, 0, o.step, chunk⟩
  let s1 := s.emit l { bytes := h.bytes, vc := vc, cells := cellsOf n, inst := i.n, seqd := true, resv := i.resv, src := some (a, n), dom := i.dom, clsA := i.isA } pay
  let last := p + 1 == o.parts
  (s1.onLink l fun x => { x with part := Map.set none x.part vc (if last then none else some (i.n, c, p + 1, o.parts)) }).onOp i.n fun y =>
    { y with chunks := Map.set ⟨0, 0, false⟩ y.chunks c ⟨l, 1, false⟩ }

/-- The DATA packet that virtual channel `vc` of link `l` sends next: the rest of the chunk in progress on it, else the next
chunk of the oldest operation that has one. -/
def State.dataNext (s : State) (l vc : Nat) : Option (Inst × LinkOp × Nat × Nat) :=
  let cur := match Map.get none (s.link l).part vc with
    | some (n, c, p, _) => (s.ops fun i _ => i.n == n).head?.map fun (q : Inst × LinkOp) => (q.1, q.2, c, p)
    | none => none
  match cur with
  | some q => some q
  | none => (s.ops fun i o => o.sends && o.readyIn && s.dataVc i o l == vc && (s.chunkFor o l).isSome).head?.bind fun (q : Inst × LinkOp) =>
      (s.chunkFor q.2 l).map fun c => (q.1, q.2, c, 0)

/-- Ask for the data of the chunk that each virtual channel of link `l` sends next. -/
def State.fetchChunks (s : State) (l : Nat) : State := [0, 2, 3, 4, 5, 6].foldl (fun s vc => match s.dataNext l vc with
  | some (i, o, c, 0) => if (Map.get ⟨0, 0, false⟩ o.chunks c).st == 0 then s.fetchChunk i o c else s
  | _ => s) s

/-- Try to send one packet of a virtual channel. -/
def State.sendVc (s : State) (l vc : Nat) : Option State :=
  match (s.link l).queue.find? fun p => p.vc == vc with
  | some p =>
    if s.credit l vc p.cells p.resv then
      some ((s.onLink l fun x => { x with queue := x.queue.erase p }).emit l p [])
    else none
  | none => (s.dataNext l vc).bind fun q =>
    let due := q.2.2.2 == 0 && ((Map.get ⟨0, 0, false⟩ q.2.1.chunks q.2.2.1).st != 3 || s.tgtOut (.chunk q.1.n q.2.2.1))
    if !due && s.credit l vc (cellsOf (q.2.1.partLen q.2.1.len q.2.2.1 q.2.2.2)) q.1.resv then some (s.sendPart q.1 q.2.1 l q.2.2.1 q.2.2.2) else none

/-! ### A link that stops (R189, R191, R470, R489) -/

/-- Chunks on a link that stopped and not acknowledged are to be sent again. -/
def State.resendFrom (s : State) (l : Nat) : State :=
  (s.ops fun _ o => o.sends).foldl (fun s q => s.onOp q.1.n fun y =>
    { y with chunks := y.chunks.filter fun c => !(c.2.link == l && c.2.st == 1) }) s

/-- The acknowledgements that link `l`, which has stopped, still had to deliver go out on a live link of their masks (R472,
R487). -/
def State.moveAcks (s : State) (l : Nat) : State :=
  let mine : Pkt → Bool := fun p => (p.bytes.headD 0).toNat == 4 || (p.bytes.headD 0).toNat == 5
  let ps := (s.link l).unacked.filter mine ++ (s.link l).queue.filter mine
  let s1 := s.onLink l fun x => { x with queue := x.queue.filter fun p => !mine p }
  ps.foldl (fun s p => match (bitsSet 64 p.mask).find? fun k => k != l && s.live k with
    | some k => s.onLink k fun x => { x with queue := x.queue ++ [p] }
    | none => s) s1

/-- Operations whose every link is fenced end with FAULT.LINK_FENCED. -/
def State.sweepLinks (s : State) : State :=
  let all := fun (m : Nat) => m != 0 && (bitsSet 64 m).all s.linkFenced
  let fault := fun (s : State) (i : Inst) (m : Nat) => s.instFault i.n { code := Code.fLinkFenced, unit := 0x05, detail := (bitsSet 64 m).headD 0 }
  ((s.flushAll).ops fun _ _ => true).foldl (fun s q =>
    let o := q.2
    if o.done then s
    else if o.isWred then
      if o.role = 0 && all o.tx then
        ((fault s q.1 o.tx).endOp q.1.n 3 |> fun s => { s with weir := { s.weir with unknown := holdAdd s.weir.unknown 1 } })
      else s
    else if o.sends && all o.tx && !o.sentAll then (fault s q.1 o.tx).endOp q.1.n o.received
    else if o.receives && all o.rx then
      if o.rxDone.length != o.nRx then (fault s q.1 o.rx).endOp q.1.n o.received
      -- every chunk is here, and no link is left for its acknowledgement
      else s.onOp q.1.n fun y => { y with ackDue := [] }
    else s) s.flushAll

/-- Fence a link (R469, R470). `why` is the DETAIL of FAULT.LINK_DOWN. -/
def State.dropLink (s : State) (l why : Nat) : State :=
  (((s.report { code := Code.fLinkDown, scope := 4, unit := 0x05, index := l, detail := why } 0).resendFrom l).moveAcks l).sweepLinks

/-! ### The rows RING, SEND and RECV (R186, R393 to R395) -/

def Inst.lkOp (i : Inst) : LinkOp :=
  let recv := i.opc == 0x62
  let send := i.opc == 0x61
  { job := i.f 2 10 12, step := i.sv (i.f 2 5 5) % 2 ^ 32, mode := i.f 2 22 1, src := i.sa (i.f 1 0 5),
    len := if recv then 0 else i.sv (i.f 1 5 5), dst := i.sa (i.f 1 10 5), rlen := if send then 0 else i.sv (i.f 1 15 5),
    rb := i.sa (i.f 1 20 5), tx := if recv then 0 else i.sv (i.f 1 25 5), rx := if send then 0 else i.sv (i.f 2 0 5) }

def State.linkChecks (s : State) (i : Inst) : List Nat :=
  let o := i.lkOp
  let recv := i.opc == 0x62
  let send := i.opc == 0x61
  let all := fun (m : Nat) => (bitsSet 64 m).all s.linkFenced
  when (i.f 0 26 6 != 0 || i.f 1 30 2 != 0 || i.f 2 23 9 != 0 || i.f 3 8 24 != 0
    || (recv && (i.f 1 0 10 != 0 || i.f 1 25 5 != 0)) || (send && (i.f 1 10 15 != 0 || i.f 2 0 5 != 0))) Code.encoding
  ++ when ((i.opc == 0x60 && decide (15 < o.job)) || (!recv && i.sv (i.f 1 0 5) % 64 != 0)
    || (!send && (i.sv (i.f 1 10 5) % 64 != 0 || i.sv (i.f 1 20 5) % 64 != 0))
    || o.len % 64 != 0 || o.rlen % 64 != 0 || decide (2 ^ 40 < o.len) || decide (2 ^ 40 < o.rlen)) Code.operand
  ++ when ((o.sends && all o.tx) || (o.receives && all o.rx)) Code.fenced
  ++ when (o.mode == 1 && (o.len % 16448 != 0 || o.rlen % 16448 != 0)) Code.shape

/-- Bytes on the busiest link. -/
def State.linkBytes (s : State) (o : LinkOp) : Nat :=
  let per := fun (m n k : Nat) => min n (cdiv k (max 1 ((bitsSet 64 m).filter s.live).length) * o.size)
  max (per o.tx o.len o.nTx) (per o.rx o.rlen o.nRx)

/-- The operation of an accepted instruction starts: RBMAP is written and READY sent, and the sending part looks for its
READY (R187). -/
def State.beginLink (s : State) (i : Inst) : State :=
  let o := i.lkOp
  let s1 := s.onInst i.n fun y => { y with link := some o }
  let s2 := if o.receives then
      let a := (s1.writeExt i.n o.rb (natLe 4 o.job ++ natLe 4 o.step) false).writeExt i.n (o.rb + 8) (zeroBytes (cdiv o.nRx 8)) false
      a.sendReady i o (bitsSet 64 o.rx)
    else s1
  s2.takeReady i.n

def linkRow (opc : Nat) : TRow :=
  { TRow.plain opc State.beginLink with
    checks := State.linkChecks
    zero := fun _ i => i.lkOp.len == 0 && i.lkOp.rlen == 0
    late := fun i => i.opc == 0x60 && i.lkOp.sends
    cost := fun s i => cdiv (cdiv (s.linkBytes i.lkOp) 10 * 4) (divOf s.pwr.cdivEff)
    addrs := fun _ i =>
      let o := i.lkOp
      (if o.sends then linesOf 64 o.src o.len else []) ++ (if o.receives then linesOf 64 o.dst o.rlen ++ linesOf 64 o.rb (8 + cdiv o.nRx 8) else [])
    dep := fun _ _ => 2 }

def execRing (c : Fin 64) (w : Long) (s : State) : Out := issueTensor (linkRow 0x60) c.val w s
def execSend (c : Fin 64) (w : Long) (s : State) : Out := issueTensor (linkRow 0x61) c.val w s
def execRecv (c : Fin 64) (w : Long) (s : State) : Out := issueTensor (linkRow 0x62) c.val w s

end Sys2Proof.Machine
end

