-- ==== Sys2Proof/Machine/Weir.lean ====
section
/-!
DEFINITION. The Weir (R396, R397, R477 to R495): contributions, buckets and their record, verdicts, the residual,
finishing, and TOPK.
-/

namespace Sys2Proof.Machine

/-! ### Fields (R396, R478) -/

def Inst.wrRole (i : Inst) : Nat := i.f 2 23 2
def Inst.wrNc (i : Inst) : Nat := i.f 3 8 8
def Inst.wrOp (i : Inst) : LinkOp :=
  let r := i.wrRole
  { isWred := true, role := r, job := i.f 2 10 12, step := i.sv (i.f 2 5 5) % 2 ^ 32, src := i.sa (i.f 1 0 5),
    len := if r = 1 then 0 else i.sv (i.f 1 5 5), dst := i.sa (i.f 1 10 5), rlen := if r = 0 then 0 else i.sv (i.f 1 15 5),
    res := if r = 0 then i.sa (i.f 1 15 5) else 0, rb := i.sa (i.f 1 20 5), tx := if r = 0 then i.sv (i.f 1 25 5) else 0,
    rx := if r = 0 then 0 else i.sv (i.f 2 0 5), nc := i.wrNc, dl := i.sv (i.f 2 25 5) % 2 ^ 32 }

/-- The output fields of a bucket record (R484). -/
structure OutRec where
  out : Nat
  ofmt : Nat
  finish : Bool
  rnd : Nat
  strm : Nat
  rsv : Bool

/-- The output fields of the record bytes that the instruction captured at issue. -/
def Inst.outRec (i : Inst) : OutRec :=
  let b := i.apb.take 16
  ⟨leAt b 0 8 % 2 ^ 52, leAt b 8 1 % 16, bitOf (leAt b 8 1) 4, leAt b 8 1 / 32 % 4, leAt b 9 1 % 16,
   bitOf (leAt b 8 1) 7 || leAt b 9 1 / 16 != 0 || !zeroAt b 10 6 || leAt b 0 8 % 64 != 0 || decide (2 ^ 52 ≤ leAt b 0 8)⟩

/-! ### Entries and pairs (R482) -/

/-- Round half to even. -/
def rneInt (v : ℚ) : Int :=
  let f := v.floor
  let d := v - f
  if d < 1 / 2 then f else if 1 / 2 < d then f + 1 else if f % 2 = 0 then f else f + 1

/-- A pair's value at an anchor, as a WIDE entry. -/
def pairEntry (x : Ext) (a : Int) : Entry :=
  match x with
  | .nan => { nan := true }
  | .inf neg => { pinf := !neg, ninf := neg }
  | x =>
    let v := x.toRat * pow2 (72 - a)
    let f := rneInt v
    if 2 ^ 94 ≤ |f| then { pinf := decide (0 < f), ninf := decide (f < 0) }
    else { f := BitVec.ofInt 96 f, inex := decide ((f : ℚ) ≠ v) }

/-- Infinities turned into NaN (R486). -/
def noInf (n : Nat) : Nat := if bitOf n 97 || bitOf n 98 then clrBit (clrBit (setBit n 96) 97) 98 else n

/-- The bucket element of pair `j` of a block. -/
def pairElem (b : List Byte) (j : Nat) : Int := (leAt b 8 4 : Nat) + sextNat 32 (leAt b (64 + 8 * j) 4)

/-- The pairs of a block: bucket element and value. -/
def pairsOf (b : List Byte) : List (Nat × Nat) := (List.range (leAt b 4 4)).map fun j => ((pairElem b j).toNat, leAt b (68 + 8 * j) 4)

/-- A pair block is well formed for a bucket of `tiles` tiles. -/
def pairOk (b : List Byte) (nblk tiles : Nat) : Bool :=
  leAt b 0 2 == 0x8000 && zeroAt b 2 2 && decide (leAt b 4 4 ≤ 2048) && leAt b 12 4 == nblk && decide (1 ≤ nblk) && decide (nblk ≤ tiles)
  && zeroAt b 16 48 && (List.range (leAt b 4 4)).all fun j => decide (0 ≤ pairElem b j) && decide (pairElem b j < (1024 * tiles : Nat))

/-- The pairs that part `p` of a pair block with header `h` carries name elements of a bucket of `tiles` tiles. -/
def pairPartOk (h pay : List Byte) (p tiles : Nat) : Bool :=
  let first := if p = 0 then 0 else 512 * p - 8
  let off := 64 + 8 * first - 4096 * p
  (List.range ((pay.length - off) / 8)).all fun k =>
    let x : Int := (leAt h 8 4 : Nat) + sextNat 32 (leAt pay (off + 8 * k) 4)
    decide (leAt h 4 4 ≤ first + k) || (decide (0 ≤ x) && decide (x < (1024 * tiles : Nat)))

/-- A pair block's header suits a contribution of `nblk` blocks to a bucket of `tiles` tiles. -/
def pairHeadOk (h : List Byte) (nblk tiles : Nat) : Bool :=
  zeroAt h 2 2 && decide (leAt h 4 4 ≤ 2048) && decide (1 ≤ leAt h 12 4) && decide (leAt h 12 4 ≤ tiles) && zeroAt h 16 48
  && (nblk == 0 || nblk == leAt h 12 4)

/-- A contribution tile of the pairs that fall into tile `t`, under the target's header. -/
def pairTile (hdr : List Byte) (t : Nat) (ps : List (Nat × Nat)) (poison : Bool) : List Byte :=
  let h := tileHeader hdr
  let m : Map Nat := (ps.filter fun p => p.1 / 1024 == t).foldl (fun m p =>
    let e := p.1 % 1024
    let n := (pairEntry (f32Decode p.2) (h.anchorOf e)).nat
    Map.modify 0 m e fun x => wideEntryAdd x (if poison then noInf n else n)) []
  let inex := m.any fun p => bitOf p.2 99
  patch (patch hdr 4 [BitVec.ofNat 8 (leAt hdr 4 1 % 2 + 2 * b2n inex)]) 8 (zeroBytes 8)
    ++ (List.range 1024).flatMap fun e => natLe 16 (Map.get 0 m e)

/-- A dense tile with its infinities turned. -/
def denseTile (b : List Byte) (poison : Bool) : List Byte :=
  if poison then b.take 64 ++ (List.range 1024).flatMap (fun e => natLe 16 (noInf (leAt b (64 + 16 * e) 16))) else b

/-- A chunk holds a NaN or an infinity. -/
def chunkNonfin (b : List Byte) : Bool :=
  if leAt b 0 2 = 0x8000 then (pairsOf b).any fun p => p.2 / 2 ^ 23 % 256 == 255
  else (List.range 1024).any fun e => leAt b (64 + 16 * e) 16 / 2 ^ 96 % 8 != 0

/-! ### Buckets -/

def Bucket.is (b : Bucket) (job bkt : Nat) : Bool := b.job == job && b.bkt == bkt
def State.bucket (s : State) (job bkt : Nat) : Option Bucket := s.weir.buckets.find? fun b => b.is job bkt
def State.onBucket (s : State) (job bkt : Nat) (f : Bucket → Bucket) : State :=
  { s with weir := { s.weir with buckets := s.weir.buckets.map fun b => if b.is job bkt then f b else b } }
def State.onContrib (s : State) (b : Bucket) (id : Nat) (loc : Bool) (f : Contrib → Contrib) : State :=
  s.onBucket b.job b.bkt fun y => { y with contribs := y.contribs.map fun c => if c.id == id && c.loc == loc then f c else c }
def Bucket.count (b : Bucket) : Nat := (b.contribs.filter fun c => c.verdict == 1 || c.verdict == 2).length

/-- Folds or record writes of the bucket are not all acknowledged. -/
def State.folding (s : State) (job bkt : Nat) : Bool :=
  s.mem.ports.any fun p => (p.2.allReqs.any fun r => r.why == .weir job bkt) || p.2.allAtoms.any fun a => a.why == .weir job bkt

def bitmapOf (ids : List Nat) : List Byte := (List.range 32).map fun k => BitVec.ofNat 8 (((List.range 8).map fun j => b2n (ids.contains (8 * k + j)) * 2 ^ j).sum)

/-- Bytes 16 to 255 of the bucket record. -/
def Bucket.record (b : Bucket) (nc state : Nat) : List Byte :=
  let ids := fun (f : Contrib → Bool) => (b.contribs.filter f).map Contrib.id
  natLe 4 b.bkt ++ natLe 2 b.job ++ natLe 1 nc ++ natLe 1 state ++ natLe 1 b.count ++ zeroBytes 3 ++ natLe 4 b.closeAt
  ++ bitmapOf (ids fun c => c.verdict == 1 || c.verdict == 2) ++ bitmapOf (ids (fun c => c.verdict == 4) ++ b.late)
  ++ bitmapOf (ids fun c => c.verdict == 3) ++ bitmapOf (ids fun c => c.verdict == 2)
  ++ bitmapOf (ids (fun c => c.verdict == 5) ++ b.refused) ++ zeroBytes 64

/-- Send a NACK (R487). -/
def State.nack (s : State) (i : Inst) (o : LinkOp) (l id reason : Nat) : State :=
  match s.backLink l o.rx with
  | none => s
  | some k => s.queuePkt k ⟨5, 1, 0, o.job, 0, o.step, reason + id * 2 ^ 20⟩ 1 i.n none o.rx

/-- Tiles of the bucket. -/
def LinkOp.tiles (o : LinkOp) : Nat := o.rlen / 16448

/-! ### Deciding a contribution (R486) -/

/-- Refuse a contribution for its format. -/
def State.badFormat (s : State) (i : Inst) (o : LinkOp) (b : Bucket) (c : Contrib) : State :=
  let s1 := s.onContrib b c.id c.loc fun y => { y with verdict := 5 }
  if c.loc then s1.instFault i.n { code := Code.fWeirFormat, unit := 0x04, detail := 6 } else s1.nack i o c.link c.id 6

/-- The header of target tile `t` of an operation, read for instruction `i`. -/
def State.targetHead (s : State) (i : Inst) (o : LinkOp) (t : Nat) : State × List Byte :=
  let r := s.readExt i.n false [] (o.dst + 16448 * t) 64
  (r.1, r.2.1)

/-- Add the pairs of `ps` to the tiles from `base` on for instruction `i`: each tile's header is read for its anchor. -/
def State.addPairs (s : State) (i : Inst) (w : Why) (base : Nat) (ps : List (Nat × Nat)) (nf bad : Bool) : State :=
  (dedupNat (ps.map fun p => p.1 / 1024)).foldl (fun s t =>
    let a := base + 16448 * t
    let r := s.readExt i.n false [.ext a 16448] a 64
    r.1.addTile i.n w i.dom false a (pairTile r.2.1 t ps nf) (bad || r.2.2)) s

/-- Decide a contribution whose chunks have all landed, or the local one once it is staged. What its reads bring is folded
into the target, which carries their poison (R516). -/
def State.settleContrib (s : State) (i : Inst) (o : LinkOp) (b : Bucket) (c : Contrib) : State :=
  let n := if c.kind = 2 then c.nblk else o.tiles
  let aims := fun (k : Nat) => if c.kind = 2 then Tgt.ext o.dst o.rlen else Tgt.ext (o.dst + 16448 * k) 16448
  let rd := (List.range n).foldl (fun (acc : State × List (List Byte) × Bool) k =>
    let q := acc.1.readExt i.n false [aims k] (o.rb + 256 + c.slot * o.rlen + 16448 * k) 16448
    (q.1, acc.2.1 ++ [q.2.1], acc.2.2 || q.2.2)) (s, [], false)
  let bs := rd.2.1
  -- the headers of a contribution that came by link were compared as they landed
  let hd := if c.kind = 2 || !c.loc then (rd.1, true) else ((List.range n).zip bs).foldl (fun (acc : State × Bool) x =>
    let q := acc.1.targetHead i o x.1
    (q.1, acc.2 && leAt x.2 0 2 != 0x8000 && tileOk (x.2.take 64) && tileOk q.2 && wideSame q.2 (x.2.take 64))) (rd.1, true)
  let s := hd.1
  if !hd.2 || !(bs.all fun x => if c.kind = 2 then pairOk x c.nblk o.tiles else entriesOk (x.take 64) 0 (x.drop 64)) then s.badFormat i o b c
  else
    let nf := bs.any chunkNonfin
    let s1 := if nf then ({ s with weir := { s.weir with nonfinSeen := holdAdd s.weir.nonfinSeen 1 } }).raise 0x030A 0x04 [b.job, b.bkt, c.id] else s
    if nf && b.exclude then
      let s2 := s1.onContrib b c.id c.loc fun y => { y with verdict := 3 }
      if c.loc then s2 else s2.nack i o c.link c.id 2
    else
      let w := Why.weir b.job b.bkt
      let s2 := if c.kind = 2 then s1.addPairs i w o.dst (bs.flatMap pairsOf) nf rd.2.2
        else ((List.range n).zip bs).foldl (fun s x => s.addTile i.n w i.dom false (o.dst + 16448 * x.1) (denseTile x.2 nf) rd.2.2) s1
      s2.onContrib b c.id c.loc fun y => { y with verdict := if nf then 2 else 1 }

/-- Close a bucket (R485): contributions that are not complete are late. A close that the deadline brings is at c0 + DL,
whatever command it is noticed by. -/
def State.closeBucket (s : State) (i : Inst) (o : LinkOp) (b : Bucket) : State :=
  let open' := b.contribs.filter fun c => c.verdict == 0 && !c.loc
  let s1 := open'.foldl (fun s c =>
    let s2 := ((s.onContrib b c.id false fun y => { y with verdict := 4 }).raise 0x030B 0x04 [b.job, b.bkt, c.id]).nack i o c.link c.id 1
    if (s.backLink c.link o.rx).isSome then { s2 with weir := { s2.weir with lateSent := holdAdd s2.weir.lateSent 1 } } else s2) s
  let s3 := s1.onBucket b.job b.bkt fun y => { y with closed := true, closeAt := min (s.time.xclk - b.t0) o.dl % 2 ^ 32 }
  { s3 with weir := { s3.weir with closedKeys := (⟨b.job, b.bkt, o.rx, []⟩ :: s3.weir.closedKeys).take 64 } }

/-- Decided contributions, those of dead contributors left out of the number awaited (R485, R491). -/
def Bucket.enough (b : Bucket) (nc : Nat) : Bool :=
  decide (nc ≤ (b.contribs.filter fun c => c.verdict != 0 && c.verdict != 6).length + b.dead.length)

/-- The finished bucket's elements (R490). A target tile that R48 rejects faults and poisons them. -/
def State.bucketOut (s : State) (i : Inst) (o : LinkOp) (n : Nat) : State :=
  let r := i.outRec
  if !r.finish || r.out = 0 then s
  else
    let f := (Fmt.ofCode r.ofmt).getD .bf16
    let at' := fun (t : Nat) => o.dst + 16448 * t
    let size := if f.isBlock then 1024 * o.tiles / f.block * (f.unitBytes + 1) else 1024 * o.tiles * f.unitBytes
    let rd := (List.range (if n = 0 then 0 else o.tiles)).foldl (fun (acc : State × Bool) t =>
      let q := acc.1.readExt i.n false [.ext r.out size] (at' t) 16448
      (q.1, acc.2 || q.2.2)) (s, false)
    let wide := (List.range o.tiles).any fun t => !tileOk (s.extBytes (at' t) 64) || !entriesOk (s.extBytes (at' t) 64) 0 (s.extBytes (at' t + 64) 16384)
    let bad := rd.2 || (n != 0 && wide)
    let s1 := if n != 0 && wide then rd.1.instFault i.n { code := Code.fWideHeader, unit := 0x04, poison := true } else rd.1
    let hs := (List.range o.tiles).map fun t => tileHeader (s.extBytes (at' t) 64)
    let vals := (List.range (1024 * o.tiles)).map fun e =>
      if n = 0 then Ext.fin false 0
      else
        let h := hs.getD (e / 1024) (tileHeader [])
        ((Entry.ofNat (leNat (s.extBytes (o.dst + 16448 * (e / 1024) + 64 + 16 * (e % 1024)) 16))).ext (some (h.anchorOf (e % 1024)))).scale (1 / (n : ℚ))
    let bs := convRow f 0 1 (((List.range vals.length).zip vals).map fun p => (p.2, rndOf r.rnd (srDraw i.seed.toNat 32 i.issue p.1 0)))
    let out := if f.isBlock then bs.flatMap (fun b => packBits f.bits f.unitBytes b.elems) ++ bs.map fun b => BitVec.ofNat 8 b.scale
      else (bs.flatMap Block.elems).flatMap fun e => natLe f.unitBytes e
    ((s1.markPoison i.n bad).writeExt i.n r.out out bad).count i.n r.strm (if f.counted then sumCounts bs else Counts.zero)

/-- Acknowledge a contribution: with its last chunk, once its folds are done; again where a chunk that has landed comes
again (R189, R472, R486; log 140). -/
def State.ackContrib (s : State) (i : Inst) (o : LinkOp) (b : Bucket) (c : Contrib) (l : Nat) : State :=
  match s.backLink l o.rx with
  | none => s
  | some k => (s.queuePkt k ⟨4, 1, 1, b.job, 0, b.bkt, c.last + c.id * 2 ^ 20⟩ 1 i.n none o.rx).onContrib b c.id false fun y => { y with acked := true }

/-- The writes that stage the local contribution of a bucket are not all acknowledged. -/
def State.stagingOut (s : State) (job bkt : Nat) : Bool := s.mem.ports.any fun p => p.2.allReqs.any fun r => r.why == .stage job bkt

/-- The local contribution of ROLE 2, once it is fully staged, is decided; it opens a bucket that no DATA packet has opened
(R485). -/
def State.settleLocal (s : State) (i : Inst) (o : LinkOp) (b : Bucket) : State :=
  match b.contribs.find? fun c => c.loc && c.verdict == 0 with
  | none => s
  | some c =>
    if s.stagingOut b.job b.bkt then s
    else
      let s1 := s.onBucket b.job b.bkt fun y => if y.started then y else { y with started := true, t0 := s.time.xclk }
      s1.settleContrib i o b c

/-- What the Weir keeps of the contributors of a bucket that is done: of one whose chunks all landed, or that was turned away,
no further chunk is late. -/
def Bucket.known (b : Bucket) : List (Nat × Bool) :=
  ((b.contribs.filter fun c => c.verdict != 4).map fun c => (c.id, c.acked)) ++ b.refused.map fun id => (id, false)

/-- Everything that the bucket's state now allows: the decision of its local contribution, its close, CACKs of counted
contributions once folds are acknowledged, and its end. -/
def State.weirProgress (s : State) (job bkt : Nat) : State :=
  match s.bucket job bkt with
  | none => s
  | some b => match s.inst b.inst with
    | none => s
    | some i => match i.link with
      | none => s
      | some o =>
        let s0 := s.settleLocal i o b
        match s0.bucket job bkt with
        | none => s0
        | some b0 =>
          let s1 := if b0.started && !b0.closed && (b0.enough o.nc || decide (b0.t0 + o.dl ≤ s0.time.xclk)) then s0.closeBucket i o b0 else s0
          if s1.folding job bkt then s1
          else match s1.bucket job bkt with
            | none => s1
            | some b =>
              let folded : Contrib → Bool := fun c => (c.verdict == 1 || c.verdict == 2) && !c.acked
              let due := b.contribs.filter fun c => folded c && !c.loc
              let s2 := (due.foldl (fun s c => s.ackContrib i o b c c.link) s1).onBucket job bkt fun y =>
                { y with contribs := y.contribs.map fun c => if c.loc && folded c then { c with acked := true } else c }
              if !b.closed || b.contribs.any (fun c => c.loc && c.verdict == 0) then s2
              else
                let n := b.count
                let s3 := s2.writeExt i.n (o.rb + 16) (b.record o.nc 2) false
                let s4 := s3.bucketOut i o n
                let s5 := if n = 0 then s4.raise 0x030D 0x04 [job, bkt] else s4
                let s6 := s5.writeExt i.n (o.rb + 16) (b.record o.nc 3) false
                let ids := ((s2.bucket job bkt).map Bucket.known).getD []
                ({ s6 with weir := { s6.weir with
                    bucketsDone := holdAdd s6.weir.bucketsDone 1, buckets := s6.weir.buckets.filter fun y => !y.is job bkt,
                    closedKeys := s6.weir.closedKeys.map fun (k : ClosedKey) => if k.job == job && k.bkt == bkt then { k with known := ids } else k } }).endOp i.n n

/-! ### A reduction packet arrives (R481 to R486) -/

/-- A contributor that is turned away at its first chunk, FILLING or DEAD: decided, with no staging slot (R486). -/
def Bucket.turnAway (y : Bucket) (id l verdict : Nat) : Bucket :=
  { y with
    dead := if verdict = 6 && !y.dead.contains id then id :: y.dead else y.dead
    contribs := y.contribs ++ [{ id := id, slot := 0, kind := 3, verdict := verdict, link := l }] }

/-- The part number of a packet: the n-th of its chunk on the link. -/
def Link.nextPart (x : Link) (vc : Nat) (key : List Nat) : Nat :=
  let q := Map.get [] x.rxPart vc
  if q.take 4 == key && q.getD 4 5 < 5 then q.getD 4 0 else 0

/-- Part `p` of chunk `t` of a contribution is well formed, the target's header being `k` (R482): kind, NBLK and header as the
first block has them, and every entry or pair that the part carries. -/
def Contrib.partOk (c : Contrib) (o : LinkOp) (k : List Byte) (t p : Nat) (pay : List Byte) : Bool :=
  let h := if p = 0 then pay.take 64 else Map.get [] c.heads t
  let kind := if leAt h 0 2 = 0x8000 then 2 else 1
  pay.length == (if p = 4 then 64 else 4096) && (c.kind == 0 || c.kind == kind)
  && (if kind = 2 then (p != 0 || pairHeadOk h c.nblk o.tiles) && pairPartOk h pay p o.tiles
      else (p != 0 || (tileOk h && tileOk k && wideSame k h)) && entriesOk h (if p = 0 then 0 else 256 * p - 4) (if p = 0 then pay.drop 64 else pay))

/-- What a contribution is after one more landed part; the state has the bytes. -/
def State.landPart (s : State) (i : Inst) (o : LinkOp) (b : Bucket) (c : Contrib) (l t p : Nat) (pay : List Byte) : State :=
  let m := Map.get 0 c.tiles t
  if bitOf m p then s
  else
    let kind := if leAt pay 0 2 = 0x8000 then 2 else 1
    let hd := p == 0
    let q := if hd && kind == 1 then s.targetHead i o t else (s, [])
    if !c.partOk o q.2 t p pay then q.1.badFormat i o b c
    else
      let s1 := q.1.writeExt i.n (o.rb + 256 + c.slot * o.rlen + 16448 * t + 4096 * p) pay false
      let c' := { c with tiles := Map.set 0 c.tiles t (setBit m p), kind := if hd then kind else c.kind, link := l, last := t,
                         nblk := if hd && kind == 2 then leAt pay 12 4 else c.nblk,
                         heads := if hd then Map.set [] c.heads t (pay.take 64) else c.heads }
      let s2 := s1.onContrib b c.id c.loc fun _ => c'
      let n := if c'.kind = 2 then c'.nblk else o.tiles
      if c'.kind != 0 && decide (0 < n) && (List.range n).all fun k => Map.get 0 c'.tiles k == 31 then s2.settleContrib i o b c' else s2

/-- Send an answer of kind `typ` for a chunk of a bucket, on the link it came on or a live one of `rx`: whether one is there. -/
def State.answer (s : State) (h : Hdr) (typ len l rx n chunk : Nat) : State × Bool :=
  match s.backLink l rx with
  | none => (s, false)
  | some k => (s.queuePkt k ⟨typ, 1, len, h.job, 0, h.step, chunk⟩ 1 n none rx, true)

/-- NACK LATE for a chunk, once (R486, R495). -/
def State.lateAns (s : State) (h : Hdr) (l rx n p : Nat) : State :=
  if p != 0 then s
  else
    let q := s.answer h 5 0 l rx n (1 + fld h.chunk 20 8 * 2 ^ 20)
    if q.2 then { q.1 with weir := { q.1.weir with lateSent := holdAdd q.1.weir.lateSent 1 } } else q.1

/-- A DATA packet on a reduction channel. -/
def State.weirData (s : State) (l : Nat) (h : Hdr) (pay : List Byte) : State :=
  let id := fld h.chunk 20 8
  let t := h.chunk % 2 ^ 12
  let p := (s.link l).nextPart (h.vcf % 8) [h.job, h.step, id, t]
  let s0 := (s.onLink l fun x => { x with rxPart := Map.set [] x.rxPart (h.vcf % 8) [h.job, h.step, id, t, p + 1] }).weirProgress h.job h.step
  let stray := fun (s : State) => (s.onLink l fun x => { x with strays := holdAdd x.strays 1 }).raise 0x0304 0x05 [l, h.job]
  match s0.bucket h.job h.step with
  | none => match s0.weir.closedKeys.find? fun k => k.job == h.job && k.bkt == h.step with
    | none => stray s0
    | some k => match k.known.find? fun q => q.1 == id with
      | none => s0.lateAns h l k.rx s0.nextInst p
      | some (_, acked) => if p == 4 && acked then (s0.answer h 4 1 l k.rx s0.nextInst (t + id * 2 ^ 20)).1 else s0
  | some b => match s0.inst b.inst with
    | none => stray s0
    | some i => match i.link with
      | none => stray s0
      | some o =>
        -- a contributor already decided, or the local one: its chunks are resends
        let again := fun (s : State) (c : Contrib) =>
          if c.verdict == 4 && !bitOf (Map.get 0 c.tiles t) p then s.lateAns h l o.rx i.n p
          else if p == 4 && c.acked then s.ackContrib i o b c l else s
        if !bitOf o.rx l || o.tiles ≤ t then stray s0
        else if b.closed then match b.contribs.find? fun c => c.id == id with
          | some c => again s0 c
          | none => if b.refused.contains id then s0
            else (s0.onBucket b.job b.bkt fun y => { y with late := if y.late.contains id then y.late else id :: y.late }).lateAns h l o.rx i.n p
        else
          let s1 := if b.started then s0 else s0.onBucket b.job b.bkt fun y => { y with started := true, t0 := s.time.xclk }
          let s1 := if p = 4 then s1.onOp i.n fun y => { y with readyOut := true } else s1
          let st := Map.get 0 s.weir.cstate id
          let s2 := match b.contribs.find? fun c => c.id == id with
            | some c => if c.loc || c.verdict != 0 then again s1 c else s1.landPart i o b c l t p pay
            | none =>
              if st = 2 then
                (s1.onBucket b.job b.bkt fun y => y.turnAway id l 6).nack i o l id 4
              else if b.refused.contains id then s1
              else if st = 1 then
                (s1.onBucket b.job b.bkt fun y => y.turnAway id l 5).nack i o l id 3
              else if o.nc ≤ b.contribs.length then (s1.onBucket b.job b.bkt fun y => { y with refused := id :: y.refused }).nack i o l id 5
              else
                let c : Contrib := { id := id, slot := (b.contribs.filter fun (z : Contrib) => z.kind != 3).length, link := l }
                (s1.onBucket b.job b.bkt fun y => { y with contribs := y.contribs ++ [c] }).landPart i o b c l t p pay
          s2.weirProgress h.job h.step

/-- A packet for the Weir: the Leat holds it until the Weir is ON (R536). -/
def State.toWeir (s : State) (l : Nat) (h : Hdr) (pay : List Byte) : State :=
  if s.isOn 50 then s.weirData l h pay
  else
    let t := s.wakeDom 50
    { t with leat := { t.leat with weirHeld := t.leat.weirHeld ++ [(l, h.bytes, pay)] } }

/-- The Weir is ON: what waited for it goes on, and its cells are free. -/
def State.weirUp (s : State) : State :=
  s.leat.weirHeld.foldl (fun t q =>
    let h := hdrOf q.2.1
    (t.freeCells q.1 (h.vcf % 8) (cellsOf q.2.2.length)).weirData q.1 h q.2.2) { s with leat := { s.leat with weirHeld := [] } }

/-! ### The sender's verdict (R488) -/

/-- Add the whole contribution back into the residual store, which carries the poison of what is read (R516). -/
def State.giveBack (s : State) (i : Inst) (o : LinkOp) : State :=
  (List.range o.nTx).foldl (fun s k =>
    let a := o.src + 16448 * k
    let b0 := s.soonBytes a 16448
    let ps := pairsOf b0
    let pair := leAt b0 0 2 == 0x8000
    let aims := if pair then (dedupNat (ps.map fun p => p.1 / 1024)).map fun t => Tgt.ext (o.res + 16448 * t) 16448 else [Tgt.ext (o.res + 16448 * k) 16448]
    let r := s.readExt i.n false aims a 16448
    if pair then r.1.addPairs i (.tensor i.n) o.res ps false r.2.2
    else r.1.addTile i.n (.tensor i.n) i.dom false (o.res + 16448 * k) r.2.1 r.2.2) s

/-- The contributing instruction that a CACK or NACK answers. -/
def State.contributor (s : State) (h : Hdr) : Option (Inst × LinkOp) :=
  (s.ops fun _ o => o.isWred && o.role == 0 && o.job == h.job && o.step == h.step && fld h.chunk 20 8 == s.weir.id).head?

/-- A NACK arrives. -/
def State.gotNack (s : State) (h : Hdr) : State :=
  match s.contributor h with
  | none => s
  | some (i, o) =>
    match h.chunk % 2 ^ 12 with
    | 1 | 3 =>
      let s1 := (s.giveBack i o).raise 0x030C 0x04 [h.job, h.step]
      ({ s1 with weir := { s1.weir with returned := holdAdd s1.weir.returned 1 } }).endOp i.n (1 + 256 * (h.chunk % 2 ^ 12))
    | 2 | 4 => s.endOp i.n 2
    | 5 | 6 => (s.instFault i.n { code := Code.fWeirFormat, unit := 0x04, detail := h.chunk % 2 ^ 12 }).endOp i.n 0
    | _ => s

/-- A CACK arrives (R189, R488). -/
def State.gotCack (s : State) (h : Hdr) : State :=
  match s.contributor h with
  | some (i, _) => if h.len = 0 then s else s.endOp i.n 0
  | none =>
    match s.ops fun _ o => !o.isWred && o.sends && o.job == h.job && o.step == h.step with
    | [] => s
    | (i, _) :: _ =>
      let c := h.chunk % 2 ^ 28
      s.onOp i.n fun y => { y with chunks := (List.range h.len).foldl (fun m k =>
        let q := Map.get ⟨0, 0, false⟩ m (c + k)
        if q.st = 1 then Map.set ⟨0, 0, false⟩ m (c + k) { q with st := 2 } else m) y.chunks }

/-! ### The rows WRED_CONTRIBUTE and WRED_REDUCE -/

/-- Links of a mask lie in groups of different SEPMODE (R483). -/
def State.mixedSep (s : State) (m : Nat) : Bool := let l := bitsSet 64 m
  l.any fun a => l.any fun b => (s.group (a / 8)).sepmode != (s.group (b / 8)).sepmode

/-- The checks of WRED that need no byte of a bucket record. -/
def State.wredPre (s : State) (i : Inst) : List Nat :=
  let r := i.wrRole
  let o := i.wrOp
  let red := r == 1 || r == 2
  let al := fun (k lo : Nat) => i.sv (i.f k lo 5) % 64 != 0
  when (i.f 0 26 6 != 0 || i.f 1 30 2 != 0 || i.b 2 22 || i.f 2 30 2 != 0 || i.f 3 16 16 != 0 || r == 3 || i.cls == 1
    || (r == 0 && (i.f 1 10 5 != 0 || i.f 1 20 5 != 0 || i.f 2 0 5 != 0 || i.f 2 25 5 != 0))
    || (r == 1 && (i.f 1 0 10 != 0 || i.f 1 25 5 != 0)) || (r == 2 && i.f 1 25 5 != 0)) Code.encoding
  ++ when (!s.weir.enable || (r != 1 && s.weir.id == 0xFF)) Code.state
  ++ when ((r != 1 && al 1 0) || (r == 0 && al 1 15) || (red && (al 1 10 || al 1 20)) || s.mixedSep (o.tx ||| o.rx)) Code.operand
  ++ when ((r == 0 && (bitsSet 64 o.tx).all s.linkFenced) || (red && o.rx != 0 && (bitsSet 64 o.rx).all s.linkFenced)) Code.fenced
  ++ when (o.len % 16448 != 0 || o.rlen % 16448 != 0 || (red && (decide (o.tiles < 64) || decide (4096 < o.tiles)))
    || (r == 0 && decide (4096 * 16448 < o.len)) || (r == 2 && o.len != 0 && o.len != o.rlen)) Code.shape

/-- The checks of WRED: those above, and of a reducing one those of its bucket record (R484). -/
def State.wredChecks (s : State) (i : Inst) : List Nat :=
  let w := i.outRec
  let red := i.wrRole == 1 || i.wrRole == 2
  s.wredPre i ++ when (red && w.rnd == 3) Code.encoding ++ when (red && w.rsv) Code.operand
  ++ when (red && w.finish && decide (10 < w.ofmt)) Code.format ++ when (red && w.finish && w.rnd == 2) Code.mode
  ++ when (red && [2, 3, 4, 6, 7].contains w.ofmt) Code.floor

/-- A contributing WRED is accepted. -/
def State.beginContribute (s : State) (i : Inst) : State :=
  let o := i.wrOp
  (s.onInst i.n fun y => { y with link := some o }).takeReady i.n

/-- A reducing WRED is accepted (R480): the bucket opens its record and sends READY, and the local contribution of ROLE 2 is
staged (log 49). A record that cannot be read opens no bucket (R499). -/
def State.beginReduce (s : State) (i : Inst) : State :=
  let o := i.wrOp
  let rd := s.readExt i.n false [] o.rb 16
  if rd.2.2 then rd.1
  else
    let b : Bucket := { job := o.job, bkt := o.step, inst := i.n, exclude := s.weir.nanPolicy }
    let s1 := rd.1.onInst i.n fun y => { y with link := some o }
    let s2 := { s1 with weir := { s1.weir with buckets := s1.weir.buckets ++ [b] } }
    let s3 := (s2.writeExt i.n (o.rb + 16) (b.record o.nc 1) false).sendReady i o (bitsSet 64 o.rx)
    if o.role != 2 then s3
    else
      let r := s3.readExt i.n false [.ext (o.rb + 256) o.len] o.src o.len
      let pair := leAt r.2.1 0 2 == 0x8000
      let c : Contrib := { id := s.weir.id, loc := true, slot := 0, kind := if pair then 2 else 1, nblk := if pair then leAt r.2.1 12 4 else 0 }
      let s4 := (r.1.markPoison i.n r.2.2).onBucket o.job o.step fun y => { y with contribs := [c] }
      (s4.writeExtFor (.stage o.job o.step) i.n (o.rb + 256) r.2.1 r.2.2).weirProgress o.job o.step

def wredRow (reduce : Bool) : TRow :=
  { TRow.plain 0x63 (if reduce then State.beginReduce else State.beginContribute) with
    form := fun w => (w.role == 1 || w.role == 2) == reduce
    doms := fun _ => [50]
    apb := fun i => if reduce && i.wrNc != 0 then some i.wrOp.rb else none
    pre := State.wredPre
    checks := State.wredChecks
    hold := fun s _ => if reduce && decide (32 ≤ (s.weir.buckets.filter fun b => !b.closed).length) then some .work else none
    zero := fun _ i => if reduce then i.wrNc == 0 || (i.wrRole == 2 && i.wrOp.len == 0) else i.wrOp.len == 0
    cost := fun s i => cdiv (cdiv (s.linkBytes i.wrOp) 10 * 4) (divOf s.pwr.cdivEff)
    dep := fun _ _ => 2 }

def execWredContribute (c : Fin 64) (w : Long) (s : State) : Out := issueTensor (wredRow false) c.val w s
def execWredReduce (c : Fin 64) (w : Long) (s : State) : Out := issueTensor (wredRow true) c.val w s

/-- The deadline of a bucket passes (R485). -/
def execBucketDeadline (job : BitVec 12) (bkt : W32) (s : State) : Out :=
  match s.bucket job.toNat bkt.toNat with
  | none => idle s
  | some b => match (s.inst b.inst).bind Inst.link with
    | none => idle s
    | some o => if b.started && !b.closed && decide (b.t0 + o.dl ≤ s.time.xclk) then .next (s.weirProgress job.toNat bkt.toNat) else idle s

/-- CSTATE of 16 contributors (R491, R493, R495): a contributor written DEAD leaves every open bucket. -/
def State.writeCstate (s : State) (w v : Nat) : State :=
  (List.range 16).foldl (fun s k =>
    let id := 16 * w + k
    let x := fld v (2 * k) 2
    if x = 3 then s
    else
      let s1 := { s with weir := { s.weir with cstate := Map.set 0 s.weir.cstate id x } }
      if x != 2 then s1
      else s1.weir.buckets.foldl (fun s b => match s.inst b.inst with
        | none => s
        | some i => match i.link with
          | none => s
          | some o =>
            if b.closed then s
            else
              let c := b.contribs.find? fun c => c.id == id
              let undecided := match c with
                | some c => c.verdict == 0
                | none => true
              if !undecided || b.dead.contains id then s
              else
                let s2 := s.onBucket b.job b.bkt fun y =>
                  { y with dead := id :: y.dead, contribs := y.contribs.map fun c => if c.id == id && c.verdict == 0 then { c with verdict := 6 } else c }
                let s3 := match c with
                  | some c => if c.loc then s2 else s2.nack i o c.link id 4
                  | none => s2
                s3.weirProgress b.job b.bkt) s1) s

def execCstateWrite (i : Fin 16) (v : W32) (s : State) : Out := .next (s.mgt (.cstateWrite i v) (some 50) fun s => s.writeCstate i.val v.toNat)

/-! ### TOPK (R397) -/

def Inst.tkX (i : Inst) : Desc := i.desc (i.f 1 0 5)
def Inst.tkRn (i : Inst) : Nat := i.f 1 5 5
def Inst.tkR (i : Inst) : Desc := i.desc i.tkRn
def Inst.tkK (i : Inst) : Nat := i.sv (i.f 2 0 5)

/-- The elements of a descriptor in index order. -/
def Desc.coords (d : Desc) : List Coord :=
  (List.range d.e3).flatMap fun c3 => (List.range d.e2).flatMap fun c2 => (List.range d.e1).flatMap fun c1 =>
    (List.range d.e0).map fun c0 => ⟨(c0 : Nat), (c1 : Nat), (c2 : Nat), (c3 : Nat)⟩

/-- Rank of a magnitude: NaN and infinities above every number. -/
def magKey : Ext → ℚ × Nat
  | .nan => (0, 2)
  | .inf _ => (0, 1)
  | x => (|x.toRat|, 0)

def magBefore (a b : Nat × Ext) : Bool :=
  let x := magKey a.2
  let y := magKey b.2
  if x.2 != y.2 then decide (y.2 < x.2) else decide (y.1 < x.1) || (decide (x.1 = y.1) && decide (a.1 ≤ b.1))

/-- The entry that is left of `e` after its rounded value is sent. -/
def Entry.left (e : Entry) (a : Int) (sent : Ext) : Entry :=
  match e.ext (some a), sent with
  | .fin _ _, .fin n m => { e with f := BitVec.ofInt 96 ((e.int : ℚ) - (if n then -m else m) * pow2 (72 - a)).floor }
  | .fin _ _, .inf neg => { e with pinf := neg, ninf := !neg }
  | _, _ => { e with f := 0, nan := true, pinf := false, ninf := false }

def State.topk (s : State) (i : Inst) : State :=
  let x := i.tkX
  let r := i.tkR
  let g := 64 * i.bays.headD 0
  let cs := x.coords
  let u := fun (y : Coord) => r.unit y.c0.toNat y.c1.toNat y.c2.toNat y.c3.toNat
  let aims := Tgt.ext (i.sa (i.f 1 10 5)) (8 * i.tkK) :: (dedupNat (cs.map u)).map fun k =>
    if r.loc = 1 then Tgt.bay (g / 64) (r.base + 16448 * k) 16448 else Tgt.ext (r.base + 16448 * k) 16448
  let fx := s.fetch i.n g true aims (dedupSpan (cs.flatMap x.spans))
  let fr := fx.1.fetch i.n g false aims (dedupSpan (cs.flatMap r.spans))
  let v := fr.2.1
  let wide := cs.any (r.wideBad v)
  let s0 := if wide then fr.1.instFault i.n { code := Code.fWideHeader, unit := 0x04, poison := true } else fr.1
  let bad := fx.2.2 || fr.2.2 || wide
  let slotOf := fun (y : Coord) => 32 * (y.c1.toNat % 32) + y.c0.toNat % 32
  let anch := fun (y : Coord) => (tileHeader ((List.range 64).map fun k => v.at r.loc (r.base + 16448 * u y + k))).anchorOf (slotOf y)
  let sums : List (Nat × Coord × Entry) := ((List.range cs.length).zip cs).map fun p =>
    let e := Entry.ofNat (v.nat r.loc (r.wideEntry (u p.2) (p.2.c1.toNat % 32) (p.2.c0.toNat % 32)) 16)
    let t := x.val fx.2.1 p.2
    let e' := match t with
      | .fin _ _ => e.put (e.plus (anch p.2) t.toRat) (i.draw i.tkRn p.1 0)
      | _ => e.tag t
    (p.1, p.2, e')
  let ranked := (sums.map fun p => (p.1, p.2.2.ext (some (anch p.2.1)))).mergeSort magBefore
  let top := ((ranked.take i.tkK).map Prod.fst).mergeSort (· ≤ ·)
  let out := top.flatMap fun e => match sums[e]? with
    | some p => natLe 4 e ++ natLe 4 (f32Bits (rn32 (p.2.2.ext (some (anch p.2.1)))))
    | none => []
  let s1 := (s0.markPoison i.n bad).writeExt i.n (i.sa (i.f 1 10 5)) out bad
  sums.foldl (fun s p =>
    let a := anch p.2.1
    let e := if top.contains p.1 then p.2.2.left a (rn32 (p.2.2.ext (some a))) else p.2.2
    let s2 := s.store i.n g r.loc (r.wideEntry (u p.2.1) (p.2.1.c1.toNat % 32) (p.2.1.c0.toNat % 32)) (natLe 16 e.nat) bad
    if e.inex then
      let h := r.base + 16448 * u p.2.1 + 4
      s2.store i.n g r.loc h ((s2.peek g r.loc h 1).map fun y => y ||| 2) bad
    else s2) s1

/-- The row TOPK (R397). -/
def topkRow : TRow :=
  { TRow.plain 0x64 State.topk with
    doms := fun _ => [50]
    checks := fun s i =>
      let x := i.tkX
      let r := i.tkR
      when (i.f 0 26 6 != 0 || i.f 1 15 17 != 0 || i.f 2 5 27 != 0 || i.f 3 8 24 != 0 || i.cls == 1) Code.encoding
      ++ descCodes [x, r] ++ when (decide (x.fmtCode < 8) || decide (10 < x.fmtCode) || r.fmtCode != 12) Code.format
      ++ when (!s.weir.enable) Code.state ++ when (!x.same r || decide (x.count < i.tkK)) Code.shape
    zero := fun _ i => i.tkK == 0
    addrs := fun _ i => lineSort (i.tkX.coords.flatMap i.tkX.spans) ++ lineSort (i.tkR.coords.flatMap i.tkR.spans)
      ++ linesOf 64 (i.sa (i.f 1 10 5)) (8 * i.tkK)
    dep := fun _ _ => 1 }

def execTopk (c : Fin 64) (w : Long) (s : State) : Out := issueTensor topkRow c.val w s

end Sys2Proof.Machine
end

