-- ==== Sys2Proof/Machine/Links.lean ====
section
/-!
DEFINITION. The rows of the Leat (R459 to R475): packets received and sent, replay, credits, link states, the
enables and the commit of a link group; and NMP_WRITE_ACK (R437), on which landings and folds go on.
-/

namespace Sys2Proof.Machine

/-! ### Framing and sequence (R467, R468) -/

/-- A field that the packet's TYPE does not allow (R461, R462, R468). -/
def badPacket (b : List Byte) : Bool :=
  let h := hdrOf b
  match h.typ with
  | 1 => decide (16 ≤ h.vcf) || h.vcf % 8 == 7 || decide (4096 < h.len) || decide (4096 ≤ h.job)
      || (if 3 ≤ h.vcf % 8 then fld h.chunk 12 8 != 0 || fld h.chunk 28 4 != 0 else bitOf h.chunk 31)
  | 2 => decide (4 ≤ h.vcf) || !zeroAt b 2 4
  | 3 => decide (16 ≤ h.vcf) || h.len != 0 || decide (4096 ≤ h.job) || bitOf h.chunk 31
  | 4 => decide (16 ≤ h.vcf) || decide (4096 < h.len) || decide (4096 ≤ h.job) || bitOf h.chunk 31
  | 5 => decide (16 ≤ h.vcf) || h.len != 0 || decide (4096 ≤ h.job) || fld h.chunk 12 8 != 0 || fld h.chunk 28 4 != 0
  | 6 => h.vcf != 0 || !zeroAt b 2 6 || decide (1024 ≤ leAt b 8 2) || decide (1024 ≤ leAt b 10 2) || decide (64 ≤ leAt b 12 1) || !zeroAt b 13 3
  | _ => true

/-- A packet of TYPE `typ` arrives on link `l`: a framing error is reported by NAK and what follows is ignored until
a SYNC beat. -/
def rxPacket (typ l : Nat) (b : List Byte) (err : Bool) (s : State) (f : State → Hdr → List Byte → State) : Out :=
  let x := s.link l
  if !s.linkOn l || (x.st != 1 && x.st != 2) || !x.up || x.ignoring then idle s
  else
    let h := hdrOf b
    let n := if h.typ = 1 then h.len else 0
    if err || badPacket b || b.length != 20 + n || crcBytes (b.take (16 + n)) != (b.drop (16 + n)).take 4 then
      .next (s.onLink l fun y => { y with frameErrs := holdAdd y.frameErrs 1, nakOwed := true, ctlDue := true, ignoring := true })
    else if h.typ != typ then idle s
    else .next (f s h ((b.drop 16).take n))

/-- A sequenced packet: taken in order, acknowledged again where it is old, NAKed where it is new (R468). One that is dropped
frees its cells (R464), as does one that reaches a link still in INIT, whose numbers start when it is UP (R470). -/
def rxSequenced (typ l : Nat) (b : List Byte) (err : Bool) (s : State) (f : State → Hdr → List Byte → State) : Out :=
  rxPacket typ l b err s fun s h pay =>
    let d := (h.seq + 2 ^ 16 - (s.link l).expSeq) % 2 ^ 16
    let cells := cellsOf pay.length
    if (s.link l).st != 2 then s.freeCells l (h.vcf % 8) cells
    else if d = 0 then
      let s1 := s.onLink l fun x => { x with expSeq := (x.expSeq + 1) % 2 ^ 16, rxPkts := holdAdd x.rxPkts 1,
                                             repSince := if x.repSince = 0 then s.time.xclk + 1 else x.repSince }
      f (if typ = 1 && decide (3 ≤ h.vcf % 8) && !s1.isOn 50 then s1 else s1.freeCells l (h.vcf % 8) cells) h pay
    else (s.freeCells l (h.vcf % 8) cells).onLink l fun x => { x with ctlDue := true, nakOwed := x.nakOwed || decide (d < 2 ^ 15) }

def execDataPacket (l : Fin 64) (b : List Byte) (err : Bool) (s : State) : Out :=
  rxSequenced 1 l.val b err s fun s h pay => if 3 ≤ h.vcf % 8 then s.toWeir l.val h pay else s.ringData l.val h pay

def execReady (l : Fin 64) (b : List Byte) (err : Bool) (s : State) : Out :=
  rxSequenced 3 l.val b err s fun s h _ => s.gotReady l.val h.job h.step

def execCack (l : Fin 64) (b : List Byte) (err : Bool) (s : State) : Out := rxSequenced 4 l.val b err s fun s h _ => s.gotCack h

def execNack (l : Fin 64) (b : List Byte) (err : Bool) (s : State) : Out := rxSequenced 5 l.val b err s fun s h _ => s.gotNack h

/-! ### Link states (R470) -/

/-- A link that becomes UP numbers its packets from 0. -/
def Link.goUp (x : Link) : Link :=
  if x.st = 1 && x.seenInit && x.initAcked then
    { x with st := 2, nextSeq := 0, expSeq := 0, unacked := [], replay := [], repCount := 0, held := [], vc0Q := [], initDue := false }
  else x

/-- A link that is DOWN: nothing is in progress on it. -/
def Link.down (x : Link) : Link :=
  { x with st := 0, seenInit := false, initAcked := false, nextSeq := 0, expSeq := 0, unacked := [], queue := [], replay := [],
           replayDue := false, initDue := false, ctlDue := false, nakOwed := false, ignoring := false, repCount := 0, repSince := 0,
           held := [], freed := [], vc0Q := [], part := [], rxPart := [], reread := none }

/-- An INIT whose cells lie in their ranges (R470, R475): another one is not valid and is ignored (log 136). -/
def validInit (b : List Byte) : Bool := decide (leAt b 8 2 ≤ 512) && leAt b 10 2 != 0 && decide (leAt b 10 2 ≤ 1016)

def execInit (l : Fin 64) (b : List Byte) (err : Bool) (s : State) : Out :=
  rxPacket 6 l.val b err s fun s _ _ => if !validInit b then s else
    let s1 := s.onLink l.val fun x =>
      ({ x with partner := leAt b 12 1, pvc0 := leAt b 8 2, pvcmax := leAt b 10 2, seenInit := true, ctlDue := true }).goUp
    s1.flushAll.shortLink l.val

/-- Replay every unacknowledged packet after a SYNC beat, or fence the link after RETRY_MAX replays (R469). -/
def State.startReplay (s : State) (l : Nat) : State :=
  if max 1 (s.group (l / 8)).retryMax ≤ (s.link l).repCount then s.dropLink l 1
  else s.onLink l fun x => { x with repCount := x.repCount + 1, replays := holdAdd x.replays 1, replayDue := true, reread := none, ackSince := s.time.xclk }

/-- Take `n` cells off the front of the VC0 list. -/
def takeCells : Nat → List (Option Nat × Nat) → List (Option Nat × Nat)
  | _, [] => []
  | n, q :: qs => if n = 0 then q :: qs else if n < q.2 then (q.1, q.2 - n) :: qs else takeCells (n - q.2) qs

/-- Cells returned for each virtual channel (R462). -/
def llctlCells (b : List Byte) : List Nat :=
  let w := leAt b 8 8
  [fld w 0 10, fld w 10 4, fld w 14 10, fld w 24 10, fld w 34 10, fld w 44 10, fld w 54 10]

def execLlctl (l : Fin 64) (b : List Byte) (err : Bool) (s : State) : Out :=
  rxPacket 2 l.val b err s fun s h _ =>
    let x := s.link l.val
    let first := match x.unacked with
      | p :: _ => leAt p.bytes 6 2
      | [] => 0
    let k := (h.seq + 2 ^ 16 + 1 - first) % 2 ^ 16
    let n := if k ≤ x.unacked.length && x.st == 2 then k else 0
    let cells := llctlCells b
    let s1 := s.onLink l.val fun y =>
      let z := { y with unacked := y.unacked.drop n, repCount := if 0 < n then 0 else y.repCount, ackSince := if 0 < n then s.time.xclk else y.ackSince,
                        replay := y.replay.filter fun p => (y.unacked.drop n).contains p,
                        held := (List.range 7).foldl (fun m v => Map.modify 0 m v (· - cells.getD v 0)) y.held,
                        vc0Q := takeCells (cells.getD 0 0) y.vc0Q, initAcked := y.initAcked || bitOf h.vcf 1 }
      z.goUp
    let s2 := if (s1.link l.val).st == x.st then s1 else s1.flushAll
    if !bitOf h.vcf 0 then s2
    else if (s2.link l.val).st == 2 then s2.startReplay l.val
    else s2.onLink l.val fun y => { y with replayDue := true }

/-- A lane trains or is lost (R470). -/
def execLnkUpChange (l : Fin 64) (up : Bool) (s : State) : Out :=
  let x := s.link l.val
  if x.up == up then idle s
  else
    let s1 := s.onLink l.val fun y => { y with up := up }
    if up then .next (s1.startLink l.val)
    else if x.st = 1 || x.st = 2 then .next (s1.dropLink l.val 0)
    else .next s1

/-- LINK_EN: a link newly enabled starts; one disabled goes DOWN and its fence clears (R470, R513). A 1 written wakes the
link's group (R536). -/
def State.writeLinkEn (s : State) (hi : Bool) (v : Nat) : State :=
  (List.range 32).foldl (fun s k =>
    let l := k + (if hi then 32 else 0)
    let on := bitOf v k
    if on && Map.get false s.leat.linkEn l then s.wakeDom (40 + l / 8)
    else if !on && !Map.get false s.leat.linkEn l && !Map.get false s.prot.linkF l then s
    else
      let s1 := { s with leat := { s.leat with linkEn := Map.set false s.leat.linkEn l on } }
      if on then (s1.wakeDom (40 + l / 8)).startLink l
      else
        let s2 := ((s1.onLink l fun x => { x with st := 0 }).moveAcks l).onLink l Link.down
        (({ s2 with prot := { s2.prot with linkF := Map.set false s2.prot.linkF l false } }).resendFrom l).sweepLinks) s

def execLinkEnWrite (hi : Bool) (v : W32) (s : State) : Out := .next (s.mgt (.linkEnWrite hi v) none fun s => s.writeLinkEn hi v.toNat)

/-- Check and apply a group's staged fields (R475). -/
def State.leatCommit (s : State) (g : Nat) : State :=
  let x := s.group g
  if ((List.range 8).any fun k => Map.get false s.leat.linkEn (8 * g + k)) || decide (512 < x.sVc0) || x.sVcmax == 0 || decide (1016 < x.sVcmax) then
    s.onGroup g fun y => { y with commitErr := true }
  else s.onGroup g fun y => { y with sepmode := y.sSepmode, vc0 := y.sVc0, vcmax := y.sVcmax, commitErr := false }

def execLeatCommit (g : Fin 8) (s : State) : Out := .next (s.mgt (.leatCommit g) (some (40 + g.val)) fun s => s.leatCommit g.val)

/-! ### Sending (R459, R466) -/

/-- The SYNC beat. -/
def syncBeat : List Byte := natLe 10 0xFE5C3A960F1E2D3C4B5A

/-- Send the LLCTL that is due. -/
def State.sendLlctl (s : State) (l : Nat) : State :=
  s.onLink l fun x =>
    let give := (List.range 7).map fun v => min (Map.get 0 x.freed v) (if v = 1 then 15 else 1023)
    let left := (List.range 7).foldl (fun m v => Map.modify 0 m v (· - give.getD v 0)) x.freed
    let at' := [0, 10, 14, 24, 34, 44, 54]
    let w := ((List.range 7).map fun v => give.getD v 0 * 2 ^ at'.getD v 0).sum
    let h := natLe 1 2 ++ natLe 1 (b2n x.nakOwed + 2 * b2n x.seenInit) ++ zeroBytes 4 ++ natLe 2 ((x.expSeq + 2 ^ 16 - 1) % 2 ^ 16) ++ natLe 8 w
    { x with freed := left, ctlDue := !left.isEmpty, nakOwed := false, repSince := if left.isEmpty then 0 else x.repSince, lastTx := h ++ crcBytes h }

/-- Send INIT. -/
def State.sendInit (s : State) (l : Nat) : State :=
  let g := s.group (l / 8)
  let h := natLe 1 6 ++ zeroBytes 7 ++ natLe 2 g.vc0 ++ natLe 2 g.vcmax ++ natLe 1 l ++ zeroBytes 3
  s.onLink l fun x => { x with initDue := false, initSince := s.time.xclk, lastTx := h ++ crcBytes h }

/-- Ask for a payload again whose instruction has ended, for the domain it was sent for: whether a read is denied (R469, R497). -/
def State.leatRead (s : State) (p : Pkt) (l a n : Nat) : State × Bool :=
  (linesOf 64 a n).foldl (fun q k =>
    if q.1.checkAcc p.dom p.clsA .rd k != .ok || q.1.portFenced (homePort k) then (q.1, true)
    else (q.1.queueRead p.dom p.clsA .leat k 64 false [.resend l], q.2)) (s, false)

/-- Send one packet of the replay: its payload is read again from memory first (R469). A payload that comes poisoned is not
sent, and the replay stays there (R517, log 137). -/
def State.sendReplay (s : State) (l : Nat) (p : Pkt) : State :=
  let send := fun (pay : List Byte) => s.onLink l fun x => { x with replay := x.replay.drop 1, reread := none, lastTx := p.bytes ++ pay ++ crcBytes (p.bytes ++ pay) }
  match p.src with
  | none => send []
  | some (a, n) =>
    match (s.link l).reread with
      | none =>
        let r := if (s.inst p.inst).isNone then s.leatRead p l a n
          else
            let q := s.readExt p.inst false [.resend l] a n
            (q.1, q.2.2)
        r.1.onLink l fun x => { x with reread := some r.2 }
      | some bad => if bad || s.tgtOut (.resend l) then s else send (s.extBytes a n)

/-- Virtual channels 2 to 6 in rotation after the last one served. -/
def vcOrder (last : Nat) : List Nat :=
  let k := if last < 2 then 6 else last
  [0, 1] ++ (List.range 5).map fun j => 2 + (k - 2 + 1 + j) % 5

def execPacketSend (l : Fin 64) (s : State) : Out :=
  let x := s.link l.val
  if !s.linkOn l.val || !x.up || (x.st != 1 && x.st != 2) then idle s
  else if x.ctlDue then .next (s.sendLlctl l.val)
  else if x.initDue && x.st == 1 then .next (s.sendInit l.val)
  else if x.replayDue then .next (s.onLink l.val fun y => { y with replayDue := false, replay := y.unacked, lastTx := syncBeat })
  else if x.st != 2 then idle s
  else match x.replay with
    | p :: _ => .next (s.sendReplay l.val p)
    | [] =>
      if 1024 ≤ x.unacked.length then idle s
      else
        let s1 := s.fetchChunks l.val
        match (vcOrder x.lastVc).findSome? (s1.sendVc l.val) with
        | some t => .next t
        | none => .next s1

/-! ### Timers -/

def State.replayTmo (s : State) (l : Nat) : Nat := max 1 (s.group (l / 8)).replayTmo

def execReplayTimeout (l : Fin 64) (s : State) : Out :=
  let x := s.link l.val
  if x.st = 2 && !x.unacked.isEmpty && decide (x.ackSince + s.replayTmo l.val ≤ s.time.xclk) then .next (s.startReplay l.val) else idle s

def execLlctlReportDeadline (l : Fin 64) (s : State) : Out :=
  let x := s.link l.val
  if x.repSince != 0 && !x.ctlDue && decide (x.repSince - 1 + 64 ≤ s.time.xclk) then .next (s.onLink l.val fun y => { y with ctlDue := true }) else idle s

def execInitResend (l : Fin 64) (s : State) : Out :=
  let x := s.link l.val
  if x.st = 1 && !x.initDue && decide (x.initSince + s.replayTmo l.val ≤ s.time.xclk) then .next (s.onLink l.val fun y => { y with initDue := true }) else idle s

def execReadyResend (n : Nat) (s : State) : Out :=
  match s.inst n with
  | none => idle s
  | some i => match i.link with
    | none => idle s
    | some o =>
      let due := (bitsSet 64 o.rx).filter fun l => s.live l && decide (Map.get 0 o.sent l - 1 + s.replayTmo l ≤ s.time.xclk)
      if (o.receives || (o.isWred && o.role != 0)) && !o.readyOut && !due.isEmpty then .next (s.sendReady i o due) else idle s

def execSyncBeatReceived (l : Fin 64) (s : State) : Out :=
  if (s.link l.val).ignoring then .next (s.onLink l.val fun x => { x with ignoring := false }) else idle s

/-! ### NMP_WRITE_ACK (R437, R472, R486) -/

/-- What a completed write lets go on: CACKs of landed chunks, folds of a bucket. -/
def State.afterWrite (s : State) (w : Why) : State := match w with
  | .land n _ _ => s.flushAcks n
  | .weir j k | .stage j k => s.weirProgress j k
  | _ => s

def execNmpWriteAck (p : Fin 32) (tag : Nat) (err : Bool) (s : State) : Out :=
  match s.ackWrite p.val tag err with
  | some (t, r) => .next (t.afterWrite r.why)
  | none =>
    if (s.port p.val).lateWr.contains tag then
      .next (State.offer p.val 8 (s.onPort p.val fun y => { y with lateWr := y.lateWr.erase tag, errs := if err then holdAdd y.errs 1 else y.errs }))
    else idle s

end Sys2Proof.Machine
end

