-- ==== Sys2Proof/Machine/Walks.lean ====
section
/-!
DEFINITION. The turns of the Page Walk Unit (R244, R246, R250, R256): every instruction that it serves waits in its queue for
a walk slot, for the edits of its sequence that were issued before it, and for room in the retire queue; then what it does
is done (log 34). The rows of those instructions, and the events that end a wait.
-/

namespace Sys2Proof.Machine

/-! ### Turns -/

/-- What is done for an instruction in its turn; whether nothing is left. An instruction whose parked request walks again
starts anew once it waits for no other page; attention walks those pages alone. -/
def State.runTurn (s : State) (i : Inst) : State × Bool :=
  if i.opc = 0x20 || i.opc = 0x21 then
    (if !i.again.isEmpty then s.rewalk i else if i.opc = 0x20 then s.attfOpen i else s.attbOpen i, true)
  else
    let left := i.parked.filter fun p => !i.again.contains p
    let s1 := if i.again.isEmpty then s else s.onInst i.n fun y => { y with parked := left, again := [] }
    if !left.isEmpty then (s1, true)
    else match i.opc with
      | 0x40 => s1.kvap i
      | 0x41 | 0x42 => s1.kvcm i
      | 0x45 => s1.pgcw i
      | 0x46 => if i.frLog then s1.pgfrLog i else s1.pgfr i
      | 0x47 => s1.pgpn i
      | 0x50 => (s1.bolt i, true)
      | 0x51 => (s1.bprf i, true)
      | _ => (s1.mvPages i, true)

/-- Send the reads that instruction `i` has come to in its turn `y`. The first level of a walk starts it, in a slot that the
later levels keep; the walk is counted, unless it is speculative (R280). -/
def State.sendRound (s : State) (i : Inst) (y : Turn) : State :=
  let s1 := s.onInst i.n fun z => { z with turn := { got := y.got.take y.done, wait := y.want, walk := y.walk, kills := y.kills } }
  let s2 := s1.onPwu fun p =>
    { p with walks := if y.walk = 1 && !i.spec then holdAdd p.walks 1 else p.walks,
             slots := (if y.walk = 0 then [] else [⟨i.n, i.cls == 1⟩]) ++ p.slots.filter fun x => x.inst != i.n }
  y.want.foldl (fun s l => s.queueRead i.dom (i.cls == 1) (.table i.n) l 64 false []) s2

/-- Give instruction `n` its turn, where it may have it. Its work is gone through as far as what the unit has read for it goes;
where it has lines to wait for, nothing of it counts but the pieces before them, and those lines are asked for. A
walk that starts needs a slot, and the instruction keeps its place while none is free (R244); pages that are all in the
translation buffers need no walk (R245). -/
def State.tryTurn (s : State) (n : Nat) : State :=
  match s.inst n with
  | none => s.leavePwu n
  | some i =>
    if s.editsFirst i || !i.turn.wait.isEmpty then s
    else
      let t := s.runTurn i
      match t.1.inst n with
      | none => t.1
      | some j =>
        let y := j.turn
        let rest := fun (p : Pwu) => p.slots.filter fun x => x.inst != n
        if y.want.isEmpty then
          (t.1.onInst n fun z => { z with turn := {} }).onPwu fun p =>
            { p with queue := if t.2 then p.queue.filter (· != n) else p.queue, slots := rest p }
        else
          let b := if i.pos < j.pos then t.1 else s
          if y.walk != 1 then b.sendRound i y
          else
            let u := b.onPwu fun p => { p with slots := rest p }
            if u.slotFree (i.cls == 1) then u.sendRound i y
            else u.onInst n fun z => { z with turn := { got := y.got.take y.done, kills := y.kills } }

/-- The instructions that wait have their turns: those whose walks are in progress, then those of Class A, then in order of
arrival (R244); again as long as slots or places become free. -/
def State.turns : Nat → State → State
  | 0, s => s
  | fuel + 1, s =>
    let isA := fun (n : Nat) => ((s.inst n).map fun i => i.cls == 1).getD false
    let s1 := ((s.pwu.slots.map WalkSlot.inst).filter s.pwu.queue.contains).foldl State.tryTurn s
    let t := (s1.pwu.queue.filter isA ++ s1.pwu.queue.filter fun n => !isA n).foldl State.tryTurn s1
    if t.pwu.queue.length = s.pwu.queue.length ∧ t.pwu.slots.length = s.pwu.slots.length then t else State.turns fuel t

/-- The Page Walk Unit goes on, while its domain is on (R535). -/
def State.pwuTurn (s : State) : State := if s.isOn 49 then s.turns 68 else s

/-- What an instruction asks memory for in its turn, as the tables stand (R359). -/
def State.turnReqs (s : State) (i : Inst) : List Req :=
  let t := (({ s with mem := { s.mem with gran := [] } }.accept { i with turn := { all := true } } true).runTurn { i with turn := { all := true } }).1
  ((t.mem.ports.flatMap fun q => q.2.allReqs).filter fun r => decide (s.mem.nextSeq ≤ r.seq)).mergeSort fun a b => decide (a.seq ≤ b.seq)

/-- The record that an instruction names, and the lines that the Page Walk Unit reads for it (R359, log 145). -/
def State.tableAddrs (s : State) (i : Inst) : List Nat :=
  s.recAddr (i.handle i.hnd).1 :: ((s.turnReqs i).filter fun r => r.why == .table i.n).map Req.addr

/-- The record, and every line that the Page Walk Unit reads and writes for an instruction (R359, log 145). -/
def State.editAddrs (s : State) (i : Inst) : List Nat := s.recAddr (i.handle i.hnd).1 :: (s.turnReqs i).map Req.addr

/-- KVAP's memory accesses (R359): its sources, then the record, tables and frames. -/
def State.kvapAddrs (s : State) (i : Inst) : List Nat :=
  i.apLines ++ s.recAddr (i.handle i.hnd).1 :: ((s.turnReqs i).filter fun r => r.wr || r.why == .table i.n || s.inFrames (s.recOf i).pool r.addr).map Req.addr

/-- An accepted instruction enters the queue. -/
def State.enter (s : State) (n : Nat) : State := (s.onPwu fun p => { p with queue := p.queue ++ [n] }).pwuTurn

/-- The 64 entries of the queue are taken: the instruction holds at issue (log 133). -/
def State.queueFull (s : State) : Option Hold := if 64 ≤ s.pwu.queue.length then some .work else none

/-- A row of the PWU: it names its sequence (R230, R344). -/
def pwuRow (opc : Nat) (form : Long → Bool) (effect : State → Inst → State) : TRow :=
  { TRow.plain opc effect with
    form := form
    doms := fun _ => [49]
    recs := fun i => [i.hnd]
    addrs := State.editAddrs
    prep := fun s i => s.nameSeq i i.hnd
    hold := fun s _ => s.queueFull
    dep := fun _ _ => 6 }

/-! ### KVAP (R382) -/

def kvapRow (spec : Bool) : TRow :=
  { pwuRow 0x40 (fun w => w.md 0 == spec) (fun s i => let need := s.kvapNeed i (s.recOf i); (s.reserve i need.1 need.2).enter i.n) with
    useLoop := true
    useBays := true
    prep := fun s i => { (s.nameSeq i.spread i.hnd) with spec := spec }
    checks := State.kvapChecks
    zero := fun _ i => i.apN == 0 || i.zeroRole i.rloop [0, 3]
    cost := fun s i => 8 + 2 * i.apN * ((s.pool (s.recOf i).pool).cfg.H)
    addrs := State.kvapAddrs }

def execKvap (c : Fin 64) (w : Long) (s : State) : Out := issueTensor (kvapRow false) c.val w s
def execKvapSpec (c : Fin 64) (w : Long) (s : State) : Out := issueTensor (kvapRow true) c.val w s

/-! ### KVCM and KVDS (R383) -/

def kvcmRow (opc : Nat) : TRow :=
  { pwuRow opc (fun _ => true) (fun s i => let need := s.kvcmNeed i (s.recOf i); (s.reserve i need.1 need.2).enter i.n) with
    checks := State.kvcmChecks
    hold := fun s i => if s.specBusy i then some .work else s.queueFull }

def execKvcm (c : Fin 64) (w : Long) (s : State) : Out := issueTensor (kvcmRow 0x41) c.val w s
def execKvds (c : Fin 64) (w : Long) (s : State) : Out := issueTensor (kvcmRow 0x42) c.val w s

/-! ### PGCW (R385) -/

def pgcwRow (k : Nat) : TRow :=
  { pwuRow 0x45 (pgcwIs k) (fun s i => let need := s.pgcwNeed i (s.recOf i); ((s.reserve i need.1 need.2).openSession i).enter i.n) with
    checks := State.pgcwChecks
    zero := fun _ i => i.np == 0 }

def execPgcwCopy (c : Fin 64) (w : Long) (s : State) : Out := issueTensor (pgcwRow 0) c.val w s
def execPgcwPromote (c : Fin 64) (w : Long) (s : State) : Out := issueTensor (pgcwRow 1) c.val w s
def execPgcwDemote (c : Fin 64) (w : Long) (s : State) : Out := issueTensor (pgcwRow 2) c.val w s
def execPgcwProtect (c : Fin 64) (w : Long) (s : State) : Out := issueTensor (pgcwRow 3) c.val w s
def execPgcwUnprotect (c : Fin 64) (w : Long) (s : State) : Out := issueTensor (pgcwRow 4) c.val w s
def execPgcwDigest (c : Fin 64) (w : Long) (s : State) : Out := issueTensor (pgcwRow 5) c.val w s

/-! ### PGFR (R386) -/

/-- The row PGFR (R252). -/
def pgfrRow : TRow :=
  { pwuRow 0x46 (fun w => !w.md 1) (fun s i => let need := s.pgfrNeed i (s.recOf i); (s.reserve i need.1 need.2).enter i.n) with
    checks := State.pgfrChecks
    zero := fun _ i => !i.frAll && i.np == 0 }

def execPgfr (c : Fin 64) (w : Long) (s : State) : Out := issueTensor pgfrRow c.val w s

/-- The row PGFR_LOG (R261). -/
def pgfrLogRow : TRow :=
  { TRow.plain 0x46 (fun s i => s.enter i.n) with
    form := fun w => w.md 1
    doms := fun _ => [49]
    addrs := fun s i => (s.turnReqs i).map Req.addr
    checks := State.pgfrChecks
    hold := fun s _ => s.queueFull
    dep := fun _ _ => 6 }

def execPgfrLog (c : Fin 64) (w : Long) (s : State) : Out := issueTensor pgfrLogRow c.val w s

/-! ### PGPN (R387) -/

def pgpnRow : TRow :=
  { pwuRow 0x47 (fun _ => true) (fun s i => (s.reserve i (s.pgpnNeed i) 0).enter i.n) with
    recs := fun i => [i.hnd, i.aux4]
    prep := fun s i => { (s.nameSeq i i.hnd) with seq2 := some (i.handle i.aux4) }
    checks := State.pgpnChecks
    zero := fun _ i => i.np == 0 }

def execPgpn (c : Fin 64) (w : Long) (s : State) : Out := issueTensor pgpnRow c.val w s

/-! ### BOLT and BPRF (R388, R389) -/

/-- Name the sequence, with S and W of the context at issue (R272). -/
def State.nameBolt (s : State) (i : Inst) : Inst := { (s.nameSeq i i.hnd) with sink := (s.cx i.ctx).sink, win := (s.cx i.ctx).win }

def boltRow : TRow :=
  { TRow.plain 0x50 (fun s i => (s.openSession i).enter i.n) with
    doms := fun _ => [49]
    recs := fun i => [i.hnd]
    prep := fun s i => s.nameBolt i
    checks := State.boltChecks
    hold := fun s i => if s.boltFull i then some .work else s.queueFull
    zero := fun _ i => i.blG == 0 || i.blT == 0 || i.blHk == 0
    cost := fun s i => let k := s.boltCounts i; cdiv (k.1 * i.blHk) 256 + 64 + cdiv (k.2 * i.blHk) 16
    addrs := fun s i =>
      let r := s.recOf i
      let c := s.poolOf i
      let x := s.cx i.ctx
      let pg := (List.range (s.pagesIn r)).filterMap fun p => match s.look r i.layer p with
        | .pte e => some (Pte.addr e)
        | _ => none
      s.tableAddrs i ++ (List.range i.blHk).flatMap fun g =>
        lineSort ((List.range (i.blG * i.blT)).flatMap fun k => i.blQ.anySpans ⟨0, (g * (i.blG * i.blT) + k : Nat), 0, 0⟩ c.d)
        ++ pg.flatMap (fun a => linesOf 64 (a + 32 + (i.blKh + g) * c.d) c.d)
        ++ linesOf 64 (i.sa (i.f 1 5 5) + g * lstride (x.sink + x.win + i.blN)) (lstride (s.boltCounts i).2)
    dep := fun _ _ => 5 }

def execBolt (c : Fin 64) (w : Long) (s : State) : Out := issueTensor boltRow c.val w s

def bprfRow : TRow :=
  { TRow.plain 0x51 (fun s i => (s.openSession i).enter i.n) with
    doms := fun _ => [49]
    recs := fun i => [i.hnd]
    prep := fun s i => { (s.nameBolt i) with spec := true }
    checks := State.boltChecks
    hold := fun s _ => s.queueFull
    zero := fun _ i => i.blHk == 0
    addrs := fun s i =>
      let n := (s.selAt (i.sa (i.f 1 0 5))).ents.length
      s.tableAddrs i ++ (List.range i.blHk).flatMap fun g => linesOf 64 (i.sa (i.f 1 0 5) + g * lstride n) (lstride n) ++ linesOf 64 (i.sa (i.f 1 5 5) + g * lstride n) (lstride n)
    dep := fun _ _ => 5 }

def execBprf (c : Fin 64) (w : Long) (s : State) : Out := issueTensor bprfRow c.val w s

/-! ### MOV (R390) -/

def movRow : TRow :=
  { TRow.plain 0x58 (fun s i =>
      if i.mvPaged then (s.openSession i).enter i.n else i.mvRows.foldl (fun s x => if s.badGather i.n then s else s.mvRow i x) s) with
    useLoop := true
    useBays := true
    doms := fun i => if i.mvPaged then [49] else []
    recs := fun i => if i.mvPaged then [i.hnd] else []
    hold := fun s i => if i.mvPaged then s.queueFull else none
    prep := fun s i => if i.mvPaged then s.nameSeq i i.hnd else i.spread
    checks := State.movChecks
    zero := fun _ i => (i.mvPaged && i.np == 0) || i.zeroRole i.rloop [0, 3]
    cost := fun s i => if i.mvPaged then cdiv (i.np * 4096 * (s.pool (s.recOf i).pool).fstride) 64
      else i.rowCost i.mvRows fun _ r => cdiv (r * rowBytes i.mvDst i.mvLen) 64
    addrs := fun s i =>
      if i.mvPaged then
        let r := s.recOf i
        let n := 4096 * (s.pool r.pool).fstride
        let m := (s.pool r.pool).cfg.bytes
        s.tableAddrs i ++ (List.range i.np).flatMap fun k => (match s.look r i.layer (i.pg + k) with
          | .pte e => linesOf 64 (Pte.addr e) m
          | _ => []) ++ (if i.mvDst.loc = 0 then linesOf 64 (i.mvDst.base + k * n) m else [])
      else if i.mvTra then i.cores.flatMap fun g =>
        let mine := i.mvRows.filter fun x => x.g == g
        lineSort (mine.flatMap fun x => (List.range i.mvLen).flatMap fun k => i.mvSrc.spans (turned true (i.mvSrcAt x) k))
        ++ lineSort (mine.flatMap fun x => i.mvDst.anySpans (i.dstAt i.mvDst x) i.mvLen)
      else i.laneAddrs i.mvRows [(i.mvSrc, i.mvLen)] [(i.mvDst, i.mvLen)] (if i.mvGath then [i.mvIdx] else [])
    dep := fun _ i => if i.mvPaged || i.mvGath then 2 else 1 }

def execMov (c : Fin 64) (w : Long) (s : State) : Out := issueTensor movRow c.val w s

/-! ### ATTF (R372) -/

/-- The read of the parameter block, whose content the instruction has captured (R369): through the Granary (R448). -/
def State.readApb (s : State) (i : Inst) : State := (s.readExt i.n true [] (parAddr i) 64).1

def attfRow : TRow :=
  { TRow.plain 0x20 (fun s0 i => let s := s0.readApb i; if i.paged then (s.openSession i).enter i.n else s.attfWork i) with
    useLoop := true
    useSlot := true
    useBays := true
    apb := fun i => some (parAddr i)
    doms := fun i => if i.paged then [49] else []
    recs := fun i => if i.paged then [i.hnd] else []
    prep := fun s i =>
      let j := (s.captureBias i).spread' fun b => spanF (i.ap.d / 32) (max 2 (s.sAv i b))
      let k := { j with spec := i.atSpec }
      if i.paged then s.nameSeq k i.hnd else k
    pre := fun s i => s.attWords i ++ i.attfWords
    checks := State.attfChecks
    hold := fun s i => if i.paged then s.queueFull else none
    zero := State.attZero
    cost := State.attfCost
    addrs := fun s i => (if i.paged then s.tableAddrs i else []) ++ s.attfAddrs i
    dep := fun _ i => if i.paged then 5 else 1 }

def execAttf (c : Fin 64) (w : Long) (s : State) : Out := issueTensor attfRow c.val w s

/-! ### ATTB (R373) -/

def attbRow : TRow :=
  { TRow.plain 0x21 (fun s0 i => let s := s0.readApb i; if i.paged then (s.openSession i).enter i.n else s.attbWork i) with
    useLoop := true
    useSlot := true
    useBays := true
    apb := fun i => some (parAddr i)
    doms := fun i => if i.paged then [49] else []
    recs := fun i => if i.paged then [i.hnd] else []
    prep := fun s i =>
      let j := (s.captureBias i).spread' fun b => min 8 (1 + followB (i.ap.d / 32) (max 2 (s.sAv i b)))
      if i.paged then s.nameSeq j i.hnd else j
    pre := fun s i => s.attWords i ++ i.attbWords
    checks := State.attbChecks
    hold := fun s i => if i.paged then s.queueFull else none
    zero := State.attZero
    cost := State.attbCost
    addrs := fun s i => (if i.paged then s.tableAddrs i else []) ++ s.attbAddrs i
    dep := fun _ i => if i.paged then 5 else 1 }

def execAttb (c : Fin 64) (w : Long) (s : State) : Out := issueTensor attbRow c.val w s

/-! ### Events -/

/-- A read return (R436, R441). A return of a read that timed out is discarded (R443). The Page Walk Unit goes on with what has come. -/
def execNmpReadReturn (p : Fin 32) (tag : Nat) (err : Bool) (s : State) : Out :=
  let x := s.port p
  match x.rdOut.find? fun r => r.tag == tag with
  | none => if x.lateRd.contains tag then
      .next (State.offer p 8 (s.onPort p fun y => { y with lateRd := y.lateRd.filter (· != tag), errs := if err then holdAdd y.errs 1 else y.errs })) else idle s
  | some r =>
    let s1 := s.onPort p fun y =>
      { y with rdOut := y.rdOut.filter (fun q => q.tag != tag), errs := if err then holdAdd y.errs 1 else y.errs }
    let s2 := s1.completeRead r (if err then some Code.fMemError else none)
    .next s2.offerAll.pwuTurn

/-- A request of port `p` has waited TMO MCLK cycles (R443): the port is fenced, its outstanding reads
complete as poisoned data, and late returns will be discarded. -/
def execPortTimeout (p : Fin 32) (wr : Bool) (tag : Nat) (s : State) : Out :=
  let x := s.port p
  match (if wr then x.wrOut else x.rdOut).find? fun r => r.tag == tag with
  | none => idle s
  | some r =>
    if s.mem.tmo = 0 || s.time.mclk < r.since + s.mem.tmo then idle s
    else
      let s2 := s.timeoutReport p wr tag r
      let y := s2.port p
      let gone := y.wrOut.filter fun q => wr && q.tag == tag
      let s3 := s2.onPort p fun z =>
        { z with rdOut := [], lateRd := z.lateRd ++ z.rdOut.map Req.tag,
                 wrOut := z.wrOut.filter (fun q => !(wr && q.tag == tag)), lateWr := z.lateWr ++ gone.map Req.tag }
      let s4 := y.rdOut.foldl (fun s r => s.completeRead r (some (if !wr && r.tag == tag then Code.fPortTimeout else Code.fPortFenced))) s3
      let s5 := gone.foldl (fun s r => s.completeWrite r (some Code.fPortTimeout)) s4
      .next (s5.drainPort p).pwuTurn

def execParkAbort (s : State) : Out := .next (s.mgt .parkAbort (some 49) fun s => s.parkAbort.pwuTurn)

end Sys2Proof.Machine
end

