-- ==== Sys2Proof/Machine/Engine.lean ====
section
/-!
DEFINITION. Work in progress (R117, R118, R146, R335, R418 to R421): which pass or drain of a core is ready, which
one starts, and the end of a tensor instruction.
-/

namespace Sys2Proof.Machine

/-! ### What an item needs -/

/-- The instruction keeps its accumulators in row-anchored form over a span of cores. -/
def Inst.isAtt (i : Inst) : Bool := i.opc == 0x20 || i.opc == 0x21 || i.opc == 0x22

/-- The lead of an item's sliver, and the slots the item may touch. -/
def Inst.leadOf (i : Inst) (w : Work) : Nat := if i.isAtt then ((i.sliverOf w).map Sliver.g).getD w.core else w.core
def Inst.touches (i : Inst) (w : Work) : List (Nat × Nat) :=
  if i.isAtt then
    let g := i.leadOf w
    (List.range (Map.get 1 i.span (g / 64))).flatMap fun k => (List.range (6 - i.slot)).map fun z => (g + k, i.slot + z)
  else w.slots.map fun k => (w.core, k)

/-- Items of the list that come before `w`. -/
def before (w : Work) : List Work → List Work
  | [] => []
  | x :: xs => if x = w then [] else x :: before w xs

def meet (a b : List (Nat × Nat)) : Bool := a.any b.contains

/-- A read whose data is for one of the slots has not returned. -/
def State.awaits (s : State) (ts : List (Nat × Nat)) : Bool :=
  s.mem.ports.any fun p => p.2.allReqs.any fun r => !r.wr && r.tgt.any fun t => match t with
    | .slot g k => ts.contains (g, k)
    | _ => false

/-- Nothing keeps the operands of an item from being fetched: its cores run, its page is there, its batch is released. -/
def State.fetchable (s : State) (i : Inst) (w : Work) : Bool :=
  (dedupNat (w.core :: (i.touches w).map Prod.fst)).all (fun g => s.isOn (g / 64) && !s.coreFenced g)
  && !(i.batch.any fun h => s.sluice.batches.any fun b => b.head == h)
  && !(decide (20 ≤ w.ix.headD 0) && ((i.keyTiles[w.ix.getD 3 0]?).map i.waitsPage).getD false && w.pass)

/-- A GATE drain between its halves works on one of the slots: nothing enters them until its second half has read them (R119). -/
def State.betweenHalves (s : State) (ts : List (Nat × Nat)) : Bool :=
  s.instList.any fun j => j.work.any fun x => !x.pass && x.rows == 2 && meet (j.touches x) ts

/-- The item may start once its operands are there: nothing before it in its instruction or its context works on the
same slots, and an instruction's passes, and its drains, keep their order on a core (R84, R85, R304); no slot is held in
row-anchored form by another instruction (R146), nor between the halves of a drain (R119); and what was read for its slots has
come, with its poison (R93, R122, R441; DESIGN CHOICE, log 103). A NORM, RSTAT or other ATTF on the lead between two key tiles of
an ATTF is not held: it overwrites the row statistics that they share (R63, R145; DESIGN CHOICE, log 151). -/
def State.itemReady (s : State) (i : Inst) (w : Work) : Bool :=
  let ts := i.touches w
  s.fetchable i w
  && !((before w i.work).any fun x => x.ix.headD 0 == 28 || (x.core == w.core && x.pass == w.pass)
    || if i.isAtt then i.leadOf x == i.leadOf w else meet (i.touches x) ts)
  && ((!w.pass && w.rows == 2) || !s.betweenHalves ts)
  && !(s.instList.any fun j => j.ctx == i.ctx && decide (j.n < i.n) && j.work.any fun x => meet (j.touches x) ts)
  && ts.all (fun q => !(s.slot q.1 q.2).rowForm || i.wrote.contains q)
  && !s.awaits ts

/-- The item can run on the array named: outside a chained instruction on either (R64). -/
def Inst.fits (i : Inst) (w : Work) (bed : Bool) : Bool := (w.ix.headD 0 == 0 && !i.isMmc) || w.bed == bed

/-- The item's next pass, or the drain, is of this core, and of this array. -/
def Inst.starts (i : Inst) (w : Work) (g : Nat) (pass bed : Bool) : Bool := w.pass == pass && match w.parts with
  | p :: _ => p.core == g && p.bed == bed
  | [] => w.core == g && (!pass || i.fits w bed)

/-- The ready items of a core, at most one of each instruction. -/
def State.readyItems (s : State) (g : Nat) (pass bed : Bool) : List (Inst × Work) := s.instList.filterMap fun i =>
  ((i.work.find? fun w => i.starts w g pass bed).filter (s.itemReady i)).map fun w => (i, w)

/-- An operand of the item has not come yet (R70). -/
def State.operandsOut (s : State) (ms : List Mate) (w : Work) : Bool :=
  s.mem.ports.any fun p => p.2.allReqs.any fun r => !r.wr && r.tgt.any fun t => match t with
    | .work n g ix _ => g == w.core && ix == w.ix && ms.any fun m => m.1.n == n
    | _ => false

/-- The item is a drain with epilogues, which takes the general path of its core's lanes (R193). -/
def Inst.usesLanes (i : Inst) (w : Work) : Bool := i.epi && ([1, 2, 4] : List Nat).contains (w.ix.headD 0)

/-- The ready drain-path items of a core; between the halves of a GATE drain only Class A may take the path (R419), and while a
chained instruction holds the softmax stage no epilogue of another runs (R193). -/
def State.readyDrains (s : State) (g : Nat) : List (Inst × Work) :=
  let l := (s.readyItems g false false).filter fun q => !s.operandsOut [(q.1, 0)] q.2 && !(q.1.usesLanes q.2 && s.stageHeld g q.1.n)
  if l.any fun q => q.2.rows == 2 then l.filter fun q => q.2.rows == 2 || q.1.cls == 1 else l

/-! ### Choosing (R418, R420, R421) -/

/-- The least of a list under a strict order. -/
def leastBy {α : Type} (lt : α → α → Bool) : List α → Option α
  | [] => none
  | x :: xs => some (xs.foldl (fun a y => if lt y a then y else a) x)

def State.prioA (s : State) (i : Inst) : Nat × Nat := let r := s.rv (i.resv.getD 0); (r.cfg.d, r.aseq)

def State.beforeA (s : State) (a b : Inst × Work) : Bool :=
  let x := s.prioA a.1
  let y := s.prioA b.1
  decide (x.1 < y.1) || (decide (x.1 = y.1) && (decide (x.2 < y.2) || (decide (x.2 = y.2) && decide (a.1.n < b.1.n))))

def State.beforeB (s : State) (a b : Inst × Work) : Bool :=
  let x := (s.cx a.1.ctx).vtime
  let y := (s.cx b.1.ctx).vtime
  decide (x < y) || (decide (x = y) && (decide (a.1.ctx < b.1.ctx) || (decide (a.1.ctx = b.1.ctx) && decide (a.1.n < b.1.n))))

def beforeC (a b : Inst × Work) : Bool := decide (a.1.n < b.1.n)

/-- The item that starts next, and whether Class C waits behind a Class B item. -/
def State.choose (s : State) (l : List (Inst × Work)) (gap : Nat) : Option (Inst × Work) × Bool :=
  let b := l.filter fun q => q.1.cls == 2
  let c := l.filter fun q => 3 ≤ q.1.cls
  match leastBy s.beforeA (l.filter fun q => q.1.cls == 1) with
  | some q => (some q, false)
  | none =>
    if s.sluice.cGap != 0 && decide (s.sluice.cGap ≤ gap) && !c.isEmpty then (leastBy beforeC c, false)
    else match leastBy s.beforeB b with
      | some q => (some q, !c.isEmpty)
      | none => (leastBy beforeC c, false)

/-- The members of the item's batch that share it (R428). -/
def State.matesOf (s : State) (i : Inst) (w : Work) : List Mate :=
  match i.batch with
  | none => [(i, 0)]
  | some h => (s.instList.filter fun j => j.batch == some h && j.work.any fun x => x.core == w.core && x.pass == w.pass && x.ix == w.ix).map
      fun j => (j, Map.get 0 j.rowOff w.core)

/-- The members' own copies of an item. -/
def sameItem (w x : Work) : Bool := x.core == w.core && x.pass == w.pass && x.ix == w.ix

/-- Take the item out of the work of its instruction and of its batch. -/
def State.takeItem (s : State) (ms : List Mate) (w : Work) : State :=
  ms.foldl (fun s m => s.onInst m.1.n fun y =>
    { y with work := match y.work.find? fun x => x.core == w.core && x.pass == w.pass && x.ix == w.ix with
      | some x => y.work.erase x
      | none => y.work }) s

/-- The next item of each core in an instruction's work: its first pass and its first drain. -/
def Inst.heads (i : Inst) : List Work := i.work.foldl (fun l w => if l.any fun x => x.core == w.core && x.pass == w.pass then l else l ++ [w]) []

/-- The contexts with ready Class B work, by the issue of the oldest. -/
def State.readyClassB (s : State) : List Nat :=
  dedupNat ((s.instList.filter fun i => i.cls == 2 && i.heads.any fun w =>
    s.itemReady i w && (let ms := s.matesOf i w
      (!w.pass || ms.all fun m => m.1.work.all fun x => !sameItem w x || x.fetched) && !s.operandsOut ms w)).map Inst.ctx)

/-- At a boundary: a context whose Class B work has become ready since the last one, after none was, sets its virtual time to
the largest of its own and the smallest of the contexts that have ready Class B work (R420; taken in order of issue where
several have, DESIGN CHOICE, log 152). -/
def State.rebase (s : State) : State :=
  let now := s.readyClassB
  let old := s.sluice.readyB.filter now.contains
  let r := (now.filter fun c => !old.contains c).foldl (fun (acc : State × List Nat) c =>
    (match acc.2 with
      | [] => acc.1
      | d :: ds => acc.1.onCx c fun x => { x with vtime := max x.vtime (ds.foldl (fun a k => min a (acc.1.cx k).vtime) (acc.1.cx d).vtime) },
     c :: acc.2)) (s, old)
  r.1.onSluice fun q => { q with readyB := now }

/-- Charge a Class B context's virtual time. -/
def State.chargeB (s : State) (i : Inst) (cycles : Nat) : State :=
  if i.cls != 2 then s
  else s.onCx i.ctx fun x => { x with vtime := x.vtime + (cycles : ℚ) * 256 / (max 1 x.weight : Nat) }

/-! ### PASS_START -/

/-- Run one pass, or the passes of a chained or key tile (log 123). -/
def State.runPass (s : State) (i : Inst) (ms : List Mate) (w : Work) (bed : Bool) : State :=
  match w.ix.headD 0 with
  | 0 => s.mmPass ms w.core w bed
  | 3 => s.mmcChain i w.core w
  | 20 => s.attfPass i w
  | _ => s.attbPass i w

/-- How the members' reads reach the operand buffer from now on. -/
def State.stageAs (s : State) (ms : List Mate) (st : Staging) : State := ms.foldl (fun s m => s.onInst m.1.n fun y => { y with staging := st }) s

/-- The members of a pass as the state holds them. -/
def State.matesNow (s : State) (ms : List Mate) (cut : Option Nat) : List Mate :=
  ms.map fun m => ({ (s.inst m.1.n).getD m.1 with cut := cut }, m.2)

/-- Every core that a relayed tile reaches with the item has a free half of its staging buffer (R300): at most one pass
of the instruction on it comes before. -/
def Inst.tileFree (i : Inst) (w : Work) : Bool :=
  !i.relays || (i.work.filter fun y => y.core / 64 == w.core / 64 && y.pass && i.tileKey y == i.tileKey w).all fun y =>
    decide (((before y i.work).filter fun z => z.core == y.core && z.pass && z.bed == y.bed).length ≤ 1)

/-- What a fetch has brought for an item. -/
def Staging.got (st : Staging) (x : Work) : List Held := match st with
  | .fetching _ _ got => (got.filter fun q => q.1 == x.core && q.2.1 == x.ix).map fun q => q.2.2
  | _ => []

/-- Ask for the operands of an item (R70, R299): every read that its pass makes is sent, and what it reads goes into the
staging half of the operand buffer, a relayed tile into that of every core with the item (R91, log 120). -/
def State.fetchItem (s : State) (i : Inst) (w : Work) : State :=
  let ms := s.matesOf i w
  let s1 := s.stageAs ms (.fetching w.core w.ix [])
  let t := s1.runPass ((s1.inst i.n).getD i) (s1.matesNow ms none) w w.bed
  let tile := (w.core / 64, i.tileKey w)
  ms.foldl (fun s m => s.onInst m.1.n fun y =>
    let st := ((t.inst y.n).map Inst.staging).getD .off
    { y with staging := .off,
             work := y.work.map (fun x => { x with fetched := x.fetched || sameItem w x, held := if x.pass then x.held ++ st.got x else x.held }),
             relayed := if y.relays && !y.relayed.contains tile then tile :: y.relayed else y.relayed }) (s1.takeReads t)

/-- Ask for the operands of the ready items of an array that have not been asked for. -/
def State.fetchReady (s : State) (g : Nat) (bed : Bool) : State :=
  (s.readyItems g true bed).foldl (fun s q =>
    match s.inst q.1.n with
    | some i => if (i.work.any fun x => sameItem q.2 x && !x.fetched) && i.tileFree q.2 then s.fetchItem i q.2 else s
    | none => s) s

/-- While a pass runs, bay dispatch fetches the operands of the next pass of its instruction (R299). -/
def State.fetchNext (s : State) (n g : Nat) : State :=
  match s.inst n with
  | none => s
  | some i => match i.work.find? fun w => w.core == g && w.pass with
    | none => s
    | some w => if w.fetched || !i.tileFree w || !s.fetchable i w then s else s.fetchItem i w

/-- The ready passes of an array whose operands have come. -/
def State.loadedItems (s : State) (g : Nat) (bed : Bool) : List (Inst × Work) :=
  (s.readyItems g true bed).filter fun q =>
    let ms := s.matesOf q.1 q.2
    (ms.all fun m => m.1.work.all fun x => !sameItem q.2 x || x.fetched) && !s.operandsOut ms q.2

/-- The streamed rows of an item's next pass, and of the passes of its tile that have started. -/
def Work.nextRows (w : Work) : Nat := match w.parts with
  | p :: _ => p.rows
  | [] => w.rows
def Work.doneRows (w : Work) : Nat := match w.parts with
  | [] => 0
  | ps => w.rows - (ps.map Part.rows).sum

/-- A pass of the item's tile has started and is not its last. -/
def State.dropPart (s : State) (ms : List Mate) (w : Work) : State := ms.foldl (fun s m => s.onInst m.1.n fun y =>
  { y with work := y.work.map fun x => if sameItem w x then { x with parts := x.parts.tail } else x }) s

/-- Run a chosen pass with its operands in the staging region. -/
def State.runStaged (s : State) (i : Inst) (w : Work) (bed : Bool) (cut : Option Nat) : State :=
  let ms := s.matesOf i w
  let mine := ms.flatMap fun m => m.1.work.filter (sameItem w)
  let bad := mine.flatMap fun x => x.bad ++ x.held.flatMap Held.bad
  let rows := (mine.map Work.nextRows).sum
  let s1 := ((s.chargeB i (rows + 8)).takeItem ms w).stageAs ms (.staged bad (mine.flatMap Work.held))
  (s1.runPass { (s1.inst i.n).getD i with cut := cut } (s1.matesNow ms cut) w bed).stageAs ms .off

/-- Start the chosen pass on an array of core `g`; `cut` is the number of its rows that still write where a core fault
stops it (R518). The passes of a chained or key tile start one by one, each boundary with its own choice (R418); what they write
is written with the last of them (log 123). A Class A start leaves the count of R421 as it is. The state after it, with the
instruction and the item that ran. -/
def State.startPass (s : State) (g : Nat) (bed : Bool) (cut : Option Nat) : State × Option (Inst × Work) :=
  let key := 2 * g + b2n bed
  let s0 := (s.fetchReady g bed).rebase
  let ch := s0.choose (s0.loadedItems g bed) (Map.get 0 s0.sluice.gap key)
  match ch.1 with
  | none => (s0, none)
  | some (i, w) =>
    let s1 := s0.onSluice fun q => { q with gap :=
      if i.cls == 1 then q.gap else if i.cls == 2 && ch.2 then Map.modify 0 q.gap key (· + 1) else Map.set 0 q.gap key 0 }
    if decide (1 < w.parts.length) && cut.isNone then
      ((s1.chargeB i (w.nextRows + 8)).dropPart (s1.matesOf i w) w, some (i, w))
    else ((s1.runStaged i w bed (cut.map (· + w.doneRows))).fetchNext i.n g, some (i, w))

def execPassStart (core : Fin 2048) (bed : Bool) (s : State) : Out := .next (s.startPass core.val bed none).1.runLanes

/-! ### DRAIN_START -/

def State.runDrainItem (s : State) (i : Inst) (ms : List Mate) (w : Work) : State :=
  match w.ix.headD 0 with
  | 1 | 2 => s.mmDrain ms w.core w
  | 4 => s.runDrain i w
  | 5 => s.runZero w
  | 6 => s.runSave i w
  | 7 => s.runLoad i w
  | 21 => s.attfDrain i w
  | 23 => s.attbDrain i w
  | 24 => s.attbPart i w
  | 28 => s.attmTest i w
  | _ => s.attmMerge i w

/-- A GATE drain (R216). -/
def Work.gates (w : Work) : Bool := decide (2 ≤ w.slots.length) && decide (w.ix.headD 0 < 5)

/-- CCLK cycles on the drain path: 72 for a GATE drain, 40 and then 32 for its halves; clearing a slot is no drain (R115). -/
def Work.drainCycles (w : Work) : Nat :=
  if w.ix.headD 0 = 28 || w.ix.headD 0 = 5 then 0 else if !w.gates || w.rows = 1 then 40 else if w.rows = 2 then 32 else 72

/-- The drain item runs in two halves: a GATE drain of a lower class on a bay with Class A enabled (R419). -/
def State.halves (s : State) (i : Inst) (w : Work) : Bool := w.gates && i.cls != 1 && s.aOn (w.core / 64) && w.rows == 0

/-- The second half of an item stays in its members' work. -/
def State.leaveHalf (s : State) (ms : List Mate) (w : Work) : State :=
  ms.foldl (fun s m => s.onInst m.1.n fun y => { y with work := y.work.map fun x => if sameItem w x then { x with rows := 2 } else x }) s

def execDrainStart (core : Fin 2048) (s : State) : Out :=
  let s := s.rebase
  match (s.choose (s.readyDrains core.val) 0).1 with
  | none => idle s
  | some (i, w) =>
    let ms := s.matesOf i w
    if s.halves i w then
      let w1 := { w with rows := 1 }
      .next (((s.chargeB i w1.drainCycles).leaveHalf ms w).runDrainItem i ms w1)
    else .next (((s.chargeB i w.drainCycles).takeItem ms w).runDrainItem i ms w).runLanes

/-! ### TENSOR_INSTRUCTION_END -/

/-- An earlier load of the same kind on a bay of this one has not committed. -/
def State.loadsBefore (s : State) (i : Inst) : Bool :=
  s.instList.any fun j => decide (j.n < i.n) && j.opc == i.opc && (i.opc != 0x30 || j.fnLoad) && j.bays.any i.bays.contains

/-- An item of an instruction's work that writes memory: drains, saves, merges, not array passes. -/
def Work.writes (w : Work) : Bool := !([0, 3, 5, 7, 20, 22] : List Nat).contains (w.ix.headD 0)

/-- The instruction may still write memory by work it has not done: drains, tokens and frames that wait in the PWU, chunks
to land, its part of a bucket. -/
def State.stillWrites (s : State) (i : Inst) : Bool :=
  i.work.any Work.writes || !i.parked.isEmpty || s.pwu.queue.contains i.n || !(i.link.all LinkOp.done)
  || s.weir.buckets.any fun b => b.inst == i.n

/-- Memory writes that the context issued before instruction `n` are not all made and acknowledged (R247). -/
def State.writesBefore (s : State) (c n : Nat) : Bool :=
  let mine : Nat → Bool := fun m => decide (m < n) && (match s.inst m with | some j => j.ctx == c | none => false)
  let old : Why → Bool := fun y => match y with
    | .tensor m | .land m _ _ => mine m
    | .weir j k => s.weir.buckets.any fun b => b.job == j && b.bkt == k && mine b.inst
    | _ => false
  (s.instList.any fun j => j.ctx == c && decide (j.n < n) && s.stillWrites j)
  || s.mem.ports.any fun p => (p.2.allReqs.any fun r => r.wr && old r.why) || (p.2.allAtoms.any fun a => old a.why)

/-- Every part of the instruction's work is done. -/
def State.mayEnd (s : State) (i : Inst) : Bool :=
  i.opc != 0x72 && i.work.isEmpty && !i.laneDue && i.parked.isEmpty && !s.pwu.queue.contains i.n && !s.outstanding i.n && (i.link.all LinkOp.done)
  && !(i.opc == 0x30 && i.fnLoad && (!s.loadReady i true || s.loadsBefore i))
  && !(i.opc == 0x23 && (!s.loadReady i false || s.loadsBefore i))
  && !(i.opc == 0x43 && s.writesBefore i.ctx i.n)

/-- What an instruction does at its end, before its record. Parked requests that a KVIV or PROMOTE covers walk again (R256). -/
def State.lastActs (s : State) (i : Inst) : State :=
  let s1 := match i.link with
    | some o => s.endOp i.n o.received
    | none => s
  let s2 := if i.opc = 0x30 && i.fnLoad then s1.commitImage i else if i.opc = 0x23 then s1.commitBias i else s1
  let s3 := if (i.opc = 0x41 || i.opc = 0x42) && i.faults.isEmpty then s2.kvcmEnd i else s2
  let s4 := (s3.unreserve i).parkEnd i
  if i.isAtt then s4.freeRowForm i.n i.wrote else s4

def execTensorInstructionEnd (n : Nat) (s : State) : Out :=
  match s.inst n with
  | none => idle s
  | some i => if s.mayEnd i then .next ((s.lastActs i).finishInst n).settle.pwuTurn.runLanes else idle s

end Sys2Proof.Machine
end

