-- ==== Sys2Proof/Machine/Hopper.lean ====
section
/-!
DEFINITION. Command intake: bundles (R328 to R331, R450 to R453), the window a bundle opens (R403), and injection by
firmware (R349). A Hopper fault also writes a completion record of KIND 6 (R344, R346; log 51).
-/

namespace Sys2Proof.Machine

/-! ### Bundles (R328) -/

def bNw (b : BitVec 512) : Nat := bByte b 2
def bSeq (b : BitVec 512) : Nat := fld b.toNat 32 16
def bWord (b : BitVec 512) (k : Nat) : W32 := BitVec.ofNat 32 (fld b.toNat (64 + 32 * k) 32)

/-- A reserved byte of the header is nonzero; CTX [7:4] counts as one. -/
def bReserved (b : BitVec 512) : Bool := decide (16 ≤ bByte b 0) || bByte b 3 != 0 || fld b.toNat 48 16 != 0

/-- The context that a bundle of channel `ch` names (R320). -/
def bCtx (ch : Nat) (b : BitVec 512) : Nat := 16 * ch + bByte b 0 % 16

/-! ### Faults of the Hopper -/

/-- The record of KIND 6 for a context whose ring is set up and has room. -/
def State.hopRec (s : State) (c code : Nat) : State :=
  let x := s.cx c
  if x.cfg.cmplSize < 4 || x.ringFull || !s.isOn (51 + c / 16) then s else s.writeRec c false { kind := 6, code := code }

/-- An error record of the Hopper, and the record of KIND 6 where a context is named. -/
def State.hopErr (s : State) (c : Option Nat) (code detail : Nat) : State :=
  let s1 := s.logErr { code := code, unit := 0x07, ctx := c, detail := detail }
  match c with
  | none => s1
  | some c => s1.hopRec c code

/-- Return one credit (R450, R451). -/
def State.hopCredit (s : State) (ch : Nat) : State :=
  (s.onChan ch fun x => { x with credits := min 16 (x.credits + 1) }).onPins fun q =>
    { q with hopCredit := Map.modify 0 q.hopCredit ch (· + 1) }

/-! ### Appending (R331) -/

/-- The words overwrite none at or after the next issue position. -/
def Ctx.fits (x : Ctx) (n : Nat) : Bool := n == 0 || decide (sdiff (x.newest + n) x.nextPos ≤ 1024)

/-- Append the words of a bundle to a context. -/
def State.append' (s : State) (c : Nat) (b : BitVec 512) : State :=
  (s.onCx c fun x =>
    { x with window := Map.setMany 0 x.window ((List.range (bNw b)).map fun k => ((x.newest + k) % 2 ^ 32 % 1024, bWord b k)),
             newest := (x.newest + bNw b) % 2 ^ 32 }).wakeLadder (51 + c / 16)

/-- A bundle that R329 discards once it is accepted. -/
def State.bundleBad (s : State) (c : Nat) (b : BitVec 512) (owned : Bool) : Bool :=
  let x := s.cx c
  bKind b != 0 || decide (14 < bNw b) || bReserved b || !x.enable || x.cfg.fwOwned != owned || s.ctxFenced c

/-- HOP_RDY of a channel (R453, R538). -/
def State.hopRdy (s : State) (ch : Nat) : Bool := (s.chan ch).rdy && s.isOn 48 && (s.dom (51 + ch)).state != 4

/-- The bundle of context `c` is held behind another of the same context. -/
def Channel.holds (x : Channel) (ch c : Nat) : Bool := x.held.any fun b => bCtx ch b == c

/-- An APPEND, or a bundle of a reserved KIND (R329, R331, R403, R451, R452). -/
def State.bundle (s : State) (ch : Nat) (b : BitVec 512) : State :=
  let c := bCtx ch b
  let x := s.chan ch
  let s0 := s.onChan ch fun y => { y with credits := y.credits - 1 }
  if 16 ≤ x.held.length then s0.hopErr (some c) Code.fHopOverrun ch
  else if !x.inSeq || bSeq b != x.exp then
    ((s0.onChan ch fun y => { y with inSeq := false }).hopErr (some c) Code.fBundleSeq x.exp).hopCredit ch
  else
    -- accepted, though it may be discarded (R329): the Sluice learns of it in the next SCLK cycle (R403, R404)
    let s2 := (s0.onChan ch fun y => { y with exp := (y.exp + 1) % 2 ^ 16 }).tellSluice c
    if s.bundleBad c b false then (s2.hopErr (some c) Code.fBundle ch).hopCredit ch
    else
      if (s.cx c).fits (bNw b) && !x.holds ch c then (s2.append' c b).hopCredit ch
      else (s2.onChan ch fun y => { y with held := y.held ++ [b] }).wakeLadder (51 + ch)

def execBundleAppend (ch : Fin 4) (b : BitVec 512) (s : State) : Out :=
  if bKind b = 1 then .refused .otherRow
  else if !s.hopRdy ch.val then idle s
  else .next (s.bundle ch.val b)

/-- A RESYNC (R329): accepted whatever its BSEQ; its context is not interpreted. -/
def State.resync (s : State) (ch : Nat) (b : BitVec 512) : State :=
  let s0 := s.onChan ch fun y => { y with credits := y.credits - 1 }
  if 16 ≤ (s.chan ch).held.length then s0.hopErr none Code.fHopOverrun ch
  else
    let s1 := s0.onChan ch fun y => { y with exp := (bSeq b + 1) % 2 ^ 16, inSeq := true }
    let bad := bNw b != 0 || decide (16 ≤ bByte b 0) || bByte b 3 != 0 || fld b.toNat 48 16 != 0
    (if bad then s1.hopErr none Code.fBundle ch else s1).hopCredit ch

def execBundleResync (ch : Fin 4) (b : BitVec 512) (s : State) : Out :=
  if bKind b ≠ 1 then .refused .otherRow
  else if !s.hopRdy ch.val then idle s
  else .next (s.resync ch.val b)

/-! ### Held bundles -/

/-- The first held bundle, in order of arrival, that is the oldest of its context and can leave its buffer. -/
def State.leaves (s : State) (ch : Nat) : List Nat → List (BitVec 512) → Option (BitVec 512)
  | _, [] => none
  | seen, b :: bs =>
    let c := bCtx ch b
    if !seen.contains c && (s.ctxFenced c || ((s.cx c).enable && (s.cx c).fits (bNw b))) then some b
    else s.leaves ch (c :: seen) bs

/-- The bundle of an injection that context `c` takes or discards (R349). -/
def State.injectNow (s : State) (c : Nat) (b : BitVec 512) : State :=
  if s.bundleBad c b true then s.hopErr (some c) Code.fBundle (c / 16 + 256) else s.append' c b

/-- The Hopper takes an injection: of one for a context of firmware's it tells the Sluice (R403); one without room for its words is
held as an APPEND is (R331). -/
def State.takeInject (s : State) (c : Nat) (b : BitVec 512) : State :=
  let s1 := if (s.cx c).cfg.fwOwned then s.tellSluice c else s
  if !s.bundleBad c b true && ((s.hop.injHeld.any fun q => q.1 == c) || !(s.cx c).fits (bNw b)) then
    { s1 with hop := { s1.hop with injHeld := s1.hop.injHeld ++ [(c, b)] } }.wakeLadder (51 + c / 16)
  else s1.injectNow c b

/-- The first injected bundle held for a cluster that is the oldest of its context and can leave its buffer. -/
def State.injLeaves (s : State) (ch : Nat) : List Nat → List (Nat × BitVec 512) → Option (Nat × BitVec 512)
  | _, [] => none
  | seen, q :: qs =>
    if q.1 / 16 == ch && !seen.contains q.1 && (s.bundleBad q.1 q.2 true || (s.cx q.1).fits (bNw q.2)) then some q
    else s.injLeaves ch (q.1 :: seen) qs

/-- A held bundle enters its context's window, or is discarded where its context has been fenced (R513); so does an
injected one; one that waited for the Hopper is taken first (R542). -/
def execHeldBundleRelease (ch : Fin 4) (s : State) : Out :=
  if !s.isOn 48 then idle s
  else match s.hop.injWait.find? fun q => q.1 / 16 == ch.val with
  | some q => .next ({ s with hop := { s.hop with injWait := s.hop.injWait.erase q } }.takeInject q.1 q.2)
  | none => match s.leaves ch.val [] (s.chan ch.val).held with
    | none => match s.injLeaves ch.val [] s.hop.injHeld with
      | none => idle s
      | some q => .next ({ s with hop := { s.hop with injHeld := s.hop.injHeld.erase q } }.injectNow q.1 q.2)
    | some b =>
      let c := bCtx ch.val b
      let s1 := s.onChan ch.val fun y => { y with held := y.held.erase b }
      .next (if s.ctxFenced c then (s1.hopErr (some c) Code.fBundle ch.val).hopCredit ch.val
        else (s1.append' c b).hopCredit ch.val)

/-! ### Injection (R349) -/

/-- The bundle in the injection registers. -/
def Hop.bundle (h : Hop) : BitVec 512 :=
  BitVec.ofNat 512 (((List.range 16).map fun k => (Map.get 0 h.inj k).toNat * 2 ^ (32 * k)).sum)

/-- A write of INJECT. With the Hopper not on, the bundle waits at the management port while it wakes (R542).
HELD_BUNDLE_RELEASE of the context's cluster takes and releases what waits (log 50). -/
def State.inject (s : State) (v : Nat) : State :=
  let c := fld v 0 6
  let b := s.hop.bundle
  if !s.isOn 48 || s.hop.injWait.any fun q => q.1 == c then
    let t := s.wakeDom 48
    { t with hop := { t.hop with injWait := t.hop.injWait ++ [(c, b)] } }
  else s.takeInject c b

def execInject (v : W32) (s : State) : Out := .next (s.mgt (.inject v) none fun s => s.inject v.toNat)

end Sys2Proof.Machine
end

