-- ==== Sys2Proof/Machine/Control.lean ====
section
/-!
DEFINITION. Control of single units: contexts (R347), the counters that firmware clears (R58, R289), AccM access modes
and debug reads (R128, R131, R132), fences set and cleared by firmware (R513 to R515), the error log's consumed count
(R521), faults that the hardware detects (R518, R524) and the test instruments (R511).
-/

namespace Sys2Proof.Machine

/-! ### Contexts (R347) -/

/-- ENABLE; a context that may now issue returns its cluster to RUN (R538). -/
def State.ctxEnable (s : State) (c : Nat) (on : Bool) : State :=
  let t := s.onCx c fun x => { x with enable := on }
  if on then t.stir (51 + c / 16) else t

/-- The registers of R320 and R321 at reset, the window and the return stack empty. -/
def Ctx.cleared (x : Ctx) : Ctx :=
  { x with s := [], p := [], t := [], l := [], e := [], h := [], seed := 0, issueSeq := 0, defClass := 2, lastErr := 0, err := false,
           window := [], nextPos := 0, newest := 0, stack := [], code := none, codeBuf := [], callSpos := 0, run := .going,
           hold := .none, scalar := none, recBad := none }

/-- An outstanding scalar access of the context serves nothing any more. -/
def State.orphan (s : State) (c : Nat) : State :=
  let f : List Req → List Req := fun l => l.map fun r => if r.why = .scalar c then { r with why := .pwu } else r
  s.onPorts fun x => { x with waiting := f x.waiting, rq := f x.rq, wr := f x.wr, rdOut := f x.rdOut, wrOut := f x.wrOut }

/-- RESET: ignored while ENABLE = 1. It clears the context's fence, but not while its domain is fenced (R513). -/
def State.ctxReset (s : State) (c : Nat) : State :=
  if (s.cx c).enable then s
  else
    let s1 := (s.orphan c).onCx c Ctx.cleared
    { s1 with prot := { s1.prot with ctxF := Map.set false s1.prot.ctxF c (s1.ctxFenced c && Map.get false s1.prot.domF (s1.cx c).domain) } }

/-- RESUME: in STOPPED or HALTED, clear ERR and go on. -/
def State.ctxResume (s : State) (c : Nat) : State :=
  let x := s.cx c
  if x.run == .going || s.ctxFenced c then s
  else (s.onCx c fun y => { y with run := .going, err := false, hold := .none }).wakeLadder (51 + c / 16)

/-- COMMIT of a context: rejected while ENABLE = 1, for a CMPL_SIZE outside 4 to 16, or a nonzero alignment bit. -/
def State.ctxCommit (s : State) (c : Nat) : State :=
  let x := s.cx c
  let g := x.staged
  if x.enable || decide (g.cmplSize < 4) || decide (16 < g.cmplSize) || g.cmplBase % 64 != 0 || g.consAddr % 8 != 0 then
    s.onCx c fun y => { y with commitErr := true }
  else s.onCx c fun y => { y with cfg := g, commitErr := false }

/-- The cluster's power domain of a context. -/
def clusterDom (c : Nat) : Option Nat := some (51 + c / 16)

def execCtxEnable (c : Fin 64) (on : Bool) (s : State) : Out := .next (s.mgt (.ctxEnable c on) (clusterDom c) fun s => s.ctxEnable c on)
def execCtxReset (c : Fin 64) (s : State) : Out := .next (s.mgt (.ctxReset c) (clusterDom c) fun s => s.ctxReset c)
def execCtxResume (c : Fin 64) (s : State) : Out := .next (s.mgt (.ctxResume c) (clusterDom c) fun s => s.ctxResume c)
def execCtxCommit (c : Fin 64) (s : State) : Out := .next (s.mgt (.ctxCommit c) (clusterDom c) fun s => s.ctxCommit c)

/-! ### Counters (R58, R289) -/

/-- Zero a stream counter set and ESCALATED. -/
def State.streamClear (s : State) (c strm : Nat) : State :=
  s.onCx c fun x => { x with streams := Map.set {} x.streams strm {} }

def execStreamClear (c : Fin 64) (strm : Fin 16) (s : State) : Out := .next (s.mgt (.streamClear c strm) (clusterDom c) fun s => s.streamClear c strm)

/-- Zero a context's three speculation counters. -/
def State.bolterClear (s : State) (c : Nat) : State :=
  s.onCx c fun x => { x with specDiscarded := 0, groupsConfirmed := 0, draftsCommitted := 0 }

def execBolterClear (c : Fin 64) (s : State) : Out := .next (s.mgt (.bolterClear c) (some 49) fun s => s.bolterClear c)

/-! ### AccM of a bay (R128, R131, R132) -/

/-- A write of RECOVERY; ignored in START and TEST. -/
def State.writeRecovery (s : State) (b v : Nat) : State :=
  s.onBy b fun x => if x.mode = 1 ∨ x.mode = 3 then x else { x with recovery := bitOf v 2, mode := if bitOf v 2 then 2 else 0 }

def execRecoveryWrite (b : Fin 32) (v : W32) (s : State) : Out := .next (s.mgt (.recoveryWrite b v) (some b) fun s => s.writeRecovery b v.toNat)

/-- DEBUG_VIS of a bay (R511). -/
def State.debugVis (s : State) (b : Nat) : Bool := bitOf s.prot.dbgEn.toNat b

/-- A read of ACCM_DBG_D0 latches the four data registers. UNANCHORED of an entry in a QUAD slot is its sub-slot's
(DESIGN CHOICE, log 111). -/
def State.dbgSample (s : State) (b : Nat) : State :=
  let x := s.by b
  let k := fld x.dbgAddr 6 3
  let y := s.slot (64 * b + fld x.dbgAddr 0 6) k
  let n := fld x.dbgAddr 9 10
  let e := y.entry n
  let f := if 5 < k then 0 else e.f.toNat
  let d3 := if 5 < k then 0 else
    b2n e.nan + 2 * b2n e.pinf + 4 * b2n e.ninf + 8 * b2n e.inex + 16 * wrapInt 10 ((y.anchorOf n).getD (-512))
    + 2 ^ 14 * b2n (y.anchorOf n).isNone + 2 ^ 15 * b2n y.poisoned + 2 ^ 16 * (y.owner % 16)
  if s.debugVis b || x.mode == 3 then
    s.onBy b fun z => { z with dbgD0 := BitVec.ofNat 32 f, dbgD1 := BitVec.ofNat 32 (f / 2 ^ 32), dbgD2 := BitVec.ofNat 32 (f / 2 ^ 64),
                               dbgD3 := BitVec.ofNat 32 d3 }
  else s.onBy b fun z => { z with dbgD0 := 0, dbgD1 := 0, dbgD2 := 0, dbgD3 := 0 }

/-! ### Fences by firmware (R513 to R515) -/

/-- Units that a fence of the scope can name. -/
def fenceUnits : Nat → Nat
  | 1 => 2048
  | 2 | 3 => 32
  | 4 | 5 => 64
  | 6 => 2 ^ 16
  | 7 => 16
  | _ => 0

/-- What a fenced port or link gives up at once (R444, R470). -/
def State.afterFence (s : State) (scope index : Nat) : State :=
  match scope with
  | 3 => s.drainPort index
  | 4 => ((s.resendFrom index).moveAcks index).sweepLinks
  | _ => s

/-- FENCE_SET. The fence of a link is also reported with FAULT.LINK_DOWN, cause firmware (R470, R524). -/
def State.fenceSet (s : State) (v : Nat) : State :=
  let scope := fld v 0 4
  let index := fld v 8 16
  let gen := fld v 24 8
  if fenceUnits scope ≤ index || s.isFenced scope index gen then s
  else
    let s1 := if scope = 4 then
        s.logErr { code := Code.fLinkDown, scope := 4, unit := 0x05, index := index, first := true, detail := 2 }
      else s
    let dom := if scope = 6 then (s.seqRec index).dom % 16 else 0
    (s1.fence scope index gen 0 dom).afterFence scope index

def execFenceSet (v : W32) (s : State) : Out := .next (s.mgt (.fenceSet v) none fun s => s.fenceSet v.toNat)

/-- FENCE_CLR, ignored in the cycle in which the unit's fence landed (R515): a core that no instruction in flight names, a sequence, or a domain; anything else is ignored. -/
def State.fenceClr (s : State) (v : Nat) : State :=
  let index := fld v 8 16
  let gen := fld v 24 8
  if s.prot.landed.contains (fld v 0 4, index, if fld v 0 4 = 6 then gen else 0) && s.prot.landedAt == s.time.nclk + 1 then s
  else match fld v 0 4 with
  | 1 =>
    if index < 2048 && Map.get false s.prot.coreF index && !(s.instList.any fun i => i.spans index) then
      let s1 := { s with prot := { s.prot with coreF := Map.set false s.prot.coreF index false } }
      s1.onCo index fun x => { x with slots := [], obTag := [] }
    else s
  | 6 => { s with prot := { s.prot with seqF := s.prot.seqF.filter fun q => q.2 != some (index, gen) } }
  | 7 => if index < 16 then { s with prot := { s.prot with domF := Map.set false s.prot.domF index false } } else s
  | _ => s

def execFenceClr (v : W32) (s : State) : Out := .next (s.mgt (.fenceClr v) none fun s => s.fenceClr v.toNat)

/-! ### The error log (R521) -/

/-- A write of ELOG_CONS that lies more than 4,096 behind ELOG_HEAD, or ahead of it, is ignored. -/
def State.writeCons (s : State) (v : Nat) : State :=
  if 4096 < (s.log.head + 2 ^ 32 - v % 2 ^ 32) % 2 ^ 32 then s else s.onLog fun l => { l with cons := v % 2 ^ 32 }

def execElogConsWrite (v : W32) (s : State) : Out := .next (s.mgt (.elogConsWrite v) none fun s => s.writeCons v.toNat)

/-! ### Detected errors (R518, R524) -/

/-- The core fault: `n` is the instruction whose pass it stopped. -/
def State.coreFault (s : State) (g store slot : Nat) (n : Option Nat) : State :=
  let e : Err := { code := Code.fCoreError, scope := 1, unit := 0x10 + g / 64, index := g, poison := n.isSome, detail := store + 8 * slot }
  match n with
  | none => s.report e 0
  | some n => s.instFault n e

/-- An uncorrectable error in a store of a core. With `mid`, it stops the core's next ready pass after that many rows:
the slots the pass writes are poisoned, and its instruction raises the fault. -/
def execCoreErrorDetect (core : Fin 2048) (store : Fin 5) (slot : Fin 6) (mid : Option Nat) (s : State) : Out :=
  let g := core.val
  if !s.isOn (g / 64) then idle s
  else match mid with
    | none => .next (s.coreFault g store slot none)
    | some k =>
      let p := s.startPass g false (some k)
      let p := if p.2.isSome then p else s.startPass g true (some k)
      match p with
      | (_, none) => idle s
      | (t, some (i, w)) =>
        let hit := (i.touches w).filter fun q => q.1 == g
        .next ((hit.foldl (fun s q => s.poisonTgt (.slot q.1 q.2)) t).coreFault g store slot (some i.n))

/-- An uncorrectable error in a bay's dispatch state. -/
def execBayErrorDetect (b : Fin 32) (s : State) : Out :=
  if !s.isOn b then idle s
  else .next (s.report { code := Code.fBayError, scope := 2, unit := 0x10 + b, index := b } 0)

/-! ### Test instruments of a bay (R511, log 12) -/

/-- What an instrument of a bay reads. -/
def State.tapRead (s : State) (b : Nat) : TapTarget → W32
  | .entry c k e w =>
    let x := (s.slot (64 * b + c) k).entry e
    if w.val < 3 then BitVec.ofNat 32 (x.f.toNat / 2 ^ (32 * w.val))
    else BitVec.ofNat 32 (b2n x.nan + 2 * b2n x.pinf + 4 * b2n x.ninf + 8 * b2n x.inex)
  | .bayByte off => (Map.get 0 (s.by b).mem off.toNat).zeroExtend 32
  | .obByte c off => (Map.get 0 (s.co (64 * b + c)).ob off.toNat).zeroExtend 32
  | _ => 0

/-- What an instrument of a bay writes. -/
def State.tapWrite (s : State) (b : Nat) (t : TapTarget) (v : W32) : State :=
  match t with
  | .entry c k e w =>
    s.onSlot (64 * b + c) k fun x =>
      { x with ent := Map.modify {} x.ent e fun y =>
        if w.val < 3 then { y with f := BitVec.ofNat 96 (setFld y.f.toNat (32 * w.val) 32 v.toNat) }
        else { y with nan := bitOf v.toNat 0, pinf := bitOf v.toNat 1, ninf := bitOf v.toNat 2, inex := bitOf v.toNat 3 } }
  | .bayByte off => s.onBy b fun x => if off.toNat < 6291456 then { x with mem := Map.set 0 x.mem off.toNat (v.truncate 8) } else x
  | .obByte c off =>
    s.onCo (64 * b + c) fun x => if off.toNat < 98304 then { x with ob := Map.set 0 x.ob off.toNat (v.truncate 8) } else x
  | _ => s

end Sys2Proof.Machine
end

