-- ==== Sys2Proof/Machine/Flags.lean ====
section
/-!
DEFINITION. The relations and predicate functions of CMP and PLOG (R325): the block has no arithmetic
flags; predicates p0 to p7 are what a comparison leaves.
-/

namespace Sys2Proof.Machine

/-- The relations of CMP by code; 6 and 7 are reserved. -/
def cmpRel (k : Nat) (a b : Word) : Bool :=
  match k with
  | 0 => a == b
  | 1 => a != b
  | 2 => a.slt b
  | 3 => !a.slt b
  | 4 => a.ult b
  | _ => !a.ult b

/-- The functions of PLOG by code. -/
def plogFn (k : Nat) (a b : Bool) : Bool :=
  match k with
  | 0 => a && b
  | 1 => a || b
  | 2 => a != b
  | _ => a && !b

end Sys2Proof.Machine
end

