-- ==== Sys2Proof/Machine/Scalar.lean ====
section
/-!
DEFINITION. The short instructions (R325) in a context, and in the Miller for those it executes (R348).
Each row has one meaning; contexts and the Miller share the register operations.
-/

namespace Sys2Proof.Machine

/-! ### The Miller's frame (R348, R509) -/

/-- Bytes of the local store (R507). -/
def millerSize : Nat := 0xC000

/-- The Miller can execute: firmware started, not held in reset, not halted or waiting, its domain on. -/
def State.millerRuns (s : State) : Bool :=
  let m := s.miller
  m.started && !m.inReset && !m.halted && !m.waiting && s.isOn 55

/-- The word at the Miller's instruction address; `none` outside the local store. -/
def State.millerWord (s : State) : Option W32 :=
  let a := s.miller.pc
  if a + 4 ≤ millerSize then some (BitVec.ofNat 32 (leNat ((List.range 4).map fun k => Map.get 0 s.miller.store (a + k)))) else none

def State.onMiller (s : State) (f : Miller → Miller) : State := { s with miller := f s.miller }

/-- A Miller fault (R509): the record, and the restart at the fault entry with s1 and s2. -/
def State.millerFault' (s : State) (cause : Nat) : State :=
  let a := s.miller.pc
  let s1 := s.logErr { code := Code.fMiller, unit := 0x08, detail := cause }
  s1.onMiller fun m =>
    { m with pc := m.faultEntry, s := regWrite (regWrite m.s 1 (BitVec.ofNat 64 cause)) 2 (BitVec.ofNat 64 a), waiting := false }

def Miller.next (m : Miller) : Miller := { m with pc := (m.pc + 4) % 2 ^ 32 }

/-- Opcodes the Miller does not execute (R348). -/
def millerExcluded (o : Nat) : Bool := (decide (0x11 ≤ o) && decide (o ≤ 0x18))

/-- Run a short instruction in the Miller. An excluded or reserved opcode, or a bit that must be zero, is a
Miller fault of cause 2 (log 20). -/
def millerShort (op : Nat) (w : W32) (s : State) (f : State → Out) : Out :=
  let o := fld w.toNat 1 6
  if bitOf w.toNat 0 || (o != op && !reservedShort o) then .refused .otherRow
  else if !s.millerRuns || s.millerWord != some w then idle s
  else if millerExcluded o || shortBad o w.toNat then .next (s.millerFault' 2)
  else f s

/-- A short instruction that changes only the scalar and predicate registers. -/
def regsOp (op : Nat) (x : Exe) (w : W32) (s : State) (f : Regs → Regs) : Out :=
  match x with
  | .ctx c => ctxRegs op c.val w s f
  | .miller => millerShort op w s fun s => .next (s.onMiller fun m =>
      let r := f ⟨m.s, m.p⟩
      { m with s := r.s, p := r.p }.next)

/-- `s[d] := g (s[a]) (s[b])`. -/
def Regs.bin (r : Regs) (w : W32) (g : Word → Word → Word) : Regs :=
  { r with s := regWrite r.s (fd w) (g (regRead r.s (fa w)) (regRead r.s (fb w))) }

/-! ### Register instructions -/

def execNop (x : Exe) (w : W32) (s : State) : Out := regsOp 0x00 x w s id
def execAdd (x : Exe) (w : W32) (s : State) : Out := regsOp 0x01 x w s fun r => r.bin w (· + ·)
def execSub (x : Exe) (w : W32) (s : State) : Out := regsOp 0x02 x w s fun r => r.bin w (· - ·)
def execMul (x : Exe) (w : W32) (s : State) : Out := regsOp 0x03 x w s fun r => r.bin w (· * ·)
def execAnd (x : Exe) (w : W32) (s : State) : Out := regsOp 0x04 x w s fun r => r.bin w (· &&& ·)
def execOr (x : Exe) (w : W32) (s : State) : Out := regsOp 0x05 x w s fun r => r.bin w (· ||| ·)
def execXor (x : Exe) (w : W32) (s : State) : Out := regsOp 0x06 x w s fun r => r.bin w (· ^^^ ·)
def execShl (x : Exe) (w : W32) (s : State) : Out := regsOp 0x07 x w s fun r => r.bin w fun a b => a <<< (b.toNat % 64)
def execShr (x : Exe) (w : W32) (s : State) : Out := regsOp 0x08 x w s fun r => r.bin w fun a b => a >>> (b.toNat % 64)
def execSra (x : Exe) (w : W32) (s : State) : Out := regsOp 0x09 x w s fun r => r.bin w fun a b => a.sshiftRight (b.toNat % 64)

def execAddi (x : Exe) (w : W32) (s : State) : Out := regsOp 0x0A x w s fun r =>
  { r with s := regWrite r.s (fd w) (regRead r.s (fa w) + BitVec.ofInt 64 (simm w)) }

def execShli (x : Exe) (w : W32) (s : State) : Out := regsOp 0x0B x w s fun r =>
  { r with s := regWrite r.s (fd w) (regRead r.s (fa w) * 1024 + BitVec.ofNat 64 (fimm w)) }

def execCmp (x : Exe) (w : W32) (s : State) : Out := regsOp 0x0C x w s fun r =>
  { r with p := predWrite r.p (fd w % 8) (cmpRel (fimm w % 8) (regRead r.s (fa w)) (regRead r.s (fb w))) }

def execPlog (x : Exe) (w : W32) (s : State) : Out := regsOp 0x0D x w s fun r =>
  { r with p := predWrite r.p (fd w % 8) (plogFn (fimm w % 4) (predRead r.p (fa w % 8)) (predRead r.p (fb w % 8))) }

/-! ### BR (R325, R332) -/

def brOff (w : W32) : Int := sextNat 20 (fld w.toNat 12 20)
def brTaken (p : Map Bool) (w : W32) : Bool := predRead p (fld w.toNat 7 3) != bitOf w.toNat 10

/-- Branch in a context: in the window by stream position, in called code by address; a target that has
left the window stops the context with FAULT.STREAM. -/
def ctxBranch (c : Nat) (w : W32) (s : State) : State :=
  let x := s.cx c
  if !brTaken x.p w then s.onCx c fun y => y.adv 1
  else match x.code with
    | some a => s.onCx c fun y => { y with code := some (wrapInt 52 ((a : Int) + 4 * brOff w)), hold := .none }
    | none =>
      let t := wrapInt 32 ((x.nextPos : Int) + brOff w)
      if 1023 < sdiff (x.newest + 2 ^ 32 - 1) t then
        let sp := x.sposNow
        (s.onCx c fun y => y.adv 1).faultScalar c (0x80 + 0x0E) sp { code := Code.fStream, unit := 0x07 }
      else s.onCx c fun y => { y with nextPos := t, hold := .none }

def execBr (x : Exe) (w : W32) (s : State) : Out :=
  match x with
  | .ctx c => ctxShort 0x0E c.val w s fun s => .next (ctxBranch c.val w s)
  | .miller => millerShort 0x0E w s fun s => .next (s.onMiller fun m =>
      if brTaken m.p w then { m with pc := wrapInt 32 ((m.pc : Int) + 4 * brOff w) } else m.next)

/-! ### Loads and stores -/

/-- A context access with its alignment and address check (R325): the reserved bits of the address register
are bits [63:52] (log 18). -/
def ctxAccess (op c : Nat) (w : W32) (s : State) (off : Int) (al : Nat) (f : State → Nat → State) : Out :=
  ctxShort op c w s fun s =>
    match scalarAddr ((s.cx c).rs (fa w)) off with
    | none => .next (s.refuseScalar c 1 Code.operand (0x80 + op))
    | some a => if a % al ≠ 0 then .next (s.refuseScalar c 1 Code.operand (0x80 + op)) else .next (f s a)

/-- The Miller's access to its local store (R348): outside it, or not aligned, a fault of cause 3. -/
def millerAccess (op : Nat) (w : W32) (s : State) (f : State → Nat → State) : Out :=
  millerShort op w s fun s =>
    let a := (regRead s.miller.s (fa w) + BitVec.ofInt 64 (simm w * 8)).toNat
    if a % 8 ≠ 0 || millerSize < a + 8 then .next (s.millerFault' 3) else .next (f s a)

def execLd (x : Exe) (w : W32) (s : State) : Out :=
  match x with
  | .ctx c => ctxAccess 0x0F c.val w s (simm w * 8) 8 fun s a =>
      s.scalarLoad c.val (0x80 + 0x0F) a 8 (.ld (fd w)) fun s => s.onCx c.val fun y => y.loaded (.ld (fd w)) (s.granBytes a 8)
  | .miller => millerAccess 0x0F w s fun s a => s.onMiller fun m =>
      { m with s := regWrite m.s (fd w) (BitVec.ofNat 64 (leNat ((List.range 8).map fun k => Map.get 0 m.store (a + k)))) }.next

def execSt (x : Exe) (w : W32) (s : State) : Out :=
  match x with
  | .ctx c => ctxAccess 0x10 c.val w s (simm w * 8) 8 fun s a =>
      s.scalarStore c.val (0x80 + 0x10) a (natLe 8 ((s.cx c.val).rs (fb w)).toNat)
  | .miller => millerAccess 0x10 w s fun s a => s.onMiller fun m =>
      { m with store := Map.setMany 0 m.store (cells a (natLe 8 (regRead m.s (fb w)).toNat)) }.next

def execLdt (x : Exe) (w : W32) (s : State) : Out :=
  match x with
  | .ctx c => ctxAccess 0x11 c.val w s (simm w * 32) 32 fun s a =>
      s.scalarLoad c.val (0x80 + 0x11) a 32 (.ldt (fd w)) fun s => s.onCx c.val fun y => y.loaded (.ldt (fd w)) (s.granBytes a 32)
  | .miller => millerShort 0x11 w s fun s => .next s

def execStt (x : Exe) (w : W32) (s : State) : Out :=
  match x with
  | .ctx c => ctxAccess 0x12 c.val w s (simm w * 32) 32 fun s a =>
      if (Desc.of (Map.get 0 (s.cx c.val).t (fd w))).rsv ≠ 0 then s.refuseScalar c.val 1 Code.operand (0x80 + 0x12)
      else s.scalarStore c.val (0x80 + 0x12) a (natLe 32 (Map.get 0 (s.cx c.val).t (fd w)).toNat)
  | .miller => millerShort 0x12 w s fun s => .next s

def execLdl (x : Exe) (w : W32) (s : State) : Out :=
  match x with
  | .ctx c => ctxAccess 0x13 c.val w s 0 64 fun s a =>
      s.scalarLoad c.val (0x80 + 0x13) a 256 (.ldl (fimm w % 64)) fun s =>
        s.onCx c.val fun y => y.loaded (.ldl (fimm w % 64)) (s.granBytes a 256)
  | .miller => millerShort 0x13 w s fun s => .next s

/-! ### Handles, counters, control registers -/

def execLdh (x : Exe) (w : W32) (s : State) : Out :=
  match x with
  | .ctx c => ctxShort 0x14 c.val w s fun s =>
      let v := ((s.cx c.val).rs (fa w)).toNat
      if 2 ^ 24 ≤ v then .next (s.refuseScalar c.val 1 Code.operand (0x80 + 0x14))
      else .next (s.onCx c.val fun y => { y with h := Map.set 0 y.h (fd w % 16) (BitVec.ofNat 24 v) }.adv 1)
  | .miller => millerShort 0x14 w s fun s => .next s

def execEvr (x : Exe) (w : W32) (s : State) : Out :=
  match x with
  | .ctx c => ctxShort 0x15 c.val w s fun s =>
      .next (s.onCx c.val fun y => (y.ws (fd w) ((y.ev (fa w)).zeroExtend 64)).adv 1)
  | .miller => millerShort 0x15 w s fun s => .next s

/-- EVW waits while an instruction in flight names the counter as its EVC (R342). -/
def execEvw (x : Exe) (w : W32) (s : State) : Out :=
  match x with
  | .ctx c => ctxShort 0x16 c.val w s fun s =>
      if s.instList.any fun i => i.ctx == c.val && i.w.evc == fd w then .next (s.onCx c.val fun y => { y with hold := .evw })
      else .next (s.onCx c.val fun y => (y.wev (fd w) ((y.rs (fa w)).truncate 32)).adv 1)
  | .miller => millerShort 0x16 w s fun s => .next s

/-- What CSRR reads (R321); `none` for a number not listed. -/
def State.csrRead (s : State) (c k : Nat) : Option Word :=
  let x := s.cx c
  match k with
  | 0 => some x.seed
  | 1 => some (BitVec.ofNat 64 x.issueSeq)
  | 2 => some (BitVec.ofNat 64 (c + 64 * x.domain))
  | 3 => some (BitVec.ofNat 64 (b2n x.err + 2 * b2n x.code.isSome + 4 * x.stack.length))
  | 4 => some (x.lastErr.zeroExtend 64)
  | 5 => some (BitVec.ofNat 64 x.defClass)
  | 6 => some (BitVec.ofNat 64 x.sposNow.1)
  | _ => none

/-- What CSRW writes (R321): a read-only register ignores the write (R9). -/
def Ctx.csrWrite (x : Ctx) (k : Nat) (v : Word) : Option Ctx :=
  match k with
  | 0 => some { x with seed := v, issueSeq := 0 }
  | 3 => some (if bitOf v.toNat 0 then { x with err := false } else x)
  | 5 => some (if v.toNat % 4 = 0 then x else { x with defClass := v.toNat % 4 })
  | 1 | 2 | 4 | 6 => some x
  | _ => none

def execCsrr (x : Exe) (w : W32) (s : State) : Out :=
  match x with
  | .ctx c => ctxShort 0x17 c.val w s fun s =>
      match s.csrRead c.val (fimm w) with
      | none => .next (s.refuseScalar c.val 1 Code.encoding (0x80 + 0x17))
      | some v => .next (s.onCx c.val fun y => (y.ws (fd w) v).adv 1)
  | .miller => millerShort 0x17 w s fun s => .next s

def execCsrw (x : Exe) (w : W32) (s : State) : Out :=
  match x with
  | .ctx c => ctxShort 0x18 c.val w s fun s =>
      match (s.cx c.val).csrWrite (fimm w) ((s.cx c.val).rs (fa w)) with
      | none => .next (s.refuseScalar c.val 1 Code.encoding (0x80 + 0x18))
      | some y => .next (s.onCx c.val fun _ => y.adv 1)
  | .miller => millerShort 0x18 w s fun s => .next s

/-- HALT: the context enters HALTED and writes a record of KIND 5; the Miller stops (log 20). -/
def execHalt (x : Exe) (w : W32) (s : State) : Out :=
  match x with
  | .ctx c => ctxShort 0x19 c.val w s fun s =>
      let y := s.cx c.val
      if y.ringFull then .next (s.onCx c.val fun y => { y with hold := .ring })
      else
        let sp := y.sposNow
        let s1 := s.onCx c.val fun y => { y.adv 1 with run := .halted }
        .next (s1.writeRec c.val false { kind := 5, opc := 0x80 + 0x19, spos := sp.1, called := sp.2 })
  | .miller => millerShort 0x19 w s fun s => .next (s.onMiller fun m => { m.next with halted := true })

end Sys2Proof.Machine
end

