-- ==== Sys2Proof/Machine/Sluice.lean ====
section
/-!
DEFINITION. The Sluice's reservations (R400 to R411, R422 to R427, R537), Class A enablement (R97, R98) and the divider
decrease that waits for Class A (R427).
-/

namespace Sys2Proof.Machine

/-! ### Admission (R401 to R410) -/

/-- Reservations `(d, aseq, w, p)` of one bay in the form the tests of R405 and R406 take. -/
structure Load where
  r : Nat
  d : Nat
  aseq : Nat
  w : Nat
  p : Nat
  deriving DecidableEq, Repr

def Load.of (r : Nat) (c : ResvCfg) (aseq : Nat) : Load := ⟨r, c.d, aseq, c.w, c.p⟩

/-- The first has priority above the second (R404). -/
def Load.above (a b : Load) : Bool := decide (a.d < b.d) || (a.d == b.d && decide (a.aseq < b.aseq))

/-- The admitted reservations, by number. -/
def State.admittedList (s : State) : List (Nat × Resv) := s.sluice.resv.filter fun q => q.2.state == 1

/-- A(b) without a request (R405). -/
def State.loads (s : State) (b : Nat) : List Load :=
  (s.admittedList.filter fun q => bitOf q.2.cfg.bays b).map fun q => Load.of q.1 q.2.cfg q.2.aseq

/-- A load under a limit of `f` of 16 cycles (R423). -/
def Load.stretch (f : Nat) (x : Load) : Load := { x with w := cdiv (x.w * 16) f }

/-- R405: `1000 × Σ W / P ≤ U_CAP`, exactly. -/
def utilOk (cap : Nat) (l : List Load) : Bool := decide (1000 * (l.map fun x => (x.w : ℚ) / x.p).sum ≤ (cap : ℚ))

/-- The iteration of R406 from `rt`: `none` where it passes D. -/
def rtIter (blk : Nat) (k : Load) (hp : List Load) : Nat → Nat → Option Nat
  | 0, _ => none
  | fuel + 1, rt =>
    if k.d < rt then none
    else
      let n := k.w + blk + (hp.map fun j => cdiv (rt + j.d) j.p * j.w).sum
      if n = rt then some rt else rtIter blk k hp fuel n

/-- RT of a load among those of its bay. -/
def rtOf (blk : Nat) (l : List Load) (k : Load) : Option Nat :=
  rtIter blk k (l.filter fun j => j.above k) (k.d + 2) (k.w + blk)

/-- R406 holds of every load of a bay. -/
def respOk (blk : Nat) (l : List Load) : Bool := l.all fun k => (rtOf blk l k).isSome

/-- The codes of REASON (R431). -/
def rField : Nat := 1
def rContext : Nat := 2
def rBays : Nat := 3
def rCores : Nat := 4
def rUcap : Nat := 5
def rPort : Nat := 6
def rLink : Nat := 7
def rResponse : Nat := 8
def rDivider : Nat := 9

/-- A field lies outside its range (R401); a bay that is absent is R409's reason BAYS (log 52). -/
def ResvCfg.badField (c : ResvCfg) : Bool :=
  c.bays == 0 || c.cores == 0 || c.w == 0 || decide (c.d < c.w) || decide (c.p < c.d) || decide (8000000 < c.p)
  || decide (c.d < 8000) || decide (16 < c.lcred)

/-- The first check of R410 that fails; `none` admits. -/
def State.admitReason (s : State) (r : Nat) : Option Nat :=
  let c := (s.rv r).staged
  let adm := s.admittedList.map Prod.snd
  let bays := bitsSet 32 c.bays
  let me := Load.of r c s.sluice.nextAseq
  if c.badField then some rField
  else if s.sluice.lMem == 0 || adm.any (fun x => x.cfg.ctx == c.ctx) then some rContext
  else if bays.any fun b => !s.present b || Map.get false s.prot.bayF b || !(bitOf s.sluice.aen b && bitOf s.sluice.aenEff b) then some rBays
  else if bays.any fun b => (bitsSet 64 c.cores).any fun k => Map.get false s.prot.coreF (64 * b + k) then some rCores
  else if adm.any fun x => (x.cfg.bays &&& c.bays) != 0 && (x.cfg.cores &&& c.cores) != 0 then some rCores
  else if divOf c.maxdiv < divOf s.pwr.cdivEff then some rDivider
  else if bays.any fun b => !utilOk s.sluice.uCap (me :: s.loads b) then some rUcap
  else if (List.range 32).any fun p =>
      decide (s.sluice.uCap * 512 < 1000 * ((adm.map fun x => x.bw p).sum + 4 * Map.get 0 c.portsh p)) then some rPort
  else if (bitsSet 64 c.links).any fun l =>
      decide (16 < c.lcred + ((adm.filter fun x => bitOf x.cfg.links l).map fun x => x.cfg.lcred).sum) then some rLink
  else if bays.any fun b => !respOk 176 (me :: s.loads b) then some rResponse
  else none

/-- Recompute RT of the reservations of a bay set, each the largest over its bays; bay `lim` runs under a limit of `f` of
16 cycles (R406, R410, R423). -/
def State.setRt (s : State) (bays : List Nat) (lim : Option Nat) (f : Nat) : State :=
  (s.admittedList.filter fun q => bays.any fun b => bitOf q.2.cfg.bays b).foldl (fun s q =>
    let rts := (bitsSet 32 q.2.cfg.bays).map fun b =>
      let g := if lim = some b then f else 16
      let l := (s.loads b).map (Load.stretch g)
      (rtOf (cdiv (176 * 16) g) l (Load.stretch g (Load.of q.1 q.2.cfg q.2.aseq))).getD 0
    s.onRv q.1 fun x => { x with rt := maxOr 0 rts }) s

/-- The power domains that a reservation holds ON (R537). -/
def ResvCfg.doms (c : ResvCfg) : List Nat :=
  bitsSet 32 c.bays
  ++ ((List.range 8).filter fun g => (List.range 4).any fun k => decide (0 < Map.get 0 c.portsh (4 * g + k))).map (32 + ·)
  ++ [48, 49]

/-- A domain is held by an admitted reservation. -/
def State.held (s : State) (d : Nat) : Bool := s.admittedList.any fun q => q.2.cfg.doms.contains d

/-- A cluster that an admitted reservation keeps from going below IDLE. -/
def State.heldCluster (s : State) (d : Nat) : Bool := s.admittedList.any fun q => 51 + q.2.cfg.ctx / 16 == d

/-- ADMIT (R405 to R411, R431, R465). -/
def State.admitRes (s : State) (r : Nat) : State :=
  let x := s.rv r
  if x.state = 1 then s
  else match s.admitReason r with
    | some k => s.onRv r fun y => { y with state := 3, reason := k }
    | none =>
      let s1 := s.onRv r fun y =>
        { y with cfg := y.staged, state := 1, pending := true, opened := false, used := 0, reason := 0, releasing := false,
                 aseq := s.sluice.nextAseq }
      let s2 := s1.onSluice fun q => { q with nextAseq := (q.nextAseq + 1) % 2 ^ 32 }
      let s3 := x.staged.doms.foldl (fun s d => if s.isOn d then s else s.wakeDom d) (s2.setRt (bitsSet 32 x.staged.bays) none 16)
      (bitsSet 64 x.staged.links).foldl State.shortLink s3

def execResAdmit (r : Fin 32) (s : State) : Out := .next (s.mgt (.resAdmit r) (some 48) fun s => s.admitRes r.val)

/-! ### The end of a reservation (R424, R425) -/

/-- RELEASE: no new instruction; FREE once its last issued instruction has ended. -/
def State.releaseRes (s : State) (r : Nat) : State :=
  if (s.rv r).state = 1 then (s.onRv r fun y => { y with releasing := true }).freeReleased else s

def execResRelease (r : Fin 32) (s : State) : Out := .next (s.mgt (.resRelease r) (some 48) fun s => s.releaseRes r.val)
def execResRevoke (r : Fin 32) (s : State) : Out := .next (s.mgt (.resRevoke r) (some 48) fun s => s.revoke r.val 2)

/-! ### Windows and PENDING (R403, R411, R537) -/

/-- The window closes P CCLK cycles after its start. -/
def execWindowClose (r : Fin 32) (s : State) : Out :=
  let x := s.rv r.val
  if x.opened && decide (x.start + x.cfg.p ≤ s.time.cclk) then .next (s.onRv r.val fun y => { y with opened := false, used := 0 })
  else idle s

/-- No reservation of lower priority on its bays has an open window, and every domain it names is ON. -/
def State.pendingEnds (s : State) (r : Nat) : Bool :=
  let x := s.rv r
  let me := Load.of r x.cfg x.aseq
  (s.admittedList.all fun q =>
    q.1 == r || (q.2.cfg.bays &&& x.cfg.bays) == 0 || !me.above (Load.of q.1 q.2.cfg q.2.aseq) || !q.2.opened)
  && x.cfg.doms.all s.isOn

def execPendingClear (r : Fin 32) (s : State) : Out :=
  let x := s.rv r.val
  if x.state == 1 && x.pending && s.pendingEnds r.val then .next (s.onRv r.val fun y => { y with pending := false }) else idle s

/-! ### Class A enablement (R97, R98) -/

/-- A write of AEN: bits that clear revoke every admitted reservation of their bays. -/
def State.writeAen (s : State) (v : Nat) : State :=
  let s1 := s.onSluice fun q => { q with aen := v % 2 ^ 32 }
  (List.range 32).foldl (fun s r =>
    let x := s.rv r
    if x.state == 1 && (List.range 32).any fun b => bitOf x.cfg.bays b && !bitOf v b then s.revoke r 2 else s) s1

def execAenWrite (v : W32) (s : State) : Out := .next (s.mgt (.aenWrite v) (some 48) fun s => s.writeAen v.toNat)

/-- The instruction uses slot 4 or 5 of a bay on which its class may use all six (R136, R175). -/
def Inst.usesHigh (i : Inst) : Bool :=
  let sav := 6 - i.slot
  let spread := fun (n : Nat) => decide (4 ≤ i.slot) || (List.range n).any fun k => decide (4 ≤ i.slot + (chunkF sav k).2)
  match i.opc with
  | 0x00 | 0x01 | 0x02 => decide (4 < i.slot + i.live i.loop i.cores.length)
  | 0x03 => decide (4 < i.slot + i.drNs)
  | 0x04 | 0x06 | 0x07 => decide (4 < i.slot + i.f 1 0 3)
  | 0x20 => spread (i.ap.d / 32)
  | 0x21 => decide (3 ≤ i.slot) || (List.range (3 * (i.ap.d / 32))).any fun k => decide (4 ≤ i.slot + (chunkB (followB (i.ap.d / 32) sav) k).2)
  | 0x22 => spread (i.mD / 32)
  | _ => false

/-- The instruction holds the softmax stage or row statistics (R138). -/
def Inst.usesStat (i : Inst) : Bool :=
  match i.opc with
  | 0x00 | 0x01 => i.drms || i.normf
  | 0x02 | 0x05 | 0x20 | 0x21 | 0x22 | 0x32 => true
  | _ => false

/-- A lower-class instruction that keeps Class A from taking effect on a bay. -/
def Inst.barsA (i : Inst) (b : Nat) : Bool :=
  i.cls != 1 && i.bays.contains b && Map.get 6 i.slotTop b == 6
  && (i.usesHigh || (i.usesStat && i.cores.any fun g => g / 64 == b && decide (56 ≤ g % 64)))

/-- AEN_EFF of a bay follows AEN once no instruction stands in the way. -/
def execAenEffChange (b : Fin 32) (s : State) : Out :=
  let want := bitOf s.sluice.aen b
  let is := bitOf s.sluice.aenEff b
  if want == is || !s.isOn 48 then idle s
  else if want && s.instList.any fun i => i.barsA b.val then idle s
  else if !want && s.instList.any fun i => (i.cls == 1 || i.resv.isSome) && i.bays.contains b.val then idle s
  else .next (s.onSluice fun q => { q with aenEff := if want then setBit q.aenEff b.val else clrBit q.aenEff b.val })

/-! ### The divider (R426, R427) -/

/-- MAXDIV_EFF, as a code. -/
def State.maxDiv (s : State) : Nat := minOr 3 (s.admittedList.map fun q => q.2.cfg.maxdiv)

/-- A lower divider takes effect once no accepted Class A instruction remains, at the next edge of the root clock that is common to
both dividers (R526, R530). -/
def execDividerDecreaseEffect (s : State) : Out :=
  if s.pwr.divPend && !(s.instList.any fun i => i.cls == 1) then .next { s with pwr := { s.pwr with divGo := true } }
  else idle s

/-! ### Row limits (R423, R531) -/

/-- Revoke, largest ASEQ first, until both tests hold of bay `b` under a limit of `f`. -/
def State.limitBay (b f : Nat) : Nat → State → State
  | 0, s => s
  | fuel + 1, s =>
    let l := (s.loads b).map (Load.stretch f)
    if utilOk s.sluice.uCap l && respOk (cdiv (176 * 16) f) l then s
    else match l with
      | [] => s
      | x :: xs => State.limitBay b f fuel (s.revoke (xs.foldl (fun a y => if a.aseq < y.aseq then y else a) x).r 1)

/-- A write of BAY_LIMIT: a value outside 1 to 16 is ignored; a lower limit takes effect after the revocations. -/
def State.writeLimit (s : State) (b v : Nat) : State :=
  let f := fld v 0 5
  if f = 0 || 16 < f then s
  else
    let s1 := if f < (s.by b).limitEff then (State.limitBay b f 33 s).setRt [b] (some b) f else s
    s1.onBy b fun x => { x with limit := f, limitEff := f, limPend := false }

def execBayLimitWrite (b : Fin 32) (v : W32) (s : State) : Out :=
  .next (s.mgt (.bayLimitWrite b v) none fun s => if s.present b then s.writeLimit b.val v.toNat else s)

end Sys2Proof.Machine
end

