-- ==== Sys2Proof/Machine/Scarf.lean ====
section
/-!
DEFINITION. The scarf commit (R501 to R506) with the firmware image check (R507 to R511): staging areas, the checks in
their order, and the landing of a change.
-/

namespace Sys2Proof.Machine

def State.onProt (s : State) (f : Prot → Prot) : State := { s with prot := f s.prot }
def State.onScarf (s : State) (f : Scarf → Scarf) : State := s.onProt fun p => { p with scarf := f p.scarf }

/-! ### Results and offsets (R501, R505) -/

def scLanded : Nat := 0
def scExpired : Nat := 1
def scMismatch : Nat := 2
def scCseq : Nat := 3
def scKey : Nat := 4
def scTagP : Nat := 5
def scTagO : Nat := 6
def scEntry : Nat := 7
def scPrecond : Nat := 8
def scImage : Nat := 9
def scAbandoned : Nat := 0xA

/-- A governed field. -/
inductive Gov where
  /-- word `k` of window `w` of domain `d`, by its index `256 d + 4 w + k` -/
  | window (ix : Nat)
  | domain (c : Nat)
  | uCap | scarfWin | dbgEn | testEn | imgLo | imgHi | imgLen | imgAct
  | digest (j : Nat)
  | logLo | logHi
  deriving DecidableEq, Repr

/-- The governed field at a management offset (R501). -/
def Gov.at (off : Nat) : Option Gov :=
  if off % 4 ≠ 0 then none
  else if 0x084000 ≤ off ∧ off < 0x088000 then some (.window ((off - 0x084000) / 4))
  else if 0x071028 ≤ off ∧ off < 0x072028 ∧ (off - 0x071028) % 0x40 = 0 then some (.domain ((off - 0x071028) / 0x40))
  else if 0x080040 ≤ off ∧ off < 0x080060 then some (.digest ((off - 0x080040) / 4))
  else match off with
    | 0x010000 => some .uCap
    | 0x08000C => some .scarfWin
    | 0x080020 => some .dbgEn
    | 0x080024 => some .testEn
    | 0x080028 => some .imgLo
    | 0x08002C => some .imgHi
    | 0x080030 => some .imgLen
    | 0x080034 => some .imgAct
    | 0x0A0010 => some .logLo
    | 0x0A0014 => some .logHi
    | _ => none

/-- The value rule of one entry (R501); a window's LIMIT is tested apart. -/
def Gov.ok (present : Nat) (g : Gov) (v : Nat) : Bool :=
  match g with
  | .window ix => (match ix % 4 with
    | 0 => fld v 6 6 == 0
    | 1 => fld v 20 12 == 0
    | 2 => fld v 0 12 == 0
    | _ => fld v 20 12 == 0)
  | .domain _ => decide (v ≤ 15)
  | .uCap => decide (v ≤ 600)
  | .scarfWin => decide (1000 ≤ v)
  | .dbgEn | .testEn => (v &&& (0xFFFFFFFF - present)) == 0
  | .imgLo => v % 64 == 0
  | .imgLen => v % 64 == 0 && decide (64 ≤ v) && decide (v ≤ 49152)
  | .imgAct => v == 1
  | .logLo => v % 4096 == 0
  | .imgHi | .digest _ | .logHi => true

/-! ### Staging areas (R502, R504) -/

def State.area (s : State) (op : Bool) : Map W32 := if op then s.prot.scarf.areaO else s.prot.scarf.areaP
def areaWord (m : Map W32) (off : Nat) : Nat := (Map.get 0 m off).toNat

/-- Offsets of an area that keep what is written. -/
def stageable (off : Nat) : Bool :=
  off % 4 == 0 && (decide (off < 0x808) || (decide (0x810 ≤ off) && decide (off < 0x820)))

def areaNent (m : Map W32) : Nat := fld (areaWord m 0x800) 0 9

/-- Entries 0 to NENT − 1; an area holds 256 (log 53). -/
def areaEntries (m : Map W32) : List (Nat × Nat) :=
  (List.range (min 256 (areaNent m))).map fun k => (areaWord m (8 * k), areaWord m (8 * k + 4))

/-- A party's message. -/
def areaMessage (m : Map W32) : List Byte :=
  natLe 4 (areaWord m 0x804) ++ natLe 4 (areaNent m) ++ (areaEntries m).flatMap fun e => natLe 4 e.1 ++ natLe 4 e.2

def areaTag (m : Map W32) : List Byte := (List.range 4).flatMap fun j => natLe 4 (areaWord m (0x810 + 4 * j))

/-- The tag that a key gives a digest (R504). -/
def scarfTag (key : BitVec 256) (party : Byte) (digest : Nat) : List Byte :=
  (Crypto.hmac (natLe 32 key.toNat) (party :: natLe 32 digest)).take 16

/-! ### The end of an attempt (R503, R506) -/

/-- Both areas return to their reset values, CSEQ rises, PHASE returns to IDLE. -/
def State.scarfEnd (s : State) (result : Nat) : State := s.onScarf fun x =>
  { x with cseq := x.cseq + 1, phase := 0, pGo := false, oGo := false, result := result, areaP := [], areaO := [],
           imaging := false, imgBad := false, start := s.time.nclk }

/-- The Miller goes on with no firmware: the store is zeroed (R510). -/
def State.imageFails (s : State) : State :=
  { s with miller := { s.miller with store := [], started := false, inReset := false } }

/-- Discard an attempt. -/
def State.scarfDiscard (s : State) (result : Nat) : State :=
  let s1 := if s.prot.scarf.imaging then s.imageFails else s
  (s1.scarfEnd result).logErr { code := Code.fScarf, unit := 0x08, detail := result }

/-- An attempt opens. -/
def State.scarfOpen (s : State) : State :=
  if s.prot.scarf.phase = 0 then s.onScarf fun x => { x with phase := 1, start := s.time.nclk, pGo := false, oGo := false } else s

def Scarf.goOf (x : Scarf) (op : Bool) : Bool := if op then x.oGo else x.pGo

/-- A party writes a word of its area: after its own GO that abandons the attempt. -/
def State.stage (s : State) (op : Bool) (off : Nat) (v : W32) : State :=
  if !stageable off then s
  else
    let s1 := s.scarfOpen
    if s1.prot.scarf.goOf op then s1.scarfDiscard scAbandoned
    else
      let w := if off = 0x800 then BitVec.ofNat 32 (v.toNat % 512) else v
      s1.onScarf fun x => if op then { x with areaO := Map.set 0 x.areaO off w } else { x with areaP := Map.set 0 x.areaP off w }

/-- GO: capture the digest; the second GO starts the checks. -/
def State.scarfGo (s : State) (op : Bool) : State :=
  let s1 := s.scarfOpen
  if s1.prot.scarf.goOf op then s1.scarfDiscard scAbandoned
  else
    let d := leNat (Crypto.sha256 (areaMessage (s1.area op)))
    s1.onScarf fun x =>
      let y := if op then { x with oGo := true, digO := d } else { x with pGo := true, digP := d }
      if y.pGo && y.oGo then { y with phase := 2 } else y

def State.scarfAbandon (s : State) : State := s.scarfOpen.scarfDiscard scAbandoned

/-- A party's access: the operator's is over the sideband port, which does not drive MGT_PWR (R458). -/
def State.byParty (s : State) (c : Instr) (operator : Bool) (f : State → State) : State :=
  if operator then (if s.mgtUp then f s else s.holdAccess c) else s.mgt c none f

def execScarfStageWrite (operator : Bool) (off : BitVec 12) (v : W32) (s : State) : Out :=
  .next (s.byParty (.scarfStageWrite operator off v) operator fun s => s.stage operator off.toNat v)
def execScarfGo (operator : Bool) (s : State) : Out := .next (s.byParty (.scarfGo operator) operator fun s => s.scarfGo operator)
def execScarfAbandon (operator : Bool) (s : State) : Out := .next (s.byParty (.scarfAbandon operator) operator State.scarfAbandon)

/-- SCARF_TIMER reaches SCARF_WIN before both GOs have arrived. -/
def execScarfWindowExpiry (s : State) : Out :=
  let x := s.prot.scarf
  if x.phase = 1 ∧ x.start + x.win ≤ s.time.nclk then .next (s.scarfDiscard scExpired) else idle s

/-! ### Checks (R505) -/

/-- The change record's entries. -/
def State.change (s : State) : List (Nat × Nat) := areaEntries s.prot.scarf.areaP

/-- Apply the window entries of a change. -/
def applyWindows (win : Map W32) (es : List (Nat × Nat)) : Map W32 :=
  es.foldl (fun m e => match Gov.at e.1 with
    | some (.window ix) => Map.set 0 m ix (BitVec.ofNat 32 e.2)
    | _ => m) win

/-- V = 1 implies LIMIT ≥ BASE for the window that holds word `ix`. -/
def windowOk (m : Map W32) (ix : Nat) : Bool :=
  let w := fun (k : Nat) => (Map.get 0 m (ix / 4 * 4 + k)).toNat
  !bitOf (w 0) 0 || decide (fld (w 0) 12 20 + fld (w 1) 0 20 * 2 ^ 20 ≤ fld (w 2) 12 20 + fld (w 3) 0 20 * 2 ^ 20)

/-- Check 6. -/
def State.entriesOk (s : State) : Bool :=
  let es := s.change
  let m := applyWindows s.prot.win es
  decide (areaNent s.prot.scarf.areaP ≤ 256) && es.all fun e => match Gov.at e.1 with
    | none => false
    | some g => g.ok s.fuse.present e.2 && (match g with
      | .window ix => windowOk m ix
      | _ => true)

/-- The entries that take effect: where two name one offset, the later (R506). -/
def State.lastEntries (s : State) : List (Nat × Nat) :=
  let es := s.change
  let n := es.length
  ((List.range n).zip es).filterMap fun p => if (es.drop (p.1 + 1)).any (fun q => q.1 == p.2.1) then none else some p.2

/-- Check 7 (R501). -/
def State.precondOk (s : State) : Bool := s.lastEntries.all fun e => match Gov.at e.1 with
  | some (.domain c) => !(s.cx c).enable && s.inflight c == 0
  | some .uCap => (List.range 32).all fun b => utilOk e.2 (s.loads b)
  | _ => true

def State.namesImage (s : State) : Bool := s.change.any fun e => Gov.at e.1 == some .imgAct

/-- The first of checks 1 to 7 that fails. -/
def State.scarfFails (s : State) : Option Nat :=
  let x := s.prot.scarf
  if x.digP ≠ x.digO then some scMismatch
  else if areaWord x.areaP 0x804 ≠ x.cseq.toNat then some scCseq
  else if s.fuse.keyP = 0 ∨ s.fuse.keyO = 0 then some scKey
  else if scarfTag s.fuse.keyP 0x50 x.digP ≠ areaTag x.areaP then some scTagP
  else if scarfTag s.fuse.keyO 0x4F x.digO ≠ areaTag x.areaO then some scTagO
  else if !s.entriesOk then some scEntry
  else if !s.precondOk then some scPrecond
  else none

/-! ### Landing (R506, R511) -/

/-- Write the records that were held until LOG_BASE was set (R521). -/
def State.flushLog (s : State) : State :=
  let l := s.log.held
  l.foldl (fun s r => s.sendLog (leAt r.1 28 4) r.2 r.1) (s.onLog fun x => { x with held := [] })

/-- Every slot of a bay becomes unanchored. -/
def State.dropSlots (s : State) (b : Nat) : State :=
  (List.range 64).foldl (fun s k => s.onCo (64 * b + k) fun x => { x with slots := [] }) s

/-- Bays whose TEST_EN changes: MODE follows TEST_EN; a bay that leaves TEST loses its slots, one that is not on at its exit
(R511, R543). -/
def State.testChange (s : State) (v : W32) : State :=
  let old := s.prot.testEn.toNat
  let s1 := s.onProt fun p => { p with testEn := v }
  (List.range 32).foldl (fun (s : State) (b : Nat) =>
    let was := bitOf old b
    let now := bitOf v.toNat b
    if was == now then s
    else if !s.winOn b then (if now then s else s.onBy b fun x => { x with dropDue := true })
    else if now then s.onBy b fun x => { x with mode := 3 }
    else (s.onBy b fun x => { x with mode := 0, recovery := false }).dropSlots b) s1

/-- Apply one entry. -/
def State.applyGov (s : State) (g : Gov) (v : Nat) : State :=
  let w := BitVec.ofNat 32 v
  match g with
  | .window ix => s.onProt fun p => { p with win := Map.set 0 p.win ix w }
  | .domain c => s.onCx c fun x => { x with domain := v % 16 }
  | .uCap => s.onSluice fun q => { q with uCap := v }
  | .scarfWin => s.onScarf fun x => { x with win := v }
  | .dbgEn => s.onProt fun p => { p with dbgEn := w }
  | .testEn => s.testChange w
  | .imgLo => s.onProt fun p => { p with imgAddr := setFld p.imgAddr 0 32 v }
  | .imgHi => s.onProt fun p => { p with imgAddr := setFld p.imgAddr 32 20 v }
  | .imgLen => s.onProt fun p => { p with imgLen := v }
  | .imgAct => s
  | .digest j => s.onProt fun p => { p with imgDigest := Map.set 0 p.imgDigest j w }
  | .logLo => s.onLog fun l => { l with base := setFld l.base 0 32 v, valid := true }
  | .logHi => s.onLog fun l => { l with base := setFld l.base 32 20 v, valid := true }

/-- Land the change: every entry in one cycle, then SCARF.LANDED with the sequence number the change carried. -/
def State.scarfLand (s : State) : State :=
  let n := s.prot.scarf.cseq.toNat
  let s1 := s.lastEntries.foldl (fun s e => match Gov.at e.1 with
    | some g => s.applyGov g e.2
    | none => s) s
  let s2 := (s1.scarfEnd scLanded).raise 0x030F 0x08 [n]
  if s2.log.valid then s2.flushLog else s2

/-! ### The firmware image (R508, R510) -/

/-- The image's address, length and digest as the change leaves them. -/
def State.imageOf (s : State) : Nat × Nat × List Byte :=
  let s1 := s.lastEntries.foldl (fun s e => match Gov.at e.1 with
    | some .imgLo => s.applyGov .imgLo e.2
    | some .imgHi => s.applyGov .imgHi e.2
    | some .imgLen => s.applyGov .imgLen e.2
    | some (.digest j) => s.applyGov (.digest j) e.2
    | _ => s) s
  (s1.prot.imgAddr, s1.prot.imgLen, (List.range 8).flatMap fun j => natLe 4 (Map.get 0 s1.prot.imgDigest j).toNat)

/-- Hold the Miller in reset and read the image through the ports. A line whose port is fenced reads as poisoned data. -/
def State.startImage (s : State) : State :=
  let m := s.imageOf
  let s1 := { (s.onScarf fun x => { x with imaging := true, imgBad := false }) with miller := { s.miller with inReset := true } }
  (linesOf 64 m.1 m.2.1).foldl (fun s a =>
    if s.portFenced (homePort a) then s.onScarf fun x => { x with imgBad := true }
    else s.queueRead 0 false .image a 64 false []) s1

/-- The checks end: the change is discarded, lands, or goes on to its image. -/
def execScarfCheckDone (s : State) : Out :=
  if s.prot.scarf.phase ≠ 2 ∨ s.prot.scarf.imaging then idle s
  else match s.scarfFails with
    | some r => .next (s.scarfDiscard r)
    | none => .next (if s.namesImage then s.startImage else s.scarfLand)

/-- The header of R508. -/
def imageHeaderOk (bs : List Byte) (n : Nat) : Bool :=
  let ent := fun (k : Nat) => let e := leAt bs k 4; e % 4 == 0 && decide (64 ≤ e) && decide (e < n)
  leAt bs 0 4 == 0x4E494657 && leAt bs 4 4 == n && ent 8 && ent 12 && zeroAt bs 16 48

/-- Reads of the image are still outstanding. -/
def State.imageReads (s : State) : Bool := s.mem.ports.any fun p => p.2.allReqs.any fun r => r.why == .image

/-- The image is in the local store and the Miller starts at RESET_ENTRY with its registers zero. -/
def State.loadImage (s : State) (bs : List Byte) : State :=
  { s with miller := { s.miller with
      store := Map.setMany 0 [] (cells 0 bs), started := true, inReset := false, halted := false, waiting := false, s := [], p := [],
      resetEntry := leAt bs 8 4, faultEntry := leAt bs 12 4, pc := leAt bs 8 4 } }

/-- The image is in: `poisoned` says that a read returned poisoned data. Cold start leaves step 4 with the landing. -/
def State.imageDone (s : State) (poisoned : Bool) : State :=
  let m := s.imageOf
  let bs := s.extBytes m.1 m.2.1
  if poisoned || s.prot.scarf.imgBad || Crypto.sha256 bs != m.2.2 || !imageHeaderOk bs m.2.1 then s.scarfDiscard scImage
  else if !s.precondOk then s.scarfDiscard scPrecond
  else (s.scarfLand).loadImage bs

end Sys2Proof.Machine
end

