-- ==== Sys2Proof/Machine/Power.lean ====
section
/-!
DEFINITION. Clocks, power states and start-up (R526 to R554): entry, abort and exit of power domains with what each keeps
(R536, R538, R544), power commands, supplies, voltage and divider, the emergency throttle (R519), the root clock (R527,
R546), cold reset and cold start (R548 to R552).
-/

namespace Sys2Proof.Machine

def State.onPwr (s : State) (f : Pwr → Pwr) : State := { s with pwr := f s.pwr }
def State.onBoot (s : State) (f : Boot → Boot) : State := { s with boot := f s.boot }

/-- The switchable domains (R533). -/
def allDoms : List Nat := List.range 56
/-- A cluster or the Miller, which climb the ladder of R538. -/
def ladder (d : Nat) : Bool := decide (51 ≤ d) && decide (d ≤ 55)
/-- The contexts of a cluster's domain. -/
def ctxsOf (d : Nat) : List Nat := (List.range 16).map (16 * (d - 51) + ·)

/-! ### Idle conditions (R536, R538) -/

/-- The instruction's work runs in its bays: passes, drains, loads, relays, HALO. -/
def Inst.inBays (i : Inst) : Bool := decide (i.opc < 0x40) || (decide (0x58 ≤ i.opc) && decide (i.opc ≤ 0x5A))
/-- The Page Walk Unit or the Bolter serves the instruction. -/
def Inst.inPwu (i : Inst) : Bool := decide (0x40 ≤ i.opc) && decide (i.opc ≤ 0x51)

/-- A context can issue: it stands at a word and holds for nothing. -/
def State.able (s : State) (c : Nat) : Bool :=
  let x := s.cx c
  x.enable && x.run == .going && !s.ctxFenced c && x.scalar.isNone && x.hold == .none && ((x.wordAt 0).isSome || x.code.isSome)

/-- The next bays of the self-test: four in ascending order. -/
def State.round (s : State) : List Nat := (s.presentBays.filter fun b => !bitOf s.boot.stBays b).take 4

/-- The domain has nothing to do. A bay under the self-test has. -/
def State.domIdle (s : State) (d : Nat) : Bool :=
  if d < 32 then !(s.instList.any fun i => i.inBays && i.bays.contains d) && !(s.boot.step == 5 && s.round.contains d)
  else if d < 40 then (List.range 4).all fun k =>
    let x := s.port (4 * (d - 32) + k)
    x.allReqs.isEmpty && x.allAtoms.isEmpty
  else if d < 48 then (List.range 8).all fun k => (s.link (8 * (d - 40) + k)).st == 0
  else if d = 48 then (List.range 4).all (fun c => (s.chan c).held.isEmpty) && s.hop.injHeld.isEmpty && s.hop.injWait.isEmpty
    && !(s.instList.any fun i => !i.work.isEmpty)
    && s.sluice.batches.isEmpty && s.admittedList.isEmpty
  else if d = 49 then s.pwu.queue.isEmpty && s.walkers.isEmpty && s.pwu.parks.isEmpty && s.pwu.retire.isEmpty && s.sessions.isEmpty && !(s.instList.any Inst.inPwu)
  else if d = 50 then s.weir.buckets.isEmpty && !(s.instList.any fun i => i.opc == 0x63 || i.opc == 0x64)
  else if d < 55 then !((ctxsOf d).any s.able)
  else s.miller.waiting && s.log.evq.isEmpty

/-- INFLIGHT = 0 in every context of a cluster, and no scalar access open (R538). -/
def State.quiet (s : State) (d : Nat) : Bool :=
  if 51 ≤ d ∧ d < 55 then (ctxsOf d).all fun c => s.inflight c == 0 && (s.cx c).scalar.isNone else true

/-- The condition whose cycles the running timer counts (R538, R539). -/
def State.timing (s : State) (d : Nat) : Bool :=
  let x := s.dom d
  if x.entering || x.exiting || !s.boot.ready || s.held d then false
  else if ladder d then (match x.state with
    | 0 => s.domIdle d
    | 1 | 2 => s.domIdle d && s.quiet d && !s.heldCluster d
    | _ => false)
  else (match x.state with
    | 0 => s.domIdle d
    | 3 => true
    | _ => false)

/-- The limit of the running timer; 0 disables it. -/
def Dom.limit (x : Dom) (d : Nat) : Nat :=
  if ladder d then (match x.state with
    | 0 => x.t1
    | 1 => x.t2
    | 2 => x.t3
    | _ => 0)
  else (match x.state with
    | 0 => x.t1
    | 3 => x.t2
    | _ => 0)

/-! ### What a state keeps (R536, R538, R544) -/

/-- MODE of a bay that comes up, by TEST_EN, RECOVERY and READY. -/
def State.modeUp (s : State) (b : Nat) (recovery : Bool) : Nat :=
  if bitOf s.prot.testEn.toNat b then 3 else if !s.boot.ready then 1 else if recovery then 2 else 0

/-- The lines of a port group leave the Granary. -/
def State.dropSlice (s : State) (g : Nat) : State :=
  { s with mem := { s.mem with gran := s.mem.gran.filter fun p => homePort (128 * p.1) / 4 != g } }

/-- The counters of a link, and its LNK_UP input. -/
def Link.counters (x : Link) : Link :=
  { up := x.up, frameErrs := x.frameErrs, replays := x.replays, strays := x.strays, txPkts := x.txPkts, rxPkts := x.rxPkts }

/-- Fields of a context that the Sluice keeps: WEIGHT, BAYMASK, the virtual time. -/
def Ctx.noSluice (x : Ctx) : Ctx := { x with weight := 0x10, baymask := 0, vtime := 0 }
/-- Fields of a context that the Bolter keeps. -/
def Ctx.noBolter (x : Ctx) : Ctx := { x with sink := 0, win := 0, specDiscarded := 0, groupsConfirmed := 0, draftsCommitted := 0 }

/-- A context whose cluster is OFF: DOMAIN and FW_OWNED stay, as do the fields of other units. What is staged is lost: the
staging area holds the committed values. -/
def Ctx.off (x : Ctx) : Ctx :=
  { domain := x.domain, cfg := { fwOwned := x.cfg.fwOwned }, staged := { fwOwned := x.cfg.fwOwned }, sink := x.sink, win := x.win, specDiscarded := x.specDiscarded,
    groupsConfirmed := x.groupsConfirmed, draftsCommitted := x.draftsCommitted, weight := x.weight, baymask := x.baymask,
    vtime := x.vtime }

/-- A context whose cluster is in DEEP SLEEP. -/
def Ctx.deep (x : Ctx) : Ctx := { x with staged := x.cfg, commitErr := false, streams := [], consRead := 0, codeBuf := [] }

/-- Apply `f` to every context. -/
def State.allCtx (s : State) (f : Ctx → Ctx) : State := (List.range 64).foldl (fun s c => s.onCx c f) s

/-- Domain `d` has entered RETENTION or DEEP SLEEP. -/
def State.toRetention (s : State) (d : Nat) : State :=
  if d < 32 then s.onBy d fun x =>
    { x with micro := [], dbgAddr := 0, dbgD0 := 0, dbgD1 := 0, dbgD2 := 0, dbgD3 := 0, biasLoading := false, upLoading := false }
  else if d < 40 then s.dropSlice (d - 32)
  else if d < 48 then
    let s1 := s.onGroup (d - 40) fun x =>
      { sepmode := x.sepmode, vc0 := x.vc0, vcmax := x.vcmax, sSepmode := x.sepmode, sVc0 := x.vc0, sVcmax := x.vcmax, retryMax := x.retryMax, replayTmo := x.replayTmo }
    (List.range 8).foldl (fun s k => s.onLink (8 * (d - 40) + k) Link.counters) s1
  else if d = 48 then
    let s1 := (List.range 4).foldl (fun s c => s.onChan c fun x => { exp := x.exp }) s
    let s2 := { s1 with hop := { ch := s1.hop.ch, injHeld := s1.hop.injHeld, injWait := s1.hop.injWait } }
    let s3 := s2.onSluice fun q => { q with gap := [], batches := [], told := [] }
    let s4 := { s3 with sluice := { s3.sluice with resv := Map.mapVals {} (fun x =>
      { state := x.state, reason := x.reason, lastbud := x.lastbud, aseq := x.aseq, misses := x.misses }) s3.sluice.resv } }
    s4.allCtx fun x => { x with vtime := 0 }
  else if d = 49 then
    { s with pwu := { s.pwu with staged := s.pwu.cfg, commitErr := false, lab := [], recs := [],
                                 pools := Map.mapVals {} (fun x => { x with staged := x.cfg }) s.pwu.pools } }
  else if d = 50 then { s with weir := { s.weir with buckets := [], closedKeys := [] } }
  else if d < 55 then (ctxsOf d).foldl (fun s c => s.onCx c Ctx.deep) s
  else s

/-- Domain `d` has entered OFF. HOP_RDY of a cluster's channel falls, and the host discards its credits (R453). -/
def State.toOff (s : State) (d : Nat) : State :=
  if d < 32 then
    let s1 := s.onBy d fun x => { limit := x.limit, limitEff := x.limitEff, limPend := x.limPend }
    { s1 with core := s1.core.filter fun q => q.1 / 64 != d }
  else if d < 40 then
    (List.range 4).foldl (fun s k => s.onPort (4 * (d - 32) + k) fun _ => {}) (s.dropSlice (d - 32))
  else if d < 48 then
    (List.range 8).foldl (fun s k => s.onLink (8 * (d - 40) + k) fun x => { up := x.up }) (s.onGroup (d - 40) fun _ => {})
  else if d = 48 then ({ s with hop := { injHeld := s.hop.injHeld, injWait := s.hop.injWait }, sluice := {} }).allCtx Ctx.noSluice
  else if d = 49 then ({ s with pwu := {} }).allCtx Ctx.noBolter
  else if d = 50 then { s with weir := {} }
  else if d < 55 then (ctxsOf d).foldl (fun s c => s.onCx c Ctx.off) (s.onChan (d - 51) fun x => { x with credits := 0 })
  else s.onMiller fun m => { m with s := [], p := [], pc := m.resetEntry, halted := false, waiting := false }

/-- Where the retention memory keeps a domain's save (R544). -/
def saveAt (d : Nat) : Nat :=
  if d < 32 then 0x100 + 0x40 * d else if d < 40 then 0x900 + 0x80 * (d - 32) else if d < 48 then 0xD00 + 0x100 * (d - 40)
  else if d = 48 then 0x1500 else if d = 49 then 0x1D00 else if d = 50 then 0x3000 else if d < 55 then 0x3100 + 0x200 * (d - 51)
  else 0x3900

/-- SAVED, in the header of the retention memory (R544). -/
def State.savedBits (s : State) : Nat := (allDoms.map fun d => if (s.dom d).saved then 2 ^ d else 0).sum

/-! ### Entry (R534, R540, R541) -/

/-- HOP_RDY of every channel whose cluster is not OFF rises: the host holds 16 credits (R450, R453). -/
def State.hopUp (s : State) : State := (List.range 4).foldl (fun s c =>
  if (s.dom (51 + c)).state = 4 then s else s.onChan c fun x => { x with rdy := true, credits := 16 }) s

/-- Work that was held at a requester of domain `d` goes on: the domain is on (R541, R542). -/
def State.resume (s : State) (d : Nat) : State :=
  if d < 32 then s
  else if d < 40 then ((List.range 4).map (4 * (d - 32) + ·)).foldl (fun s p => State.offer p 8 s) s
  else if d < 48 then s.startLinks (d - 40)
  else if d = 48 then (if s.boot.ready then s.hopUp else s)
  else if d = 49 then s.pwuTurn
  else if d = 50 then s.weirUp
  else s

/-- An entry begins: cycle 0. HOP_RDY falls with the Hopper, and the host discards its credits (R453). -/
def State.beginEntry (s : State) (d target : Nat) : State :=
  let t := s.onDom d fun x =>
    { x with entering := true, step := 0, target := target, cmd := 0, abort := false, wake := false, idle := 0, since := s.time.nclk }
  if d = 48 then (List.range 4).foldl (fun t c => t.onChan c fun x => { x with credits := 0 }) t else t

/-- A command's entry may begin; a domain that is held ignores it (R537). -/
def State.cmdReady (s : State) (d : Nat) : Bool :=
  let x := s.dom d
  !x.entering && !x.exiting && x.req == x.good && !s.held d && !s.heldCluster d && (x.state == 3 || (s.domIdle d && s.quiet d))

/-- One NCLK cycle of an entry, or of its undoing; with no entry, a command that waited for the domain begins. -/
def State.entryStep (s : State) (d : Nat) : Option State :=
  let x := s.dom d
  let m := saveCycles d x.target
  let k := x.step + 1
  if !x.entering then
    if x.cmd ≠ 0 ∧ s.cmdReady d then some (s.beginEntry d x.cmd) else none
  else if s.time.nclk ≤ x.since then none
  else if x.target = 0 then
    if 1 < x.step then some (s.onDom d fun y => { y with step := y.step - 1, since := s.time.nclk })
    else
      let s1 := s.onDom d fun y => { y with entering := false, step := 0, since := s.time.nclk }
      some (if x.state ≤ 1 then s1.resume d else s1.wakeDom d)
  else if x.abort && (k == 2 || k == 2 + m || k == 3 + m || k == 4 + m) then
    some (s.onDom d fun y =>
      { y with target := 0, abort := false, saved := false, since := s.time.nclk,
               step := if k = 4 + m then 3 else if k = 3 + m then 2 else 1 })
  else if k = 5 + m then
    let s1 := s.onDom d fun y =>
      { y with entering := false, step := 0, target := 0, state := x.target, req := if x.target = 3 then 1 else 0,
               cmd := if x.target = 4 ∨ x.cmd = 3 then 0 else x.cmd,
               saved := x.target == 3, idle := 0, since := s.time.nclk }
    some (if x.target = 3 then s1.toRetention d else s1.toOff d)
  else some (s.onDom d fun y => { y with step := k, saved := y.saved || (x.target == 3 && k == 2 + m), since := s.time.nclk })

def execEntryStepDone (d : Fin 56) (s : State) : Out :=
  match s.entryStep d.val with
  | some t => .next t
  | none => idle s

/-- A timer of the domain expires. -/
def execIdleTimerExpiry (d : Fin 56) (s : State) : Out :=
  let x := s.dom d.val
  let t := x.limit d.val
  if t = 0 ∨ x.idle < t ∨ !s.timing d.val ∨ x.req ≠ x.good then idle s
  else if ladder d.val then
    if x.state < 2 then .next (s.onDom d.val fun y => { y with state := y.state + 1, idle := 0 })
    else .next (s.beginEntry d.val 3)
  else .next (s.beginEntry d.val (if x.state = 0 then 3 else 4))

/-! ### Exit (R536, R542, R543) -/

/-- The domain is on again: what its wake clears and starts. -/
def State.comeUp (s : State) (d : Nat) : State :=
  let fromOff := (s.dom d).state == 4
  let s1 := s.onDom d fun x =>
    { x with state := 0, exiting := false, step := 0, saved := false, wake := false, idle := 0, since := s.time.nclk }
  if d < 32 then
    let ups := if s.pwr.upAt = s.time.nclk + 1 then s.pwr.ups + 1 else 1
    let left := (s.by d).dropDue
    let s2 := (s1.onBy d fun x =>
      { x with mode := s.modeUp d (x.recovery && !left), recovery := x.recovery && !left, dropDue := false }).onPwr fun p =>
        { p with upAt := s.time.nclk + 1, ups := ups }
    let s3 := if left then s2.dropSlots d else s2
    if fromOff then s3.onProt fun p => { p with bayF := Map.set false p.bayF d false } else s3
  else if d < 40 then
    let ps := (List.range 4).map (4 * (d - 32) + ·)
    let s2 := if fromOff then s1.onProt fun p => { p with portF := ps.foldl (fun m k => Map.set false m k false) p.portF } else s1
    s2.resume d
  else if 51 ≤ d ∧ d < 55 ∧ fromOff ∧ s.boot.ready ∧ s.isOn 48 then s1.onChan (d - 51) fun x => { x with credits := 16 }
  else s1.resume d

/-- The step of an exit that runs, and its count in NCLK cycles. -/
def Dom.exitCount (x : Dom) (d : Nat) : Nat := match x.step with
  | 1 => 4
  | 2 => if x.state = 3 then 2 + saveCycles d 3 else if d < 32 then 96 else 2
  | _ => 2

/-- Cold start leaves step 3 once the Miller and the port groups are on (R549). -/
def State.bootStep3 (s : State) : State :=
  if s.boot.step = 3 ∧ (55 :: (List.range 8).map (32 + ·)).all s.isOn then s.onBoot fun b => { b with step := 4 } else s

/-- Four bays have left OFF or RETENTION in this NCLK cycle: the next one waits (R532). -/
def State.baysUp (s : State) (d : Nat) : Bool := decide (d < 32) && s.pwr.upAt == s.time.nclk + 1 && decide (4 ≤ s.pwr.ups)

/-- A count of an exit ends. A bay in the cold-start self-test leaves it with SELF_TEST_DONE instead. -/
def execExitStepReady (d : Fin 56) (s : State) : Out :=
  let x := s.dom d.val
  if !x.exiting ∨ x.step = 0 ∨ (s.boot.step = 5 ∧ d.val < 32) ∨ s.time.nclk < x.since + x.exitCount d.val then idle s
  else if x.state = 2 ∨ 3 ≤ x.step then if s.baysUp d.val then idle s else .next (s.comeUp d.val).bootStep3
  else .next (s.onDom d.val fun y => { y with step := y.step + 1, since := s.time.nclk })

/-- The confirmation reaches the code requested: an exit goes on, a wake that waited starts one. -/
def State.supply (s : State) (d : Nat) : State :=
  let x := s.dom d
  let s1 := s.onDom d fun y => { y with good := y.req }
  if x.exiting && x.step == 0 && x.req == 3 then s1.onDom d fun y => { y with step := 1, since := s.time.nclk }
  else if x.wake && !x.entering && (x.state == 3 || x.state == 4) then s1.wakeDom d
  else s1

def execPwrGoodChange (d : Fin 56) (code : BitVec 2) (s : State) : Out :=
  let x := s.dom d.val
  if x.req ≠ code.toNat ∨ x.good = code.toNat then idle s else .next (s.supply d.val)

/-! ### Power commands (R537, R539, R554) -/

/-- The domain cannot take the command: no such domain, absent, held, or a cluster that must stay above SLEEP. -/
def State.cmdBad (s : State) (d target : Nat) : Bool :=
  decide (56 ≤ d) || (s.dom d).state == 5 || s.held d || (target != 0 && s.heldCluster d)

/-- PWR_CMD; `own` says that the Miller writes it: it then enters OFF though it runs (R554). -/
def State.pwrCmd (s : State) (own : Bool) (d target : Nat) : State :=
  let x := s.dom d
  if (target != 0 && target != 3 && target != 4) || s.cmdBad d target then s.onPwr fun p => { p with cmdErr := true }
  else if target = 0 then
    if d = 55 ∧ (x.state = 4 ∨ (x.entering ∧ x.target = 4)) then s
    else
      let s1 := s.onDom d fun y => { y with cmd := 0 }
      if d = 55 ∧ !x.exiting then s1.startMiller 3 else s1.wakeDom d
  else if (x.state = 4 ∨ x.state = target) ∧ !x.entering ∧ !x.exiting then s
  else if (own && d == 55 && target == 4) || s.cmdReady d then s.beginEntry d target
  else s.onDom d fun y => { y with cmd := target }

def execPwrCmdOn (d : Fin 64) (s : State) : Out := .next (s.mgt (.pwrCmdOn d) none fun s => s.pwrCmd false d.val 0)
def execPwrCmdRetention (d : Fin 64) (s : State) : Out := .next (s.mgt (.pwrCmdRetention d) none fun s => s.pwrCmd false d.val 3)
def execPwrCmdOff (d : Fin 64) (s : State) : Out := .next (s.mgt (.pwrCmdOff d) none fun s => s.pwrCmd false d.val 4)

/-! ### Voltage and divider (R426, R427, R529, R530) -/

/-- VMIN of a divider code. -/
def Fuse.vmin (f : Fuse) (code : Nat) : Nat := match code with
  | 0 => f.vmin8
  | 1 => f.vmin10
  | 2 => f.vmin12
  | _ => f.vmin16

/-- Drive VREQ to VCODE where it differs, only while VGOOD = 1 and NCLK runs; VGOOD is then ignored for 4 NCLK cycles. -/
def State.driveV (s : State) : State :=
  if !s.boot.onRef ∧ s.pwr.vgood ∧ s.pwr.vcode ≠ s.pwr.vreq then
    s.onPwr fun p => { p with vreq := p.vcode, vgood := false, vgoodFrom := s.time.nclk + 4 }
  else s

/-- A request of a voltage code. -/
def State.reqV (s : State) (c : Nat) : State :=
  if c < s.fuse.vmin (min s.pwr.cdiv s.pwr.cdivEff) then s.onPwr fun p => { p with voltErr := true }
  else (s.onPwr fun p => { p with vcode := c }).driveV

/-- A request of a divider code. A smaller divider waits for Class A (R427); any change then waits for an edge common to both
(R526). -/
def State.reqDiv (s : State) (code : Nat) : State :=
  let e := s.pwr.cdivEff
  let bad := if code < e then !s.pwr.vgood || decide (s.pwr.vcodeEff < s.fuse.vmin code) else e != code && decide (s.maxDiv < code)
  if bad then s.onPwr fun p => { p with divErr := true }
  else s.onPwr fun p => { p with cdiv := code, divPend := decide (code < e), divGo := decide (e < code) }

/-- A write of 0x09_0000. -/
def State.writeCdiv (s : State) (v : Nat) : State :=
  (s.onPwr fun p => { p with divErr := p.divErr && !bitOf v 5, rootStopEn := bitOf v 6 }).reqDiv (fld v 0 2)

/-- A write of 0x09_0004. -/
def State.writeVcode (s : State) (v : Nat) : State :=
  (s.onPwr fun p => { p with voltErr := p.voltErr && !bitOf v 17 }).reqV (fld v 0 8)

def execCdivWrite (v : W32) (s : State) : Out := .next (s.mgt (.cdivWrite v) none fun s => s.writeCdiv v.toNat)
def execVcodeWrite (v : W32) (s : State) : Out := .next (s.mgt (.vcodeWrite v) none fun s => s.writeVcode v.toNat)

/-! ### Cold start (R548 to R552) -/

/-- More than four bays are marked absent (R23). -/
def State.harvestBad (s : State) : Bool := decide (popCount 32 s.fuse.present < 28)

/-- Step 2 ends once the rail is settled: the Miller and the port groups leave OFF. A part with HARVEST_INVALID stops
here. -/
def State.bootStep2 (s : State) : State :=
  if s.boot.step = 2 ∧ !s.boot.onRef ∧ s.pwr.vgood ∧ s.pwr.vreq = s.pwr.vcode ∧ !s.harvestBad then
    ((55 :: (List.range 8).map (32 + ·)).foldl State.wakeDom (s.onBoot fun b => { b with step := 3 })).bootStep3
  else s

/-- Follow the VGOOD input, on NCLK and not within 4 cycles of a change of VREQ; VGOOD confirms the code and lets a change of
VREQ that waited go out. -/
def State.seeVgood (s : State) : State :=
  let v := s.pwr.vgoodPin
  if s.pwr.vgood = v ∨ s.time.nclk < s.pwr.vgoodFrom ∨ !s.boot.rstN ∨ s.boot.onRef then s
  else if v then ((s.onPwr fun p => { p with vgood := true, vcodeEff := p.vreq }).driveV).bootStep2
  else s.onPwr fun p => { p with vgood := false }

/-- AON moves onto NCLK; VREQ is driven to VCODE, in step 2 VMIN16, where VGOOD lets it. -/
def State.rootUsable (s : State) : State :=
  if s.boot.step < 2 then s else ((s.onBoot fun b => { b with onRef := false }).driveV).seeVgood.bootStep2

/-- What AON on REF_CLK waits for: ROOT_LOCK for 2 cycles, then 16 more (R527, R546, R549). -/
def State.rootWait (s : State) : State :=
  let b := s.boot
  if b.rstN && b.onRef && b.rootReq && b.rootLock && decide (b.usableAt ≤ s.time.ref) then s.rootUsable else s

def execVgoodChange (good : Bool) (s : State) : Out := .next (s.onPwr fun p => { p with vgoodPin := good }).seeVgood

/-- Cold reset: everything but the fuses, ROOT_LOSS, external memory, the queue of commands and the levels of input pins. -/
def State.coldReset (s : State) : State :=
  { State.reset with
    mem := { ext := s.mem.ext }, fuse := s.fuse, pending := s.pending,
    boot := { rootLoss := s.boot.rootLoss, rootLock := s.boot.rootLock },
    pwr := { doms := Map.setMany {} [] (allDoms.map fun d => (d, { good := (s.dom d).good })), emthrot := s.pwr.emthrot,
             vgoodPin := s.pwr.vgoodPin },
    leat := { links := Map.setMany {} [] ((List.range 64).map fun l => (l, { up := (s.link l).up })) },
    time := { fresh := s.time.fresh } }

def execNiaRstNAssert (s : State) : Out := .next s.coldReset

def execNiaRstNRelease (s : State) : Out :=
  if s.boot.rstN then idle s else .next (s.onBoot fun b => { b with rstN := true, step := 1, onRef := true, relAt := s.time.ref })

/-- Step 1 ends: the fuses are sensed, absent bays stay absent, the retention memory is zero, ROOT_REQ rises. -/
def State.fuseSensed (s : State) (f : Fuse) : State :=
  let s1 := { s with fuse := f, miller := {} }
  let s2 := (List.range 32).foldl (fun s b => if bitOf f.present b then s else s.onDom b fun x => { x with state := 5 }) s1
  let s3 := s2.onPwr fun p => { p with vcode := f.vmin16, vcodeEff := f.vmin16 }
  s3.onBoot fun b => { b with step := 2, rootReq := true, usableAt := max (b.lockSince + 2) s.time.ref + 16 }

/-- Fuse sensing takes 512 REF_CLK cycles and the zeroing of the retention memory 8,192 (R549). -/
def execFuseSenseDone (present : W32) (keyP keyO : BitVec 256) (vmin8 vmin10 vmin12 vmin16 : BitVec 8) (s : State) : Out :=
  if !s.boot.rstN ∨ s.boot.step ≠ 1 ∨ s.time.ref < s.boot.relAt + 8704 then idle s
  else .next (s.fuseSensed
    { present := present.toNat, keyP := keyP, keyO := keyO, vmin8 := vmin8.toNat, vmin10 := vmin10.toNat, vmin12 := vmin12.toNat,
      vmin16 := vmin16.toNat })

/-- A round of the self-test begins: its bays leave OFF, or are on already. -/
def State.startRound (s : State) : State := (s.round.foldl State.wakeDom s).onBoot fun b => { b with roundAt := s.time.nclk }

/-- The image check ends; the landing that names IMG_ACT takes cold start from step 4 to the self-test. -/
def State.imageCheck (s : State) (poisoned : Bool) : State :=
  let t := s.imageDone poisoned
  if s.boot.step = 4 ∧ t.prot.scarf.result = scLanded then
    (t.onBoot fun b => { b with step := 5 }).startRound
  else t

def execScarfImageCheck (poisoned : Bool) (s : State) : Out :=
  if !s.prot.scarf.imaging ∨ s.imageReads then idle s else .next (s.imageCheck poisoned)

/-- The bays of a round are on, in MODE START, with nothing in them; their failures are reported and fenced (R551). -/
def State.testDone (s : State) (cores : List (Fin 2048 × Fin 5)) (bays : Nat) : State :=
  let r := s.round
  let mine := cores.filter fun q => r.contains (q.1.val / 64)
  let s1 := r.foldl (fun s b => (s.toOff b).comeUp b) s
  let s2 := mine.foldl (fun s q =>
    s.report { code := Code.fCoreError, scope := 1, unit := 0x10 + q.1.val / 64, index := q.1.val, detail := q.2.val } 0) s1
  let s3 := (r.filter fun b => bitOf bays b).foldl (fun s b =>
    s.report { code := Code.fBayError, scope := 2, unit := 0x10 + b, index := b } 0) s2
  let failed := r.filter fun b => bitOf bays b || mine.any fun q => q.1.val / 64 == b
  let s4 := s3.onBoot fun b => { b with stBays := r.foldl setBit b.stBays, stBayFail := failed.foldl setBit b.stBayFail }
  if s4.round.isEmpty then
    ([48, 49, 50, 51, 52, 53, 54] : List Nat).foldl State.wakeDom (s4.onBoot fun b => { b with step := 6, stDone := true })
  else s4.startRound

/-- A round takes 1,356 NCLK cycles from PWR_GOOD, which a bay that is on has (R549). -/
def execSelfTestDone (cores : List (Fin 2048 × Fin 5)) (bays : W32) (s : State) : Out :=
  if s.boot.step = 5 ∧ s.round.all fun b =>
      let x := s.dom b
      (x.exiting && decide (0 < x.step) && decide (max x.since s.boot.roundAt + 1356 ≤ s.time.nclk))
        || (s.isOn b && decide (s.boot.roundAt + 1356 ≤ s.time.nclk))
  then .next (s.testDone cores bays.toNat) else idle s

/-- READY (R552). -/
def State.reachReady (s : State) : State :=
  let s1 := s.onBoot fun b => { b with step := 7, ready := true }
  let s2 := s1.presentBays.foldl (fun s b => s.onBy b fun x => { x with mode := s1.modeUp b false }) s1
  let s3 := s2.hopUp
  allDoms.foldl (fun s d => s.onDom d fun x => { x with idle := 0 }) s3

def execReadyReached (s : State) : Out :=
  if s.boot.step = 6 ∧ ([48, 49, 50, 51, 52, 53, 54] : List Nat).all s.isOn then .next s.reachReady else idle s

/-! ### Throttle, root clock, wake (R519, R527, R546, R538) -/

def execEmthrotAssert (s : State) : Out :=
  if s.pwr.emthrot then idle s
  else
    let t := s.onPwr fun p => { p with emthrot := true }
    .next (if s.mgtUp then t.raise 0x0310 0x09 [1] else t)

def execEmthrotRelease (s : State) : Out :=
  if !s.pwr.emthrot then idle s
  else
    let t := s.onPwr fun p => { p with emthrot := false }
    .next (if s.mgtUp then t.raise 0x0310 0x09 [0] else t)

/-- Every domain is isolated with its supplies requested off, READY falls, and ROOT_LOSS is set until the island loses
power (R527). Step 0 with NIA_RST_N high is the state that only a cold reset ends. -/
def State.rootLost (s : State) : State :=
  let s1 := allDoms.foldl (fun s d =>
    if (s.dom d).state = 5 then s
    else (s.onDom d fun x => { good := x.good, t1 := x.t1, t2 := x.t2, t3 := x.t3 }).toOff d) s
  { s1 with insts := [], hop := {} }.onBoot fun b => { b with rootLoss := true, onRef := true, ready := false, step := 0, access := [] }

def execRootLockLoss (s : State) : Out :=
  if !s.boot.rootLock then idle s
  else
    let t := s.onBoot fun b => { b with rootLock := false }
    .next (if s.boot.rstN && s.boot.rootReq then t.rootLost else t)

/-- ROOT_LOCK rises; the clock is in use once it has held for 2 REF_CLK cycles and AON has moved, 16 later (`rootWait`). -/
def execRootLockRise (s : State) : Out :=
  if s.boot.rootLock then idle s
  else
    .next (s.onBoot fun b => { b with rootLock := true, lockSince := s.time.ref, usableAt := s.time.ref + 18 })

/-- The root clock stops once every domain is in RETENTION, DEEP SLEEP or OFF. -/
def execRootStop (s : State) : Out :=
  if s.pwr.rootStopEn ∧ !s.boot.onRef ∧ s.boot.rstN ∧ s.boot.access = [] ∧ allDoms.all (fun d =>
      let x := s.dom d
      decide (3 ≤ x.state) && !x.entering && !x.exiting)
  then .next (s.onBoot fun b => { b with onRef := true, rootReq := false }) else idle s

def execRootRestart (s : State) : Out := .next s.rootRestart

/-- NIA_WAKE wakes the root clock, and the Miller from every state below RUN, once the clock is back. -/
def execNiaWake (s : State) : Out :=
  let x := s.dom 55
  if s.boot.onRef then .next (s.holdAccess .niaWake)
  else if !s.boot.rstN ∨ s.boot.step < 4 ∨ (x.state = 0 ∧ !x.entering) ∨ x.exiting then idle s
  else .next (s.startMiller 2)

end Sys2Proof.Machine
end

