-- ==== Sys2Proof/Machine/Regs.lean ====
section
/-!
DEFINITION. The management registers (R29 to R31 and the register tables of every unit): what each offset reads, and
what a write of it does. A management-port write, and the Miller's MRD and MWR, go through these two functions.
-/

namespace Sys2Proof.Machine

/-- Bits `[lo + n - 1 : lo]` of a register hold `v`. -/
def put (v lo n : Nat) : Nat := v % 2 ^ n * 2 ^ lo

/-- Offset `a` lies at `base + k × stride + r` with `k < n`: `(k, r)`. -/
def slotAt (a base stride n : Nat) : Option (Nat × Nat) :=
  if base ≤ a ∧ a < base + stride * n then some ((a - base) / stride, (a - base) % stride) else none

/-! ### Which power domain answers (R17, R457, R528, R533) -/

/-- The power domain of the register at an offset; `none` is the always-on island or no register. -/
def regDom (a : Nat) : Option Nat :=
  let off := a % 0x10000
  match a / 0x10000 with
  | 0x01 => some 48
  | 0x02 | 0x03 => some 49
  | 0x04 => some 50
  | 0x05 => match slotAt off 0x100 0x20 8 with
    | some (g, _) => some (40 + g)
    | none => (slotAt off 0x1000 0x20 64).map fun q => 40 + q.1 / 8
  | 0x06 => (slotAt off 0x100 0x20 32).map fun q => 32 + q.1 / 4
  | 0x07 => match slotAt off 0x1000 0x40 64 with
    | some (c, _) => some (51 + c / 16)
    | none => match slotAt off 0x8000 0x200 64 with
      | some (c, _) => some (51 + c / 16)
      | none => if (0x400 ≤ off ∧ off < 0x440) ∨ (0x7F00 ≤ off ∧ off < 0x7F0C) then some 48 else none
  | w => if 0x10 ≤ w ∧ w < 0x30 then some (w - 0x10) else none

/-! ### Reads -/

/-- Identification (R31). -/
def State.peekId (s : State) (off : Nat) : Nat := match off with
  | 0x0 => 0x01000000
  | 0x4 => 0x4E49
  | 0x8 => s.fuse.present
  | 0xC => popCount 32 s.fuse.present + put (b2n s.harvestBad) 8 1 + put (b2n s.boot.ready) 31 1
  | 0x10 => 0x10204040
  | _ => 0

/-- Reservation `r` (R431). -/
def Resv.peek (x : Resv) (off : Nat) : Nat :=
  let c := x.cfg
  match off with
  | 0x00 => put c.ctx 8 6 + put c.maxdiv 14 2 + put c.lcred 16 5
  | 0x04 => put x.state 0 2 + put (b2n x.pending) 2 1 + put (b2n x.opened) 3 1 + put x.reason 8 8 + put x.lastbud 16 8
  | 0x08 => c.bays
  | 0x0C => put c.cores 0 32
  | 0x10 => fld c.cores 32 32
  | 0x14 => c.w
  | 0x18 => c.p
  | 0x1C => c.d
  | 0x20 => put c.links 0 32
  | 0x24 => fld c.links 32 32
  | 0x28 => put x.rt 0 23
  | 0x2C => x.aseq
  | 0x30 => put x.used 0 23
  | 0x34 => x.misses
  | _ => match slotAt off 0x40 4 8 with
    | some (i, 0) => ((List.range 4).map fun k => put (Map.get 0 c.portsh (4 * i + k)) (8 * k) 8).sum
    | _ => 0

/-- The Sluice (R429 to R431). -/
def State.peekSluice (s : State) (off : Nat) : Nat :=
  let q := s.sluice
  match off with
  | 0x00 => q.uCap
  | 0x04 => q.aen
  | 0x08 => q.aenEff
  | 0x0C => q.lMem
  | 0x10 => put q.holdA 0 16 + put q.holdBC 16 16
  | 0x14 => q.cGap
  | 0x18 => s.maxDiv + put (b2n s.pwr.divPend) 2 1
  | 0x20 => q.revokes
  | 0x24 => q.budget
  | 0x28 => q.misses
  | _ => match slotAt off 0x200 4 64 with
    | some (c, 0) => (s.cx c).weight
    | _ => match slotAt off 0x300 4 64 with
      | some (c, 0) => (s.cx c).baymask
      | _ => match slotAt off 0x1000 0x80 32 with
        | some (r, o) => (s.rv r).peek o
        | none => 0

/-- A pool (R265). -/
def Pool.peek (x : Pool) (off : Nat) : Nat :=
  let c := x.cfg
  match off with
  | 0x00 => put c.tpp 0 2 + put c.kvf 2 1 + put c.kind 3 1 + put c.heads 4 4 + put c.dim 8 3 + put c.tier 11 1 + put (b2n c.enable) 12 1
      + put c.partner 16 6 + put (b2n c.partnerEn) 22 1 + put c.snapPool 24 6 + put (b2n c.snapEn) 30 1
  | 0x04 => put c.frameBase 0 32
  | 0x08 => fld c.frameBase 32 8
  | 0x0C => c.slots
  | 0x10 => put c.metaBase 0 32
  | 0x14 => fld c.metaBase 32 20
  | 0x18 => put c.ringBase 0 32
  | 0x1C => fld c.ringBase 32 20
  | 0x20 => c.ringInit
  | 0x24 => put x.fstride 0 10
  | 0x28 => put x.avail 0 26
  | 0x2C => put x.retiring 0 26
  | _ => 0

/-- The PWU (R264, R265). -/
def State.peekPwu (s : State) (off : Nat) : Nat :=
  let p := s.pwu
  let c := p.cfg
  match off with
  | 0x00 => b2n c.enable
  | 0x04 => put (b2n p.commitErr) 1 1
  | 0x08 => put c.seqBase 0 32
  | 0x0C => fld c.seqBase 32 20
  | 0x10 => c.tablePool
  | 0x14 => p.walkEpoch
  | 0x18 => s.oldest
  | 0x1C => put s.walkers.length 0 5 + put (min 64 p.parks.length) 8 7 + put p.retire.length 16 13
  | 0x20 => p.walks
  | 0x24 => p.labHits
  | 0x28 => p.promotes
  | 0x30 => put c.snapBase 0 32
  | 0x34 => fld c.snapBase 32 20
  | 0x38 => c.snapSize
  | 0x3C => p.snapHead % max 1 c.snapSize
  | 0x40 => p.snapTail % max 1 c.snapSize
  | 0x44 => s.snapAvail
  | _ => match slotAt off 0x80 4 16 with
    | some (d, 0) => Map.get 0 p.snapEpoch d
    | _ => match slotAt off 0x1000 0x40 64 with
      | some (k, o) => (s.pool k).peek o
      | none => 0

/-- The Bolter (R289). -/
def State.peekBolter (s : State) (off : Nat) : Nat :=
  match off with
  | 0x00 => b2n s.pwu.boltEnable
  | 0x04 => put (s.instList.filter fun i => i.opc == 0x50).length 0 4
  | 0x08 => s.pwu.scored
  | 0x0C => s.pwu.lists
  | _ => match slotAt off 0x100 4 64 with
    | some (c, 0) => put (s.cx c).sink 0 5 + put (s.cx c).win 8 7
    | _ => match slotAt off 0x400 0x10 64 with
      | some (c, 0x0) => (s.cx c).specDiscarded
      | some (c, 0x4) => (s.cx c).groupsConfirmed
      | some (c, 0x8) => (s.cx c).draftsCommitted
      | _ => 0

/-- The Weir (R495). -/
def State.peekWeir (s : State) (off : Nat) : Nat :=
  let w := s.weir
  match off with
  | 0x00 => b2n w.enable + put (b2n w.nanPolicy) 1 1
  | 0x04 => w.id
  | 0x08 => put (w.buckets.filter fun b => !b.closed).length 0 6
  | 0x0C => w.bucketsDone
  | 0x10 => w.lateSent
  | 0x14 => w.nonfinSeen
  | 0x18 => w.returned
  | 0x1C => w.unknown
  | _ => match slotAt off 0x100 4 16 with
    | some (i, 0) => ((List.range 16).map fun k => put (Map.get 0 w.cstate (16 * i + k)) (2 * k) 2).sum
    | _ => 0

/-- 32 flags of a map as a word. -/
def flags32 (m : Map Bool) (base : Nat) : Nat := ((List.range 32).map fun k => put (b2n (Map.get false m (base + k))) k 1).sum

/-- The Leat (R475). -/
def State.peekLeat (s : State) (off : Nat) : Nat :=
  match off with
  | 0x0 => flags32 s.leat.linkEn 0
  | 0x4 => flags32 s.leat.linkEn 32
  | _ => match slotAt off 0x100 0x20 8 with
    | some (g, 0x0) => b2n (s.group g).sepmode
    | some (g, 0x4) => (s.group g).vc0 + put (s.group g).vcmax 16 10
    | some (g, 0x8) => (s.group g).retryMax + put (s.group g).replayTmo 16 16
    | some (g, 0xC) => put (b2n (s.group g).commitErr) 1 1
    | some _ => 0
    | none => match slotAt off 0x1000 0x20 64 with
      | some (l, o) =>
        let x := s.link l
        (match o with
        | 0x00 => put x.st 0 2 + put x.partner 8 6 + put x.pvc0 14 10
        | 0x04 => x.frameErrs
        | 0x08 => x.replays
        | 0x0C => x.strays
        | 0x10 => x.txPkts
        | 0x14 => x.rxPkts
        | _ => 0)
      | none => 0

/-- The memory ports (R474). -/
def State.peekMem (s : State) (off : Nat) : Nat :=
  let m := s.mem
  match off with
  | 0x00 => m.tmo
  | 0x04 => b2n m.poisonKept
  | 0x08 => put (b2n m.ginvBusy) 2 1
  | 0x0C => put m.ginvBase 0 32
  | 0x10 => fld m.ginvBase 32 20
  | 0x14 => m.ginvPages
  | _ => match slotAt off 0x100 0x20 32 with
    | some (p, o) =>
      let x := s.port p
      (match o with
      | 0x00 => b2n (s.portFenced p) + put x.rdOut.length 1 12 + put x.wrOut.length 13 11
      | 0x04 => x.reads
      | 0x08 => x.writes
      | 0x0C => x.atomics
      | 0x10 => x.hits
      | 0x14 => x.errs
      | 0x18 => x.timeouts
      | _ => 0)
    | none => 0

/-- STATE of a context (R347). -/
def State.ctxState (s : State) (c : Nat) : Nat :=
  let x := s.cx c
  if s.ctxFenced c then 6
  else match x.run with
    | .stopped => 4
    | .halted => 5
    | .going =>
      if !x.enable then 0
      else if x.hold != .none || x.scalar.isSome then 3
      else if (x.wordAt 0).isSome || x.code.isSome then 2 else 1

/-- A context (R347). -/
def State.peekCtx (s : State) (c off : Nat) : Nat :=
  let x := s.cx c
  match off with
  | 0x00 => b2n x.enable + put (b2n x.cfg.fwOwned) 3 1
  | 0x04 => s.ctxState c + put (b2n x.err) 3 1 + put (s.inflight c) 4 6
  | 0x08 => x.nextPos
  | 0x0C => x.newest
  | 0x10 => put x.cfg.cmplBase 0 32
  | 0x14 => fld x.cfg.cmplBase 32 20
  | 0x18 => x.cfg.cmplSize
  | 0x1C => put x.cfg.consAddr 0 32
  | 0x20 => fld x.cfg.consAddr 32 20
  | 0x24 => x.rseq
  | 0x28 => x.domain
  | 0x2C => put (b2n x.commitErr) 1 1
  | _ => 0

/-- An exact sum read as binary32 (R58). -/
def sum32 (x : ℚ) : Nat := if f32Max < x then 0x7F7FFFFF else min 0x7F7FFFFF (f32Bits (rnd32 .rne (.fin false x)))

/-- A stream counter set (R58). -/
def Stream.peek (x : Stream) (off : Nat) : Nat := match off with
  | 0x00 => x.sat
  | 0x04 => x.flush
  | 0x08 => x.nonfin
  | 0x0C => put x.elem 0 32
  | 0x10 => fld x.elem 32 32
  | 0x14 => sum32 x.err2
  | 0x18 => sum32 x.sig2
  | 0x1C => put (b2n x.escalated) 1 1
  | _ => 0

/-- The Hopper and the sequencers (R58, R59, R347, R349, R350). -/
def State.peekSeq (s : State) (off : Nat) : Nat :=
  match off with
  | 0x0500 => s.log.evqLost
  | 0x7F00 => s.hop.satThr
  | 0x7F04 => s.hop.flushThr
  | 0x7F08 => s.hop.errThr
  | _ => match slotAt off 0x400 4 16 with
    | some (k, 0) => (Map.get 0 s.hop.inj k).toNat
    | _ => match slotAt off 0x1000 0x40 64 with
      | some (c, o) => s.peekCtx c o
      | none => match slotAt off 0x8000 0x200 64 with
        | some (c, o) => (Map.get {} (s.cx c).streams (o / 0x20)).peek (o % 0x20)
        | none => 0

/-- The protection unit (R502, R522). -/
def State.peekProt (s : State) (off : Nat) : Nat :=
  let p := s.prot
  let x := p.scarf
  match off with
  | 0x00 => x.cseq.toNat
  | 0x04 => x.phase + put (b2n x.pGo) 2 1 + put (b2n x.oGo) 3 1 + put x.result 4 8
  | 0x08 => if x.phase = 0 then 0 else (s.time.nclk - x.start) % 2 ^ 32
  | 0x0C => x.win
  | 0x20 => p.dbgEn.toNat
  | 0x24 => p.testEn.toNat
  | 0x28 => put p.imgAddr 0 32
  | 0x2C => fld p.imgAddr 32 20
  | 0x30 => put p.imgLen 0 16
  | 0x200 => flags32 p.bayF 0
  | 0x204 => flags32 p.portF 0
  | 0x208 => flags32 p.linkF 0
  | 0x20C => flags32 p.linkF 32
  | 0x210 => flags32 p.ctxF 0
  | 0x214 => flags32 p.ctxF 32
  | 0x218 => flags32 p.domF 0
  | 0x21C => (p.seqF.filter fun q => q.2.isSome).length
  | _ => match slotAt off 0x40 4 8, slotAt off 0x100 4 64, slotAt off 0x300 4 64, slotAt off 0x4000 4 4096, slotAt off 0x1000 4 536 with
    | some (j, 0), _, _, _, _ => (Map.get 0 p.imgDigest j).toNat
    | _, some (k, 0), _, _, _ => flags32 p.coreF (32 * k)
    | _, _, some (i, 0), _, _ => match Map.get none p.seqF i with
      | some (r, g) => r + put g 16 8 + put 1 24 1
      | none => 0
    | _, _, _, some (ix, 0), _ => (Map.get 0 p.win ix).toNat
    | _, _, _, _, some (k, 0) => if 0x840 ≤ 4 * k then fld x.digP (32 * (k - 0x210)) 32 else areaWord x.areaP (4 * k)
    | _, _, _, _, _ => 0

/-- The power and clock controller (R553). -/
def State.peekPwr (s : State) (off : Nat) : Nat :=
  let p := s.pwr
  let b := s.boot
  match off with
  | 0x00 => p.cdiv + put p.cdivEff 2 2 + put (b2n p.divPend) 4 1 + put (b2n p.divErr) 5 1 + put (b2n p.rootStopEn) 6 1
  | 0x04 => p.vcode + put p.vcodeEff 8 8 + put (b2n p.vgood) 16 1 + put (b2n p.voltErr) 17 1
  | 0x08 => s.fuse.vmin8 + put s.fuse.vmin10 8 8 + put s.fuse.vmin12 16 8 + put s.fuse.vmin16 24 8
  | 0x0C => b.step + put (b2n b.stDone) 3 1 + put (b2n (b.stBayFail != 0)) 4 1 + put (b2n b.rootLoss) 5 1 + put b.wakeCause 6 2
  | 0x10 => b.stBayFail
  | 0x14 => put (b2n p.cmdErr) 16 1
  | _ => match slotAt off 0x100 0x10 56 with
    | some (d, o) =>
      let x := s.dom d
      (match o with
      | 0x0 => x.state + put (b2n x.entering) 3 1 + put (b2n x.exiting) 4 1 + put (b2n (s.held d)) 5 1
      | 0x4 => x.t1
      | 0x8 => x.t2
      | 0xC => x.t3
      | _ => 0)
    | none => match slotAt off 0x800 4 32 with
      | some (k, 0) => (s.by k).limit + put (s.by k).limitEff 8 5 + put (b2n (s.by k).limPend) 13 1
      | _ => 0

/-- The error log (R521). -/
def State.peekLog (s : State) (off : Nat) : Nat :=
  let l := s.log
  match off with
  | 0x00 => l.head
  | 0x04 => l.cons
  | 0x08 => l.lost
  | 0x0C => b2n l.valid + put (b2n l.full) 1 1 + put l.held.length 2 5
  | 0x10 => put l.base 0 32
  | 0x14 => fld l.base 32 20
  | _ => 0

/-- A bay's window (R131, R161, R208). -/
def State.peekBay (s : State) (b off : Nat) : Nat :=
  let x := s.by b
  match off with
  | 0x400 => x.mode + put (b2n x.recovery) 2 1 + put (b2n (s.debugVis b)) 3 1
  | 0x404 => x.reanch
  | 0x410 => x.dbgAddr
  | 0x414 => x.dbgD0.toNat
  | 0x418 => if s.debugVis b || x.mode == 3 then x.dbgD1.toNat else 0
  | 0x41C => if s.debugVis b || x.mode == 3 then x.dbgD2.toNat else 0
  | 0x420 => if s.debugVis b || x.mode == 3 then x.dbgD3.toNat else 0
  | 0x500 => put x.biasGen 0 16 + put x.biasBank 16 1 + put (b2n x.biasLoading) 17 1 + put (b2n x.biasReserved) 18 1 + put (b2n x.biasValid) 19 1
  | 0x600 => put x.upGen 0 16 + put x.upBank 16 1 + put (b2n x.upLoading) 17 1 + put (b2n x.upValid) 18 1
  | _ => 0

/-- What the register at a 4-byte aligned offset reads, its domain answering. -/
def State.regPeek (s : State) (a : Nat) : Nat :=
  let off := a % 0x10000
  match a / 0x10000 with
  | 0x00 => s.peekId off
  | 0x01 => s.peekSluice off
  | 0x02 => s.peekPwu off
  | 0x03 => s.peekBolter off
  | 0x04 => s.peekWeir off
  | 0x05 => s.peekLeat off
  | 0x06 => s.peekMem off
  | 0x07 => s.peekSeq off
  | 0x08 => s.peekProt off
  | 0x09 => s.peekPwr off
  | 0x0A => s.peekLog off
  | w => if 0x10 ≤ w ∧ w < 0x30 then s.peekBay (w - 0x10) off else 0

/-- Read a register (R24, R30, R457): zero where its domain does not answer. A read of ACCM_DBG_D0 latches a sample
(R132). -/
def State.readReg (s : State) (a : Nat) : State × W32 :=
  let on := ((regDom a).map s.winOn).getD true
  if !on then (s, 0)
  else
    let s1 := match slotAt a 0x100000 0x10000 32 with
      | some (b, 0x414) => s.dbgSample b
      | _ => s
    (s1, BitVec.ofNat 32 (s1.regPeek a))

/-- A read over the management port (R456, R457): MGT_RDATA and MGT_PWR. ACCM_DBG_READ is one; the table has no row for any
other (log 15). -/
def State.mgtRead (s : State) (a : Nat) : State :=
  if !s.mgtUp then s
  else
    let off := ((regDom a).map fun d => decide ((s.dom d).state = 3) || decide ((s.dom d).state = 4)).getD false
    let r := s.readReg a
    r.1.onPins fun q => { q with mgtRdata := r.2, mgtPwr := off }

/-- What the operator's area reads over the sideband port at an offset (R458, R502). -/
def State.peekOperator (s : State) (off : Nat) : Nat :=
  let x := s.prot.scarf
  if off = 0x900 then x.cseq.toNat
  else if off = 0x904 then s.peekProt 4
  else if 0x840 ≤ off ∧ off < 0x860 then fld x.digO (32 * ((off - 0x840) / 4)) 32
  else areaWord x.areaO off

/-- A read over the sideband port: SB_RDATA (R458). The table has no row for it (log 15). -/
def State.sbRead (s : State) (off : Nat) : State :=
  if !s.mgtUp then s else s.onPins fun q => { q with sbRdata := BitVec.ofNat 32 (s.peekOperator (off / 4 * 4 % 4096)) }

/-- A management read of ACCM_DBG_D0 of bay `b` (R132). -/
def execAccmDbgRead (b : Fin 32) (s : State) : Out :=
  .next (if s.mgtUp then s.mgtRead (0x100000 + 0x10000 * b.val + 0x414) else s.holdAccess (.accmDbgRead b))

/-! ### Writes -/

/-- Stage a field word of a reservation. -/
def ResvCfg.poke (c : ResvCfg) (off v : Nat) : ResvCfg :=
  match off with
  | 0x00 => { c with ctx := fld v 8 6, maxdiv := fld v 14 2, lcred := fld v 16 5 }
  | 0x08 => { c with bays := v }
  | 0x0C => { c with cores := setFld c.cores 0 32 v }
  | 0x10 => { c with cores := setFld c.cores 32 32 v }
  | 0x14 => { c with w := fld v 0 23 }
  | 0x18 => { c with p := fld v 0 23 }
  | 0x1C => { c with d := fld v 0 23 }
  | 0x20 => { c with links := setFld c.links 0 32 v }
  | 0x24 => { c with links := setFld c.links 32 32 v }
  | _ => match slotAt off 0x40 4 8 with
    | some (i, 0) => { c with portsh := Map.setMany 0 c.portsh ((List.range 4).map fun k => (4 * i + k, fld v (8 * k) 8)) }
    | _ => c

/-- A reservation: the fields are staged, then ADMIT, RELEASE and REVOKE act. -/
def State.pokeResv (s : State) (r off v : Nat) : State :=
  let s1 := s.onRv r fun x => { x with staged := x.staged.poke off v }
  if off ≠ 0 then s1
  else
    let s2 := if bitOf v 0 then s1.admitRes r else s1
    let s3 := if bitOf v 1 then s2.releaseRes r else s2
    if bitOf v 2 then s3.revoke r 2 else s3

def State.pokeSluice (s : State) (off v : Nat) : State :=
  match off with
  | 0x04 => s.writeAen v
  | 0x0C => if s.admittedList.isEmpty then s.onSluice fun q => { q with lMem := fld v 0 16 } else s
  | 0x10 => s.onSluice fun q => { q with holdA := fld v 0 16, holdBC := fld v 16 16 }
  | 0x14 => s.onSluice fun q => { q with cGap := fld v 0 8 }
  | _ => match slotAt off 0x200 4 64 with
    | some (c, 0) => s.onCx c fun x => { x with weight := fld v 0 8 }
    | _ => match slotAt off 0x300 4 64 with
      | some (c, 0) => s.onCx c fun x => { x with baymask := v }
      | _ => match slotAt off 0x1000 0x80 32 with
        | some (r, o) => s.pokeResv r o v
        | none => s

/-- Stage a field word of a pool. -/
def PoolCfg.poke (c : PoolCfg) (off v : Nat) : PoolCfg :=
  match off with
  | 0x00 =>
    { c with tpp := fld v 0 2, kvf := fld v 2 1, kind := fld v 3 1, heads := fld v 4 4, dim := fld v 8 3, tier := fld v 11 1,
             enable := bitOf v 12, partner := fld v 16 6, partnerEn := bitOf v 22, snapPool := fld v 24 6, snapEn := bitOf v 30 }
  | 0x04 => { c with frameBase := setFld c.frameBase 0 32 v }
  | 0x08 => { c with frameBase := setFld c.frameBase 32 8 v }
  | 0x0C => { c with slots := fld v 0 26 }
  | 0x10 => { c with metaBase := setFld c.metaBase 0 32 v }
  | 0x14 => { c with metaBase := setFld c.metaBase 32 20 v }
  | 0x18 => { c with ringBase := setFld c.ringBase 0 32 v }
  | 0x1C => { c with ringBase := setFld c.ringBase 32 20 v }
  | 0x20 => { c with ringInit := fld v 0 26 }
  | _ => c

/-- Stage a field word of the PWU. -/
def PwuCfg.poke (c : PwuCfg) (off v : Nat) : PwuCfg :=
  match off with
  | 0x08 => { c with seqBase := setFld c.seqBase 0 32 v }
  | 0x0C => { c with seqBase := setFld c.seqBase 32 20 v }
  | 0x10 => { c with tablePool := fld v 0 6 }
  | 0x30 => { c with snapBase := setFld c.snapBase 0 32 v }
  | 0x34 => { c with snapBase := setFld c.snapBase 32 20 v }
  | 0x38 => { c with snapSize := fld v 0 24 }
  | _ => c

def State.pokePwu (s : State) (off v : Nat) : State :=
  match off with
  | 0x00 =>
    let s1 := s.onPwu fun p => { p with cfg := { p.cfg with enable := bitOf v 0 } }
    if bitOf v 1 then s1.parkAbort else s1
  | 0x04 =>
    let s1 := s.onPwu fun p => { p with commitErr := p.commitErr && !bitOf v 1 }
    if bitOf v 0 then s1.pwuCommit else s1
  | _ => match slotAt off 0x80 4 16 with
    | some (d, 0) => s.onPwu fun p => { p with snapEpoch := Map.set 0 p.snapEpoch d v }
    | _ => match slotAt off 0x1000 0x40 64 with
      | some (k, o) => s.onPool k fun x => { x with staged := x.staged.poke o v }
      | none => s.onPwu fun p => { p with staged := p.staged.poke off v }

def State.pokeBolter (s : State) (off v : Nat) : State :=
  match off with
  | 0x00 => s.onPwu fun p => { p with boltEnable := bitOf v 0 }
  | _ => match slotAt off 0x100 4 64 with
    | some (c, 0) => s.onCx c fun x => { x with sink := fld v 0 5, win := fld v 8 7 }
    | _ => match slotAt off 0x400 0x10 64 with
      | some (c, 0xC) => if bitOf v 0 then s.bolterClear c else s
      | _ => s

def State.pokeWeir (s : State) (off v : Nat) : State :=
  match off with
  | 0x00 => { s with weir := { s.weir with enable := bitOf v 0, nanPolicy := bitOf v 1 } }
  | 0x04 => { s with weir := { s.weir with id := fld v 0 8 } }
  | _ => match slotAt off 0x100 4 16 with
    | some (i, 0) => s.writeCstate i v
    | _ => s

def State.pokeLeat (s : State) (off v : Nat) : State :=
  match off with
  | 0x0 => s.writeLinkEn false v
  | 0x4 => s.writeLinkEn true v
  | _ => match slotAt off 0x100 0x20 8 with
    | some (g, 0x0) => s.onGroup g fun x => { x with sSepmode := bitOf v 0 }
    | some (g, 0x4) => s.onGroup g fun x => { x with sVc0 := fld v 0 10, sVcmax := fld v 16 10 }
    | some (g, 0x8) => s.onGroup g fun x => { x with retryMax := fld v 0 4, replayTmo := fld v 16 16 }
    | some (g, 0xC) =>
      let s1 := s.onGroup g fun x => { x with commitErr := x.commitErr && !bitOf v 1 }
      if bitOf v 0 then s1.leatCommit g else s1
    | _ => s

def State.pokeMem (s : State) (off v : Nat) : State :=
  let on := fun (f : Mem → Mem) => { s with mem := f s.mem }
  match off with
  | 0x00 => on fun m => { m with tmo := fld v 0 24 }
  | 0x04 => on fun m => { m with poisonKept := bitOf v 0 }
  | 0x08 =>
    let s1 := if bitOf v 0 then s.ginvAll else s
    if bitOf v 1 then s1.ginvRange else s1
  | 0x0C => on fun m => { m with ginvBase := setFld m.ginvBase 0 32 v }
  | 0x10 => on fun m => { m with ginvBase := setFld m.ginvBase 32 20 v }
  | 0x14 => on fun m => { m with ginvPages := fld v 0 28 }
  | _ => s

/-- Stage a field word of a context. -/
def CtxCfg.poke (c : CtxCfg) (off v : Nat) : CtxCfg :=
  match off with
  | 0x00 => { c with fwOwned := bitOf v 3 }
  | 0x10 => { c with cmplBase := setFld c.cmplBase 0 32 v }
  | 0x14 => { c with cmplBase := setFld c.cmplBase 32 20 v }
  | 0x18 => { c with cmplSize := fld v 0 5 }
  | 0x1C => { c with consAddr := setFld c.consAddr 0 32 v }
  | 0x20 => { c with consAddr := setFld c.consAddr 32 20 v }
  | _ => c

/-- A context: ENABLE, then RESET and RESUME act. -/
def State.pokeCtx (s : State) (c off v : Nat) : State :=
  let s1 := s.onCx c fun x => { x with staged := x.staged.poke off v }
  match off with
  | 0x00 =>
    let s2 := s1.ctxEnable c (bitOf v 0)
    let s3 := if bitOf v 1 then s2.ctxReset c else s2
    if bitOf v 2 then s3.ctxResume c else s3
  | 0x2C =>
    let s2 := s1.onCx c fun x => { x with commitErr := x.commitErr && !bitOf v 1 }
    if bitOf v 0 then s2.ctxCommit c else s2
  | _ => s1

def State.pokeSeq (s : State) (off v : Nat) : State :=
  match off with
  | 0x0440 => s.inject v
  | 0x7F00 => { s with hop := { s.hop with satThr := fld v 0 16 } }
  | 0x7F04 => { s with hop := { s.hop with flushThr := fld v 0 16 } }
  | 0x7F08 => { s with hop := { s.hop with errThr := fld v 0 16 } }
  | _ => match slotAt off 0x400 4 16 with
    | some (k, 0) => { s with hop := { s.hop with inj := Map.set 0 s.hop.inj k (BitVec.ofNat 32 v) } }
    | _ => match slotAt off 0x1000 0x40 64 with
      | some (c, o) => s.pokeCtx c o v
      | none => match slotAt off 0x8000 0x200 64 with
        | some (c, o) =>
          if o % 0x20 ≠ 0x1C then s
          else
            let s1 := if bitOf v 1 then s.onCx c fun x =>
                { x with streams := Map.modify {} x.streams (o / 0x20) fun y => { y with escalated := false } }
              else s
            if bitOf v 0 then s1.streamClear c (o / 0x20) else s1
        | none => s

/-- The platform's GO and ABANDON. -/
def State.goWrite (s : State) (op : Bool) (v : Nat) : State :=
  if bitOf v 1 then s.scarfAbandon else if bitOf v 0 then s.scarfGo op else s

def State.pokeProt (s : State) (off v : Nat) : State :=
  match off with
  | 0x220 => s.fenceSet v
  | 0x224 => s.fenceClr v
  | 0x1820 => s.goWrite false v
  | _ => match slotAt off 0x1000 0x1000 1 with
    | some (_, o) => s.stage false o (BitVec.ofNat 32 v)
    | none => s

/-- A write of 0x09_0014; `own` says that the Miller makes it (R554). -/
def State.pokePwrCmd (s : State) (own : Bool) (v : Nat) : State :=
  (s.onPwr fun p => { p with cmdErr := p.cmdErr && !bitOf v 16 }).pwrCmd own (fld v 0 6) (fld v 8 3)

def State.pokePwr (s : State) (off v : Nat) : State :=
  match off with
  | 0x00 => s.writeCdiv v
  | 0x04 => s.writeVcode v
  | 0x14 => s.pokePwrCmd false v
  | _ => match slotAt off 0x100 0x10 56 with
    | some (d, 0x4) => s.onDom d fun x => { x with t1 := v }
    | some (d, 0x8) => s.onDom d fun x => { x with t2 := v }
    | some (d, 0xC) => if ladder d then s.onDom d fun x => { x with t3 := v } else s
    | some _ => s
    | none => match slotAt off 0x800 4 32 with
      | some (b, 0) => if s.present b then s.writeLimit b v else s
      | _ => s

def State.pokeLog (s : State) (off v : Nat) : State :=
  match off with
  | 0x04 => s.writeCons v
  | 0x0C => s.onLog fun l => { l with full := l.full && !bitOf v 1 }
  | _ => s

def State.pokeBay (s : State) (b off v : Nat) : State :=
  match off with
  | 0x400 => s.writeRecovery b v
  | 0x410 => s.onBy b fun x => { x with dbgAddr := fld v 0 19 }
  | _ => s

/-- What a write of the register at a 4-byte aligned offset does, its domain answering. -/
def State.regPoke (s : State) (a v : Nat) : State :=
  let off := a % 0x10000
  match a / 0x10000 with
  | 0x01 => s.pokeSluice off v
  | 0x02 => s.pokePwu off v
  | 0x03 => s.pokeBolter off v
  | 0x04 => s.pokeWeir off v
  | 0x05 => s.pokeLeat off v
  | 0x06 => s.pokeMem off v
  | 0x07 => s.pokeSeq off v
  | 0x08 => s.pokeProt off v
  | 0x09 => s.pokePwr off v
  | 0x0A => s.pokeLog off v
  | w => if 0x10 ≤ w ∧ w < 0x30 then s.pokeBay (w - 0x10) off v else s

/-- The Miller writes a register (R24, R30, R457): nothing where its domain does not answer. -/
def State.writeReg (s : State) (a v : Nat) : State :=
  if a = 0x090014 then s.pokePwrCmd true v else s.gated (regDom a) fun s => s.regPoke a v

/-- A management-port write. The port has no address bits below bit 2 (R432). -/
def execMgtWrite (addr : BitVec 24) (v : W32) (s : State) : Out :=
  let a := addr.toNat / 4 * 4
  .next (s.mgt (.mgtWrite addr v) (regDom a) fun s => s.regPoke a v.toNat)

/-! ### Test instruments (R511, log 12) -/

/-- A byte of the retention memory (R507, R544): SAVED, the Miller's local store; the layout of a domain's save is not given. -/
def State.retByte (s : State) (off : Nat) : Byte :=
  if off < 8 then BitVec.ofNat 8 (s.savedBits / 2 ^ (8 * off))
  else if off < 0x4000 then 0
  else Map.get 0 s.miller.store (off - 0x4000)

/-- An instrument of a bay needs the bay's TEST_EN bit, one of the shared units any of them; and a domain that is on. -/
def State.tapOpen (s : State) (b : Nat) : TapTarget → Bool
  | .shared a => s.prot.testEn != 0 && (match regDom (a.toNat / 4 * 4) with
      | some d => s.isOn d
      | none => true)
  | .retByte _ => s.prot.testEn != 0
  | _ => bitOf s.prot.testEn.toNat b && s.isOn b

/-- What an instrument reads, with the state that the read leaves. -/
def State.tapGet (s : State) (b : Nat) (t : TapTarget) : State × W32 :=
  match t with
  | .shared a => s.readReg (a.toNat / 4 * 4)
  | .retByte off => (s, (s.retByte off.toNat).zeroExtend 32)
  | t => (s, s.tapRead b t)

def State.tapPut (s : State) (b : Nat) (t : TapTarget) (v : W32) : State :=
  match t with
  | .shared a => s.regPoke (a.toNat / 4 * 4) v.toNat
  | .retByte off =>
    if off.toNat < 0x4000 then s
    else s.onMiller fun m => { m with store := Map.set 0 m.store (off.toNat - 0x4000) (v.truncate 8) }
  | t => s.tapWrite b t v

/-- An instrument access through the test access port. -/
def execTapInstrumentAccess (b : Fin 32) (t : TapTarget) (v : Option W32) (s : State) : Out :=
  if !s.tapOpen b t then idle s
  else match v with
    | none =>
      let r := s.tapGet b t
      .next (r.1.onPins fun q => { q with tdo := r.2 })
    | some v => .next (s.tapPut b t v)

/-! ### The Miller (R348, R350, R509) -/

/-- The management address of MRD and MWR; `none` where it names no register. -/
def millerReg (s : State) (w : W32) : Option Nat :=
  let a := (regRead s.miller.s (fa w) + BitVec.ofInt 64 (simm w * 4)).toNat
  if a % 4 = 0 ∧ a < 2 ^ 24 then some a else none

/-- A context refuses the Miller's instructions (R325). -/
def ctxPriv (op c : Nat) (w : W32) (s : State) : Out := ctxShort op c w s fun s => .next (s.refuseScalar c 1 Code.priv (0x80 + op))

def execMrd (x : Exe) (w : W32) (s : State) : Out :=
  match x with
  | .ctx c => ctxPriv 0x20 c.val w s
  | .miller => millerShort 0x20 w s fun s =>
      let r := match millerReg s w with
        | some a => s.readReg a
        | none => (s, 0)
      .next (r.1.onMiller fun m => { m with s := regWrite m.s (fd w) (r.2.zeroExtend 64) }.next)

def execMwr (x : Exe) (w : W32) (s : State) : Out :=
  match x with
  | .ctx c => ctxPriv 0x21 c.val w s
  | .miller => millerShort 0x21 w s fun s =>
      let t := s.onMiller Miller.next
      .next (match millerReg s w with
        | some a => t.writeReg a ((regRead s.miller.s (fb w)).toNat % 2 ^ 32)
        | none => t)

/-- EVQ: `d` is even; an empty queue writes only `s[d]`. -/
def execEvq (x : Exe) (w : W32) (s : State) : Out :=
  match x with
  | .ctx c => ctxPriv 0x22 c.val w s
  | .miller => millerShort 0x22 w s fun s =>
      match s.log.evq with
      | [] => .next (s.onMiller fun m => { m with s := regWrite m.s (fd w) 0 }.next)
      | e :: es =>
        let t := s.onLog fun l => { l with evq := es }
        .next (t.onMiller fun m =>
          { m with s := regWrite (regWrite m.s (fd w) (e.truncate 64)) (fd w + 1) ((e >>> 64).truncate 64) }.next)

def execWfe (x : Exe) (w : W32) (s : State) : Out :=
  match x with
  | .ctx c => ctxPriv 0x23 c.val w s
  | .miller => millerShort 0x23 w s fun s =>
      if s.log.evq.isEmpty then .next (s.onMiller fun m => { m with waiting := true }) else .next (s.onMiller Miller.next)

/-- A WFE that waits completes once the queue holds an event. -/
def execWfeRelease (s : State) : Out :=
  if s.miller.waiting && !s.log.evq.isEmpty && s.isOn 55 then .next (s.onMiller fun m => { m.next with waiting := false }) else idle s

/-- The cause of the fault that the word at the Miller's instruction address raises (R509, log 20). -/
def State.millerCause (s : State) : Option Nat :=
  match s.millerWord with
  | none => some 3
  | some w =>
    let o := fld w.toNat 1 6
    if bitOf w.toNat 0 then some 1
    else if millerExcluded o || shortBad o w.toNat then some 2
    else if o = 0x0F ∨ o = 0x10 then
      let a := (regRead s.miller.s (fa w) + BitVec.ofInt 64 (simm w * 8)).toNat
      if a % 8 ≠ 0 ∨ millerSize < a + 8 then some 3 else none
    else none

def execMillerFault (s : State) : Out :=
  if !s.millerRuns then idle s
  else match s.millerCause with
    | some k => .next (s.millerFault' k)
    | none => idle s

end Sys2Proof.Machine
end

