-- ==== Sys2Proof/Machine/System.lean ====
section
/-!
DEFINITION. The system instructions (R398, R399): FENCE, WAIT, SIG, CALL, RET, the events that complete
them, and the consumed-count poll of R345.
-/

namespace Sys2Proof.Machine

/-- Issue a system instruction: `bad` says that a field that must be zero is not, or CLS is reserved. -/
def issueSystem (opc : Nat) (c : Nat) (w : Long) (s : State) (bad : Bool) (f : State → Out) : Out :=
  if !bitOf w.w0.toNat 0 || w.opc != opc then .refused .otherRow
  else if !s.canIssue c then idle s
  else if (s.cx c).ringFull then .next (s.onCx c fun y => { y with hold := .ring })
  else match s.fetchCode c 4 with
    | some s1 => .next s1
    | none =>
      if !s.readyAt c w.words then idle s
      else
        let x := s.cx c
        if x.rp (fld w.w0.toNat 12 3) == bitOf w.w0.toNat 15 then
          .next (s.retire c w 0 false 0)
        else if bad || decide (4 ≤ fld w.w0.toNat 8 4) || fld w.w0.toNat 16 16 != 0 then .next (s.refuseScalar c 4 Code.encoding opc)
        else f s

/-- Stop a context whose ERR is 1 at its WAIT or FENCE: KIND 3 with the code in LASTERR (R337). The
instruction stays at the issue position. -/
def State.stopErr (s : State) (c opc : Nat) : State :=
  let x := s.cx c
  if x.ringFull then s.onCx c fun y => { y with hold := .ring }
  else
    let sp := x.sposNow
    let s1 := s.onCx c fun y => { y with run := .stopped, hold := .none }
    s1.writeRec c false { kind := 3, code := x.lastErr.toNat % 2 ^ 16, opc := opc, spos := sp.1, called := sp.2 }

/-- Complete the system instruction at the issue position: increment under EVEN and go on. -/
def State.completeSys (s : State) (c : Nat) (w : Long) : State := (s.onCx c fun y => y.adv 4).bump c w

/-- The long instruction at the issue position. -/
def Ctx.longAt (x : Ctx) : Option Long :=
  match x.wordAt 0, x.wordAt 1, x.wordAt 2, x.wordAt 3 with
  | some a, some b, some c, some d => some ⟨a, b, c, d⟩
  | _, _, _, _ => none

/-- Every tensor instruction that the context issued before number `n` has ended (R340, R341). -/
def State.ended (s : State) (c n : Nat) : Bool := !(s.instList.any fun i => i.ctx == c && i.opc != 0x72 && decide (i.n < n))

/-- FENCE at the issue position. -/
def State.fenceStep (s : State) (c : Nat) (w : Long) : State :=
  if (s.cx c).err then s.stopErr c 0x70
  else if s.ended c s.nextInst then s.completeSys c w
  else s.onCx c fun y => { y with hold := .fence }

def execFence (c : Fin 64) (w : Long) (s : State) : Out :=
  issueSystem 0x70 c w s (w.w1 != 0 || w.w2 != 0 || fld w.w3.toNat 6 26 != 0) fun s => .next (s.fenceStep c w)

/-- A FENCE that holds completes once the earlier instructions have ended, or stops if ERR was set. -/
def execFenceSatisfied (c : Fin 64) (s : State) : Out :=
  let x := s.cx c
  if x.hold != .fence || !s.canIssue c || !(s.ended c s.nextInst || x.err) then idle s
  else match x.longAt with
    | some w => .next (s.fenceStep c w)
    | none => idle s

/-- The value that WAIT waits for. -/
def Ctx.waitVal (x : Ctx) (w : Long) : W32 := (x.rs (fld w.w1.toNat 5 5)).truncate 32 + w.w2

/-- `(e[n] − v) mod 2^32 < 2^31` (R339). -/
def Ctx.waitMet (x : Ctx) (w : Long) : Bool := decide ((x.ev (fld w.w1.toNat 0 5) - x.waitVal w).toNat < 2 ^ 31)

/-- WAIT at the issue position. -/
def State.waitStep (s : State) (c : Nat) (w : Long) : State :=
  if (s.cx c).err then s.stopErr c 0x71
  else if (s.cx c).waitMet w then s.completeSys c w
  else s.onCx c fun y => { y with hold := .wait }

def execWait (c : Fin 64) (w : Long) (s : State) : Out :=
  issueSystem 0x71 c w s (fld w.w1.toNat 10 22 != 0 || fld w.w3.toNat 6 26 != 0) fun s => .next (s.waitStep c w)

def execWaitSatisfied (c : Fin 64) (s : State) : Out :=
  let x := s.cx c
  if x.hold != .wait || !s.canIssue c then idle s
  else match x.longAt with
    | some w => if x.waitMet w || x.err then .next (s.waitStep c w) else idle s
    | none => idle s

/-- SIG counts as an instruction in flight until its increment lands; it never reaches the Sluice, and has no class (R399). -/
def execSig (c : Fin 64) (w : Long) (s : State) : Out :=
  issueSystem 0x72 c w s (fld w.w1.toNat 11 21 != 0 || w.w2 != 0 || fld w.w3.toNat 8 24 != 0) fun s =>
    let t := fld w.w1.toNat 0 6
    let x := s.cx c
    if (s.cx t).domain ≠ x.domain then .next (s.refuseScalar c 4 Code.priv 0x72)
    else if x.ringFull then .next (s.onCx c fun y => { y with hold := .ring })
    else if 32 ≤ s.inflight c then .next (s.onCx c fun y => { y with hold := .inflight })
    else .next (s.accept { s.capture c w with cls := 0, bays := [], aux := [t, fld w.w1.toNat 6 5] } false)

/-- The increment of SIG number `n`: its record first, then the target's counter and its own under EVEN. -/
def execSigIncrement (n : Nat) (s : State) : Out :=
  match s.inst n with
  | none => idle s
  | some i =>
    if i.opc ≠ 0x72 || !s.ended i.ctx n then idle s
    else
      let t := i.aux.getD 0 0
      let k := i.aux.getD 1 0
      let s1 := s.onCx i.ctx fun y => { y with resv := y.resv - 1 }
      let s2 := if i.w.rec' then
          s1.writeRec i.ctx false { kind := 4, opc := 0x72, int := i.w.int', spos := i.spos, called := i.called }
        else s1
      let s3 := (s2.onCx t fun y => y.wev k (y.ev k + 1)).wakeLadder (51 + t / 16)
      let s4 := s3.bump i.ctx i.w
      .next { s4 with insts := Map.erase s4.insts n }

/-- The target address of CALL: `s[a] + offset`. -/
def Ctx.callAddr (x : Ctx) (w : Long) : Option Nat := scalarAddr (x.rs (fld w.w1.toNat 0 5)) (sextNat 32 w.w2.toNat)

def execCall (c : Fin 64) (w : Long) (s : State) : Out :=
  issueSystem 0x73 c w s (fld w.w1.toNat 5 27 != 0 || w.w3 != 0) fun s =>
    let x := s.cx c
    match x.callAddr w with
    | none => .next (s.refuseScalar c 4 Code.operand 0x73)
    | some a =>
      if a % 4 ≠ 0 then .next (s.refuseScalar c 4 Code.operand 0x73)
      else if 8 ≤ x.stack.length then
        .next ((s.onCx c fun y => y.adv 4).faultScalar c 0x73 x.sposNow { code := Code.fCallDepth, unit := 0x07 })
      else
        let z := x.adv 4
        let back : Bool × Nat := match z.code with
          | none => (true, z.nextPos)
          | some b => (false, b)
        .next (s.onCx c fun _ =>
          { z with stack := back :: x.stack, code := some a, codeBuf := [], callSpos := x.sposNow.1 })

def execRet (c : Fin 64) (w : Long) (s : State) : Out :=
  issueSystem 0x74 c w s (w.w1 != 0 || w.w2 != 0 || w.w3 != 0) fun s =>
    let x := s.cx c
    match x.stack with
    | [] => .next ((s.onCx c fun y => y.adv 4).faultScalar c 0x74 x.sposNow { code := Code.fCallDepth, unit := 0x07 })
    | (inStream, p) :: rest =>
      .next (s.onCx c fun y =>
        if inStream then { y with stack := rest, code := none, codeBuf := [], nextPos := p, hold := .none }
        else { y with stack := rest, code := some p, codeBuf := [], hold := .none })

/-- Read CONS_ADDR while issue holds on a full ring (R345); the read never goes through the Granary. It is
checked against the context's windows like any other read of it. -/
def execConsAddrPoll (c : Fin 64) (s : State) : Out :=
  let x := s.cx c
  if x.hold != .ring || s.ctxFenced c then idle s
  else
    let a := x.cfg.consAddr
    if s.mem.ports.any fun p => p.2.allReqs.any fun r => r.why == .cons c.val then idle s
    else match s.checkAcc x.domain false .rd a with
      | .ok =>
        if s.portFenced (homePort a) then .next (s.logErr
          { code := Code.fPortFenced, unit := 0x06, ctx := some c.val, addr := a, poison := true, detail := homePort a })
        else .next (s.queueRead x.domain false (.cons c.val) a 64 false [])
      | .fencedDom => idle s
      | _ => .next (s.report
          { code := Code.fWindow, scope := 5, unit := 0x08, index := c.val, ctx := some c.val, addr := a, poison := true,
            detail := 1 + 16 * x.domain } x.domain)

end Sys2Proof.Machine
end

