-- ==== Sys2Proof/Machine/Dispatch.lean ====
section
/-! DEFINITION. The dispatch: one arm for each command, each a call of its meaning. -/

namespace Sys2Proof.Machine
open Sys2Proof

def exec (i : Instr) (s : State) : Host.Outcome State Fault Refusal :=
  match i with
  | .nop x w => Sys2Proof.Machine.execNop x w s
  | .add x w => Sys2Proof.Machine.execAdd x w s
  | .sub x w => Sys2Proof.Machine.execSub x w s
  | .mul x w => Sys2Proof.Machine.execMul x w s
  | .and x w => Sys2Proof.Machine.execAnd x w s
  | .or x w => Sys2Proof.Machine.execOr x w s
  | .xor x w => Sys2Proof.Machine.execXor x w s
  | .shl x w => Sys2Proof.Machine.execShl x w s
  | .shr x w => Sys2Proof.Machine.execShr x w s
  | .sra x w => Sys2Proof.Machine.execSra x w s
  | .addi x w => Sys2Proof.Machine.execAddi x w s
  | .shli x w => Sys2Proof.Machine.execShli x w s
  | .cmp x w => Sys2Proof.Machine.execCmp x w s
  | .plog x w => Sys2Proof.Machine.execPlog x w s
  | .br x w => Sys2Proof.Machine.execBr x w s
  | .ld x w => Sys2Proof.Machine.execLd x w s
  | .st x w => Sys2Proof.Machine.execSt x w s
  | .ldt x w => Sys2Proof.Machine.execLdt x w s
  | .stt x w => Sys2Proof.Machine.execStt x w s
  | .ldl x w => Sys2Proof.Machine.execLdl x w s
  | .ldh x w => Sys2Proof.Machine.execLdh x w s
  | .evr x w => Sys2Proof.Machine.execEvr x w s
  | .evw x w => Sys2Proof.Machine.execEvw x w s
  | .csrr x w => Sys2Proof.Machine.execCsrr x w s
  | .csrw x w => Sys2Proof.Machine.execCsrw x w s
  | .halt x w => Sys2Proof.Machine.execHalt x w s
  | .mrd x w => Sys2Proof.Machine.execMrd x w s
  | .mwr x w => Sys2Proof.Machine.execMwr x w s
  | .evq x w => Sys2Proof.Machine.execEvq x w s
  | .wfe x w => Sys2Proof.Machine.execWfe x w s
  | .wfeRelease => Sys2Proof.Machine.execWfeRelease s
  | .millerFault => Sys2Proof.Machine.execMillerFault s
  | .mmp c w => Sys2Proof.Machine.execMmp c w s
  | .mmw c w => Sys2Proof.Machine.execMmw c w s
  | .mmc c w => Sys2Proof.Machine.execMmc c w s
  | .drain c w => Sys2Proof.Machine.execDrain c w s
  | .accz c w => Sys2Proof.Machine.execAccz c w s
  | .rstat c w => Sys2Proof.Machine.execRstat c w s
  | .accsv c w => Sys2Proof.Machine.execAccsv c w s
  | .accld c w => Sys2Proof.Machine.execAccld c w s
  | .attf c w => Sys2Proof.Machine.execAttf c w s
  | .attb c w => Sys2Proof.Machine.execAttb c w s
  | .attmConfirm c w => Sys2Proof.Machine.execAttmConfirm c w s
  | .attmMerge c w => Sys2Proof.Machine.execAttmMerge c w s
  | .bias c w => Sys2Proof.Machine.execBias c w s
  | .fnx c w => Sys2Proof.Machine.execFnx c w s
  | .fnxLoad c w => Sys2Proof.Machine.execFnxLoad c w s
  | .fnxCompat c w => Sys2Proof.Machine.execFnxCompat c w s
  | .gate c w => Sys2Proof.Machine.execGate c w s
  | .norm c w => Sys2Proof.Machine.execNorm c w s
  | .qnt c w => Sys2Proof.Machine.execQnt c w s
  | .kvap c w => Sys2Proof.Machine.execKvap c w s
  | .kvapSpec c w => Sys2Proof.Machine.execKvapSpec c w s
  | .kvcm c w => Sys2Proof.Machine.execKvcm c w s
  | .kvds c w => Sys2Proof.Machine.execKvds c w s
  | .kvfn c w => Sys2Proof.Machine.execKvfn c w s
  | .kviv c w => Sys2Proof.Machine.execKviv c w s
  | .pgcwCopy c w => Sys2Proof.Machine.execPgcwCopy c w s
  | .pgcwPromote c w => Sys2Proof.Machine.execPgcwPromote c w s
  | .pgcwDemote c w => Sys2Proof.Machine.execPgcwDemote c w s
  | .pgcwProtect c w => Sys2Proof.Machine.execPgcwProtect c w s
  | .pgcwUnprotect c w => Sys2Proof.Machine.execPgcwUnprotect c w s
  | .pgcwDigest c w => Sys2Proof.Machine.execPgcwDigest c w s
  | .pgfr c w => Sys2Proof.Machine.execPgfr c w s
  | .pgfrLog c w => Sys2Proof.Machine.execPgfrLog c w s
  | .pgpn c w => Sys2Proof.Machine.execPgpn c w s
  | .bolt c w => Sys2Proof.Machine.execBolt c w s
  | .bprf c w => Sys2Proof.Machine.execBprf c w s
  | .mov c w => Sys2Proof.Machine.execMov c w s
  | .ldop c w => Sys2Proof.Machine.execLdop c w s
  | .halo c w => Sys2Proof.Machine.execHalo c w s
  | .ring c w => Sys2Proof.Machine.execRing c w s
  | .send c w => Sys2Proof.Machine.execSend c w s
  | .recv c w => Sys2Proof.Machine.execRecv c w s
  | .wredContribute c w => Sys2Proof.Machine.execWredContribute c w s
  | .wredReduce c w => Sys2Proof.Machine.execWredReduce c w s
  | .topk c w => Sys2Proof.Machine.execTopk c w s
  | .fence c w => Sys2Proof.Machine.execFence c w s
  | .fenceSatisfied c => Sys2Proof.Machine.execFenceSatisfied c s
  | .wait c w => Sys2Proof.Machine.execWait c w s
  | .waitSatisfied c => Sys2Proof.Machine.execWaitSatisfied c s
  | .sig c w => Sys2Proof.Machine.execSig c w s
  | .sigIncrement n => Sys2Proof.Machine.execSigIncrement n s
  | .call c w => Sys2Proof.Machine.execCall c w s
  | .ret c w => Sys2Proof.Machine.execRet c w s
  | .tensorInstructionEnd n => Sys2Proof.Machine.execTensorInstructionEnd n s
  | .passStart core bed => Sys2Proof.Machine.execPassStart core bed s
  | .drainStart core => Sys2Proof.Machine.execDrainStart core s
  | .bundleAppend ch b => Sys2Proof.Machine.execBundleAppend ch b s
  | .bundleResync ch b => Sys2Proof.Machine.execBundleResync ch b s
  | .heldBundleRelease ch => Sys2Proof.Machine.execHeldBundleRelease ch s
  | .consAddrPoll c => Sys2Proof.Machine.execConsAddrPoll c s
  | .nmpReadReturn port tag err => Sys2Proof.Machine.execNmpReadReturn port tag err s
  | .nmpWriteAck port tag err => Sys2Proof.Machine.execNmpWriteAck port tag err s
  | .portTimeout port wr tag => Sys2Proof.Machine.execPortTimeout port wr tag s
  | .atomicLineUpdate port err => Sys2Proof.Machine.execAtomicLineUpdate port err s
  | .ginvAll => Sys2Proof.Machine.execGinvAll s
  | .ginvRange => Sys2Proof.Machine.execGinvRange s
  | .ginvDone => Sys2Proof.Machine.execGinvDone s
  | .dataPacket l bytes err => Sys2Proof.Machine.execDataPacket l bytes err s
  | .llctl l bytes err => Sys2Proof.Machine.execLlctl l bytes err s
  | .ready l bytes err => Sys2Proof.Machine.execReady l bytes err s
  | .cack l bytes err => Sys2Proof.Machine.execCack l bytes err s
  | .nack l bytes err => Sys2Proof.Machine.execNack l bytes err s
  | .init l bytes err => Sys2Proof.Machine.execInit l bytes err s
  | .packetSend l => Sys2Proof.Machine.execPacketSend l s
  | .replayTimeout l => Sys2Proof.Machine.execReplayTimeout l s
  | .llctlReportDeadline l => Sys2Proof.Machine.execLlctlReportDeadline l s
  | .initResend l => Sys2Proof.Machine.execInitResend l s
  | .readyResend n => Sys2Proof.Machine.execReadyResend n s
  | .lnkUpChange l up => Sys2Proof.Machine.execLnkUpChange l up s
  | .bucketDeadline job bkt => Sys2Proof.Machine.execBucketDeadline job bkt s
  | .resAdmit r => Sys2Proof.Machine.execResAdmit r s
  | .resRelease r => Sys2Proof.Machine.execResRelease r s
  | .resRevoke r => Sys2Proof.Machine.execResRevoke r s
  | .windowClose r => Sys2Proof.Machine.execWindowClose r s
  | .pendingClear r => Sys2Proof.Machine.execPendingClear r s
  | .aenWrite v => Sys2Proof.Machine.execAenWrite v s
  | .aenEffChange b => Sys2Proof.Machine.execAenEffChange b s
  | .batchHoldExpiry n => Sys2Proof.Machine.execBatchHoldExpiry n s
  | .dividerDecreaseEffect => Sys2Proof.Machine.execDividerDecreaseEffect s
  | .parkAbort => Sys2Proof.Machine.execParkAbort s
  | .pwuCommit => Sys2Proof.Machine.execPwuCommit s
  | .ctxEnable c on => Sys2Proof.Machine.execCtxEnable c on s
  | .ctxReset c => Sys2Proof.Machine.execCtxReset c s
  | .ctxResume c => Sys2Proof.Machine.execCtxResume c s
  | .ctxCommit c => Sys2Proof.Machine.execCtxCommit c s
  | .inject v => Sys2Proof.Machine.execInject v s
  | .streamClear c strm => Sys2Proof.Machine.execStreamClear c strm s
  | .bolterClear c => Sys2Proof.Machine.execBolterClear c s
  | .recoveryWrite b v => Sys2Proof.Machine.execRecoveryWrite b v s
  | .accmDbgRead b => Sys2Proof.Machine.execAccmDbgRead b s
  | .leatCommit g => Sys2Proof.Machine.execLeatCommit g s
  | .linkEnWrite hi v => Sys2Proof.Machine.execLinkEnWrite hi v s
  | .cstateWrite k v => Sys2Proof.Machine.execCstateWrite k v s
  | .fenceSet v => Sys2Proof.Machine.execFenceSet v s
  | .fenceClr v => Sys2Proof.Machine.execFenceClr v s
  | .elogConsWrite v => Sys2Proof.Machine.execElogConsWrite v s
  | .scarfStageWrite operator off v => Sys2Proof.Machine.execScarfStageWrite operator off v s
  | .scarfGo operator => Sys2Proof.Machine.execScarfGo operator s
  | .scarfAbandon operator => Sys2Proof.Machine.execScarfAbandon operator s
  | .scarfWindowExpiry => Sys2Proof.Machine.execScarfWindowExpiry s
  | .scarfCheckDone => Sys2Proof.Machine.execScarfCheckDone s
  | .scarfImageCheck poisoned => Sys2Proof.Machine.execScarfImageCheck poisoned s
  | .cdivWrite v => Sys2Proof.Machine.execCdivWrite v s
  | .vcodeWrite v => Sys2Proof.Machine.execVcodeWrite v s
  | .bayLimitWrite b v => Sys2Proof.Machine.execBayLimitWrite b v s
  | .pwrCmdOn d => Sys2Proof.Machine.execPwrCmdOn d s
  | .pwrCmdRetention d => Sys2Proof.Machine.execPwrCmdRetention d s
  | .pwrCmdOff d => Sys2Proof.Machine.execPwrCmdOff d s
  | .idleTimerExpiry d => Sys2Proof.Machine.execIdleTimerExpiry d s
  | .pwrGoodChange d code => Sys2Proof.Machine.execPwrGoodChange d code s
  | .exitStepReady d => Sys2Proof.Machine.execExitStepReady d s
  | .vgoodChange good => Sys2Proof.Machine.execVgoodChange good s
  | .emthrotAssert => Sys2Proof.Machine.execEmthrotAssert s
  | .emthrotRelease => Sys2Proof.Machine.execEmthrotRelease s
  | .rootLockLoss => Sys2Proof.Machine.execRootLockLoss s
  | .rootLockRise => Sys2Proof.Machine.execRootLockRise s
  | .rootStop => Sys2Proof.Machine.execRootStop s
  | .rootRestart => Sys2Proof.Machine.execRootRestart s
  | .niaWake => Sys2Proof.Machine.execNiaWake s
  | .niaRstNAssert => Sys2Proof.Machine.execNiaRstNAssert s
  | .niaRstNRelease => Sys2Proof.Machine.execNiaRstNRelease s
  | .fuseSenseDone present keyP keyO vmin8 vmin10 vmin12 vmin16 => Sys2Proof.Machine.execFuseSenseDone present keyP keyO vmin8 vmin10 vmin12 vmin16 s
  | .selfTestDone cores bays => Sys2Proof.Machine.execSelfTestDone cores bays s
  | .readyReached => Sys2Proof.Machine.execReadyReached s
  | .coreErrorDetect core store slot mid => Sys2Proof.Machine.execCoreErrorDetect core store slot mid s
  | .bayErrorDetect b => Sys2Proof.Machine.execBayErrorDetect b s
  | .mgtWrite addr v => Sys2Proof.Machine.execMgtWrite addr v s
  | .syncBeatReceived l => Sys2Proof.Machine.execSyncBeatReceived l s
  | .entryStepDone d => Sys2Proof.Machine.execEntryStepDone d s
  | .nmpRequestAccepted port wr => Sys2Proof.Machine.execNmpRequestAccepted port wr s
  | .tapInstrumentAccess b t v => Sys2Proof.Machine.execTapInstrumentAccess b t v s

end Sys2Proof.Machine
end

