-- ==== Sys2Proof/Machine/Tick.lean ====
section
/-!
DEFINITION. One cycle of the root clock (R7, R404, R526, R528, R539, R553): the cycle counters of the divided clocks, the
Hopper's report to the Sluice at an SCLK edge, and the idle timers at an NCLK edge. It is what a step does when no command waits (log 2).
-/

namespace Sys2Proof.Machine

/-- A divided clock has an edge in root cycle `n`; under the emergency throttle the fast branches keep one edge in
four (R519). -/
def edge (n div : Nat) (throttled : Bool) : Nat := b2n (n % (if throttled then 4 * div else div) == 0)

/-- Count one NCLK cycle in every running idle timer; a timer whose condition fails returns to 0. -/
def State.idleTick (s : State) : State :=
  allDoms.foldl (fun t d => if s.timing d then t.onDom d fun x => { x with idle := x.idle + 1 } else t.onDom d fun x => { x with idle := 0 }) s

/-- The divided clock of clock domain `k` and its power domain (R528). -/
def clockDomain (k : Nat) : Nat × Option Nat :=
  if k < 32 then (0, some k) else if k < 40 then (1, some k) else if k < 48 then (2, some k) else if k < 52 then (3, some (k + 3))
  else if k < 54 then (3, some 48) else if k = 54 then (1, some 49) else if k = 55 then (0, some 49) else if k = 56 then (2, some 50)
  else if k = 57 then (3, some 55) else (4, none)

/-- The branch of power domain `d` runs: the domain is on, before cycle 1 of an entry (R528, R540). -/
def State.branchOn (s : State) (d : Nat) : Bool :=
  let x := s.dom d
  !x.exiting && decide (x.state ≤ 1) && (!x.entering || x.step == 0)

/-- Clock domain `k` receives an edge in this root cycle. -/
def State.clockEdge (s : State) (k : Nat) : Bool :=
  let n := s.time.root
  let q := clockDomain k
  let e := s.pwr.emthrot
  !s.boot.onRef && ((q.2.map s.branchOn).getD true) && (match q.1 with
    | 0 => edge n (divOf s.pwr.cdivEff) e
    | 1 | 2 => edge n 4 e
    | 3 => edge n 8 e
    | _ => edge n 64 false) == 1

/-- The clocks that leave the block with an edge in this root cycle (R547): NCLK_OUT, SCLK_HOP, SCLK_CL of each cluster, MCLK_PG of
each port group, XCLK_LG of each link group. They stop with their domains (R528). -/
def State.clocksOut (s : State) : List Bool := ([58, 52] ++ List.range' 48 4 ++ List.range' 32 16).map s.clockEdge

/-- A divider change that waits for nothing else takes effect at an edge of the root clock common to both dividers (R526). -/
def State.divNow (s : State) : State :=
  let p := s.pwr
  if p.divGo && s.time.root % (Nat.lcm (divOf p.cdiv) (divOf p.cdivEff)) == 0 then
    { s with pwr := { p with cdivEff := p.cdiv, divPend := false, divGo := false } }
  else s

/-- The data of a write came through a link's buffers (R471). -/
def Why.fromLink : Why → Bool
  | .land _ _ _ | .weir _ _ => true
  | _ => false
def Req.fromLink (r : Req) : Bool := r.why.fromLink

/-- The clocks of one cycle of the root clock. While AON runs on REF_CLK only that clock counts. -/
def State.clocked (s : State) : State :=
  let t := s.time
  let n := t.root + 1
  let e := s.pwr.emthrot
  if s.boot.onRef then { s with time := { t with root := n, ref := t.ref + edge n 64 false } }.rootWait
  else
    let s1 := { s with time := { t with
      root := n, ref := t.ref + edge n 64 false, nclk := t.nclk + edge n 64 false, cclk := t.cclk + edge n (divOf s.pwr.cdivEff) e,
      mclk := t.mclk + edge n 4 e, xclk := t.xclk + edge n 4 e, sclk := t.sclk + edge n 8 e } }
    let s2 := if s1.clockEdge 53 then s1.hearHopper else s1
    let s3 := s2.divNow
    if s1.clockEdge 59 then s3.seeVgood.idleTick else s3

/-- An uncorrectable error in bay memory, the Granary or a link buffer, if one arises now, poisons the data that is read from there
and fences nothing (R518, log 146). -/
def State.storeError (s : State) : State :=
  match Config.upset s.time.fresh s.time.root with
  | none => s
  | some (k, a) =>
    if k = 0 then (if (s.dom (a / 98304 % 32)).state < 4 then s.poisonUnits (a / 98304 % 32) [a % 98304] else s)
    else if k = 1 then { s with mem := { s.mem with granBad := a :: s.mem.granBad.filter (· != a) } }
    else
      let f : List Req → List Req := fun l => l.map fun r => if r.wr && r.seq == a && r.fromLink then { r with poison := true } else r
      let g : List Atom → List Atom := fun l => l.map fun u => if u.seq == a && u.why.fromLink then { u with poison := true } else u
      s.onPorts fun x => { x with waiting := f x.waiting, atoms := g x.atoms, atomsIn := g x.atomsIn }

/-- One cycle of the root clock. -/
def State.tick (s : State) : State := s.clocked.storeError

end Sys2Proof.Machine
end

