-- ==== Sys2Proof/Safety.lean ====
section
/-!
DEFINITION. What a safe step is, in the terms that statements use: a command that answers a next state, the canonical
form of every store, what only a landed scarf commit may change, and the conditions under which an instruction or a
register write has its effect.
-/

namespace Sys2Proof

/-- The command completes: it answers a next state. -/
def completes (o : Host.Outcome Machine.State Machine.Fault Machine.Refusal) : Prop := ∃ t, o = .next t

namespace Machine

/-- The memory of a bay is in canonical form. -/
def Bay.canon (b : Bay) : Prop := Map.wf 0 b.mem = true

/-- The operand buffer of a core is in canonical form. -/
def Core.canon (x : Core) : Prop := Map.wf 0 x.ob = true

/-- The registers, the window and the counter sets of a context are in canonical form. -/
structure Ctx.canon (x : Ctx) : Prop where
  s : Map.wf 0 x.s = true
  p : Map.wf false x.p = true
  t : Map.wf 0 x.t = true
  l : Map.wf 0 x.l = true
  e : Map.wf 0 x.e = true
  h : Map.wf 0 x.h = true
  window : Map.wf 0 x.window = true
  streams : Map.wf {} x.streams = true

/-- Every indexed store of the state, every addressed memory and every register file of a context is in canonical form. -/
structure State.Canon (s : State) : Prop where
  ctx : Map.wf {} s.ctx = true
  core : Map.wf {} s.core = true
  bay : Map.wf {} s.bay = true
  insts : Map.wf none s.insts = true
  ext : Map.wf 0 s.mem.ext = true
  ports : Map.wf {} s.mem.ports = true
  resv : Map.wf {} s.sluice.resv = true
  pools : Map.wf {} s.pwu.pools = true
  links : Map.wf {} s.leat.links = true
  groups : Map.wf {} s.leat.groups = true
  ch : Map.wf {} s.hop.ch = true
  doms : Map.wf {} s.pwr.doms = true
  store : Map.wf 0 s.miller.store = true
  bays : ∀ p ∈ s.bay, p.2.canon
  cores : ∀ p ∈ s.core, p.2.canon
  ctxs : ∀ p ∈ s.ctx, p.2.canon

/-- The fields of the protection unit and the error log that R501 lets only a landed scarf commit change: the windows,
DBG_EN, TEST_EN, the image fields, LOG_BASE. -/
def State.governed (s : State) : Map W32 × W32 × W32 × Nat × Nat × Map W32 × Nat :=
  (s.prot.win, s.prot.dbgEn, s.prot.testEn, s.prot.imgAddr, s.prot.imgLen, s.prot.imgDigest, s.log.base)

/-- A waiting command is well formed: of the queue, and of the accesses that wait for the root clock (R546). -/
def State.queueWf (s : State) : Prop := ∀ i ∈ s.pending ++ s.boot.access, i.wf = true

/-! ### When a command has its effect -/

/-- Context `c` stands at the words: they are at its issue position, it may issue (R333, R347), and no line of called
code is missing (R343). -/
def State.Stands (s : State) (c : Nat) (ws : List W32) : Prop := s.readyAt c ws = true ∧ (s.fetchCode c ws.length).isNone = true

/-- It stands there, and its completion ring has room for a record (R345). -/
def State.Takes (s : State) (c : Nat) (ws : List W32) : Prop := s.Stands c ws ∧ (s.cx c).ringFull = false

/-- The Miller runs, and the word is at its instruction address (R348). -/
def State.MillerAt (s : State) (w : W32) : Prop := s.millerRuns = true ∧ s.millerWord = some w

/-- A short word of opcode `op` whose bits that must be zero are zero (R325). -/
def Legal (op : Nat) (w : W32) : Prop := shortIs op w = true ∧ shortBad op w.toNat = false

/-- The management port answers and reaches the registers of power domain `d`; `none` is the always-on island (R24,
R31, R457). -/
def State.Open (s : State) (d : Option Nat) : Prop := s.mgtUp = true ∧ d.all s.winOn = true

/-- A register write that reached its register leaves MGT_PWR 0 (R457). -/
def State.wrote (s : State) : State := s.onPins fun q => { q with mgtPwr := false }

/-- The short instructions: the opcode of each row, who executes it and its word (R325, R348). -/
def shortRow : Instr → Option (Nat × Exe × W32)
  | .nop x w => some (0x00, x, w)
  | .add x w => some (0x01, x, w)
  | .sub x w => some (0x02, x, w)
  | .mul x w => some (0x03, x, w)
  | .and x w => some (0x04, x, w)
  | .or x w => some (0x05, x, w)
  | .xor x w => some (0x06, x, w)
  | .shl x w => some (0x07, x, w)
  | .shr x w => some (0x08, x, w)
  | .sra x w => some (0x09, x, w)
  | .addi x w => some (0x0A, x, w)
  | .shli x w => some (0x0B, x, w)
  | .cmp x w => some (0x0C, x, w)
  | .plog x w => some (0x0D, x, w)
  | .br x w => some (0x0E, x, w)
  | .ld x w => some (0x0F, x, w)
  | .st x w => some (0x10, x, w)
  | .ldt x w => some (0x11, x, w)
  | .stt x w => some (0x12, x, w)
  | .ldl x w => some (0x13, x, w)
  | .ldh x w => some (0x14, x, w)
  | .evr x w => some (0x15, x, w)
  | .evw x w => some (0x16, x, w)
  | .csrr x w => some (0x17, x, w)
  | .csrw x w => some (0x18, x, w)
  | .halt x w => some (0x19, x, w)
  | .mrd x w => some (0x20, x, w)
  | .mwr x w => some (0x21, x, w)
  | .evq x w => some (0x22, x, w)
  | .wfe x w => some (0x23, x, w)
  | _ => none

/-- Every byte of `[a, a + n)` may be read by the context, line by line (R333, R497). -/
def State.mayRead (s : State) (c a n : Nat) : Bool :=
  (linesOf 64 a n).all fun l => s.checkAcc (s.cx c).domain false .rd (max l a) == .ok

/-- The Granary holds every line of `[a, a + n)` (R448), none of them with an uncorrectable error (R518). -/
def State.granHas (s : State) (a n : Nat) : Bool :=
  (linesOf 128 a n).all fun l => !(Map.get [] s.mem.gran (l / 128)).isEmpty && !s.granErr l

/-- The predicate of a long instruction holds: its register reads other than its sense bit (R326). -/
def Ctx.goes (x : Ctx) (w : Long) : Bool := x.rp (fld w.w0.toNat 12 3) != bitOf w.w0.toNat 15

/-- The tensor instructions: what each row gives the shared issue path, its context and its words. -/
def tensorRow : Instr → Option (TRow × Nat × Long)
  | .mmp c w => some (mmRow 0x00, c, w)
  | .mmw c w => some (mmRow 0x01, c, w)
  | .mmc c w => some (mmRow 0x02, c, w)
  | .drain c w => some (drRow, c, w)
  | .accz c w => some (zeroRow, c, w)
  | .rstat c w => some (rstatRow, c, w)
  | .accsv c w => some (svRow 0x06 6, c, w)
  | .accld c w => some (svRow 0x07 7, c, w)
  | .attf c w => some (attfRow, c, w)
  | .attb c w => some (attbRow, c, w)
  | .attmConfirm c w => some (attmRow true, c, w)
  | .attmMerge c w => some (attmRow false, c, w)
  | .bias c w => some (biasRow, c, w)
  | .fnx c w => some (fnxRowDef fun w => !w.md 0 && !w.md 1, c, w)
  | .fnxLoad c w => some (fnxLoadRow, c, w)
  | .fnxCompat c w => some (fnxRowDef fun w => !w.md 0 && w.md 1, c, w)
  | .gate c w => some (gateRowDef, c, w)
  | .norm c w => some (normRowDef, c, w)
  | .qnt c w => some (qntRowDef, c, w)
  | .kvap c w => some (kvapRow false, c, w)
  | .kvapSpec c w => some (kvapRow true, c, w)
  | .kvcm c w => some (kvcmRow 0x41, c, w)
  | .kvds c w => some (kvcmRow 0x42, c, w)
  | .kvfn c w => some (kvfnRow, c, w)
  | .kviv c w => some (kvivRow, c, w)
  | .pgcwCopy c w => some (pgcwRow 0, c, w)
  | .pgcwPromote c w => some (pgcwRow 1, c, w)
  | .pgcwDemote c w => some (pgcwRow 2, c, w)
  | .pgcwProtect c w => some (pgcwRow 3, c, w)
  | .pgcwUnprotect c w => some (pgcwRow 4, c, w)
  | .pgcwDigest c w => some (pgcwRow 5, c, w)
  | .pgfr c w => some (pgfrRow, c, w)
  | .pgfrLog c w => some (pgfrLogRow, c, w)
  | .pgpn c w => some (pgpnRow, c, w)
  | .bolt c w => some (boltRow, c, w)
  | .bprf c w => some (bprfRow, c, w)
  | .mov c w => some (movRow, c, w)
  | .ldop c w => some (ldopRow, c, w)
  | .halo c w => some (haloRow, c, w)
  | .ring c w => some (linkRow 0x60, c, w)
  | .send c w => some (linkRow 0x61, c, w)
  | .recv c w => some (linkRow 0x62, c, w)
  | .wredContribute c w => some (wredRow false, c, w)
  | .wredReduce c w => some (wredRow true, c, w)
  | .topk c w => some (topkRow, c, w)
  | _ => none

/-- The parameter block of a row that has one, read at its aligned address (R369). -/
def State.withApb (s : State) (r : TRow) (i : Inst) : Inst := match r.apb i with
  | none => i
  | some a => { i with apb := s.granBytes (a / 64 * 64) 64 }

/-- The instruction at the issue position as the checks see it: captured, with what its row fills in (R334). -/
def State.atIssue (s : State) (r : TRow) (c : Nat) (w : Long) : Inst := r.prep s (s.withApb r (s.capture c w))

/-- The parameter block of the row, if it has one, may be read by the context (R369, R497). -/
def State.apbOk (s : State) (r : TRow) (c : Nat) (w : Long) : Prop := match r.apb (s.capture c w) with
  | none => True
  | some a =>
    let i := s.atIssue r c w
    s.checkAcc i.dom (i.cls == 1) .rd (a / 64 * 64) = .ok

/-- A tensor instruction reaches its checks: its words stand at the issue position, its record has room (R345), its
predicate holds (R327), fewer than 32 are in flight (R334), its parameter block may be read, the sequence
records it names have arrived (R230). -/
structure State.Issues (s : State) (r : TRow) (c : Nat) (w : Long) : Prop where
  stands : s.Stands c w.words
  room : (s.cx c).ringFull = false
  goes : (s.cx c).goes w = true
  flight : s.inflight c < 32
  apb : s.apbOk r c w
  record : s.recDue r (s.capture c w) = none

/-- It passes them: no refusal code, every domain it needs on, nothing that holds it, not of zero length (R357). -/
structure State.Passes (s : State) (r : TRow) (i : Inst) : Prop where
  codes : s.commonCodes r i ++ r.checks s i = []
  on : s.offDoms r i = []
  free : r.hold s i = none
  long : r.zero s i = false

/-- A system instruction of opcode `opc` stands at the issue position, the ring has room for a record (R345), its predicate
holds and its class and word 0 are legal (R398). -/
structure State.Runs (s : State) (opc c : Nat) (w : Long) : Prop where
  stands : s.Stands c w.words
  room : (s.cx c).ringFull = false
  names : longIs opc w = true
  goes : (s.cx c).goes w = true
  cls : fld w.w0.toNat 8 4 < 4
  zero : fld w.w0.toNat 16 16 = 0

end Machine

end Sys2Proof
end

