-- ==== Sys2Proof/Certificates/Slice0/Obligations.lean ====
section
/-!
DEFINITION. The statements about the block, one definition each. OBLIGATIONS.json lists them with the rules of spec/ they
formalise. Where a next state is written out, every part of the state that the expression does not name is unchanged: it
is the command's frame.
-/

open Sys2Proof Sys2Proof.Machine

/-! ### The step and its invariants -/

/-- The command at the front of the queue runs on the state that keeps the rest of the queue. -/
def Obligations.StepRunsFront : Prop :=
  ∀ (c : Instr) (rest : List Instr) (s : State), step { s with pending := c :: rest } = exec c { s with pending := rest }

/-- With no command waiting, an access that waited for the root clock is served when the management port answers (R546); else a
cycle of the root clock passes (log 2, the model's choice). Where the block runs on the root clock and VGOOD is as it was
seen, the cycle changes only the cycle counters, the domains' idle counts, a divider whose change takes effect (R526), what
an uncorrectable error of a memory poisons (R518, log 146), and, at an SCLK edge that the Hopper's branch receives, what
the Sluice learns of the bundles the Hopper has accepted: the window of each one's reservation is open, started then
where it was not (R403, R404). -/
def Obligations.EmptyQueueTicks : Prop :=
  ∀ s : State, s.pending = [] →
    (∀ c rest, s.boot.access = c :: rest → s.mgtUp = true → step s = exec c { s with boot := { s.boot with access := rest } }) ∧
    (s.boot.access = [] ∨ s.mgtUp = false → ∃ t, step s = .next t ∧ t.time.root = s.time.root + 1 ∧ t.time.fresh = s.time.fresh ∧
      (s.boot.onRef = false → s.pwr.vgood = s.pwr.vgoodPin → s.Canon →
        { t with time := s.time, pwr := s.pwr, sluice := s.sluice, bay := s.bay, mem := s.mem } = s ∧
        { t.pwr with doms := s.pwr.doms, cdivEff := s.pwr.cdivEff, divPend := s.pwr.divPend, divGo := s.pwr.divGo } = s.pwr ∧
        (s.pwr.divGo = false → t.pwr.cdivEff = s.pwr.cdivEff ∧ t.pwr.divPend = s.pwr.divPend) ∧
        (s.pwr.divGo = true → (s.time.root + 1) % Nat.lcm (divOf s.pwr.cdiv) (divOf s.pwr.cdivEff) = 0 →
          t.pwr.cdivEff = s.pwr.cdiv ∧ t.pwr.divPend = false ∧ t.pwr.divGo = false) ∧
        (Config.upset s.time.fresh (s.time.root + 1) = none → t.bay = s.bay ∧ t.mem = s.mem) ∧
        (∀ b, { t.by b with memPoison := (s.by b).memPoison } = s.by b) ∧
        { t.mem with ports := s.mem.ports, granBad := s.mem.granBad } = s.mem ∧
        { t.sluice with resv := s.sluice.resv, told := s.sluice.told } = s.sluice ∧
        (t.time.sclk = s.time.sclk ∨ s.branchOn 48 = false → t.sluice = s.sluice) ∧
        (t.time.sclk ≠ s.time.sclk → s.branchOn 48 = true → t.sluice.told = [] ∧ ∀ c ∈ s.sluice.told, ∀ r, s.admitted c = some r →
          (t.rv r).opened = true ∧ ((s.rv r).opened = true → t.rv r = s.rv r) ∧
          ((s.rv r).opened = false → (t.rv r).start = t.time.cclk))))

/-- What the spec gives the machine under NIA_RST_N: registers of a context (R320, R321), DEFCLASS, divider code 3
(R553), MODE START (R128), the scarf timer's window (R522), every domain off and its supplies not requested (R548, R549),
the fields of a link group (R475), the port timeout (R474). -/
def Obligations.ResetValues : Prop :=
  (∀ c n, (State.reset.cx c).rs n = 0 ∧ (State.reset.cx c).ev n = 0 ∧ ((State.reset.cx c).rp n = decide (n = 0))) ∧
  (∀ c, (State.reset.cx c).defClass = 2 ∧ (State.reset.cx c).enable = false ∧ (State.reset.cx c).issueSeq = 0) ∧
  (∀ b, (State.reset.by b).mode = 1 ∧ (State.reset.by b).recovery = false ∧ (State.reset.by b).limit = 16) ∧
  (∀ d, (State.reset.dom d).state = 4 ∧ (State.reset.dom d).req = 0) ∧
  (∀ g, (State.reset.group g).vcmax = 0x3F8 ∧ (State.reset.group g).retryMax = 8 ∧ (State.reset.group g).replayTmo = 0x1000) ∧
  State.reset.pwr.cdiv = 3 ∧ State.reset.prot.scarf.win = 0xB2D05E00 ∧ State.reset.mem.tmo = 0x4000 ∧
  State.reset.boot.ready = false ∧ State.reset.boot.rstN = false ∧ State.reset.pending = []

/-- Every indexed store of the reset state is in canonical form. -/
def Obligations.ResetCanonical : Prop := State.reset.Canon ∧ State.reset.queueWf

/-- Every step from every state keeps every indexed store, and every addressed memory, in canonical form. -/
def Obligations.StepKeepsCanonical : Prop := ∀ s t : State, s.Canon → step s = .next t → t.Canon

/-- Only a scarf commit that lands, or a cold reset, changes a window, DBG_EN, TEST_EN, an image field or LOG_BASE: from
every state, every other command leaves them (R501). -/
def Obligations.GovernedOnlyByScarf : Prop :=
  ∀ (i : Instr) (s t : State), exec i s = .next t → t.governed ≠ s.governed →
    i = .scarfCheckDone ∨ (∃ p, i = .scarfImageCheck p) ∨ i = .niaRstNAssert

/-- Only the fuse sense of cold start changes the fuses: from every state, every other command leaves the present mask, the
keys and the voltage minima. -/
def Obligations.FusesOnlyBySense : Prop :=
  ∀ (i : Instr) (s t : State), exec i s = .next t → t.fuse ≠ s.fuse →
    ∃ p kp ko v8 v10 v12 v16, i = .fuseSenseDone p kp ko v8 v10 v12 v16

/-- No well-formed command stops the block: a step of a queue of well-formed commands answers a next state, whose queue is
the rest and again well formed. -/
def Obligations.EveryCommandCompletes : Prop :=
  ∀ s : State, s.queueWf → ∃ t, step s = .next t ∧ t.pending = s.pending.tail ∧ t.queueWf

/-! ### Short instructions -/

/-- The register instructions of a context (R325): each writes s[d] and passes its word; nothing else changes.
The register instructions of the Miller (R325, R348): each writes s[d] of its own registers and advances its address. -/
def Obligations.RegisterInstructions : Prop :=
  (∀ (s : State) (c : Fin 64) (w : W32), s.Takes c [w] →
     let a := (s.cx c).rs (fa w)
     let b := (s.cx c).rs (fb w)
     let k := b.toNat % 64
     let done : Word → Out := fun v => .next (s.onCx c fun x => (x.ws (fd w) v).adv 1)
     (Legal 0x00 w → exec (.nop (.ctx c) w) s = .next (s.onCx c fun x => x.adv 1)) ∧
     (Legal 0x01 w → exec (.add (.ctx c) w) s = done (a + b)) ∧
     (Legal 0x02 w → exec (.sub (.ctx c) w) s = done (a - b)) ∧
     (Legal 0x03 w → exec (.mul (.ctx c) w) s = done (a * b)) ∧
     (Legal 0x04 w → exec (.and (.ctx c) w) s = done (a &&& b)) ∧
     (Legal 0x05 w → exec (.or (.ctx c) w) s = done (a ||| b)) ∧
     (Legal 0x06 w → exec (.xor (.ctx c) w) s = done (a ^^^ b)) ∧
     (Legal 0x07 w → exec (.shl (.ctx c) w) s = done (a <<< k)) ∧
     (Legal 0x08 w → exec (.shr (.ctx c) w) s = done (a >>> k)) ∧
     (Legal 0x09 w → exec (.sra (.ctx c) w) s = done (a.sshiftRight k)) ∧
     (Legal 0x0A w → exec (.addi (.ctx c) w) s = done (a + (BitVec.ofNat 10 (fimm w)).signExtend 64)) ∧
     (Legal 0x0B w → exec (.shli (.ctx c) w) s = done (a <<< 10 + BitVec.ofNat 64 (fimm w)))) ∧
  (∀ (s : State) (w : W32), s.MillerAt w →
     let a := regRead s.miller.s (fa w)
     let b := regRead s.miller.s (fb w)
     let k := b.toNat % 64
     let done : Word → Out := fun v => .next (s.onMiller fun m => { m with s := regWrite m.s (fd w) v }.next)
     (Legal 0x00 w → exec (.nop .miller w) s = .next (s.onMiller Miller.next)) ∧
     (Legal 0x01 w → exec (.add .miller w) s = done (a + b)) ∧
     (Legal 0x02 w → exec (.sub .miller w) s = done (a - b)) ∧
     (Legal 0x03 w → exec (.mul .miller w) s = done (a * b)) ∧
     (Legal 0x04 w → exec (.and .miller w) s = done (a &&& b)) ∧
     (Legal 0x05 w → exec (.or .miller w) s = done (a ||| b)) ∧
     (Legal 0x06 w → exec (.xor .miller w) s = done (a ^^^ b)) ∧
     (Legal 0x07 w → exec (.shl .miller w) s = done (a <<< k)) ∧
     (Legal 0x08 w → exec (.shr .miller w) s = done (a >>> k)) ∧
     (Legal 0x09 w → exec (.sra .miller w) s = done (a.sshiftRight k)) ∧
     (Legal 0x0A w → exec (.addi .miller w) s = done (a + (BitVec.ofNat 10 (fimm w)).signExtend 64)) ∧
     (Legal 0x0B w → exec (.shli .miller w) s = done (a <<< 10 + BitVec.ofNat 64 (fimm w))))

/-- CMP and PLOG write p[d] with the relation or function of their code, in a context and in the Miller (R325). -/
def Obligations.PredicateInstructions : Prop :=
  let rel : Nat → Word → Word → Bool := fun k a b => match k with
    | 0 => decide (a = b)
    | 1 => decide (a ≠ b)
    | 2 => decide (a.toInt < b.toInt)
    | 3 => decide (b.toInt ≤ a.toInt)
    | 4 => decide (a.toNat < b.toNat)
    | _ => decide (b.toNat ≤ a.toNat)
  let fn : Nat → Bool → Bool → Bool := fun k a b => match k with
    | 0 => a && b
    | 1 => a || b
    | 2 => xor a b
    | _ => a && !b
  (∀ (s : State) (c : Fin 64) (w : W32), s.Takes c [w] →
    let x := s.cx c
    let done : Bool → Out := fun v => .next (s.onCx c fun x => (x.wp (fd w % 8) v).adv 1)
    (Legal 0x0C w → exec (.cmp (.ctx c) w) s = done (rel (fimm w % 8) (x.rs (fa w)) (x.rs (fb w)))) ∧
    (Legal 0x0D w → exec (.plog (.ctx c) w) s = done (fn (fimm w % 4) (x.rp (fa w % 8)) (x.rp (fb w % 8))))) ∧
  (∀ (s : State) (w : W32), s.MillerAt w →
    let m := s.miller
    let done : Bool → Out := fun v => .next (s.onMiller fun m => { m with p := predWrite m.p (fd w % 8) v }.next)
    (Legal 0x0C w → exec (.cmp .miller w) s = done (rel (fimm w % 8) (regRead m.s (fa w)) (regRead m.s (fb w)))) ∧
    (Legal 0x0D w → exec (.plog .miller w) s = done (fn (fimm w % 4) (predRead m.p (fa w % 8)) (predRead m.p (fb w % 8)))))

/-- The frame of the register and predicate instructions in a context, read register by register: s0 reads 0 and p0 reads 1
whatever is written, every register but the destination, every other field of the context and every other part of the
machine keep their values (R320, R325). -/
def Obligations.RegisterFrame : Prop :=
  ∀ (s : State) (c : Fin 64) (w : W32) (i : Instr), s.Canon → s.Takes c [w] → Legal (fld w.toNat 1 6) w → i.wf = true →
    i ∈ [.nop (.ctx c) w, .add (.ctx c) w, .sub (.ctx c) w, .mul (.ctx c) w, .and (.ctx c) w, .or (.ctx c) w, .xor (.ctx c) w,
      .shl (.ctx c) w, .shr (.ctx c) w, .sra (.ctx c) w, .addi (.ctx c) w, .shli (.ctx c) w, .cmp (.ctx c) w, .plog (.ctx c) w] →
    ∃ t, exec i s = .next t ∧
      (t.cx c).rs 0 = 0 ∧ (t.cx c).rp 0 = true ∧
      (∀ n, n ≠ fd w → (t.cx c).rs n = (s.cx c).rs n) ∧ (∀ n, n ≠ fd w % 8 → (t.cx c).rp n = (s.cx c).rp n) ∧
      (i = .cmp (.ctx c) w ∨ i = .plog (.ctx c) w → ∀ n, (t.cx c).rs n = (s.cx c).rs n) ∧
      (i ≠ .cmp (.ctx c) w ∧ i ≠ .plog (.ctx c) w → ∀ n, (t.cx c).rp n = (s.cx c).rp n) ∧
      { t.cx c with s := (s.cx c).s, p := (s.cx c).p, nextPos := (s.cx c).nextPos, code := (s.cx c).code, hold := (s.cx c).hold,
                     recBad := (s.cx c).recBad } = s.cx c ∧
      (∀ c', c' ≠ c.val → t.cx c' = s.cx c') ∧ { t with ctx := s.ctx } = s

/-- BR (R325, R332): not taken it passes its word; taken in called code it moves by words from its own address; taken in the
stream it moves to a target no more than 1,023 words behind the newest word, and stops the context with FAULT.STREAM where
the target has left the window; the Miller's BR moves its own address. -/
def Obligations.Branches : Prop :=
  let off : W32 → Int := fun w => (BitVec.ofNat 20 (fld w.toNat 12 20)).toInt
  (∀ (s : State) (c : Fin 64) (w : W32), s.Takes c [w] → Legal 0x0E w →
    let x := s.cx c
    let taken := xor (x.rp (fld w.toNat 7 3)) (bitOf w.toNat 10)
    let t := wrapInt 32 (x.nextPos + off w)
    (taken = false → exec (.br (.ctx c) w) s = .next (s.onCx c fun x => x.adv 1)) ∧
    (∀ a, taken = true → x.code = some a →
      exec (.br (.ctx c) w) s = .next (s.onCx c fun x => { x with code := some (wrapInt 52 (a + 4 * off w)), hold := .none })) ∧
    (taken = true → x.code = none → sdiff (x.newest + 2 ^ 32 - 1) t ≤ 1023 →
      exec (.br (.ctx c) w) s = .next (s.onCx c fun x => { x with nextPos := t, hold := .none })) ∧
    (taken = true → x.code = none → 1023 < sdiff (x.newest + 2 ^ 32 - 1) t →
      exec (.br (.ctx c) w) s = .next ((s.onCx c fun x => x.adv 1).faultScalar c 0x8E (x.nextPos, false)
        { code := Code.fStream, unit := 0x07 }))) ∧
  (∀ (s : State) (w : W32), s.MillerAt w → Legal 0x0E w →
    let taken := xor (predRead s.miller.p (fld w.toNat 7 3)) (bitOf w.toNat 10)
    exec (.br .miller w) s = .next (s.onMiller fun m =>
      { m with pc := if taken then wrapInt 32 (m.pc + 4 * off w) else (m.pc + 4) % 2 ^ 32 }))

/-- LD, LDT and LDL of lines that the Granary holds (R325, R448): the register is loaded at once from the bytes as a read
through the Granary sees them. No byte of memory, no other context and no other register changes. -/
def Obligations.LoadsFromGranary : Prop :=
  ∀ (s : State) (c : Fin 64) (w : W32) (a : Nat), s.Canon → s.Takes c [w] →
    let x := s.cx c
    let done : Instr → (Ctx → Ctx) → Prop := fun i f => ∃ t, exec i s = .next t ∧ t.cx c = f (x.adv 1) ∧
      (∀ c', c' ≠ c.val → t.cx c' = s.cx c') ∧ (∀ b, t.extByte b = s.extByte b) ∧ t.mem.gran = s.mem.gran ∧
      { t with ctx := s.ctx, mem := s.mem } = s
    (Legal 0x0F w → scalarAddr (x.rs (fa w)) (simm w * 8) = some a → a % 8 = 0 → s.mayRead c a 8 = true → s.granHas a 8 = true →
      done (.ld (.ctx c) w) fun x => x.ws (fd w) (BitVec.ofNat 64 (leNat (s.granBytes a 8)))) ∧
    (Legal 0x11 w → scalarAddr (x.rs (fa w)) (simm w * 32) = some a → a % 32 = 0 → s.mayRead c a 32 = true → s.granHas a 32 = true →
      done (.ldt (.ctx c) w) fun x => { x with t := Map.set 0 x.t (fd w) (BitVec.ofNat 256 (leNat (s.granBytes a 32))) }) ∧
    (Legal 0x13 w → scalarAddr (x.rs (fa w)) 0 = some a → a % 64 = 0 → s.mayRead c a 256 = true → s.granHas a 256 = true →
      done (.ldl (.ctx c) w) fun x => { x with l := Map.set 0 x.l (fimm w % 64) (BitVec.ofNat 2048 (leNat (s.granBytes a 256))) })

/-- ST and STT whose access is allowed (R325, R333, R438): the stored bytes read as the register's, the context waits for the
acknowledgement, no other context changes. Every byte of another line reads as before; so does every other byte of the
stored line, but for the entry updates of that line that the home port was sent before, which go first (R438, R445). -/
def Obligations.StoresWriteMemory : Prop :=
  ∀ (s : State) (c : Fin 64) (w : W32) (a : Nat), s.Canon → s.Takes c [w] →
    let x := s.cx c
    let line := a / 64 * 64
    let before : Nat → Byte := fun k =>
      (((s.adds line).filter fun u => !u.hdr).foldl (fun y u => u.onto y) (s.extBytes line 64)).getD k 0
    let done : Instr → Nat → Nat → Nat → Prop := fun i op n v => ∃ t, exec i s = .next t ∧
      (∀ k, k < n → t.extByte (a + k) = BitVec.ofNat 8 (v / 256 ^ k)) ∧ (∀ b, b < a ∨ a + n ≤ b → t.extByte b = if b / 64 = a / 64 then before (b % 64) else s.extByte b) ∧
      t.cx c = { x.adv 1 with
        hold := .scalar, scalar := some (Scalar.mk .st a 1 none (BitVec.ofNat 32 op) x.sposNow.1 x.sposNow.2) } ∧
      (∀ c', c' ≠ c.val → t.cx c' = s.cx c') ∧ { t with ctx := s.ctx, mem := s.mem, pwr := s.pwr } = s
    s.checkAcc x.domain false .wr a = .ok → s.portFenced (homePort a) = false →
    (Legal 0x10 w → scalarAddr (x.rs (fa w)) (simm w * 8) = some a → a % 8 = 0 →
      done (.st (.ctx c) w) 0x90 8 (x.rs (fb w)).toNat) ∧
    (Legal 0x12 w → scalarAddr (x.rs (fa w)) (simm w * 32) = some a → a % 32 = 0 → (Desc.of (Map.get 0 x.t (fd w))).rsv = 0 →
      done (.stt (.ctx c) w) 0x92 32 (Map.get 0 x.t (fd w)).toNat)

/-- LD and ST of the Miller address its local store (R348): an aligned word inside it is read into s[d] or stored from s[b],
byte by byte in little-endian order, with every other byte as before; any other address is a Miller fault of cause 3. -/
def Obligations.MillerLoadStore : Prop :=
  ∀ (s : State) (w : W32), s.Canon → s.MillerAt w →
    let a := (regRead s.miller.s (fa w) + BitVec.ofInt 64 (simm w * 8)).toNat
    let inside := a % 8 = 0 ∧ a + 8 ≤ 0xC000
    (Legal 0x0F w → inside → exec (.ld .miller w) s = .next (s.onMiller fun m => { m with
      s := regWrite m.s (fd w) (BitVec.ofNat 64 (leNat ((List.range 8).map fun k => Map.get 0 m.store (a + k)))) }.next)) ∧
    (Legal 0x10 w → inside → ∃ t, exec (.st .miller w) s = .next t ∧
      (∀ k, k < 8 → Map.get 0 t.miller.store (a + k) = BitVec.ofNat 8 ((regRead s.miller.s (fb w)).toNat / 256 ^ k)) ∧
      (∀ b, b < a ∨ a + 8 ≤ b → Map.get 0 t.miller.store b = Map.get 0 s.miller.store b) ∧
      { t.miller with store := s.miller.store } = s.miller.next ∧ { t with miller := s.miller } = s) ∧
    (Legal 0x0F w → ¬ inside → exec (.ld .miller w) s = .next (s.millerFault' 3)) ∧
    (Legal 0x10 w → ¬ inside → exec (.st .miller w) s = .next (s.millerFault' 3))

/-- LDH, EVR and EVW (R325, R342): LDH takes a 24-bit handle and is refused with REFUSE.OPERAND where the source holds more;
EVR reads an event counter; EVW writes one, and holds issue while an instruction in flight names the counter.
CSRR and CSRW by register (R321): SEED, ISSUE_SEQ, CTXINFO, STATUS, LASTERR, DEFCLASS, SPOS; a read-only register ignores
a write; a number not listed is refused with REFUSE.ENCODING. -/
def Obligations.HandlesAndControlRegisters : Prop :=
  (∀ (s : State) (c : Fin 64) (w : W32), s.Takes c [w] →
     let x := s.cx c
     let a := x.rs (fa w)
     let busy := s.instList.any fun i => i.ctx == c.val && i.w.evc == fd w
     (Legal 0x14 w → a.toNat < 2 ^ 24 → exec (.ldh (.ctx c) w) s =
       .next (s.onCx c fun x => { x with h := Map.set 0 x.h (fd w % 16) (a.truncate 24) }.adv 1)) ∧
     (Legal 0x14 w → 2 ^ 24 ≤ a.toNat → exec (.ldh (.ctx c) w) s = .next (s.refuseScalar c 1 Code.operand 0x94)) ∧
     (Legal 0x15 w → exec (.evr (.ctx c) w) s = .next (s.onCx c fun x => (x.ws (fd w) ((x.ev (fa w)).zeroExtend 64)).adv 1)) ∧
     (Legal 0x16 w → busy = false → exec (.evw (.ctx c) w) s = .next (s.onCx c fun x => (x.wev (fd w) (a.truncate 32)).adv 1)) ∧
     (Legal 0x16 w → busy = true → exec (.evw (.ctx c) w) s = .next (s.onCx c fun x => { x with hold := .evw }))) ∧
  (∀ (s : State) (c : Fin 64) (w : W32), s.Takes c [w] →
     let x := s.cx c
     let v := x.rs (fa w)
     let n := fimm w
     let reads : Word → Prop := fun r => exec (.csrr (.ctx c) w) s = .next (s.onCx c fun x => (x.ws (fd w) r).adv 1)
     let writes : (Ctx → Ctx) → Prop := fun f => exec (.csrw (.ctx c) w) s = .next (s.onCx c fun x => (f x).adv 1)
     (Legal 0x17 w → (n = 0 → reads x.seed) ∧ (n = 1 → reads (BitVec.ofNat 64 x.issueSeq)) ∧
       (n = 2 → reads (BitVec.ofNat 64 (c.val + 64 * x.domain))) ∧
       (n = 3 → reads (BitVec.ofNat 64 (b2n x.err + 2 * b2n x.code.isSome + 4 * x.stack.length))) ∧
       (n = 4 → reads (x.lastErr.zeroExtend 64)) ∧ (n = 5 → reads (BitVec.ofNat 64 x.defClass)) ∧
       (n = 6 → reads (BitVec.ofNat 64 x.sposNow.1)) ∧
       (7 ≤ n → exec (.csrr (.ctx c) w) s = .next (s.refuseScalar c 1 Code.encoding 0x97))) ∧
     (Legal 0x18 w → (n = 0 → writes fun x => { x with seed := v, issueSeq := 0 }) ∧
       (n = 3 → writes fun x => { x with err := x.err && !v.getLsbD 0 }) ∧
       (n = 5 → writes fun x => { x with defClass := if v.toNat % 4 = 0 then x.defClass else v.toNat % 4 }) ∧
       (n = 1 ∨ n = 2 ∨ n = 4 ∨ n = 6 → writes id) ∧
       (7 ≤ n → exec (.csrw (.ctx c) w) s = .next (s.refuseScalar c 1 Code.encoding 0x98))))

/-- HALT (R325): the context enters HALTED, passes the word and writes a record of KIND 5; issue holds where the ring is
full (R345). The Miller stops (log 20, the model's reading). -/
def Obligations.Halts : Prop :=
  (∀ (s : State) (c : Fin 64) (w : W32), s.Stands c [w] → Legal 0x19 w →
    let x := s.cx c
    (x.ringFull = false → exec (.halt (.ctx c) w) s = .next ((s.onCx c fun x => { x.adv 1 with run := .halted }).writeRec c false
      { kind := 5, opc := 0x99, spos := x.sposNow.1, called := x.sposNow.2 })) ∧
    (x.ringFull = true → exec (.halt (.ctx c) w) s = .next (s.onCx c fun x => { x with hold := .ring }))) ∧
  (∀ (s : State) (w : W32), s.MillerAt w → Legal 0x19 w → exec (.halt .miller w) s = .next (s.onMiller fun m => { m.next with halted := true }))

/-- MRD and MWR of a register (R348): MRD zero-extends what the register reads, with what the read does; MWR writes the low
32 bits.
EVQ, WFE and its release (R348, R350): EVQ pops the oldest event into s[d] and s[d + 1], an empty queue gives s[d] := 0;
WFE passes where the queue holds an event and else holds, until an event lets it go on. -/
def Obligations.MillerManagementAndEvents : Prop :=
  (∀ (s : State) (w : W32) (a : Nat), s.MillerAt w → millerReg s w = some a →
     (Legal 0x20 w → exec (.mrd .miller w) s =
       .next ((s.readReg a).1.onMiller fun m => { m with s := regWrite m.s (fd w) ((s.readReg a).2.zeroExtend 64) }.next)) ∧
     (Legal 0x21 w → exec (.mwr .miller w) s =
       .next ((s.onMiller Miller.next).writeReg a ((regRead s.miller.s (fb w)).toNat % 2 ^ 32)))) ∧
  ((∀ (s : State) (w : W32), s.MillerAt w →
     (Legal 0x22 w → s.log.evq = [] → exec (.evq .miller w) s = .next (s.onMiller fun m => { m with s := regWrite m.s (fd w) 0 }.next)) ∧
     (∀ e es, Legal 0x22 w → s.log.evq = e :: es → exec (.evq .miller w) s = .next ((s.onLog fun l => { l with evq := es }).onMiller fun m =>
       { m with s := regWrite (regWrite m.s (fd w) (e.extractLsb' 0 64)) (fd w + 1) (e.extractLsb' 64 64) }.next)) ∧
     (Legal 0x23 w → s.log.evq = [] → exec (.wfe .miller w) s = .next (s.onMiller fun m => { m with waiting := true })) ∧
     (Legal 0x23 w → s.log.evq ≠ [] → exec (.wfe .miller w) s = .next (s.onMiller Miller.next))) ∧
   (∀ s : State, s.miller.waiting = true → s.log.evq ≠ [] → s.isOn 55 = true →
     exec .wfeRelease s = .next (s.onMiller fun m => { m.next with waiting := false })))

/-- A Miller fault (R348, R509): an error record of FAULT.MILLER, and the Miller goes on at FAULT_ENTRY with the cause in s1 (1
a long word, 2 an excluded opcode, 3 an address outside the local store) and the faulting word's address in s2. -/
def Obligations.MillerFaults : Prop :=
  ∀ s : State, s.millerRuns = true →
    let op : W32 → Nat := fun w => fld w.toNat 1 6
    let addr : W32 → Nat := fun w => (regRead s.miller.s (fa w) + BitVec.ofInt 64 (simm w * 8)).toNat
    let faults : Nat → Prop := fun k => exec .millerFault s = .next
      ((s.logErr { code := Code.fMiller, unit := 0x08, detail := k }).onMiller fun m =>
        { m with pc := m.faultEntry, s := regWrite (regWrite m.s 1 (BitVec.ofNat 64 k)) 2 (BitVec.ofNat 64 s.miller.pc), waiting := false })
    (0xC000 < s.miller.pc + 4 → faults 3) ∧
    (∀ w, s.millerWord = some w → w.getLsbD 0 = true → faults 1) ∧
    (∀ w, s.millerWord = some w → w.getLsbD 0 = false → 0x11 ≤ op w → op w ≤ 0x18 → faults 2) ∧
    (∀ w, s.millerWord = some w → Legal 0x0F w ∨ Legal 0x10 w → 0xC000 < addr w + 8 → faults 3)

/-- Short instructions that stop (R325, R348): in a context, a reserved field or code is refused with REFUSE.ENCODING, an
address that is not aligned or has a nonzero reserved bit, or an STT of a descriptor with one, with REFUSE.OPERAND, the
Miller's instructions with REFUSE.PRIV; in the Miller, an excluded opcode or a reserved field is a fault of cause 2. While
the completion ring of a context has no room, its short and system instructions hold (R345). -/
def Obligations.ShortInstructionStops : Prop :=
  (∀ (s : State) (i : Instr) (op : Nat) (c : Fin 64) (w : W32), shortRow i = some (op, .ctx c, w) → s.Takes c [w] → i.wf = true →
    (shortBad op w.toNat = true → exec i s = .next (s.refuseScalar c 1 Code.encoding (0x80 + op))) ∧
    (Legal op w → 0x20 ≤ op → exec i s = .next (s.refuseScalar c 1 Code.priv (0x80 + op))) ∧
    (∀ n al, Legal op w → (op, n, al) ∈ [(0x0F, simm w * 8, 8), (0x10, simm w * 8, 8), (0x11, simm w * 32, 32), (0x12, simm w * 32, 32), (0x13, 0, 64)] →
      2 ^ 52 ≤ ((s.cx c).rs (fa w)).toNat ∨ 2 ^ 52 ≤ ((s.cx c).rs (fa w) + BitVec.ofInt 64 n).toNat ∨ ((s.cx c).rs (fa w) + BitVec.ofInt 64 n).toNat % al ≠ 0 →
      exec i s = .next (s.refuseScalar c 1 Code.operand (0x80 + op))) ∧
    (Legal op w → op = 0x12 → (Desc.of (Map.get 0 (s.cx c).t (fd w))).rsv ≠ 0 → exec i s = .next (s.refuseScalar c 1 Code.operand 0x92))) ∧
  (∀ (s : State) (i : Instr) (c : Fin 64), s.canIssue c = true → (s.cx c).ringFull = true → i.wf = true →
    ((∃ op w, shortRow i = some (op, .ctx c, w)) ∨ ∃ w, i ∈ [.fence c w, .wait c w, .sig c w, .call c w, .ret c w]) →
    exec i s = .next (s.onCx c fun x => { x with hold := .ring })) ∧
  (∀ (s : State) (i : Instr) (op : Nat) (w : W32), shortRow i = some (op, .miller, w) → s.MillerAt w → i.wf = true →
    ((0x11 ≤ op ∧ op ≤ 0x18) ∨ shortBad op w.toNat = true) → exec i s = .next (s.millerFault' 2))

/-! ### Tensor instructions at issue -/

/-- A long instruction whose predicate fails retires at issue (R327): it passes its words, increments its event counter
under EVEN, writes a record of KIND 0 only under REC, and takes no ISSUE_SEQ number; nothing else changes. The record of a
tensor instruction has the SEQID of the sequence record it names (R344), which is read first where the record cache lacks it. -/
def Obligations.PredicatedOff : Prop :=
  ∀ (s : State) (i : Instr) (c : Nat) (w : Long), i.wf = true → s.Stands c w.words → (s.cx c).ringFull = false → (s.cx c).goes w = false →
    let x := s.cx c
    let s1 := s.onCx c fun x => x.adv 4
    let off : Bool → Nat → State := fun clsA seqid =>
      let s2 := if w.rec' then s1.writeRec c clsA
        { kind := 0, opc := w.opc, int := w.int', spos := x.sposNow.1, called := x.sposNow.2, issue := x.issueSeq, seqid := seqid } else s1
      if w.even' then (s2.onCx c fun x => x.wev w.evc (x.ev w.evc + 1)).stir (51 + c / 16) else s2
    (∀ r, tensorRow i = some (r, c, w) →
      let j := s.capture c w
      (∀ no, w.rec' = true → s.recDue r j = some no → exec i s = .next (s.readRec c j no)) ∧
      (w.rec' = false ∨ s.recDue r j = none → exec i s = .next (off (clsOf x w == 1) (r.prep s j).seqid))) ∧
    (∀ k : Fin 64, k.val = c → i ∈ [.fence k w, .wait k w, .sig k w, .call k w, .ret k w] → exec i s = .next (off false 0))

/-- What holds a tensor instruction at issue (R334, R345, R230): a ring without room for its record, 32 instructions in
flight, a sequence record it names that has not arrived, which is read, a power domain it needs that is not on, which is
woken, or its row's own condition. -/
def Obligations.TensorHolds : Prop :=
  ∀ (s : State) (i : Instr) (r : TRow) (c : Nat) (w : Long), tensorRow i = some (r, c, w) → i.wf = true →
    let j := s.atIssue r c w
    let holds : State → Hold → Prop := fun t h => exec i s = .next (t.onCx c fun x => { x with hold := h })
    (s.Stands c w.words → (s.cx c).ringFull = true → holds s .ring) ∧
    (s.Stands c w.words → (s.cx c).ringFull = false → (s.cx c).goes w = true → 32 ≤ s.inflight c → holds s .inflight) ∧
    (∀ no, s.Stands c w.words → (s.cx c).ringFull = false → (s.cx c).goes w = true → s.inflight c < 32 → s.recDue r (s.capture c w) = some no →
      exec i s = .next (s.readRec c (s.capture c w) no)) ∧
    (s.Issues r c w → s.commonCodes r j ++ r.checks s j = [] → s.offDoms r j ≠ [] → holds ((s.offDoms r j).foldl State.wakeDom s) .work) ∧
    (∀ h, s.Issues r c w → s.commonCodes r j ++ r.checks s j = [] → s.offDoms r j = [] → r.hold s j = some h → holds s h)

/-- A tensor instruction that fails a check is refused with the lowest code that applies (R12, R337, R353): it passes its
words, sets ERR and LASTERR, writes a record of KIND 1 with the SEQID of the sequence it names (R344), and increments its
event counter under EVEN. -/
def Obligations.TensorRefused : Prop :=
  ∀ (s : State) (i : Instr) (r : TRow) (c : Nat) (w : Long), tensorRow i = some (r, c, w) → i.wf = true → s.Issues r c w →
    let j := s.atIssue r c w
    ∀ code, code ∈ s.commonCodes r j ++ r.checks s j → (∀ k, k ∈ s.commonCodes r j ++ r.checks s j → code ≤ k) →
    let s1 := s.onCx c fun x => (x.adv 4).setErr code x.rseq
    let s2 := if code = Code.floor then s1.raise 0x0302 0x07 [c] else s1
    let s3 := s2.writeRec c (j.cls == 1)
      { kind := 1, code := code, opc := w.opc, int := w.int', spos := (s.cx c).sposNow.1, called := (s.cx c).sposNow.2,
        issue := (s.cx c).issueSeq, seqid := j.seqid }
    exec i s = .next (if w.even' then (s3.onCx c fun x => x.wev w.evc (x.ev w.evc + 1)).stir (51 + c / 16) else s3)

/-- Every tensor instruction of Class B or C that passes its checks is accepted (R334, R353): it is put in flight with all it
captures, takes an ISSUE_SEQ number, and its row's own effect follows. The rows: MMP, MMW, MMC, DRAIN, ACCZ, RSTAT, ACCSV,
ACCLD, ATTF, ATTB, ATTM_CONFIRM, ATTM_MERGE, BIAS, FNX, FNX_LOAD, FNX_COMPAT, GATE, NORM, QNT, KVAP, KVAP_SPEC, KVCM, KVDS,
KVFN, KVIV, PGCW_COPY, PGCW_PROMOTE, PGCW_DEMOTE, PGCW_PROTECT, PGCW_UNPROTECT, PGCW_DIGEST, PGFR, PGFR_LOG, PGPN, BOLT,
BPRF, MOV, LDOP, HALO, RING, SEND, RECV, WRED_CONTRIBUTE, WRED_REDUCE, TOPK.
A tensor instruction of Class B or C of zero length (R357) that passes its checks retires with the ordering effect only and
takes an ISSUE_SEQ number (R334). -/
def Obligations.TensorAccepted : Prop :=
  (∀ (s : State) (i : Instr) (r : TRow) (c : Nat) (w : Long), tensorRow i = some (r, c, w) → i.wf = true → s.Issues r c w →
     s.Passes r (s.atIssue r c w) → (s.atIssue r c w).cls ≠ 1 →
     exec i s = .next (r.effect (s.accept (s.atIssue r c w) true) (s.atIssue r c w))) ∧
  (∀ (s : State) (i : Instr) (r : TRow) (c : Nat) (w : Long), tensorRow i = some (r, c, w) → i.wf = true → s.Issues r c w →
     let j := s.atIssue r c w
     s.commonCodes r j ++ r.checks s j = [] → s.offDoms r j = [] → r.hold s j = none → r.zero s j = true → j.cls ≠ 1 →
     exec i s = .next (s.retire c w j.cls true j.seqid))

/-- Acceptance alone, as the row KVFN shows it, which has no other effect at issue (R247, R334): the instruction is in flight
under the next number with the registers it captured, ISSUE_SEQ rises by 1 modulo 2^24, one more record is reserved, the
context passes four words, and every other context and instruction and every other part of the machine keep their values. -/
def Obligations.AcceptanceFrame : Prop :=
  ∀ (s : State) (c : Fin 64) (w : Long), s.Canon → (Instr.kvfn c w).wf = true → s.Issues kvfnRow c w →
    s.Passes kvfnRow (s.atIssue kvfnRow c w) → (s.atIssue kvfnRow c w).cls ≠ 1 →
    ∃ t j, exec (.kvfn c w) s = .next t ∧ t.inst s.nextInst = some j ∧
      j.ctx = c.val ∧ j.w = w ∧ j.s = (s.cx c).s ∧ j.t = (s.cx c).t ∧ j.h = (s.cx c).h ∧ j.seed = (s.cx c).seed ∧
      j.issue = (s.cx c).issueSeq ∧ t.nextInst = s.nextInst + 1 ∧ (∀ n, n ≠ s.nextInst → t.inst n = s.inst n) ∧
      (t.cx c).issueSeq = ((s.cx c).issueSeq + 1) % 2 ^ 24 ∧ (t.cx c).resv = (s.cx c).resv + 1 ∧
      (∀ n, (t.cx c).rs n = (s.cx c).rs n) ∧ (∀ n, (t.cx c).ev n = (s.cx c).ev n) ∧
      ((s.cx c).code = none → (t.cx c).nextPos = ((s.cx c).nextPos + 4) % 2 ^ 32) ∧
      (∀ c', c' ≠ c.val → t.cx c' = s.cx c') ∧ { t with ctx := s.ctx, insts := s.insts, nextInst := s.nextInst } = s

/-- A Class A tensor instruction is accepted where the tests of R412 hold of the reservation entry of its context, and its
cost, with HOLD_A where R414 adds it, is charged to USED (R413); it carries its deadline. A RING whose cost counts from its
READY (R192) is not charged yet and has no deadline; one of zero length meets the tests at no cost and retires.
A Class A tensor instruction that fails a test of R412 is refused with REFUSE.BUDGET: the count rises, LASTBUD takes the
reason, and nothing is charged. While a lower divider waits it holds at issue (R427). -/
def Obligations.ClassABudget : Prop :=
  ∀ (s : State) (i : Instr) (r : TRow) (c : Nat) (w : Long), tensorRow i = some (r, c, w) → i.wf = true → s.Issues r c w →
    let j := s.atIssue r c w
    s.commonCodes r j ++ r.checks s j = [] → s.offDoms r j = [] → r.hold s j = none → j.cls = 1 → j.ctx = c → j.w = w →
    let s0 := s.openWindow c
    let zero := r.zero s j
    let ents := if zero = true then [] else granEntries none (r.addrs s0 j)
    let refuses : State → Out := fun t => .next (t.refuseTensor c w Code.budget 1 j.seqid)
    (s.pwr.divPend = true → exec i s = .next (s.onCx c fun x => { x with hold := .decrease })) ∧
    (s.pwr.divPend = false → s0.resvOf c = none →
      exec i s = refuses (s0.onSluice fun q => { q with budget := holdAdd q.budget 1 })) ∧
    (∀ k, s.pwr.divPend = false → s0.resvOf c = some k →
      let x := s0.rv k
      let holdA := if (j.opc = 0 ∨ j.opc = 1) ∧ s0.sluice.holdA ≠ 0 ∧ j.roleBound (LoopE.of j.l) 0 < 32 then s0.sluice.holdA else 0
      let cost := if zero = true then 0 else r.cost s0 j + s0.cMem x ents (r.dep s0 j) + holdA
      let used := if x.opened = true then x.used else 0
      let past := if x.opened = true then s.time.cclk - x.start else 0
      let closed := x.state ≠ 1 ∨ x.pending = true ∨ x.releasing = true
      let outside := ∃ g ∈ j.cores, bitOf x.cfg.bays (g / 64) = false ∨ bitOf x.cfg.cores (g % 64) = false
      let noPort := ∃ a ∈ ents, x.bw (homePort a) = 0
      (∀ reason,
        (reason = 0x10 ∧ closed) ∨ (reason = 0x13 ∧ ¬ closed ∧ outside) ∨ (reason = 0x14 ∧ ¬ closed ∧ ¬ outside ∧ noPort) ∨
        (reason = 0x11 ∧ ¬ closed ∧ ¬ outside ∧ ¬ noPort ∧ x.cfg.w < used + cost) ∨
        (reason = 0x12 ∧ ¬ closed ∧ ¬ outside ∧ ¬ noPort ∧ used + cost ≤ x.cfg.w ∧ x.cfg.d < past + x.rt) →
        exec i s = refuses ((s0.onSluice fun q => { q with budget := holdAdd q.budget 1 }).onRv k fun y => { y with lastbud := reason })) ∧
      (¬ closed → ¬ outside → ¬ noPort → used + cost ≤ x.cfg.w → past + x.rt ≤ x.cfg.d →
        let s1 := s0.onRv k fun y => { y with used := y.used + cost }
        let j1 := { j with resv := some k, cost := cost }
        let j2 := { j1 with deadline := some ((s1.rv k).start + (s1.rv k).cfg.d) }
        (zero = false → r.late j = false → exec i s = .next (r.effect (s1.accept j2 true) j2)) ∧
        (zero = false → r.late j = true → exec i s = .next (r.effect (s0.accept j1 true) j1)) ∧
        (zero = true → r.late j = false → exec i s = .next (s1.retire c w 1 true j.seqid)) ∧
        (zero = true → r.late j = true → exec i s = .next (s0.retire c w 1 true j.seqid))))

/-! ### System instructions -/

/-- WAIT (R339): with ERR clear it completes where `(e[n] − v) mod 2^32 < 2^31`, and else holds issue until it does; its
release completes it. -/
def Obligations.Waits : Prop :=
  ∀ (s : State) (c : Fin 64) (w : Long), (s.cx c).err = false →
    let x := s.cx c
    let n := fld w.w1.toNat 0 5
    let v := ((x.rs (fld w.w1.toNat 5 5)).toNat + w.w2.toNat) % 2 ^ 32
    let met := ((x.ev n).toNat + 2 ^ 32 - v) % 2 ^ 32 < 2 ^ 31
    let done := (s.onCx c fun x => x.adv 4).bump c w
    (s.Runs 0x71 c w → fld w.w1.toNat 10 22 = 0 → fld w.w3.toNat 6 26 = 0 →
      (met → exec (.wait c w) s = .next done) ∧
      (¬ met → exec (.wait c w) s = .next (s.onCx c fun x => { x with hold := .wait }))) ∧
    (x.hold = .wait → s.canIssue c = true → x.longAt = some w →
      (met → exec (.waitSatisfied c) s = .next done) ∧ (¬ met → exec (.waitSatisfied c) s = .next s))

/-- FENCE (R340): with ERR clear it completes where every tensor instruction of its context issued before it has ended, and
else holds issue; its release completes it.
While ERR is 1 a WAIT or FENCE stops its context before it takes effect, with a record of KIND 3 that holds the code in
LASTERR (R337); the instruction stays at the issue position. -/
def Obligations.FencesAndStops : Prop :=
  (∀ (s : State) (c : Fin 64) (w : Long), (s.cx c).err = false →
     let ended := ∀ i ∈ s.instList, i.ctx = c.val → i.opc ≠ 0x72 → s.nextInst ≤ i.n
     let done := (s.onCx c fun x => x.adv 4).bump c w
     (s.Runs 0x70 c w → w.w1 = 0 → w.w2 = 0 → fld w.w3.toNat 6 26 = 0 →
       (ended → exec (.fence c w) s = .next done) ∧
       (¬ ended → exec (.fence c w) s = .next (s.onCx c fun x => { x with hold := .fence }))) ∧
     ((s.cx c).hold = .fence → s.canIssue c = true → (s.cx c).longAt = some w →
       (ended → exec (.fenceSatisfied c) s = .next done) ∧ (¬ ended → exec (.fenceSatisfied c) s = .next s))) ∧
  (∀ (s : State) (c : Fin 64) (w : Long), (s.cx c).err = true → (s.cx c).ringFull = false →
     let x := s.cx c
     let stop : Nat → State := fun opc => (s.onCx c fun x => { x with run := .stopped, hold := .none }).writeRec c false
       { kind := 3, code := x.lastErr.toNat % 2 ^ 16, opc := opc, spos := x.sposNow.1, called := x.sposNow.2 }
     (s.Runs 0x71 c w → fld w.w1.toNat 10 22 = 0 → fld w.w3.toNat 6 26 = 0 → exec (.wait c w) s = .next (stop 0x71)) ∧
     (s.Runs 0x70 c w → w.w1 = 0 → w.w2 = 0 → fld w.w3.toNat 6 26 = 0 → exec (.fence c w) s = .next (stop 0x70)))

/-- SIG (R341, R399): accepted in flight with the target context and counter it names, refused with REFUSE.PRIV where the
target lies in another domain; its increment, once every tensor instruction issued before it has ended, writes its record
under REC, adds 1 to the target's counter, increments its own under EVEN and ends it. -/
def Obligations.Signals : Prop :=
  (∀ (s : State) (c : Fin 64) (w : Long), s.Runs 0x72 c w → fld w.w1.toNat 11 21 = 0 → w.w2 = 0 → fld w.w3.toNat 8 24 = 0 →
    let t := fld w.w1.toNat 0 6
    ((s.cx t).domain ≠ (s.cx c).domain → exec (.sig c w) s = .next (s.refuseScalar c 4 Code.priv 0x72)) ∧
    ((s.cx t).domain = (s.cx c).domain → (s.cx c).ringFull = false → s.inflight c < 32 →
      exec (.sig c w) s = .next (s.accept { s.capture c w with cls := 0, bays := [], aux := [t, fld w.w1.toNat 6 5] } false))) ∧
  (∀ (s : State) (n t k : Nat) (i : Inst), s.inst n = some i → i.opc = 0x72 → i.aux = [t, k] →
    (∀ j ∈ s.instList, j.ctx = i.ctx → j.opc ≠ 0x72 → n ≤ j.n) →
    let s1 := s.onCx i.ctx fun x => { x with resv := x.resv - 1 }
    let s2 := if i.w.rec' then s1.writeRec i.ctx false
      { kind := 4, opc := 0x72, int := i.w.int', spos := i.spos, called := i.called } else s1
    let s3 := ((s2.onCx t fun x => x.wev k (x.ev k + 1)).wakeLadder (51 + t / 16)).bump i.ctx i.w
    exec (.sigIncrement n) s = .next { s3 with insts := Map.erase s3.insts n })

/-- CALL and RET (R343): CALL pushes the position after it and goes on at the aligned address; RET pops it and goes on there;
CALL on a full stack and RET on an empty one stop the context with FAULT.CALL_DEPTH. -/
def Obligations.CallsAndReturns : Prop :=
  ∀ (s : State) (c : Fin 64) (w : Long),
    let x := s.cx c
    let depth : Nat → State := fun opc => (s.onCx c fun x => x.adv 4).faultScalar c opc x.sposNow { code := Code.fCallDepth, unit := 0x07 }
    (s.Runs 0x73 c w → fld w.w1.toNat 5 27 = 0 → w.w3 = 0 →
      let base := x.rs (fld w.w1.toNat 0 5)
      let a := (base + w.w2.signExtend 64).toNat
      let legal := base.toNat < 2 ^ 52 ∧ a < 2 ^ 52 ∧ a % 4 = 0
      (legal → x.stack.length < 8 → x.code = none → exec (.call c w) s = .next (s.onCx c fun x =>
        { x.adv 4 with stack := (true, (x.nextPos + 4) % 2 ^ 32) :: x.stack, code := some a, codeBuf := [], callSpos := x.nextPos })) ∧
      (∀ p, legal → x.stack.length < 8 → x.code = some p → exec (.call c w) s = .next (s.onCx c fun x =>
        { x.adv 4 with stack := (false, p + 16) :: x.stack, code := some a, codeBuf := [] })) ∧
      (legal → 8 ≤ x.stack.length → exec (.call c w) s = .next (depth 0x73)) ∧
      (¬ legal → exec (.call c w) s = .next (s.refuseScalar c 4 Code.operand 0x73))) ∧
    (s.Runs 0x74 c w → w.w1 = 0 → w.w2 = 0 → w.w3 = 0 →
      (∀ p rest, x.stack = (true, p) :: rest → exec (.ret c w) s = .next (s.onCx c fun x =>
        { x with stack := rest, code := none, codeBuf := [], nextPos := p, hold := .none })) ∧
      (∀ p rest, x.stack = (false, p) :: rest → exec (.ret c w) s = .next (s.onCx c fun x =>
        { x with stack := rest, code := some p, codeBuf := [], hold := .none })) ∧
      (x.stack = [] → exec (.ret c w) s = .next (depth 0x74)))

/-! ### Work in progress -/

/-- The end of a tensor instruction whose every part is done (R335, R337, R344, R430): a fault sets ERR and LASTERR; a record
of KIND 0 or 2 is written for a fault or under REC, with its RESULT (zero for speculative work); its counter rises under
EVEN; a missed deadline is counted and raises SLUICE.MISS; it leaves flight, and the instructions that wait for the Page
Walk Unit have their turns (R244). Of several faults the record names the first that is
not FAULT.POISON, else FAULT.POISON (log 104). Said of the instructions with no last act of
their own; with one, that act comes first. -/
def Obligations.InstructionEnds : Prop :=
  ∀ (s : State) (n : Nat) (i : Inst), s.inst n = some i → s.mayEnd i = true →
    exec (.tensorInstructionEnd n) s = .next ((s.lastActs i).finishInst n).settle.pwuTurn.runLanes ∧
    (i.link = none → i.held = [] → i.opc ∉ [0x20, 0x21, 0x22, 0x23, 0x41, 0x42, 0x44, 0x45] → (i.opc = 0x30 → i.fnLoad = false) → i.memErr = none →
      (∀ k ∈ i.aux, k < 1000 ∨ 1016 ≤ k) →
      let code := (i.faults.find? (· != Code.fPoison)).getD (i.faults.headD 0)
      let s1 := if i.faults = [] then s else s.onCx i.ctx fun x => x.setErr code x.rseq
      let s2 := s1.onCx i.ctx fun x => { x with resv := x.resv - 1 }
      let s3 := if i.faults ≠ [] ∨ i.w.rec' = true then
          s2.writeRec i.ctx (i.cls == 1)
            { kind := if i.faults = [] then 0 else 2, code := code, opc := i.opc, spec := i.spec, poison := i.poison, int := i.w.int',
              called := i.called, spos := i.spos, issue := i.issue, result := if i.spec then 0 else i.result.toNat, seqid := i.seqid }
        else s2
      let s4 := if i.w.even' then (s3.onCx i.ctx fun x => x.wev i.w.evc (x.ev i.w.evc + 1)).stir (51 + i.ctx / 16) else s3
      let gone : State → State := fun t => (State.freeReleased { t with insts := Map.erase t.insts n }).settle.pwuTurn.runLanes
      ((∀ d, i.deadline = some d → i.cls = 1 → s.time.cclk ≤ d) → exec (.tensorInstructionEnd n) s = .next (gone s4)) ∧
      (∀ d r, i.deadline = some d → i.cls = 1 → d < s.time.cclk → i.resv = some r →
        exec (.tensorInstructionEnd n) s = .next (gone (((s4.onRv r fun y => { y with misses := holdAdd y.misses 1 }).onSluice fun q =>
          { q with misses := holdAdd q.misses 1 }).raise 0x0307 0x01 [r, i.issue]))))

/-- A pass starts on an array (R418, R420, R421). The operands of the ready items that have not been asked for are requested
(R70, R299); a pass is chosen among the items whose operands have come. A Class A pass goes first, in order of its
reservation's D and then ASEQ; else, but for the Class C pass that C_GAP lets through, a Class B pass of the least virtual
time, whose context is charged its rows plus 8 for each stationary tile over its WEIGHT; else a Class C pass, in order of
issue. A start of Class A leaves the count of C_GAP as it is. The passes of a chained or key tile start one by one; the last of
them runs the tile with its operands in the staging region (R299), and the operands of its instruction's next pass are
requested. With no item to choose nothing else changes, but that the boundary sets the virtual time of a context whose Class B
work has become ready, and that lane work which waited for the softmax stage runs when the stage is free (R193). -/
def Obligations.PassStarts : Prop :=
  ∀ (s : State) (core : Fin 2048) (bed : Bool),
    let sf := s.fetchReady core bed
    let s0 := sf.rebase
    let key := 2 * core.val + b2n bed
    let l := s0.loadedItems core bed
    let gap := Map.get 0 s0.sluice.gap key
    (l = [] → exec (.passStart core bed) s = .next s0.runLanes) ∧
    (∀ c d ds, s.Canon → sf.sluice.readyB.filter sf.readyClassB.contains = d :: ds →
      (sf.readyClassB.filter fun c => !(d :: ds).contains c) = [c] →
      (s0.cx c).vtime = max (sf.cx c).vtime (ds.foldl (fun a k => min a (sf.cx k).vtime) (sf.cx d).vtime) ∧
      ∀ e, e ≠ c → (s0.cx e).vtime = (sf.cx e).vtime) ∧
    ((∀ c ∈ sf.readyClassB, c ∈ sf.sluice.readyB) → s0 = sf.onSluice fun q => { q with readyB := sf.readyClassB }) ∧
    (∀ i w c, s0.choose l gap = (some (i, w), c) →
      let ms := s0.matesOf i w
      let mine := ms.flatMap fun m => m.1.work.filter (sameItem w)
      let s1 := s0.onSluice fun q => { q with gap :=
        if i.cls = 1 then q.gap else if i.cls = 2 ∧ c = true then Map.modify 0 q.gap key (· + 1) else Map.set 0 q.gap key 0 }
      let charged : Nat → State := fun rows => if i.cls = 2 then s1.onCx i.ctx fun x =>
        { x with vtime := x.vtime + ((rows + 8 : Nat) : ℚ) * 256 / (max 1 x.weight : Nat) } else s1
      (1 < w.parts.length → exec (.passStart core bed) s = .next ((charged w.nextRows).dropPart (s1.matesOf i w) w).runLanes) ∧
      (w.parts.length ≤ 1 →
        let s3 := ((charged (mine.map Work.nextRows).sum).takeItem ms w).stageAs ms
          (.staged (mine.flatMap fun x => x.bad ++ x.held.flatMap Held.bad) (mine.flatMap Work.held))
        let s4 := (s3.runPass ((s3.inst i.n).getD i |> fun y => { y with cut := none }) (s3.matesNow ms none) w bed).stageAs ms .off
        exec (.passStart core bed) s = .next (s4.fetchNext i.n core).runLanes)) ∧
    (∀ i w, (s0.choose l gap).1 = some (i, w) →
      (i, w) ∈ l ∧
      ((∃ q ∈ l, q.1.cls = 1) → i.cls = 1 ∧ ∀ q ∈ l, q.1.cls = 1 →
        (s0.prioA i).1 < (s0.prioA q.1).1 ∨ (s0.prioA i).1 = (s0.prioA q.1).1 ∧ (s0.prioA i).2 ≤ (s0.prioA q.1).2) ∧
      ((∀ q ∈ l, q.1.cls ≠ 1) → (∃ q ∈ l, q.1.cls = 2) → (s0.sluice.cGap = 0 ∨ gap < s0.sluice.cGap) →
        i.cls = 2 ∧ ∀ q ∈ l, q.1.cls = 2 → (s0.cx i.ctx).vtime ≤ (s0.cx q.1.ctx).vtime) ∧
      ((∀ q ∈ l, q.1.cls ≠ 1) → (∃ q ∈ l, 3 ≤ q.1.cls) → s0.sluice.cGap ≠ 0 → s0.sluice.cGap ≤ gap →
        3 ≤ i.cls ∧ ∀ q ∈ l, 3 ≤ q.1.cls → i.n ≤ q.1.n)) ∧
    ((∃ q ∈ l, q.1.cls ≠ 0) → ∃ i w, (s0.choose l gap).1 = some (i, w))

/-- A drain starts on a core (R118, R419, R420, R421): the item chosen among the ready ones whose data has come leaves the
work of its instruction, its cycles are charged to a Class B context, and it runs; an item of ACCZ leaves its slots
unanchored and zero (R115). A GATE drain of a lower class on a bay with Class A enabled runs in two halves of 40 and 32
cycles, and its second half stays in the work of its instruction; between them only Class A may take the path (R419). The
boundary sets virtual times as at a pass, and lane work that waited for the softmax stage runs when it is free (R193).
A member of a batch that is held past its limit, or whose first member has ended, is released with its batch (R428). -/
def Obligations.DrainsAndBatches : Prop :=
  (∀ (s9 : State) (core : Fin 2048),
     let s := s9.rebase
     let l := s.readyDrains core
     (l = [] → exec (.drainStart core) s9 = .next s) ∧
     ((∃ q ∈ s.readyItems core false false, s.operandsOut [(q.1, 0)] q.2 = false ∧ q.2.rows = 2 ∧ q.1.usesLanes q.2 = false) →
       ∀ q ∈ l, q.2.rows = 2 ∨ q.1.cls = 1) ∧
     (∀ q ∈ l, q.1.epi = true → q.2.ix.headD 0 ∈ [1, 2, 4] → s.stageHeld core q.1.n = false) ∧
     (∀ i w, (s.choose l 0).1 = some (i, w) →
       let ms := s.matesOf i w
       let gate := 2 ≤ w.slots.length ∧ w.ix.headD 0 < 5
       let half := gate ∧ i.cls ≠ 1 ∧ s.aOn (w.core / 64) = true ∧ w.rows = 0
       let cycles : Nat := if w.ix.headD 0 = 28 ∨ w.ix.headD 0 = 5 then 0 else if ¬ gate ∨ half ∨ w.rows = 1 then 40 else if w.rows = 2 then 32 else 72
       let s1 := if i.cls = 2 then s.onCx i.ctx fun x => { x with vtime := x.vtime + (cycles : ℚ) * 256 / (max 1 x.weight : Nat) } else s
       (i, w) ∈ l ∧
       (half → exec (.drainStart core) s9 = .next ((s1.leaveHalf ms w).runDrainItem i ms { w with rows := 1 })) ∧
       (¬ half → exec (.drainStart core) s9 = .next ((s1.takeItem ms w).runDrainItem i ms w).runLanes) ∧
       (w.ix.headD 0 = 5 → w.core = core → exec (.drainStart core) s9 =
         .next (w.slots.foldl (fun t k => t.onSlot core k fun _ => Slot.zero) (s1.takeItem ms w)).runLanes))) ∧
  (∀ (s : State) (n : Nat) (b : Batch), s.sluice.batches.find? (fun b => b.head == n) = some b →
     ((∀ i, s.inst n = some i → b.t0 + s.holdOf i.cls ≤ s.time.cclk) → exec (.batchHoldExpiry n) s = .next (s.releaseBatch n)) ∧
     (∀ i, s.inst n = some i → s.time.cclk < b.t0 + s.holdOf i.cls → exec (.batchHoldExpiry n) s = .next s))

/-! ### The Hopper -/

/-- A bundle on a channel with a free buffer (R329, R331, R403, R404). In sequence it is accepted: the expected number
advances and the Sluice is told of it. A good one's words follow the newest of its context where none that has not issued
would be overwritten, with the credit returned; else it is held. A bad one is discarded with FAULT.BUNDLE; one out of
sequence, with FAULT.BUNDLE_SEQ, and the channel waits for a RESYNC.
A RESYNC is accepted whatever its BSEQ (R329): the next bundle expected is its own plus 1; with a nonzero NW or
reserved byte it is then discarded with FAULT.BUNDLE. -/
def Obligations.Bundles : Prop :=
  (∀ (s : State) (ch : Fin 4) (b : BitVec 512), bKind b ≠ 1 → s.hopRdy ch = true → (s.chan ch).held.length < 16 →
     let c := bCtx ch b
     let x := s.chan ch
     let y := s.cx c
     let s0 := s.onChan ch fun z => { z with credits := z.credits - 1 }
     let s1 := (s0.onChan ch fun z => { z with exp := (z.exp + 1) % 2 ^ 16 }).onSluice fun q => { q with told := q.told ++ [c] }
     let good := bKind b = 0 ∧ bNw b ≤ 14 ∧ bReserved b = false ∧ y.enable = true ∧ y.cfg.fwOwned = false ∧ s.ctxFenced c = false
     let room := bNw b = 0 ∨ sdiff (y.newest + bNw b) y.nextPos ≤ 1024
     let free := ∀ h ∈ x.held, bCtx ch h ≠ c
     (x.inSeq = true → bSeq b = x.exp → good → room → free → exec (.bundleAppend ch b) s =
       .next (((s1.onCx c fun z => { z with
         window := Map.setMany 0 z.window ((List.range (bNw b)).map fun k => ((z.newest + k) % 2 ^ 32 % 1024, bWord b k)),
         newest := (z.newest + bNw b) % 2 ^ 32 }).wakeLadder (51 + c / 16)).hopCredit ch)) ∧
     (x.inSeq = true → bSeq b = x.exp → good → ¬ (room ∧ free) → exec (.bundleAppend ch b) s =
       .next ((s1.onChan ch fun z => { z with held := z.held ++ [b] }).wakeLadder (51 + ch))) ∧
     (x.inSeq = true → bSeq b = x.exp → ¬ good → exec (.bundleAppend ch b) s =
       .next ((s1.hopErr (some c) Code.fBundle ch).hopCredit ch)) ∧
     (x.inSeq = false ∨ bSeq b ≠ x.exp → exec (.bundleAppend ch b) s =
       .next (((s0.onChan ch fun z => { z with inSeq := false }).hopErr (some c) Code.fBundleSeq x.exp).hopCredit ch))) ∧
  (∀ (s : State) (ch : Fin 4) (b : BitVec 512), bKind b = 1 → s.hopRdy ch = true → (s.chan ch).held.length < 16 →
     let s0 := s.onChan ch fun z => { z with credits := z.credits - 1 }
     let s1 := s0.onChan ch fun z => { z with exp := (bSeq b + 1) % 2 ^ 16, inSeq := true }
     let bad := bNw b ≠ 0 ∨ 16 ≤ bByte b 0 ∨ bByte b 3 ≠ 0 ∨ fld b.toNat 48 16 ≠ 0
     (¬ bad → exec (.bundleResync ch b) s = .next (s1.hopCredit ch)) ∧
     (bad → exec (.bundleResync ch b) s = .next ((s1.hopErr none Code.fBundle ch).hopCredit ch)))

/-- A bundle that arrives while its channel has no free buffer is discarded with FAULT.HOP_OVERRUN, its credit is not
returned, and the next bundle with the number after its own is out of sequence (R452). -/
def Obligations.HopperOverrun : Prop :=
  ∀ (s : State) (ch : Fin 4) (b : BitVec 512), s.hopRdy ch = true → 16 ≤ (s.chan ch).held.length →
    let s0 := s.onChan ch fun z => { z with credits := z.credits - 1 }
    (bKind b ≠ 1 → exec (.bundleAppend ch b) s = .next (s0.hopErr (some (bCtx ch b)) Code.fHopOverrun ch)) ∧
    (bKind b = 1 → exec (.bundleResync ch b) s = .next (s0.hopErr none Code.fHopOverrun ch)) ∧
    (s.Canon → bSeq b = (s.chan ch).exp → ∀ (t : State) (b' : BitVec 512),
      (exec (.bundleAppend ch b) s = .next t ∨ exec (.bundleResync ch b) s = .next t) → bKind b' ≠ 1 →
      bSeq b' = (bSeq b + 1) % 2 ^ 16 → (t.chan ch).held = (s.chan ch).held ∧ (t.pins.hopCredit = s.pins.hopCredit) ∧
      ((t.chan ch).inSeq = false ∨ bSeq b' ≠ (t.chan ch).exp))

/-- A held bundle enters its context's window once it has room, oldest first, with its credit (R331); one of a context fenced
since is discarded (R513). INJECT appends the bundle of the injection registers to a firmware-owned context, or discards it
with FAULT.BUNDLE (R349); the Sluice is told of a bundle for a firmware-owned context, and of no other (R349, R403). Without
room for its words, or behind another of its context, it is held as an APPEND is (R331), and with the Hopper not on, or
behind another that waits so, it waits while the Hopper wakes (R542); both enter the window from there (log 50). -/
def Obligations.HeldAndInjected : Prop :=
  (∀ (s : State) (ch : Fin 4) (b : BitVec 512) (rest : List (BitVec 512)), s.isOn 48 = true → (s.chan ch).held = b :: rest →
    (∀ q ∈ s.hop.injWait, q.1 / 16 ≠ ch.val) →
    let c := bCtx ch b
    let s1 := s.onChan ch fun y => { y with held := y.held.erase b }
    (s.ctxFenced c = false → (s.cx c).enable = true → (s.cx c).fits (bNw b) = true →
      exec (.heldBundleRelease ch) s = .next ((s1.append' c b).hopCredit ch)) ∧
    (s.ctxFenced c = true → exec (.heldBundleRelease ch) s = .next ((s1.hopErr (some c) Code.fBundle ch).hopCredit ch))) ∧
  (∀ (s : State) (v : W32), s.Open none →
    let c := fld v.toNat 0 6
    let b := s.hop.bundle
    let good := bKind b = 0 ∧ bNw b ≤ 14 ∧ bReserved b = false ∧ (s.cx c).enable = true ∧ (s.cx c).cfg.fwOwned = true ∧ s.ctxFenced c = false
    let free := ∀ q ∈ s.hop.injHeld, q.1 ≠ c
    let told := s.onSluice fun q => { q with told := q.told ++ [c] }
    let takes := s.isOn 48 = true ∧ ∀ q ∈ s.hop.injWait, q.1 ≠ c
    (takes → good → (s.cx c).fits (bNw b) = true → free → exec (.inject v) s = .next (told.append' c b).wrote) ∧
    (takes → ¬ good → exec (.inject v) s =
      .next ((if (s.cx c).cfg.fwOwned then told else s).hopErr (some c) Code.fBundle (c / 16 + 256)).wrote) ∧
    (takes → good → ¬ ((s.cx c).fits (bNw b) = true ∧ free) → exec (.inject v) s =
      .next (({ told with hop := { s.hop with injHeld := s.hop.injHeld ++ [(c, b)] } } : State).wakeLadder (51 + c / 16)).wrote) ∧
    (¬ takes → let t := s.wakeDom 48
      exec (.inject v) s = .next (State.wrote { t with hop := { s.hop with injWait := s.hop.injWait ++ [(c, b)] } }))) ∧
  (∀ (s : State) (ch : Fin 4) (c : Nat) (b : BitVec 512) (rest : List (Nat × BitVec 512)), s.isOn 48 = true → c / 16 = ch.val →
    s.bundleBad c b true = false → (s.cx c).fits (bNw b) = true →
    ((∀ q ∈ s.hop.injWait, q.1 / 16 ≠ ch.val) → (s.chan ch).held = [] → s.hop.injHeld = (c, b) :: rest →
      exec (.heldBundleRelease ch) s = .next (({ s with hop := { s.hop with injHeld := rest } } : State).append' c b)) ∧
    (s.hop.injWait = (c, b) :: rest → (∀ q ∈ s.hop.injHeld, q.1 ≠ c) → exec (.heldBundleRelease ch) s =
      .next (({ s with hop := { s.hop with injWait := rest } }.onSluice fun q => { q with told := q.told ++ [c] }).append' c b)))

/-! ### The memory ports -/

/-- READY in a cycle with requests in the slots of a channel (R435): all of them are outstanding, the port's count rises by
their number, and waiting requests move up.
A read return (R436, R441, R443). It leaves the outstanding reads; with no error its line enters the Granary where the
read fills it, in the slice of its port group (R20, R448); with an error it is counted, what the data was for is poisoned or
its chunk withheld (R517), and the instruction that made it keeps its first failing port and address and writes on with
poison; the return of a read that timed out is discarded, its
error counted (R474).
A write acknowledgement (R437, R441, R443). The request leaves the port; a scalar store's context goes on; a completion
record that is to interrupt pulses its cluster's line, once for those of one SCLK cycle (R346); a landing sends the
acknowledgements now due; an error is counted, the bytes of the write that had not taken effect are as they were (log 16),
and the instruction keeps its address. -/
def Obligations.PortTraffic : Prop :=
  (∀ (s : State) (p : Fin 32), s.portFenced p = false →
     let x := s.port p
     let at' : List Req → List Req := fun l => l.map fun r => { r with since := s.time.mclk }
     (x.rq ≠ [] → exec (.nmpRequestAccepted p false) s = .next (State.offer p 8 (s.onPort p fun y =>
       { y with rq := [], rdOut := y.rdOut ++ at' x.rq, reads := holdAdd y.reads x.rq.length }))) ∧
     (x.wr ≠ [] → exec (.nmpRequestAccepted p true) s = .next (State.offer p 8 (s.onPort p fun y =>
       { y with wr := [], wrOut := y.wrOut ++ at' x.wr, writes := holdAdd y.writes x.wr.length })))) ∧
  (∀ (s : State) (p : Fin 32) (tag : Nat), s.Canon →
     let x := s.port p
     let gone : Bool → State := fun err => s.onPort p fun y =>
       { y with rdOut := y.rdOut.filter (fun q => q.tag != tag), errs := if err then holdAdd y.errs 1 else y.errs }
     let filled : Req → State := fun r => if r.fill then (gone false).granFill r.addr else gone false
     let lost : Req → State := fun r => r.tgt.foldl (fun t g => match g with
       | .chunk m c => t.withhold m c
       | g => t.poisonTgt g) (gone true)
     (∀ r, r.fill = true → (s.sliceLines (homePort r.addr / 4)).length < 32768 → filled r = { gone false with mem := { (gone false).mem with
       gran := Map.set [] s.mem.gran (r.addr / 128) (s.extBytes (r.addr / 128 * 128) 128),
       granBad := s.mem.granBad.filter (· != r.addr / 128) } }) ∧
     (∀ r n, x.rdOut.find? (fun r => r.tag == tag) = some r → r.why = .tensor n →
       exec (.nmpReadReturn p tag false) s = .next (filled r).offerAll.pwuTurn ∧
       (∀ i, s.inst n = some i → i.spec = false → r.quiet = false →
         exec (.nmpReadReturn p tag true) s = .next (((lost r).markPoison n true).memError n (homePort r.addr) r.addr).offerAll.pwuTurn)) ∧
     (∀ r c, x.rdOut.find? (fun r => r.tag == tag) = some r → r.why = .scalar c →
       exec (.nmpReadReturn p tag false) s = .next ((filled r).scalarReturn c none).offerAll.pwuTurn ∧
       exec (.nmpReadReturn p tag true) s = .next ((gone true).scalarReturn c (some (Code.fMemError, homePort r.addr))).offerAll.pwuTurn) ∧
     (x.rdOut.find? (fun r => r.tag == tag) = none → tag ∈ x.lateRd → ∀ err,
       exec (.nmpReadReturn p tag err) s = .next (State.offer p 8 (s.onPort p fun y =>
         { y with lateRd := y.lateRd.filter (· != tag), errs := if err then holdAdd y.errs 1 else y.errs })))) ∧
  (∀ (s : State) (p : Fin 32) (tag : Nat),
     let x := s.port p
     let gone : Bool → State := fun err => s.onPort p fun y =>
       { y with wrOut := y.wrOut.filter (fun q => q.tag != tag), errs := if err then holdAdd y.errs 1 else y.errs }
     let acked : State → Out := fun t => .next (State.offer p 8 t)
     (∀ r, x.wrOut.find? (fun r => r.tag == tag) = some r →
       (∀ n, r.why = .tensor n → exec (.nmpWriteAck p tag false) s = acked (gone false) ∧
         exec (.nmpWriteAck p tag true) s = acked (((gone true).unwrite r).memError n (homePort r.addr) r.addr)) ∧
       (∀ c, r.why = .scalar c → exec (.nmpWriteAck p tag false) s = acked ((gone false).scalarReturn c none) ∧
         exec (.nmpWriteAck p tag true) s = acked (((gone true).unwrite r).scalarReturn c (some (Code.fMemError, homePort r.addr)))) ∧
       (∀ c irq, r.why = .record c irq → exec (.nmpWriteAck p tag false) s = acked (if irq = true ∧ Map.get 0 s.pins.cmplAt (c / 16) ≠ s.time.sclk + 1 then (gone false).onPins fun q =>
         { q with cmplIrq := Map.modify 0 q.cmplIrq (c / 16) (· + 1), cmplAt := Map.set 0 q.cmplAt (c / 16) (s.time.sclk + 1) } else gone false)) ∧
       (∀ n l c, r.why = .land n l c → exec (.nmpWriteAck p tag false) s = .next ((State.offer p 8 (gone false)).flushAcks n))) ∧
     (x.wrOut.find? (fun r => r.tag == tag) = none → tag ∈ x.lateWr → ∀ err, exec (.nmpWriteAck p tag err) s =
       acked (s.onPort p fun y => { y with lateWr := y.lateWr.erase tag, errs := if err then holdAdd y.errs 1 else y.errs })))

/-- A request that has waited TMO MCLK cycles (R443, R444): it is reported, every read outstanding at the port completes and
its return will be discarded, and what the port has not sent completes. The report, shown of a request that no context
made: the port's timeouts are counted, and FAULT.PORT_TIMEOUT names the port as the unit to fence, the tag and whether it
is a write's. Before TMO cycles, or with TMO 0, nothing changes. -/
def Obligations.PortTimeouts : Prop :=
  ∀ (s : State) (p : Fin 32) (wr : Bool) (tag : Nat) (r : Req),
    let x := s.port p
    (if wr then x.wrOut else x.rdOut).find? (fun r => r.tag == tag) = some r →
    (s.mem.tmo = 0 ∨ s.time.mclk < r.since + s.mem.tmo → exec (.portTimeout p wr tag) s = .next s) ∧
    (s.mem.tmo ≠ 0 → r.since + s.mem.tmo ≤ s.time.mclk →
      let s2 := s.timeoutReport p wr tag r
      let gone := (s2.port p).wrOut.filter fun q => wr && q.tag == tag
      let s3 := s2.onPort p fun z =>
        { z with rdOut := [], lateRd := z.lateRd ++ z.rdOut.map Req.tag,
                 wrOut := z.wrOut.filter (fun q => !(wr && q.tag == tag)), lateWr := z.lateWr ++ gone.map Req.tag }
      let s4 := (s2.port p).rdOut.foldl (fun t r =>
        t.completeRead r (some (if wr = false ∧ r.tag = tag then Code.fPortTimeout else Code.fPortFenced))) s3
      let s5 := gone.foldl (fun t r => t.completeWrite r (some Code.fPortTimeout)) s4
      exec (.portTimeout p wr tag) s = .next (s5.drainPort p).pwuTurn) ∧
    (s.mem.tmo ≠ 0 → r.since + s.mem.tmo ≤ s.time.mclk → r.why = .image →
      s.timeoutReport p wr tag r = (s.onPort p fun y => { y with timeouts := holdAdd y.timeouts 1 }).report
        { code := Code.fPortTimeout, scope := 3, unit := 0x06, index := p, addr := r.addr, poison := !wr, detail := if wr then tag + 4096 else tag } 0)

/-- The home port updates one line (R125, R439, R445, R446), the first whose read has returned and whose data has come, Class A
before the others. An entry line: each of its four entries becomes the sum of F modulo 2^96 with the flags ORed, and the port
counts an atomic update. A header line is first compared: a header that is not valid, or an entry on either side with a
reserved bit (R48), drops the tile with FAULT.WIDE_HEADER, one that differs in ANCHOR, ROWS, COLS, QUAD or QANCH with
FAULT.WIDE_ANCHOR, and neither counts; else PASSES are added, INEXACT is ORed, and the tile's entry lines may go. Where the read
of the line returned NMP_RD_ERR, the add proceeds on the values as received and the write-back carries poison (R441). Then
lines that waited may enter the unit. -/
def Obligations.AtomicLineUpdates : Prop :=
  ∀ (s : State) (p : Fin 32) (a : Atom) (n : Nat) (err : Bool),
    let x := s.port p
    let can : Atom → Bool := fun b => b.got.isSome && !s.addDue b
    (x.atoms.find? fun b => b.clsA && can b).or (x.atoms.find? can) = some a → a.got = some err →
    s.portFenced p = false → s.isOn (32 + p.val / 4) = true → s.owner a.why = .tensor n →
    let s0 := s.onPort p fun y => { y with atoms := y.atoms.filter (fun b => b.seq != a.seq) }
    let s1 := s0.onPort p fun y => { y with atomics := holdAdd y.atomics 1 }
    let t := s.extBytes a.line 64
    let valid := tileOk t = true ∧ tileOk a.data = true ∧ s.tileEntriesOk a.why a.tile a.data = true
    let sound := entriesOk (s.extBytes a.tile 64) a.e0 t
    let entry : List Byte → Nat → Nat := fun l j => leAt l (16 * j) 16
    let back : State → List Byte → State := fun s new =>
      (s.queueWriteAt a.seq a.dom a.clsA a.why a.line new (a.poison || err)).takeAtoms p
    (a ∈ x.atoms ∧ ∀ b ∈ x.atoms, can b = true → b.clsA = true → a.clsA = true) ∧
    (a.hdr = false → sound = false → exec (.atomicLineUpdate p err) s =
      .next (((s0.dropTile a.why a.tile).wideFault n Code.fWideHeader a.line).takeAtoms p)) ∧
    (a.hdr = false → sound = true → ∃ new : List Byte, new.length = 64 ∧
      (∀ j, j < 4 → entry new j % 2 ^ 96 = (entry t j % 2 ^ 96 + entry a.data j % 2 ^ 96) % 2 ^ 96 ∧
        ∀ k, k < 32 → bitOf (entry new j) (96 + k) = ((bitOf (entry t j) (96 + k) || bitOf (entry a.data j) (96 + k)) && decide (k < 4))) ∧
      exec (.atomicLineUpdate p err) s = .next (back s1 new)) ∧
    (a.hdr = true → ¬ valid → exec (.atomicLineUpdate p err) s =
      .next (((s0.dropTile a.why a.tile).wideFault n Code.fWideHeader a.line).takeAtoms p)) ∧
    (a.hdr = true → valid → wideSame t a.data = false →
      exec (.atomicLineUpdate p err) s = .next (((s0.dropTile a.why a.tile).wideFault n Code.fWideAnchor a.line).takeAtoms p)) ∧
    (a.hdr = true → valid → wideSame t a.data = true → ∃ new : List Byte, new.length = 64 ∧
      leAt new 8 8 = (leAt t 8 8 + leAt a.data 8 8) % 2 ^ 64 ∧
      leAt new 4 1 = (leAt t 4 1 ||| (leAt a.data 4 1 &&& 2)) ∧ (∀ k, k < 64 → k ≠ 4 → (k < 8 ∨ 16 ≤ k) → new[k]? = t[k]?) ∧
      exec (.atomicLineUpdate p err) s = .next (back (s1.readyTile a.why a.tile) new))

/-- Invalidation of the Granary (R449, R474): GINV_ALL empties it; GINV_RANGE removes exactly the lines of GINV_PAGES pages
from GINV_BASE; GINV_BUSY is 1 until the invalidation ends.
While a context holds on a full ring, its consumed count is read (R345), one read at a time, past the Granary and under
the context's own windows; its return sets the count. -/
def Obligations.GranaryAndConsumedCount : Prop :=
  ((∀ s : State, s.Open none → exec .ginvAll s = .next (State.wrote { s with mem := { s.mem with gran := [], ginvBusy := true } })) ∧
   (∀ s : State, s.Open none → exec .ginvRange s = .next (State.wrote { s with mem := { s.mem with
     gran := s.mem.gran.filter fun p => !(decide (s.mem.ginvBase / 4096 ≤ 128 * p.1 / 4096)
       && decide (128 * p.1 / 4096 < s.mem.ginvBase / 4096 + s.mem.ginvPages)),
     ginvBusy := true } })) ∧
   (∀ s : State, s.mem.ginvBusy = true → exec .ginvDone s = .next { s with mem := { s.mem with ginvBusy := false } })) ∧
  (∀ (s : State) (c : Fin 64),
     let x := s.cx c
     let a := x.cfg.consAddr
     let busy := ∃ p r, (p, r) ∈ s.mem.ports ∧ ∃ q ∈ r.allReqs, q.why = .cons c.val
     (x.hold ≠ .ring ∨ busy → exec (.consAddrPoll c) s = .next s) ∧
     (x.hold = .ring → s.ctxFenced c = false → ¬ busy → s.checkAcc x.domain false .rd a = .ok → s.portFenced (homePort a) = false →
       exec (.consAddrPoll c) s = .next (s.queueRead x.domain false (.cons c.val) a 64 false [])) ∧
     (∀ (p : Fin 32) tag r, s.Canon → (s.port p).rdOut.find? (fun r => r.tag == tag) = some r → r.why = .cons c.val → r.fill = false →
       exec (.nmpReadReturn p tag false) s = .next
         ((s.onPort p fun y => { y with rdOut := y.rdOut.filter (fun q => q.tag != tag) }).onCx c fun x =>
           { x with consRead := leNat (s.extBytes x.cfg.consAddr 8) }).offerAll.pwuTurn))

/-! ### Links -/

/-- What a link's receiver does with a sequenced packet (R467, R468, R470). Off, or while it ignores what follows an error,
nothing. A packet with a line error, a field its TYPE does not allow, a wrong length or CRC is counted as a framing error
and NAKed, and what follows is ignored until a SYNC beat. The packet expected is taken: the expected number and the count
of packets rise, a report falls due within 64 cycles (R467) and its cells are freed, then it has the effect of its TYPE; DATA
for a Weir that is not on waits, with its cells, while the Weir wakes (R536); an old one is acknowledged again; a new one is
NAKed; both are dropped and free their cells (R464). A link in INIT has no numbers yet and drops what is sequenced. -/
def Obligations.SequencedPackets : Prop :=
  ∀ (s : State) (l : Fin 64) (b : List Byte) (err : Bool) (i : Instr) (typ : Nat) (f : State → State),
    let h := hdrOf b
    let pay := (b.drop 16).take (if h.typ = 1 then h.len else 0)
    (i, typ, f) ∈ [(.dataPacket l b err, 1, fun t => if 3 ≤ h.vcf % 8 then t.toWeir l h pay else t.ringData l h pay),
      (.ready l b err, 3, fun t => t.gotReady l h.job h.step), (.cack l b err, 4, fun t => t.gotCack h),
      (.nack l b err, 5, fun t => t.gotNack h)] →
    let x := s.link l
    let listens := s.linkOn l = true ∧ (x.st = 1 ∨ x.st = 2) ∧ x.up = true ∧ x.ignoring = false
    let n := if h.typ = 1 then h.len else 0
    let framed := err = false ∧ badPacket b = false ∧ b.length = 20 + n ∧ crcBytes (b.take (16 + n)) = (b.drop (16 + n)).take 4
    let d := (h.seq + 2 ^ 16 - x.expSeq) % 2 ^ 16
    let took := s.onLink l fun y =>
      { y with expSeq := (y.expSeq + 1) % 2 ^ 16, rxPkts := holdAdd y.rxPkts 1,
               repSince := if y.repSince = 0 then s.time.xclk + 1 else y.repSince }
    let dropped := s.freeCells l (h.vcf % 8) (cellsOf pay.length)
    (¬ listens → exec i s = .next s) ∧
    (listens → ¬ framed → exec i s = .next (s.onLink l fun y =>
      { y with frameErrs := holdAdd y.frameErrs 1, nakOwed := true, ctlDue := true, ignoring := true })) ∧
    (listens → framed → h.typ = typ → x.st = 1 → exec i s = .next dropped) ∧
    (listens → framed → h.typ = typ → x.st = 2 → d = 0 → exec i s = .next (f (if typ = 1 ∧ 3 ≤ h.vcf % 8 ∧ s.isOn 50 = false then took
      else took.freeCells l (h.vcf % 8) (cellsOf pay.length)))) ∧
    (listens → framed → h.typ = typ → x.st = 2 → 2 ^ 15 ≤ d → exec i s =
      .next (dropped.onLink l fun y => { y with ctlDue := true })) ∧
    (listens → framed → h.typ = typ → x.st = 2 → 0 < d → d < 2 ^ 15 → exec i s =
      .next (dropped.onLink l fun y => { y with ctlDue := true, nakOwed := true }))

/-- LLCTL and INIT (R462, R464, R468, R469, R470). LLCTL acknowledges the packets up to its number, returns cells to each
virtual channel, and with its NAK bit starts a replay, of which a link that still trains sends the SYNC beat alone (R469);
INIT gives the partner's link number and
cells, and raises LEAT.VC0_SHORT where they do not cover the reservations; one whose cells lie outside their ranges (R475) is
ignored (log 136). A link that trains and has seen INIT, and been
told that its own was seen, is UP with its numbers at 0, and the acknowledgements that waited for a link may go (R472). -/
def Obligations.LinkControl : Prop :=
  ∀ (s : State) (l : Fin 64) (b : List Byte),
    let h := hdrOf b
    let x := s.link l
    s.linkOn l = true → (x.st = 1 ∨ x.st = 2) → x.up = true → x.ignoring = false → badPacket b = false → b.length = 20 →
    crcBytes (b.take 16) = b.drop 16 →
    let first := match x.unacked with
      | p :: _ => leAt p.bytes 6 2
      | [] => 0
    let k := (h.seq + 2 ^ 16 + 1 - first) % 2 ^ 16
    let n := if k ≤ x.unacked.length ∧ x.st = 2 then k else 0
    let up : Link → Link := fun y => if y.st = 1 ∧ y.seenInit = true ∧ y.initAcked = true then
      { y with st := 2, nextSeq := 0, expSeq := 0, unacked := [], replay := [], repCount := 0, held := [], vc0Q := [],
               initDue := false } else y
    (h.typ = 2 →
      let s1 := s.onLink l fun y => up
        { y with unacked := y.unacked.drop n, repCount := if 0 < n then 0 else y.repCount, ackSince := if 0 < n then s.time.xclk else y.ackSince,
                 replay := y.replay.filter fun p => (y.unacked.drop n).contains p,
                 held := (List.range 7).foldl (fun m v => Map.modify 0 m v (· - (llctlCells b).getD v 0)) y.held,
                 vc0Q := takeCells ((llctlCells b).getD 0 0) y.vc0Q, initAcked := y.initAcked || bitOf h.vcf 1 }
      let s2 := if (s1.link l).st = x.st then s1 else s1.flushAll
      let y := s2.link l
      let most := max 1 (s2.group (l / 8)).retryMax
      (bitOf h.vcf 0 = false → exec (.llctl l b false) s = .next s2) ∧
      (bitOf h.vcf 0 = true → y.st ≠ 2 → exec (.llctl l b false) s = .next (s2.onLink l fun y => { y with replayDue := true })) ∧
      (bitOf h.vcf 0 = true → y.st = 2 → y.repCount < most → exec (.llctl l b false) s = .next (s2.onLink l fun y =>
        { y with repCount := y.repCount + 1, replays := holdAdd y.replays 1, replayDue := true, reread := none, ackSince := s2.time.xclk })) ∧
      (bitOf h.vcf 0 = true → y.st = 2 → most ≤ y.repCount → exec (.llctl l b false) s = .next (s2.dropLink l 1))) ∧
    (h.typ = 6 →
      let s1 := s.onLink l fun y => up
        { y with partner := leAt b 12 1, pvc0 := leAt b 8 2, pvcmax := leAt b 10 2, seenInit := true, ctlDue := true }
      let s2 := s1.flushAll
      let valid := leAt b 8 2 ≤ 512 ∧ 1 ≤ leAt b 10 2 ∧ leAt b 10 2 ≤ 1016
      let sum := ((List.range 32).map fun r => if (s2.rv r).state = 1 ∧ bitOf (s2.rv r).cfg.links l = true then (s2.rv r).cfg.lcred else 0).sum
      (valid → exec (.init l b false) s =
        .next (if (s2.link l).seenInit = true ∧ (s2.link l).pvc0 < 32 * sum then s2.raise 0x0309 0x05 [l] else s2)) ∧
      (¬ valid → exec (.init l b false) s = .next s))

/-- What a link sends next (R459, R462, R466, R469, R470, R497, R517): the LLCTL that is due; on a link that trains the INIT that
is due; a SYNC beat where a replay is due; on a link that is UP, then each packet not acknowledged, its payload read from
memory again, for the domain that sent it, which is sent once it has come without poison; then, while fewer than 1,024 packets wait for acknowledgement,
the first virtual channel of its order that has a packet and the credit for it; the data of the chunk that each virtual
channel sends next is requested first. Each sequenced packet takes the next number and its cells and is kept. -/
def Obligations.PacketSends : Prop :=
  ∀ (s : State) (l : Fin 64),
    let x := s.link l
    let runs := s.linkOn l = true ∧ x.up = true ∧ (x.st = 1 ∨ x.st = 2)
    let sends : Pkt → List Byte → Prop := fun p pay => exec (.packetSend l) s = .next (s.onLink l fun y =>
      { y with replay := y.replay.drop 1, reread := none, lastTx := p.bytes ++ pay ++ crcBytes (p.bytes ++ pay) })
    let s1 := s.fetchChunks l
    (¬ runs → exec (.packetSend l) s = .next s) ∧
    (runs → x.ctlDue = true → exec (.packetSend l) s = .next (s.sendLlctl l)) ∧
    (runs → x.ctlDue = false → x.st = 1 → x.initDue = true → exec (.packetSend l) s = .next (s.onLink l fun y =>
      { y with initDue := false, initSince := s.time.xclk,
               lastTx := let h := natLe 1 6 ++ zeroBytes 7 ++ natLe 2 (s.group (l / 8)).vc0 ++ natLe 2 (s.group (l / 8)).vcmax ++ natLe 1 l ++ zeroBytes 3
                         h ++ crcBytes h })) ∧
    (runs → x.ctlDue = false → (x.st = 2 ∨ x.initDue = false) → x.replayDue = true → exec (.packetSend l) s = .next (s.onLink l fun y =>
      { y with replayDue := false, replay := y.unacked, lastTx := syncBeat })) ∧
    (runs → x.ctlDue = false → x.st = 1 → x.initDue = false → x.replayDue = false → exec (.packetSend l) s = .next s) ∧
    (∀ p ps, runs → x.ctlDue = false → x.st = 2 → x.replayDue = false → x.replay = p :: ps →
      (p.src = none → sends p []) ∧
      (∀ a n, p.src = some (a, n) → s.inst p.inst = none → x.reread = none →
        let r := s.leatRead p l a n
        exec (.packetSend l) s = .next (r.1.onLink l fun y => { y with reread := some r.2 })) ∧
      (∀ a n i, p.src = some (a, n) → s.inst p.inst = some i → x.reread = none →
        let r := s.readExt p.inst false [.resend l] a n
        exec (.packetSend l) s = .next (r.1.onLink l fun y => { y with reread := some r.2.2 })) ∧
      (∀ a n, p.src = some (a, n) → x.reread = some false → s.tgtOut (.resend l) = false → sends p (s.extBytes a n)) ∧
      (∀ a n bad, p.src = some (a, n) → x.reread = some bad → (bad = true ∨ s.tgtOut (.resend l) = true) →
        exec (.packetSend l) s = .next s)) ∧
    (runs → x.ctlDue = false → x.st = 2 → x.replayDue = false → x.replay = [] → 1024 ≤ x.unacked.length →
      exec (.packetSend l) s = .next s) ∧
    (∀ v t, runs → x.ctlDue = false → x.st = 2 → x.replayDue = false → x.replay = [] → x.unacked.length < 1024 →
      v ∈ vcOrder x.lastVc → s1.sendVc l v = some t → (∀ k ∈ (vcOrder x.lastVc).takeWhile (· != v), s1.sendVc l k = none) →
      exec (.packetSend l) s = .next t) ∧
    (runs → x.ctlDue = false → x.st = 2 → x.replayDue = false → x.replay = [] → x.unacked.length < 1024 →
      (∀ k ∈ vcOrder x.lastVc, s1.sendVc l k = none) → exec (.packetSend l) s = .next s1) ∧
    (∀ p v, s.Canon → x.queue.find? (fun p => p.vc == v) = some p → s.credit l v p.cells p.resv = true →
      ∃ t, s.sendVc l v = some t ∧ (t.link l).nextSeq = (x.nextSeq + 1) % 2 ^ 16 ∧ (t.link l).queue = x.queue.erase p ∧
        (t.link l).unacked = x.unacked ++ [{ p with bytes := patch p.bytes 6 (natLe 2 (x.nextSeq % 2 ^ 16)) }])

/-- The timers of a link (R464, R469, R470, R187). With packets not acknowledged for REPLAY_TMO XCLK cycles a replay is due, and
after RETRY_MAX of them the link is fenced; freed cells are reported within 64 cycles; INIT is sent again while the link
trains; READY is sent again on the links where none of its data has arrived. A SYNC beat ends the state in which packets
are ignored.
Link states and enables (R470, R475, R513). A lane that trains starts an enabled link; one that is lost drops a link that
runs. LINK_EN starts a link newly enabled, and takes one disabled that was enabled or fenced to DOWN, hands its acknowledgements on
to a live link (R472), clears its fence and sends its chunks again. A commit of a group is rejected while a link of it is enabled or a staged field is out of range. -/
def Obligations.LinkTimersAndStates : Prop :=
  (∀ (s : State) (l : Fin 64),
     let x := s.link l
     let tmo := max 1 (s.group (l / 8)).replayTmo
     let late := x.st = 2 ∧ x.unacked ≠ [] ∧ x.ackSince + tmo ≤ s.time.xclk
     (late → x.repCount < max 1 (s.group (l / 8)).retryMax → exec (.replayTimeout l) s = .next (s.onLink l fun y =>
       { y with repCount := y.repCount + 1, replays := holdAdd y.replays 1, replayDue := true, reread := none, ackSince := s.time.xclk })) ∧
     (late → max 1 (s.group (l / 8)).retryMax ≤ x.repCount → exec (.replayTimeout l) s = .next (s.dropLink l 1)) ∧
     (¬ late → exec (.replayTimeout l) s = .next s) ∧
     (x.repSince ≠ 0 → x.ctlDue = false → x.repSince - 1 + 64 ≤ s.time.xclk →
       exec (.llctlReportDeadline l) s = .next (s.onLink l fun y => { y with ctlDue := true })) ∧
     (x.st = 1 → x.initDue = false → x.initSince + tmo ≤ s.time.xclk →
       exec (.initResend l) s = .next (s.onLink l fun y => { y with initDue := true })) ∧
     (x.ignoring = true → exec (.syncBeatReceived l) s = .next (s.onLink l fun y => { y with ignoring := false })) ∧
     (∀ n i o, s.inst n = some i → i.link = some o →
       let due := (bitsSet 64 o.rx).filter fun l => s.live l && decide (Map.get 0 o.sent l - 1 + s.replayTmo l ≤ s.time.xclk)
       (o.receives = true ∨ o.isWred = true ∧ o.role ≠ 0) → o.readyOut = false → due ≠ [] →
       exec (.readyResend n) s = .next (s.sendReady i o due))) ∧
  ((∀ (s : State) (l : Fin 64),
     let x := s.link l
     (x.up = false → exec (.lnkUpChange l true) s = .next ((s.onLink l fun y => { y with up := true }).startLink l)) ∧
     (x.up = true → (x.st = 1 ∨ x.st = 2) → exec (.lnkUpChange l false) s = .next ((s.onLink l fun y => { y with up := false }).dropLink l 0)) ∧
     (x.up = true → x.st ≠ 1 → x.st ≠ 2 → exec (.lnkUpChange l false) s = .next (s.onLink l fun y => { y with up := false })) ∧
     (∀ u, x.up = u → exec (.lnkUpChange l u) s = .next s)) ∧
   (∀ (s : State) (hi : Bool) (v : W32), s.Open none → exec (.linkEnWrite hi v) s = .next ((List.range 32).foldl (fun (t : State) k =>
     let l := k + (if hi then 32 else 0)
     let set := { t with leat := { t.leat with linkEn := Map.set false t.leat.linkEn l (bitOf v.toNat k) } }
     match bitOf v.toNat k, Map.get false t.leat.linkEn l with
     | true, true => t.wakeDom (40 + l / 8)
     | true, false => (set.wakeDom (40 + l / 8)).startLink l
     | false, en =>
       let down := ((set.onLink l fun y => { y with st := 0 }).moveAcks l).onLink l Link.down
       if en = false ∧ Map.get false t.prot.linkF l = false then t
       else (({ down with prot := { down.prot with linkF := Map.set false down.prot.linkF l false } }).resendFrom l).sweepLinks) s).wrote) ∧
   (∀ (s : State) (g : Fin 8), s.Open (some (40 + g.val)) →
     let x := s.group g
     let ok := (∀ k, k < 8 → Map.get false s.leat.linkEn (8 * g.val + k) = false) ∧ x.sVc0 ≤ 512 ∧ 1 ≤ x.sVcmax ∧ x.sVcmax ≤ 1016
     (ok → exec (.leatCommit g) s = .next (s.onGroup g fun y => { y with sepmode := y.sSepmode, vc0 := y.sVc0, vcmax := y.sVcmax, commitErr := false }).wrote) ∧
     (¬ ok → exec (.leatCommit g) s = .next (s.onGroup g fun y => { y with commitErr := true }).wrote)))

/-- The Weir's own commands (R485, R491, R493): an open bucket whose deadline passes closes and goes on; CSTATE sets the state
of each of 16 contributors but where it is 3, and with no bucket open does nothing else. -/
def Obligations.WeirCommands : Prop :=
  (∀ (s : State) (job : BitVec 12) (bkt : W32) (b : Bucket) (i : Inst) (o : LinkOp), s.bucket job.toNat bkt.toNat = some b →
    s.inst b.inst = some i → i.link = some o → b.started = true → b.closed = false →
    (b.t0 + o.dl ≤ s.time.xclk → exec (.bucketDeadline job bkt) s = .next (s.weirProgress job.toNat bkt.toNat)) ∧
    (s.time.xclk < b.t0 + o.dl → exec (.bucketDeadline job bkt) s = .next s) ∧
    (b.t0 + o.dl ≤ s.time.xclk → b.job = job.toNat → b.bkt = bkt.toNat → b.contribs = [] → s.folding job.toNat bkt.toNat = true →
      ∃ t, exec (.bucketDeadline job bkt) s = .next t ∧ ∃ b', t.bucket job.toNat bkt.toNat = some b' ∧ b'.closed = true ∧
        b'.closeAt = o.dl % 2 ^ 32)) ∧
  (∀ (s : State) (k : Fin 16) (v : W32), s.Open (some 50) → s.weir.buckets = [] →
    exec (.cstateWrite k v) s = .next (State.wrote { s with weir := { s.weir with cstate := (List.range 16).foldl (fun m j =>
      if fld v.toNat (2 * j) 2 = 3 then m else Map.set 0 m (16 * k.val + j) (fld v.toNat (2 * j) 2)) s.weir.cstate } }))

/-! ### Reservations and Class A -/

/-- ADMIT (R401, R402, R405 to R410): the first check that fails, in the order FIELD, CONTEXT, BAYS, CORES, DIVIDER, UCAP, PORT,
LINK, RESPONSE, refuses with its reason and changes nothing else; a request that passes all takes the next ASEQ, is
ADMITTED with PENDING set, has RT recomputed on its bays, wakes the domains it names, and raises LEAT.VC0_SHORT of a link
it names whose partner's cells no longer cover the reservations (R465). An admitted entry ignores it. -/
def Obligations.Admission : Prop :=
  ∀ (s : State) (r : Fin 32), s.Open (some 48) →
    let c := (s.rv r).staged
    let adm := (s.sluice.resv.filter fun q => q.2.state == 1).map Prod.snd
    let onBay : Nat → List (Nat × Nat) := fun b => (c.w, c.p) :: ((s.loads b).map fun x => (x.w, x.p))
    let fails : Nat → Prop := fun k => match k with
      | 1 => c.bays = 0 ∨ c.cores = 0 ∨ c.w = 0 ∨ c.d < c.w ∨ c.p < c.d ∨ 8000000 < c.p ∨ c.d < 8000 ∨ 16 < c.lcred
      | 2 => s.sluice.lMem = 0 ∨ ∃ x ∈ adm, x.cfg.ctx = c.ctx
      | 3 => ∃ b ∈ bitsSet 32 c.bays, s.present b = false ∨ Map.get false s.prot.bayF b = true ∨ bitOf s.sluice.aen b = false ∨
          bitOf s.sluice.aenEff b = false
      | 4 => (∃ b ∈ bitsSet 32 c.bays, ∃ k ∈ bitsSet 64 c.cores, Map.get false s.prot.coreF (64 * b + k) = true) ∨
          ∃ x ∈ adm, x.cfg.bays &&& c.bays ≠ 0 ∧ x.cfg.cores &&& c.cores ≠ 0
      | 9 => divOf c.maxdiv < divOf s.pwr.cdivEff
      | 5 => ∃ b ∈ bitsSet 32 c.bays, (s.sluice.uCap : ℚ) < 1000 * ((onBay b).map fun x => (x.1 : ℚ) / x.2).sum
      | 6 => ∃ p, p < 32 ∧ s.sluice.uCap * 512 < 1000 * ((adm.map fun x => 4 * Map.get 0 x.cfg.portsh p).sum + 4 * Map.get 0 c.portsh p)
      | 7 => ∃ l ∈ bitsSet 64 c.links, 16 < c.lcred + ((adm.filter fun x => bitOf x.cfg.links l).map fun x => x.cfg.lcred).sum
      | _ => ∃ b ∈ bitsSet 32 c.bays, respOk 176 (Load.of r c s.sluice.nextAseq :: s.loads b) = false
    let order := [1, 2, 3, 4, 9, 5, 6, 7, 8]
    ((s.rv r).state = 1 → exec (.resAdmit r) s = .next s.wrote) ∧
    (∀ k ∈ order, (s.rv r).state ≠ 1 → fails k → (∀ j ∈ order.takeWhile (· != k), ¬ fails j) →
      exec (.resAdmit r) s = .next (s.onRv r fun y => { y with state := 3, reason := k }).wrote) ∧
    ((s.rv r).state ≠ 1 → (∀ k ∈ order, ¬ fails k) →
      let s1 := s.onRv r fun y =>
        { y with cfg := y.staged, state := 1, pending := true, opened := false, used := 0, reason := 0, releasing := false,
                 aseq := s.sluice.nextAseq }
      let s2 := s1.onSluice fun q => { q with nextAseq := (q.nextAseq + 1) % 2 ^ 32 }
      let s3 := c.doms.foldl (fun t d => if t.isOn d then t else t.wakeDom d) (s2.setRt (bitsSet 32 c.bays) none 16)
      exec (.resAdmit r) s = .next ((bitsSet 64 c.links).foldl State.shortLink s3).wrote)

/-- The life of an admitted reservation (R403, R411, R424, R425). RELEASE frees it once its last instruction has ended; REVOKE
makes it REVOKED, is counted, raises SLUICE.REVOKE with cause 2 and makes its instructions Class B; its window closes P
cycles after its start with USED zero; PENDING clears once no reservation of lower priority on its bays has an open
window and its domains are on. -/
def Obligations.ReservationLife : Prop :=
  ∀ (s : State) (r : Fin 32), s.Canon → (s.rv r).state = 1 →
    let x := s.rv r
    (s.Open (some 48) → ∃ t, exec (.resRelease r) s = .next t ∧ (t.rv r).releasing = (s.instList.any fun i => i.resv == some r.val) ∧
      ((t.rv r).state = 0 ↔ ∀ i ∈ s.instList, i.resv ≠ some r.val)) ∧
    (s.Open (some 48) → ∃ t, exec (.resRevoke r) s = .next t ∧
      t.rv r = { x with state := 2, pending := false, releasing := false } ∧ (∀ k, k ≠ r.val → t.rv k = s.rv k) ∧
      t.sluice.revokes = holdAdd s.sluice.revokes 1 ∧ (∀ i ∈ t.instList, i.resv = some r.val → i.cls ≠ 1)) ∧
    (x.opened = true → x.start + x.cfg.p ≤ s.time.cclk →
      exec (.windowClose r) s = .next (s.onRv r fun y => { y with opened := false, used := 0 })) ∧
    (x.opened = true → s.time.cclk < x.start + x.cfg.p → exec (.windowClose r) s = .next s) ∧
    (x.pending = true →
      let lower : Resv → Prop := fun y => x.cfg.d < y.cfg.d ∨ x.cfg.d = y.cfg.d ∧ x.aseq < y.aseq
      let clear := (∀ k y, (k, y) ∈ s.sluice.resv → y.state = 1 → k ≠ r.val → y.cfg.bays &&& x.cfg.bays ≠ 0 → lower y → y.opened = false) ∧
        ∀ d ∈ x.cfg.doms, s.isOn d = true
      (clear → exec (.pendingClear r) s = .next (s.onRv r fun y => { y with pending := false })) ∧
      (¬ clear → exec (.pendingClear r) s = .next s))

/-- Class A enablement, the divider and the row limit (R97, R98, R423, R427, R531). A write of AEN stores it and revokes, with
cause 2, each admitted reservation on a bay whose bit is clear; AEN_EFF of a bay follows AEN, in setting it once no
instruction that keeps slots 4 or 5, the softmax stage or statistics remains there, in clearing it once no Class A or
revoked instruction does; a lower divider may take effect once no Class A instruction is in flight, and does at the next edge common to both dividers
(R526, stated of a cycle of the root clock); a row limit of 0 or above
16 is ignored, and one that does not lower the limit takes effect at once. -/
def Obligations.Enablement : Prop :=
  (∀ (s : State) (v : W32), s.Open (some 48) → exec (.aenWrite v) s = .next (((List.range 32).foldl (fun t r =>
    if (t.rv r).state = 1 ∧ (∃ b, b < 32 ∧ bitOf (t.rv r).cfg.bays b = true ∧ bitOf v.toNat b = false) then t.revoke r 2 else t)
    (s.onSluice fun q => { q with aen := v.toNat })).wrote)) ∧
  (∀ (s : State) (b : Fin 32), s.isOn 48 = true →
    let want := bitOf s.sluice.aen b
    let bars := ∃ i ∈ s.instList, i.barsA b = true
    let stays := ∃ i ∈ s.instList, (i.cls = 1 ∨ i.resv.isSome = true) ∧ b.val ∈ i.bays
    (want = true → bitOf s.sluice.aenEff b = false → ¬ bars →
      exec (.aenEffChange b) s = .next (s.onSluice fun q => { q with aenEff := setBit q.aenEff b })) ∧
    (want = false → bitOf s.sluice.aenEff b = true → ¬ stays →
      exec (.aenEffChange b) s = .next (s.onSluice fun q => { q with aenEff := clrBit q.aenEff b })) ∧
    ((want = true ∧ bars) ∨ (want = false ∧ stays) ∨ want = bitOf s.sluice.aenEff b → exec (.aenEffChange b) s = .next s)) ∧
  (∀ s : State, s.pwr.divPend = true →
    ((∀ i ∈ s.instList, i.cls ≠ 1) → exec .dividerDecreaseEffect s = .next { s with pwr := { s.pwr with divGo := true } }) ∧
    ((∃ i ∈ s.instList, i.cls = 1) → exec .dividerDecreaseEffect s = .next s)) ∧
  (∀ (s : State) (b : Fin 32) (v : W32), s.Open none → s.present b = true →
    let f := fld v.toNat 0 5
    (f = 0 ∨ 16 < f → exec (.bayLimitWrite b v) s = .next s.wrote) ∧
    (0 < f → f ≤ 16 → (s.by b).limitEff ≤ f →
      exec (.bayLimitWrite b v) s = .next (s.onBy b fun x => { x with limit := f, limitEff := f, limPend := false }).wrote) ∧
    (0 < f → f ≤ 16 → f < (s.by b).limitEff →
      exec (.bayLimitWrite b v) s = .next ((((State.limitBay b f 33 s).setRt [b.val] (some b.val) f).onBy b fun x =>
        { x with limit := f, limitEff := f, limPend := false }).wrote)))

/-! ### Contexts, pages, counters -/

/-- The control of a context and of its counters (R58, R289, R345, R347, R513): ENABLE; RESET of a context that is not enabled,
which clears its registers, window and stack; RESUME of one stopped or halted, enabled or not; COMMIT of its staged fields, rejected while
it is enabled or where a field is out of range; CLEAR of a stream's counters and of the speculation counters.
The Page Walk Unit's register actions (R256, R264, R266): PARK_ABORT ends the parked requests with FAULT.PAGE_FAR; COMMIT
applies every staged field together, a pool newly enabled with fields other than those it last had taking its first
RING_INIT ring entries as free (log 107), or sets COMMIT_ERR and applies nothing. -/
def Obligations.ContextAndPageControl : Prop :=
  (∀ (s : State) (c : Fin 64), s.Open (some (51 + c.val / 16)) →
     let x := s.cx c
     let g := x.staged
     (∀ on, exec (.ctxEnable c on) s = .next (s.onCx c fun y => { y with enable := on }).wrote) ∧
     (x.enable = true → exec (.ctxReset c) s = .next s.wrote) ∧
     (s.Canon → x.enable = false → ∃ t, exec (.ctxReset c) s = .next t ∧
       (∀ n, (t.cx c).rs n = 0 ∧ (t.cx c).ev n = 0 ∧ (t.cx c).rp n = decide (n = 0)) ∧ (t.cx c).issueSeq = 0 ∧ (t.cx c).defClass = 2 ∧
       (t.cx c).err = false ∧ (t.cx c).window = [] ∧ (t.cx c).stack = [] ∧ (t.cx c).nextPos = 0 ∧ (t.cx c).newest = 0 ∧ (t.cx c).run = .going ∧
       (t.cx c).cfg = x.cfg ∧ (t.cx c).domain = x.domain ∧ (t.cx c).rseq = x.rseq ∧
       (∀ c', c' ≠ c.val → t.cx c' = s.cx c') ∧ (∀ a, t.extByte a = s.extByte a)) ∧
     (x.run ≠ .going → s.ctxFenced c = false → exec (.ctxResume c) s =
       .next (((s.onCx c fun y => { y with run := .going, err := false, hold := .none }).wakeLadder (51 + c.val / 16)).wrote)) ∧
     (let ok := x.enable = false ∧ 4 ≤ g.cmplSize ∧ g.cmplSize ≤ 16 ∧ g.cmplBase % 64 = 0 ∧ g.consAddr % 8 = 0
      (ok → exec (.ctxCommit c) s = .next (s.onCx c fun y => { y with cfg := g, commitErr := false }).wrote) ∧
      (¬ ok → exec (.ctxCommit c) s = .next (s.onCx c fun y => { y with commitErr := true }).wrote)) ∧
     (∀ k : Fin 16, exec (.streamClear c k) s = .next (s.onCx c fun y => { y with streams := Map.set {} y.streams k {} }).wrote) ∧
     (s.Open (some 49) → exec (.bolterClear c) s =
       .next (s.onCx c fun y => { y with specDiscarded := 0, groupsConfirmed := 0, draftsCommitted := 0 }).wrote)) ∧
  ((∀ s : State, s.Open (some 49) → s.pwu.parks.length ≤ 64 → exec .parkAbort s = .next (s.pwu.parks.foldl (fun (t : State) k =>
     ((t.leavePwu k.inst).onInst k.inst fun y => { y with parked := [], again := [], work := [] }).instFault k.inst
       { code := Code.fPageFar, unit := 0x02, poison := true, detail := k.page })
     { s with pwu := { s.pwu with parks := [] } }).pwuTurn.wrote) ∧
   (∀ s : State, s.Open (some 49) → s.pwuBad = true → exec .pwuCommit s = .next (State.wrote { s with pwu := { s.pwu with commitErr := true } })) ∧
   (∀ s : State, s.Open (some 49) → s.pwuBad = false → s.Canon → ∃ t, exec .pwuCommit s = .next t ∧
     t.pwu.cfg = { s.pwu.staged with enable := s.pwu.cfg.enable } ∧ t.pwu.commitErr = false ∧
     (∀ k, k < 64 → (t.pool k).cfg = (s.pool k).staged ∧ (t.pool k).fstride = (s.pool k).staged.stride ∧
       ((s.pool k).staged.enable = true → (s.pool k).cfg.enable = false → (s.pool k).staged ≠ (s.pool k).last →
         (t.pool k).avail = (s.pool k).staged.ringInit ∧ (t.pool k).head = 0 ∧ (t.pool k).tail = (s.pool k).staged.ringInit)) ∧
     { t with pwu := s.pwu } = s.wrote))

/-! ### AccM access, fences, the error log -/

/-- AccM of a bay (R128, R131, R132, R511, log 12). RECOVERY is ignored in START and TEST, and else enters RECOVERY or SERVICE. A
debug read of a visible bay latches the addressed entry's F, flags, anchor, state and owner, and gives F[31:0]; of a bay
that is neither visible nor in TEST it reads zero; no slot changes. A test instrument of a bay that TEST_EN unlocks reads or
writes the entry or byte it names, and reaches nothing of any other bay; one of a shared unit, a register or a byte of the
retention memory, is unlocked while any TEST_EN bit is 1. -/
def Obligations.AccmAccess : Prop :=
  (∀ (s : State) (b : Fin 32) (v : W32), s.Canon → s.Open (some b.val) →
    ((s.by b).mode = 1 ∨ (s.by b).mode = 3 → exec (.recoveryWrite b v) s = .next s.wrote) ∧
    ((s.by b).mode ≠ 1 → (s.by b).mode ≠ 3 → exec (.recoveryWrite b v) s = .next ((s.onBy b fun x =>
      { x with recovery := v.getLsbD 2, mode := if v.getLsbD 2 then 2 else 0 }).wrote))) ∧
  (∀ (s : State) (b : Fin 32), s.Canon → s.Open (some b.val) →
    let x := s.by b
    let k := fld x.dbgAddr 6 3
    let y := s.slot (64 * b.val + fld x.dbgAddr 0 6) k
    let e := y.entry (fld x.dbgAddr 9 10)
    ∃ t, exec (.accmDbgRead b) s = .next t ∧ t.pins.mgtRdata = (t.by b).dbgD0 ∧
      { t with bay := s.bay, pins := s.pins } = s ∧ (∀ c, c ≠ b.val → t.by c = s.by c) ∧
      (s.debugVis b = true ∨ x.mode = 3 → k ≤ 5 →
        (t.by b).dbgD0 = e.f.extractLsb' 0 32 ∧ (t.by b).dbgD1 = e.f.extractLsb' 32 32 ∧ (t.by b).dbgD2 = e.f.extractLsb' 64 32 ∧
        (t.by b).dbgD3.getLsbD 0 = e.nan ∧ (t.by b).dbgD3.getLsbD 1 = e.pinf ∧ (t.by b).dbgD3.getLsbD 2 = e.ninf ∧
        (t.by b).dbgD3.getLsbD 3 = e.inex ∧ (t.by b).dbgD3.getLsbD 15 = y.poisoned) ∧
      (s.debugVis b = false → x.mode ≠ 3 →
        (t.by b).dbgD0 = 0 ∧ (t.by b).dbgD1 = 0 ∧ (t.by b).dbgD2 = 0 ∧ (t.by b).dbgD3 = 0)) ∧
  (∀ (s : State) (b : Fin 32) (g : TapTarget), s.Canon → s.prot.testEn.getLsbD b = true → s.isOn b = true →
    (∀ a, g ≠ .shared a) → (∀ a, g ≠ .retByte a) →
    exec (.tapInstrumentAccess b g none) s = .next (s.onPins fun q => { q with tdo := s.tapRead b g }) ∧
    ∀ v, ∃ t, exec (.tapInstrumentAccess b g (some v)) s = .next t ∧
      (∀ off : BitVec 23, g = .bayByte off → off.toNat < 6291456 →
        t = s.onBy b fun x => { x with mem := Map.set 0 x.mem off.toNat (v.truncate 8) }) ∧
      (∀ c off, g = .obByte c off → off.toNat < 98304 →
        t = s.onCo (64 * b.val + c) fun x => { x with ob := Map.set 0 x.ob off.toNat (v.truncate 8) }) ∧
      (∀ n, n / 64 ≠ b.val → t.co n = s.co n) ∧ (∀ c, c ≠ b.val → t.by c = s.by c) ∧ { t with bay := s.bay, core := s.core } = s) ∧
  (∀ (s : State) (b : Fin 32) (g : TapTarget) (v : Option W32), s.prot.testEn.getLsbD b = false →
    (∀ a, g ≠ .shared a) → (∀ a, g ≠ .retByte a) → exec (.tapInstrumentAccess b g v) s = .next s) ∧
  (∀ (s : State) (b : Fin 32) (addr : BitVec 20) (off : BitVec 16) (v : W32),
    let a := addr.toNat / 4 * 4
    let on := ∀ d, regDom a = some d → s.isOn d = true
    (s.prot.testEn ≠ 0 → on → exec (.tapInstrumentAccess b (.shared addr) none) s =
        .next ((s.readReg a).1.onPins fun q => { q with tdo := (s.readReg a).2 }) ∧
      exec (.tapInstrumentAccess b (.shared addr) (some v)) s = .next (s.regPoke a v.toNat)) ∧
    (s.prot.testEn ≠ 0 → 0x4000 ≤ off.toNat → exec (.tapInstrumentAccess b (.retByte off) (some v)) s =
        .next (s.onMiller fun m => { m with store := Map.set 0 m.store (off.toNat - 0x4000) (v.truncate 8) }) ∧
      exec (.tapInstrumentAccess b (.retByte off) none) s = .next (s.onPins fun q =>
        { q with tdo := (Map.get 0 s.miller.store (off.toNat - 0x4000)).zeroExtend 32 })) ∧
    (s.prot.testEn = 0 → ∀ w, exec (.tapInstrumentAccess b (.shared addr) w) s = .next s ∧
      exec (.tapInstrumentAccess b (.retByte off) w) s = .next s))

/-- Fences by firmware (R513, R515). FENCE_SET of a unit that is not fenced lands its fence, of one that is, or that no scope
has, changes nothing. FENCE_CLR in the cycle in which that fence landed changes nothing (R515); else, of a core that no instruction in flight names clears its fence, its slots and its tags; of
a sequence its entries; of a domain its fence; of any other scope nothing.
Detected errors and the consumed count of the log (R513, R518, R521, R524). An uncorrectable error in a core's store is
reported as FAULT.CORE_ERROR with the store and the slot, one in a bay's dispatch as FAULT.BAY_ERROR; in the middle of a
pass it stops the pass after the rows given, poisons the slots it writes and faults its instruction. A write of ELOG_CONS
more than 4,096 behind ELOG_HEAD, or ahead of it, is ignored. -/
def Obligations.FencesAndErrors : Prop :=
  (∀ (s : State) (v : W32), s.Open none →
     let scope := fld v.toNat 0 4
     let index := fld v.toNat 8 16
     let gen := fld v.toNat 24 8
     let now := (scope, index, if scope = 6 then gen else 0) ∈ s.prot.landed ∧ s.prot.landedAt = s.time.nclk + 1
     (fenceUnits scope ≤ index ∨ s.isFenced scope index gen = true → exec (.fenceSet v) s = .next s.wrote) ∧
     (index < fenceUnits scope → s.isFenced scope index gen = false → (scope = 1 ∨ scope = 2 ∨ scope = 5 ∨ scope = 7) →
       exec (.fenceSet v) s = .next (s.fence scope index gen 0 0).wrote) ∧
     (scope = 3 → index < 32 → s.portFenced index = false → exec (.fenceSet v) s = .next ((s.fence 3 index gen 0 0).drainPort index).wrote) ∧
     (scope = 4 → index < 64 → s.isFenced 4 index gen = false →
       exec (.fenceSet v) s = .next (((((s.logErr { code := Code.fLinkDown, scope := 4, unit := 0x05, index := index, first := true, detail := 2 }).fence
         4 index gen 0 0).resendFrom index).moveAcks index).sweepLinks).wrote) ∧
     (scope = 6 → s.isFenced 6 index gen = false → exec (.fenceSet v) s = .next (s.fence 6 index gen 0 ((s.seqRec index).dom % 16)).wrote) ∧
     (now → exec (.fenceClr v) s = .next s.wrote) ∧
     (¬ now → scope = 1 → index < 2048 → Map.get false s.prot.coreF index = true →
       ((∀ i ∈ s.instList, i.spans index = false) → exec (.fenceClr v) s = .next ((State.onCo
         { s with prot := { s.prot with coreF := Map.set false s.prot.coreF index false } } index fun x => { x with slots := [], obTag := [] }).wrote)) ∧
       ((∃ i ∈ s.instList, i.spans index = true) → exec (.fenceClr v) s = .next s.wrote)) ∧
     (¬ now → scope = 6 → exec (.fenceClr v) s =
       .next (State.wrote { s with prot := { s.prot with seqF := s.prot.seqF.filter fun q => q.2 != some (index, gen) } })) ∧
     (¬ now → scope = 7 → index < 16 → exec (.fenceClr v) s =
       .next (State.wrote { s with prot := { s.prot with domF := Map.set false s.prot.domF index false } })) ∧
     (scope ≠ 1 → scope ≠ 6 → scope ≠ 7 → exec (.fenceClr v) s = .next s.wrote)) ∧
  ((∀ (s : State) (g : Fin 2048) (store : Fin 5) (slot : Fin 6), s.isOn (g.val / 64) = true →
     let e : Err := { code := Code.fCoreError, scope := 1, unit := 0x10 + g.val / 64, index := g, detail := store.val + 8 * slot.val }
     exec (.coreErrorDetect g store slot none) s = .next (s.report e 0) ∧
     (∀ k t i w, (s.startPass g false (some k) = (t, some (i, w)) ∨
         (s.startPass g false (some k)).2 = none ∧ s.startPass g true (some k) = (t, some (i, w))) → exec (.coreErrorDetect g store slot (some k)) s =
       .next ((((i.touches w).filter fun q => q.1 == g.val).foldl (fun u q => u.poisonTgt (.slot q.1 q.2)) t).instFault i.n { e with poison := true })) ∧
     (∀ k, (s.startPass g false (some k)).2 = none → (s.startPass g true (some k)).2 = none → exec (.coreErrorDetect g store slot (some k)) s = .next s)) ∧
   (∀ (s : State) (b : Fin 32), s.isOn b = true →
     exec (.bayErrorDetect b) s = .next (s.report { code := Code.fBayError, scope := 2, unit := 0x10 + b.val, index := b } 0)) ∧
   (∀ (s : State) (v : W32), s.Open none →
     ((s.log.head + 2 ^ 32 - v.toNat) % 2 ^ 32 ≤ 4096 → exec (.elogConsWrite v) s = .next (s.onLog fun l => { l with cons := v.toNat }).wrote) ∧
     (4096 < (s.log.head + 2 ^ 32 - v.toNat) % 2 ^ 32 → exec (.elogConsWrite v) s = .next s.wrote)))

/-! ### The scarf commit -/

/-- The parties' steps (R502 to R504, R506). The first write or GO opens an attempt; a word is kept in the party's own area; the
first GO captures the SHA-256 of the area, the second starts the checks; a write or GO after the party's own GO, and
ABANDON, discard the attempt as abandoned, and the window's end before both GOs as expired: the areas clear, CSEQ rises, an
error record of FAULT.SCARF holds the result. -/
def Obligations.ScarfSteps : Prop :=
  ∀ (s : State) (op : Bool), s.Open none →
    let s1 := if s.prot.scarf.phase = 0 then s.onScarf fun x => { x with phase := 1, start := s.time.nclk, pGo := false, oGo := false } else s
    let went := if op then s1.prot.scarf.oGo else s1.prot.scarf.pGo
    let other := if op then s1.prot.scarf.pGo else s1.prot.scarf.oGo
    let ends : State → Nat → State := fun t r => (t.onScarf fun x => { x with
      cseq := x.cseq + 1, phase := 0, pGo := false, oGo := false, result := r, areaP := [], areaO := [], imaging := false, imgBad := false,
      start := t.time.nclk }).logErr { code := Code.fScarf, unit := 0x08, detail := r }
    (s.prot.scarf.imaging = false →
      (∀ (off : BitVec 12) v, stageable off.toNat = true →
        (went = false → off.toNat ≠ 0x800 → exec (.scarfStageWrite op off v) s = .next (s1.onScarf fun x =>
          if op then { x with areaO := Map.set 0 x.areaO off.toNat v } else { x with areaP := Map.set 0 x.areaP off.toNat v }).wrote) ∧
        (went = false → off.toNat = 0x800 → exec (.scarfStageWrite op off v) s = .next (s1.onScarf fun x =>
          if op then { x with areaO := Map.set 0 x.areaO 0x800 (v &&& 0x1FF#32) } else { x with areaP := Map.set 0 x.areaP 0x800 (v &&& 0x1FF#32) }).wrote) ∧
        (went = true → exec (.scarfStageWrite op off v) s = .next (ends s1 0xA).wrote)) ∧
      (∀ (off : BitVec 12) v, stageable off.toNat = false → exec (.scarfStageWrite op off v) s = .next s.wrote) ∧
      (went = false → exec (.scarfGo op) s = .next (s1.onScarf fun x =>
        let d := leNat (Crypto.sha256 (areaMessage (if op then x.areaO else x.areaP)))
        { x with oGo := x.oGo || op, pGo := x.pGo || !op, digO := if op then d else x.digO, digP := if op then x.digP else d,
                 phase := if other then 2 else x.phase }).wrote) ∧
      (went = true → exec (.scarfGo op) s = .next (ends s1 0xA).wrote) ∧
      exec (.scarfAbandon op) s = .next (ends s1 0xA).wrote ∧
      (s.prot.scarf.phase = 1 → s.prot.scarf.start + s.prot.scarf.win ≤ s.time.nclk → exec .scarfWindowExpiry s = .next (ends s 1)) ∧
      (s.prot.scarf.phase ≠ 1 ∨ s.time.nclk < s.prot.scarf.start + s.prot.scarf.win → exec .scarfWindowExpiry s = .next s))

/-- The checks and the landing (R505, R506, R508, R510). The first check that fails, in the order MISMATCH, CSEQ, KEY, TAG of the
platform, TAG of the operator, ENTRY, PRECONDITION, discards the change with its result; a change that passes lands every
entry in one cycle, or, where it names IMG_ACT, holds the Miller in reset and reads its image. An image that arrives
poisoned, or whose digest or header is wrong, discards the change; a good one lands it, fills the local store, zero above
it, and starts the Miller at RESET_ENTRY with its registers zero. -/
def Obligations.ScarfChecks : Prop :=
  (∀ s : State, s.prot.scarf.phase = 2 → s.prot.scarf.imaging = false →
    let x := s.prot.scarf
    let tag : BitVec 256 → Byte → Nat → List Byte := fun key party d => (Crypto.hmac (natLe 32 key.toNat) (party :: natLe 32 d)).take 16
    let fails : Nat → Prop := fun k => match k with
      | 2 => x.digP ≠ x.digO
      | 3 => (Map.get 0 x.areaP 0x804).toNat ≠ x.cseq.toNat
      | 4 => s.fuse.keyP = 0 ∨ s.fuse.keyO = 0
      | 5 => tag s.fuse.keyP 0x50 x.digP ≠ areaTag x.areaP
      | 6 => tag s.fuse.keyO 0x4F x.digO ≠ areaTag x.areaO
      | 7 => s.entriesOk = false
      | _ => s.precondOk = false
    (∀ k ∈ [2, 3, 4, 5, 6, 7, 8], fails k → (∀ j ∈ [2, 3, 4, 5, 6, 7, 8].takeWhile (· != k), ¬ fails j) →
      exec .scarfCheckDone s = .next (s.scarfDiscard k)) ∧
    ((∀ k ∈ [2, 3, 4, 5, 6, 7, 8], ¬ fails k) →
      exec .scarfCheckDone s = .next (if s.namesImage then s.startImage else s.scarfLand))) ∧
  (∀ (s : State) (poisoned : Bool), s.prot.scarf.imaging = true → s.imageReads = false →
    let m := s.imageOf
    let bs := s.extBytes m.1 m.2.1
    let good := poisoned = false ∧ s.prot.scarf.imgBad = false ∧ Crypto.sha256 bs = m.2.2 ∧ imageHeaderOk bs m.2.1 = true
    (¬ good → exec (.scarfImageCheck poisoned) s = .next (s.scarfDiscard 9)) ∧
    (good → s.precondOk = false → exec (.scarfImageCheck poisoned) s = .next (s.scarfDiscard 8)) ∧
    (good → s.precondOk = true → ∃ t, exec (.scarfImageCheck poisoned) s = .next t ∧
      (∀ k, k < bs.length → Map.get 0 t.miller.store k = bs[k]?.getD 0) ∧ (∀ k, bs.length ≤ k → Map.get 0 t.miller.store k = 0) ∧
      t.miller.pc = leAt bs 8 4 ∧ t.miller.resetEntry = leAt bs 8 4 ∧ t.miller.faultEntry = leAt bs 12 4 ∧
      t.miller.started = true ∧ t.miller.inReset = false ∧ t.miller.s = [] ∧ t.miller.p = []))

/-! ### Clocks, power, start-up -/

/-- The order of voltage and divider (R426, R529, R530). VCODE is taken where it is no less than the VMIN of the smaller of
CDIV_EFF and any pending CDIV, and else only VOLT_ERR is set; it is driven at once where VGOOD is 1. A larger divider within
MAXDIV_EFF takes effect at the next edge common to both (R526); a smaller one, where VGOOD is 1 and VCODE_EFF reaches its VMIN, waits with
DIV_PEND set; else only DIV_ERR is set. -/
def Obligations.VoltageAndDivider : Prop :=
  ∀ (s : State) (v : W32), s.Open none →
    let vmin : Nat → Nat := fun code => match code with
      | 0 => s.fuse.vmin8
      | 1 => s.fuse.vmin10
      | 2 => s.fuse.vmin12
      | _ => s.fuse.vmin16
    (let c := v.toNat % 256
     let smaller := min s.pwr.cdiv s.pwr.cdivEff
     let p := { s.pwr with voltErr := s.pwr.voltErr && !v.getLsbD 17 }
     (c < vmin smaller → exec (.vcodeWrite v) s = .next (State.wrote { s with pwr := { p with voltErr := true } })) ∧
     (vmin smaller ≤ c → (s.pwr.vgood = false ∨ c = s.pwr.vreq) → exec (.vcodeWrite v) s = .next (State.wrote { s with pwr := { p with vcode := c } })) ∧
     (vmin smaller ≤ c → s.pwr.vgood = true → c ≠ s.pwr.vreq → exec (.vcodeWrite v) s = .next (State.wrote
       { s with pwr := { p with vcode := c, vreq := c, vgood := false, vgoodFrom := s.time.nclk + 4 } }))) ∧
    (let k := v.toNat % 4
     let e := s.pwr.cdivEff
     let p := { s.pwr with divErr := s.pwr.divErr && !v.getLsbD 5, rootStopEn := v.getLsbD 6 }
     let within := ∀ r x, (r, x) ∈ s.sluice.resv → x.state = 1 → k ≤ x.cfg.maxdiv
     (k = e → exec (.cdivWrite v) s = .next (State.wrote { s with pwr := { p with cdiv := k, divPend := false, divGo := false } })) ∧
     (e < k → within → exec (.cdivWrite v) s = .next (State.wrote { s with pwr := { p with cdiv := k, divPend := false, divGo := true } })) ∧
     (e < k → ¬ within → exec (.cdivWrite v) s = .next (State.wrote { s with pwr := { p with divErr := true } })) ∧
     (k < e → s.pwr.vgood = true → vmin k ≤ s.pwr.vcodeEff →
       exec (.cdivWrite v) s = .next (State.wrote { s with pwr := { p with cdiv := k, divPend := true, divGo := false } })) ∧
     (k < e → s.pwr.vgood = false ∨ s.pwr.vcodeEff < vmin k → exec (.cdivWrite v) s = .next (State.wrote { s with pwr := { p with divErr := true } })))

/-- Power commands and timers (R537, R538, R539, R554). A command that names no domain, an absent one, a held one, or for a
cluster of an admitted reservation any state but on, only sets CMD_ERR. RETENTION or OFF begins an entry where the domain
is idle and its supplies rest, waits where it is not, and does nothing where the domain is there or in OFF; ON wakes the
domain, but not a Miller that is OFF. A timer that reaches its limit begins the entry of the next state down. -/
def Obligations.PowerCommands : Prop :=
  (∀ (s : State) (d : Fin 64), s.Open none →
    let x := s.dom d
    let errs : State := s.onPwr fun p => { p with cmdErr := true }
    let begins : Nat → State := fun k =>
      let t := s.onDom d fun y =>
        { y with entering := true, step := 0, target := k, cmd := 0, abort := false, wake := false, idle := 0, since := s.time.nclk }
      if d.val = 48 then (List.range 4).foldl (fun t c => t.onChan c fun y => { y with credits := 0 }) t else t
    let bad := 56 ≤ d.val ∨ x.state = 5 ∨ s.held d = true
    let there : Nat → Prop := fun k => (x.state = 4 ∨ x.state = k) ∧ x.entering = false ∧ x.exiting = false
    let ready := x.entering = false ∧ x.exiting = false ∧ x.req = x.good ∧ (x.state = 3 ∨ (s.domIdle d = true ∧ s.quiet d = true))
    (∀ k row, (k, row) ∈ [(3, Instr.pwrCmdRetention d), (4, Instr.pwrCmdOff d)] →
      (bad ∨ s.heldCluster d = true → exec row s = .next errs.wrote) ∧
      (¬ bad → s.heldCluster d = false →
        (there k → exec row s = .next s.wrote) ∧ (¬ there k → ready → exec row s = .next (begins k).wrote) ∧
        (¬ there k → ¬ ready → exec row s = .next (s.onDom d fun y => { y with cmd := k }).wrote))) ∧
    (bad → exec (.pwrCmdOn d) s = .next errs.wrote) ∧
    (¬ bad → d.val ≠ 55 → exec (.pwrCmdOn d) s = .next ((s.onDom d fun y => { y with cmd := 0 }).wakeDom d).wrote) ∧
    (¬ bad → d.val = 55 → (x.state = 4 ∨ x.entering = true ∧ x.target = 4) → exec (.pwrCmdOn d) s = .next s.wrote)) ∧
  (∀ (s : State) (d : Fin 56),
    let x := s.dom d
    let t := x.limit d
    let due := t ≠ 0 ∧ t ≤ x.idle ∧ s.timing d = true ∧ x.req = x.good
    (¬ due → exec (.idleTimerExpiry d) s = .next s) ∧
    (due → 51 ≤ d.val → x.state < 2 → exec (.idleTimerExpiry d) s = .next (s.onDom d fun y => { y with state := y.state + 1, idle := 0 })) ∧
    (due → 51 ≤ d.val → 2 ≤ x.state → exec (.idleTimerExpiry d) s = .next (s.beginEntry d 3)) ∧
    (due → d.val < 51 → exec (.idleTimerExpiry d) s = .next (s.beginEntry d (if x.state = 0 then 3 else 4))))

/-- The steps of an entry, of its abort and of an exit (R534, R540 to R542), where m is the number of save cycles. An NCLK cycle
of an entry is its next step, until the last requests the supplies of the state entered and applies what the state loses; a
wake at or before abort point 4 turns it round at the next abort point, and each cycle undoes a step, until the work held at
the domain's requester goes on; an exit waits for
the confirmation of full supply and then counts 4, the memory's and 2 cycles, and the domain is on, but where four bays have
left OFF or RETENTION in the same NCLK cycle a fifth waits (R532). -/
def Obligations.EntryAndExit : Prop :=
  ∀ (s : State) (d : Fin 56),
    let x := s.dom d
    let m := saveCycles d x.target
    let k := x.step + 1
    let sets : (Dom → Dom) → Out := fun f => .next (s.onDom d f)
    (x.entering = true → s.time.nclk ≤ x.since → exec (.entryStepDone d) s = .next s) ∧
    (x.entering = true → x.since < s.time.nclk → x.target ≠ 0 → (x.abort = false ∨ k ∉ [2, 2 + m, 3 + m, 4 + m]) →
      (k ≠ 5 + m → exec (.entryStepDone d) s =
        sets fun y => { y with step := k, saved := y.saved || (x.target == 3 && k == 2 + m), since := s.time.nclk }) ∧
      (k = 5 + m → x.target = 3 → exec (.entryStepDone d) s = .next (State.toRetention (s.onDom d fun y =>
        { y with entering := false, step := 0, target := 0, state := 3, req := 1, cmd := (if x.cmd = 3 then 0 else x.cmd), saved := true,
                 idle := 0, since := s.time.nclk }) d)) ∧
      (k = 5 + m → x.target = 4 → exec (.entryStepDone d) s = .next (State.toOff (s.onDom d fun y =>
        { y with entering := false, step := 0, target := 0, state := 4, req := 0, cmd := 0, saved := false, idle := 0, since := s.time.nclk }) d))) ∧
    (x.entering = true → x.since < s.time.nclk → x.target ≠ 0 → x.abort = true → k ∈ [2, 2 + m, 3 + m, 4 + m] → exec (.entryStepDone d) s =
      sets fun y => { y with target := 0, abort := false, saved := false, since := s.time.nclk, step := if k = 4 + m then 3 else if k = 3 + m then 2 else 1 }) ∧
    (x.entering = true → x.since < s.time.nclk → x.target = 0 → 1 < x.step → exec (.entryStepDone d) s =
      sets fun y => { y with step := y.step - 1, since := s.time.nclk }) ∧
    (x.entering = true → x.since < s.time.nclk → x.target = 0 → x.step ≤ 1 →
      let t := s.onDom d fun y => { y with entering := false, step := 0, since := s.time.nclk }
      exec (.entryStepDone d) s = .next (if x.state ≤ 1 then t.resume d else t.wakeDom d)) ∧
    (let go := x.exiting = true ∧ x.entering = false ∧ x.step ≠ 0 ∧ (s.boot.step ≠ 5 ∨ 32 ≤ d.val) ∧ s.boot.step ≠ 3
     let count := if x.step = 1 then 4 else if x.step = 2 then (if x.state = 3 then 2 + saveCycles d 3 else if d.val < 32 then 96 else 2) else 2
     (go → s.time.nclk < x.since + count → exec (.exitStepReady d) s = .next s) ∧
     (go → x.since + count ≤ s.time.nclk → x.state ≠ 2 → x.step < 3 →
       exec (.exitStepReady d) s = sets fun y => { y with step := y.step + 1, since := s.time.nclk }) ∧
     (let fifth := d.val < 32 ∧ s.pwr.upAt = s.time.nclk + 1 ∧ 4 ≤ s.pwr.ups
      (go → x.since + count ≤ s.time.nclk → (x.state = 2 ∨ 3 ≤ x.step) → fifth → exec (.exitStepReady d) s = .next s) ∧
      (go → x.since + count ≤ s.time.nclk → (x.state = 2 ∨ 3 ≤ x.step) → ¬ fifth → exec (.exitStepReady d) s = .next (s.comeUp d).bootStep3) ∧
      (s.Canon → go → x.since + count ≤ s.time.nclk → (x.state = 2 ∨ 3 ≤ x.step) → ¬ fifth → d.val ∉ [49, 50] →
        ∃ t, exec (.exitStepReady d) s = .next t ∧ t.isOn d = true ∧ (t.dom d).state = 0 ∧ (∀ k, k ≠ d.val → t.dom k = s.dom k)))) ∧
    (x.good ≠ x.req → x.req < 4 →
      (x.exiting = true → x.step = 0 → x.req = 3 → s.Canon → ∃ t, exec (.pwrGoodChange d (BitVec.ofNat 2 x.req)) s = .next t ∧
        t.dom d = { x with good := x.req, step := 1, since := s.time.nclk } ∧ (∀ k, k ≠ d.val → t.dom k = s.dom k)) ∧
      (x.exiting = false → x.wake = false → exec (.pwrGoodChange d (BitVec.ofNat 2 x.req)) s = sets fun y => { y with good := y.req })) ∧
    (∀ code : BitVec 2, code.toNat ≠ x.req → exec (.pwrGoodChange d code) s = .next s)

/-- Throttle, voltage confirmation and the root clock (R519, R527, R529, R546). EMTHROT raises THROT.EMERGENCY at assertion and
at release. VGOOD, but within 4 cycles of a change of VREQ, under reset or off NCLK, is followed: it confirms the code
requested, and lets a change of VREQ that waited for it go out. A loss of lock while the clock is requested isolates every present domain with
its supplies off, ends what is in flight, clears READY and sets ROOT_LOSS; once ROOT_LOCK has held for 2 REF_CLK cycles
the island moves back, 16 cycles later. ROOT_CLK stops only under ROOT_STOP_EN with
every domain down, no access waiting, and a restart requests it again; NIA_WAKE also wakes a Miller that is down, and, where the clock is
stopped, restarts it and waits. -/
def Obligations.ClocksAndThrottle : Prop :=
  ∀ s : State,
    (s.pwr.emthrot = false → s.mgtUp = true →
      exec .emthrotAssert s = .next (State.raise { s with pwr := { s.pwr with emthrot := true } } 0x0310 0x09 [1])) ∧
    (s.pwr.emthrot = true → s.mgtUp = true →
      exec .emthrotRelease s = .next (State.raise { s with pwr := { s.pwr with emthrot := false } } 0x0310 0x09 [0])) ∧
    (let sees := s.pwr.vgoodFrom ≤ s.time.nclk ∧ s.boot.rstN = true ∧ s.boot.onRef = false
     (∀ g, (¬ sees ∨ s.pwr.vgood = g) → exec (.vgoodChange g) s = .next { s with pwr := { s.pwr with vgoodPin := g } }) ∧
     (sees → s.pwr.vgood = true → exec (.vgoodChange false) s = .next { s with pwr := { s.pwr with vgoodPin := false, vgood := false } }) ∧
     (sees → s.pwr.vgood = false → s.boot.step ≠ 2 → s.pwr.vcode = s.pwr.vreq → exec (.vgoodChange true) s =
       .next { s with pwr := { s.pwr with vgoodPin := true, vgood := true, vcodeEff := s.pwr.vreq } }) ∧
     (sees → s.pwr.vgood = false → s.boot.step ≠ 2 → s.pwr.vcode ≠ s.pwr.vreq → exec (.vgoodChange true) s =
       .next { s with pwr := { s.pwr with vgoodPin := true, vcodeEff := s.pwr.vreq, vreq := s.pwr.vcode, vgoodFrom := s.time.nclk + 4 } })) ∧
    (s.Canon → s.boot.rootLock = true → s.boot.rstN = true → s.boot.rootReq = true →
      ∃ t, exec .rootLockLoss s = .next t ∧ t.boot.rootLoss = true ∧ t.boot.onRef = true ∧ t.boot.ready = false ∧ t.mgtUp = false ∧ t.insts = [] ∧
        ∀ d, d < 56 → (s.dom d).state ≠ 5 → (t.dom d).state = 4 ∧ (t.dom d).req = 0) ∧
    (s.boot.rootLock = true → s.boot.rootReq = false → exec .rootLockLoss s = .next { s with boot := { s.boot with rootLock := false } }) ∧
    (s.boot.rootLock = false → exec .rootLockRise s =
      .next { s with boot := { s.boot with rootLock := true, lockSince := s.time.ref, usableAt := s.time.ref + 18 } }) ∧
    (s.pending = [] → s.boot.onRef = true → s.boot.rstN = true → s.boot.rootReq = true → s.boot.rootLock = true → 3 ≤ s.boot.step →
      let ref := s.time.ref + if (s.time.root + 1) % 64 = 0 then 1 else 0
      ∃ t, step s = .next t ∧ t.time.ref = ref ∧ t.boot = if s.boot.usableAt ≤ ref then { s.boot with onRef := false } else s.boot) ∧
    (let down := ∀ d, d < 56 → 3 ≤ (s.dom d).state ∧ (s.dom d).entering = false ∧ (s.dom d).exiting = false
     (s.pwr.rootStopEn = true → s.boot.onRef = false → s.boot.rstN = true → s.boot.access = [] → down →
       exec .rootStop s = .next { s with boot := { s.boot with onRef := true, rootReq := false } }) ∧
     (s.pwr.rootStopEn = false ∨ s.boot.access ≠ [] ∨ ¬ down → exec .rootStop s = .next s)) ∧
    (s.boot.rstN = true → s.boot.onRef = true → 2 ≤ s.boot.step →
      let again := max (s.boot.lockSince + 2) s.time.ref + 16
      (s.boot.rootReq = false → exec .rootRestart s = .next { s with boot := { s.boot with rootReq := true, usableAt := again } }) ∧
      (s.boot.rootReq = true → exec .rootRestart s = .next s) ∧
      exec .niaWake s = .next { s with boot := { s.boot with
        access := s.boot.access ++ [.niaWake], rootReq := true, usableAt := if s.boot.rootReq then s.boot.usableAt else again } }) ∧
    (s.boot.rstN = true → 4 ≤ s.boot.step → s.boot.onRef = false → 2 ≤ (s.dom 55).state → (s.dom 55).exiting = false →
      exec .niaWake s = .next (State.wakeDom { s with boot := { s.boot with wakeCause := 2 } } 55))

/-- Cold reset and cold start (R23, R522, R527, R548 to R552). NIA_RST_N loses everything but the fuses, ROOT_LOSS and what lies
outside the block; its release begins step 1; fuse sensing, which takes 512 REF_CLK cycles before the 8,192 of the retention
memory, leaves absent bays absent, takes VMIN16 as the voltage code and
raises ROOT_REQ; a round of the self-test, 1,356 NCLK cycles from PWR_GOOD, leaves its bays on with nothing in them, fences the bays and cores that failed and marks them, and the last begins step 6;
READY follows with every present bay in service or in test and HOP_RDY on every channel. -/
def Obligations.ColdStart : Prop :=
  (∀ s : State, ∃ t, exec .niaRstNAssert s = .next t ∧ t.fuse = s.fuse ∧ t.mem.ext = s.mem.ext ∧ t.boot.rootLoss = s.boot.rootLoss ∧
    t.pending = s.pending ∧ t.boot.rstN = false ∧ t.boot.ready = false ∧ t.boot.step = 0 ∧
    t.ctx = State.reset.ctx ∧ t.core = State.reset.core ∧ t.bay = State.reset.bay ∧ t.insts = State.reset.insts ∧
    t.sluice = State.reset.sluice ∧ t.pwu = State.reset.pwu ∧ t.weir = State.reset.weir ∧ t.hop = State.reset.hop ∧
    t.prot = State.reset.prot ∧ t.log = State.reset.log ∧ t.miller = State.reset.miller ∧ t.mem.gran = [] ∧ t.mem.ports = []) ∧
  (∀ s : State, s.boot.rstN = false →
    exec .niaRstNRelease s = .next { s with boot := { s.boot with rstN := true, step := 1, onRef := true, relAt := s.time.ref } }) ∧
  (∀ (s : State) (p : W32) (kp ko : BitVec 256) (v8 v10 v12 v16 : BitVec 8), s.Canon → s.boot.rstN = true → s.boot.step = 1 →
    (s.time.ref < s.boot.relAt + 8704 → exec (.fuseSenseDone p kp ko v8 v10 v12 v16) s = .next s) ∧
    (s.boot.relAt + 8704 ≤ s.time.ref → ∃ t, exec (.fuseSenseDone p kp ko v8 v10 v12 v16) s = .next t ∧
      t.fuse = { present := p.toNat, keyP := kp, keyO := ko, vmin8 := v8.toNat, vmin10 := v10.toNat, vmin12 := v12.toNat, vmin16 := v16.toNat } ∧
      (∀ b, b < 32 → p.getLsbD b = false → (t.dom b).state = 5) ∧ (∀ b, b < 32 → p.getLsbD b = true → t.dom b = s.dom b) ∧
      t.pwr.vcode = v16.toNat ∧ t.pwr.vcodeEff = v16.toNat ∧ 
      t.boot = { s.boot with step := 2, rootReq := true, usableAt := max (s.boot.lockSince + 2) s.time.ref + 16 })) ∧
  (∀ (s : State) (cores : List (Fin 2048 × Fin 5)) (bays : W32), s.boot.step = 5 →
    (∀ b ∈ s.round, s.boot.roundAt + 1356 ≤ s.time.nclk ∧
      ((s.dom b).exiting = true ∧ 0 < (s.dom b).step ∧ (s.dom b).since + 1356 ≤ s.time.nclk ∨ s.isOn b = true)) →
    let r := s.round
    let mine := cores.filter fun q => r.contains (q.1.val / 64)
    let s1 := r.foldl (fun t b => (t.toOff b).comeUp b) s
    let s2 := mine.foldl (fun t q => t.report
      { code := Code.fCoreError, scope := 1, unit := 0x10 + q.1.val / 64, index := q.1.val, detail := q.2.val } 0) s1
    let s3 := (r.filter fun b => bitOf bays.toNat b).foldl (fun t b => t.report { code := Code.fBayError, scope := 2, unit := 0x10 + b, index := b } 0) s2
    let failed := r.filter fun b => bitOf bays.toNat b || mine.any fun q => q.1.val / 64 == b
    let s4 : State := { s3 with boot := { s3.boot with stBays := r.foldl setBit s3.boot.stBays, stBayFail := failed.foldl setBit s3.boot.stBayFail } }
    exec (.selfTestDone cores bays) s = .next (if s4.round = [] then
        ([48, 49, 50, 51, 52, 53, 54] : List Nat).foldl State.wakeDom { s4 with boot := { s4.boot with step := 6, stDone := true } }
      else
        let s5 := s4.round.foldl State.wakeDom s4
        { s5 with boot := { s5.boot with roundAt := s4.time.nclk } })) ∧
  (∀ s : State, s.Canon → s.boot.step = 6 → (∀ d, 48 ≤ d → d ≤ 54 → s.isOn d = true) →
    ∃ t, exec .readyReached s = .next t ∧ t.boot = { s.boot with step := 7, ready := true } ∧
      (∀ b ∈ s.presentBays, (t.by b).mode = if s.prot.testEn.getLsbD b then 3 else 0) ∧
      (∀ c, c < 4 → (t.chan c).rdy = true ∧ (t.chan c).credits = 16) ∧ (∀ d, d < 56 → (t.dom d).idle = 0))

/-! ### The management port -/

/-- A management-port write (R30, R31, R432, R457, R546). Before the port answers it does nothing; one that finds the root clock
stopped restarts it and waits; to a domain in RETENTION, DEEP SLEEP
or OFF it only sets MGT_PWR, and wakes nothing; to an absent bay it only clears it; else MGT_PWR is 0 and the register at
the offset without its two low bits takes the value: shown of a register of each unit that software writes. A register
that is read-only, or an offset with none, takes nothing. -/
def Obligations.ManagementWrites : Prop :=
  ∀ (s : State) (addr : BitVec 24) (v : W32),
    let a := addr.toNat / 4 * 4
    let n := v.toNat
    (s.boot.rstN = false ∨ s.boot.step < 2 → exec (.mgtWrite addr v) s = .next s) ∧
    (s.boot.rstN = true → 2 ≤ s.boot.step → s.boot.onRef = true →
      exec (.mgtWrite addr v) s = .next { s with boot := { s.boot with
        access := s.boot.access ++ [.mgtWrite addr v], rootReq := true,
        usableAt := if s.boot.rootReq then s.boot.usableAt else max (s.boot.lockSince + 2) s.time.ref + 16 } }) ∧
    (∀ d, s.mgtUp = true → regDom a = some d → ((s.dom d).state = 3 ∨ (s.dom d).state = 4) →
      exec (.mgtWrite addr v) s = .next (s.onPins fun q => { q with mgtPwr := true })) ∧
    (∀ d, s.mgtUp = true → regDom a = some d → (s.dom d).state = 5 → exec (.mgtWrite addr v) s = .next s.wrote) ∧
    (s.Open (regDom a) →
      (a = 0x060000 → exec (.mgtWrite addr v) s = .next (State.wrote { s with mem := { s.mem with tmo := n % 2 ^ 24 } })) ∧
      (a = 0x060004 → exec (.mgtWrite addr v) s = .next (State.wrote { s with mem := { s.mem with poisonKept := v.getLsbD 0 } })) ∧
      (a = 0x010010 → exec (.mgtWrite addr v) s = .next (State.wrote
        { s with sluice := { s.sluice with holdA := n % 2 ^ 16, holdBC := n / 2 ^ 16 } })) ∧
      (a = 0x010014 → exec (.mgtWrite addr v) s = .next (State.wrote { s with sluice := { s.sluice with cGap := n % 2 ^ 8 } })) ∧
      (a = 0x030000 → exec (.mgtWrite addr v) s = .next (State.wrote { s with pwu := { s.pwu with boltEnable := v.getLsbD 0 } })) ∧
      (a = 0x040000 → exec (.mgtWrite addr v) s = .next (State.wrote
        { s with weir := { s.weir with enable := v.getLsbD 0, nanPolicy := v.getLsbD 1 } })) ∧
      (∀ k, k < 16 → a = 0x070400 + 4 * k → exec (.mgtWrite addr v) s = .next (State.wrote { s with hop := { s.hop with inj := Map.set 0 s.hop.inj k v } })) ∧
      (∀ c, c < 64 → a = 0x010200 + 4 * c → exec (.mgtWrite addr v) s = .next (s.onCx c fun x => { x with weight := n % 2 ^ 8 }).wrote) ∧
      (∀ c, c < 64 → a = 0x010300 + 4 * c → exec (.mgtWrite addr v) s = .next (s.onCx c fun x => { x with baymask := n }).wrote) ∧
      (∀ c, c < 64 → a = 0x030100 + 4 * c → exec (.mgtWrite addr v) s =
        .next (s.onCx c fun x => { x with sink := n % 2 ^ 5, win := n / 2 ^ 8 % 2 ^ 7 }).wrote) ∧
      (∀ d, d < 56 → a = 0x090104 + 16 * d → exec (.mgtWrite addr v) s = .next (s.onDom d fun x => { x with t1 := n }).wrote) ∧
      (∀ b, b < 32 → a = 0x100410 + 0x10000 * b → exec (.mgtWrite addr v) s = .next (s.onBy b fun x => { x with dbgAddr := n % 2 ^ 19 }).wrote) ∧
      (a < 0x010000 → exec (.mgtWrite addr v) s = .next s.wrote) ∧
      (0x084000 ≤ a → a < 0x088000 → exec (.mgtWrite addr v) s = .next s.wrote))

/-! ### What each command of a unit does, where it has its effect -/

/-- Where each of these commands has its own effect, from its conditions on the state and the operands alone: a pass of an
array, a reservation's release, revocation, window and pending flag, AEN and AEN_EFF, a batch, the divider, the Granary's
invalidation, the consumed-count read, a packet sent, a link group's commit, a SYNC beat, a context's and the Page Walk
Unit's controls, the log's consumed count, the scarf window, CDIV and a management-port write: exec answers a next state,
which holds the effect. -/
def Obligations.UnitCommandsComplete : Prop := ∀ s : State, s.Canon →
  -- the arrays (R418, R421): with no item whose operands have come, only the ready items' operands are asked for; else the
  -- next pass of the chosen item starts, and its last runs it once for all its mates
  (∀ (g : Fin 2048) (bed : Bool),
    let s0 := (s.fetchReady g bed).rebase
    let l := s0.loadedItems g bed
    let key := 2 * g.val + b2n bed
    let gap := Map.get 0 s0.sluice.gap key
    (l = [] → exec (.passStart g bed) s = .next s0.runLanes) ∧
    (∀ i w c, s0.choose l gap = (some (i, w), c) →
      let s1 := s0.onSluice fun q => { q with gap :=
        if i.cls = 1 then q.gap else if i.cls = 2 ∧ c = true then Map.modify 0 q.gap key (· + 1) else Map.set 0 q.gap key 0 }
      (1 < w.parts.length →
        exec (.passStart g bed) s = .next ((s1.chargeB i (w.nextRows + 8)).dropPart (s1.matesOf i w) w).runLanes) ∧
      (w.parts.length ≤ 1 → exec (.passStart g bed) s = .next ((s1.runStaged i w bed none).fetchNext i.n g).runLanes))) ∧
  -- reservations and windows (R403, R411, R424, R425, R428)
  (∀ r : Fin 32,
    let x := s.rv r
    (s.Open (some 48) → x.state = 1 → (∀ i ∈ s.instList, i.resv ≠ some r.val) → ∃ t, exec (.resRelease r) s = .next t ∧ (t.rv r).state = 0) ∧
    (s.Open (some 48) → x.state = 1 → ∃ t, exec (.resRevoke r) s = .next t ∧ (t.rv r).state = 2) ∧
    (x.opened = true → x.start + x.cfg.p ≤ s.time.cclk → ∃ t, exec (.windowClose r) s = .next t ∧ (t.rv r).opened = false ∧ (t.rv r).used = 0) ∧
    (x.state = 1 → x.pending = true → (∀ k, k ≠ r.val → (s.rv k).opened = false) → (∀ d ∈ x.cfg.doms, s.isOn d = true) →
      ∃ t, exec (.pendingClear r) s = .next t ∧ (t.rv r).pending = false)) ∧
  (∀ v : W32, s.Open (some 48) → (∀ r, r < 32 → (s.rv r).state ≠ 1) →
    exec (.aenWrite v) s = .next (s.onSluice fun q => { q with aen := v.toNat }).wrote) ∧
  (∀ b : Fin 32, s.isOn 48 = true → s.instList = [] → bitOf s.sluice.aen b = true →
    ∃ t, exec (.aenEffChange b) s = .next t ∧ bitOf t.sluice.aenEff b = true) ∧
  (∀ (n : Nat) (b : Batch), s.sluice.batches.find? (fun b => b.head == n) = some b → s.inst n = none →
    ∃ t, exec (.batchHoldExpiry n) s = .next t ∧ ∀ b ∈ t.sluice.batches, b.head ≠ n) ∧
  (s.pwr.divPend = true → s.instList = [] →
    ∃ t, exec .dividerDecreaseEffect s = .next t ∧ t.pwr.divGo = true ∧ t.pwr.divPend = true ∧ t.pwr.cdiv = s.pwr.cdiv ∧
      t.pwr.cdivEff = s.pwr.cdivEff) ∧
  -- the ports and the Granary (R345, R449)
  (s.Open none → ∃ t, exec .ginvAll s = .next t ∧ t.mem.gran = [] ∧ t.mem.ginvBusy = true) ∧
  (s.Open none → ∃ t, exec .ginvRange s = .next t ∧ t.mem.ginvBusy = true ∧
    ∀ q, q ∈ t.mem.gran ↔ q ∈ s.mem.gran ∧ ¬ (s.mem.ginvBase / 4096 ≤ 128 * q.1 / 4096 ∧ 128 * q.1 / 4096 < s.mem.ginvBase / 4096 + s.mem.ginvPages)) ∧
  (s.mem.ginvBusy = true → ∃ t, exec .ginvDone s = .next t ∧ t.mem.ginvBusy = false ∧ t.mem.gran = s.mem.gran) ∧
  (∀ c : Fin 64, (s.cx c).hold = .ring → s.ctxFenced c = false → s.mem.ports = [] →
    s.checkAcc (s.cx c).domain false .rd (s.cx c).cfg.consAddr = .ok → s.portFenced (homePort (s.cx c).cfg.consAddr) = false →
    exec (.consAddrPoll c) s = .next (s.queueRead (s.cx c).domain false (.cons c.val) (s.cx c).cfg.consAddr 64 false [])) ∧
  -- the links (R462, R464, R470, R475)
  (∀ l : Fin 64, s.linkOn l = true → (s.link l).up = true →
    ((s.link l).st = 1 → (s.link l).ctlDue = false → (s.link l).initDue = true →
      ∃ t, exec (.packetSend l) s = .next t ∧ (t.link l).initDue = false ∧ (t.link l).initSince = s.time.xclk ∧ (t.link l).lastTx.length = 20) ∧
    ((s.link l).st = 2 → (s.link l).ctlDue = false → (s.link l).replayDue = true →
      ∃ t, exec (.packetSend l) s = .next t ∧ (t.link l).replay = (s.link l).unacked ∧ (t.link l).lastTx = syncBeat) ∧
    (((s.link l).st = 1 ∨ (s.link l).st = 2) → (s.link l).ctlDue = true →
      ∃ t, exec (.packetSend l) s = .next t ∧ (t.link l).nakOwed = false ∧ (t.link l).lastTx.length = 20)) ∧
  (∀ g : Fin 8, s.Open (some (40 + g.val)) → (∀ k, k < 8 → Map.get false s.leat.linkEn (8 * g.val + k) = false) →
    (s.group g).sVc0 ≤ 512 → 1 ≤ (s.group g).sVcmax → (s.group g).sVcmax ≤ 1016 →
    ∃ t, exec (.leatCommit g) s = .next t ∧ (t.group g).vc0 = (s.group g).sVc0 ∧ (t.group g).vcmax = (s.group g).sVcmax ∧
      (t.group g).sepmode = (s.group g).sSepmode) ∧
  (∀ l : Fin 64, (s.link l).ignoring = true → ∃ t, exec (.syncBeatReceived l) s = .next t ∧ (t.link l).ignoring = false) ∧
  -- the contexts (R58, R289, R345, R347)
  (∀ c : Fin 64, s.Open (some (51 + c.val / 16)) →
    let x := s.cx c
    let g := x.staged
    (∀ on, ∃ t, exec (.ctxEnable c on) s = .next t ∧ (t.cx c).enable = on) ∧
    (x.enable = false → ∃ t, exec (.ctxReset c) s = .next t ∧ (t.cx c).s = [] ∧ (t.cx c).window = [] ∧ (t.cx c).run = .going ∧ (t.cx c).cfg = x.cfg) ∧
    (x.run ≠ .going → s.ctxFenced c = false → ∃ t, exec (.ctxResume c) s = .next t ∧ (t.cx c).run = .going ∧ (t.cx c).err = false) ∧
    (x.enable = false → 4 ≤ g.cmplSize → g.cmplSize ≤ 16 → g.cmplBase % 64 = 0 → g.consAddr % 8 = 0 →
      ∃ t, exec (.ctxCommit c) s = .next t ∧ (t.cx c).cfg = g ∧ (t.cx c).commitErr = false) ∧
    (∀ k : Fin 16, ∃ t, exec (.streamClear c k) s = .next t ∧ Map.get ({} : Stream) (t.cx c).streams k = {})) ∧
  (∀ c : Fin 64, s.Open (some 49) → ∃ t, exec (.bolterClear c) s = .next t ∧
    (t.cx c).specDiscarded = 0 ∧ (t.cx c).groupsConfirmed = 0 ∧ (t.cx c).draftsCommitted = 0) ∧
  -- the Page Walk Unit (R256, R266)
  (∀ k : Park, s.Open (some 49) → s.pwu.parks = [k] →
    exec .parkAbort s = .next (((((State.onPwu s fun p => { p with parks := [] }).leavePwu k.inst).onInst k.inst fun y =>
      { y with parked := [], again := [], work := [] }).instFault k.inst
        { code := Code.fPageFar, unit := 0x02, poison := true, detail := k.page }).pwuTurn.wrote)) ∧
  (s.Open (some 49) → s.pwuBad = false → ∃ t, exec .pwuCommit s = .next t ∧ t.pwu.commitErr = false ∧
    ∀ k, k < 64 → (t.pool k).cfg = (s.pool k).staged) ∧
  -- the protection unit and the error log (R503, R504, R513, R524)
  (∀ v : W32, s.Open none → (s.log.head + 2 ^ 32 - v.toNat) % 2 ^ 32 ≤ 4096 →
    ∃ t, exec (.elogConsWrite v) s = .next t ∧ t.log.cons = v.toNat) ∧
  (s.prot.scarf.phase = 1 → s.prot.scarf.start + s.prot.scarf.win ≤ s.time.nclk →
    ∃ t, exec .scarfWindowExpiry s = .next t ∧ t.prot.scarf.phase = 0 ∧ t.prot.scarf.cseq = s.prot.scarf.cseq + 1) ∧
  -- the clock controls (R427, R530)
  (∀ v : W32, s.Open none → v.toNat % 4 = s.pwr.cdivEff → ∃ t, exec (.cdivWrite v) s = .next t ∧ t.pwr.cdiv = v.toNat % 4 ∧
    t.pwr.divPend = false) ∧
  -- the management port (R31, R432, R444, R448, R457)
  (∀ v : W32, s.Open none →
    (∃ t, exec (.mgtWrite 0x060000 v) s = .next t ∧ t.mem.tmo = v.toNat % 2 ^ 24 ∧ t.pins.mgtPwr = false) ∧
    (∃ t, exec (.mgtWrite 0x060004 v) s = .next t ∧ t.mem.poisonKept = v.getLsbD 0) ∧
    (∀ k : Fin 16, s.winOn 48 = true → ∃ t, exec (.mgtWrite (BitVec.ofNat 24 (0x070400 + 4 * k.val)) v) s = .next t ∧ t.hop.inj = Map.set 0 s.hop.inj k v)) ∧
  (∀ v : W32, s.Open (some 48) → ∃ t, exec (.mgtWrite 0x010010 v) s = .next t ∧ t.sluice.holdA = v.toNat % 2 ^ 16 ∧
    t.sluice.holdBC = v.toNat / 2 ^ 16)
end

