-- ==== Sys2Proof/Laws/Issue.lean ====
section
/-!
SUPPORT. What the shared operations of issue and of register writes do: a short instruction in a context and in the
Miller, a scalar access, a system instruction, a tensor instruction, a management-port write.
-/

namespace Sys2Proof.Machine

/-! ### Words at the issue position -/

theorem State.Stands.canIssue {s : State} {c : Nat} {ws : List W32} (h : s.Stands c ws) : s.canIssue c = true := by
  have := h.1
  simp only [State.readyAt, Bool.and_eq_true] at this
  exact this.1

theorem State.Stands.fetch {s : State} {c : Nat} {ws : List W32} (h : s.Stands c ws) : s.fetchCode c ws.length = none :=
  Option.isNone_iff_eq_none.mp h.2

/-- A short instruction that stands at the issue position with legal bits runs. -/
theorem ctxShort_run {op c : Nat} {w : W32} {s : State} {f : State → Out} (hs : s.Takes c [w]) (hl : Legal op w) :
    ctxShort op c w s f = f s := by
  obtain ⟨hs, hr⟩ := hs
  obtain ⟨hi, hb⟩ := hl
  simp only [shortIs, Bool.and_eq_true, beq_iff_eq, Bool.not_eq_true'] at hi
  obtain ⟨h0, rfl⟩ := hi
  have h1 := hs.canIssue
  have h2 : s.fetchCode c 1 = none := hs.fetch
  have h3 := hs.1
  simp [ctxShort, h0, h1, h2, h3, hb, hr]

/-- While the ring has no room a short instruction holds (R345). -/
theorem ctxShort_ring {op c : Nat} {w : W32} {s : State} {f : State → Out} (hc : s.canIssue c = true) (hr : (s.cx c).ringFull = true)
    (hi : shortIs op w = true) : ctxShort op c w s f = .next (s.onCx c fun y => { y with hold := .ring }) := by
  simp only [shortIs, Bool.and_eq_true, beq_iff_eq, Bool.not_eq_true'] at hi
  obtain ⟨h0, rfl⟩ := hi
  simp [ctxShort, h0, hc, hr]

/-- A short instruction with a bit that must be zero, or a reserved opcode, is refused (R325). -/
theorem ctxShort_bad {op c : Nat} {w : W32} {s : State} {f : State → Out} (hs : s.Takes c [w]) (hi : shortIs op w = true)
    (hb : shortBad op w.toNat = true) :
    ctxShort op c w s f = .next (s.refuseScalar c 1 Code.encoding (0x80 + op)) := by
  obtain ⟨hs, hr⟩ := hs
  simp only [shortIs, Bool.and_eq_true, beq_iff_eq, Bool.not_eq_true'] at hi
  obtain ⟨h0, rfl⟩ := hi
  have h1 := hs.canIssue
  have h2 : s.fetchCode c 1 = none := hs.fetch
  have h3 := hs.1
  simp [ctxShort, h0, h1, h2, h3, hb, hr]

theorem ctxRegs_run {op c : Nat} {w : W32} {s : State} {f : Regs → Regs} (hs : s.Takes c [w]) (hl : Legal op w) :
    ctxRegs op c w s f = .next (s.onCx c fun x => ({ x with s := (f ⟨x.s, x.p⟩).s, p := (f ⟨x.s, x.p⟩).p } : Ctx).adv 1) := by
  rw [ctxRegs, ctxShort_run hs hl]

/-- A scalar access whose address is valid and aligned goes on with it. -/
theorem ctxAccess_run {op c : Nat} {w : W32} {s : State} {off : Int} {al a : Nat} {f : State → Nat → State}
    (hs : s.Takes c [w]) (hl : Legal op w) (ha : scalarAddr ((s.cx c).rs (fa w)) off = some a) (hm : a % al = 0) :
    ctxAccess op c w s off al f = .next (f s a) := by
  rw [ctxAccess, ctxShort_run hs hl]
  simp only [ha, hm, ne_eq, not_true_eq_false, if_false]

/-- A short instruction of the Miller that it executes runs. -/
theorem millerShort_run {op : Nat} {w : W32} {s : State} {f : State → Out} (hs : s.MillerAt w) (hl : Legal op w)
    (hx : millerExcluded op = false) : millerShort op w s f = f s := by
  obtain ⟨hi, hb⟩ := hl
  simp only [shortIs, Bool.and_eq_true, beq_iff_eq, Bool.not_eq_true'] at hi
  obtain ⟨h0, rfl⟩ := hi
  simp [millerShort, h0, hs.1, hs.2, hb, hx]

/-- An excluded opcode, or a bit that must be zero, is a Miller fault of cause 2 (R348, R509). -/
theorem millerShort_bad {op : Nat} {w : W32} {s : State} {f : State → Out} (hs : s.MillerAt w) (hi : shortIs op w = true)
    (hb : (millerExcluded op || shortBad op w.toNat) = true) : millerShort op w s f = .next (s.millerFault' 2) := by
  simp only [shortIs, Bool.and_eq_true, beq_iff_eq, Bool.not_eq_true'] at hi
  obtain ⟨h0, rfl⟩ := hi
  simp only [millerShort, h0, hs.1, hs.2, hb]
  simp

/-! ### Long instructions -/

/-- A system instruction whose predicate holds and whose fields are legal runs. -/
theorem issueSystem_run {opc c : Nat} {w : Long} {s : State} {bad : Bool} {f : State → Out} (hs : s.Stands c w.words)
    (hr : (s.cx c).ringFull = false) (hi : longIs opc w = true) (hg : (s.cx c).goes w = true) (hb : bad = false) (hc : fld w.w0.toNat 8 4 < 4)
    (hz : fld w.w0.toNat 16 16 = 0) : issueSystem opc c w s bad f = f s := by
  simp only [longIs, Bool.and_eq_true, beq_iff_eq] at hi
  have h1 := hs.canIssue
  have h2 : s.fetchCode c 4 = none := hs.fetch
  have h3 := hs.1
  have hg' : ((s.cx c).rp (fld w.w0.toNat 12 3) == bitOf w.w0.toNat 15) = false := by
    simpa [Ctx.goes, bne] using hg
  simp only [issueSystem, hi.1, hi.2, h1, h2, h3, hg', hb, hz, hr]
  simp [hc]

theorem State.Issues.not_off {s : State} {r : TRow} {c : Nat} {w : Long} (h : s.Issues r c w) :
    ((s.cx c).rp (fld w.w0.toNat 12 3) == bitOf w.w0.toNat 15) = false := by
  simpa [Ctx.goes, bne] using h.goes

/-- A tensor instruction that reaches its checks and passes them is decided by the Sluice. -/
theorem issueTensor_passes {r : TRow} {c : Nat} {w : Long} {s : State} (hw : bitOf w.w0.toNat 0 = true)
    (ho : longOpcodes.contains w.opc = true) (hr : (w.opc == r.opc && r.form w) = true) (h : s.Issues r c w)
    (hp : s.Passes r (s.atIssue r c w)) : issueTensor r c w s = .next (s.sluiceDecide r (s.atIssue r c w)) := by
  obtain ⟨hs, h4, h5, h6, h7, h8⟩ := h
  have h1 := hs.canIssue
  have h2 : s.fetchCode c 4 = none := hs.fetch
  have h3 := hs.1
  have hg : ((s.cx c).rp (fld w.w0.toNat 12 3) == bitOf w.w0.toNat 15) = false := by simpa [Ctx.goes, bne] using h5
  have hf : ¬ 32 ≤ s.inflight c := by omega
  obtain ⟨p1, p2, p3, p4⟩ := hp
  unfold State.apbOk at h7
  unfold State.atIssue State.withApb at p1 p2 p3 p4 h7 ⊢
  cases ha : r.apb (s.capture c w) with
  | none =>
    simp only [ha] at p1 p2 p3 p4 ⊢
    simp only [issueTensor, issueTensor.finish, hw, ho, hr, h1, h2, h3, h4, hg, hf, h8, ha, p1, p2, p3, p4]
    simp
  | some at' =>
    simp only [ha] at p1 p2 p3 p4 h7 ⊢
    simp only [issueTensor, issueTensor.finish, hw, ho, hr, h1, h2, h3, h4, hg, hf, h8, ha, p1, p2, p3, p4, h7]
    simp

/-- A tensor instruction that reaches its checks and fails one is refused with its lowest code (R12). -/
theorem issueTensor_refused {r : TRow} {c : Nat} {w : Long} {s : State} (hw : bitOf w.w0.toNat 0 = true)
    (ho : longOpcodes.contains w.opc = true) (hr : (w.opc == r.opc && r.form w) = true) (h : s.Issues r c w)
    (hc : s.commonCodes r (s.atIssue r c w) ++ r.checks s (s.atIssue r c w) ≠ []) :
    issueTensor r c w s = .next (s.refuseTensor c w
      (minOr 0x0101 (s.commonCodes r (s.atIssue r c w) ++ r.checks s (s.atIssue r c w))) (s.atIssue r c w).cls (s.atIssue r c w).seqid) := by
  obtain ⟨hs, h4, h5, h6, h7, h8⟩ := h
  have h1 := hs.canIssue
  have h2 : s.fetchCode c 4 = none := hs.fetch
  have h3 := hs.1
  have hg : ((s.cx c).rp (fld w.w0.toNat 12 3) == bitOf w.w0.toNat 15) = false := by simpa [Ctx.goes, bne] using h5
  have hf : ¬ 32 ≤ s.inflight c := by omega
  unfold State.apbOk at h7
  unfold State.atIssue State.withApb at hc h7 ⊢
  cases ha : r.apb (s.capture c w) with
  | none =>
    simp only [ha] at hc ⊢
    simp only [issueTensor, hw, ho, hr, h1, h2, h3, h4, hg, hf, h8, ha]
    simp only [Bool.not_true, Bool.and_false, Bool.or_self, Bool.false_eq_true, if_false]
    split
    · rfl
    · exact absurd ‹_› hc
  | some at' =>
    simp only [ha] at h7 hc ⊢
    simp only [issueTensor, hw, ho, hr, h1, h2, h3, h4, hg, hf, h8, ha, h7]
    simp only [Bool.not_true, Bool.and_false, Bool.or_self, Bool.false_eq_true, if_false, bne_self_eq_false, Bool.false_and, decide_false]
    split
    · rfl
    · exact absurd ‹_› hc

/-! ### The management port -/

/-- A write that reaches its register applies it and leaves MGT_PWR 0. -/
theorem State.mgt_open {s : State} {c : Instr} {d : Option Nat} {f : State → State} (h : s.Open d) : s.mgt c d f = (f s).wrote := by
  obtain ⟨h1, h2⟩ := h
  cases d with
  | none => simp [State.mgt, h1, State.gated, State.wrote]
  | some k =>
    have h3 : s.winOn k = true := h2
    have h4 : (s.dom k).state ≤ 2 := of_decide_eq_true h3
    have h5 : ¬ (s.dom k).state = 3 := by omega
    have h6 : ¬ (s.dom k).state = 4 := by omega
    simp [State.mgt, h1, State.gated, h3, h5, h6, State.wrote]

/-- A write while the port does not answer has no effect of its own (R549): it waits where the root clock is stopped (R546). -/
theorem State.mgt_down {s : State} {c : Instr} {d : Option Nat} {f : State → State} (h : s.mgtUp = false) : s.mgt c d f = s.holdAccess c := by
  simp [State.mgt, h]

end Sys2Proof.Machine
end

