-- ==== Sys2Proof/Laws/Maps.lean ====
section
/-!
SUPPORT. Laws of the finite store: what is read after each operation, and that every operation keeps the
canonical form.
-/

namespace Sys2Proof.Map

variable {α : Type}

@[simp] theorem get_nil (d : α) (k : Nat) : get d ([] : Map α) k = d := rfl

theorem get_erase [DecidableEq α] {d : α} : ∀ {lo : Nat} {m : Map α} (_ : wfFrom d lo m = true) (k j : Nat),
    get d (erase m k) j = if j = k then d else get d m j
  | _, [], _, k, j => by simp [erase]
  | lo, (i, v) :: m, h, k, j => by
    simp only [wfFrom, Bool.and_eq_true, decide_eq_true_eq] at h
    obtain ⟨⟨hlo, hv⟩, hm⟩ := h
    have ih := get_erase hm k j
    have low : ∀ n, n ≤ i → get d m n = d := by
      intro n hn
      cases m with
      | nil => rfl
      | cons p m =>
        simp only [wfFrom, Bool.and_eq_true, decide_eq_true_eq] at hm
        simp only [get]
        rw [if_neg (by omega), if_pos (by omega)]
    simp only [erase]
    split
    · rename_i hk
      subst hk
      by_cases hj : j = k
      · simp [hj, low k le_rfl]
      · simp only [get, hj, if_false]
        by_cases hl : j < k
        · rw [if_pos hl]; exact low j (by omega)
        · rw [if_neg hl]
    · split
      · by_cases hj : j = k
        · subst hj; simp only [if_true, get]; rw [if_neg (by omega), if_pos (by omega)]
        · simp [hj]
      · simp only [get, ih]
        by_cases hj : j = k
        · subst hj
          rw [if_neg (by assumption), if_neg (by omega), if_pos rfl]; simp
        · simp [hj]

theorem get_insert [DecidableEq α] (d : α) : ∀ (m : Map α) (k j : Nat) (v : α),
    get d (insert m k v) j = if j = k then v else get d m j
  | [], k, j, v => by
    simp only [insert, get]
    split <;> simp_all
  | (i, u) :: m, k, j, v => by
    have ih := get_insert d m k j v
    simp only [insert]
    split
    · rename_i hk
      subst hk
      simp only [get]
      by_cases hj : j = k <;> simp [hj]
    · split
      · simp only [get]
        by_cases hj : j = k
        · simp [hj]
        · simp only [hj, if_false]
          split
          · rw [if_neg (by omega), if_pos (by omega)]
          · rfl
      · simp only [get, ih]
        by_cases hj : j = k
        · subst hj; rw [if_neg (by assumption), if_neg (by omega), if_pos rfl, if_pos rfl]
        · simp [hj]

/-- A read after a write to the same key gives the value, and a write leaves every other key alone. -/
theorem get_set [DecidableEq α] {d : α} {m : Map α} (h : wf d m = true) (k j : Nat) (v : α) :
    get d (set d m k v) j = if j = k then v else get d m j := by
  unfold set
  split
  · subst_vars; exact get_erase h k j
  · exact get_insert d m k j v

theorem get_modify [DecidableEq α] {d : α} {m : Map α} (h : wf d m = true) (k j : Nat) (f : α → α) :
    get d (modify d m k f) j = if j = k then f (get d m k) else get d m j := get_set h k j _

theorem wfFrom_mono [DecidableEq α] {d : α} {a b : Nat} (hab : a ≤ b) {m : Map α} (h : wfFrom d b m = true) : wfFrom d a m = true := by
  cases m with
  | nil => rfl
  | cons p m =>
    simp only [wfFrom, Bool.and_eq_true, decide_eq_true_eq] at *
    exact ⟨⟨by omega, h.1.2⟩, h.2⟩

theorem wfFrom_erase [DecidableEq α] {d : α} : ∀ {lo : Nat} {m : Map α} (_ : wfFrom d lo m = true) (k : Nat), wfFrom d lo (erase m k) = true
  | _, [], _, _ => rfl
  | lo, (i, v) :: m, h, k => by
    simp only [wfFrom, Bool.and_eq_true, decide_eq_true_eq] at h
    simp only [erase]
    split
    · exact wfFrom_mono (by omega) h.2
    · split
      · simp [wfFrom, h]
      · simp [wfFrom, h, wfFrom_erase h.2 k]

theorem wfFrom_insert [DecidableEq α] {d : α} : ∀ {lo : Nat} {m : Map α} (_ : wfFrom d lo m = true) (k : Nat) (v : α) (_ : v ≠ d) (_ : lo ≤ k),
    wfFrom d lo (insert m k v) = true
  | _, [], _, k, v, hv, hk => by simp [insert, wfFrom, hv, hk]
  | lo, (i, u) :: m, h, k, v, hv, hk => by
    simp only [wfFrom, Bool.and_eq_true, decide_eq_true_eq] at h
    simp only [insert]
    split
    · simp [wfFrom, h, hv]
    · split
      · simp only [wfFrom, Bool.and_eq_true, decide_eq_true_eq]
        exact ⟨⟨hk, hv⟩, ⟨⟨by omega, h.1.2⟩, h.2⟩⟩
      · simp [wfFrom, h, wfFrom_insert h.2 k v hv (by omega)]

theorem wf_set [DecidableEq α] {d : α} {m : Map α} (h : wf d m = true) (k : Nat) (v : α) : wf d (set d m k v) = true := by
  unfold set
  split
  · exact wfFrom_erase h k
  · exact wfFrom_insert h k v (by assumption) (Nat.zero_le _)

theorem wf_modify [DecidableEq α] {d : α} {m : Map α} (h : wf d m = true) (k : Nat) (f : α → α) : wf d (modify d m k f) = true :=
  wf_set h k _

theorem wf_setMany [DecidableEq α] {d : α} : ∀ {m : Map α} (_ : wf d m = true) (l : List (Nat × α)), wf d (setMany d m l) = true
  | _, h, [] => h
  | _, h, (k, v) :: l => wf_setMany (wf_set h k v) l

theorem wf_erase [DecidableEq α] {d : α} {m : Map α} (h : wf d m = true) (k : Nat) : wf d (erase m k) = true := wfFrom_erase h k

theorem wfFrom_filter [DecidableEq α] {d : α} (p : Nat × α → Bool) : ∀ {lo : Nat} {m : Map α} (_ : wfFrom d lo m = true),
    wfFrom d lo (m.filter p) = true
  | _, [], _ => rfl
  | lo, (i, v) :: m, h => by
    simp only [wfFrom, Bool.and_eq_true, decide_eq_true_eq] at h
    simp only [List.filter]
    split
    · simp [wfFrom, h, wfFrom_filter p h.2]
    · exact wfFrom_mono (by omega) (wfFrom_filter p h.2)

/-- Dropping entries keeps the canonical form. -/
theorem wf_filter [DecidableEq α] {d : α} {m : Map α} (h : wf d m = true) (p : Nat × α → Bool) : wf d (m.filter p) = true := wfFrom_filter p h

theorem wfFrom_mapVals [DecidableEq α] {d : α} (f : α → α) : ∀ {lo : Nat} {m : Map α} (_ : wfFrom d lo m = true),
    wfFrom d lo (mapVals d f m) = true
  | _, [], _ => rfl
  | lo, (i, v) :: m, h => by
    simp only [wfFrom, Bool.and_eq_true, decide_eq_true_eq] at h
    have ih := wfFrom_mapVals f h.2
    unfold mapVals at *
    simp only [List.map_cons, List.filter]
    split
    · rename_i q
      simp only [decide_eq_true_eq] at q
      simp only [wfFrom, Bool.and_eq_true, decide_eq_true_eq]
      exact ⟨⟨h.1.1, q⟩, ih⟩
    · exact wfFrom_mono (by omega) ih

theorem wf_mapVals [DecidableEq α] {d : α} {m : Map α} (h : wf d m = true) (f : α → α) : wf d (mapVals d f m) = true := wfFrom_mapVals f h

/-- A key outside the keys written keeps its value. -/
theorem get_setMany_of_notMem [DecidableEq α] {d : α} : ∀ {m : Map α} (_ : wf d m = true) (l : List (Nat × α)) {j : Nat}
    (_ : ∀ p ∈ l, p.1 ≠ j), get d (setMany d m l) j = get d m j
  | _, _, [], _, _ => rfl
  | m, h, (k, v) :: l, j, hj => by
    have e : j ≠ k := fun q => hj (k, v) (by simp) q.symm
    rw [setMany, get_setMany_of_notMem (wf_set h k v) l (fun p hp => hj p (by simp [hp])), get_set h, if_neg e]

/-- Two stores in canonical form that read alike everywhere are equal. -/
theorem ext_of_wf [DecidableEq α] {d : α} : ∀ {lo : Nat} {m n : Map α} (_ : wfFrom d lo m = true) (_ : wfFrom d lo n = true)
    (_ : ∀ k, get d m k = get d n k), m = n
  | _, [], [], _, _, _ => rfl
  | _, [], (j, u) :: n, _, hn, e => by
    simp only [wfFrom, Bool.and_eq_true, decide_eq_true_eq] at hn
    have := e j
    simp [get] at this
    exact absurd this.symm hn.1.2
  | _, (i, v) :: m, [], hm, _, e => by
    simp only [wfFrom, Bool.and_eq_true, decide_eq_true_eq] at hm
    have := e i
    simp [get] at this
    exact absurd this hm.1.2
  | lo, (i, v) :: m, (j, u) :: n, hm, hn, e => by
    simp only [wfFrom, Bool.and_eq_true, decide_eq_true_eq] at hm hn
    have low : ∀ {i : Nat} {m : Map α}, wfFrom d (i + 1) m = true → ∀ k, k ≤ i → get d m k = d := by
      intro i m h k hk
      cases m with
      | nil => rfl
      | cons p m =>
        simp only [wfFrom, Bool.and_eq_true, decide_eq_true_eq] at h
        simp only [get]
        rw [if_neg (by omega), if_pos (by omega)]
    have hij : i = j := by
      by_contra q
      rcases Nat.lt_or_gt_of_ne q with q | q
      · have := e i
        simp only [get, if_pos, if_neg (show ¬ i = j by omega), if_pos q] at this
        exact hm.1.2 this
      · have := e j
        simp only [get, if_pos, if_neg (show ¬ j = i by omega), if_pos (show j < i from q)] at this
        exact hn.1.2 this.symm
    subst hij
    have huv : v = u := by simpa [get] using e i
    subst huv
    have : m = n := ext_of_wf hm.2 hn.2 fun k => by
      by_cases hk : k ≤ i
      · rw [low hm.2 k hk, low hn.2 k hk]
      · have := e k
        simpa only [get, if_neg (show ¬ k = i by omega), if_neg (show ¬ k < i by omega)] using this
    rw [this]

end Sys2Proof.Map
end

