-- ==== Sys2Proof/Laws/Kept.lean ====
section
/-!
SUPPORT. What every step keeps, said once: `Kept s t` says that `t` has the queue, the fuses and the governed fields of
`s`, is canonical if `s` is, and holds well-formed accesses if `s` does. One lemma for each update of the state; Laws/Kept… carry it through every operation.
-/

namespace Sys2Proof.Machine

/-- `t` keeps what no command changes outside the rows that R501 and R504 name. -/
structure Kept (s t : State) : Prop where
  pending : t.pending = s.pending
  fuse : t.fuse = s.fuse
  governed : t.governed = s.governed
  canon : s.Canon → t.Canon
  access : (∀ c ∈ s.boot.access, c.wf = true) → ∀ c ∈ t.boot.access, c.wf = true

theorem Kept.refl (s : State) : Kept s s := ⟨rfl, rfl, rfl, id, id⟩

theorem Kept.trans {a b c : State} (h : Kept a b) (k : Kept b c) : Kept a c :=
  ⟨k.pending.trans h.pending, k.fuse.trans h.fuse, k.governed.trans h.governed, fun x => k.canon (h.canon x), fun x => k.access (h.access x)⟩

/-! ### The registers of a context -/

section ctx
variable {x : Ctx} (k : x.canon)
include k

/-- An update that names none of the stores keeps them. -/
theorem Ctx.canon.same {y : Ctx} (h : (y.s, y.p, y.t, y.l, y.e, y.h, y.window, y.streams) = (x.s, x.p, x.t, x.l, x.e, x.h, x.window, x.streams)) :
    y.canon := by
  simp only [Prod.mk.injEq] at h
  obtain ⟨h1, h2, h3, h4, h5, h6, h7, h8⟩ := h
  exact ⟨h1 ▸ k.s, h2 ▸ k.p, h3 ▸ k.t, h4 ▸ k.l, h5 ▸ k.e, h6 ▸ k.h, h7 ▸ k.window, h8 ▸ k.streams⟩
theorem Ctx.canon.adv (n : Nat) : (x.adv n).canon := by
  unfold Ctx.adv
  split <;> exact k.same rfl
theorem Ctx.canon.setErr (a b : Nat) : (x.setErr a b).canon := by
  unfold Ctx.setErr
  split <;> exact k.same rfl
omit k in
theorem wf_regWrite {m : Map Word} (h : Map.wf 0 m = true) (n : Nat) (v : Word) : Map.wf 0 (regWrite m n v) = true := by
  unfold regWrite
  split
  · exact h
  · exact Map.wf_set h _ _
omit k in
theorem wf_predWrite {m : Map Bool} (h : Map.wf false m = true) (n : Nat) (v : Bool) : Map.wf false (predWrite m n v) = true := by
  unfold predWrite
  split
  · exact h
  · exact Map.wf_set h _ _
theorem Ctx.canon.ws (n : Nat) (v : Word) : (x.ws n v).canon := { k with s := wf_regWrite k.s n v }
theorem Ctx.canon.wp (n : Nat) (v : Bool) : (x.wp n v).canon := { k with p := wf_predWrite k.p n v }
theorem Ctx.canon.wev (n : Nat) (v : W32) : (x.wev n v).canon := { k with e := Map.wf_set k.e _ _ }
theorem Ctx.canon.onWindow (n : Nat) (l : List (Nat × W32)) : Ctx.canon { x with window := Map.setMany 0 x.window l, newest := n } :=
  { k with window := Map.wf_setMany k.window l }
theorem Ctx.canon.onH (n m : Nat) (v : BitVec 24) : (({ x with h := Map.set 0 x.h n v } : Ctx).adv m).canon :=
  Ctx.canon.adv (x := { x with h := Map.set 0 x.h n v }) { k with h := Map.wf_set k.h n v } m
theorem Ctx.canon.csrWrite {n : Nat} {v : Word} {y : Ctx} (e : x.csrWrite n v = some y) : y.canon := by
  unfold Ctx.csrWrite at e
  split at e
  all_goals first
    | (injection e with e; subst e; first | exact k.same rfl | (split <;> exact k.same rfl))
    | cases e
theorem Ctx.canon.setStream (n : Nat) (v : Stream) : Ctx.canon { x with streams := Map.set {} x.streams n v } :=
  { k with streams := Map.wf_set k.streams n v }
theorem Ctx.canon.onStream (n : Nat) (f : Stream → Stream) : Ctx.canon { x with streams := Map.modify {} x.streams n f } :=
  { k with streams := Map.wf_modify k.streams n f }
theorem Ctx.canon.loaded (op : ScalarOp) (bs : List Byte) : (x.loaded op bs).canon := by
  unfold Ctx.loaded
  split
  · exact k.ws _ _
  · exact { k with t := Map.wf_set k.t _ _ }
  · exact { k with l := Map.wf_set k.l _ _ }
  · exact k

end ctx

/-- A change of scalar and predicate registers keeps their canonical form. -/
def Regs.Keeps (f : Regs → Regs) : Prop :=
  ∀ r : Regs, Map.wf 0 r.s = true → Map.wf false r.p = true → Map.wf 0 (f r).s = true ∧ Map.wf false (f r).p = true

theorem Regs.keeps_s {g : Regs → Nat} {v : Regs → Word} : Regs.Keeps fun r => { r with s := regWrite r.s (g r) (v r) } :=
  fun _ h k => ⟨wf_regWrite h _ _, k⟩
theorem Regs.keeps_p {g : Regs → Nat} {v : Regs → Bool} : Regs.Keeps fun r => { r with p := predWrite r.p (g r) (v r) } :=
  fun _ h k => ⟨h, wf_predWrite k _ _⟩

section prims
variable {s0 s : State} (h : Kept s0 s)
include h

/-! ### Updates of single fields -/

theorem kept_ctx {m : Map Ctx} (hm : s.Canon → Map.wf {} m = true ∧ ∀ p ∈ m, p.2.canon) : Kept s0 { s with ctx := m } :=
  h.trans ⟨rfl, rfl, rfl, fun c => { c with ctx := (hm c).1, ctxs := (hm c).2 }, id⟩
theorem kept_core {m : Map Core} (hm : s.Canon → Map.wf {} m = true ∧ ∀ p ∈ m, p.2.canon) : Kept s0 { s with core := m } :=
  h.trans ⟨rfl, rfl, rfl, fun c => { c with core := (hm c).1, cores := (hm c).2 }, id⟩
theorem kept_bay {m : Map Bay} (hm : s.Canon → Map.wf {} m = true ∧ ∀ p ∈ m, p.2.canon) : Kept s0 { s with bay := m } :=
  h.trans ⟨rfl, rfl, rfl, fun c => { c with bay := (hm c).1, bays := (hm c).2 }, id⟩
theorem kept_insts {m : Map (Option Inst)} (hm : s.Canon → Map.wf none m = true) : Kept s0 { s with insts := m } :=
  h.trans ⟨rfl, rfl, rfl, fun c => { c with insts := hm c }, id⟩
theorem kept_nextInst {n : Nat} : Kept s0 { s with nextInst := n } :=
  h.trans ⟨rfl, rfl, rfl, fun c => { c with }, id⟩
theorem kept_mem {m : Mem} (h1 : s.Canon → Map.wf 0 m.ext = true) (h2 : s.Canon → Map.wf {} m.ports = true) : Kept s0 { s with mem := m } :=
  h.trans ⟨rfl, rfl, rfl, fun c => { c with ext := h1 c, ports := h2 c }, id⟩
theorem kept_sluice {q : Sluice} (hm : s.Canon → Map.wf {} q.resv = true) : Kept s0 { s with sluice := q } :=
  h.trans ⟨rfl, rfl, rfl, fun c => { c with resv := hm c }, id⟩
theorem kept_pwu {q : Pwu} (hm : s.Canon → Map.wf {} q.pools = true) : Kept s0 { s with pwu := q } :=
  h.trans ⟨rfl, rfl, rfl, fun c => { c with pools := hm c }, id⟩
theorem kept_leat {q : Leat} (h1 : s.Canon → Map.wf {} q.links = true) (h2 : s.Canon → Map.wf {} q.groups = true) : Kept s0 { s with leat := q } :=
  h.trans ⟨rfl, rfl, rfl, fun c => { c with links := h1 c, groups := h2 c }, id⟩
theorem kept_weir {q : Weir} : Kept s0 { s with weir := q } :=
  h.trans ⟨rfl, rfl, rfl, fun c => { c with }, id⟩
theorem kept_hop {q : Hop} (hm : s.Canon → Map.wf {} q.ch = true) : Kept s0 { s with hop := q } :=
  h.trans ⟨rfl, rfl, rfl, fun c => { c with ch := hm c }, id⟩
theorem kept_prot {q : Prot} (hq : (q.win, q.dbgEn, q.testEn, q.imgAddr, q.imgLen, q.imgDigest)
    = (s.prot.win, s.prot.dbgEn, s.prot.testEn, s.prot.imgAddr, s.prot.imgLen, s.prot.imgDigest)) : Kept s0 { s with prot := q } :=
  h.trans ⟨rfl, rfl, by simp only [Prod.mk.injEq] at hq; simp [State.governed, hq], fun c => { c with }, id⟩
theorem kept_log {q : Log} (hq : q.base = s.log.base) : Kept s0 { s with log := q } :=
  h.trans ⟨rfl, rfl, by simp [State.governed, hq], fun c => { c with }, id⟩
theorem kept_pwr {q : Pwr} (hm : s.Canon → Map.wf {} q.doms = true) : Kept s0 { s with pwr := q } :=
  h.trans ⟨rfl, rfl, rfl, fun c => { c with doms := hm c }, id⟩
theorem kept_boot {q : Boot} (hq : (∀ c ∈ s.boot.access, c.wf = true) → ∀ c ∈ q.access, c.wf = true) :
    Kept s0 { s with boot := q } :=
  h.trans ⟨rfl, rfl, rfl, fun c => { c with }, hq⟩
theorem kept_miller {q : Miller} (hm : s.Canon → Map.wf 0 q.store = true) : Kept s0 { s with miller := q } :=
  h.trans ⟨rfl, rfl, rfl, fun c => { c with store := hm c }, id⟩
theorem kept_time {q : Time} : Kept s0 { s with time := q } :=
  h.trans ⟨rfl, rfl, rfl, fun c => { c with }, id⟩
theorem kept_pins {q : Pins} : Kept s0 { s with pins := q } :=
  h.trans ⟨rfl, rfl, rfl, fun c => { c with }, id⟩

/-! ### Indexed updates -/

theorem kept_onInst {n : Nat} {f : Inst → Inst} : Kept s0 (s.onInst n f) := by
  unfold State.onInst
  split
  · exact h
  · exact kept_insts h fun k => Map.wf_set k.insts _ _
theorem kept_onInsts {f : Inst → Inst} : Kept s0 (s.onInsts f) := kept_insts h fun k => Map.wf_mapVals k.insts _
theorem kept_onPort {p : Nat} {f : Port → Port} : Kept s0 (s.onPort p f) :=
  kept_mem h (fun k => k.ext) fun k => Map.wf_modify k.ports _ _
theorem kept_onPorts {f : Port → Port} : Kept s0 (s.onPorts f) :=
  kept_mem h (fun k => k.ext) fun k => Map.wf_mapVals k.ports _
theorem kept_onLink {l : Nat} {f : Link → Link} : Kept s0 (s.onLink l f) :=
  kept_leat h (fun k => Map.wf_modify k.links _ _) fun k => k.groups
theorem kept_onGroup {g : Nat} {f : LinkGroup → LinkGroup} : Kept s0 (s.onGroup g f) :=
  kept_leat h (fun k => k.links) fun k => Map.wf_modify k.groups _ _
theorem kept_onRv {r : Nat} {f : Resv → Resv} : Kept s0 (s.onRv r f) := kept_sluice h fun k => Map.wf_modify k.resv _ _
theorem kept_onPool {p : Nat} {f : Pool → Pool} : Kept s0 (s.onPool p f) := kept_pwu h fun k => Map.wf_modify k.pools _ _
theorem kept_onChan {c : Nat} {f : Channel → Channel} : Kept s0 (s.onChan c f) := kept_hop h fun k => Map.wf_modify k.ch _ _
theorem kept_onDom {d : Nat} {f : Dom → Dom} : Kept s0 (s.onDom d f) := kept_pwr h fun k => Map.wf_modify k.doms _ _

omit h in
theorem mem_modify {α : Type} [DecidableEq α] {d : α} {k : Nat} {f : α → α} {P : α → Prop} {m : Map α} (hm : ∀ p ∈ m, P p.2)
    (hf : P (f (Map.get d m k))) : ∀ p ∈ Map.modify d m k f, P p.2 := by
  have er : ∀ {m : Map α} {k : Nat}, (∀ p ∈ m, P p.2) → ∀ p ∈ Map.erase m k, P p.2 := by
    intro m k hm
    induction m with
    | nil => simp [Map.erase]
    | cons q m ih =>
      simp only [Map.erase]
      split
      · exact fun p hp => hm p (List.mem_cons_of_mem _ hp)
      · split
        · exact hm
        · intro p hp
          rcases List.mem_cons.1 hp with rfl | hp
          · exact hm _ (List.mem_cons_self ..)
          · exact ih (fun p hp => hm p (List.mem_cons_of_mem _ hp)) p hp
  have ins : ∀ {m : Map α} {k : Nat} {v : α}, P v → (∀ p ∈ m, P p.2) → ∀ p ∈ Map.insert m k v, P p.2 := by
    intro m k v hv hm
    induction m with
    | nil => simp [Map.insert, hv]
    | cons q m ih =>
      simp only [Map.insert]
      split
      · intro p hp
        rcases List.mem_cons.1 hp with rfl | hp
        · exact hv
        · exact hm p (List.mem_cons_of_mem _ hp)
      · split
        · intro p hp
          rcases List.mem_cons.1 hp with rfl | hp
          · exact hv
          · exact hm p hp
        · intro p hp
          rcases List.mem_cons.1 hp with rfl | hp
          · exact hm _ (List.mem_cons_self ..)
          · exact ih (fun p hp => hm p (List.mem_cons_of_mem _ hp)) p hp
  unfold Map.modify Map.set
  split
  · exact er hm
  · exact ins hf hm

omit h in
theorem get_of_all {α : Type} {d : α} {P : α → Prop} (hd : P d) : ∀ {m : Map α} (_ : ∀ p ∈ m, P p.2) (k : Nat), P (Map.get d m k)
  | [], _, _ => hd
  | (j, v) :: m, hm, k => by
    simp only [Map.get]
    split
    · exact hm (j, v) (List.mem_cons_self ..)
    · split
      · exact hd
      · exact get_of_all hd (fun p hp => hm p (List.mem_cons_of_mem _ hp)) k

omit h in
theorem Ctx.canon_default : Ctx.canon {} := ⟨rfl, rfl, rfl, rfl, rfl, rfl, rfl, rfl⟩
omit h in
theorem State.Canon.cx {s : State} (k : s.Canon) (c : Nat) : (s.cx c).canon := get_of_all (P := Ctx.canon) Ctx.canon_default k.ctxs c
theorem kept_onCx {c : Nat} {f : Ctx → Ctx} (hf : (s.cx c).canon → (f (s.cx c)).canon) : Kept s0 (s.onCx c f) :=
  kept_ctx h fun k => ⟨Map.wf_modify k.ctx _ _, mem_modify (P := Ctx.canon) k.ctxs (hf (k.cx c))⟩
theorem kept_onCo {g : Nat} {f : Core → Core} (hf : ∀ x : Core, x.canon → (f x).canon) : Kept s0 (s.onCo g f) :=
  kept_core h fun k => ⟨Map.wf_modify k.core _ _, mem_modify (P := Core.canon) k.cores (hf _ (get_of_all (P := Core.canon) (by rfl) k.cores _))⟩
theorem kept_onBy {b : Nat} {f : Bay → Bay} (hf : ∀ x : Bay, x.canon → (f x).canon) : Kept s0 (s.onBy b f) :=
  kept_bay h fun k => ⟨Map.wf_modify k.bay _ _, mem_modify (P := Bay.canon) k.bays (hf _ (get_of_all (P := Bay.canon) (by rfl) k.bays _))⟩
theorem kept_onSlot {g k : Nat} {f : Slot → Slot} : Kept s0 (s.onSlot g k f) := kept_onCo h fun _ x => x
theorem kept_onStat {g r : Nat} {f : RowStat → RowStat} : Kept s0 (s.onStat g r f) := kept_onCo h fun _ x => x
theorem kept_onPwu {f : Pwu → Pwu} (hf : ∀ q : Pwu, (f q).pools = q.pools) : Kept s0 (s.onPwu f) :=
  kept_pwu h fun k => by rw [hf]; exact k.pools
theorem kept_onSluice {f : Sluice → Sluice} (hf : ∀ q : Sluice, (f q).resv = q.resv) : Kept s0 (s.onSluice f) :=
  kept_sluice h fun k => by rw [hf]; exact k.resv
theorem kept_onLog {f : Log → Log} (hf : ∀ q : Log, (f q).base = q.base) : Kept s0 (s.onLog f) := kept_log h (hf _)
theorem kept_onPins {f : Pins → Pins} : Kept s0 (s.onPins f) := kept_pins h
theorem kept_onProt {f : Prot → Prot} (hf : ∀ q : Prot, ((f q).win, (f q).dbgEn, (f q).testEn, (f q).imgAddr, (f q).imgLen, (f q).imgDigest)
    = (q.win, q.dbgEn, q.testEn, q.imgAddr, q.imgLen, q.imgDigest)) : Kept s0 (s.onProt f) := kept_prot h (hf _)
theorem kept_onScarf {f : Scarf → Scarf} : Kept s0 (s.onScarf f) := kept_prot h rfl
theorem kept_onPwr {f : Pwr → Pwr} (hf : ∀ q : Pwr, (f q).doms = q.doms) : Kept s0 (s.onPwr f) :=
  kept_pwr h fun k => by rw [hf]; exact k.doms
theorem kept_onBoot {f : Boot → Boot} (hf : ∀ b : Boot, (f b).access = b.access) : Kept s0 (s.onBoot f) :=
  kept_boot h fun k => by rw [hf]; exact k
theorem kept_onMiller {f : Miller → Miller} (hf : ∀ m : Miller, Map.wf 0 m.store = true → Map.wf 0 (f m).store = true) :
    Kept s0 (s.onMiller f) :=
  kept_miller h fun k => hf _ k.store
theorem kept_putExt {ws : List (Nat × Byte)} : Kept s0 (s.putExt ws) :=
  kept_mem h (fun k => Map.wf_setMany k.ext _) fun k => k.ports
theorem kept_putBay {b off : Nat} {bs : List Byte} {bad : Bool} : Kept s0 (s.putBay b off bs bad) :=
  kept_onBy h fun _ x => Map.wf_setMany x _
theorem kept_putOb {g off : Nat} {bs : List Byte} {bad : Bool} : Kept s0 (s.putOb g off bs bad) :=
  kept_onCo h fun _ x => Map.wf_setMany x _
theorem kept_fresh : Kept s0 s.fresh.2 := kept_time h

/-! ### Folds and choices -/

omit h in
theorem kept_foldl {β : Type} {f : State → β → State} (hf : ∀ s a, Kept s0 s → Kept s0 (f s a)) : ∀ (l : List β) {s : State}, Kept s0 s → Kept s0 (l.foldl f s)
  | [], _, h => h
  | a :: l, _, h => kept_foldl hf l (hf _ a h)
omit h in
theorem kept_foldl_fst {β γ : Type} {f : State × γ → β → State × γ} (hf : ∀ (s : State × γ) (a : β), Kept s0 s.1 → Kept s0 (f s a).1) :
    ∀ (l : List β) {s : State × γ}, Kept s0 s.1 → Kept s0 (l.foldl f s).1
  | [], _, h => h
  | a :: l, _, h => kept_foldl_fst hf l (hf _ a h)

end prims

/-- Whatever next state the outcome is, it is kept. -/
def KeptO (s0 : State) (o : Host.Outcome State Fault Refusal) : Prop := ∀ t, o = .next t → Kept s0 t
/-- The state of an optional answer is kept. -/
def KeptOpt (s0 : State) (o : Option State) : Prop := ∀ t, o = some t → Kept s0 t
def KeptOptF {α : Type} (s0 : State) (o : Option (State × α)) : Prop := ∀ t, o = some t → Kept s0 t.1

/-- A state named once: show it kept, then forget how it was computed. -/
theorem kept_cut {s0 a : State} {P : Prop} (ha : Kept s0 a) (hf : Kept s0 a → P) : P := hf ha
theorem kept_ite {s0 a b : State} {p : Prop} [Decidable p] (ha : Kept s0 a) (hb : Kept s0 b) : Kept s0 (if p then a else b) := by
  split
  · exact ha
  · exact hb
theorem keptO_ite {s0 : State} {a b : Host.Outcome State Fault Refusal} {p : Prop} [Decidable p] (ha : KeptO s0 a)
    (hb : KeptO s0 b) : KeptO s0 (if p then a else b) := by
  split
  · exact ha
  · exact hb

theorem keptO_next {s0 s : State} (h : Kept s0 s) : KeptO s0 (.next s) := fun _ e => by cases e; exact h
theorem keptO_idle {s0 s : State} (h : Kept s0 s) : KeptO s0 (idle s) := keptO_next h
theorem keptO_refused {s0 : State} {r : Refusal} : KeptO s0 (.refused r) := fun _ e => by cases e
theorem keptOpt_some {s0 s : State} (h : Kept s0 s) : KeptOpt s0 (some s) := fun _ e => by cases e; exact h
theorem keptOpt_map {α : Type} {s0 : State} {o : Option α} {f : α → State} (h : ∀ a, Kept s0 (f a)) : KeptOpt s0 (o.map f) := by
  cases o with
  | none => exact fun _ e => by cases e
  | some a => exact fun _ e => by cases e; exact h a
theorem keptOpt_bind {α : Type} {s0 : State} {o : Option α} {f : α → Option State} (hf : ∀ a, KeptOpt s0 (f a)) : KeptOpt s0 (o.bind f) := by
  cases o with
  | none => exact fun _ e => by cases e
  | some a => exact hf a
theorem keptOpt_findSome {β : Type} {s0 : State} {f : β → Option State} (hf : ∀ a, KeptOpt s0 (f a)) : ∀ {l : List β}, KeptOpt s0 (l.findSome? f)
  | [], _, e => by cases e
  | a :: l, t, e => by
    simp only [List.findSome?] at e
    split at e
    · cases e; exact hf a _ ‹_›
    · exact keptOpt_findSome hf t e
theorem keptOpt_none {s0 : State} : KeptOpt s0 none := fun _ e => by cases e
theorem keptOptF_some {α : Type} {s0 : State} {s : State × α} (h : Kept s0 s.1) : KeptOptF s0 (some s) := fun _ e => by cases e; exact h
theorem keptOptF_none {α : Type} {s0 : State} : KeptOptF (α := α) s0 none := fun _ e => by cases e

end Sys2Proof.Machine
end

