-- ==== Sys2Proof/Laws/KeptOps.lean ====
section
/-!
SUPPORT. `Kept` through the shared operations.
-/

namespace Sys2Proof.Machine

theorem kept_wakeDom {s0 s : State} {d : Nat} (hk : Kept s0 s) :
    Kept s0 (State.wakeDom s d) := by
  unfold State.wakeDom
  repeat' first
    | with_reducible assumption | (extract_lets +onlyGivenNames x; subst x) | with_reducible apply kept_onDom | with_reducible apply kept_ite

theorem kept_startLink {s0 s : State} {l : Nat} (hk : Kept s0 s) :
    Kept s0 (State.startLink s l) := by
  unfold State.startLink
  repeat' first
    | with_reducible assumption | with_reducible apply kept_onLink | with_reducible apply kept_ite

theorem kept_startLinks {s0 s : State} {g : Nat} (h : Kept s0 s) : Kept s0 (State.startLinks s g) := by
  unfold State.startLinks
  with_reducible apply kept_foldl
  · intro s a k
    with_reducible apply kept_startLink
    exact k
  · exact h

theorem kept_stir {s0 s : State} {d : Nat} (hk : Kept s0 s) :
    Kept s0 (State.stir s d) := by
  unfold State.stir
  repeat' first
    | with_reducible assumption | with_reducible apply kept_wakeDom | with_reducible apply kept_ite

theorem kept_wakeLadder {s0 s : State} {d : Nat} (hk : Kept s0 s) :
    Kept s0 (State.wakeLadder s d) := by
  unfold State.wakeLadder
  repeat' first
    | with_reducible assumption | (extract_lets +onlyGivenNames x; subst x) | with_reducible apply kept_wakeDom | with_reducible apply kept_ite

theorem kept_gated {s0 s : State} {d : Option Nat} {f : State → State} (hk : Kept s0 s) (hf : ∀ (x0 : State), Kept s0 x0 → Kept s0 (f x0)) :
    Kept s0 (State.gated s d f) := by
  unfold State.gated
  repeat' first
    | with_reducible assumption | with_reducible apply hf | with_reducible apply kept_ite | split

theorem kept_rootRestart {s0 s : State} (hk : Kept s0 s) :
    Kept s0 (State.rootRestart s) := by
  unfold State.rootRestart
  repeat' first
    | with_reducible assumption | (extract_lets +onlyGivenNames x; subst x) | with_reducible apply kept_ite | with_reducible apply kept_boot | exact id

theorem kept_holdAccess {s0 s : State} {c : Instr} (hk : Kept s0 s) (hc : c.wf = true) :
    Kept s0 (State.holdAccess s c) := by
  unfold State.holdAccess
  refine kept_ite (kept_rootRestart (kept_boot hk fun h a ha => ?_)) hk
  rcases List.mem_append.1 ha with ha | ha
  · exact h a ha
  · rw [List.mem_singleton.1 ha]
    exact hc

theorem kept_mgt {s0 s : State} {c : Instr} {d : Option Nat} {f : State → State} (hk : Kept s0 s) (hc : c.wf = true)
    (hf : ∀ (x0 : State), Kept s0 x0 → Kept s0 (f x0)) : Kept s0 (State.mgt s c d f) := by
  unfold State.mgt
  repeat' first
    | with_reducible assumption | (extract_lets +onlyGivenNames x; subst x) | with_reducible apply kept_onPins | with_reducible apply kept_gated
    | with_reducible apply kept_holdAccess | with_reducible apply kept_ite

theorem kept_startMiller {s0 s : State} {cause : Nat} (hk : Kept s0 s) :
    Kept s0 (State.startMiller s cause) := by
  unfold State.startMiller
  repeat' first
    | with_reducible assumption | (extract_lets +onlyGivenNames x; subst x) | with_reducible apply kept_wakeDom | with_reducible apply kept_ite
    | with_reducible apply kept_boot | exact id

theorem kept_wakeMiller {s0 s : State} (hk : Kept s0 s) :
    Kept s0 (State.wakeMiller s) := by
  unfold State.wakeMiller
  repeat' first
    | with_reducible assumption | (extract_lets +onlyGivenNames x; subst x) | with_reducible apply kept_startMiller | with_reducible apply kept_ite

theorem kept_raise {s0 s : State} {code : Nat} {unit : Nat} {args : List Nat} (hk : Kept s0 s) :
    Kept s0 (State.raise s code unit args) := by
  unfold State.raise
  repeat' first
    | with_reducible assumption | with_reducible apply kept_onLog | with_reducible apply kept_wakeMiller | with_reducible apply kept_ite
    | (with_reducible intro _; with_reducible rfl)

theorem kept_poisonUnits {s0 s : State} {b : Nat} {us : List Nat} (hk : Kept s0 s) : Kept s0 (s.poisonUnits b us) := by
  unfold State.poisonUnits
  exact kept_onBy hk fun _ h => h

theorem kept_poisonTgt {s0 s : State} {t : Tgt} (h : Kept s0 s) : Kept s0 (State.poisonTgt s t) := by
  cases t with
  | slot g k => exact kept_onSlot h
  | bay b off n => exact kept_onBy h fun _ k => k
  | ob g off n => exact kept_onCo h fun _ k => k
  | ext a n => exact kept_onPorts h
  | work n g ix k => exact kept_onInst h
  | chunk n c => exact h
  | resend l => exact kept_onLink h
  | keys n p => exact kept_onInst h

theorem kept_addFirst {s0 s : State} {l : Nat} (hk : Kept s0 s) :
    Kept s0 (State.addFirst s l) := by
  unfold State.addFirst
  repeat' first
    | with_reducible assumption | (extract_lets +onlyGivenNames x; subst x) | with_reducible apply kept_onPort | with_reducible apply kept_putExt
    | split

theorem kept_offer {s0 : State} {p : Nat} : ∀ {n : Nat} {s : State}, Kept s0 s → Kept s0 (State.offer p n s)
  | 0, _, h => h
  | n + 1, s, h => by
    unfold State.offer
    split
    · exact h
    · split
      · exact h
      · dsimp only
        split
        · exact h
        · exact kept_offer (kept_onPort h)

theorem kept_offerAll {s0 s : State} (hk : Kept s0 s) :
    Kept s0 (State.offerAll s) := by
  unfold State.offerAll
  repeat' first
    | with_reducible assumption | with_reducible apply kept_offer | with_reducible apply kept_foldl | with_reducible apply kept_ite
    | (with_reducible intro _ _ _; try beta_reduce)

theorem kept_queueReq {s0 s : State} {r : Req} (hk : Kept s0 s) :
    Kept s0 (State.queueReq s r) := by
  unfold State.queueReq
  repeat' first
    | with_reducible assumption
    | (extract_lets +onlyGivenNames x; refine kept_cut (s0 := s0) (a := x) ?_ ?_; subst x; rotate_left; (intro _; clear_value x); rotate_left)
    | (extract_lets +onlyGivenNames x; subst x) | with_reducible apply kept_onPort | with_reducible apply kept_wakeDom
    | with_reducible apply kept_offer | with_reducible apply kept_mem | dsimp only
    | (intro k; (try dsimp only); (repeat first | with_reducible apply Map.wf_set | with_reducible apply Map.wf_modify | with_reducible apply Map.wf_erase | with_reducible apply Map.wf_mapVals | with_reducible apply Map.wf_setMany | (with_reducible apply Map.wf_filter)); first | exact k.ext | exact k.ports | exact k.resv | exact k.pools | exact k.links | exact k.groups | exact k.ch | exact k.doms | exact k.store | exact k.ctx | exact k.insts)

theorem kept_queueWriteAt {s0 s : State} {seq : Nat} {d : Nat} {clsA : Bool} {why : Why} {a : Nat} {bs : List Byte} {bad : Bool} (hk : Kept s0 s) :
    Kept s0 (State.queueWriteAt s seq d clsA why a bs bad) := by
  unfold State.queueWriteAt
  repeat' first
    | with_reducible assumption
    | (extract_lets +onlyGivenNames x; refine kept_cut (s0 := s0) (a := x) ?_ ?_; subst x; rotate_left; (intro _; clear_value x); rotate_left)
    | (extract_lets +onlyGivenNames x; subst x) | with_reducible apply kept_putExt | with_reducible apply kept_queueReq
    | with_reducible apply kept_mem | dsimp only
    | (intro k; (try dsimp only); (repeat first | with_reducible apply Map.wf_set | with_reducible apply Map.wf_modify | with_reducible apply Map.wf_erase | with_reducible apply Map.wf_mapVals | with_reducible apply Map.wf_setMany | (with_reducible apply Map.wf_filter)); first | exact k.ext | exact k.ports | exact k.resv | exact k.pools | exact k.links | exact k.groups | exact k.ch | exact k.doms | exact k.store | exact k.ctx | exact k.insts)

theorem kept_queueWrite {s0 s : State} {d : Nat} {clsA : Bool} {why : Why} {a : Nat} {bs : List Byte} {bad : Bool} (hk : Kept s0 s) :
    Kept s0 (State.queueWrite s d clsA why a bs bad) := by
  unfold State.queueWrite
  repeat' first
    | with_reducible assumption | with_reducible apply kept_addFirst | with_reducible apply kept_queueWriteAt

theorem kept_queueRead {s0 s : State} {d : Nat} {clsA : Bool} {why : Why} {a : Nat} {size : Nat} {fill : Bool} {tgt : List Tgt} (hk : Kept s0 s) :
    Kept s0 (State.queueRead s d clsA why a size fill tgt) := by
  unfold State.queueRead
  repeat' first
    | with_reducible assumption | with_reducible apply kept_queueReq

theorem kept_logLost {s0 s : State} (hk : Kept s0 s) :
    Kept s0 (State.logLost s) := by
  unfold State.logLost
  repeat' first
    | with_reducible assumption | with_reducible apply kept_onLog | (with_reducible intro _; with_reducible rfl)

theorem kept_sendLog {s0 s : State} {n : Nat} {code : Nat} {bs : List Byte} (hk : Kept s0 s) :
    Kept s0 (State.sendLog s n code bs) := by
  unfold State.sendLog
  repeat' first
    | with_reducible assumption | (extract_lets +onlyGivenNames x; subst x) | with_reducible apply kept_queueWrite | with_reducible apply kept_logLost
    | with_reducible apply kept_ite

theorem kept_logErr {s0 s : State} {e : Err} (hk : Kept s0 s) :
    Kept s0 (State.logErr s e) := by
  unfold State.logErr
  repeat' first
    | with_reducible assumption | (extract_lets +onlyGivenNames x; subst x) | with_reducible apply kept_onLog | with_reducible apply kept_logLost
    | with_reducible apply kept_sendLog | with_reducible apply kept_ite | (with_reducible intro _; with_reducible rfl)

theorem kept_revoke {s0 s : State} {r : Nat} {cause : Nat} (hk : Kept s0 s) :
    Kept s0 (State.revoke s r cause) := by
  unfold State.revoke
  repeat' first
    | with_reducible assumption
    | (extract_lets +onlyGivenNames x; refine kept_cut (s0 := s0) (a := x) ?_ ?_; subst x; rotate_left; (intro _; clear_value x); rotate_left)
    | (extract_lets +onlyGivenNames x; subst x) | with_reducible apply kept_onInsts | with_reducible apply kept_onRv
    | with_reducible apply kept_onSluice | with_reducible apply kept_raise | with_reducible apply kept_ite
    | (with_reducible intro _; with_reducible rfl)

theorem kept_leavePwu {s0 s : State} {n : Nat} (hk : Kept s0 s) :
    Kept s0 (State.leavePwu s n) := by
  unfold State.leavePwu
  repeat' first
    | with_reducible assumption | with_reducible apply kept_onInst | with_reducible apply kept_onPwu | (with_reducible intro _; with_reducible rfl)

theorem kept_endFenced {s0 s : State} {scope : Nat} {cause : Nat} {i : Inst} (hk : Kept s0 s) :
    Kept s0 (State.endFenced s scope cause i) := by
  unfold State.endFenced
  repeat' first
    | with_reducible assumption
    | (extract_lets +onlyGivenNames x; refine kept_cut (s0 := s0) (a := x) ?_ ?_; subst x; rotate_left; (intro _; clear_value x); rotate_left)
    | (extract_lets +onlyGivenNames x; subst x) | with_reducible apply kept_onInst | with_reducible apply kept_poisonTgt
    | with_reducible apply kept_logErr | with_reducible apply kept_leavePwu | with_reducible apply kept_foldl | with_reducible apply kept_ite
    | (with_reducible intro _ _ _; try beta_reduce) | with_reducible apply kept_weir

theorem kept_setFence {s0 s : State} {scope : Nat} {index : Nat} {gen : Nat} {dom : Nat} (hk : Kept s0 s) :
    Kept s0 (State.setFence s scope index gen dom).1 := by
  unfold State.setFence
  repeat' first
    | with_reducible assumption | (extract_lets +onlyGivenNames x; subst x) | split | with_reducible apply kept_prot | dsimp only

theorem kept_noteFence {s0 s : State} {scope : Nat} {index : Nat} {gen : Nat} (hk : Kept s0 s) :
    Kept s0 (State.noteFence s scope index gen) := by
  unfold State.noteFence
  repeat' first
    | with_reducible assumption | (extract_lets +onlyGivenNames x; subst x) | split | with_reducible apply kept_prot | dsimp only

theorem kept_fenceDomCtxs {s0 s : State} {d : Nat} (h : Kept s0 s) : Kept s0 (State.fenceDomCtxs s d) := by
  unfold State.fenceDomCtxs
  with_reducible apply kept_foldl
  · intro s a k
    split
    · exact kept_prot k rfl
    · exact k
  · exact h

theorem kept_fence {s0 s : State} {scope index gen cause dom : Nat} (h : Kept s0 s) :
    Kept s0 (State.fence s scope index gen cause dom) := by
  unfold State.fence
  split
  · exact h
  · dsimp only
    with_reducible apply kept_foldl
    · intro s a k
      try dsimp only
      split
      · exact kept_revoke k
      · exact k
    · with_reducible apply kept_foldl
      · intro s a k
        exact kept_endFenced k
      · have h1 : ∀ {c u : Nat} {args : List Nat}, Kept s0 (((State.setFence s scope index gen dom).1.noteFence (State.setFence s scope index gen dom).2.1
          (State.setFence s scope index gen dom).2.2 gen).raise c u args) :=
          fun {_ _ _} => kept_raise (kept_noteFence (kept_setFence h))
        have h2 : ∀ {q : State} {p : Prop} [Decidable p] {x : Nat}, Kept s0 q → Kept s0 (if p then q.fenceDomCtxs x else q) := by
          intro q p _ x k
          split
          · exact kept_fenceDomCtxs k
          · exact k
        split
        · exact kept_onLink (h2 h1)
        · exact h2 h1

theorem kept_report {s0 s : State} {e : Err} {dom : Nat} (hk : Kept s0 s) :
    Kept s0 (State.report s e dom) := by
  unfold State.report
  repeat' first
    | with_reducible assumption
    | (extract_lets +onlyGivenNames x; refine kept_cut (s0 := s0) (a := x) ?_ ?_; subst x; rotate_left; (intro _; clear_value x); rotate_left)
    | (extract_lets +onlyGivenNames x; subst x) | with_reducible apply kept_logErr | with_reducible apply kept_fence | with_reducible apply kept_ite

theorem kept_instFault {s0 s : State} {n : Nat} {e : Err} (hk : Kept s0 s) :
    Kept s0 (State.instFault s n e) := by
  unfold State.instFault
  repeat' first
    | with_reducible assumption
    | (extract_lets +onlyGivenNames x; refine kept_cut (s0 := s0) (a := x) ?_ ?_; subst x; rotate_left; (intro _; clear_value x); rotate_left)
    | with_reducible apply kept_onInst | with_reducible apply kept_report | with_reducible apply kept_ite | split

theorem kept_denied {s0 s : State} {n : Nat} {r : Right} {a : Nat} {acc : Access} (hk : Kept s0 s) :
    Kept s0 (State.denied s n r a acc) := by
  unfold State.denied
  repeat' first
    | with_reducible assumption | with_reducible apply kept_instFault | with_reducible apply kept_ite | split

theorem kept_portDenied {s0 s : State} {n : Nat} {p : Nat} {a : Nat} {rd : Bool} (hk : Kept s0 s) :
    Kept s0 (State.portDenied s n p a rd) := by
  unfold State.portDenied
  repeat' first
    | with_reducible assumption | with_reducible apply kept_instFault | with_reducible apply kept_ite

theorem kept_readLine {s0 s : State} {n : Nat} {gran : Bool} {tgt : List Tgt} {a : Nat} (hk : Kept s0 s) :
    Kept s0 (State.readLine s n gran tgt a).1 := by
  unfold State.readLine
  repeat' first
    | with_reducible assumption | (extract_lets +onlyGivenNames x; subst x) | with_reducible apply kept_onPort | with_reducible apply kept_queueRead
    | with_reducible apply kept_denied | with_reducible apply kept_portDenied | split

theorem kept_takeReads {s0 s t : State} (hk : Kept s0 s) :
    Kept s0 (State.takeReads s t) := by
  unfold State.takeReads
  repeat' first
    | with_reducible assumption
    | (extract_lets +onlyGivenNames x; refine kept_cut (s0 := s0) (a := x) ?_ ?_; subst x; rotate_left; (intro _; clear_value x); rotate_left)
    | (extract_lets +onlyGivenNames x; subst x) | with_reducible apply kept_onPort | with_reducible apply kept_queueReq
    | with_reducible apply kept_foldl | (with_reducible intro _ _ _; try beta_reduce)

theorem kept_readExt {s0 s : State} {n : Nat} {gran : Bool} {tgt : List Tgt} {a : Nat} {len : Nat} (hk : Kept s0 s) :
    Kept s0 (State.readExt s n gran tgt a len).1 := by
  unfold State.readExt
  repeat' first
    | with_reducible assumption
    | (extract_lets +onlyGivenNames x; refine kept_cut (s0 := s0) (a := x.1) ?_ ?_; subst x; rotate_left; (intro _; clear_value x); rotate_left)
    | (extract_lets +onlyGivenNames x; subst x) | with_reducible apply kept_fresh | with_reducible apply kept_readLine
    | with_reducible apply kept_foldl_fst | split | (with_reducible intro _ _ _; try beta_reduce)

theorem kept_writeExtFor {s0 s : State} {w : Why} {n : Nat} {a : Nat} {bs : List Byte} {bad : Bool} (hk : Kept s0 s) :
    Kept s0 (State.writeExtFor s w n a bs bad) := by
  unfold State.writeExtFor
  repeat' first
    | with_reducible assumption | (extract_lets +onlyGivenNames x; subst x) | with_reducible apply kept_queueWrite | with_reducible apply kept_denied
    | with_reducible apply kept_portDenied | with_reducible apply kept_foldl | with_reducible apply kept_ite | split
    | (with_reducible intro _ _ _; try beta_reduce)

theorem kept_writeExt {s0 s : State} {n : Nat} {a : Nat} {bs : List Byte} {bad : Bool} (hk : Kept s0 s) :
    Kept s0 (State.writeExt s n a bs bad) := by
  unfold State.writeExt
  repeat' first
    | with_reducible assumption | with_reducible apply kept_writeExtFor

theorem kept_markPoison {s0 s : State} {n : Nat} {bad : Bool} (hk : Kept s0 s) :
    Kept s0 (State.markPoison s n bad) := by
  unfold State.markPoison
  repeat' first
    | with_reducible assumption | with_reducible apply kept_onInst | with_reducible apply kept_ite

theorem kept_writeRec {s0 s : State} {c : Nat} {clsA : Bool} {r : Rec} (hk : Kept s0 s) :
    Kept s0 (State.writeRec s c clsA r) := by
  unfold State.writeRec
  repeat' first
    | exact kc.same rfl | with_reducible assumption
    | (extract_lets +onlyGivenNames x; refine kept_cut (s0 := s0) (a := x) ?_ ?_; subst x; rotate_left; (intro _; clear_value x); rotate_left)
    | (extract_lets +onlyGivenNames x; subst x) | with_reducible refine kept_onCx ?_ fun kc => ?_ | with_reducible apply kept_queueWrite
    | with_reducible apply kept_logErr | with_reducible apply kept_report | with_reducible apply kept_ite | split

theorem kept_obFault {s0 s : State} {n : Nat} {g : Nat} {b : Nat} (hk : Kept s0 s) :
    Kept s0 (State.obFault s n g b) := by
  unfold State.obFault
  repeat' first
    | with_reducible assumption | with_reducible apply kept_instFault | split

theorem kept_fetch {s0 s : State} {n : Nat} {g : Nat} {gran : Bool} {tgt : List Tgt} {sp : List Span} (hk : Kept s0 s) :
    Kept s0 (State.fetch s n g gran tgt sp).1 := by
  unfold State.fetch
  repeat' first
    | with_reducible assumption
    | (extract_lets +onlyGivenNames x; refine kept_cut (s0 := s0) (a := x) ?_ ?_; subst x; rotate_left; (intro _; clear_value x); rotate_left)
    | (extract_lets +onlyGivenNames x; refine kept_cut (s0 := s0) (a := x.1) ?_ ?_; subst x; rotate_left; (intro _; clear_value x); rotate_left)
    | (extract_lets +onlyGivenNames x; subst x) | with_reducible apply kept_onInst | with_reducible apply kept_fresh
    | with_reducible apply kept_readLine | with_reducible apply kept_obFault | with_reducible apply kept_foldl_fst | with_reducible apply kept_ite
    | split | (with_reducible intro _ _ _; try beta_reduce)

theorem kept_t2Event {s0 s : State} {n : Nat} {seen : Bool} (hk : Kept s0 s) :
    Kept s0 (State.t2Event s n seen) := by
  unfold State.t2Event
  repeat' first
    | with_reducible assumption | with_reducible apply kept_onInst | with_reducible apply kept_raise | with_reducible apply kept_ite | split

theorem kept_store {s0 s : State} {n : Nat} {g : Nat} {loc : Nat} {a : Nat} {bs : List Byte} {bad : Bool} (hk : Kept s0 s) :
    Kept s0 (State.store s n g loc a bs bad) := by
  unfold State.store
  repeat' first
    | with_reducible assumption
    | (extract_lets +onlyGivenNames x; refine kept_cut (s0 := s0) (a := x) ?_ ?_; subst x; rotate_left; (intro _; clear_value x); rotate_left)
    | (extract_lets +onlyGivenNames x; subst x) | with_reducible apply kept_onCo | with_reducible apply kept_putBay | with_reducible apply kept_putOb
    | with_reducible apply kept_writeExt | with_reducible apply kept_markPoison | split | ((with_reducible intro _ k); exact k)

theorem kept_storeRow {s0 s : State} {n : Nat} {g : Nat} {d : Desc} {x : Coord} {bs : List Block} {bad : Bool} (hk : Kept s0 s) :
    Kept s0 (State.storeRow s n g d x bs bad) := by
  unfold State.storeRow
  repeat' first
    | with_reducible assumption
    | (extract_lets +onlyGivenNames x; refine kept_cut (s0 := s0) (a := x) ?_ ?_; subst x; rotate_left; (intro _; clear_value x); rotate_left)
    | (extract_lets +onlyGivenNames x; subst x) | with_reducible apply kept_store | with_reducible apply kept_foldl | with_reducible apply kept_ite
    | (with_reducible intro _ _ _; try beta_reduce)

theorem kept_count {s0 s : State} {n : Nat} {strm : Nat} {k : Counts} (hk : Kept s0 s) :
    Kept s0 (State.count s n strm k) := by
  unfold State.count
  repeat' first
    | with_reducible exact kc.onStream _ _ | with_reducible assumption
    | (extract_lets +onlyGivenNames x; refine kept_cut (s0 := s0) (a := x) ?_ ?_; subst x; rotate_left; (intro _; clear_value x); rotate_left)
    | with_reducible refine kept_onCx ?_ fun kc => ?_ | with_reducible apply kept_onInst | with_reducible apply kept_ite | split

theorem kept_putSlot {s0 s : State} {g : Nat} {k : Nat} {r : Slot × Nat} (hk : Kept s0 s) :
    Kept s0 (State.putSlot s g k r) := by
  unfold State.putSlot
  repeat' first
    | with_reducible assumption | with_reducible apply kept_onBy | with_reducible apply kept_onSlot | split | ((with_reducible intro _ k); exact k)

theorem kept_slotFault {s0 s : State} {n : Nat} {g : Nat} {k : Nat} (hk : Kept s0 s) :
    Kept s0 (State.slotFault s n g k) := by
  unfold State.slotFault
  repeat' first
    | with_reducible assumption | with_reducible apply kept_instFault | split

end Sys2Proof.Machine
end

