-- ==== Sys2Proof/Laws/KeptIssue.lean ====
section
/-!
SUPPORT. `Kept` through issue and the memory ports.
-/

namespace Sys2Proof.Machine

theorem kept_idle {s0 s : State} (hk : Kept s0 s) :
    KeptO s0 (idle s) := by
  unfold idle
  repeat' first
    | with_reducible assumption | with_reducible apply keptO_next

theorem kept_stopRec {s0 s : State} {c : Nat} {kind : Nat} {code : Nat} {opc : Nat} {sp : Nat × Bool} (hk : Kept s0 s) :
    Kept s0 (State.stopRec s c kind code opc sp) := by
  unfold State.stopRec
  repeat' first
    | exact (kc.setErr _ _).same rfl | with_reducible assumption
    | (extract_lets +onlyGivenNames x; refine kept_cut (s0 := s0) (a := x) ?_ ?_; subst x; rotate_left; (intro _; clear_value x); rotate_left)
    | (extract_lets +onlyGivenNames x; subst x) | with_reducible refine kept_onCx ?_ fun kc => ?_ | with_reducible apply kept_writeRec

theorem kept_refuseScalar {s0 s : State} {c : Nat} {k : Nat} {code : Nat} {opc : Nat} (hk : Kept s0 s) :
    Kept s0 (State.refuseScalar s c k code opc) := by
  unfold State.refuseScalar
  repeat' first
    | with_reducible exact kc.adv _ | exact kc.same rfl | with_reducible assumption
    | (extract_lets +onlyGivenNames x; refine kept_cut (s0 := s0) (a := x) ?_ ?_; subst x; rotate_left; (intro _; clear_value x); rotate_left)
    | (extract_lets +onlyGivenNames x; subst x) | with_reducible refine kept_onCx ?_ fun kc => ?_ | with_reducible apply kept_raise
    | with_reducible apply kept_stopRec | with_reducible apply kept_ite

theorem kept_faultScalar {s0 s : State} {c : Nat} {opc : Nat} {sp : Nat × Bool} {e : Err} (hk : Kept s0 s) :
    Kept s0 (State.faultScalar s c opc sp e) := by
  unfold State.faultScalar
  repeat' first
    | with_reducible assumption
    | (extract_lets +onlyGivenNames x; refine kept_cut (s0 := s0) (a := x) ?_ ?_; subst x; rotate_left; (intro _; clear_value x); rotate_left)
    | with_reducible apply kept_report | with_reducible apply kept_stopRec

theorem kept_fetchCode {s0 s : State} {c : Nat} {k : Nat} (hk : Kept s0 s) :
    KeptOpt s0 (State.fetchCode s c k) := by
  unfold State.fetchCode
  repeat' first
    | exact kc.same rfl | with_reducible assumption | (extract_lets +onlyGivenNames x; subst x) | with_reducible refine kept_onCx ?_ fun kc => ?_
    | with_reducible apply kept_onPort | with_reducible apply kept_queueRead | with_reducible apply kept_faultScalar
    | with_reducible apply keptOpt_some | with_reducible apply keptOpt_none | split

theorem kept_ctxShort {s0 s : State} {op : Nat} {c : Nat} {w : W32} {f : State → Out} (hk : Kept s0 s) (hf : ∀ (x0 : State), Kept s0 x0 → KeptO s0 (f x0)) :
    KeptO s0 (ctxShort op c w s f) := by
  unfold ctxShort
  repeat' first
    | exact kc.same rfl | with_reducible assumption | (extract_lets +onlyGivenNames x; subst x) | with_reducible apply hf
    | with_reducible refine kept_onCx ?_ fun kc => ?_ | with_reducible apply kept_idle | with_reducible apply kept_refuseScalar
    | with_reducible apply keptO_ite | with_reducible apply keptO_next | with_reducible apply keptO_refused
    | refine (kept_fetchCode ?_) _ ‹State.fetchCode _ _ _ = some _› | split

theorem kept_ctxRegs {s0 s : State} {op : Nat} {c : Nat} {w : W32} {f : Regs → Regs} (hk : Kept s0 s) (hf : Regs.Keeps f) :
    KeptO s0 (ctxRegs op c w s f) := by
  unfold ctxRegs
  refine kept_ctxShort hk fun s1 k1 => keptO_next (kept_onCx k1 fun kx => ?_)
  exact Ctx.canon.adv (x := { s1.cx c with s := (f ⟨(s1.cx c).s, (s1.cx c).p⟩).s, p := (f ⟨(s1.cx c).s, (s1.cx c).p⟩).p })
    { kx with s := (hf _ kx.s kx.p).1, p := (hf _ kx.s kx.p).2 } 1

theorem kept_keepRec {s0 s : State} {no : Nat} {b : List Byte} (hk : Kept s0 s) :
    Kept s0 (State.keepRec s no b) := by
  unfold State.keepRec
  repeat' first
    | with_reducible assumption | with_reducible apply kept_onPwu | (with_reducible intro _; with_reducible rfl)

theorem kept_scalarLoad {s0 s : State} {c : Nat} {opc : Nat} {a : Nat} {len : Nat} {op : ScalarOp} {done : State → State} (hk : Kept s0 s) (hdone : ∀ (x0 : State), Kept s0 x0 → Kept s0 (done x0)) :
    Kept s0 (State.scalarLoad s c opc a len op done) := by
  unfold State.scalarLoad
  repeat' first
    | with_reducible exact kc.adv _ | exact kc.same rfl | with_reducible assumption
    | (extract_lets +onlyGivenNames x; refine kept_cut (s0 := s0) (a := x) ?_ ?_; subst x; rotate_left; (intro _; clear_value x); rotate_left)
    | (extract_lets +onlyGivenNames x; subst x) | with_reducible apply hdone | with_reducible refine kept_onCx ?_ fun kc => ?_
    | with_reducible apply kept_onPort | with_reducible apply kept_queueRead | with_reducible apply kept_faultScalar | with_reducible apply kept_foldl
    | with_reducible apply kept_ite | split | (with_reducible intro _ _ _; try beta_reduce)

theorem kept_scalarStore {s0 s : State} {c : Nat} {opc : Nat} {a : Nat} {bs : List Byte} (hk : Kept s0 s) :
    Kept s0 (State.scalarStore s c opc a bs) := by
  unfold State.scalarStore
  repeat' first
    | with_reducible exact kc.adv _ | exact kc.same rfl | with_reducible assumption
    | (extract_lets +onlyGivenNames x; refine kept_cut (s0 := s0) (a := x) ?_ ?_; subst x; rotate_left; (intro _; clear_value x); rotate_left)
    | (extract_lets +onlyGivenNames x; subst x) | with_reducible refine kept_onCx ?_ fun kc => ?_ | with_reducible apply kept_queueWrite
    | with_reducible apply kept_faultScalar | with_reducible apply kept_ite

theorem kept_recordReturn {s0 s : State} {c : Nat} {no : Nat} {a : Nat} {bad : Option (Nat × Nat)} (hk : Kept s0 s) :
    Kept s0 (State.recordReturn s c no a bad) := by
  unfold State.recordReturn
  repeat' first
    | exact kc.same rfl | with_reducible assumption | with_reducible refine kept_onCx ?_ fun kc => ?_ | with_reducible apply kept_keepRec | split

theorem kept_scalarReturn {s0 s : State} {c : Nat} {bad : Option (Nat × Nat)} (hk : Kept s0 s) :
    Kept s0 (State.scalarReturn s c bad) := by
  unfold State.scalarReturn
  repeat' first
    | exact kc.same rfl | with_reducible exact kc.loaded _ _ | with_reducible assumption
    | (extract_lets +onlyGivenNames x; refine kept_cut (s0 := s0) (a := x) ?_ ?_; subst x; rotate_left; (intro _; clear_value x); rotate_left)
    | (extract_lets +onlyGivenNames x; subst x) | with_reducible refine kept_onCx ?_ fun kc => ?_ | with_reducible apply kept_stir
    | with_reducible apply kept_stopRec | with_reducible apply kept_faultScalar | with_reducible apply kept_recordReturn
    | with_reducible apply kept_ite | split

theorem kept_bump {s0 s : State} {c : Nat} {w : Long} (hk : Kept s0 s) :
    Kept s0 (State.bump s c w) := by
  unfold State.bump
  repeat' first
    | with_reducible exact kc.wev _ _ | with_reducible assumption | with_reducible refine kept_onCx ?_ fun kc => ?_ | with_reducible apply kept_stir
    | with_reducible apply kept_ite

theorem kept_refuseTensor {s0 s : State} {c : Nat} {w : Long} {code : Nat} {cls : Nat} {seqid : Nat} (hk : Kept s0 s) :
    Kept s0 (State.refuseTensor s c w code cls seqid) := by
  unfold State.refuseTensor
  repeat' first
    | exact (kc.adv _).setErr _ _ | with_reducible assumption
    | (extract_lets +onlyGivenNames x; refine kept_cut (s0 := s0) (a := x) ?_ ?_; subst x; rotate_left; (intro _; clear_value x); rotate_left)
    | (extract_lets +onlyGivenNames x; subst x) | with_reducible refine kept_onCx ?_ fun kc => ?_ | with_reducible apply kept_raise
    | with_reducible apply kept_writeRec | with_reducible apply kept_bump | with_reducible apply kept_ite

theorem kept_retire {s0 s : State} {c : Nat} {w : Long} {cls : Nat} {takes : Bool} {seqid : Nat} (hk : Kept s0 s) :
    Kept s0 (State.retire s c w cls takes seqid) := by
  unfold State.retire
  repeat' first
    | exact (kc.adv _).same rfl | with_reducible assumption
    | (extract_lets +onlyGivenNames x; refine kept_cut (s0 := s0) (a := x) ?_ ?_; subst x; rotate_left; (intro _; clear_value x); rotate_left)
    | (extract_lets +onlyGivenNames x; subst x) | with_reducible refine kept_onCx ?_ fun kc => ?_ | with_reducible apply kept_writeRec
    | with_reducible apply kept_bump | with_reducible apply kept_ite | split

theorem kept_openWindow {s0 s : State} {c : Nat} (hk : Kept s0 s) :
    Kept s0 (State.openWindow s c) := by
  unfold State.openWindow
  repeat' first
    | with_reducible assumption | with_reducible apply kept_onRv | with_reducible apply kept_ite | split

theorem kept_tellSluice {s0 s : State} {c : Nat} (hk : Kept s0 s) :
    Kept s0 (State.tellSluice s c) := by
  unfold State.tellSluice
  repeat' first
    | with_reducible assumption | with_reducible apply kept_onSluice | (with_reducible intro _; with_reducible rfl)

theorem kept_hearHopper {s0 s : State} (hk : Kept s0 s) :
    Kept s0 (State.hearHopper s) := by
  unfold State.hearHopper
  repeat' first
    | with_reducible assumption | with_reducible apply kept_onSluice | with_reducible apply kept_openWindow | with_reducible apply kept_foldl
    | (with_reducible intro _; with_reducible rfl)

theorem kept_shortLink {s0 s : State} {l : Nat} (hk : Kept s0 s) :
    Kept s0 (State.shortLink s l) := by
  unfold State.shortLink
  repeat' first
    | with_reducible assumption | (extract_lets +onlyGivenNames x; subst x) | with_reducible apply kept_raise | with_reducible apply kept_ite

theorem kept_row_TRow_plain {s0 : State} {t : State} {i : Inst} {opc : Nat} {effect : State → Inst → State} (hk : Kept s0 t) (heffect : ∀ (x0 : State) (x1 : Inst), Kept s0 x0 → Kept s0 (effect x0 x1)) :
    Kept s0 ((TRow.plain opc effect).effect t i) := by
  unfold TRow.plain
  repeat' first
    | with_reducible assumption | with_reducible apply heffect

theorem kept_accept {s0 s : State} {i : Inst} {takes : Bool} (h : Kept s0 s) : Kept s0 (State.accept s i takes) := by
  unfold State.accept
  extract_lets s1
  refine kept_cut (s0 := s0) (a := s1) (kept_onCx h fun kx => ?_) ?_
  · exact (kx.adv _).same rfl
  intro k
  clear_value s1
  refine k.trans ⟨rfl, rfl, rfl, fun c => { c with insts := ?_ }, id⟩
  dsimp only
  exact Map.wf_set c.insts _ _

theorem kept_takeOn {s0 s : State} {r : TRow} {i : Inst} {zero : Bool} (hk : Kept s0 s) (hr : ∀ t i, Kept s0 t → Kept s0 (r.effect t i)) :
    Kept s0 (State.takeOn s r i zero) := by
  unfold State.takeOn
  repeat' first
    | with_reducible assumption | with_reducible apply hr | with_reducible apply kept_retire | with_reducible apply kept_accept
    | with_reducible apply kept_ite

theorem kept_countCost {s0 s : State} {i : Inst} {k : Nat} (hk : Kept s0 s) :
    Kept s0 (State.countCost s i k).1 := by
  unfold State.countCost
  repeat' first
    | with_reducible assumption
    | (extract_lets +onlyGivenNames x; refine kept_cut (s0 := s0) (a := x) ?_ ?_; subst x; rotate_left; (intro _; clear_value x); rotate_left)
    | with_reducible apply kept_onRv

theorem kept_sluiceDecide {s0 s : State} {r : TRow} {i : Inst} (hk : Kept s0 s) (hr : ∀ t i, Kept s0 t → Kept s0 (r.effect t i)) :
    Kept s0 (State.sluiceDecide s r i) := by
  unfold State.sluiceDecide
  repeat' first
    | exact kc.same rfl | with_reducible assumption
    | (extract_lets +onlyGivenNames x; refine kept_cut (s0 := s0) (a := x) ?_ ?_; subst x; rotate_left; (intro _; clear_value x); rotate_left)
    | (extract_lets +onlyGivenNames x; refine kept_cut (s0 := s0) (a := x.1) ?_ ?_; subst x; rotate_left; (intro _; clear_value x); rotate_left)
    | (extract_lets +onlyGivenNames x; subst x) | with_reducible refine kept_onCx ?_ fun kc => ?_ | with_reducible apply kept_onRv
    | with_reducible apply kept_onSluice | with_reducible apply kept_refuseTensor | with_reducible apply kept_openWindow
    | with_reducible apply kept_takeOn | with_reducible apply kept_countCost | with_reducible apply kept_ite | split
    | (with_reducible intro _; with_reducible rfl)

theorem kept_readRec {s0 s : State} {c : Nat} {i : Inst} {no : Nat} (hk : Kept s0 s) :
    Kept s0 (State.readRec s c i no) := by
  unfold State.readRec
  repeat' first
    | exact kc.same rfl | with_reducible assumption | (extract_lets +onlyGivenNames x; subst x) | with_reducible refine kept_onCx ?_ fun kc => ?_
    | with_reducible apply kept_queueRead

theorem kept_issueTensor {s0 s : State} {r : TRow} {c : Nat} {w : Long} (h : Kept s0 s)
    (hr : ∀ t i, Kept s0 t → Kept s0 (r.effect t i)) : KeptO s0 (issueTensor r c w s) := by
  have fin : ∀ {i}, KeptO s0 (issueTensor.finish r c s i) := by
    intro i
    unfold issueTensor.finish
    split
    · with_reducible apply keptO_next
      refine kept_onCx ?_ fun kc => kc.same rfl
      with_reducible apply kept_foldl
      · with_reducible intro _ _ _
        with_reducible apply kept_wakeDom
        with_reducible assumption
      · exact h
    · split
      · exact keptO_next (kept_onCx h fun kc => kc.same rfl)
      · exact keptO_next (kept_sluiceDecide h hr)
  unfold issueTensor
  refine keptO_ite keptO_refused (keptO_ite (keptO_idle h) (keptO_ite (keptO_next (kept_onCx h fun kc => kc.same rfl)) ?_))
  split
  · exact keptO_next (kept_fetchCode h _ ‹_›)
  refine keptO_ite (keptO_idle h) ?_
  extract_lets +onlyGivenNames x i0
  clear_value i0
  refine keptO_ite ?_ (keptO_ite (keptO_next (kept_refuseTensor h)) (keptO_ite (keptO_next (kept_onCx h fun kc => kc.same rfl)) ?_))
  · split
    · exact keptO_next (kept_readRec h)
    · exact keptO_next (kept_retire h)
  split
  · exact keptO_next (kept_readRec h)
  split
  · extract_lets +onlyGivenNames a ap i acc
    refine keptO_ite ?_ ?_
    · split
      · exact keptO_next (kept_refuseTensor h)
      · extract_lets +onlyGivenNames named
        exact keptO_next (kept_onInst (kept_denied (kept_accept h)))
    · extract_lets +onlyGivenNames codes
      clear_value codes
      split
      · exact keptO_next (kept_refuseTensor h)
      · exact fin
  · extract_lets +onlyGivenNames i codes
    clear_value codes
    split
    · exact keptO_next (kept_refuseTensor h)
    · exact fin

theorem kept_precTest {s0 s : State} {c : Nat} {strm : Nat} (hk : Kept s0 s) :
    Kept s0 (State.precTest s c strm) := by
  unfold State.precTest
  repeat' first
    | with_reducible exact kc.onStream _ _ | with_reducible assumption | (extract_lets +onlyGivenNames x; subst x)
    | with_reducible refine kept_onCx ?_ fun kc => ?_ | with_reducible apply kept_raise | with_reducible apply kept_ite

theorem kept_freeReleased {s0 s : State} (hk : Kept s0 s) :
    Kept s0 (State.freeReleased s) := by
  unfold State.freeReleased
  repeat' first
    | with_reducible assumption | (extract_lets +onlyGivenNames x; subst x) | with_reducible apply kept_onRv | with_reducible apply kept_foldl
    | with_reducible apply kept_ite | (with_reducible intro _ _ _; try beta_reduce)

theorem kept_finishInst {s0 s : State} {n : Nat} (hk : Kept s0 s) :
    Kept s0 (State.finishInst s n) := by
  unfold State.finishInst
  repeat' first
    | with_reducible exact kc.setErr _ _ | exact kc.same rfl | with_reducible assumption
    | (extract_lets +onlyGivenNames x; refine kept_cut (s0 := s0) (a := x) ?_ ?_; subst x; rotate_left; (intro _; clear_value x); rotate_left)
    | (extract_lets +onlyGivenNames x; subst x) | with_reducible refine kept_onCx ?_ fun kc => ?_ | with_reducible apply kept_onRv
    | with_reducible apply kept_onSluice | with_reducible apply kept_raise | with_reducible apply kept_instFault | with_reducible apply kept_writeRec
    | with_reducible apply kept_bump | with_reducible apply kept_precTest | with_reducible apply kept_freeReleased | with_reducible apply kept_foldl
    | with_reducible apply kept_ite | split | (with_reducible intro _; with_reducible rfl) | (with_reducible intro _ _ _; try beta_reduce)
    | with_reducible apply kept_insts
    | (intro k; (try dsimp only); (repeat first | with_reducible apply Map.wf_set | with_reducible apply Map.wf_modify | with_reducible apply Map.wf_erase | with_reducible apply Map.wf_mapVals | with_reducible apply Map.wf_setMany | (with_reducible apply Map.wf_filter)); first | exact k.ext | exact k.ports | exact k.resv | exact k.pools | exact k.links | exact k.groups | exact k.ch | exact k.doms | exact k.store | exact k.ctx | exact k.insts)

theorem kept_memError {s0 s : State} {n : Nat} {p : Nat} {a : Nat} (hk : Kept s0 s) :
    Kept s0 (State.memError s n p a) := by
  unfold State.memError
  repeat' first
    | with_reducible assumption | with_reducible apply kept_onInst

theorem kept_granFill {s0 s : State} {a : Nat} (hk : Kept s0 s) : Kept s0 (State.granFill s a) := by
  unfold State.granFill
  extract_lets ls put f
  refine kept_ite (kept_mem hk (fun k => k.ext) fun k => k.ports) ?_
  have hf : Kept s0 f.2 := kept_fresh hk
  exact kept_mem (kept_mem hf (fun k => k.ext) fun k => k.ports) (fun k => k.ext) fun k => k.ports

theorem kept_withhold {s0 s : State} {n : Nat} {c : Nat} (hk : Kept s0 s) :
    Kept s0 (State.withhold s n c) := by
  unfold State.withhold
  repeat' first
    | with_reducible assumption | (extract_lets +onlyGivenNames x; subst x) | with_reducible apply kept_onInst | with_reducible apply kept_instFault

theorem kept_tableBack {s0 s : State} {n : Nat} {a : Nat} {code : Nat} (hk : Kept s0 s) :
    Kept s0 (State.tableBack s n a code) := by
  unfold State.tableBack
  repeat' first
    | with_reducible assumption | with_reducible apply kept_onInst

theorem kept_completeRead {s0 s : State} {r : Req} {bad : Option Nat} (hk : Kept s0 s) :
    Kept s0 (State.completeRead s r bad) := by
  unfold State.completeRead
  repeat' first
    | exact kc.same rfl | with_reducible assumption
    | (extract_lets +onlyGivenNames x; refine kept_cut (s0 := s0) (a := x) ?_ ?_; subst x; rotate_left; (intro _; clear_value x); rotate_left)
    | (extract_lets +onlyGivenNames x; subst x) | with_reducible refine kept_onCx ?_ fun kc => ?_ | with_reducible apply kept_onPort
    | with_reducible apply kept_poisonTgt | with_reducible apply kept_logErr | with_reducible apply kept_portDenied
    | with_reducible apply kept_markPoison | with_reducible apply kept_scalarReturn | with_reducible apply kept_memError
    | with_reducible apply kept_granFill | with_reducible apply kept_withhold | with_reducible apply kept_tableBack | with_reducible apply kept_foldl
    | with_reducible apply kept_ite | split | (with_reducible intro _ _ _; try beta_reduce) | with_reducible apply kept_prot | dsimp only

theorem kept_unwrite {s0 s : State} {r : Req} (hk : Kept s0 s) :
    Kept s0 (State.unwrite s r) := by
  unfold State.unwrite
  repeat' first
    | with_reducible assumption | (extract_lets +onlyGivenNames x; subst x) | with_reducible apply kept_onPort | with_reducible apply kept_putExt
    | with_reducible apply kept_foldl | split | (with_reducible intro _ _ _; try beta_reduce)

theorem kept_pulseCmpl {s0 s : State} {k : Nat} (hk : Kept s0 s) :
    Kept s0 (State.pulseCmpl s k) := by
  unfold State.pulseCmpl
  repeat' first
    | with_reducible assumption | with_reducible apply kept_onPins | with_reducible apply kept_ite

theorem kept_pulseErr {s0 s : State} (hk : Kept s0 s) :
    Kept s0 (State.pulseErr s) := by
  unfold State.pulseErr
  repeat' first
    | with_reducible assumption | with_reducible apply kept_onPins | with_reducible apply kept_ite

theorem kept_completeWrite {s0 s : State} {r : Req} {bad : Option Nat} (hk : Kept s0 s) :
    Kept s0 (State.completeWrite s r bad) := by
  unfold State.completeWrite
  repeat' first
    | with_reducible assumption
    | (extract_lets +onlyGivenNames x; refine kept_cut (s0 := s0) (a := x) ?_ ?_; subst x; rotate_left; (intro _; clear_value x); rotate_left)
    | (extract_lets +onlyGivenNames x; subst x) | with_reducible apply kept_raise | with_reducible apply kept_logLost
    | with_reducible apply kept_logErr | with_reducible apply kept_portDenied | with_reducible apply kept_scalarReturn
    | with_reducible apply kept_memError | with_reducible apply kept_unwrite | with_reducible apply kept_pulseCmpl
    | with_reducible apply kept_pulseErr | with_reducible apply kept_ite | split

theorem kept_badChunk {s0 s : State} {w : Why} (hk : Kept s0 s) :
    Kept s0 (State.badChunk s w) := by
  unfold State.badChunk
  repeat' first
    | with_reducible assumption | with_reducible apply kept_onInst | split

theorem kept_dropTile {s0 s : State} {w : Why} {tile : Nat} (hk : Kept s0 s) :
    Kept s0 (State.dropTile s w tile) := by
  unfold State.dropTile
  repeat' first
    | with_reducible assumption | (extract_lets +onlyGivenNames x; subst x) | with_reducible apply kept_onPorts | with_reducible apply kept_badChunk

theorem kept_drainPort {s0 s : State} {p : Nat} (hk : Kept s0 s) :
    Kept s0 (State.drainPort s p) := by
  unfold State.drainPort
  repeat' first
    | with_reducible assumption
    | (extract_lets +onlyGivenNames x; refine kept_cut (s0 := s0) (a := x) ?_ ?_; subst x; rotate_left; (intro _; clear_value x); rotate_left)
    | (extract_lets +onlyGivenNames x; subst x) | with_reducible apply kept_onPort | with_reducible apply kept_offerAll
    | with_reducible apply kept_portDenied | with_reducible apply kept_completeRead | with_reducible apply kept_completeWrite
    | with_reducible apply kept_badChunk | with_reducible apply kept_dropTile | with_reducible apply kept_foldl | with_reducible apply kept_ite
    | split | (with_reducible intro _ _ _; try beta_reduce)

theorem kept_execNmpRequestAccepted {s0 s : State} {p : Fin 32} {wr : Bool} (hk : Kept s0 s) :
    KeptO s0 (execNmpRequestAccepted p wr s) := by
  unfold execNmpRequestAccepted
  repeat' first
    | with_reducible assumption
    | (extract_lets +onlyGivenNames x; refine kept_cut (s0 := s0) (a := x) ?_ ?_; subst x; rotate_left; (intro _; clear_value x); rotate_left)
    | (extract_lets +onlyGivenNames x; subst x) | with_reducible apply kept_onPort | with_reducible apply kept_offer | with_reducible apply kept_idle
    | with_reducible apply keptO_ite | with_reducible apply keptO_next

theorem kept_ackWrite {s0 s : State} {p : Nat} {tag : Nat} {err : Bool} (hk : Kept s0 s) :
    KeptOptF s0 (State.ackWrite s p tag err) := by
  unfold State.ackWrite
  repeat' first
    | with_reducible assumption
    | (extract_lets +onlyGivenNames x; refine kept_cut (s0 := s0) (a := x) ?_ ?_; subst x; rotate_left; (intro _; clear_value x); rotate_left)
    | (extract_lets +onlyGivenNames x; subst x) | with_reducible apply kept_onPort | with_reducible apply kept_offer
    | with_reducible apply kept_completeWrite | with_reducible apply keptOptF_some | with_reducible apply keptOptF_none | split

theorem kept_timeoutReport {s0 s : State} {p : Nat} {wr : Bool} {tag : Nat} {r : Req} (hk : Kept s0 s) :
    Kept s0 (State.timeoutReport s p wr tag r) := by
  unfold State.timeoutReport
  repeat' first
    | with_reducible assumption
    | (extract_lets +onlyGivenNames x; refine kept_cut (s0 := s0) (a := x) ?_ ?_; subst x; rotate_left; (intro _; clear_value x); rotate_left)
    | (extract_lets +onlyGivenNames x; subst x) | with_reducible apply kept_onPort | with_reducible apply kept_fence
    | with_reducible apply kept_report | with_reducible apply kept_instFault | with_reducible apply kept_ite | split

theorem kept_takeAtoms {s0 s : State} {p : Nat} (hk : Kept s0 s) :
    Kept s0 (State.takeAtoms s p) := by
  unfold State.takeAtoms
  repeat' first
    | with_reducible assumption | (extract_lets +onlyGivenNames x; subst x) | with_reducible apply kept_onPort | with_reducible apply kept_queueRead
    | with_reducible apply kept_foldl | (with_reducible intro _ _ _; try beta_reduce)

theorem kept_readyTile {s0 s : State} {w : Why} {tile : Nat} (hk : Kept s0 s) :
    Kept s0 (State.readyTile s w tile) := by
  unfold State.readyTile
  repeat' first
    | with_reducible assumption
    | (extract_lets +onlyGivenNames x; refine kept_cut (s0 := s0) (a := x) ?_ ?_; subst x; rotate_left; (intro _; clear_value x); rotate_left)
    | with_reducible apply kept_onPorts | with_reducible apply kept_takeAtoms | with_reducible apply kept_foldl | with_reducible apply kept_ite
    | (with_reducible intro _ _ _; try beta_reduce)

theorem kept_addLines {s0 s : State} {n : Nat} {w : Why} {dom : Nat} {clsA : Bool} {a : Nat} {k0 : Nat} {bs : List Byte} {free : Bool} {bad : Bool} (hk : Kept s0 s) :
    Kept s0 (State.addLines s n w dom clsA a k0 bs free bad) := by
  unfold State.addLines
  repeat' first
    | with_reducible assumption
    | (extract_lets +onlyGivenNames x; refine kept_cut (s0 := s0) (a := x) ?_ ?_; subst x; rotate_left; (intro _; clear_value x); rotate_left)
    | (extract_lets +onlyGivenNames x; subst x) | with_reducible apply kept_onPort | with_reducible apply kept_wakeDom
    | with_reducible apply kept_denied | with_reducible apply kept_portDenied | with_reducible apply kept_badChunk
    | with_reducible apply kept_takeAtoms | with_reducible apply kept_foldl | with_reducible apply kept_ite | split
    | (with_reducible intro _ _ _; try beta_reduce) | with_reducible apply kept_mem | dsimp only
    | (intro k; (try dsimp only); (repeat first | with_reducible apply Map.wf_set | with_reducible apply Map.wf_modify | with_reducible apply Map.wf_erase | with_reducible apply Map.wf_mapVals | with_reducible apply Map.wf_setMany | (with_reducible apply Map.wf_filter)); first | exact k.ext | exact k.ports | exact k.resv | exact k.pools | exact k.links | exact k.groups | exact k.ch | exact k.doms | exact k.store | exact k.ctx | exact k.insts)

theorem kept_addTile {s0 s : State} {n : Nat} {w : Why} {dom : Nat} {clsA : Bool} {a : Nat} {tile : List Byte} {bad : Bool} (hk : Kept s0 s) :
    Kept s0 (State.addTile s n w dom clsA a tile bad) := by
  unfold State.addTile
  repeat' first
    | with_reducible assumption | with_reducible apply kept_addLines

theorem kept_wideFault {s0 s : State} {n : Nat} {code : Nat} {a : Nat} (hk : Kept s0 s) :
    Kept s0 (State.wideFault s n code a) := by
  unfold State.wideFault
  repeat' first
    | with_reducible assumption | with_reducible apply kept_instFault

theorem kept_addTileBay {s0 s : State} {b : Nat} {off : Nat} {tile : List Byte} {bad : Bool} (hk : Kept s0 s) :
    Kept s0 (State.addTileBay s b off tile bad).1 := by
  unfold State.addTileBay
  repeat' first
    | with_reducible assumption | (extract_lets +onlyGivenNames x; subst x) | with_reducible apply kept_putBay | with_reducible apply kept_poisonUnits
    | split

theorem kept_execAtomicLineUpdate {s0 s : State} {p : Fin 32} {err : Bool} (hk : Kept s0 s) :
    KeptO s0 (execAtomicLineUpdate p err s) := by
  unfold execAtomicLineUpdate
  repeat' first
    | with_reducible assumption
    | (extract_lets +onlyGivenNames x; refine kept_cut (s0 := s0) (a := x) ?_ ?_; subst x; rotate_left; (intro _; clear_value x); rotate_left)
    | (extract_lets +onlyGivenNames x; subst x) | with_reducible apply kept_onPort | with_reducible apply kept_queueWriteAt
    | with_reducible apply kept_idle | with_reducible apply kept_dropTile | with_reducible apply kept_takeAtoms | with_reducible apply kept_readyTile
    | with_reducible apply kept_wideFault | with_reducible apply keptO_ite | with_reducible apply keptO_next | split

theorem kept_granDrop {s0 s : State} {f : Nat → Bool} (hk : Kept s0 s) :
    Kept s0 (State.granDrop s f) := by
  unfold State.granDrop
  repeat' first
    | with_reducible assumption | with_reducible apply kept_mem | dsimp only
    | (intro k; (try dsimp only); (repeat first | with_reducible apply Map.wf_set | with_reducible apply Map.wf_modify | with_reducible apply Map.wf_erase | with_reducible apply Map.wf_mapVals | with_reducible apply Map.wf_setMany | (with_reducible apply Map.wf_filter)); first | exact k.ext | exact k.ports | exact k.resv | exact k.pools | exact k.links | exact k.groups | exact k.ch | exact k.doms | exact k.store | exact k.ctx | exact k.insts)

theorem kept_ginvAll {s0 s : State} (hk : Kept s0 s) :
    Kept s0 (State.ginvAll s) := by
  unfold State.ginvAll
  repeat' first
    | with_reducible assumption
    | (extract_lets +onlyGivenNames x; refine kept_cut (s0 := s0) (a := x) ?_ ?_; subst x; rotate_left; (intro _; clear_value x); rotate_left)
    | (extract_lets +onlyGivenNames x; subst x) | with_reducible apply kept_granDrop | with_reducible apply kept_mem | dsimp only
    | (intro k; (try dsimp only); (repeat first | with_reducible apply Map.wf_set | with_reducible apply Map.wf_modify | with_reducible apply Map.wf_erase | with_reducible apply Map.wf_mapVals | with_reducible apply Map.wf_setMany | (with_reducible apply Map.wf_filter)); first | exact k.ext | exact k.ports | exact k.resv | exact k.pools | exact k.links | exact k.groups | exact k.ch | exact k.doms | exact k.store | exact k.ctx | exact k.insts)

theorem kept_ginvRange {s0 s : State} (hk : Kept s0 s) :
    Kept s0 (State.ginvRange s) := by
  unfold State.ginvRange
  repeat' first
    | with_reducible assumption
    | (extract_lets +onlyGivenNames x; refine kept_cut (s0 := s0) (a := x) ?_ ?_; subst x; rotate_left; (intro _; clear_value x); rotate_left)
    | (extract_lets +onlyGivenNames x; subst x) | with_reducible apply kept_granDrop | with_reducible apply kept_mem | dsimp only
    | (intro k; (try dsimp only); (repeat first | with_reducible apply Map.wf_set | with_reducible apply Map.wf_modify | with_reducible apply Map.wf_erase | with_reducible apply Map.wf_mapVals | with_reducible apply Map.wf_setMany | (with_reducible apply Map.wf_filter)); first | exact k.ext | exact k.ports | exact k.resv | exact k.pools | exact k.links | exact k.groups | exact k.ch | exact k.doms | exact k.store | exact k.ctx | exact k.insts)

theorem kept_execGinvAll {s0 s : State} (hk : Kept s0 s) :
    KeptO s0 (execGinvAll s) := by
  unfold execGinvAll
  repeat' first
    | with_reducible assumption | with_reducible apply kept_mgt | with_reducible apply kept_ginvAll | with_reducible apply keptO_next | rfl

theorem kept_execGinvRange {s0 s : State} (hk : Kept s0 s) :
    KeptO s0 (execGinvRange s) := by
  unfold execGinvRange
  repeat' first
    | with_reducible assumption | with_reducible apply kept_mgt | with_reducible apply kept_ginvRange | with_reducible apply keptO_next | rfl

theorem kept_execGinvDone {s0 s : State} (hk : Kept s0 s) :
    KeptO s0 (execGinvDone s) := by
  unfold execGinvDone
  repeat' first
    | with_reducible assumption | with_reducible apply kept_idle | with_reducible apply keptO_ite | with_reducible apply keptO_next
    | with_reducible apply kept_mem | dsimp only
    | (intro k; (try dsimp only); (repeat first | with_reducible apply Map.wf_set | with_reducible apply Map.wf_modify | with_reducible apply Map.wf_erase | with_reducible apply Map.wf_mapVals | with_reducible apply Map.wf_setMany | (with_reducible apply Map.wf_filter)); first | exact k.ext | exact k.ports | exact k.resv | exact k.pools | exact k.links | exact k.groups | exact k.ch | exact k.doms | exact k.store | exact k.ctx | exact k.insts)

end Sys2Proof.Machine
end

