-- ==== Sys2Proof/Laws/KeptArray.lean ====
section
/-!
SUPPORT. `Kept` through the matrix, row, slot and functional families.
-/

namespace Sys2Proof.Machine

theorem kept_poisonFault {s0 s : State} {n : Nat} {g : Nat} {bad : Bool} (hk : Kept s0 s) :
    Kept s0 (State.poisonFault s n g bad) := by
  unfold State.poisonFault
  repeat' first
    | with_reducible assumption | with_reducible apply kept_instFault | with_reducible apply kept_markPoison | with_reducible apply kept_ite

theorem kept_drainElems {s0 s : State} {i : Inst} {g : Nat} {a : Nat} {b : Option Nat} {c : Desc} {cn : Nat} {rv : Desc} {ts : ℚ} {rows : List DRow} (hk : Kept s0 s) :
    Kept s0 (State.drainElems s i g a b c cn rv ts rows) := by
  unfold State.drainElems
  repeat' first
    | with_reducible assumption
    | (extract_lets +onlyGivenNames x; refine kept_cut (s0 := s0) (a := x.1) ?_ ?_; subst x; rotate_left; (intro _; clear_value x); rotate_left)
    | (extract_lets +onlyGivenNames x; subst x) | with_reducible apply kept_fetch | with_reducible apply kept_storeRow
    | with_reducible apply kept_count | with_reducible apply kept_foldl | with_reducible intro _ _ _

theorem kept_drainWide {s0 s : State} {i : Inst} {g : Nat} {a : Nat} {c : Desc} {cn : Nat} {fixa : Option Int} {atom : Bool} {rows : List DRow} (hk : Kept s0 s) :
    Kept s0 (State.drainWide s i g a c cn fixa atom rows) := by
  unfold State.drainWide
  repeat' first
    | with_reducible assumption
    | (extract_lets +onlyGivenNames x; refine kept_cut (s0 := s0) (a := x) ?_ ?_; subst x; rotate_left; (intro _; clear_value x); rotate_left)
    | (extract_lets +onlyGivenNames x; refine kept_cut (s0 := s0) (a := x.1) ?_ ?_; subst x; rotate_left; (intro _; clear_value x); rotate_left)
    | (extract_lets +onlyGivenNames x; subst x) | with_reducible apply kept_store | with_reducible apply kept_count
    | with_reducible apply kept_addTile | with_reducible apply kept_wideFault | with_reducible apply kept_addTileBay | with_reducible apply kept_ite
    | split

theorem kept_headChecks {s0 s : State} {i : Inst} {fixa : Option Int} {heads : List Nat} (hk : Kept s0 s) :
    Kept s0 (State.headChecks s i fixa heads) := by
  unfold State.headChecks
  repeat' first
    | with_reducible assumption
    | (extract_lets +onlyGivenNames x; refine kept_cut (s0 := s0) (a := x.1) ?_ ?_; subst x; rotate_left; (intro _; clear_value x); rotate_left)
    | (extract_lets +onlyGivenNames x; subst x) | with_reducible apply kept_readExt | with_reducible apply kept_wideFault
    | with_reducible apply kept_foldl | with_reducible apply kept_ite | split | (with_reducible intro _ _ _; try beta_reduce)

theorem kept_drainSlot {s0 s : State} {n : Nat} {g : Nat} {a : Nat} {b : Option Nat} {c : Desc} {cn : Nat} {rv : Desc} {ts : ℚ} {fixa : Option Int} {atom : Bool} {rows : List DRow} {last : Bool} (hk : Kept s0 s) :
    Kept s0 (State.drainSlot s n g a b c cn rv ts fixa atom rows last) := by
  unfold State.drainSlot
  repeat' first
    | with_reducible assumption
    | (extract_lets +onlyGivenNames x; refine kept_cut (s0 := s0) (a := x) ?_ ?_; subst x; rotate_left; (intro _; clear_value x); rotate_left)
    | (extract_lets +onlyGivenNames x; subst x) | with_reducible apply kept_onInst | with_reducible apply kept_onSlot
    | with_reducible apply kept_obFault | with_reducible apply kept_slotFault | with_reducible apply kept_poisonFault
    | with_reducible apply kept_drainElems | with_reducible apply kept_drainWide | with_reducible apply kept_foldl | with_reducible apply kept_ite
    | split | (with_reducible intro _ _ _; try beta_reduce)

theorem kept_loadBank {s0 s : State} {g : Nat} {bed : Bool} {t : List BankCol} (hk : Kept s0 s) :
    Kept s0 (State.loadBank s g bed t) := by
  unfold State.loadBank
  repeat' first
    | with_reducible assumption | with_reducible apply kept_onCo | split | ((with_reducible intro _ k); exact k)

theorem kept_putChain {s0 s : State} {g : Nat} {bs : List Byte} (hk : Kept s0 s) :
    Kept s0 (State.putChain s g bs) := by
  unfold State.putChain
  repeat' first
    | with_reducible assumption | with_reducible apply kept_onCo | ((with_reducible intro _ k); exact k)

theorem kept_mmRows {s0 s : State} {i : Inst} {p : Place} {g : Nat} {x : Nat} {first : Bool} {v : List Nat} {tgt : List Tgt} (hk : Kept s0 s) :
    Kept s0 (State.mmRows s i p g x first v tgt).s := by
  unfold State.mmRows
  repeat' first
    | with_reducible assumption
    | (extract_lets +onlyGivenNames x; refine kept_cut (s0 := s0) (a := x) ?_ ?_; subst x; rotate_left; (intro _; clear_value x); rotate_left)
    | (extract_lets +onlyGivenNames x; refine kept_cut (s0 := s0) (a := x.1) ?_ ?_; subst x; rotate_left; (intro _; clear_value x); rotate_left)
    | (extract_lets +onlyGivenNames x; subst x) | with_reducible apply kept_onInst | with_reducible apply kept_onStat
    | with_reducible apply kept_fetch | with_reducible apply kept_count | with_reducible apply kept_foldl_fst | with_reducible intro _ _ _
    | with_reducible apply kept_ite | split

theorem kept_fetchTile {s0 s : State} {i : Inst} {g : Nat} {w : Work} {ks : List Nat} {sp : List Span} (hk : Kept s0 s) :
    Kept s0 (State.fetchTile s i g w ks sp).1 := by
  unfold State.fetchTile
  repeat' first
    | with_reducible assumption
    | (extract_lets +onlyGivenNames x; refine kept_cut (s0 := s0) (a := x.1) ?_ ?_; subst x; rotate_left; (intro _; clear_value x); rotate_left)
    | (extract_lets +onlyGivenNames x; subst x) | with_reducible apply kept_fetch | with_reducible apply kept_foldl_fst | split
    | (with_reducible intro _ _ _; try beta_reduce)

theorem kept_obCheck {s0 s : State} {i : Inst} {g : Nat} {sp : List Span} (hk : Kept s0 s) :
    KeptOpt s0 (State.obCheck s i g sp) := by
  unfold State.obCheck
  repeat' first
    | with_reducible assumption | with_reducible apply kept_obFault | with_reducible apply keptOpt_map | with_reducible intro _

theorem kept_mmPass {s0 s : State} {ms : List Mate} {g : Nat} {w : Work} {bed : Bool} (hk : Kept s0 s) :
    Kept s0 (State.mmPass s ms g w bed) := by
  unfold State.mmPass
  repeat' first
    | with_reducible assumption
    | (extract_lets +onlyGivenNames x; refine kept_cut (s0 := s0) (a := x) ?_ ?_; subst x; rotate_left; (intro _; clear_value x); rotate_left)
    | (extract_lets +onlyGivenNames x; refine kept_cut (s0 := s0) (a := x.1) ?_ ?_; subst x; rotate_left; (intro _; clear_value x); rotate_left)
    | (extract_lets +onlyGivenNames x; subst x) | with_reducible apply kept_onInst | with_reducible apply kept_poisonTgt
    | with_reducible apply kept_instFault | with_reducible apply kept_obFault | with_reducible apply kept_t2Event | with_reducible apply kept_putSlot
    | with_reducible apply kept_slotFault | with_reducible apply kept_loadBank | with_reducible apply kept_mmRows
    | with_reducible apply kept_fetchTile | with_reducible apply kept_foldl | with_reducible apply kept_foldl_fst
    | refine (kept_obCheck ?_) _ ‹State.obCheck _ _ _ _ = some _› | with_reducible intro _ _ _ | with_reducible apply kept_ite | split

theorem kept_mmcChain {s0 s : State} {i : Inst} {g : Nat} {w : Work} (hk : Kept s0 s) :
    Kept s0 (State.mmcChain s i g w) := by
  unfold State.mmcChain
  repeat' first
    | with_reducible assumption
    | (extract_lets +onlyGivenNames x; refine kept_cut (s0 := s0) (a := x) ?_ ?_; subst x; rotate_left; (intro _; clear_value x); rotate_left)
    | (extract_lets +onlyGivenNames x; refine kept_cut (s0 := s0) (a := x.1) ?_ ?_; subst x; rotate_left; (intro _; clear_value x); rotate_left)
    | (extract_lets +onlyGivenNames x; subst x) | with_reducible apply kept_onInst | with_reducible apply kept_t2Event
    | with_reducible apply kept_count | with_reducible apply kept_putSlot | with_reducible apply kept_slotFault | with_reducible apply kept_loadBank
    | with_reducible apply kept_putChain | with_reducible apply kept_fetchTile | with_reducible apply kept_foldl
    | refine (kept_obCheck ?_) _ ‹State.obCheck _ _ _ _ = some _› | with_reducible intro _ _ _ | split

theorem kept_mmDrainOne {s0 s : State} {i : Inst} {off : Nat} {g : Nat} {w : Work} (hk : Kept s0 s) :
    Kept s0 (State.mmDrainOne s i off g w) := by
  unfold State.mmDrainOne
  repeat' first
    | with_reducible assumption | (extract_lets +onlyGivenNames x; subst x) | with_reducible apply kept_drainSlot | split

theorem kept_mmDrain {s0 s : State} {ms : List Mate} {g : Nat} {w : Work} (hk : Kept s0 s) :
    Kept s0 (State.mmDrain s ms g w) := by
  unfold State.mmDrain
  repeat' first
    | with_reducible assumption
    | (extract_lets +onlyGivenNames x; refine kept_cut (s0 := s0) (a := x) ?_ ?_; subst x; rotate_left; (intro _; clear_value x); rotate_left)
    | (extract_lets +onlyGivenNames x; subst x) | with_reducible apply kept_onInst | with_reducible apply kept_onSlot
    | with_reducible apply kept_mmDrainOne | with_reducible apply kept_foldl | with_reducible apply kept_ite
    | (with_reducible intro _ _ _; try beta_reduce)

theorem kept_releaseBatch {s0 s : State} {head : Nat} (hk : Kept s0 s) :
    Kept s0 (State.releaseBatch s head) := by
  unfold State.releaseBatch
  repeat' first
    | with_reducible assumption | with_reducible apply kept_onSluice | (with_reducible intro _; with_reducible rfl)

theorem kept_form {s0 s : State} {i : Inst} (hk : Kept s0 s) :
    Kept s0 (State.form s i) := by
  unfold State.form
  repeat' first
    | with_reducible assumption
    | (extract_lets +onlyGivenNames x; refine kept_cut (s0 := s0) (a := x) ?_ ?_; subst x; rotate_left; (intro _; clear_value x); rotate_left)
    | (extract_lets +onlyGivenNames x; subst x) | with_reducible apply kept_onInst | with_reducible apply kept_onSluice
    | with_reducible apply kept_releaseBatch | with_reducible apply kept_ite | split | (with_reducible intro _; with_reducible rfl)

theorem kept_execBatchHoldExpiry {s0 s : State} {n : Nat} (hk : Kept s0 s) :
    KeptO s0 (execBatchHoldExpiry n s) := by
  unfold execBatchHoldExpiry
  repeat' first
    | with_reducible assumption | with_reducible apply kept_idle | with_reducible apply kept_releaseBatch | with_reducible apply keptO_ite
    | with_reducible apply keptO_next | split

theorem kept_row_mmRow {s0 : State} {t : State} {i : Inst} {opc : Nat} (hk : Kept s0 t) :
    Kept s0 ((mmRow opc).effect t i) := by
  unfold mmRow
  repeat' first
    | with_reducible assumption | (extract_lets +onlyGivenNames x; subst x) | with_reducible apply kept_onInst
    | with_reducible apply kept_row_TRow_plain | with_reducible apply kept_headChecks | with_reducible apply kept_form | with_reducible intro _ _ _

theorem kept_execMmp {s0 s : State} {c : Fin 64} {w : Long} (hk : Kept s0 s) :
    KeptO s0 (execMmp c w s) := by
  unfold execMmp
  repeat' first
    | with_reducible assumption | with_reducible apply kept_issueTensor | with_reducible apply kept_row_mmRow | with_reducible intro _ _ _

theorem kept_execMmw {s0 s : State} {c : Fin 64} {w : Long} (hk : Kept s0 s) :
    KeptO s0 (execMmw c w s) := by
  unfold execMmw
  repeat' first
    | with_reducible assumption | with_reducible apply kept_issueTensor | with_reducible apply kept_row_mmRow | with_reducible intro _ _ _

theorem kept_execMmc {s0 s : State} {c : Fin 64} {w : Long} (hk : Kept s0 s) :
    KeptO s0 (execMmc c w s) := by
  unfold execMmc
  repeat' first
    | with_reducible assumption | with_reducible apply kept_issueTensor | with_reducible apply kept_row_mmRow | with_reducible intro _ _ _

theorem kept_readRow {s0 s : State} {i : Inst} {g : Nat} {d : Desc} {x : Coord} {n : Nat} {tgt : List Tgt} (hk : Kept s0 s) :
    Kept s0 (State.readRow s i g d x n tgt).s := by
  unfold State.readRow
  repeat' first
    | with_reducible assumption
    | (extract_lets +onlyGivenNames x; refine kept_cut (s0 := s0) (a := x.1) ?_ ?_; subst x; rotate_left; (intro _; clear_value x); rotate_left)
    | (extract_lets +onlyGivenNames x; subst x) | with_reducible apply kept_obFault | with_reducible apply kept_fetch | split

theorem kept_writeRow {s0 s : State} {i : Inst} {g : Nat} {d : Desc} {x : Coord} {bs : List Block} {bad : Bool} (hk : Kept s0 s) :
    Kept s0 (State.writeRow s i g d x bs bad) := by
  unfold State.writeRow
  repeat' first
    | with_reducible assumption | with_reducible apply kept_storeRow | with_reducible apply kept_count

theorem kept_writeOne {s0 s : State} {i : Inst} {g : Nat} {d : Desc} {x : Coord} {b : Block} {bad : Bool} (hk : Kept s0 s) :
    Kept s0 (State.writeOne s i g d x b bad) := by
  unfold State.writeOne
  repeat' first
    | with_reducible assumption | with_reducible apply kept_writeRow | with_reducible apply kept_ite

theorem kept_writeStatus {s0 s : State} {i : Inst} {g : Nat} {d : Desc} {x : Coord} {v : Nat} {bad : Bool} (hk : Kept s0 s) :
    Kept s0 (State.writeStatus s i g d x v bad) := by
  unfold State.writeStatus
  repeat' first
    | with_reducible assumption | with_reducible apply kept_store | with_reducible apply kept_ite

theorem kept_rowNotes {s0 s : State} {i : Inst} {r : RowIn} (hk : Kept s0 s) :
    Kept s0 (State.rowNotes s i r) := by
  unfold State.rowNotes
  repeat' first
    | with_reducible assumption
    | (extract_lets +onlyGivenNames x; refine kept_cut (s0 := s0) (a := x) ?_ ?_; subst x; rotate_left; (intro _; clear_value x); rotate_left)
    | with_reducible apply kept_instFault | with_reducible apply kept_t2Event | with_reducible apply kept_ite

theorem kept_runDrain {s0 s : State} {i : Inst} {w : Work} (hk : Kept s0 s) :
    Kept s0 (State.runDrain s i w) := by
  unfold State.runDrain
  repeat' first
    | with_reducible assumption | (extract_lets +onlyGivenNames x; subst x) | with_reducible apply kept_drainSlot | split

theorem kept_row_drRow {s0 : State} {t : State} {i : Inst} (hk : Kept s0 t) :
    Kept s0 (drRow.effect t i) := by
  unfold drRow
  repeat' first
    | with_reducible assumption | (extract_lets +onlyGivenNames x; subst x) | with_reducible apply kept_onInst
    | with_reducible apply kept_row_TRow_plain | with_reducible apply kept_headChecks | with_reducible intro _ _ _

theorem kept_execDrain {s0 s : State} {c : Fin 64} {w : Long} (hk : Kept s0 s) :
    KeptO s0 (execDrain c w s) := by
  unfold execDrain
  repeat' first
    | with_reducible assumption | with_reducible apply kept_issueTensor | with_reducible apply kept_row_drRow

theorem kept_runZero {s0 s : State} {w : Work} (hk : Kept s0 s) :
    Kept s0 (State.runZero s w) := by
  unfold State.runZero
  repeat' first
    | with_reducible assumption | with_reducible apply kept_onSlot | with_reducible apply kept_foldl | (with_reducible intro _ _ _; try beta_reduce)

theorem kept_row_zeroRow {s0 : State} {t : State} {i : Inst} (hk : Kept s0 t) :
    Kept s0 (zeroRow.effect t i) := by
  unfold zeroRow
  repeat' first
    | with_reducible assumption | with_reducible apply kept_onInst | with_reducible apply kept_row_TRow_plain | with_reducible intro _ _ _

theorem kept_execAccz {s0 s : State} {c : Fin 64} {w : Long} (hk : Kept s0 s) :
    KeptO s0 (execAccz c w s) := by
  unfold execAccz
  repeat' first
    | with_reducible assumption | with_reducible apply kept_issueTensor | with_reducible apply kept_row_zeroRow

theorem kept_runSave {s0 s : State} {i : Inst} {w : Work} (hk : Kept s0 s) :
    Kept s0 (State.runSave s i w) := by
  unfold State.runSave
  repeat' first
    | with_reducible assumption | (extract_lets +onlyGivenNames x; subst x) | with_reducible apply kept_writeExt | with_reducible apply kept_slotFault
    | with_reducible apply kept_ite

theorem kept_runLoad {s0 s : State} {i : Inst} {w : Work} (hk : Kept s0 s) :
    Kept s0 (State.runLoad s i w) := by
  unfold State.runLoad
  repeat' first
    | with_reducible assumption
    | (extract_lets +onlyGivenNames x; refine kept_cut (s0 := s0) (a := x) ?_ ?_; subst x; rotate_left; (intro _; clear_value x); rotate_left)
    | (extract_lets +onlyGivenNames x; refine kept_cut (s0 := s0) (a := x.1) ?_ ?_; subst x; rotate_left; (intro _; clear_value x); rotate_left)
    | (extract_lets +onlyGivenNames x; subst x) | with_reducible apply kept_onInst | with_reducible apply kept_onSlot
    | with_reducible apply kept_instFault | with_reducible apply kept_readExt | split

theorem kept_row_svRow {s0 : State} {t : State} {i : Inst} {opc : Nat} {kind : Nat} (hk : Kept s0 t) :
    Kept s0 ((svRow opc kind).effect t i) := by
  unfold svRow
  repeat' first
    | with_reducible assumption | with_reducible apply kept_onInst | with_reducible apply kept_row_TRow_plain | with_reducible intro _ _ _

theorem kept_execAccsv {s0 s : State} {c : Fin 64} {w : Long} (hk : Kept s0 s) :
    KeptO s0 (execAccsv c w s) := by
  unfold execAccsv
  repeat' first
    | with_reducible assumption | with_reducible apply kept_issueTensor | with_reducible apply kept_row_svRow | with_reducible intro _ _ _

theorem kept_execAccld {s0 s : State} {c : Fin 64} {w : Long} (hk : Kept s0 s) :
    KeptO s0 (execAccld c w s) := by
  unfold execAccld
  repeat' first
    | with_reducible assumption | with_reducible apply kept_issueTensor | with_reducible apply kept_row_svRow | with_reducible intro _ _ _

theorem kept_writeSsqWide {s0 s : State} {i : Inst} {g : Nat} {d : Desc} {x : Coord} {q : RowStat} {bad : Bool} (hk : Kept s0 s) :
    Kept s0 (State.writeSsqWide s i g d x q bad) := by
  unfold State.writeSsqWide
  repeat' first
    | with_reducible assumption
    | (extract_lets +onlyGivenNames x; refine kept_cut (s0 := s0) (a := x) ?_ ?_; subst x; rotate_left; (intro _; clear_value x); rotate_left)
    | (extract_lets +onlyGivenNames x; subst x) | with_reducible apply kept_store | with_reducible apply kept_ite

theorem kept_rstatRow {s0 s : State} {i : Inst} {x : RowRef} (hk : Kept s0 s) :
    Kept s0 (State.rstatRow s i x) := by
  unfold State.rstatRow
  repeat' first
    | with_reducible assumption
    | (extract_lets +onlyGivenNames x; refine kept_cut (s0 := s0) (a := x) ?_ ?_; subst x; rotate_left; (intro _; clear_value x); rotate_left)
    | (extract_lets +onlyGivenNames x; refine kept_cut (s0 := s0) (a := x.1) ?_ ?_; subst x; rotate_left; (intro _; clear_value x); rotate_left)
    | (extract_lets +onlyGivenNames x; subst x) | with_reducible apply kept_onStat | with_reducible apply kept_instFault
    | with_reducible apply kept_readRow | with_reducible apply kept_writeOne | with_reducible apply kept_rowNotes
    | with_reducible apply kept_writeSsqWide | with_reducible apply kept_ite

theorem kept_eachRow {s0 s : State} {rows : List RowRef} {f : State → RowRef → State} (hk : Kept s0 s) (hf : ∀ (x0 : State) (x1 : RowRef), Kept s0 x0 → Kept s0 (f x0 x1)) :
    Kept s0 (State.eachRow s rows f) := by
  unfold State.eachRow
  repeat' first
    | with_reducible assumption | with_reducible apply kept_foldl

theorem kept_row_rstatRow {s0 : State} {t : State} {i : Inst} (hk : Kept s0 t) :
    Kept s0 (rstatRow.effect t i) := by
  unfold rstatRow
  repeat' first
    | with_reducible assumption | (extract_lets +onlyGivenNames x; subst x) | with_reducible apply kept_row_TRow_plain
    | with_reducible apply kept_rstatRow | with_reducible apply kept_eachRow | with_reducible intro _ _ _

theorem kept_execRstat {s0 s : State} {c : Fin 64} {w : Long} (hk : Kept s0 s) :
    KeptO s0 (execRstat c w s) := by
  unfold execRstat
  repeat' first
    | with_reducible assumption | with_reducible apply kept_issueTensor | with_reducible apply kept_row_rstatRow

theorem kept_rowScale {s0 s : State} {i : Inst} {g : Nat} {d : Desc} {gm : Nat} {tgt : List Tgt} (hk : Kept s0 s) :
    Kept s0 (State.rowScale s i g d gm tgt).1 := by
  unfold State.rowScale
  repeat' first
    | with_reducible assumption
    | (extract_lets +onlyGivenNames x; refine kept_cut (s0 := s0) (a := x.1) ?_ ?_; subst x; rotate_left; (intro _; clear_value x); rotate_left)
    | with_reducible apply kept_readRow

theorem kept_fnxRow {s0 s : State} {i : Inst} {x : RowRef} (hk : Kept s0 s) :
    Kept s0 (State.fnxRow s i x) := by
  unfold State.fnxRow
  repeat' first
    | with_reducible assumption
    | (extract_lets +onlyGivenNames x; refine kept_cut (s0 := s0) (a := x.1) ?_ ?_; subst x; rotate_left; (intro _; clear_value x); rotate_left)
    | (extract_lets +onlyGivenNames x; subst x) | with_reducible apply kept_readRow | with_reducible apply kept_writeRow
    | with_reducible apply kept_rowNotes | with_reducible apply kept_rowScale | split

theorem kept_startLane {s0 s : State} {i : Inst} {run : State → Inst → State} (hk : Kept s0 s) (hrun : ∀ (x0 : State) (x1 : Inst), Kept s0 x0 → Kept s0 (run x0 x1)) :
    Kept s0 (State.startLane s i run) := by
  unfold State.startLane
  repeat' first
    | with_reducible assumption | with_reducible apply hrun | with_reducible apply kept_onInst | with_reducible apply kept_ite

theorem kept_fnxRun {s0 s : State} {i : Inst} (hk : Kept s0 s) :
    Kept s0 (State.fnxRun s i) := by
  unfold State.fnxRun
  repeat' first
    | with_reducible assumption | with_reducible apply kept_eachRow | with_reducible apply kept_fnxRow | with_reducible intro _ _ _

theorem kept_row_fnxRowOf {s0 : State} {t : State} {i : Inst} {form : Long → Bool} {effect : State → Inst → State} (hk : Kept s0 t) (heffect : ∀ (x0 : State) (x1 : Inst), Kept s0 x0 → Kept s0 (effect x0 x1)) :
    Kept s0 ((fnxRowOf form effect).effect t i) := by
  unfold fnxRowOf
  repeat' first
    | with_reducible assumption | with_reducible apply kept_row_TRow_plain

theorem kept_row_fnxRowDef {s0 : State} {t : State} {i : Inst} {form : Long → Bool} (hk : Kept s0 t) :
    Kept s0 ((fnxRowDef form).effect t i) := by
  unfold fnxRowDef
  repeat' first
    | with_reducible assumption | (extract_lets +onlyGivenNames x; subst x) | with_reducible apply kept_startLane | with_reducible apply kept_fnxRun
    | with_reducible apply kept_row_fnxRowOf | with_reducible intro _ _ _

theorem kept_execFnx {s0 s : State} {c : Fin 64} {w : Long} (hk : Kept s0 s) :
    KeptO s0 (execFnx c w s) := by
  unfold execFnx
  repeat' first
    | with_reducible assumption | with_reducible apply kept_issueTensor | with_reducible apply kept_row_fnxRowDef | with_reducible intro _ _ _

theorem kept_execFnxCompat {s0 s : State} {c : Fin 64} {w : Long} (hk : Kept s0 s) :
    KeptO s0 (execFnxCompat c w s) := by
  unfold execFnxCompat
  repeat' first
    | with_reducible assumption | with_reducible apply kept_issueTensor | with_reducible apply kept_row_fnxRowDef | with_reducible intro _ _ _

theorem kept_beginLoad {s0 s : State} {i : Inst} {bytes : State × Got} {up : Bool} (hk : Kept s0 s) (hbytes : Kept s0 bytes.1) :
    Kept s0 (State.beginLoad s i bytes up) := by
  unfold State.beginLoad
  repeat' first
    | with_reducible assumption
    | (extract_lets +onlyGivenNames x; refine kept_cut (s0 := s0) (a := x) ?_ ?_; subst x; rotate_left; (intro _; clear_value x); rotate_left)
    | with_reducible apply kept_onInst | with_reducible apply kept_onBy | with_reducible apply kept_foldl | split
    | ((with_reducible intro _ k); exact k) | (with_reducible intro _ _ _; try beta_reduce)

theorem kept_commitImage {s0 s : State} {i : Inst} (hk : Kept s0 s) :
    Kept s0 (State.commitImage s i) := by
  unfold State.commitImage
  repeat' first
    | with_reducible assumption | (extract_lets +onlyGivenNames x; subst x) | with_reducible apply kept_onBy | with_reducible apply kept_instFault
    | with_reducible apply kept_foldl | with_reducible apply kept_ite | split | ((with_reducible intro _ k); exact k)
    | (with_reducible intro _ _ _; try beta_reduce)

theorem kept_row_fnxLoadRow {s0 : State} {t : State} {i : Inst} (hk : Kept s0 t) :
    Kept s0 (fnxLoadRow.effect t i) := by
  unfold fnxLoadRow
  repeat' first
    | with_reducible assumption | with_reducible apply kept_readExt | with_reducible apply kept_row_fnxRowOf | with_reducible apply kept_beginLoad
    | with_reducible intro _ _ _

theorem kept_execFnxLoad {s0 s : State} {c : Fin 64} {w : Long} (hk : Kept s0 s) :
    KeptO s0 (execFnxLoad c w s) := by
  unfold execFnxLoad fnxLoadRow
  repeat' first
    | with_reducible assumption | with_reducible apply kept_readExt | with_reducible apply kept_issueTensor | with_reducible apply kept_row_fnxRowOf
    | with_reducible apply kept_beginLoad | with_reducible intro _ _ _

theorem kept_gateRow {s0 s : State} {i : Inst} {x : RowRef} (hk : Kept s0 s) :
    Kept s0 (State.gateRow s i x) := by
  unfold State.gateRow
  repeat' first
    | with_reducible assumption
    | (extract_lets +onlyGivenNames x; refine kept_cut (s0 := s0) (a := x) ?_ ?_; subst x; rotate_left; (intro _; clear_value x); rotate_left)
    | (extract_lets +onlyGivenNames x; refine kept_cut (s0 := s0) (a := x.1) ?_ ?_; subst x; rotate_left; (intro _; clear_value x); rotate_left)
    | (extract_lets +onlyGivenNames x; subst x) | with_reducible apply kept_count | with_reducible apply kept_readRow
    | with_reducible apply kept_writeRow | with_reducible apply kept_rowNotes | with_reducible apply kept_ite

theorem kept_gateRun {s0 s : State} {i : Inst} (hk : Kept s0 s) :
    Kept s0 (State.gateRun s i) := by
  unfold State.gateRun
  repeat' first
    | with_reducible assumption | with_reducible apply kept_eachRow | with_reducible apply kept_gateRow | with_reducible intro _ _ _

theorem kept_row_gateRowDef {s0 : State} {t : State} {i : Inst} (hk : Kept s0 t) :
    Kept s0 (gateRowDef.effect t i) := by
  unfold gateRowDef
  repeat' first
    | with_reducible assumption | with_reducible apply kept_row_TRow_plain | with_reducible apply kept_startLane | with_reducible apply kept_gateRun
    | with_reducible intro _ _ _

theorem kept_execGate {s0 s : State} {c : Fin 64} {w : Long} (hk : Kept s0 s) :
    KeptO s0 (execGate c w s) := by
  unfold execGate
  repeat' first
    | with_reducible assumption | with_reducible apply kept_issueTensor | with_reducible apply kept_row_gateRowDef

theorem kept_runLanes {s0 s : State} (hk : Kept s0 s) :
    Kept s0 (State.runLanes s) := by
  unfold State.runLanes
  repeat' first
    | with_reducible assumption
    | (extract_lets +onlyGivenNames x; refine kept_cut (s0 := s0) (a := x) ?_ ?_; subst x; rotate_left; (intro _; clear_value x); rotate_left)
    | with_reducible apply kept_onInst | with_reducible apply kept_fnxRun | with_reducible apply kept_gateRun | with_reducible apply kept_foldl
    | with_reducible apply kept_ite | (with_reducible intro _ _ _; try beta_reduce)

theorem kept_normRow1 {s0 s : State} {i : Inst} {x : RowRef} (hk : Kept s0 s) :
    Kept s0 (State.normRow1 s i x) := by
  unfold State.normRow1
  repeat' first
    | with_reducible assumption
    | (extract_lets +onlyGivenNames x; refine kept_cut (s0 := s0) (a := x) ?_ ?_; subst x; rotate_left; (intro _; clear_value x); rotate_left)
    | (extract_lets +onlyGivenNames x; refine kept_cut (s0 := s0) (a := x.1) ?_ ?_; subst x; rotate_left; (intro _; clear_value x); rotate_left)
    | (extract_lets +onlyGivenNames x; subst x) | with_reducible apply kept_onStat | with_reducible apply kept_readRow
    | with_reducible apply kept_writeRow | with_reducible apply kept_writeStatus | with_reducible apply kept_rowNotes | with_reducible apply kept_ite
    | split

theorem kept_row_normRowDef {s0 : State} {t : State} {i : Inst} (hk : Kept s0 t) :
    Kept s0 (normRowDef.effect t i) := by
  unfold normRowDef
  repeat' first
    | with_reducible assumption | with_reducible apply kept_row_TRow_plain | with_reducible apply kept_eachRow | with_reducible apply kept_normRow1
    | with_reducible intro _ _ _

theorem kept_execNorm {s0 s : State} {c : Fin 64} {w : Long} (hk : Kept s0 s) :
    KeptO s0 (execNorm c w s) := by
  unfold execNorm
  repeat' first
    | with_reducible assumption | with_reducible apply kept_issueTensor | with_reducible apply kept_row_normRowDef

theorem kept_qntRow {s0 s : State} {i : Inst} {x : RowRef} (hk : Kept s0 s) :
    Kept s0 (State.qntRow s i x) := by
  unfold State.qntRow
  repeat' first
    | with_reducible assumption
    | (extract_lets +onlyGivenNames x; refine kept_cut (s0 := s0) (a := x.1) ?_ ?_; subst x; rotate_left; (intro _; clear_value x); rotate_left)
    | (extract_lets +onlyGivenNames x; subst x) | with_reducible apply kept_readRow | with_reducible apply kept_writeRow
    | with_reducible apply kept_rowNotes | with_reducible apply kept_ite

theorem kept_row_qntRowDef {s0 : State} {t : State} {i : Inst} (hk : Kept s0 t) :
    Kept s0 (qntRowDef.effect t i) := by
  unfold qntRowDef
  repeat' first
    | with_reducible assumption | with_reducible apply kept_row_TRow_plain | with_reducible apply kept_eachRow | with_reducible apply kept_qntRow
    | with_reducible intro _ _ _

theorem kept_execQnt {s0 s : State} {c : Fin 64} {w : Long} (hk : Kept s0 s) :
    KeptO s0 (execQnt c w s) := by
  unfold execQnt
  repeat' first
    | with_reducible assumption | with_reducible apply kept_issueTensor | with_reducible apply kept_row_qntRowDef

end Sys2Proof.Machine
end

