-- ==== Sys2Proof/Laws/KeptPages.lean ====
section
/-!
SUPPORT. `Kept` through the Page Walk Unit and the cache instructions.
-/

namespace Sys2Proof.Machine

theorem kept_tableFault {s0 s : State} {i : Inst} {a : Nat} {code : Nat} (hk : Kept s0 s) :
    Kept s0 (State.tableFault s i a code) := by
  unfold State.tableFault
  repeat' first
    | with_reducible assumption | with_reducible apply kept_onInst | with_reducible apply kept_instFault | with_reducible apply kept_ite

theorem kept_readLines {s0 s : State} {i : Inst} {walk : Nat} {ls : List Nat} (hk : Kept s0 s) :
    Kept s0 (State.readLines s i walk ls).1 := by
  unfold State.readLines
  repeat' first
    | with_reducible assumption
    | (extract_lets +onlyGivenNames x; refine kept_cut (s0 := s0) (a := x.1) ?_ ?_; subst x; rotate_left; (intro _; clear_value x); rotate_left)
    | (extract_lets +onlyGivenNames x; subst x) | with_reducible apply kept_onInst | with_reducible apply kept_queueRead
    | with_reducible apply kept_denied | with_reducible apply kept_portDenied | with_reducible apply kept_tableFault | with_reducible apply kept_foldl
    | with_reducible apply kept_foldl_fst | split | (with_reducible intro _ _ _; try beta_reduce)

theorem kept_openSeq {s0 s : State} {i : Inst} {k : Nat} (hk : Kept s0 s) :
    Kept s0 (State.openSeq s i k).1 := by
  unfold State.openSeq
  repeat' first
    | with_reducible assumption
    | (extract_lets +onlyGivenNames x; refine kept_cut (s0 := s0) (a := x.1) ?_ ?_; subst x; rotate_left; (intro _; clear_value x); rotate_left)
    | (extract_lets +onlyGivenNames x; subst x) | with_reducible apply kept_keepRec | with_reducible apply kept_tableFault
    | with_reducible apply kept_readLines | split

theorem kept_putRec {s0 s : State} {i : Inst} {r : SeqRec} {off : Nat} (hk : Kept s0 s) :
    Kept s0 (State.putRec s i r off) := by
  unfold State.putRec
  repeat' first
    | with_reducible assumption
    | (extract_lets +onlyGivenNames x; refine kept_cut (s0 := s0) (a := x) ?_ ?_; subst x; rotate_left; (intro _; clear_value x); rotate_left)
    | (extract_lets +onlyGivenNames x; subst x) | with_reducible apply kept_writeExt | with_reducible apply kept_keepRec | split

theorem kept_readLevel {s0 : State} {i : Inst} {walk : Nat} {line : State → Nat → Option Nat} {acc : State × List Nat} (h : Kept s0 acc.1) :
    Kept s0 (State.readLevel i walk line acc).1 := kept_readLines h

theorem kept_walkOne {s0 s : State} {i : Inst} {r : SeqRec} {layer : Nat} {pages : List Nat} (hk : Kept s0 s) :
    Kept s0 (State.walkOne s i r layer pages).1 := by
  unfold State.walkOne
  extract_lets q
  have hq : Kept s0 q.1 := kept_readLevel (kept_readLevel (kept_readLevel (acc := (s, pages)) hk))
  exact hq

theorem kept_walk {s0 s : State} {i : Inst} {r : SeqRec} {layer : Nat} {pages : List Nat} (hk : Kept s0 s) :
    Kept s0 (State.walk s i r layer pages).1 := by
  unfold State.walk
  repeat' first
    | with_reducible assumption
    | (extract_lets +onlyGivenNames x; refine kept_cut (s0 := s0) (a := x.1) ?_ ?_; subst x; rotate_left; (intro _; clear_value x); rotate_left)
    | with_reducible apply kept_walkOne | with_reducible apply kept_foldl_fst | (with_reducible intro _ _ _; try beta_reduce)

theorem kept_dropLab {s0 s : State} {f : Lab → Bool} (hk : Kept s0 s) :
    Kept s0 (State.dropLab s f) := by
  unfold State.dropLab
  repeat' first
    | with_reducible assumption
    | (extract_lets +onlyGivenNames x; refine kept_cut (s0 := s0) (a := x) ?_ ?_; subst x; rotate_left; (intro _; clear_value x); rotate_left)
    | with_reducible apply kept_onBy | with_reducible apply kept_onPwu | with_reducible apply kept_foldl | with_reducible apply kept_ite
    | (with_reducible intro _; with_reducible rfl) | ((with_reducible intro _ k); exact k) | (with_reducible intro _ _ _; try beta_reduce)

theorem kept_translateAt {s0 s : State} {i : Inst} {bay : Option Nat} {r : SeqRec} {layer : Nat} {pages : List Nat} (hk : Kept s0 s) :
    Kept s0 (State.translateAt s i bay r layer pages).1 := by
  unfold State.translateAt
  repeat' first
    | with_reducible assumption
    | (extract_lets +onlyGivenNames x; refine kept_cut (s0 := s0) (a := x) ?_ ?_; subst x; rotate_left; (intro _; clear_value x); rotate_left)
    | (extract_lets +onlyGivenNames x; refine kept_cut (s0 := s0) (a := x.1) ?_ ?_; subst x; rotate_left; (intro _; clear_value x); rotate_left)
    | (extract_lets +onlyGivenNames x; subst x) | with_reducible apply kept_onBy | with_reducible apply kept_onPwu | with_reducible apply kept_walk
    | with_reducible apply kept_foldl_fst | with_reducible apply kept_ite | split | (with_reducible intro _; with_reducible rfl)
    | ((with_reducible intro _ k); exact k) | (with_reducible intro _ _ _; try beta_reduce)

theorem kept_translate {s0 s : State} {i : Inst} {bays : List Nat} {r : SeqRec} {layer : Nat} {pages : List Nat} (hk : Kept s0 s) :
    Kept s0 (State.translate s i bays r layer pages).1 := by
  unfold State.translate
  repeat' first
    | with_reducible assumption
    | (extract_lets +onlyGivenNames x; refine kept_cut (s0 := s0) (a := x.1) ?_ ?_; subst x; rotate_left; (intro _; clear_value x); rotate_left)
    | (extract_lets +onlyGivenNames x; subst x) | with_reducible apply kept_translateAt | with_reducible apply kept_foldl
    | with_reducible apply kept_ite | (with_reducible intro _ _ _; try beta_reduce)

theorem kept_pageFault {s0 s : State} {i : Inst} {r : SeqRec} {code : Nat} {page : Nat} (hk : Kept s0 s) :
    Kept s0 (State.pageFault s i r code page) := by
  unfold State.pageFault
  repeat' first
    | with_reducible assumption | with_reducible apply kept_instFault | with_reducible apply kept_ite

theorem kept_walkFault {s0 s : State} {i : Inst} {r : SeqRec} {page : Nat} {w : Walk} (hk : Kept s0 s) :
    Kept s0 (State.walkFault s i r page w) := by
  unfold State.walkFault
  repeat' first
    | with_reducible assumption | with_reducible apply kept_pageFault | split

theorem kept_putPte {s0 s : State} {i : Inst} {r : SeqRec} {layer : Nat} {page : Nat} {a : Nat} {e : Pte} (hk : Kept s0 s) :
    Kept s0 (State.putPte s i r layer page a e) := by
  unfold State.putPte
  repeat' first
    | with_reducible assumption | with_reducible apply kept_writeExt | with_reducible apply kept_dropLab

theorem kept_metaFault {s0 s : State} {i : Inst} {slot : Nat} (hk : Kept s0 s) :
    Kept s0 (State.metaFault s i slot) := by
  unfold State.metaFault
  repeat' first
    | with_reducible assumption | with_reducible apply kept_instFault | with_reducible apply kept_ite | split

theorem kept_readMeta {s0 s : State} {i : Inst} {p : Nat} {slot : Nat} (hk : Kept s0 s) :
    Kept s0 (State.readMeta s i p slot).1 := by
  unfold State.readMeta
  repeat' first
    | with_reducible assumption
    | (extract_lets +onlyGivenNames x; refine kept_cut (s0 := s0) (a := x.1) ?_ ?_; subst x; rotate_left; (intro _; clear_value x); rotate_left)
    | (extract_lets +onlyGivenNames x; subst x) | with_reducible apply kept_readLines | with_reducible apply kept_metaFault | split

theorem kept_writeMeta {s0 s : State} {i : Inst} {p : Nat} {slot : Nat} {m : Meta} (hk : Kept s0 s) :
    Kept s0 (State.writeMeta s i p slot m) := by
  unfold State.writeMeta
  repeat' first
    | with_reducible assumption | with_reducible apply kept_writeExt

theorem kept_reserve {s0 s : State} {i : Inst} {need : List (Nat × Nat)} {logs : Nat} (hk : Kept s0 s) :
    Kept s0 (State.reserve s i need logs) := by
  unfold State.reserve
  repeat' first
    | with_reducible assumption
    | (extract_lets +onlyGivenNames x; refine kept_cut (s0 := s0) (a := x) ?_ ?_; subst x; rotate_left; (intro _; clear_value x); rotate_left)
    | with_reducible apply kept_onInst | with_reducible apply kept_onPool | with_reducible apply kept_foldl
    | (with_reducible intro _ _ _; try beta_reduce)

theorem kept_unreserve {s0 s : State} {i : Inst} (hk : Kept s0 s) :
    Kept s0 (State.unreserve s i) := by
  unfold State.unreserve
  repeat' first
    | with_reducible assumption | with_reducible apply kept_onPool | with_reducible apply kept_foldl | (with_reducible intro _ _ _; try beta_reduce)

theorem kept_alloc {s0 s : State} {i : Inst} {p : Nat} (hk : Kept s0 s) :
    Kept s0 (State.alloc s i p).1 := by
  unfold State.alloc
  repeat' first
    | with_reducible assumption
    | (extract_lets +onlyGivenNames x; refine kept_cut (s0 := s0) (a := x) ?_ ?_; subst x; rotate_left; (intro _; clear_value x); rotate_left)
    | (extract_lets +onlyGivenNames x; refine kept_cut (s0 := s0) (a := x.1) ?_ ?_; subst x; rotate_left; (intro _; clear_value x); rotate_left)
    | (extract_lets +onlyGivenNames x; subst x) | with_reducible apply kept_onInst | with_reducible apply kept_onPool
    | with_reducible apply kept_readLines | with_reducible apply kept_metaFault | with_reducible apply kept_readMeta
    | with_reducible apply kept_writeMeta | split

theorem kept_advance {s0 : State} : ∀ {n : Nat} {s : State}, Kept s0 s → Kept s0 (State.advance n s)
  | 0, _, h => h
  | n + 1, s, h => by
    unfold State.advance
    exact kept_ite (kept_advance (kept_onPwu h fun _ => rfl)) h

theorem kept_pwuWrite {s0 s : State} {dom : Nat} {a : Nat} {bs : List Byte} (hk : Kept s0 s) :
    Kept s0 (State.pwuWrite s dom a bs) := by
  unfold State.pwuWrite
  repeat' first
    | with_reducible assumption | with_reducible apply kept_queueWrite | with_reducible apply kept_ite

theorem kept_freeSlot {s0 s : State} {p : Nat} {slot : Nat} {dom : Nat} (hk : Kept s0 s) :
    Kept s0 (State.freeSlot s p slot dom) := by
  unfold State.freeSlot
  repeat' first
    | with_reducible assumption | (extract_lets +onlyGivenNames x; subst x) | with_reducible apply kept_onPool | with_reducible apply kept_pwuWrite

theorem kept_reclaim {s0 : State} : ∀ {n : Nat} {s : State}, Kept s0 s → Kept s0 (State.reclaim n s)
  | 0, _, h => h
  | n + 1, s, h => by
    unfold State.reclaim
    split
    · exact h
    · refine kept_ite (kept_reclaim (kept_onPool (kept_freeSlot (kept_onPwu h ?_)))) h
      exact fun _ => rfl

theorem kept_settle {s0 s : State} (hk : Kept s0 s) :
    Kept s0 (State.settle s) := by
  unfold State.settle
  repeat' first
    | with_reducible assumption | with_reducible apply kept_advance | with_reducible apply kept_reclaim

theorem kept_release {s0 s : State} {i : Inst} {p : Nat} {frame : Nat} (hk : Kept s0 s) :
    Kept s0 (State.release s i p frame) := by
  unfold State.release
  repeat' first
    | with_reducible assumption
    | (extract_lets +onlyGivenNames x; refine kept_cut (s0 := s0) (a := x) ?_ ?_; subst x; rotate_left; (intro _; clear_value x); rotate_left)
    | (extract_lets +onlyGivenNames x; refine kept_cut (s0 := s0) (a := x.1) ?_ ?_; subst x; rotate_left; (intro _; clear_value x); rotate_left)
    | (extract_lets +onlyGivenNames x; subst x) | with_reducible apply kept_onPool | with_reducible apply kept_onPwu
    | with_reducible apply kept_readMeta | with_reducible apply kept_writeMeta | with_reducible apply kept_settle | with_reducible apply kept_ite
    | split | (with_reducible intro _; with_reducible rfl)

theorem kept_addRef {s0 s : State} {i : Inst} {p : Nat} {frame : Nat} (hk : Kept s0 s) :
    Kept s0 (State.addRef s i p frame) := by
  unfold State.addRef
  repeat' first
    | with_reducible assumption
    | (extract_lets +onlyGivenNames x; refine kept_cut (s0 := s0) (a := x.1) ?_ ?_; subst x; rotate_left; (intro _; clear_value x); rotate_left)
    | with_reducible apply kept_readMeta | with_reducible apply kept_writeMeta | split

theorem kept_refOf {s0 s : State} {i : Inst} {p : Nat} {frame : Nat} (hk : Kept s0 s) :
    Kept s0 (State.refOf s i p frame).1 := by
  unfold State.refOf
  repeat' first
    | with_reducible assumption
    | (extract_lets +onlyGivenNames x; refine kept_cut (s0 := s0) (a := x.1) ?_ ?_; subst x; rotate_left; (intro _; clear_value x); rotate_left)
    | with_reducible apply kept_readMeta | split

theorem kept_copyFrame {s0 s : State} {i : Inst} {c : PoolCfg} {src : Nat} {dst : Nat} {more : List Tgt} (hk : Kept s0 s) :
    Kept s0 (State.copyFrame s i c src dst more).1 := by
  unfold State.copyFrame
  repeat' first
    | with_reducible assumption
    | (extract_lets +onlyGivenNames x; refine kept_cut (s0 := s0) (a := x.1) ?_ ?_; subst x; rotate_left; (intro _; clear_value x); rotate_left)
    | with_reducible apply kept_readExt | with_reducible apply kept_writeExt

theorem kept_readDigest {s0 s : State} {i : Inst} {c : PoolCfg} {a : Nat} {fill : Nat} {tgt : List Tgt} (hk : Kept s0 s) :
    Kept s0 (State.readDigest s i c a fill tgt).1 := by
  unfold State.readDigest
  repeat' first
    | with_reducible assumption
    | (extract_lets +onlyGivenNames x; refine kept_cut (s0 := s0) (a := x.1) ?_ ?_; subst x; rotate_left; (intro _; clear_value x); rotate_left)
    | with_reducible apply kept_readExt | with_reducible apply kept_foldl_fst | (with_reducible intro _ _ _; try beta_reduce)

theorem kept_metaOfFrame {s0 s : State} {i : Inst} {p : Nat} {frame : Nat} (hk : Kept s0 s) :
    Kept s0 (State.metaOfFrame s i p frame).1 := by
  unfold State.metaOfFrame
  repeat' first
    | with_reducible assumption
    | (extract_lets +onlyGivenNames x; refine kept_cut (s0 := s0) (a := x.1) ?_ ?_; subst x; rotate_left; (intro _; clear_value x); rotate_left)
    | with_reducible apply kept_readMeta | split

theorem kept_writeDigest {s0 s : State} {i : Inst} {p : Nat} {m : Nat × Meta} {valid : Bool} {dig : Nat} {bad : Bool} (hk : Kept s0 s) :
    Kept s0 (State.writeDigest s i p m valid dig bad) := by
  unfold State.writeDigest
  repeat' first
    | with_reducible assumption | with_reducible apply kept_writeExt

theorem kept_putDigest {s0 s : State} {i : Inst} {p : Nat} {frame : Nat} {valid : Bool} {dig : Nat} {bad : Bool} (hk : Kept s0 s) :
    Kept s0 (State.putDigest s i p frame valid dig bad) := by
  unfold State.putDigest
  repeat' first
    | with_reducible assumption
    | (extract_lets +onlyGivenNames x; refine kept_cut (s0 := s0) (a := x.1) ?_ ?_; subst x; rotate_left; (intro _; clear_value x); rotate_left)
    | with_reducible apply kept_metaOfFrame | with_reducible apply kept_writeDigest | split

theorem kept_digestInto {s0 s : State} {i : Inst} {p : Nat} {frame : Nat} {fill : Nat} {m : Nat × Meta} (hk : Kept s0 s) :
    Kept s0 (State.digestInto s i p frame fill m) := by
  unfold State.digestInto
  repeat' first
    | with_reducible assumption
    | (extract_lets +onlyGivenNames x; refine kept_cut (s0 := s0) (a := x.1) ?_ ?_; subst x; rotate_left; (intro _; clear_value x); rotate_left)
    | with_reducible apply kept_readDigest | with_reducible apply kept_writeDigest

theorem kept_storeDigest {s0 s : State} {i : Inst} {p : Nat} {frame : Nat} {fill : Nat} (hk : Kept s0 s) :
    Kept s0 (State.storeDigest s i p frame fill) := by
  unfold State.storeDigest
  repeat' first
    | with_reducible assumption
    | (extract_lets +onlyGivenNames x; refine kept_cut (s0 := s0) (a := x.1) ?_ ?_; subst x; rotate_left; (intro _; clear_value x); rotate_left)
    | with_reducible apply kept_metaOfFrame | with_reducible apply kept_digestInto | split

theorem kept_readKeys {s0 s : State} {i : Inst} {c : PoolCfg} {a : Nat} {lo : Nat} {hi : Nat} {found : Bool} (hk : Kept s0 s) :
    Kept s0 (State.readKeys s i c a lo hi found).1 := by
  unfold State.readKeys
  repeat' first
    | with_reducible assumption
    | (extract_lets +onlyGivenNames x; refine kept_cut (s0 := s0) (a := x.1) ?_ ?_; subst x; rotate_left; (intro _; clear_value x); rotate_left)
    | (extract_lets +onlyGivenNames x; subst x) | with_reducible apply kept_readExt | with_reducible apply kept_foldl_fst | split
    | (with_reducible intro _ _ _; try beta_reduce)

theorem kept_mergeSummary {s0 s : State} {i : Inst} {c : PoolCfg} {a : Nat} {lo : Nat} {hi : Nat} {found : Bool} {bad : Bool} (hk : Kept s0 s) :
    Kept s0 (State.mergeSummary s i c a lo hi found bad) := by
  unfold State.mergeSummary
  repeat' first
    | with_reducible assumption
    | (extract_lets +onlyGivenNames x; refine kept_cut (s0 := s0) (a := x.1) ?_ ?_; subst x; rotate_left; (intro _; clear_value x); rotate_left)
    | (extract_lets +onlyGivenNames x; subst x) | with_reducible apply kept_readExt | with_reducible apply kept_writeExt
    | with_reducible apply kept_readKeys

theorem kept_snapLog {s0 s : State} {i : Inst} {r : SeqRec} {kind : Nat} {layer : Nat} {page : Nat} {e : Pte} {dig : Nat} {bad : Bool} (hk : Kept s0 s) :
    Kept s0 (State.snapLog s i r kind layer page e dig bad) := by
  unfold State.snapLog
  repeat' first
    | with_reducible assumption
    | (extract_lets +onlyGivenNames x; refine kept_cut (s0 := s0) (a := x) ?_ ?_; subst x; rotate_left; (intro _; clear_value x); rotate_left)
    | (extract_lets +onlyGivenNames x; subst x) | with_reducible apply kept_onInst | with_reducible apply kept_onPwu
    | with_reducible apply kept_writeExt | (with_reducible intro _; with_reducible rfl)

theorem kept_snapRef {s0 s : State} {i : Inst} {r : SeqRec} {layer : Nat} {page : Nat} {e : Pte} (hk : Kept s0 s) :
    Kept s0 (State.snapRef s i r layer page e) := by
  unfold State.snapRef
  repeat' first
    | with_reducible assumption
    | (extract_lets +onlyGivenNames x; refine kept_cut (s0 := s0) (a := x.1) ?_ ?_; subst x; rotate_left; (intro _; clear_value x); rotate_left)
    | with_reducible apply kept_addRef | with_reducible apply kept_readDigest | with_reducible apply kept_snapLog

theorem kept_copyPage {s0 s : State} {i : Inst} {e : Pte} {dst : Nat} {more : Nat → List Tgt} (hk : Kept s0 s) :
    Kept s0 (State.copyPage s i e dst more).1 := by
  unfold State.copyPage
  repeat' first
    | with_reducible assumption
    | (extract_lets +onlyGivenNames x; refine kept_cut (s0 := s0) (a := x.1) ?_ ?_; subst x; rotate_left; (intro _; clear_value x); rotate_left)
    | (extract_lets +onlyGivenNames x; subst x) | with_reducible apply kept_alloc | with_reducible apply kept_copyFrame | split

theorem kept_copyWithDigest {s0 s : State} {i : Inst} {e : Pte} {dst : Nat} {more : List Tgt} (hk : Kept s0 s) :
    Kept s0 (State.copyWithDigest s i e dst more).1 := by
  unfold State.copyWithDigest
  repeat' first
    | with_reducible assumption
    | (extract_lets +onlyGivenNames x; refine kept_cut (s0 := s0) (a := x.1) ?_ ?_; subst x; rotate_left; (intro _; clear_value x); rotate_left)
    | (extract_lets +onlyGivenNames x; subst x) | with_reducible apply kept_putDigest | with_reducible apply kept_copyPage | split

theorem kept_snapCopy {s0 s : State} {i : Inst} {r : SeqRec} {layer : Nat} {page : Nat} {e : Pte} (hk : Kept s0 s) :
    Kept s0 (State.snapCopy s i r layer page e).1 := by
  unfold State.snapCopy
  repeat' first
    | with_reducible assumption
    | (extract_lets +onlyGivenNames x; refine kept_cut (s0 := s0) (a := x.1) ?_ ?_; subst x; rotate_left; (intro _; clear_value x); rotate_left)
    | with_reducible apply kept_snapLog | with_reducible apply kept_copyWithDigest | split

theorem kept_forWrite {s0 s : State} {i : Inst} {r : SeqRec} {layer : Nat} {page : Nat} {a : Nat} {e : Pte} (hk : Kept s0 s) :
    Kept s0 (State.forWrite s i r layer page a e).1 := by
  unfold State.forWrite
  repeat' first
    | with_reducible assumption
    | (extract_lets +onlyGivenNames x; refine kept_cut (s0 := s0) (a := x) ?_ ?_; subst x; rotate_left; (intro _; clear_value x); rotate_left)
    | (extract_lets +onlyGivenNames x; refine kept_cut (s0 := s0) (a := x.1) ?_ ?_; subst x; rotate_left; (intro _; clear_value x); rotate_left)
    | (extract_lets +onlyGivenNames x; subst x) | with_reducible apply kept_putPte | with_reducible apply kept_release
    | with_reducible apply kept_refOf | with_reducible apply kept_snapRef | with_reducible apply kept_copyWithDigest
    | with_reducible apply kept_snapCopy | with_reducible apply kept_ite | split

theorem kept_newTable {s0 s : State} {i : Inst} (hk : Kept s0 s) :
    Kept s0 (State.newTable s i).1 := by
  unfold State.newTable
  repeat' first
    | with_reducible assumption
    | (extract_lets +onlyGivenNames x; refine kept_cut (s0 := s0) (a := x.1) ?_ ?_; subst x; rotate_left; (intro _; clear_value x); rotate_left)
    | (extract_lets +onlyGivenNames x; subst x) | with_reducible apply kept_writeExt | with_reducible apply kept_alloc | split

theorem kept_makeLeaf {s0 s : State} {i : Inst} {r : SeqRec} {layer : Nat} {page : Nat} (hk : Kept s0 s) :
    Kept s0 (State.makeLeaf s i r layer page).1 := by
  unfold State.makeLeaf
  repeat' first
    | with_reducible assumption
    | (extract_lets +onlyGivenNames x; refine kept_cut (s0 := s0) (a := x.1) ?_ ?_; subst x; rotate_left; (intro _; clear_value x); rotate_left)
    | (extract_lets +onlyGivenNames x; subst x) | with_reducible apply kept_writeExt | with_reducible apply kept_pageFault
    | with_reducible apply kept_newTable | split

theorem kept_newPage {s0 s : State} {i : Inst} {pool : Nat} (hk : Kept s0 s) :
    Kept s0 (State.newPage s i pool).1 := by
  unfold State.newPage
  repeat' first
    | with_reducible assumption
    | (extract_lets +onlyGivenNames x; refine kept_cut (s0 := s0) (a := x.1) ?_ ?_; subst x; rotate_left; (intro _; clear_value x); rotate_left)
    | (extract_lets +onlyGivenNames x; subst x) | with_reducible apply kept_writeExt | with_reducible apply kept_alloc | split

theorem kept_pieces {s0 : State} {n k : Nat} {f : State → Nat → State} (hf : ∀ s j, Kept s0 s → Kept s0 (f s j)) :
    ∀ (fuel : Nat) {s : State}, Kept s0 s → Kept s0 (State.pieces n k f fuel s).1
  | 0, _, h => h
  | fuel + 1, s, h => by
    unfold State.pieces
    split
    · exact h
    · split
      · exact h
      · split
        · exact h
        · extract_lets t
          have ht : Kept s0 t := hf _ _ h
          split
          · exact ht
          · split
            · exact kept_onInst h
            · split
              · exact ht
              · exact kept_pieces hf fuel (kept_onInst ht)

theorem kept_unpark {s0 s : State} {f : Park → Bool} (hk : Kept s0 s) :
    Kept s0 (State.unpark s f) := by
  unfold State.unpark
  extract_lets gone s1
  refine kept_foldl (fun _ _ h => ?_) _ ?_
  · first | exact kept_onInst h | exact kept_ite (kept_onInst h) h
  · exact kept_onPwu hk fun _ => rfl

theorem kept_withSeq {s0 s : State} {i : Inst} {f : State → SeqRec → State} (hk : Kept s0 s) (hf : ∀ (x0 : State) (x1 : SeqRec), Kept s0 x0 → Kept s0 (f x0 x1)) :
    Kept s0 (State.withSeq s i f) := by
  unfold State.withSeq
  repeat' first
    | with_reducible assumption
    | (extract_lets +onlyGivenNames x; refine kept_cut (s0 := s0) (a := x.1) ?_ ?_; subst x; rotate_left; (intro _; clear_value x); rotate_left)
    | with_reducible apply hf | with_reducible apply kept_openSeq | split

theorem kept_untilFault {s0 : State} {α : Type} {n : Nat} {f : State → α → State} (hf : ∀ s a, Kept s0 s → Kept s0 (f s a)) :
    ∀ {l : List α} {s : State}, Kept s0 s → Kept s0 (State.untilFault n l f s)
  | [], _, h => h
  | a :: l, s, h => by
    unfold State.untilFault
    split
    · exact kept_ite (kept_untilFault hf (hf _ _ h)) h
    · exact h

theorem kept_parkFar {s0 s : State} {i : Inst} {r : SeqRec} {layer : Nat} {far : List Nat} (hk : Kept s0 s) :
    Kept s0 (State.parkFar s i r layer far).1 := by
  unfold State.parkFar
  repeat' first
    | with_reducible assumption
    | (extract_lets +onlyGivenNames x; refine kept_cut (s0 := s0) (a := x) ?_ ?_; subst x; rotate_left; (intro _; clear_value x); rotate_left)
    | with_reducible apply kept_onInst | with_reducible apply kept_onPwu | with_reducible apply kept_raise | with_reducible apply kept_instFault
    | with_reducible apply kept_foldl | split | (with_reducible intro _; with_reducible rfl) | (with_reducible intro _ _ _; try beta_reduce)

theorem kept_openSession {s0 s : State} {i : Inst} (hk : Kept s0 s) :
    Kept s0 (State.openSession s i) := by
  unfold State.openSession
  repeat' first
    | with_reducible assumption | with_reducible apply kept_onInst

theorem kept_putToken {s0 s : State} {i : Inst} {c : PoolCfg} {p : Nat} {a : Nat} {t : Nat} {j : Nat} (hk : Kept s0 s) :
    Kept s0 (State.putToken s i c p a t j) := by
  unfold State.putToken
  repeat' first
    | with_reducible assumption
    | (extract_lets +onlyGivenNames x; refine kept_cut (s0 := s0) (a := x) ?_ ?_; subst x; rotate_left; (intro _; clear_value x); rotate_left)
    | (extract_lets +onlyGivenNames x; refine kept_cut (s0 := s0) (a := x.1) ?_ ?_; subst x; rotate_left; (intro _; clear_value x); rotate_left)
    | (extract_lets +onlyGivenNames x; subst x) | with_reducible apply kept_poisonTgt | with_reducible apply kept_writeExt
    | with_reducible apply kept_markPoison | with_reducible apply kept_count | with_reducible apply kept_readRow | with_reducible apply kept_rowNotes
    | with_reducible apply kept_foldl | with_reducible intro _ _ _ | with_reducible apply kept_ite | split

theorem kept_fullMeta {s0 s : State} {i : Inst} {e : Pte} {hi : Nat} (hk : Kept s0 s) :
    Kept s0 (State.fullMeta s i e hi).1 := by
  unfold State.fullMeta
  repeat' first
    | with_reducible assumption
    | (extract_lets +onlyGivenNames x; refine kept_cut (s0 := s0) (a := x.1) ?_ ?_; subst x; rotate_left; (intro _; clear_value x); rotate_left)
    | with_reducible apply kept_metaOfFrame | split

theorem kept_commitPage {s0 s : State} {i : Inst} {r : SeqRec} {layer : Nat} {page : Nat} {a : Nat} {e : Pte} {lo : Nat} {hi : Nat} {found : Bool} {bad : Bool} {m : Option (Nat × Meta)} (hk : Kept s0 s) :
    Kept s0 (State.commitPage s i r layer page a e lo hi found bad m) := by
  unfold State.commitPage
  repeat' first
    | with_reducible assumption
    | (extract_lets +onlyGivenNames x; refine kept_cut (s0 := s0) (a := x) ?_ ?_; subst x; rotate_left; (intro _; clear_value x); rotate_left)
    | (extract_lets +onlyGivenNames x; subst x) | with_reducible apply kept_putPte | with_reducible apply kept_digestInto
    | with_reducible apply kept_mergeSummary | split

theorem kept_appendPage {s0 s : State} {i : Inst} {r : SeqRec} {p : Nat} (hk : Kept s0 s) :
    Kept s0 (State.appendPage s i r p) := by
  unfold State.appendPage
  repeat' first
    | with_reducible assumption
    | (extract_lets +onlyGivenNames x; refine kept_cut (s0 := s0) (a := x.1) ?_ ?_; subst x; rotate_left; (intro _; clear_value x); rotate_left)
    | (extract_lets +onlyGivenNames x; subst x) | with_reducible apply kept_pageFault | with_reducible apply kept_putPte
    | with_reducible apply kept_forWrite | with_reducible apply kept_makeLeaf | with_reducible apply kept_newPage | with_reducible apply kept_putToken
    | with_reducible apply kept_foldl | split | (with_reducible intro _ _ _; try beta_reduce)

theorem kept_appendWalk {s0 s : State} {i : Inst} {r : SeqRec} {ps : List Nat} (hk : Kept s0 s) :
    Kept s0 (State.appendWalk s i r ps) := by
  unfold State.appendWalk
  repeat' first
    | with_reducible assumption
    | (extract_lets +onlyGivenNames x; refine kept_cut (s0 := s0) (a := x.1) ?_ ?_; subst x; rotate_left; (intro _; clear_value x); rotate_left)
    | with_reducible apply kept_walk | with_reducible apply kept_walkFault | with_reducible apply kept_parkFar | split

theorem kept_appendEnd {s0 s : State} {i : Inst} {r : SeqRec} {ps : List Nat} (hk : Kept s0 s) :
    Kept s0 (State.appendEnd s i r ps) := by
  unfold State.appendEnd
  repeat' first
    | with_reducible assumption
    | (extract_lets +onlyGivenNames x; refine kept_cut (s0 := s0) (a := x) ?_ ?_; subst x; rotate_left; (intro _; clear_value x); rotate_left)
    | (extract_lets +onlyGivenNames x; refine kept_cut (s0 := s0) (a := x.1) ?_ ?_; subst x; rotate_left; (intro _; clear_value x); rotate_left)
    | (extract_lets +onlyGivenNames x; subst x) | with_reducible apply kept_putRec | with_reducible apply kept_fullMeta
    | with_reducible apply kept_commitPage | with_reducible apply kept_foldl | with_reducible apply kept_foldl_fst | with_reducible apply kept_ite
    | split | (with_reducible intro _ _ _; try beta_reduce)

theorem kept_append {s0 s : State} {i : Inst} {r : SeqRec} (hk : Kept s0 s) :
    Kept s0 (State.append s i r).1 := by
  unfold State.append
  extract_lets ps m q
  have hq : Kept s0 q.1 := kept_pieces (fun _ _ h => kept_ite (kept_appendWalk h) (kept_appendPage h)) _ hk
  split
  · exact hq
  · split
    · exact hq
    · split
      · exact hq
      · exact kept_pieces (fun _ _ h => kept_appendEnd h) _ hq

theorem kept_draftPage {s0 s : State} {i : Inst} {r : SeqRec} {p : Nat} (hk : Kept s0 s) :
    Kept s0 (State.draftPage s i r p).1 := by
  unfold State.draftPage
  repeat' first
    | with_reducible assumption
    | (extract_lets +onlyGivenNames x; refine kept_cut (s0 := s0) (a := x.1) ?_ ?_; subst x; rotate_left; (intro _; clear_value x); rotate_left)
    | (extract_lets +onlyGivenNames x; subst x) | with_reducible apply kept_writeExt | with_reducible apply kept_putPte
    | with_reducible apply kept_refOf | with_reducible apply kept_copyPage | with_reducible apply kept_makeLeaf | with_reducible apply kept_newPage
    | split

theorem kept_appendDrafts {s0 s : State} {i : Inst} {r : SeqRec} (hk : Kept s0 s) :
    Kept s0 (State.appendDrafts s i r) := by
  unfold State.appendDrafts
  repeat' first
    | with_reducible assumption
    | (extract_lets +onlyGivenNames x; refine kept_cut (s0 := s0) (a := x) ?_ ?_; subst x; rotate_left; (intro _; clear_value x); rotate_left)
    | (extract_lets +onlyGivenNames x; refine kept_cut (s0 := s0) (a := x.1) ?_ ?_; subst x; rotate_left; (intro _; clear_value x); rotate_left)
    | (extract_lets +onlyGivenNames x; subst x) | with_reducible apply kept_putRec | with_reducible apply kept_walk
    | with_reducible apply kept_putToken | with_reducible apply kept_draftPage | with_reducible apply kept_foldl | split
    | (with_reducible intro _ _ _; try beta_reduce)

theorem kept_kvap {s0 s : State} {i : Inst} (hk : Kept s0 s) :
    Kept s0 (State.kvap s i).1 := by
  unfold State.kvap
  repeat' first
    | with_reducible assumption
    | (extract_lets +onlyGivenNames x; refine kept_cut (s0 := s0) (a := x.1) ?_ ?_; subst x; rotate_left; (intro _; clear_value x); rotate_left)
    | with_reducible apply kept_openSeq | with_reducible apply kept_append | with_reducible apply kept_appendDrafts | split

theorem kept_onLeaf {s0 s : State} {i : Inst} {r : SeqRec} {layer : Nat} {p : Nat} {f : State → Nat → Pte → State} (hk : Kept s0 s) (hf : ∀ (x0 : State) (x1 : Nat) (x2 : Pte), Kept s0 x0 → Kept s0 (f x0 x1 x2)) :
    Kept s0 (State.onLeaf s i r layer p f) := by
  unfold State.onLeaf
  repeat' first
    | with_reducible assumption | with_reducible apply hf | with_reducible apply kept_pageFault | split

theorem kept_withTail {s0 s : State} {i : Inst} {r : SeqRec} {layer : Nat} {f : State → State} (hk : Kept s0 s) (hf : ∀ (x0 : State), Kept s0 x0 → Kept s0 (f x0)) :
    Kept s0 (State.withTail s i r layer f) := by
  unfold State.withTail
  repeat' first
    | with_reducible assumption
    | (extract_lets +onlyGivenNames x; refine kept_cut (s0 := s0) (a := x.1) ?_ ?_; subst x; rotate_left; (intro _; clear_value x); rotate_left)
    | with_reducible apply hf | with_reducible apply kept_readLines | with_reducible apply kept_ite

theorem kept_swingTail {s0 s : State} {i : Inst} {r : SeqRec} {layer : Nat} (hk : Kept s0 s) :
    Kept s0 (State.swingTail s i r layer) := by
  unfold State.swingTail
  repeat' first
    | with_reducible assumption
    | (extract_lets +onlyGivenNames x; refine kept_cut (s0 := s0) (a := x) ?_ ?_; subst x; rotate_left; (intro _; clear_value x); rotate_left)
    | (extract_lets +onlyGivenNames x; refine kept_cut (s0 := s0) (a := x.1) ?_ ?_; subst x; rotate_left; (intro _; clear_value x); rotate_left)
    | (extract_lets +onlyGivenNames x; subst x) | with_reducible apply kept_writeExt | with_reducible apply kept_pageFault
    | with_reducible apply kept_putPte | with_reducible apply kept_release | with_reducible apply kept_snapCopy | with_reducible apply kept_onLeaf
    | with_reducible apply kept_withTail | with_reducible apply kept_ite | split | (with_reducible intro _ _ _ _; try beta_reduce)
    | (with_reducible intro _ _; try beta_reduce)

theorem kept_commitLayer {s0 s : State} {i : Inst} {r : SeqRec} {layer : Nat} (hk : Kept s0 s) :
    Kept s0 (State.commitLayer s i r layer) := by
  unfold State.commitLayer
  repeat' first
    | with_reducible assumption
    | (extract_lets +onlyGivenNames x; refine kept_cut (s0 := s0) (a := x.1) ?_ ?_; subst x; rotate_left; (intro _; clear_value x); rotate_left)
    | (extract_lets +onlyGivenNames x; subst x) | with_reducible apply kept_forWrite | with_reducible apply kept_untilFault
    | with_reducible apply kept_fullMeta | with_reducible apply kept_commitPage | with_reducible apply kept_onLeaf | with_reducible apply kept_ite
    | split | (with_reducible intro _ _ _ _; try beta_reduce) | (with_reducible intro _ _ _; try beta_reduce)

theorem kept_dropDrafts {s0 s : State} {i : Inst} {r : SeqRec} {layer : Nat} (hk : Kept s0 s) :
    Kept s0 (State.dropDrafts s i r layer) := by
  unfold State.dropDrafts
  repeat' first
    | with_reducible assumption
    | (extract_lets +onlyGivenNames x; refine kept_cut (s0 := s0) (a := x) ?_ ?_; subst x; rotate_left; (intro _; clear_value x); rotate_left)
    | with_reducible apply kept_writeExt | with_reducible apply kept_putPte | with_reducible apply kept_release | with_reducible apply kept_snapRef
    | with_reducible apply kept_untilFault | with_reducible apply kept_onLeaf | with_reducible apply kept_withTail | with_reducible apply kept_ite
    | split | (with_reducible intro _ _ _ _; try beta_reduce) | (with_reducible intro _ _ _; try beta_reduce)
    | (with_reducible intro _ _; try beta_reduce)

theorem kept_openCommit {s0 s : State} {i : Inst} {r : SeqRec} (hk : Kept s0 s) :
    Kept s0 (State.openCommit s i r).1 := by
  unfold State.openCommit
  repeat' first
    | with_reducible assumption
    | (extract_lets +onlyGivenNames x; refine kept_cut (s0 := s0) (a := x.1) ?_ ?_; subst x; rotate_left; (intro _; clear_value x); rotate_left)
    | with_reducible apply kept_walk | with_reducible apply kept_walkFault | with_reducible apply kept_parkFar | with_reducible apply kept_foldl_fst
    | split | (with_reducible intro _ _ _; try beta_reduce)

theorem kept_commitLen {s0 s : State} {i : Inst} {r : SeqRec} (hk : Kept s0 s) :
    Kept s0 (State.commitLen s i r) := by
  unfold State.commitLen
  repeat' first
    | with_reducible assumption | (extract_lets +onlyGivenNames x; subst x) | with_reducible apply kept_onInst | with_reducible apply kept_putRec
    | with_reducible apply kept_ite | split

theorem kept_kvcmPiece {s0 s : State} {i : Inst} {r : SeqRec} {k : Nat} (hk : Kept s0 s) :
    Kept s0 (State.kvcmPiece s i r k) := by
  unfold State.kvcmPiece
  repeat' first
    | with_reducible assumption | (extract_lets +onlyGivenNames x; subst x) | with_reducible apply kept_swingTail
    | with_reducible apply kept_commitLayer | with_reducible apply kept_dropDrafts | with_reducible apply kept_commitLen
    | with_reducible apply kept_ite

theorem kept_kvcm {s0 s : State} {i : Inst} (hk : Kept s0 s) :
    Kept s0 (State.kvcm s i).1 := by
  unfold State.kvcm
  extract_lets q
  have hq : Kept s0 q.1 := kept_openSeq hk
  split
  · exact hq
  · extract_lets f
    have hf : Kept s0 f.1 := by
      simp only [f]
      split
      · exact kept_openCommit hq
      · exact hq
    clear_value f
    split
    · exact hf
    · exact kept_pieces (fun _ _ h => kept_kvcmPiece h) _ hf

theorem kept_kvcmEnd {s0 s : State} {i : Inst} (hk : Kept s0 s) :
    Kept s0 (State.kvcmEnd s i) := by
  unfold State.kvcmEnd
  repeat' first
    | exact kc.same rfl | with_reducible assumption | (extract_lets +onlyGivenNames x; subst x) | with_reducible refine kept_onCx ?_ fun kc => ?_

theorem kept_row_kvfnRow {s0 : State} {t : State} {i : Inst} (hk : Kept s0 t) :
    Kept s0 (kvfnRow.effect t i) := by
  unfold kvfnRow
  repeat' first
    | with_reducible assumption | with_reducible apply kept_row_TRow_plain | with_reducible intro _ _ _

theorem kept_execKvfn {s0 s : State} {c : Fin 64} {w : Long} (hk : Kept s0 s) :
    KeptO s0 (execKvfn c w s) := by
  unfold execKvfn kvfnRow
  repeat' first
    | with_reducible assumption | with_reducible apply kept_row_TRow_plain | with_reducible apply kept_issueTensor | with_reducible intro _ _ _

theorem kept_copyPages {s0 s : State} {i : Inst} {pages : List Pte} (hk : Kept s0 s) :
    Kept s0 (State.copyPages s i pages) := by
  unfold State.copyPages
  repeat' first
    | with_reducible assumption
    | (extract_lets +onlyGivenNames x; refine kept_cut (s0 := s0) (a := x.1) ?_ ?_; subst x; rotate_left; (intro _; clear_value x); rotate_left)
    | (extract_lets +onlyGivenNames x; subst x) | with_reducible apply kept_putBay | with_reducible apply kept_readExt
    | with_reducible apply kept_markPoison | with_reducible apply kept_copyFrame | with_reducible apply kept_foldl | split
    | (with_reducible intro _ _ _; try beta_reduce)

theorem kept_kviv {s0 s : State} {i : Inst} (hk : Kept s0 s) :
    Kept s0 (State.kviv s i) := by
  unfold State.kviv
  repeat' first
    | with_reducible assumption
    | (extract_lets +onlyGivenNames x; refine kept_cut (s0 := s0) (a := x) ?_ ?_; subst x; rotate_left; (intro _; clear_value x); rotate_left)
    | (extract_lets +onlyGivenNames x; subst x) | with_reducible apply kept_onInsts | with_reducible apply kept_onPwu
    | with_reducible apply kept_dropLab | split | (with_reducible intro _; with_reducible rfl)

theorem kept_parkEnd {s0 s : State} {i : Inst} (hk : Kept s0 s) :
    Kept s0 (State.parkEnd s i) := by
  unfold State.parkEnd
  repeat' first
    | with_reducible assumption | with_reducible apply kept_unpark | with_reducible apply kept_ite

theorem kept_row_kvivRow {s0 : State} {t : State} {i : Inst} (hk : Kept s0 t) :
    Kept s0 (kvivRow.effect t i) := by
  unfold kvivRow
  repeat' first
    | with_reducible assumption | with_reducible apply kept_row_TRow_plain | with_reducible apply kept_kviv

theorem kept_execKviv {s0 s : State} {c : Fin 64} {w : Long} (hk : Kept s0 s) :
    KeptO s0 (execKviv c w s) := by
  unfold execKviv kvivRow
  repeat' first
    | with_reducible assumption | with_reducible apply kept_row_TRow_plain | with_reducible apply kept_issueTensor | with_reducible apply kept_kviv
    | with_reducible intro _ _ _

theorem kept_eachPage {s0 s : State} {i : Inst} {r : SeqRec} {must : Bool} {f : State → Nat → Nat → Pte → State} (hk : Kept s0 s) (hf : ∀ (x0 : State) (x1 : Nat) (x2 : Nat) (x3 : Pte), Kept s0 x0 → Kept s0 (f x0 x1 x2 x3)) :
    Kept s0 (State.eachPage s i r must f).1 := by
  unfold State.eachPage
  refine kept_pieces (fun s k h => ?_) _ hk
  extract_lets p s1
  have h1 : Kept s0 s1 := kept_ite (kept_walk h) h
  clear_value s1
  refine kept_untilFault (fun x p hx => ?_) h1
  split
  · exact hf _ _ _ _ hx
  · exact kept_ite (kept_walkFault hx) hx
  · exact kept_walkFault hx

theorem kept_copyOne {s0 s : State} {i : Inst} {r : SeqRec} {p : Nat} {a : Nat} {e : Pte} (hk : Kept s0 s) :
    Kept s0 (State.copyOne s i r p a e) := by
  unfold State.copyOne
  repeat' first
    | with_reducible assumption
    | (extract_lets +onlyGivenNames x; refine kept_cut (s0 := s0) (a := x) ?_ ?_; subst x; rotate_left; (intro _; clear_value x); rotate_left)
    | (extract_lets +onlyGivenNames x; refine kept_cut (s0 := s0) (a := x.1) ?_ ?_; subst x; rotate_left; (intro _; clear_value x); rotate_left)
    | (extract_lets +onlyGivenNames x; subst x) | with_reducible apply kept_putPte | with_reducible apply kept_readMeta
    | with_reducible apply kept_release | with_reducible apply kept_putDigest | with_reducible apply kept_snapRef | with_reducible apply kept_copyPage
    | with_reducible apply kept_ite | split

theorem kept_moveTier {s0 s : State} {i : Inst} {r : SeqRec} {dst : Nat} {far : Bool} {p : Nat} {a : Nat} {e : Pte} (hk : Kept s0 s) :
    Kept s0 (State.moveTier s i r dst far p a e) := by
  unfold State.moveTier
  repeat' first
    | with_reducible assumption
    | (extract_lets +onlyGivenNames x; refine kept_cut (s0 := s0) (a := x) ?_ ?_; subst x; rotate_left; (intro _; clear_value x); rotate_left)
    | (extract_lets +onlyGivenNames x; refine kept_cut (s0 := s0) (a := x.1) ?_ ?_; subst x; rotate_left; (intro _; clear_value x); rotate_left)
    | (extract_lets +onlyGivenNames x; subst x) | with_reducible apply kept_instFault | with_reducible apply kept_putPte
    | with_reducible apply kept_readMeta | with_reducible apply kept_release | with_reducible apply kept_putDigest | with_reducible apply kept_snapRef
    | with_reducible apply kept_copyPage | with_reducible apply kept_ite | split

theorem kept_thenRec {s0 : State} {s : State × Bool} {n : Nat} {f : State → State} (h : Kept s0 s.1)
    (hf : ∀ x, Kept s0 x → Kept s0 (f x)) : Kept s0 (State.thenRec s n f).1 :=
  kept_ite (kept_untilFault (fun _ _ hx => hf _ hx) h) h

theorem kept_pgcw {s0 s : State} {i : Inst} (hk : Kept s0 s) :
    Kept s0 (State.pgcw s i).1 := by
  unfold State.pgcw
  extract_lets q
  have hq : Kept s0 q.1 := kept_openSeq hk
  split
  · exact hq
  · split
    · exact kept_eachPage hq fun _ _ _ _ h => kept_copyOne h
    · exact kept_eachPage hq fun _ _ _ _ h => kept_moveTier h
    · exact kept_eachPage hq fun _ _ _ _ h => kept_moveTier h
    · exact kept_thenRec (kept_eachPage hq fun _ _ _ _ h => kept_putPte h) fun _ h => kept_putRec (kept_putRec h)
    · exact kept_thenRec (kept_eachPage hq fun _ _ _ _ h => kept_putPte h) fun _ h => kept_putRec h
    · exact kept_eachPage hq fun _ _ _ _ h => kept_storeDigest h

theorem kept_freeOne {s0 s : State} {i : Inst} {r : SeqRec} {p : Nat} {a : Nat} {e : Pte} (hk : Kept s0 s) :
    Kept s0 (State.freeOne s i r p a e) := by
  unfold State.freeOne
  repeat' first
    | with_reducible assumption
    | (extract_lets +onlyGivenNames x; refine kept_cut (s0 := s0) (a := x) ?_ ?_; subst x; rotate_left; (intro _; clear_value x); rotate_left)
    | with_reducible apply kept_putPte | with_reducible apply kept_release | with_reducible apply kept_snapRef | with_reducible apply kept_ite

theorem kept_freePiece {s0 s : State} {i : Inst} {r : SeqRec} {root : Pte} {dirs : List Nat} {k : Nat} (hk : Kept s0 s) :
    Kept s0 (State.freePiece s i r root dirs k) := by
  unfold State.freePiece
  repeat' first
    | with_reducible assumption
    | (extract_lets +onlyGivenNames x; refine kept_cut (s0 := s0) (a := x) ?_ ?_; subst x; rotate_left; (intro _; clear_value x); rotate_left)
    | (extract_lets +onlyGivenNames x; subst x) | with_reducible apply kept_writeExt | with_reducible apply kept_putRec
    | with_reducible apply kept_walk | with_reducible apply kept_pageFault | with_reducible apply kept_release | with_reducible apply kept_untilFault
    | with_reducible apply kept_onLeaf | with_reducible apply kept_freeOne | with_reducible apply kept_ite | split
    | (with_reducible intro _ _ _ _; try beta_reduce) | (with_reducible intro _ _ _; try beta_reduce)

theorem kept_freeLayer {s0 s : State} {i : Inst} {r : SeqRec} (hk : Kept s0 s) :
    Kept s0 (State.freeLayer s i r).1 := by
  unfold State.freeLayer
  extract_lets first q root p dirs
  have hf : ∀ {s ls}, Kept s0 s → Kept s0 (first s ls).1 := by
    intro s ls h
    simp only [first]
    split
    · exact kept_readLines h
    · exact h
  have hq : Kept s0 q.1 := hf hk
  have hp : Kept s0 p.1 := by
    simp only [p]
    split
    · exact hf hq
    · exact hq
  clear_value p q first
  split
  · exact hq
  · split
    · exact kept_pageFault hq
    · split
      · exact hp
      · exact kept_pieces (fun _ _ h => kept_freePiece h) _ hp

theorem kept_pgfr {s0 s : State} {i : Inst} (hk : Kept s0 s) :
    Kept s0 (State.pgfr s i).1 := by
  unfold State.pgfr
  repeat' first
    | with_reducible assumption
    | (extract_lets +onlyGivenNames x; refine kept_cut (s0 := s0) (a := x.1) ?_ ?_; subst x; rotate_left; (intro _; clear_value x); rotate_left)
    | with_reducible apply kept_openSeq | with_reducible apply kept_eachPage | with_reducible apply kept_freeOne | with_reducible apply kept_freeLayer
    | split | (with_reducible intro _ _ _ _ _; try beta_reduce)

theorem kept_dropLog {s0 s : State} {i : Inst} (hk : Kept s0 s) :
    Kept s0 (State.dropLog s i) := by
  unfold State.dropLog
  repeat' first
    | with_reducible assumption
    | (extract_lets +onlyGivenNames x; refine kept_cut (s0 := s0) (a := x.1) ?_ ?_; subst x; rotate_left; (intro _; clear_value x); rotate_left)
    | (extract_lets +onlyGivenNames x; subst x) | with_reducible apply kept_onPwu | with_reducible apply kept_readLines
    | with_reducible apply kept_release | with_reducible apply kept_untilFault | with_reducible apply kept_ite
    | (with_reducible intro _; with_reducible rfl) | (with_reducible intro _ _ _; try beta_reduce)

theorem kept_pgfrLog {s0 s : State} {i : Inst} (hk : Kept s0 s) :
    Kept s0 (State.pgfrLog s i).1 := by
  unfold State.pgfrLog
  exact kept_pieces (fun _ _ h => kept_dropLog h) _ hk

theorem kept_shareOne {s0 s : State} {i : Inst} {a : SeqRec} {b : SeqRec} {p : Nat} (hk : Kept s0 s) :
    Kept s0 (State.shareOne s i a b p).1 := by
  unfold State.shareOne
  repeat' first
    | with_reducible assumption
    | (extract_lets +onlyGivenNames x; refine kept_cut (s0 := s0) (a := x) ?_ ?_; subst x; rotate_left; (intro _; clear_value x); rotate_left)
    | (extract_lets +onlyGivenNames x; refine kept_cut (s0 := s0) (a := x.1) ?_ ?_; subst x; rotate_left; (intro _; clear_value x); rotate_left)
    | with_reducible apply kept_walkFault | with_reducible apply kept_putPte | with_reducible apply kept_addRef | with_reducible apply kept_refOf
    | with_reducible apply kept_makeLeaf | split

theorem kept_sharePiece {s0 s : State} {i : Inst} {a : SeqRec} {b : SeqRec} {k : Nat} (hk : Kept s0 s) :
    Kept s0 (State.sharePiece s i a b k) := by
  unfold State.sharePiece
  repeat' first
    | with_reducible assumption
    | (extract_lets +onlyGivenNames x; refine kept_cut (s0 := s0) (a := x) ?_ ?_; subst x; rotate_left; (intro _; clear_value x); rotate_left)
    | (extract_lets +onlyGivenNames x; refine kept_cut (s0 := s0) (a := x.1) ?_ ?_; subst x; rotate_left; (intro _; clear_value x); rotate_left)
    | (extract_lets +onlyGivenNames x; subst x) | with_reducible apply kept_onInst | with_reducible apply kept_walk
    | with_reducible apply kept_untilFault | with_reducible apply kept_shareOne | with_reducible apply kept_ite
    | (with_reducible intro _ _ _; try beta_reduce)

theorem kept_pgpn {s0 s : State} {i : Inst} (hk : Kept s0 s) :
    Kept s0 (State.pgpn s i).1 := by
  unfold State.pgpn
  extract_lets p q
  have hp : Kept s0 p.1 := kept_openSeq hk
  split
  · exact hp
  · have hq : Kept s0 q.1 := kept_openSeq hp
    split
    · exact hq
    · exact kept_pieces (fun _ _ h => kept_sharePiece h) _ hq

theorem kept_parkAbort {s0 s : State} (hk : Kept s0 s) :
    Kept s0 (State.parkAbort s) := by
  unfold State.parkAbort
  repeat' first
    | with_reducible assumption
    | (extract_lets +onlyGivenNames x; refine kept_cut (s0 := s0) (a := x) ?_ ?_; subst x; rotate_left; (intro _; clear_value x); rotate_left)
    | (extract_lets +onlyGivenNames x; subst x) | with_reducible apply kept_onInst | with_reducible apply kept_onPwu
    | with_reducible apply kept_leavePwu | with_reducible apply kept_instFault | with_reducible apply kept_foldl
    | (with_reducible intro _; with_reducible rfl) | (with_reducible intro _ _ _; try beta_reduce)

theorem kept_pwuCommit {s0 s : State} (hk : Kept s0 s) :
    Kept s0 (State.pwuCommit s) := by
  unfold State.pwuCommit
  repeat' first
    | with_reducible assumption
    | (extract_lets +onlyGivenNames x; refine kept_cut (s0 := s0) (a := x) ?_ ?_; subst x; rotate_left; (intro _; clear_value x); rotate_left)
    | with_reducible apply kept_onPool | with_reducible apply kept_onPwu | with_reducible apply kept_foldl | with_reducible apply kept_ite
    | (with_reducible intro _; with_reducible rfl) | (with_reducible intro _ _ _; try beta_reduce)

theorem kept_execPwuCommit {s0 s : State} (hk : Kept s0 s) :
    KeptO s0 (execPwuCommit s) := by
  unfold execPwuCommit
  repeat' first
    | with_reducible assumption | with_reducible apply kept_mgt | with_reducible apply kept_pwuCommit | with_reducible apply keptO_next | rfl

end Sys2Proof.Machine
end

