-- ==== Sys2Proof/Laws/KeptAtt.lean ====
section
/-!
SUPPORT. `Kept` through the attention family.
-/

namespace Sys2Proof.Machine

theorem kept_readSel {s0 s : State} {i : Inst} {a : Nat} (hk : Kept s0 s) :
    Kept s0 (State.readSel s i a).1 := by
  unfold State.readSel
  repeat' first
    | with_reducible assumption
    | (extract_lets +onlyGivenNames x; refine kept_cut (s0 := s0) (a := x.1) ?_ ?_; subst x; rotate_left; (intro _; clear_value x); rotate_left)
    | with_reducible apply kept_readExt

theorem kept_attForeign {s0 s : State} {i : Inst} {l : List (Nat × List Span)} (hk : Kept s0 s) :
    KeptOpt s0 (State.attForeign s i l) :=
  keptOpt_findSome fun _ => kept_obCheck hk

theorem kept_intoChain {s0 s : State} {i : Inst} {w : Work} {c : PoolCfg} {x : Sliver} {t : KeyTile} {slot : Nat} {d : Desc} {at' : Nat → Coord} {isV : Bool} (hk : Kept s0 s) :
    Kept s0 (State.intoChain s i w c x t slot d at' isV) := by
  unfold State.intoChain
  repeat' first
    | with_reducible assumption
    | (extract_lets +onlyGivenNames x; refine kept_cut (s0 := s0) (a := x) ?_ ?_; subst x; rotate_left; (intro _; clear_value x); rotate_left)
    | (extract_lets +onlyGivenNames x; refine kept_cut (s0 := s0) (a := x.1) ?_ ?_; subst x; rotate_left; (intro _; clear_value x); rotate_left)
    | (extract_lets +onlyGivenNames x; subst x) | with_reducible apply kept_fetch | with_reducible apply kept_putSlot
    | with_reducible apply kept_loadBank | with_reducible apply kept_fetchTile | with_reducible apply kept_foldl | with_reducible intro _ _ _

theorem kept_scores {s0 s : State} {i : Inst} {c : PoolCfg} {x : Sliver} {t : KeyTile} {slot : Nat} (hk : Kept s0 s) :
    Kept s0 (State.scores s i c x t slot).s := by
  unfold State.scores
  repeat' first
    | with_reducible assumption
    | (extract_lets +onlyGivenNames x; refine kept_cut (s0 := s0) (a := x.1) ?_ ?_; subst x; rotate_left; (intro _; clear_value x); rotate_left)
    | (extract_lets +onlyGivenNames x; subst x) | with_reducible apply kept_fetch

theorem kept_takePages {s0 s : State} {i : Inst} {r : SeqRec} {ws : List (Nat × Walk)} {more : List PageRef} (hk : Kept s0 s) :
    Kept s0 (State.takePages s i r ws more).1 := by
  unfold State.takePages
  repeat' first
    | with_reducible assumption
    | (extract_lets +onlyGivenNames x; refine kept_cut (s0 := s0) (a := x) ?_ ?_; subst x; rotate_left; (intro _; clear_value x); rotate_left)
    | (extract_lets +onlyGivenNames x; refine kept_cut (s0 := s0) (a := x.1) ?_ ?_; subst x; rotate_left; (intro _; clear_value x); rotate_left)
    | (extract_lets +onlyGivenNames x; subst x) | with_reducible apply kept_onInst | with_reducible apply kept_walkFault
    | with_reducible apply kept_parkFar | split

theorem kept_openKeys {s0 s : State} {i : Inst} (hk : Kept s0 s) :
    Kept s0 (State.openKeys s i).1 := by
  unfold State.openKeys
  repeat' first
    | with_reducible assumption
    | (extract_lets +onlyGivenNames x; refine kept_cut (s0 := s0) (a := x) ?_ ?_; subst x; rotate_left; (intro _; clear_value x); rotate_left)
    | (extract_lets +onlyGivenNames x; refine kept_cut (s0 := s0) (a := x.1) ?_ ?_; subst x; rotate_left; (intro _; clear_value x); rotate_left)
    | (extract_lets +onlyGivenNames x; subst x) | with_reducible apply kept_onInst | with_reducible apply kept_openSeq
    | with_reducible apply kept_walk | with_reducible apply kept_translate | with_reducible apply kept_readSel | with_reducible apply kept_takePages
    | split

theorem kept_rewalk {s0 s : State} {i : Inst} (hk : Kept s0 s) :
    Kept s0 (State.rewalk s i) := by
  unfold State.rewalk
  repeat' first
    | with_reducible assumption
    | (extract_lets +onlyGivenNames x; refine kept_cut (s0 := s0) (a := x.1) ?_ ?_; subst x; rotate_left; (intro _; clear_value x); rotate_left)
    | with_reducible apply kept_onInst | with_reducible apply kept_leavePwu | with_reducible apply kept_translate
    | with_reducible apply kept_walkFault | with_reducible apply kept_withSeq | with_reducible apply kept_parkFar | with_reducible apply kept_foldl
    | with_reducible apply kept_ite | split | (with_reducible intro _ _ _; try beta_reduce)

theorem kept_noteWrote {s0 s : State} {n : Nat} {ps : List (Nat × Nat)} (hk : Kept s0 s) :
    Kept s0 (State.noteWrote s n ps) := by
  unfold State.noteWrote
  repeat' first
    | with_reducible assumption | with_reducible apply kept_onInst

theorem kept_beginRows {s0 s : State} {i : Inst} {x : Sliver} {outs : List (Nat × Nat)} (hk : Kept s0 s) :
    Kept s0 (State.beginRows s i x outs) := by
  unfold State.beginRows
  repeat' first
    | with_reducible assumption
    | (extract_lets +onlyGivenNames x; refine kept_cut (s0 := s0) (a := x) ?_ ?_; subst x; rotate_left; (intro _; clear_value x); rotate_left)
    | with_reducible apply kept_onInst | with_reducible apply kept_onSlot | with_reducible apply kept_onStat | with_reducible apply kept_noteWrote
    | with_reducible apply kept_foldl | (with_reducible intro _ _ _; try beta_reduce)

theorem kept_attfPass {s0 s : State} {i : Inst} {w : Work} (hk : Kept s0 s) :
    Kept s0 (State.attfPass s i w) := by
  unfold State.attfPass
  repeat' first
    | with_reducible assumption
    | (extract_lets +onlyGivenNames x; refine kept_cut (s0 := s0) (a := x) ?_ ?_; subst x; rotate_left; (intro _; clear_value x); rotate_left)
    | (extract_lets +onlyGivenNames x; refine kept_cut (s0 := s0) (a := x.1) ?_ ?_; subst x; rotate_left; (intro _; clear_value x); rotate_left)
    | (extract_lets +onlyGivenNames x; subst x) | with_reducible apply kept_onInst | with_reducible apply kept_onStat
    | with_reducible apply kept_count | with_reducible apply kept_putSlot | with_reducible apply kept_loadBank | with_reducible apply kept_putChain
    | with_reducible apply kept_fetchTile | with_reducible apply kept_intoChain | with_reducible apply kept_scores
    | with_reducible apply kept_beginRows | with_reducible apply kept_foldl | refine (kept_attForeign ?_) _ ‹State.attForeign _ _ _ = some _›
    | with_reducible intro _ _ _ | with_reducible apply kept_ite | split

theorem kept_attPoison {s0 s : State} {i : Inst} {g : Nat} {bad : Bool} (hk : Kept s0 s) :
    Kept s0 (State.attPoison s i g bad) := by
  unfold State.attPoison
  repeat' first
    | with_reducible assumption | with_reducible apply kept_markPoison | with_reducible apply kept_poisonFault | with_reducible apply kept_ite

theorem kept_writeChunk {s0 s : State} {i : Inst} {x : Sliver} {o : Desc} {on : Nat} {k : Nat} {g : Nat} {slot : Nat} {bad : Bool} {row : Nat → RowStat} {ts : ℚ} {rnd : Nat} {strm : Nat} (hk : Kept s0 s) :
    Kept s0 (State.writeChunk s i x o on k g slot bad row ts rnd strm) := by
  unfold State.writeChunk
  repeat' first
    | with_reducible assumption | (extract_lets +onlyGivenNames x; subst x) | with_reducible apply kept_storeRow | with_reducible apply kept_count
    | with_reducible apply kept_foldl | with_reducible intro _ _ _ | with_reducible apply kept_ite

theorem kept_attfDrain {s0 s : State} {i : Inst} {w : Work} (hk : Kept s0 s) :
    Kept s0 (State.attfDrain s i w) := by
  unfold State.attfDrain
  repeat' first
    | with_reducible assumption
    | (extract_lets +onlyGivenNames x; refine kept_cut (s0 := s0) (a := x) ?_ ?_; subst x; rotate_left; (intro _; clear_value x); rotate_left)
    | (extract_lets +onlyGivenNames x; subst x) | with_reducible apply kept_onInst | with_reducible apply kept_onSlot
    | with_reducible apply kept_writeExt | with_reducible apply kept_store | with_reducible apply kept_count | with_reducible apply kept_writeOne
    | with_reducible apply kept_writeStatus | with_reducible apply kept_beginRows | with_reducible apply kept_attPoison
    | with_reducible apply kept_writeChunk | with_reducible apply kept_foldl | with_reducible intro _ _ _ | with_reducible apply kept_ite | split

theorem kept_attfWork {s0 s : State} {i : Inst} (hk : Kept s0 s) :
    Kept s0 (State.attfWork s i) := by
  unfold State.attfWork
  repeat' first
    | with_reducible assumption | (extract_lets +onlyGivenNames x; subst x) | with_reducible apply kept_onInst

theorem kept_attfOpen {s0 s : State} {i : Inst} (hk : Kept s0 s) :
    Kept s0 (State.attfOpen s i) := by
  unfold State.attfOpen
  repeat' first
    | with_reducible assumption
    | (extract_lets +onlyGivenNames x; refine kept_cut (s0 := s0) (a := x.1) ?_ ?_; subst x; rotate_left; (intro _; clear_value x); rotate_left)
    | with_reducible apply kept_openKeys | with_reducible apply kept_attfWork | with_reducible apply kept_ite | split

theorem kept_setRowQ {s0 s : State} {n : Nat} {g : Nat} {r : Nat} {q : RowStat} (hk : Kept s0 s) :
    Kept s0 (State.setRowQ s n g r q) := by
  unfold State.setRowQ
  repeat' first
    | with_reducible assumption | with_reducible apply kept_onInst

theorem kept_beginB {s0 s : State} {i : Inst} {x : Sliver} (hk : Kept s0 s) :
    Kept s0 (State.beginB s i x) := by
  unfold State.beginB
  repeat' first
    | with_reducible assumption
    | (extract_lets +onlyGivenNames x; refine kept_cut (s0 := s0) (a := x) ?_ ?_; subst x; rotate_left; (intro _; clear_value x); rotate_left)
    | (extract_lets +onlyGivenNames x; refine kept_cut (s0 := s0) (a := x.1) ?_ ?_; subst x; rotate_left; (intro _; clear_value x); rotate_left)
    | (extract_lets +onlyGivenNames x; subst x) | with_reducible apply kept_onInst | with_reducible apply kept_onSlot
    | with_reducible apply kept_onStat | with_reducible apply kept_readRow | with_reducible apply kept_rowNotes | with_reducible apply kept_noteWrote
    | with_reducible apply kept_setRowQ | with_reducible apply kept_foldl | with_reducible intro _ _ _ | with_reducible apply kept_ite

theorem kept_attbPass {s0 s : State} {i : Inst} {w : Work} (hk : Kept s0 s) :
    Kept s0 (State.attbPass s i w) := by
  unfold State.attbPass
  repeat' first
    | with_reducible assumption
    | (extract_lets +onlyGivenNames x; refine kept_cut (s0 := s0) (a := x) ?_ ?_; subst x; rotate_left; (intro _; clear_value x); rotate_left)
    | (extract_lets +onlyGivenNames x; refine kept_cut (s0 := s0) (a := x.1) ?_ ?_; subst x; rotate_left; (intro _; clear_value x); rotate_left)
    | (extract_lets +onlyGivenNames x; subst x) | with_reducible apply kept_fetch | with_reducible apply kept_count
    | with_reducible apply kept_putSlot | with_reducible apply kept_loadBank | with_reducible apply kept_putChain
    | with_reducible apply kept_fetchTile | with_reducible apply kept_intoChain | with_reducible apply kept_scores
    | with_reducible apply kept_noteWrote | with_reducible apply kept_setRowQ | with_reducible apply kept_beginB | with_reducible apply kept_foldl
    | refine (kept_attForeign ?_) _ ‹State.attForeign _ _ _ = some _› | with_reducible intro _ _ _ | with_reducible apply kept_ite | split

theorem kept_addChunk {s0 s : State} {i : Inst} {g : Nat} {slot : Nat} {d : Desc} {dn : Nat} {org : Coord} {at' : Int} {ts : ℚ} (hk : Kept s0 s) :
    Kept s0 (State.addChunk s i g slot d dn org at' ts) := by
  unfold State.addChunk
  repeat' first
    | with_reducible assumption
    | (extract_lets +onlyGivenNames x; refine kept_cut (s0 := s0) (a := x) ?_ ?_; subst x; rotate_left; (intro _; clear_value x); rotate_left)
    | (extract_lets +onlyGivenNames x; refine kept_cut (s0 := s0) (a := x.1) ?_ ?_; subst x; rotate_left; (intro _; clear_value x); rotate_left)
    | (extract_lets +onlyGivenNames x; subst x) | with_reducible apply kept_count | with_reducible apply kept_addTile
    | with_reducible apply kept_wideFault | with_reducible apply kept_addTileBay | with_reducible apply kept_ite | split

theorem kept_attbPart {s0 s : State} {i : Inst} {w : Work} (hk : Kept s0 s) :
    Kept s0 (State.attbPart s i w) := by
  unfold State.attbPart
  repeat' first
    | with_reducible assumption
    | (extract_lets +onlyGivenNames x; refine kept_cut (s0 := s0) (a := x) ?_ ?_; subst x; rotate_left; (intro _; clear_value x); rotate_left)
    | (extract_lets +onlyGivenNames x; subst x) | with_reducible apply kept_onInst | with_reducible apply kept_attPoison
    | with_reducible apply kept_addChunk | split

theorem kept_attbDrain {s0 s : State} {i : Inst} {w : Work} (hk : Kept s0 s) :
    Kept s0 (State.attbDrain s i w) := by
  unfold State.attbDrain
  repeat' first
    | with_reducible assumption
    | (extract_lets +onlyGivenNames x; refine kept_cut (s0 := s0) (a := x) ?_ ?_; subst x; rotate_left; (intro _; clear_value x); rotate_left)
    | (extract_lets +onlyGivenNames x; subst x) | with_reducible apply kept_onInst | with_reducible apply kept_storeRow
    | with_reducible apply kept_count | with_reducible apply kept_writeStatus | with_reducible apply kept_attPoison | with_reducible apply kept_beginB
    | with_reducible apply kept_addChunk | with_reducible apply kept_foldl | with_reducible intro _ _ _ | with_reducible apply kept_ite | split

theorem kept_attbWork {s0 s : State} {i : Inst} (hk : Kept s0 s) :
    Kept s0 (State.attbWork s i) := by
  unfold State.attbWork
  repeat' first
    | with_reducible assumption | (extract_lets +onlyGivenNames x; subst x) | with_reducible apply kept_onInst

theorem kept_attbOpen {s0 s : State} {i : Inst} (hk : Kept s0 s) :
    Kept s0 (State.attbOpen s i) := by
  unfold State.attbOpen
  repeat' first
    | with_reducible assumption
    | (extract_lets +onlyGivenNames x; refine kept_cut (s0 := s0) (a := x.1) ?_ ?_; subst x; rotate_left; (intro _; clear_value x); rotate_left)
    | with_reducible apply kept_openKeys | with_reducible apply kept_attbWork | with_reducible apply kept_ite | split

theorem kept_readPartial {s0 s : State} {i : Inst} {g : Nat} {j : Nat} {tgt : List Tgt} (hk : Kept s0 s) :
    Kept s0 (State.readPartial s i g j tgt).1 := by
  unfold State.readPartial
  repeat' first
    | with_reducible assumption
    | (extract_lets +onlyGivenNames x; refine kept_cut (s0 := s0) (a := x.1) ?_ ?_; subst x; rotate_left; (intro _; clear_value x); rotate_left)
    | (extract_lets +onlyGivenNames x; subst x) | with_reducible apply kept_fetch

theorem kept_frameKept {s0 s : State} {i : Inst} {g : Nat} {e : Pte} {ep : Nat} (hk : Kept s0 s) :
    Kept s0 (State.frameKept s i g e ep).1 := by
  unfold State.frameKept
  repeat' first
    | with_reducible assumption
    | (extract_lets +onlyGivenNames x; refine kept_cut (s0 := s0) (a := x.1) ?_ ?_; subst x; rotate_left; (intro _; clear_value x); rotate_left)
    | (extract_lets +onlyGivenNames x; subst x) | with_reducible apply kept_readExt | split

theorem kept_confirm {s0 s : State} {i : Inst} {l : SelList} {g : Nat} (hk : Kept s0 s) :
    Kept s0 (State.confirm s i l g).1 := by
  unfold State.confirm
  repeat' first
    | with_reducible assumption
    | (extract_lets +onlyGivenNames x; refine kept_cut (s0 := s0) (a := x.1) ?_ ?_; subst x; rotate_left; (intro _; clear_value x); rotate_left)
    | (extract_lets +onlyGivenNames x; subst x) | with_reducible apply kept_readExt | with_reducible apply kept_readPartial
    | with_reducible apply kept_frameKept | with_reducible apply kept_foldl_fst | refine (kept_obCheck ?_) _ ‹State.obCheck _ _ _ _ = some _› | split
    | (with_reducible intro _ _ _; try beta_reduce)

theorem kept_openMerge {s0 s : State} {i : Inst} (hk : Kept s0 s) :
    Kept s0 (State.openMerge s i).1 := by
  unfold State.openMerge
  repeat' first
    | exact kc.same rfl | with_reducible assumption
    | (extract_lets +onlyGivenNames x; refine kept_cut (s0 := s0) (a := x) ?_ ?_; subst x; rotate_left; (intro _; clear_value x); rotate_left)
    | (extract_lets +onlyGivenNames x; refine kept_cut (s0 := s0) (a := x.1) ?_ ?_; subst x; rotate_left; (intro _; clear_value x); rotate_left)
    | (extract_lets +onlyGivenNames x; subst x) | with_reducible refine kept_onCx ?_ fun kc => ?_ | with_reducible apply kept_onInst
    | with_reducible apply kept_writeExt | with_reducible apply kept_readSel | with_reducible apply kept_confirm | with_reducible apply kept_foldl_fst
    | split | (with_reducible intro _ _ _; try beta_reduce)

theorem kept_freeRowForm {s0 s : State} {n : Nat} {ps : List (Nat × Nat)} (hk : Kept s0 s) :
    Kept s0 (State.freeRowForm s n ps) := by
  unfold State.freeRowForm
  repeat' first
    | with_reducible assumption | with_reducible apply kept_onInst | with_reducible apply kept_onSlot | with_reducible apply kept_foldl
    | (with_reducible intro _ _ _; try beta_reduce)

theorem kept_attmMerge {s0 s : State} {i : Inst} {w : Work} (hk : Kept s0 s) :
    Kept s0 (State.attmMerge s i w) := by
  unfold State.attmMerge
  repeat' first
    | with_reducible assumption
    | (extract_lets +onlyGivenNames x; refine kept_cut (s0 := s0) (a := x) ?_ ?_; subst x; rotate_left; (intro _; clear_value x); rotate_left)
    | (extract_lets +onlyGivenNames x; refine kept_cut (s0 := s0) (a := x.1) ?_ ?_; subst x; rotate_left; (intro _; clear_value x); rotate_left)
    | (extract_lets +onlyGivenNames x; subst x) | with_reducible apply kept_onSlot | with_reducible apply kept_onStat
    | with_reducible apply kept_store | with_reducible apply kept_count | with_reducible apply kept_putSlot | with_reducible apply kept_wideFault
    | with_reducible apply kept_writeOne | with_reducible apply kept_noteWrote | with_reducible apply kept_attPoison
    | with_reducible apply kept_writeChunk | with_reducible apply kept_readPartial | with_reducible apply kept_freeRowForm
    | with_reducible apply kept_foldl | with_reducible apply kept_foldl_fst | refine (kept_attForeign ?_) _ ‹State.attForeign _ _ _ = some _›
    | with_reducible intro _ _ _ | with_reducible apply kept_ite | split

theorem kept_beginMerge {s0 s : State} {i : Inst} (hk : Kept s0 s) :
    Kept s0 (State.beginMerge s i) := by
  unfold State.beginMerge
  repeat' first
    | with_reducible assumption
    | (extract_lets +onlyGivenNames x; refine kept_cut (s0 := s0) (a := x) ?_ ?_; subst x; rotate_left; (intro _; clear_value x); rotate_left)
    | (extract_lets +onlyGivenNames x; subst x) | with_reducible apply kept_onInst | with_reducible apply kept_takeReads
    | with_reducible apply kept_openMerge | with_reducible apply kept_ite

theorem kept_attmTest {s0 s : State} {i : Inst} {w : Work} (hk : Kept s0 s) :
    Kept s0 (State.attmTest s i w) := by
  unfold State.attmTest
  repeat' first
    | with_reducible assumption
    | (extract_lets +onlyGivenNames x; refine kept_cut (s0 := s0) (a := x.1) ?_ ?_; subst x; rotate_left; (intro _; clear_value x); rotate_left)
    | (extract_lets +onlyGivenNames x; subst x) | with_reducible apply kept_onInst | with_reducible apply kept_openMerge

theorem kept_row_attmRow {s0 : State} {t : State} {i : Inst} {confirm : Bool} (hk : Kept s0 t) :
    Kept s0 ((attmRow confirm).effect t i) := by
  unfold attmRow
  repeat' first
    | with_reducible assumption | (extract_lets +onlyGivenNames x; subst x) | with_reducible apply kept_row_TRow_plain
    | with_reducible apply kept_beginMerge

theorem kept_execAttmConfirm {s0 s : State} {c : Fin 64} {w : Long} (hk : Kept s0 s) :
    KeptO s0 (execAttmConfirm c w s) := by
  unfold execAttmConfirm
  repeat' first
    | with_reducible assumption | with_reducible apply kept_issueTensor | with_reducible apply kept_row_attmRow | with_reducible intro _ _ _

theorem kept_execAttmMerge {s0 s : State} {c : Fin 64} {w : Long} (hk : Kept s0 s) :
    KeptO s0 (execAttmMerge c w s) := by
  unfold execAttmMerge
  repeat' first
    | with_reducible assumption | with_reducible apply kept_issueTensor | with_reducible apply kept_row_attmRow | with_reducible intro _ _ _

theorem kept_beginBias {s0 s : State} {i : Inst} (hk : Kept s0 s) :
    Kept s0 (State.beginBias s i) := by
  unfold State.beginBias
  repeat' first
    | with_reducible assumption
    | (extract_lets +onlyGivenNames x; refine kept_cut (s0 := s0) (a := x) ?_ ?_; subst x; rotate_left; (intro _; clear_value x); rotate_left)
    | (extract_lets +onlyGivenNames x; refine kept_cut (s0 := s0) (a := x.1) ?_ ?_; subst x; rotate_left; (intro _; clear_value x); rotate_left)
    | (extract_lets +onlyGivenNames x; subst x) | with_reducible apply kept_onBy | with_reducible apply kept_fetch
    | with_reducible apply kept_beginLoad | with_reducible apply kept_foldl | with_reducible apply kept_ite | ((with_reducible intro _ k); exact k)
    | (with_reducible intro _ _ _; try beta_reduce)

theorem kept_commitBias {s0 s : State} {i : Inst} (hk : Kept s0 s) :
    Kept s0 (State.commitBias s i) := by
  unfold State.commitBias
  repeat' first
    | with_reducible assumption
    | (extract_lets +onlyGivenNames x; refine kept_cut (s0 := s0) (a := x) ?_ ?_; subst x; rotate_left; (intro _; clear_value x); rotate_left)
    | (extract_lets +onlyGivenNames x; subst x) | with_reducible apply kept_onBy | with_reducible apply kept_putBay
    | with_reducible apply kept_instFault | with_reducible apply kept_markPoison | with_reducible apply kept_foldl | with_reducible apply kept_ite
    | split | ((with_reducible intro _ k); exact k) | (with_reducible intro _ _ _; try beta_reduce)

theorem kept_row_biasRow {s0 : State} {t : State} {i : Inst} (hk : Kept s0 t) :
    Kept s0 (biasRow.effect t i) := by
  unfold biasRow
  repeat' first
    | with_reducible assumption | (extract_lets +onlyGivenNames x; subst x) | with_reducible apply kept_row_TRow_plain
    | with_reducible apply kept_beginBias

theorem kept_execBias {s0 s : State} {c : Fin 64} {w : Long} (hk : Kept s0 s) :
    KeptO s0 (execBias c w s) := by
  unfold execBias biasRow
  repeat' first
    | with_reducible assumption | (extract_lets +onlyGivenNames x; subst x) | with_reducible apply kept_row_TRow_plain
    | with_reducible apply kept_issueTensor | with_reducible apply kept_beginBias | with_reducible intro _ _ _

end Sys2Proof.Machine
end

