-- ==== Sys2Proof/Laws/KeptMove.lean ====
section
/-!
SUPPORT. `Kept` through the Bolter, data movement, links and the Weir.
-/

namespace Sys2Proof.Machine

theorem kept_boltGroup {s0 s : State} {i : Inst} {r : SeqRec} {ws : List (Nat × Pte)} {g : Nat} (hk : Kept s0 s) :
    Kept s0 (State.boltGroup s i r ws g) := by
  unfold State.boltGroup
  repeat' first
    | with_reducible assumption
    | (extract_lets +onlyGivenNames x; refine kept_cut (s0 := s0) (a := x) ?_ ?_; subst x; rotate_left; (intro _; clear_value x); rotate_left)
    | (extract_lets +onlyGivenNames x; refine kept_cut (s0 := s0) (a := x.1) ?_ ?_; subst x; rotate_left; (intro _; clear_value x); rotate_left)
    | (extract_lets +onlyGivenNames x; subst x) | with_reducible apply kept_onPwu | with_reducible apply kept_raise
    | with_reducible apply kept_readExt | with_reducible apply kept_writeExt | with_reducible apply kept_markPoison
    | with_reducible apply kept_readRow | with_reducible apply kept_rowNotes | with_reducible apply kept_foldl_fst | with_reducible intro _ _ _
    | with_reducible apply kept_ite | (with_reducible intro _; with_reducible rfl)

theorem kept_bolt {s0 s : State} {i : Inst} (hk : Kept s0 s) :
    Kept s0 (State.bolt s i) := by
  unfold State.bolt
  repeat' first
    | with_reducible assumption
    | (extract_lets +onlyGivenNames x; refine kept_cut (s0 := s0) (a := x.1) ?_ ?_; subst x; rotate_left; (intro _; clear_value x); rotate_left)
    | (extract_lets +onlyGivenNames x; subst x) | with_reducible apply kept_translate | with_reducible apply kept_walkFault
    | with_reducible apply kept_withSeq | with_reducible apply kept_boltGroup | with_reducible apply kept_foldl | split
    | (with_reducible intro _ _ _; try beta_reduce)

theorem kept_bprfGroup {s0 s : State} {i : Inst} {r : SeqRec} {stride : Nat} {g : Nat} (hk : Kept s0 s) :
    Kept s0 (State.bprfGroup s i r stride g) := by
  unfold State.bprfGroup
  repeat' first
    | with_reducible assumption
    | (extract_lets +onlyGivenNames x; refine kept_cut (s0 := s0) (a := x.1) ?_ ?_; subst x; rotate_left; (intro _; clear_value x); rotate_left)
    | (extract_lets +onlyGivenNames x; subst x) | with_reducible apply kept_readExt | with_reducible apply kept_writeExt
    | with_reducible apply kept_translate | with_reducible apply kept_readSel | with_reducible apply kept_foldl | with_reducible apply kept_foldl_fst
    | split | (with_reducible intro _ _ _; try beta_reduce)

theorem kept_bprf {s0 s : State} {i : Inst} (hk : Kept s0 s) :
    Kept s0 (State.bprf s i) := by
  unfold State.bprf
  repeat' first
    | with_reducible assumption | (extract_lets +onlyGivenNames x; subst x) | with_reducible apply kept_withSeq | with_reducible apply kept_bprfGroup
    | with_reducible apply kept_foldl | (with_reducible intro _ _ _; try beta_reduce)

theorem kept_readRaw {s0 s : State} {i : Inst} {g : Nat} {d : Desc} {x : Coord} {tra : Bool} {n : Nat} {tgt : List Tgt} (hk : Kept s0 s) :
    Kept s0 (State.readRaw s i g d x tra n tgt).1 := by
  unfold State.readRaw
  repeat' first
    | with_reducible assumption
    | (extract_lets +onlyGivenNames x; refine kept_cut (s0 := s0) (a := x) ?_ ?_; subst x; rotate_left; (intro _; clear_value x); rotate_left)
    | (extract_lets +onlyGivenNames x; refine kept_cut (s0 := s0) (a := x.1) ?_ ?_; subst x; rotate_left; (intro _; clear_value x); rotate_left)
    | (extract_lets +onlyGivenNames x; subst x) | with_reducible apply kept_obFault | with_reducible apply kept_fetch
    | with_reducible apply kept_rowNotes | split

theorem kept_writeRaw {s0 s : State} {i : Inst} {g : Nat} {d : Desc} {x : Coord} {r : RawRow} (hk : Kept s0 s) :
    Kept s0 (State.writeRaw s i g d x r) := by
  unfold State.writeRaw
  repeat' first
    | with_reducible assumption
    | (extract_lets +onlyGivenNames x; refine kept_cut (s0 := s0) (a := x) ?_ ?_; subst x; rotate_left; (intro _; clear_value x); rotate_left)
    | (extract_lets +onlyGivenNames x; subst x) | with_reducible apply kept_store | with_reducible apply kept_storeRow
    | with_reducible apply kept_foldl | with_reducible intro _ _ _ | with_reducible apply kept_ite

theorem kept_mvPut {s0 s : State} {i : Inst} {x : RowRef} {src : Option Coord} (hk : Kept s0 s) :
    Kept s0 (State.mvPut s i x src) := by
  unfold State.mvPut
  extract_lets a c at' n tgt xs f vals w bad s1 bs
  split
  · split
    · exact kept_writeRaw hk
    · rename_i q
      have hr : Kept s0 (s.readRaw i x.g a q i.mvTra n tgt).1 := kept_readRaw hk
      split
      all_goals
        rename_i e
        rw [e] at hr
      · exact hr
      · exact kept_poisonFault (kept_writeRaw hr)
  · have hf : Kept s0 f.1 := kept_fetch hk
    exact kept_poisonFault (kept_writeRow (kept_rowNotes hf))

theorem kept_mvRow {s0 s : State} {i : Inst} {x : RowRef} (hk : Kept s0 s) :
    Kept s0 (State.mvRow s i x) := by
  unfold State.mvRow
  repeat' first
    | with_reducible assumption
    | (extract_lets +onlyGivenNames x; refine kept_cut (s0 := s0) (a := x.1) ?_ ?_; subst x; rotate_left; (intro _; clear_value x); rotate_left)
    | (extract_lets +onlyGivenNames x; subst x) | with_reducible apply kept_instFault | with_reducible apply kept_fetch
    | with_reducible apply kept_mvPut | with_reducible apply kept_ite | split

theorem kept_mvPages {s0 s : State} {i : Inst} (hk : Kept s0 s) :
    Kept s0 (State.mvPages s i) := by
  unfold State.mvPages
  repeat' first
    | with_reducible assumption
    | (extract_lets +onlyGivenNames x; refine kept_cut (s0 := s0) (a := x.1) ?_ ?_; subst x; rotate_left; (intro _; clear_value x); rotate_left)
    | with_reducible apply kept_translate | with_reducible apply kept_walkFault | with_reducible apply kept_withSeq
    | with_reducible apply kept_copyPages | split | (with_reducible intro _ _ _; try beta_reduce)

theorem kept_row_ldopRow {s0 : State} {t : State} {i : Inst} (hk : Kept s0 t) :
    Kept s0 (ldopRow.effect t i) := by
  unfold ldopRow
  repeat' first
    | with_reducible assumption | with_reducible apply kept_row_TRow_plain | with_reducible apply kept_eachRow | with_reducible apply kept_mvPut
    | with_reducible intro _ _ _

theorem kept_execLdop {s0 s : State} {c : Fin 64} {w : Long} (hk : Kept s0 s) :
    KeptO s0 (execLdop c w s) := by
  unfold execLdop
  repeat' first
    | with_reducible assumption | with_reducible apply kept_issueTensor | with_reducible apply kept_row_ldopRow

theorem kept_halo {s0 s : State} {i : Inst} (hk : Kept s0 s) :
    Kept s0 (State.halo s i) := by
  unfold State.halo
  repeat' first
    | with_reducible assumption
    | (extract_lets +onlyGivenNames x; refine kept_cut (s0 := s0) (a := x.1) ?_ ?_; subst x; rotate_left; (intro _; clear_value x); rotate_left)
    | (extract_lets +onlyGivenNames x; subst x) | with_reducible apply kept_readRaw | with_reducible apply kept_writeRaw
    | with_reducible apply kept_foldl | with_reducible apply kept_foldl_fst | with_reducible intro _ _ _ | with_reducible apply kept_ite | split

theorem kept_row_haloRow {s0 : State} {t : State} {i : Inst} (hk : Kept s0 t) :
    Kept s0 (haloRow.effect t i) := by
  unfold haloRow
  repeat' first
    | with_reducible assumption | with_reducible apply kept_row_TRow_plain | with_reducible apply kept_halo

theorem kept_execHalo {s0 s : State} {c : Fin 64} {w : Long} (hk : Kept s0 s) :
    KeptO s0 (execHalo c w s) := by
  unfold execHalo
  repeat' first
    | with_reducible assumption | with_reducible apply kept_issueTensor | with_reducible apply kept_row_haloRow

theorem kept_runTurn {s0 s : State} {i : Inst} (hk : Kept s0 s) :
    Kept s0 (State.runTurn s i).1 := by
  unfold State.runTurn
  repeat' first
    | with_reducible assumption
    | (extract_lets +onlyGivenNames x; refine kept_cut (s0 := s0) (a := x) ?_ ?_; subst x; rotate_left; (intro _; clear_value x); rotate_left)
    | (extract_lets +onlyGivenNames x; subst x) | with_reducible apply kept_onInst | with_reducible apply kept_kvap | with_reducible apply kept_kvcm
    | with_reducible apply kept_pgcw | with_reducible apply kept_pgfr | with_reducible apply kept_pgfrLog | with_reducible apply kept_pgpn
    | with_reducible apply kept_rewalk | with_reducible apply kept_attfOpen | with_reducible apply kept_attbOpen | with_reducible apply kept_bolt
    | with_reducible apply kept_bprf | with_reducible apply kept_mvPages | with_reducible apply kept_ite | split

theorem kept_sendRound {s0 s : State} {i : Inst} {y : Turn} (hk : Kept s0 s) :
    Kept s0 (State.sendRound s i y) := by
  unfold State.sendRound
  repeat' first
    | with_reducible assumption
    | (extract_lets +onlyGivenNames x; refine kept_cut (s0 := s0) (a := x) ?_ ?_; subst x; rotate_left; (intro _; clear_value x); rotate_left)
    | with_reducible apply kept_onInst | with_reducible apply kept_onPwu | with_reducible apply kept_queueRead | with_reducible apply kept_foldl
    | split | (with_reducible intro _; with_reducible rfl) | (with_reducible intro _ _ _; try beta_reduce)

theorem kept_tryTurn {s0 s : State} {n : Nat} (hk : Kept s0 s) :
    Kept s0 (State.tryTurn s n) := by
  unfold State.tryTurn
  repeat' first
    | with_reducible assumption
    | (extract_lets +onlyGivenNames x; refine kept_cut (s0 := s0) (a := x) ?_ ?_; subst x; rotate_left; (intro _; clear_value x); rotate_left)
    | (extract_lets +onlyGivenNames x; refine kept_cut (s0 := s0) (a := x.1) ?_ ?_; subst x; rotate_left; (intro _; clear_value x); rotate_left)
    | (extract_lets +onlyGivenNames x; subst x) | with_reducible apply kept_onInst | with_reducible apply kept_onPwu
    | with_reducible apply kept_leavePwu | with_reducible apply kept_runTurn | with_reducible apply kept_sendRound | with_reducible apply kept_ite
    | split | (with_reducible intro _; with_reducible rfl)

-- MANUAL State.turns

theorem kept_turns {s0 : State} : ∀ {n : Nat} {s : State}, Kept s0 s → Kept s0 (State.turns n s)
  | 0, _, h => h
  | n + 1, s, h => by
    unfold State.turns
    extract_lets isA s1 t
    have h1 : Kept s0 s1 := kept_foldl (fun _ _ h => kept_tryTurn h) _ h
    have ht : Kept s0 t := kept_foldl (fun _ _ h => kept_tryTurn h) _ h1
    clear_value t
    exact kept_ite ht (kept_turns ht)

theorem kept_pwuTurn {s0 s : State} (hk : Kept s0 s) : Kept s0 (State.pwuTurn s) := kept_ite (kept_turns hk) hk

theorem kept_enter {s0 s : State} {n : Nat} (hk : Kept s0 s) :
    Kept s0 (State.enter s n) := by
  unfold State.enter
  repeat' first
    | with_reducible assumption | with_reducible apply kept_onPwu | with_reducible apply kept_pwuTurn | (with_reducible intro _; with_reducible rfl)

theorem kept_row_pwuRow {s0 : State} {t : State} {i : Inst} {opc : Nat} {form : Long → Bool} {effect : State → Inst → State} (hk : Kept s0 t) (heffect : ∀ (x0 : State) (x1 : Inst), Kept s0 x0 → Kept s0 (effect x0 x1)) :
    Kept s0 ((pwuRow opc form effect).effect t i) := by
  unfold pwuRow
  repeat' first
    | with_reducible assumption | with_reducible apply kept_row_TRow_plain

theorem kept_row_kvapRow {s0 : State} {t : State} {i : Inst} {spec : Bool} (hk : Kept s0 t) :
    Kept s0 ((kvapRow spec).effect t i) := by
  unfold kvapRow
  repeat' first
    | with_reducible assumption | (extract_lets +onlyGivenNames x; subst x) | with_reducible apply kept_reserve | with_reducible apply kept_enter
    | with_reducible apply kept_row_pwuRow | dsimp only | with_reducible intro _ _ _

theorem kept_execKvap {s0 s : State} {c : Fin 64} {w : Long} (hk : Kept s0 s) :
    KeptO s0 (execKvap c w s) := by
  unfold execKvap
  repeat' first
    | with_reducible assumption | with_reducible apply kept_issueTensor | with_reducible apply kept_row_kvapRow | with_reducible intro _ _ _

theorem kept_execKvapSpec {s0 s : State} {c : Fin 64} {w : Long} (hk : Kept s0 s) :
    KeptO s0 (execKvapSpec c w s) := by
  unfold execKvapSpec
  repeat' first
    | with_reducible assumption | with_reducible apply kept_issueTensor | with_reducible apply kept_row_kvapRow | with_reducible intro _ _ _

theorem kept_row_kvcmRow {s0 : State} {t : State} {i : Inst} {opc : Nat} (hk : Kept s0 t) :
    Kept s0 ((kvcmRow opc).effect t i) := by
  unfold kvcmRow
  repeat' first
    | with_reducible assumption | (extract_lets +onlyGivenNames x; subst x) | with_reducible apply kept_reserve | with_reducible apply kept_enter
    | with_reducible apply kept_row_pwuRow | dsimp only | with_reducible intro _ _ _

theorem kept_execKvcm {s0 s : State} {c : Fin 64} {w : Long} (hk : Kept s0 s) :
    KeptO s0 (execKvcm c w s) := by
  unfold execKvcm
  repeat' first
    | with_reducible assumption | with_reducible apply kept_issueTensor | with_reducible apply kept_row_kvcmRow | with_reducible intro _ _ _

theorem kept_execKvds {s0 s : State} {c : Fin 64} {w : Long} (hk : Kept s0 s) :
    KeptO s0 (execKvds c w s) := by
  unfold execKvds
  repeat' first
    | with_reducible assumption | with_reducible apply kept_issueTensor | with_reducible apply kept_row_kvcmRow | with_reducible intro _ _ _

theorem kept_row_pgcwRow {s0 : State} {t : State} {i : Inst} {k : Nat} (hk : Kept s0 t) :
    Kept s0 ((pgcwRow k).effect t i) := by
  unfold pgcwRow
  repeat' first
    | with_reducible assumption | (extract_lets +onlyGivenNames x; subst x) | with_reducible apply kept_reserve
    | with_reducible apply kept_openSession | with_reducible apply kept_enter | with_reducible apply kept_row_pwuRow | dsimp only
    | with_reducible intro _ _ _

theorem kept_execPgcwCopy {s0 s : State} {c : Fin 64} {w : Long} (hk : Kept s0 s) :
    KeptO s0 (execPgcwCopy c w s) := by
  unfold execPgcwCopy
  repeat' first
    | with_reducible assumption | with_reducible apply kept_issueTensor | with_reducible apply kept_row_pgcwRow | with_reducible intro _ _ _

theorem kept_execPgcwPromote {s0 s : State} {c : Fin 64} {w : Long} (hk : Kept s0 s) :
    KeptO s0 (execPgcwPromote c w s) := by
  unfold execPgcwPromote
  repeat' first
    | with_reducible assumption | with_reducible apply kept_issueTensor | with_reducible apply kept_row_pgcwRow | with_reducible intro _ _ _

theorem kept_execPgcwDemote {s0 s : State} {c : Fin 64} {w : Long} (hk : Kept s0 s) :
    KeptO s0 (execPgcwDemote c w s) := by
  unfold execPgcwDemote
  repeat' first
    | with_reducible assumption | with_reducible apply kept_issueTensor | with_reducible apply kept_row_pgcwRow | with_reducible intro _ _ _

theorem kept_execPgcwProtect {s0 s : State} {c : Fin 64} {w : Long} (hk : Kept s0 s) :
    KeptO s0 (execPgcwProtect c w s) := by
  unfold execPgcwProtect
  repeat' first
    | with_reducible assumption | with_reducible apply kept_issueTensor | with_reducible apply kept_row_pgcwRow | with_reducible intro _ _ _

theorem kept_execPgcwUnprotect {s0 s : State} {c : Fin 64} {w : Long} (hk : Kept s0 s) :
    KeptO s0 (execPgcwUnprotect c w s) := by
  unfold execPgcwUnprotect
  repeat' first
    | with_reducible assumption | with_reducible apply kept_issueTensor | with_reducible apply kept_row_pgcwRow | with_reducible intro _ _ _

theorem kept_execPgcwDigest {s0 s : State} {c : Fin 64} {w : Long} (hk : Kept s0 s) :
    KeptO s0 (execPgcwDigest c w s) := by
  unfold execPgcwDigest
  repeat' first
    | with_reducible assumption | with_reducible apply kept_issueTensor | with_reducible apply kept_row_pgcwRow | with_reducible intro _ _ _

theorem kept_row_pgfrRow {s0 : State} {t : State} {i : Inst} (hk : Kept s0 t) :
    Kept s0 (pgfrRow.effect t i) := by
  unfold pgfrRow
  repeat' first
    | with_reducible assumption | (extract_lets +onlyGivenNames x; subst x) | with_reducible apply kept_reserve | with_reducible apply kept_enter
    | with_reducible apply kept_row_pwuRow | dsimp only | with_reducible intro _ _ _

theorem kept_execPgfr {s0 s : State} {c : Fin 64} {w : Long} (hk : Kept s0 s) :
    KeptO s0 (execPgfr c w s) := by
  unfold execPgfr
  repeat' first
    | with_reducible assumption | with_reducible apply kept_issueTensor | with_reducible apply kept_row_pgfrRow

theorem kept_row_pgfrLogRow {s0 : State} {t : State} {i : Inst} (hk : Kept s0 t) :
    Kept s0 (pgfrLogRow.effect t i) := by
  unfold pgfrLogRow
  repeat' first
    | with_reducible assumption | with_reducible apply kept_row_TRow_plain | with_reducible apply kept_enter | with_reducible intro _ _ _

theorem kept_execPgfrLog {s0 s : State} {c : Fin 64} {w : Long} (hk : Kept s0 s) :
    KeptO s0 (execPgfrLog c w s) := by
  unfold execPgfrLog
  repeat' first
    | with_reducible assumption | with_reducible apply kept_issueTensor | with_reducible apply kept_row_pgfrLogRow

theorem kept_row_pgpnRow {s0 : State} {t : State} {i : Inst} (hk : Kept s0 t) :
    Kept s0 (pgpnRow.effect t i) := by
  unfold pgpnRow
  repeat' first
    | with_reducible assumption | with_reducible apply kept_reserve | with_reducible apply kept_enter | with_reducible apply kept_row_pwuRow
    | with_reducible intro _ _ _

theorem kept_execPgpn {s0 s : State} {c : Fin 64} {w : Long} (hk : Kept s0 s) :
    KeptO s0 (execPgpn c w s) := by
  unfold execPgpn
  repeat' first
    | with_reducible assumption | with_reducible apply kept_issueTensor | with_reducible apply kept_row_pgpnRow

theorem kept_row_boltRow {s0 : State} {t : State} {i : Inst} (hk : Kept s0 t) :
    Kept s0 (boltRow.effect t i) := by
  unfold boltRow
  repeat' first
    | with_reducible assumption | (extract_lets +onlyGivenNames x; subst x) | with_reducible apply kept_row_TRow_plain
    | with_reducible apply kept_openSession | with_reducible apply kept_enter | with_reducible intro _ _ _

theorem kept_execBolt {s0 s : State} {c : Fin 64} {w : Long} (hk : Kept s0 s) :
    KeptO s0 (execBolt c w s) := by
  unfold execBolt
  repeat' first
    | with_reducible assumption | with_reducible apply kept_issueTensor | with_reducible apply kept_row_boltRow

theorem kept_row_bprfRow {s0 : State} {t : State} {i : Inst} (hk : Kept s0 t) :
    Kept s0 (bprfRow.effect t i) := by
  unfold bprfRow
  repeat' first
    | with_reducible assumption | (extract_lets +onlyGivenNames x; subst x) | with_reducible apply kept_row_TRow_plain
    | with_reducible apply kept_openSession | with_reducible apply kept_enter | with_reducible intro _ _ _

theorem kept_execBprf {s0 s : State} {c : Fin 64} {w : Long} (hk : Kept s0 s) :
    KeptO s0 (execBprf c w s) := by
  unfold execBprf
  repeat' first
    | with_reducible assumption | with_reducible apply kept_issueTensor | with_reducible apply kept_row_bprfRow

theorem kept_row_movRow {s0 : State} {t : State} {i : Inst} (hk : Kept s0 t) :
    Kept s0 (movRow.effect t i) := by
  unfold movRow
  repeat' first
    | with_reducible assumption | (extract_lets +onlyGivenNames x; subst x) | with_reducible apply kept_row_TRow_plain
    | with_reducible apply kept_openSession | with_reducible apply kept_mvRow | with_reducible apply kept_enter | with_reducible apply kept_foldl
    | with_reducible intro _ _ _ | with_reducible apply kept_ite

theorem kept_execMov {s0 s : State} {c : Fin 64} {w : Long} (hk : Kept s0 s) :
    KeptO s0 (execMov c w s) := by
  unfold execMov
  repeat' first
    | with_reducible assumption | with_reducible apply kept_issueTensor | with_reducible apply kept_row_movRow

theorem kept_readApb {s0 s : State} {i : Inst} (hk : Kept s0 s) :
    Kept s0 (State.readApb s i) := by
  unfold State.readApb
  repeat' first
    | with_reducible assumption | with_reducible apply kept_readExt

theorem kept_row_attfRow {s0 : State} {t : State} {i : Inst} (hk : Kept s0 t) :
    Kept s0 (attfRow.effect t i) := by
  unfold attfRow
  repeat' first
    | with_reducible assumption | (extract_lets +onlyGivenNames x; subst x) | with_reducible apply kept_row_TRow_plain
    | with_reducible apply kept_openSession | with_reducible apply kept_attfWork | with_reducible apply kept_enter | with_reducible apply kept_readApb
    | dsimp only | with_reducible intro _ _ _ | with_reducible apply kept_ite

theorem kept_execAttf {s0 s : State} {c : Fin 64} {w : Long} (hk : Kept s0 s) :
    KeptO s0 (execAttf c w s) := by
  unfold execAttf
  repeat' first
    | with_reducible assumption | with_reducible apply kept_issueTensor | with_reducible apply kept_row_attfRow

theorem kept_row_attbRow {s0 : State} {t : State} {i : Inst} (hk : Kept s0 t) :
    Kept s0 (attbRow.effect t i) := by
  unfold attbRow
  repeat' first
    | with_reducible assumption | (extract_lets +onlyGivenNames x; subst x) | with_reducible apply kept_row_TRow_plain
    | with_reducible apply kept_openSession | with_reducible apply kept_attbWork | with_reducible apply kept_enter | with_reducible apply kept_readApb
    | dsimp only | with_reducible intro _ _ _ | with_reducible apply kept_ite

theorem kept_execAttb {s0 s : State} {c : Fin 64} {w : Long} (hk : Kept s0 s) :
    KeptO s0 (execAttb c w s) := by
  unfold execAttb
  repeat' first
    | with_reducible assumption | with_reducible apply kept_issueTensor | with_reducible apply kept_row_attbRow

theorem kept_execNmpReadReturn {s0 s : State} {p : Fin 32} {tag : Nat} {err : Bool} (hk : Kept s0 s) :
    KeptO s0 (execNmpReadReturn p tag err s) := by
  unfold execNmpReadReturn
  repeat' first
    | with_reducible assumption
    | (extract_lets +onlyGivenNames x; refine kept_cut (s0 := s0) (a := x) ?_ ?_; subst x; rotate_left; (intro _; clear_value x); rotate_left)
    | (extract_lets +onlyGivenNames x; subst x) | with_reducible apply kept_onPort | with_reducible apply kept_offer
    | with_reducible apply kept_offerAll | with_reducible apply kept_idle | with_reducible apply kept_completeRead | with_reducible apply kept_pwuTurn
    | with_reducible apply keptO_ite | with_reducible apply keptO_next | split

theorem kept_execPortTimeout {s0 s : State} {p : Fin 32} {wr : Bool} {tag : Nat} (hk : Kept s0 s) :
    KeptO s0 (execPortTimeout p wr tag s) := by
  unfold execPortTimeout
  repeat' first
    | with_reducible assumption
    | (extract_lets +onlyGivenNames x; refine kept_cut (s0 := s0) (a := x) ?_ ?_; subst x; rotate_left; (intro _; clear_value x); rotate_left)
    | (extract_lets +onlyGivenNames x; subst x) | with_reducible apply kept_onPort | with_reducible apply kept_idle
    | with_reducible apply kept_completeRead | with_reducible apply kept_completeWrite | with_reducible apply kept_drainPort
    | with_reducible apply kept_timeoutReport | with_reducible apply kept_pwuTurn | with_reducible apply kept_foldl | with_reducible apply keptO_ite
    | with_reducible apply keptO_next | split | (with_reducible intro _ _ _; try beta_reduce)

theorem kept_execParkAbort {s0 s : State} (hk : Kept s0 s) :
    KeptO s0 (execParkAbort s) := by
  unfold execParkAbort
  repeat' first
    | with_reducible assumption | with_reducible apply kept_mgt | with_reducible apply kept_parkAbort | with_reducible apply kept_pwuTurn
    | with_reducible apply keptO_next | (with_reducible intro _ _; try beta_reduce) | rfl

theorem kept_queuePkt {s0 s : State} {l : Nat} {h : Hdr} {vc : Nat} {n : Nat} {resv : Option Nat} {mask : Nat} (hk : Kept s0 s) :
    Kept s0 (State.queuePkt s l h vc n resv mask) := by
  unfold State.queuePkt
  repeat' first
    | with_reducible assumption | with_reducible apply kept_onLink

theorem kept_freeCells {s0 s : State} {l : Nat} {vc : Nat} {n : Nat} (hk : Kept s0 s) :
    Kept s0 (State.freeCells s l vc n) := by
  unfold State.freeCells
  repeat' first
    | with_reducible assumption | with_reducible apply kept_onLink

theorem kept_onOp {s0 s : State} {n : Nat} {f : LinkOp → LinkOp} (hk : Kept s0 s) :
    Kept s0 (State.onOp s n f) := by
  unfold State.onOp
  repeat' first
    | with_reducible assumption | with_reducible apply kept_onInst

theorem kept_endOp {s0 s : State} {n : Nat} {r : Nat} (hk : Kept s0 s) :
    Kept s0 (State.endOp s n r) := by
  unfold State.endOp
  repeat' first
    | with_reducible assumption | with_reducible apply kept_onInst

theorem kept_sendReady {s0 s : State} {i : Inst} {o : LinkOp} {ls : List Nat} (hk : Kept s0 s) :
    Kept s0 (State.sendReady s i o ls) := by
  unfold State.sendReady
  repeat' first
    | with_reducible assumption | with_reducible apply kept_queuePkt | with_reducible apply kept_onOp | with_reducible apply kept_foldl | split
    | (with_reducible intro _ _ _; try beta_reduce)

theorem kept_nowReady {s0 s : State} {n : Nat} (hk : Kept s0 s) :
    Kept s0 (State.nowReady s n) := by
  unfold State.nowReady
  repeat' first
    | with_reducible assumption
    | (extract_lets +onlyGivenNames x; refine kept_cut (s0 := s0) (a := x) ?_ ?_; subst x; rotate_left; (intro _; clear_value x); rotate_left)
    | (extract_lets +onlyGivenNames x; refine kept_cut (s0 := s0) (a := x.1) ?_ ?_; subst x; rotate_left; (intro _; clear_value x); rotate_left)
    | with_reducible apply kept_onInst | with_reducible apply kept_openWindow | with_reducible apply kept_countCost | with_reducible apply kept_onOp
    | with_reducible apply kept_ite | split

theorem kept_takeReady {s0 s : State} {n : Nat} (hk : Kept s0 s) :
    Kept s0 (State.takeReady s n) := by
  unfold State.takeReady
  repeat' first
    | with_reducible assumption | with_reducible apply kept_nowReady | with_reducible apply kept_ite | split | with_reducible apply kept_leat
    | dsimp only
    | (intro k; (try dsimp only); (repeat first | with_reducible apply Map.wf_set | with_reducible apply Map.wf_modify | with_reducible apply Map.wf_erase | with_reducible apply Map.wf_mapVals | with_reducible apply Map.wf_setMany | (with_reducible apply Map.wf_filter)); first | exact k.ext | exact k.ports | exact k.resv | exact k.pools | exact k.links | exact k.groups | exact k.ch | exact k.doms | exact k.store | exact k.ctx | exact k.insts)

theorem kept_gotReady {s0 s : State} {l : Nat} {job : Nat} {key : Nat} (hk : Kept s0 s) :
    Kept s0 (State.gotReady s l job key) := by
  unfold State.gotReady
  repeat' first
    | with_reducible assumption | (extract_lets +onlyGivenNames x; subst x) | with_reducible apply kept_raise | with_reducible apply kept_nowReady
    | with_reducible apply kept_ite | split | with_reducible apply kept_leat | dsimp only
    | (intro k; (try dsimp only); (repeat first | with_reducible apply Map.wf_set | with_reducible apply Map.wf_modify | with_reducible apply Map.wf_erase | with_reducible apply Map.wf_mapVals | with_reducible apply Map.wf_setMany | (with_reducible apply Map.wf_filter)); first | exact k.ext | exact k.ports | exact k.resv | exact k.pools | exact k.links | exact k.groups | exact k.ch | exact k.doms | exact k.store | exact k.ctx | exact k.insts)

theorem kept_landWrite {s0 s : State} {i : Inst} {l : Nat} {c : Nat} {a : Nat} {bs : List Byte} (hk : Kept s0 s) :
    Kept s0 (State.landWrite s i l c a bs) := by
  unfold State.landWrite
  repeat' first
    | with_reducible assumption | (extract_lets +onlyGivenNames x; subst x) | with_reducible apply kept_queueWrite | with_reducible apply kept_denied
    | with_reducible apply kept_portDenied | with_reducible apply kept_badChunk | with_reducible apply kept_foldl | with_reducible apply kept_ite
    | split | (with_reducible intro _ _ _; try beta_reduce)

theorem kept_flushAcks {s0 s : State} {n : Nat} (hk : Kept s0 s) :
    Kept s0 (State.flushAcks s n) := by
  unfold State.flushAcks
  repeat' first
    | with_reducible assumption | (extract_lets +onlyGivenNames x; subst x) | with_reducible apply kept_queuePkt | with_reducible apply kept_onOp
    | with_reducible apply kept_foldl | with_reducible apply kept_ite | split | (with_reducible intro _ _ _; try beta_reduce)

theorem kept_flushAll {s0 s : State} (hk : Kept s0 s) :
    Kept s0 (State.flushAll s) := by
  unfold State.flushAll
  repeat' first
    | with_reducible assumption | with_reducible apply kept_flushAcks | with_reducible apply kept_foldl
    | (with_reducible intro _ _ _; try beta_reduce)

theorem kept_ringData {s0 s : State} {l : Nat} {h : Hdr} {pay : List Byte} (hk : Kept s0 s) :
    Kept s0 (State.ringData s l h pay) := by
  unfold State.ringData
  repeat' first
    | with_reducible assumption
    | (extract_lets +onlyGivenNames x; refine kept_cut (s0 := s0) (a := x) ?_ ?_; subst x; rotate_left; (intro _; clear_value x); rotate_left)
    | (extract_lets +onlyGivenNames x; subst x) | with_reducible apply kept_onLink | with_reducible apply kept_raise
    | with_reducible apply kept_addLines | with_reducible apply kept_onOp | with_reducible apply kept_landWrite | with_reducible apply kept_flushAcks
    | with_reducible apply kept_ite | split

theorem kept_emit {s0 s : State} {l : Nat} {p : Pkt} {pay : List Byte} (hk : Kept s0 s) :
    Kept s0 (State.emit s l p pay) := by
  unfold State.emit
  repeat' first
    | with_reducible assumption | with_reducible apply kept_onLink

theorem kept_fetchChunk {s0 s : State} {i : Inst} {o : LinkOp} {c : Nat} (hk : Kept s0 s) :
    Kept s0 (State.fetchChunk s i o c) := by
  unfold State.fetchChunk
  repeat' first
    | with_reducible assumption
    | (extract_lets +onlyGivenNames x; refine kept_cut (s0 := s0) (a := x) ?_ ?_; subst x; rotate_left; (intro _; clear_value x); rotate_left)
    | (extract_lets +onlyGivenNames x; refine kept_cut (s0 := s0) (a := x.1) ?_ ?_; subst x; rotate_left; (intro _; clear_value x); rotate_left)
    | with_reducible apply kept_readExt | with_reducible apply kept_withhold | with_reducible apply kept_onOp | with_reducible apply kept_ite

theorem kept_sendPart {s0 s : State} {i : Inst} {o : LinkOp} {l : Nat} {c : Nat} {p : Nat} (hk : Kept s0 s) :
    Kept s0 (State.sendPart s i o l c p) := by
  unfold State.sendPart
  repeat' first
    | with_reducible assumption
    | (extract_lets +onlyGivenNames x; refine kept_cut (s0 := s0) (a := x) ?_ ?_; subst x; rotate_left; (intro _; clear_value x); rotate_left)
    | (extract_lets +onlyGivenNames x; subst x) | with_reducible apply kept_onLink | with_reducible apply kept_onOp | with_reducible apply kept_emit

theorem kept_fetchChunks {s0 s : State} {l : Nat} (hk : Kept s0 s) :
    Kept s0 (State.fetchChunks s l) := by
  unfold State.fetchChunks
  repeat' first
    | with_reducible assumption | with_reducible apply kept_fetchChunk | with_reducible apply kept_foldl | with_reducible apply kept_ite | split
    | (with_reducible intro _ _ _; try beta_reduce)

theorem kept_sendVc {s0 s : State} {l : Nat} {vc : Nat} (hk : Kept s0 s) :
    KeptOpt s0 (State.sendVc s l vc) := by
  unfold State.sendVc
  repeat' first
    | with_reducible assumption | (extract_lets +onlyGivenNames x; subst x) | with_reducible apply kept_onLink | with_reducible apply kept_emit
    | with_reducible apply kept_sendPart | with_reducible apply keptOpt_bind | with_reducible apply keptOpt_some | with_reducible apply keptOpt_none
    | split | with_reducible intro _

theorem kept_resendFrom {s0 s : State} {l : Nat} (hk : Kept s0 s) :
    Kept s0 (State.resendFrom s l) := by
  unfold State.resendFrom
  repeat' first
    | with_reducible assumption | with_reducible apply kept_onOp | with_reducible apply kept_foldl | (with_reducible intro _ _ _; try beta_reduce)

theorem kept_moveAcks {s0 s : State} {l : Nat} (hk : Kept s0 s) :
    Kept s0 (State.moveAcks s l) := by
  unfold State.moveAcks
  repeat' first
    | with_reducible assumption
    | (extract_lets +onlyGivenNames x; refine kept_cut (s0 := s0) (a := x) ?_ ?_; subst x; rotate_left; (intro _; clear_value x); rotate_left)
    | (extract_lets +onlyGivenNames x; subst x) | with_reducible apply kept_onLink | with_reducible apply kept_foldl | split
    | (with_reducible intro _ _ _; try beta_reduce)

theorem kept_sweepLinks {s0 s : State} (hk : Kept s0 s) :
    Kept s0 (State.sweepLinks s) := by
  unfold State.sweepLinks
  repeat' first
    | with_reducible assumption | (extract_lets +onlyGivenNames x; subst x) | with_reducible apply kept_instFault | with_reducible apply kept_onOp
    | with_reducible apply kept_endOp | with_reducible apply kept_flushAll | with_reducible apply kept_foldl | with_reducible apply kept_ite
    | (with_reducible intro _ _ _; try beta_reduce) | with_reducible apply kept_weir

theorem kept_dropLink {s0 s : State} {l : Nat} {why : Nat} (hk : Kept s0 s) :
    Kept s0 (State.dropLink s l why) := by
  unfold State.dropLink
  repeat' first
    | with_reducible assumption | with_reducible apply kept_report | with_reducible apply kept_resendFrom | with_reducible apply kept_moveAcks
    | with_reducible apply kept_sweepLinks

theorem kept_beginLink {s0 s : State} {i : Inst} (hk : Kept s0 s) :
    Kept s0 (State.beginLink s i) := by
  unfold State.beginLink
  repeat' first
    | with_reducible assumption
    | (extract_lets +onlyGivenNames x; refine kept_cut (s0 := s0) (a := x) ?_ ?_; subst x; rotate_left; (intro _; clear_value x); rotate_left)
    | (extract_lets +onlyGivenNames x; subst x) | with_reducible apply kept_onInst | with_reducible apply kept_writeExt
    | with_reducible apply kept_sendReady | with_reducible apply kept_takeReady | with_reducible apply kept_ite

theorem kept_row_linkRow {s0 : State} {t : State} {i : Inst} {opc : Nat} (hk : Kept s0 t) :
    Kept s0 ((linkRow opc).effect t i) := by
  unfold linkRow
  repeat' first
    | with_reducible assumption | (extract_lets +onlyGivenNames x; subst x) | with_reducible apply kept_row_TRow_plain
    | with_reducible apply kept_beginLink

theorem kept_execRing {s0 s : State} {c : Fin 64} {w : Long} (hk : Kept s0 s) :
    KeptO s0 (execRing c w s) := by
  unfold execRing
  repeat' first
    | with_reducible assumption | with_reducible apply kept_issueTensor | with_reducible apply kept_row_linkRow | with_reducible intro _ _ _

theorem kept_execSend {s0 s : State} {c : Fin 64} {w : Long} (hk : Kept s0 s) :
    KeptO s0 (execSend c w s) := by
  unfold execSend
  repeat' first
    | with_reducible assumption | with_reducible apply kept_issueTensor | with_reducible apply kept_row_linkRow | with_reducible intro _ _ _

theorem kept_execRecv {s0 s : State} {c : Fin 64} {w : Long} (hk : Kept s0 s) :
    KeptO s0 (execRecv c w s) := by
  unfold execRecv
  repeat' first
    | with_reducible assumption | with_reducible apply kept_issueTensor | with_reducible apply kept_row_linkRow | with_reducible intro _ _ _

theorem kept_onBucket {s0 s : State} {job : Nat} {bkt : Nat} {f : Bucket → Bucket} (hk : Kept s0 s) :
    Kept s0 (State.onBucket s job bkt f) := by
  unfold State.onBucket
  repeat' first
    | with_reducible assumption | with_reducible apply kept_weir

theorem kept_onContrib {s0 s : State} {b : Bucket} {id : Nat} {loc : Bool} {f : Contrib → Contrib} (hk : Kept s0 s) :
    Kept s0 (State.onContrib s b id loc f) := by
  unfold State.onContrib
  repeat' first
    | with_reducible assumption | with_reducible apply kept_onBucket

theorem kept_nack {s0 s : State} {i : Inst} {o : LinkOp} {l : Nat} {id : Nat} {reason : Nat} (hk : Kept s0 s) :
    Kept s0 (State.nack s i o l id reason) := by
  unfold State.nack
  repeat' first
    | with_reducible assumption | with_reducible apply kept_queuePkt | split

theorem kept_badFormat {s0 s : State} {i : Inst} {o : LinkOp} {b : Bucket} {c : Contrib} (hk : Kept s0 s) :
    Kept s0 (State.badFormat s i o b c) := by
  unfold State.badFormat
  repeat' first
    | with_reducible assumption
    | (extract_lets +onlyGivenNames x; refine kept_cut (s0 := s0) (a := x) ?_ ?_; subst x; rotate_left; (intro _; clear_value x); rotate_left)
    | with_reducible apply kept_instFault | with_reducible apply kept_onContrib | with_reducible apply kept_nack | with_reducible apply kept_ite

theorem kept_targetHead {s0 s : State} {i : Inst} {o : LinkOp} {t : Nat} (hk : Kept s0 s) :
    Kept s0 (State.targetHead s i o t).1 := by
  unfold State.targetHead
  repeat' first
    | with_reducible assumption
    | (extract_lets +onlyGivenNames x; refine kept_cut (s0 := s0) (a := x.1) ?_ ?_; subst x; rotate_left; (intro _; clear_value x); rotate_left)
    | with_reducible apply kept_readExt

theorem kept_addPairs {s0 s : State} {i : Inst} {w : Why} {base : Nat} {ps : List (Nat × Nat)} {nf : Bool} {bad : Bool} (hk : Kept s0 s) :
    Kept s0 (State.addPairs s i w base ps nf bad) := by
  unfold State.addPairs
  repeat' first
    | with_reducible assumption
    | (extract_lets +onlyGivenNames x; refine kept_cut (s0 := s0) (a := x.1) ?_ ?_; subst x; rotate_left; (intro _; clear_value x); rotate_left)
    | (extract_lets +onlyGivenNames x; subst x) | with_reducible apply kept_readExt | with_reducible apply kept_addTile
    | with_reducible apply kept_foldl | (with_reducible intro _ _ _; try beta_reduce)

theorem kept_settleContrib {s0 s : State} {i : Inst} {o : LinkOp} {b : Bucket} {c : Contrib} (hk : Kept s0 s) :
    Kept s0 (State.settleContrib s i o b c) := by
  unfold State.settleContrib
  repeat' first
    | with_reducible assumption
    | (extract_lets +onlyGivenNames x; refine kept_cut (s0 := s0) (a := x) ?_ ?_; subst x; rotate_left; (intro _; clear_value x); rotate_left)
    | (extract_lets +onlyGivenNames x; refine kept_cut (s0 := s0) (a := x.1) ?_ ?_; subst x; rotate_left; (intro _; clear_value x); rotate_left)
    | (extract_lets +onlyGivenNames x; subst x) | with_reducible apply kept_raise | with_reducible apply kept_readExt
    | with_reducible apply kept_addTile | with_reducible apply kept_onContrib | with_reducible apply kept_nack | with_reducible apply kept_badFormat
    | with_reducible apply kept_targetHead | with_reducible apply kept_addPairs | with_reducible apply kept_foldl
    | with_reducible apply kept_foldl_fst | with_reducible apply kept_ite | split | (with_reducible intro _ _ _; try beta_reduce)
    | with_reducible apply kept_weir

theorem kept_closeBucket {s0 s : State} {i : Inst} {o : LinkOp} {b : Bucket} (hk : Kept s0 s) :
    Kept s0 (State.closeBucket s i o b) := by
  unfold State.closeBucket
  repeat' first
    | with_reducible assumption
    | (extract_lets +onlyGivenNames x; refine kept_cut (s0 := s0) (a := x) ?_ ?_; subst x; rotate_left; (intro _; clear_value x); rotate_left)
    | (extract_lets +onlyGivenNames x; subst x) | with_reducible apply kept_raise | with_reducible apply kept_onBucket
    | with_reducible apply kept_onContrib | with_reducible apply kept_nack | with_reducible apply kept_foldl | with_reducible apply kept_ite
    | (with_reducible intro _ _ _; try beta_reduce) | with_reducible apply kept_weir

theorem kept_bucketOut {s0 s : State} {i : Inst} {o : LinkOp} {n : Nat} (hk : Kept s0 s) :
    Kept s0 (State.bucketOut s i o n) := by
  unfold State.bucketOut
  repeat' first
    | with_reducible assumption
    | (extract_lets +onlyGivenNames x; refine kept_cut (s0 := s0) (a := x) ?_ ?_; subst x; rotate_left; (intro _; clear_value x); rotate_left)
    | (extract_lets +onlyGivenNames x; refine kept_cut (s0 := s0) (a := x.1) ?_ ?_; subst x; rotate_left; (intro _; clear_value x); rotate_left)
    | (extract_lets +onlyGivenNames x; subst x) | with_reducible apply kept_instFault | with_reducible apply kept_readExt
    | with_reducible apply kept_writeExt | with_reducible apply kept_markPoison | with_reducible apply kept_count
    | with_reducible apply kept_foldl_fst | with_reducible intro _ _ _ | with_reducible apply kept_ite

theorem kept_ackContrib {s0 s : State} {i : Inst} {o : LinkOp} {b : Bucket} {c : Contrib} {l : Nat} (hk : Kept s0 s) :
    Kept s0 (State.ackContrib s i o b c l) := by
  unfold State.ackContrib
  repeat' first
    | with_reducible assumption | with_reducible apply kept_queuePkt | with_reducible apply kept_onContrib | split

theorem kept_settleLocal {s0 s : State} {i : Inst} {o : LinkOp} {b : Bucket} (hk : Kept s0 s) :
    Kept s0 (State.settleLocal s i o b) := by
  unfold State.settleLocal
  repeat' first
    | with_reducible assumption
    | (extract_lets +onlyGivenNames x; refine kept_cut (s0 := s0) (a := x) ?_ ?_; subst x; rotate_left; (intro _; clear_value x); rotate_left)
    | with_reducible apply kept_onBucket | with_reducible apply kept_settleContrib | with_reducible apply kept_ite | split

theorem kept_weirProgress {s0 s : State} {job : Nat} {bkt : Nat} (hk : Kept s0 s) :
    Kept s0 (State.weirProgress s job bkt) := by
  unfold State.weirProgress
  repeat' first
    | with_reducible assumption
    | (extract_lets +onlyGivenNames x; refine kept_cut (s0 := s0) (a := x) ?_ ?_; subst x; rotate_left; (intro _; clear_value x); rotate_left)
    | (extract_lets +onlyGivenNames x; subst x) | with_reducible apply kept_raise | with_reducible apply kept_writeExt
    | with_reducible apply kept_endOp | with_reducible apply kept_onBucket | with_reducible apply kept_closeBucket
    | with_reducible apply kept_bucketOut | with_reducible apply kept_ackContrib | with_reducible apply kept_settleLocal
    | with_reducible apply kept_foldl | with_reducible apply kept_ite | split | (with_reducible intro _ _ _; try beta_reduce)
    | with_reducible apply kept_weir

theorem kept_landPart {s0 s : State} {i : Inst} {o : LinkOp} {b : Bucket} {c : Contrib} {l : Nat} {t : Nat} {p : Nat} {pay : List Byte} (hk : Kept s0 s) :
    Kept s0 (State.landPart s i o b c l t p pay) := by
  unfold State.landPart
  repeat' first
    | with_reducible assumption
    | (extract_lets +onlyGivenNames x; refine kept_cut (s0 := s0) (a := x) ?_ ?_; subst x; rotate_left; (intro _; clear_value x); rotate_left)
    | (extract_lets +onlyGivenNames x; refine kept_cut (s0 := s0) (a := x.1) ?_ ?_; subst x; rotate_left; (intro _; clear_value x); rotate_left)
    | (extract_lets +onlyGivenNames x; subst x) | with_reducible apply kept_writeExt | with_reducible apply kept_onContrib
    | with_reducible apply kept_badFormat | with_reducible apply kept_targetHead | with_reducible apply kept_settleContrib
    | with_reducible apply kept_ite | split

theorem kept_answer {s0 s : State} {h : Hdr} {typ : Nat} {len : Nat} {l : Nat} {rx : Nat} {n : Nat} {chunk : Nat} (hk : Kept s0 s) :
    Kept s0 (State.answer s h typ len l rx n chunk).1 := by
  unfold State.answer
  repeat' first
    | with_reducible assumption | with_reducible apply kept_queuePkt | split

theorem kept_lateAns {s0 s : State} {h : Hdr} {l : Nat} {rx : Nat} {n : Nat} {p : Nat} (hk : Kept s0 s) :
    Kept s0 (State.lateAns s h l rx n p) := by
  unfold State.lateAns
  repeat' first
    | with_reducible assumption
    | (extract_lets +onlyGivenNames x; refine kept_cut (s0 := s0) (a := x) ?_ ?_; subst x; rotate_left; (intro _; clear_value x); rotate_left)
    | (extract_lets +onlyGivenNames x; refine kept_cut (s0 := s0) (a := x.1) ?_ ?_; subst x; rotate_left; (intro _; clear_value x); rotate_left)
    | (extract_lets +onlyGivenNames x; subst x) | with_reducible apply kept_answer | with_reducible apply kept_ite | with_reducible apply kept_weir

theorem kept_weirData {s0 s : State} {l : Nat} {h : Hdr} {pay : List Byte} (hk : Kept s0 s) :
    Kept s0 (State.weirData s l h pay) := by
  unfold State.weirData
  repeat' first
    | with_reducible assumption
    | (extract_lets +onlyGivenNames x; refine kept_cut (s0 := s0) (a := x) ?_ ?_; subst x; rotate_left; (intro _; clear_value x); rotate_left)
    | (extract_lets +onlyGivenNames x; subst x) | with_reducible apply kept_onLink | with_reducible apply kept_raise | with_reducible apply kept_onOp
    | with_reducible apply kept_onBucket | with_reducible apply kept_nack | with_reducible apply kept_ackContrib
    | with_reducible apply kept_weirProgress | with_reducible apply kept_landPart | with_reducible apply kept_answer
    | with_reducible apply kept_lateAns | with_reducible apply kept_ite | split

theorem kept_toWeir {s0 s : State} {l : Nat} {h : Hdr} {pay : List Byte} (hk : Kept s0 s) :
    Kept s0 (State.toWeir s l h pay) := by
  unfold State.toWeir
  repeat' first
    | with_reducible assumption
    | (extract_lets +onlyGivenNames x; refine kept_cut (s0 := s0) (a := x) ?_ ?_; subst x; rotate_left; (intro _; clear_value x); rotate_left)
    | (extract_lets +onlyGivenNames x; subst x) | with_reducible apply kept_wakeDom | with_reducible apply kept_weirData
    | with_reducible apply kept_ite | with_reducible apply kept_leat | dsimp only
    | (intro k; (try dsimp only); (repeat first | with_reducible apply Map.wf_set | with_reducible apply Map.wf_modify | with_reducible apply Map.wf_erase | with_reducible apply Map.wf_mapVals | with_reducible apply Map.wf_setMany | (with_reducible apply Map.wf_filter)); first | exact k.ext | exact k.ports | exact k.resv | exact k.pools | exact k.links | exact k.groups | exact k.ch | exact k.doms | exact k.store | exact k.ctx | exact k.insts)

theorem kept_weirUp {s0 s : State} (hk : Kept s0 s) :
    Kept s0 (State.weirUp s) := by
  unfold State.weirUp
  repeat' first
    | with_reducible assumption | (extract_lets +onlyGivenNames x; subst x) | with_reducible apply kept_freeCells | with_reducible apply kept_weirData
    | with_reducible apply kept_foldl | (with_reducible intro _ _ _; try beta_reduce) | with_reducible apply kept_leat | dsimp only
    | (intro k; (try dsimp only); (repeat first | with_reducible apply Map.wf_set | with_reducible apply Map.wf_modify | with_reducible apply Map.wf_erase | with_reducible apply Map.wf_mapVals | with_reducible apply Map.wf_setMany | (with_reducible apply Map.wf_filter)); first | exact k.ext | exact k.ports | exact k.resv | exact k.pools | exact k.links | exact k.groups | exact k.ch | exact k.doms | exact k.store | exact k.ctx | exact k.insts)

theorem kept_giveBack {s0 s : State} {i : Inst} {o : LinkOp} (hk : Kept s0 s) :
    Kept s0 (State.giveBack s i o) := by
  unfold State.giveBack
  repeat' first
    | with_reducible assumption
    | (extract_lets +onlyGivenNames x; refine kept_cut (s0 := s0) (a := x.1) ?_ ?_; subst x; rotate_left; (intro _; clear_value x); rotate_left)
    | (extract_lets +onlyGivenNames x; subst x) | with_reducible apply kept_readExt | with_reducible apply kept_addTile
    | with_reducible apply kept_addPairs | with_reducible apply kept_foldl | with_reducible apply kept_ite
    | (with_reducible intro _ _ _; try beta_reduce)

theorem kept_gotNack {s0 s : State} {h : Hdr} (hk : Kept s0 s) :
    Kept s0 (State.gotNack s h) := by
  unfold State.gotNack
  repeat' first
    | with_reducible assumption
    | (extract_lets +onlyGivenNames x; refine kept_cut (s0 := s0) (a := x) ?_ ?_; subst x; rotate_left; (intro _; clear_value x); rotate_left)
    | (extract_lets +onlyGivenNames x; subst x) | with_reducible apply kept_raise | with_reducible apply kept_instFault
    | with_reducible apply kept_endOp | with_reducible apply kept_giveBack | split | with_reducible apply kept_weir

theorem kept_gotCack {s0 s : State} {h : Hdr} (hk : Kept s0 s) :
    Kept s0 (State.gotCack s h) := by
  unfold State.gotCack
  repeat' first
    | with_reducible assumption | (extract_lets +onlyGivenNames x; subst x) | with_reducible apply kept_onOp | with_reducible apply kept_endOp | split

theorem kept_beginContribute {s0 s : State} {i : Inst} (hk : Kept s0 s) :
    Kept s0 (State.beginContribute s i) := by
  unfold State.beginContribute
  repeat' first
    | with_reducible assumption | (extract_lets +onlyGivenNames x; subst x) | with_reducible apply kept_onInst | with_reducible apply kept_takeReady

theorem kept_beginReduce {s0 s : State} {i : Inst} (hk : Kept s0 s) :
    Kept s0 (State.beginReduce s i) := by
  unfold State.beginReduce
  repeat' first
    | with_reducible assumption
    | (extract_lets +onlyGivenNames x; refine kept_cut (s0 := s0) (a := x) ?_ ?_; subst x; rotate_left; (intro _; clear_value x); rotate_left)
    | (extract_lets +onlyGivenNames x; refine kept_cut (s0 := s0) (a := x.1) ?_ ?_; subst x; rotate_left; (intro _; clear_value x); rotate_left)
    | (extract_lets +onlyGivenNames x; subst x) | with_reducible apply kept_onInst | with_reducible apply kept_readExt
    | with_reducible apply kept_writeExtFor | with_reducible apply kept_writeExt | with_reducible apply kept_markPoison
    | with_reducible apply kept_sendReady | with_reducible apply kept_onBucket | with_reducible apply kept_weirProgress
    | with_reducible apply kept_ite | with_reducible apply kept_weir

theorem kept_row_wredRow {s0 : State} {t : State} {i : Inst} {reduce : Bool} (hk : Kept s0 t) :
    Kept s0 ((wredRow reduce).effect t i) := by
  unfold wredRow
  repeat' first
    | with_reducible assumption | with_reducible apply kept_row_TRow_plain | with_reducible apply kept_beginContribute
    | with_reducible apply kept_beginReduce | with_reducible intro _ _ _ | split

theorem kept_execWredContribute {s0 s : State} {c : Fin 64} {w : Long} (hk : Kept s0 s) :
    KeptO s0 (execWredContribute c w s) := by
  unfold execWredContribute
  repeat' first
    | with_reducible assumption | with_reducible apply kept_issueTensor | with_reducible apply kept_row_wredRow | with_reducible intro _ _ _

theorem kept_execWredReduce {s0 s : State} {c : Fin 64} {w : Long} (hk : Kept s0 s) :
    KeptO s0 (execWredReduce c w s) := by
  unfold execWredReduce
  repeat' first
    | with_reducible assumption | with_reducible apply kept_issueTensor | with_reducible apply kept_row_wredRow | with_reducible intro _ _ _

theorem kept_execBucketDeadline {s0 s : State} {job : BitVec 12} {bkt : W32} (hk : Kept s0 s) :
    KeptO s0 (execBucketDeadline job bkt s) := by
  unfold execBucketDeadline
  repeat' first
    | with_reducible assumption | with_reducible apply kept_idle | with_reducible apply kept_weirProgress | with_reducible apply keptO_ite
    | with_reducible apply keptO_next | split

theorem kept_writeCstate {s0 s : State} {w : Nat} {v : Nat} (hk : Kept s0 s) :
    Kept s0 (State.writeCstate s w v) := by
  unfold State.writeCstate
  repeat' first
    | with_reducible assumption
    | (extract_lets +onlyGivenNames x; refine kept_cut (s0 := s0) (a := x) ?_ ?_; subst x; rotate_left; (intro _; clear_value x); rotate_left)
    | (extract_lets +onlyGivenNames x; subst x) | with_reducible apply kept_onBucket | with_reducible apply kept_nack
    | with_reducible apply kept_weirProgress | with_reducible apply kept_foldl | with_reducible apply kept_ite | split
    | (with_reducible intro _ _ _; try beta_reduce) | with_reducible apply kept_weir

theorem kept_execCstateWrite {s0 s : State} {i : Fin 16} {v : W32} (hk : Kept s0 s) :
    KeptO s0 (execCstateWrite i v s) := by
  unfold execCstateWrite
  repeat' first
    | with_reducible assumption | with_reducible apply kept_mgt | with_reducible apply kept_writeCstate | with_reducible apply keptO_next
    | (with_reducible intro _ _; try beta_reduce) | rfl

theorem kept_topk {s0 s : State} {i : Inst} (hk : Kept s0 s) :
    Kept s0 (State.topk s i) := by
  unfold State.topk
  repeat' first
    | with_reducible assumption
    | (extract_lets +onlyGivenNames x; refine kept_cut (s0 := s0) (a := x) ?_ ?_; subst x; rotate_left; (intro _; clear_value x); rotate_left)
    | (extract_lets +onlyGivenNames x; refine kept_cut (s0 := s0) (a := x.1) ?_ ?_; subst x; rotate_left; (intro _; clear_value x); rotate_left)
    | (extract_lets +onlyGivenNames x; subst x) | with_reducible apply kept_instFault | with_reducible apply kept_writeExt
    | with_reducible apply kept_markPoison | with_reducible apply kept_fetch | with_reducible apply kept_store | with_reducible apply kept_foldl
    | with_reducible apply kept_ite | (with_reducible intro _ _ _; try beta_reduce)

theorem kept_row_topkRow {s0 : State} {t : State} {i : Inst} (hk : Kept s0 t) :
    Kept s0 (topkRow.effect t i) := by
  unfold topkRow
  repeat' first
    | with_reducible assumption | (extract_lets +onlyGivenNames x; subst x) | with_reducible apply kept_row_TRow_plain
    | with_reducible apply kept_topk

theorem kept_execTopk {s0 s : State} {c : Fin 64} {w : Long} (hk : Kept s0 s) :
    KeptO s0 (execTopk c w s) := by
  unfold execTopk topkRow
  repeat' first
    | with_reducible assumption | (extract_lets +onlyGivenNames x; subst x) | with_reducible apply kept_row_TRow_plain
    | with_reducible apply kept_issueTensor | with_reducible apply kept_topk | with_reducible intro _ _ _

theorem kept_rxPacket {s0 s : State} {typ : Nat} {l : Nat} {b : List Byte} {err : Bool} {f : State → Hdr → List Byte → State} (hk : Kept s0 s) (hf : ∀ (x0 : State) (x1 : Hdr) (x2 : List Byte), Kept s0 x0 → Kept s0 (f x0 x1 x2)) :
    KeptO s0 (rxPacket typ l b err s f) := by
  unfold rxPacket
  repeat' first
    | with_reducible assumption | (extract_lets +onlyGivenNames x; subst x) | with_reducible apply hf | with_reducible apply kept_onLink
    | with_reducible apply kept_idle | with_reducible apply keptO_ite | with_reducible apply keptO_next

theorem kept_rxSequenced {s0 s : State} {typ : Nat} {l : Nat} {b : List Byte} {err : Bool} {f : State → Hdr → List Byte → State} (hk : Kept s0 s) (hf : ∀ (x0 : State) (x1 : Hdr) (x2 : List Byte), Kept s0 x0 → Kept s0 (f x0 x1 x2)) :
    KeptO s0 (rxSequenced typ l b err s f) := by
  unfold rxSequenced
  repeat' first
    | with_reducible assumption
    | (extract_lets +onlyGivenNames x; refine kept_cut (s0 := s0) (a := x) ?_ ?_; subst x; rotate_left; (intro _; clear_value x); rotate_left)
    | (extract_lets +onlyGivenNames x; subst x) | with_reducible apply hf | with_reducible apply kept_onLink | with_reducible apply kept_freeCells
    | with_reducible apply kept_rxPacket | with_reducible apply kept_ite | (with_reducible intro _ _ _ _; try beta_reduce)

theorem kept_execDataPacket {s0 s : State} {l : Fin 64} {b : List Byte} {err : Bool} (hk : Kept s0 s) :
    KeptO s0 (execDataPacket l b err s) := by
  unfold execDataPacket
  repeat' first
    | with_reducible assumption | with_reducible apply kept_ringData | with_reducible apply kept_toWeir | with_reducible apply kept_rxSequenced
    | with_reducible apply kept_ite | (with_reducible intro _ _ _ _; try beta_reduce)

theorem kept_execReady {s0 s : State} {l : Fin 64} {b : List Byte} {err : Bool} (hk : Kept s0 s) :
    KeptO s0 (execReady l b err s) := by
  unfold execReady
  repeat' first
    | with_reducible assumption | with_reducible apply kept_gotReady | with_reducible apply kept_rxSequenced
    | (with_reducible intro _ _ _ _; try beta_reduce)

theorem kept_execCack {s0 s : State} {l : Fin 64} {b : List Byte} {err : Bool} (hk : Kept s0 s) :
    KeptO s0 (execCack l b err s) := by
  unfold execCack
  repeat' first
    | with_reducible assumption | with_reducible apply kept_gotCack | with_reducible apply kept_rxSequenced
    | (with_reducible intro _ _ _ _; try beta_reduce)

theorem kept_execNack {s0 s : State} {l : Fin 64} {b : List Byte} {err : Bool} (hk : Kept s0 s) :
    KeptO s0 (execNack l b err s) := by
  unfold execNack
  repeat' first
    | with_reducible assumption | with_reducible apply kept_gotNack | with_reducible apply kept_rxSequenced
    | (with_reducible intro _ _ _ _; try beta_reduce)

theorem kept_execInit {s0 s : State} {l : Fin 64} {b : List Byte} {err : Bool} (hk : Kept s0 s) :
    KeptO s0 (execInit l b err s) := by
  unfold execInit
  repeat' first
    | with_reducible assumption
    | (extract_lets +onlyGivenNames x; refine kept_cut (s0 := s0) (a := x) ?_ ?_; subst x; rotate_left; (intro _; clear_value x); rotate_left)
    | with_reducible apply kept_onLink | with_reducible apply kept_shortLink | with_reducible apply kept_flushAll | with_reducible apply kept_rxPacket
    | split | (with_reducible intro _ _ _ _; try beta_reduce)

theorem kept_startReplay {s0 s : State} {l : Nat} (hk : Kept s0 s) :
    Kept s0 (State.startReplay s l) := by
  unfold State.startReplay
  repeat' first
    | with_reducible assumption | with_reducible apply kept_onLink | with_reducible apply kept_dropLink | with_reducible apply kept_ite

theorem kept_execLlctl {s0 s : State} {l : Fin 64} {b : List Byte} {err : Bool} (hk : Kept s0 s) :
    KeptO s0 (execLlctl l b err s) := by
  unfold execLlctl
  repeat' first
    | with_reducible assumption
    | (extract_lets +onlyGivenNames x; refine kept_cut (s0 := s0) (a := x) ?_ ?_; subst x; rotate_left; (intro _; clear_value x); rotate_left)
    | (extract_lets +onlyGivenNames x; subst x) | with_reducible apply kept_onLink | with_reducible apply kept_flushAll
    | with_reducible apply kept_rxPacket | with_reducible apply kept_startReplay | with_reducible apply kept_ite
    | (with_reducible intro _ _ _ _; try beta_reduce)

theorem kept_execLnkUpChange {s0 s : State} {l : Fin 64} {up : Bool} (hk : Kept s0 s) :
    KeptO s0 (execLnkUpChange l up s) := by
  unfold execLnkUpChange
  repeat' first
    | with_reducible assumption
    | (extract_lets +onlyGivenNames x; refine kept_cut (s0 := s0) (a := x) ?_ ?_; subst x; rotate_left; (intro _; clear_value x); rotate_left)
    | (extract_lets +onlyGivenNames x; subst x) | with_reducible apply kept_onLink | with_reducible apply kept_startLink
    | with_reducible apply kept_idle | with_reducible apply kept_dropLink | with_reducible apply keptO_ite | with_reducible apply keptO_next

theorem kept_writeLinkEn {s0 s : State} {hi : Bool} {v : Nat} (hk : Kept s0 s) :
    Kept s0 (State.writeLinkEn s hi v) := by
  unfold State.writeLinkEn
  repeat' first
    | with_reducible assumption
    | (extract_lets +onlyGivenNames x; refine kept_cut (s0 := s0) (a := x) ?_ ?_; subst x; rotate_left; (intro _; clear_value x); rotate_left)
    | (extract_lets +onlyGivenNames x; subst x) | with_reducible apply kept_onLink | with_reducible apply kept_wakeDom
    | with_reducible apply kept_startLink | with_reducible apply kept_resendFrom | with_reducible apply kept_moveAcks
    | with_reducible apply kept_sweepLinks | with_reducible apply kept_foldl | with_reducible apply kept_ite | split
    | (with_reducible intro _ _ _; try beta_reduce) | with_reducible apply kept_leat | with_reducible apply kept_prot | dsimp only
    | (intro k; (try dsimp only); (repeat first | with_reducible apply Map.wf_set | with_reducible apply Map.wf_modify | with_reducible apply Map.wf_erase | with_reducible apply Map.wf_mapVals | with_reducible apply Map.wf_setMany | (with_reducible apply Map.wf_filter)); first | exact k.ext | exact k.ports | exact k.resv | exact k.pools | exact k.links | exact k.groups | exact k.ch | exact k.doms | exact k.store | exact k.ctx | exact k.insts)

theorem kept_execLinkEnWrite {s0 s : State} {hi : Bool} {v : W32} (hk : Kept s0 s) :
    KeptO s0 (execLinkEnWrite hi v s) := by
  unfold execLinkEnWrite
  repeat' first
    | with_reducible assumption | with_reducible apply kept_mgt | with_reducible apply kept_writeLinkEn | with_reducible apply keptO_next
    | (with_reducible intro _ _; try beta_reduce) | rfl

theorem kept_leatCommit {s0 s : State} {g : Nat} (hk : Kept s0 s) :
    Kept s0 (State.leatCommit s g) := by
  unfold State.leatCommit
  repeat' first
    | with_reducible assumption | (extract_lets +onlyGivenNames x; subst x) | with_reducible apply kept_onGroup | with_reducible apply kept_ite

theorem kept_execLeatCommit {s0 s : State} {g : Fin 8} (hk : Kept s0 s) :
    KeptO s0 (execLeatCommit g s) := by
  unfold execLeatCommit
  repeat' first
    | with_reducible assumption | with_reducible apply kept_mgt | with_reducible apply kept_leatCommit | with_reducible apply keptO_next
    | (with_reducible intro _ _; try beta_reduce) | rfl

theorem kept_sendLlctl {s0 s : State} {l : Nat} (hk : Kept s0 s) :
    Kept s0 (State.sendLlctl s l) := by
  unfold State.sendLlctl
  repeat' first
    | with_reducible assumption | (extract_lets +onlyGivenNames x; subst x) | with_reducible apply kept_onLink

theorem kept_sendInit {s0 s : State} {l : Nat} (hk : Kept s0 s) :
    Kept s0 (State.sendInit s l) := by
  unfold State.sendInit
  repeat' first
    | with_reducible assumption | (extract_lets +onlyGivenNames x; subst x) | with_reducible apply kept_onLink

theorem kept_leatRead {s0 s : State} {p : Pkt} {l : Nat} {a : Nat} {n : Nat} (hk : Kept s0 s) :
    Kept s0 (State.leatRead s p l a n).1 := by
  unfold State.leatRead
  repeat' first
    | with_reducible assumption | with_reducible apply kept_queueRead | with_reducible apply kept_foldl_fst | split
    | (with_reducible intro _ _ _; try beta_reduce)

theorem kept_sendReplay {s0 s : State} {l : Nat} {p : Pkt} (hk : Kept s0 s) :
    Kept s0 (State.sendReplay s l p) := by
  unfold State.sendReplay
  repeat' first
    | with_reducible assumption
    | (extract_lets +onlyGivenNames x; refine kept_cut (s0 := s0) (a := x.1) ?_ ?_; subst x; rotate_left; (intro _; clear_value x); rotate_left)
    | (extract_lets +onlyGivenNames x; subst x) | with_reducible apply kept_onLink | with_reducible apply kept_readExt
    | with_reducible apply kept_leatRead | with_reducible apply kept_ite | split

theorem kept_execPacketSend {s0 s : State} {l : Fin 64} (hk : Kept s0 s) :
    KeptO s0 (execPacketSend l s) := by
  unfold execPacketSend
  repeat' first
    | with_reducible assumption
    | (extract_lets +onlyGivenNames x; refine kept_cut (s0 := s0) (a := x) ?_ ?_; subst x; rotate_left; (intro _; clear_value x); rotate_left)
    | (extract_lets +onlyGivenNames x; subst x) | with_reducible apply kept_onLink | with_reducible apply kept_idle
    | with_reducible apply kept_fetchChunks | with_reducible apply kept_sendVc | with_reducible apply kept_sendLlctl
    | with_reducible apply kept_sendInit | with_reducible apply kept_sendReplay | with_reducible apply keptO_ite | with_reducible apply keptO_next
    | refine keptOpt_findSome ?_ _ ‹List.findSome? _ _ = some _› | split | with_reducible intro _

theorem kept_execReplayTimeout {s0 s : State} {l : Fin 64} (hk : Kept s0 s) :
    KeptO s0 (execReplayTimeout l s) := by
  unfold execReplayTimeout
  repeat' first
    | with_reducible assumption | (extract_lets +onlyGivenNames x; subst x) | with_reducible apply kept_idle | with_reducible apply kept_startReplay
    | with_reducible apply keptO_ite | with_reducible apply keptO_next

theorem kept_execLlctlReportDeadline {s0 s : State} {l : Fin 64} (hk : Kept s0 s) :
    KeptO s0 (execLlctlReportDeadline l s) := by
  unfold execLlctlReportDeadline
  repeat' first
    | with_reducible assumption | (extract_lets +onlyGivenNames x; subst x) | with_reducible apply kept_onLink | with_reducible apply kept_idle
    | with_reducible apply keptO_ite | with_reducible apply keptO_next

theorem kept_execInitResend {s0 s : State} {l : Fin 64} (hk : Kept s0 s) :
    KeptO s0 (execInitResend l s) := by
  unfold execInitResend
  repeat' first
    | with_reducible assumption | (extract_lets +onlyGivenNames x; subst x) | with_reducible apply kept_onLink | with_reducible apply kept_idle
    | with_reducible apply keptO_ite | with_reducible apply keptO_next

theorem kept_execReadyResend {s0 s : State} {n : Nat} (hk : Kept s0 s) :
    KeptO s0 (execReadyResend n s) := by
  unfold execReadyResend
  repeat' first
    | with_reducible assumption | (extract_lets +onlyGivenNames x; subst x) | with_reducible apply kept_idle | with_reducible apply kept_sendReady
    | with_reducible apply keptO_ite | with_reducible apply keptO_next | split

theorem kept_execSyncBeatReceived {s0 s : State} {l : Fin 64} (hk : Kept s0 s) :
    KeptO s0 (execSyncBeatReceived l s) := by
  unfold execSyncBeatReceived
  repeat' first
    | with_reducible assumption | with_reducible apply kept_onLink | with_reducible apply kept_idle | with_reducible apply keptO_ite
    | with_reducible apply keptO_next

theorem kept_afterWrite {s0 s : State} {w : Why} (hk : Kept s0 s) :
    Kept s0 (State.afterWrite s w) := by
  unfold State.afterWrite
  repeat' first
    | with_reducible assumption | with_reducible apply kept_flushAcks | with_reducible apply kept_weirProgress | split

theorem kept_execNmpWriteAck {s0 s : State} {p : Fin 32} {tag : Nat} {err : Bool} (hk : Kept s0 s) :
    KeptO s0 (execNmpWriteAck p tag err s) := by
  unfold execNmpWriteAck
  repeat' first
    | with_reducible assumption | with_reducible apply kept_onPort | with_reducible apply kept_offer | with_reducible apply kept_idle
    | with_reducible apply kept_afterWrite | with_reducible apply keptO_ite | with_reducible apply keptO_next
    | refine (kept_ackWrite ?_) _ ‹State.ackWrite _ _ _ _ = some _› | split

end Sys2Proof.Machine
end

