-- ==== Sys2Proof/Laws/KeptRun.lean ====
section
/-!
SUPPORT. `Kept` through work in progress, command intake, control, scalar and system instructions.
-/

namespace Sys2Proof.Machine

theorem kept_takeItem {s0 s : State} {ms : List Mate} {w : Work} (hk : Kept s0 s) :
    Kept s0 (State.takeItem s ms w) := by
  unfold State.takeItem
  repeat' first
    | with_reducible assumption | with_reducible apply kept_onInst | with_reducible apply kept_foldl | (with_reducible intro _ _ _; try beta_reduce)

theorem kept_rebase {s0 s : State} (hk : Kept s0 s) :
    Kept s0 (State.rebase s) := by
  unfold State.rebase
  repeat' first
    | exact kc.same rfl | with_reducible assumption
    | (extract_lets +onlyGivenNames x; refine kept_cut (s0 := s0) (a := x.1) ?_ ?_; subst x; rotate_left; (intro _; clear_value x); rotate_left)
    | (extract_lets +onlyGivenNames x; subst x) | with_reducible refine kept_onCx ?_ fun kc => ?_ | with_reducible apply kept_onSluice
    | with_reducible apply kept_foldl_fst | split | (with_reducible intro _; with_reducible rfl) | (with_reducible intro _ _ _; try beta_reduce)

theorem kept_chargeB {s0 s : State} {i : Inst} {cycles : Nat} (hk : Kept s0 s) :
    Kept s0 (State.chargeB s i cycles) := by
  unfold State.chargeB
  repeat' first
    | exact kc.same rfl | with_reducible assumption | with_reducible refine kept_onCx ?_ fun kc => ?_ | with_reducible apply kept_ite

theorem kept_runPass {s0 s : State} {i : Inst} {ms : List Mate} {w : Work} {bed : Bool} (hk : Kept s0 s) :
    Kept s0 (State.runPass s i ms w bed) := by
  unfold State.runPass
  repeat' first
    | with_reducible assumption | with_reducible apply kept_mmPass | with_reducible apply kept_mmcChain | with_reducible apply kept_attfPass
    | with_reducible apply kept_attbPass | split

theorem kept_stageAs {s0 s : State} {ms : List Mate} {st : Staging} (hk : Kept s0 s) :
    Kept s0 (State.stageAs s ms st) := by
  unfold State.stageAs
  repeat' first
    | with_reducible assumption | with_reducible apply kept_onInst | with_reducible apply kept_foldl | (with_reducible intro _ _ _; try beta_reduce)

theorem kept_fetchItem {s0 s : State} {i : Inst} {w : Work} (hk : Kept s0 s) :
    Kept s0 (State.fetchItem s i w) := by
  unfold State.fetchItem
  repeat' first
    | with_reducible assumption
    | (extract_lets +onlyGivenNames x; refine kept_cut (s0 := s0) (a := x) ?_ ?_; subst x; rotate_left; (intro _; clear_value x); rotate_left)
    | (extract_lets +onlyGivenNames x; subst x) | with_reducible apply kept_onInst | with_reducible apply kept_takeReads
    | with_reducible apply kept_runPass | with_reducible apply kept_stageAs | with_reducible apply kept_foldl
    | (with_reducible intro _ _ _; try beta_reduce)

theorem kept_fetchReady {s0 s : State} {g : Nat} {bed : Bool} (hk : Kept s0 s) :
    Kept s0 (State.fetchReady s g bed) := by
  unfold State.fetchReady
  repeat' first
    | with_reducible assumption | with_reducible apply kept_fetchItem | with_reducible apply kept_foldl | with_reducible apply kept_ite | split
    | (with_reducible intro _ _ _; try beta_reduce)

theorem kept_fetchNext {s0 s : State} {n : Nat} {g : Nat} (hk : Kept s0 s) :
    Kept s0 (State.fetchNext s n g) := by
  unfold State.fetchNext
  repeat' first
    | with_reducible assumption | with_reducible apply kept_fetchItem | with_reducible apply kept_ite | split

theorem kept_dropPart {s0 s : State} {ms : List Mate} {w : Work} (hk : Kept s0 s) :
    Kept s0 (State.dropPart s ms w) := by
  unfold State.dropPart
  repeat' first
    | with_reducible assumption | with_reducible apply kept_onInst | with_reducible apply kept_foldl | (with_reducible intro _ _ _; try beta_reduce)

theorem kept_runStaged {s0 s : State} {i : Inst} {w : Work} {bed : Bool} {cut : Option Nat} (hk : Kept s0 s) :
    Kept s0 (State.runStaged s i w bed cut) := by
  unfold State.runStaged
  repeat' first
    | with_reducible assumption
    | (extract_lets +onlyGivenNames x; refine kept_cut (s0 := s0) (a := x) ?_ ?_; subst x; rotate_left; (intro _; clear_value x); rotate_left)
    | (extract_lets +onlyGivenNames x; subst x) | with_reducible apply kept_takeItem | with_reducible apply kept_chargeB
    | with_reducible apply kept_runPass | with_reducible apply kept_stageAs

theorem kept_startPass {s0 s : State} {g : Nat} {bed : Bool} {cut : Option Nat} (hk : Kept s0 s) :
    Kept s0 (State.startPass s g bed cut).1 := by
  unfold State.startPass
  repeat' first
    | with_reducible assumption
    | (extract_lets +onlyGivenNames x; refine kept_cut (s0 := s0) (a := x) ?_ ?_; subst x; rotate_left; (intro _; clear_value x); rotate_left)
    | (extract_lets +onlyGivenNames x; subst x) | with_reducible apply kept_onSluice | with_reducible apply kept_rebase
    | with_reducible apply kept_chargeB | with_reducible apply kept_fetchReady | with_reducible apply kept_fetchNext
    | with_reducible apply kept_dropPart | with_reducible apply kept_runStaged | split | (with_reducible intro _; with_reducible rfl)

theorem kept_execPassStart {s0 s : State} {core : Fin 2048} {bed : Bool} (hk : Kept s0 s) :
    KeptO s0 (execPassStart core bed s) := by
  unfold execPassStart
  repeat' first
    | with_reducible assumption | with_reducible apply kept_runLanes | with_reducible apply kept_startPass | with_reducible apply keptO_next

theorem kept_runDrainItem {s0 s : State} {i : Inst} {ms : List Mate} {w : Work} (hk : Kept s0 s) :
    Kept s0 (State.runDrainItem s i ms w) := by
  unfold State.runDrainItem
  repeat' first
    | with_reducible assumption | with_reducible apply kept_mmDrain | with_reducible apply kept_runDrain | with_reducible apply kept_runZero
    | with_reducible apply kept_runSave | with_reducible apply kept_runLoad | with_reducible apply kept_attfDrain | with_reducible apply kept_attbPart
    | with_reducible apply kept_attbDrain | with_reducible apply kept_attmMerge | with_reducible apply kept_attmTest | split

theorem kept_leaveHalf {s0 s : State} {ms : List Mate} {w : Work} (hk : Kept s0 s) :
    Kept s0 (State.leaveHalf s ms w) := by
  unfold State.leaveHalf
  repeat' first
    | with_reducible assumption | with_reducible apply kept_onInst | with_reducible apply kept_foldl | (with_reducible intro _ _ _; try beta_reduce)

theorem kept_execDrainStart {s0 s : State} {core : Fin 2048} (hk : Kept s0 s) :
    KeptO s0 (execDrainStart core s) := by
  unfold execDrainStart
  repeat' first
    | with_reducible assumption
    | (extract_lets +onlyGivenNames x; refine kept_cut (s0 := s0) (a := x) ?_ ?_; subst x; rotate_left; (intro _; clear_value x); rotate_left)
    | (extract_lets +onlyGivenNames x; subst x) | with_reducible apply kept_idle | with_reducible apply kept_runLanes
    | with_reducible apply kept_takeItem | with_reducible apply kept_rebase | with_reducible apply kept_chargeB
    | with_reducible apply kept_runDrainItem | with_reducible apply kept_leaveHalf | with_reducible apply keptO_ite | with_reducible apply keptO_next
    | split

theorem kept_lastActs {s0 s : State} {i : Inst} (hk : Kept s0 s) :
    Kept s0 (State.lastActs s i) := by
  unfold State.lastActs
  repeat' first
    | with_reducible assumption
    | (extract_lets +onlyGivenNames x; refine kept_cut (s0 := s0) (a := x) ?_ ?_; subst x; rotate_left; (intro _; clear_value x); rotate_left)
    | with_reducible apply kept_commitImage | with_reducible apply kept_unreserve | with_reducible apply kept_kvcmEnd
    | with_reducible apply kept_parkEnd | with_reducible apply kept_freeRowForm | with_reducible apply kept_commitBias
    | with_reducible apply kept_endOp | with_reducible apply kept_ite | split

theorem kept_execTensorInstructionEnd {s0 s : State} {n : Nat} (hk : Kept s0 s) :
    KeptO s0 (execTensorInstructionEnd n s) := by
  unfold execTensorInstructionEnd
  repeat' first
    | with_reducible assumption | with_reducible apply kept_idle | with_reducible apply kept_finishInst | with_reducible apply kept_runLanes
    | with_reducible apply kept_settle | with_reducible apply kept_pwuTurn | with_reducible apply kept_lastActs | with_reducible apply keptO_ite
    | with_reducible apply keptO_next | split

theorem kept_hopRec {s0 s : State} {c : Nat} {code : Nat} (hk : Kept s0 s) :
    Kept s0 (State.hopRec s c code) := by
  unfold State.hopRec
  repeat' first
    | with_reducible assumption | (extract_lets +onlyGivenNames x; subst x) | with_reducible apply kept_writeRec | with_reducible apply kept_ite

theorem kept_hopErr {s0 s : State} {c : Option Nat} {code : Nat} {detail : Nat} (hk : Kept s0 s) :
    Kept s0 (State.hopErr s c code detail) := by
  unfold State.hopErr
  repeat' first
    | with_reducible assumption
    | (extract_lets +onlyGivenNames x; refine kept_cut (s0 := s0) (a := x) ?_ ?_; subst x; rotate_left; (intro _; clear_value x); rotate_left)
    | with_reducible apply kept_logErr | with_reducible apply kept_hopRec | split

theorem kept_hopCredit {s0 s : State} {ch : Nat} (hk : Kept s0 s) :
    Kept s0 (State.hopCredit s ch) := by
  unfold State.hopCredit
  repeat' first
    | with_reducible assumption | with_reducible apply kept_onChan | with_reducible apply kept_onPins

theorem kept_appendP {s0 s : State} {c : Nat} {b : BitVec 512} (hk : Kept s0 s) :
    Kept s0 (State.append' s c b) := by
  unfold State.append'
  repeat' first
    | exact kc.onWindow _ _ | with_reducible assumption | with_reducible refine kept_onCx ?_ fun kc => ?_ | with_reducible apply kept_wakeLadder

theorem kept_bundle {s0 s : State} {ch : Nat} {b : BitVec 512} (hk : Kept s0 s) :
    Kept s0 (State.bundle s ch b) := by
  unfold State.bundle
  repeat' first
    | with_reducible assumption
    | (extract_lets +onlyGivenNames x; refine kept_cut (s0 := s0) (a := x) ?_ ?_; subst x; rotate_left; (intro _; clear_value x); rotate_left)
    | (extract_lets +onlyGivenNames x; subst x) | with_reducible apply kept_onChan | with_reducible apply kept_wakeLadder
    | with_reducible apply kept_tellSluice | with_reducible apply kept_hopErr | with_reducible apply kept_hopCredit
    | with_reducible apply kept_appendP | with_reducible apply kept_ite

theorem kept_execBundleAppend {s0 s : State} {ch : Fin 4} {b : BitVec 512} (hk : Kept s0 s) :
    KeptO s0 (execBundleAppend ch b s) := by
  unfold execBundleAppend
  repeat' first
    | with_reducible assumption | with_reducible apply kept_idle | with_reducible apply kept_bundle | with_reducible apply keptO_ite
    | with_reducible apply keptO_next | with_reducible apply keptO_refused

theorem kept_resync {s0 s : State} {ch : Nat} {b : BitVec 512} (hk : Kept s0 s) :
    Kept s0 (State.resync s ch b) := by
  unfold State.resync
  repeat' first
    | with_reducible assumption
    | (extract_lets +onlyGivenNames x; refine kept_cut (s0 := s0) (a := x) ?_ ?_; subst x; rotate_left; (intro _; clear_value x); rotate_left)
    | (extract_lets +onlyGivenNames x; subst x) | with_reducible apply kept_onChan | with_reducible apply kept_hopErr
    | with_reducible apply kept_hopCredit | with_reducible apply kept_ite

theorem kept_execBundleResync {s0 s : State} {ch : Fin 4} {b : BitVec 512} (hk : Kept s0 s) :
    KeptO s0 (execBundleResync ch b s) := by
  unfold execBundleResync
  repeat' first
    | with_reducible assumption | with_reducible apply kept_idle | with_reducible apply kept_resync | with_reducible apply keptO_ite
    | with_reducible apply keptO_next | with_reducible apply keptO_refused

theorem kept_injectNow {s0 s : State} {c : Nat} {b : BitVec 512} (hk : Kept s0 s) :
    Kept s0 (State.injectNow s c b) := by
  unfold State.injectNow
  repeat' first
    | with_reducible assumption | with_reducible apply kept_hopErr | with_reducible apply kept_appendP | with_reducible apply kept_ite

theorem kept_takeInject {s0 s : State} {c : Nat} {b : BitVec 512} (hk : Kept s0 s) :
    Kept s0 (State.takeInject s c b) := by
  unfold State.takeInject
  repeat' first
    | with_reducible assumption
    | (extract_lets +onlyGivenNames x; refine kept_cut (s0 := s0) (a := x) ?_ ?_; subst x; rotate_left; (intro _; clear_value x); rotate_left)
    | (extract_lets +onlyGivenNames x; subst x) | with_reducible apply kept_wakeLadder | with_reducible apply kept_tellSluice
    | with_reducible apply kept_injectNow | with_reducible apply kept_ite | with_reducible apply kept_hop | dsimp only
    | (intro k; (try dsimp only); (repeat first | with_reducible apply Map.wf_set | with_reducible apply Map.wf_modify | with_reducible apply Map.wf_erase | with_reducible apply Map.wf_mapVals | with_reducible apply Map.wf_setMany | (with_reducible apply Map.wf_filter)); first | exact k.ext | exact k.ports | exact k.resv | exact k.pools | exact k.links | exact k.groups | exact k.ch | exact k.doms | exact k.store | exact k.ctx | exact k.insts)

theorem kept_execHeldBundleRelease {s0 s : State} {ch : Fin 4} (hk : Kept s0 s) :
    KeptO s0 (execHeldBundleRelease ch s) := by
  unfold execHeldBundleRelease
  repeat' first
    | with_reducible assumption
    | (extract_lets +onlyGivenNames x; refine kept_cut (s0 := s0) (a := x) ?_ ?_; subst x; rotate_left; (intro _; clear_value x); rotate_left)
    | (extract_lets +onlyGivenNames x; subst x) | with_reducible apply kept_onChan | with_reducible apply kept_idle | with_reducible apply kept_hopErr
    | with_reducible apply kept_hopCredit | with_reducible apply kept_appendP | with_reducible apply kept_injectNow
    | with_reducible apply kept_takeInject | with_reducible apply keptO_ite | with_reducible apply keptO_next | with_reducible apply kept_ite | split
    | with_reducible apply kept_hop | dsimp only
    | (intro k; (try dsimp only); (repeat first | with_reducible apply Map.wf_set | with_reducible apply Map.wf_modify | with_reducible apply Map.wf_erase | with_reducible apply Map.wf_mapVals | with_reducible apply Map.wf_setMany | (with_reducible apply Map.wf_filter)); first | exact k.ext | exact k.ports | exact k.resv | exact k.pools | exact k.links | exact k.groups | exact k.ch | exact k.doms | exact k.store | exact k.ctx | exact k.insts)

theorem kept_inject {s0 s : State} {v : Nat} (hk : Kept s0 s) :
    Kept s0 (State.inject s v) := by
  unfold State.inject
  repeat' first
    | with_reducible assumption
    | (extract_lets +onlyGivenNames x; refine kept_cut (s0 := s0) (a := x) ?_ ?_; subst x; rotate_left; (intro _; clear_value x); rotate_left)
    | (extract_lets +onlyGivenNames x; subst x) | with_reducible apply kept_wakeDom | with_reducible apply kept_takeInject
    | with_reducible apply kept_ite | with_reducible apply kept_hop | dsimp only
    | (intro k; (try dsimp only); (repeat first | with_reducible apply Map.wf_set | with_reducible apply Map.wf_modify | with_reducible apply Map.wf_erase | with_reducible apply Map.wf_mapVals | with_reducible apply Map.wf_setMany | (with_reducible apply Map.wf_filter)); first | exact k.ext | exact k.ports | exact k.resv | exact k.pools | exact k.links | exact k.groups | exact k.ch | exact k.doms | exact k.store | exact k.ctx | exact k.insts)

theorem kept_execInject {s0 s : State} {v : W32} (hk : Kept s0 s) :
    KeptO s0 (execInject v s) := by
  unfold execInject
  repeat' first
    | with_reducible assumption | with_reducible apply kept_mgt | with_reducible apply kept_inject | with_reducible apply keptO_next
    | (with_reducible intro _ _; try beta_reduce) | rfl

theorem kept_ctxEnable {s0 s : State} {c : Nat} {on : Bool} (hk : Kept s0 s) :
    Kept s0 (State.ctxEnable s c on) := by
  unfold State.ctxEnable
  repeat' first
    | exact kc.same rfl | with_reducible assumption
    | (extract_lets +onlyGivenNames x; refine kept_cut (s0 := s0) (a := x) ?_ ?_; subst x; rotate_left; (intro _; clear_value x); rotate_left)
    | with_reducible refine kept_onCx ?_ fun kc => ?_ | with_reducible apply kept_stir | with_reducible apply kept_ite

theorem kept_orphan {s0 s : State} {c : Nat} (hk : Kept s0 s) :
    Kept s0 (State.orphan s c) := by
  unfold State.orphan
  repeat' first
    | with_reducible assumption | (extract_lets +onlyGivenNames x; subst x) | with_reducible apply kept_onPorts

theorem kept_ctxReset {s0 s : State} {c : Nat} (hk : Kept s0 s) :
    Kept s0 (State.ctxReset s c) := by
  unfold State.ctxReset
  repeat' first
    | exact ⟨rfl, rfl, rfl, rfl, rfl, rfl, rfl, kc.streams⟩ | with_reducible assumption
    | (extract_lets +onlyGivenNames x; refine kept_cut (s0 := s0) (a := x) ?_ ?_; subst x; rotate_left; (intro _; clear_value x); rotate_left)
    | (extract_lets +onlyGivenNames x; subst x) | with_reducible refine kept_onCx ?_ fun kc => ?_ | with_reducible apply kept_orphan
    | with_reducible apply kept_ite | with_reducible apply kept_prot | dsimp only

theorem kept_ctxResume {s0 s : State} {c : Nat} (hk : Kept s0 s) :
    Kept s0 (State.ctxResume s c) := by
  unfold State.ctxResume
  repeat' first
    | exact kc.same rfl | with_reducible assumption | (extract_lets +onlyGivenNames x; subst x) | with_reducible refine kept_onCx ?_ fun kc => ?_
    | with_reducible apply kept_wakeLadder | with_reducible apply kept_ite

theorem kept_ctxCommit {s0 s : State} {c : Nat} (hk : Kept s0 s) :
    Kept s0 (State.ctxCommit s c) := by
  unfold State.ctxCommit
  repeat' first
    | exact kc.same rfl | with_reducible assumption | (extract_lets +onlyGivenNames x; subst x) | with_reducible refine kept_onCx ?_ fun kc => ?_
    | with_reducible apply kept_ite

theorem kept_execCtxEnable {s0 s : State} {c : Fin 64} {on : Bool} (hk : Kept s0 s) :
    KeptO s0 (execCtxEnable c on s) := by
  unfold execCtxEnable
  repeat' first
    | with_reducible assumption | with_reducible apply kept_mgt | with_reducible apply kept_ctxEnable | with_reducible apply keptO_next
    | (with_reducible intro _ _; try beta_reduce) | rfl

theorem kept_execCtxReset {s0 s : State} {c : Fin 64} (hk : Kept s0 s) :
    KeptO s0 (execCtxReset c s) := by
  unfold execCtxReset
  repeat' first
    | with_reducible assumption | with_reducible apply kept_mgt | with_reducible apply kept_ctxReset | with_reducible apply keptO_next
    | (with_reducible intro _ _; try beta_reduce) | rfl

theorem kept_execCtxResume {s0 s : State} {c : Fin 64} (hk : Kept s0 s) :
    KeptO s0 (execCtxResume c s) := by
  unfold execCtxResume
  repeat' first
    | with_reducible assumption | with_reducible apply kept_mgt | with_reducible apply kept_ctxResume | with_reducible apply keptO_next
    | (with_reducible intro _ _; try beta_reduce) | rfl

theorem kept_execCtxCommit {s0 s : State} {c : Fin 64} (hk : Kept s0 s) :
    KeptO s0 (execCtxCommit c s) := by
  unfold execCtxCommit
  repeat' first
    | with_reducible assumption | with_reducible apply kept_mgt | with_reducible apply kept_ctxCommit | with_reducible apply keptO_next
    | (with_reducible intro _ _; try beta_reduce) | rfl

theorem kept_streamClear {s0 s : State} {c : Nat} {strm : Nat} (hk : Kept s0 s) :
    Kept s0 (State.streamClear s c strm) := by
  unfold State.streamClear
  repeat' first
    | with_reducible exact kc.setStream _ _ | with_reducible assumption | with_reducible refine kept_onCx ?_ fun kc => ?_

theorem kept_execStreamClear {s0 s : State} {c : Fin 64} {strm : Fin 16} (hk : Kept s0 s) :
    KeptO s0 (execStreamClear c strm s) := by
  unfold execStreamClear
  repeat' first
    | with_reducible assumption | with_reducible apply kept_mgt | with_reducible apply kept_streamClear | with_reducible apply keptO_next
    | (with_reducible intro _ _; try beta_reduce) | rfl

theorem kept_bolterClear {s0 s : State} {c : Nat} (hk : Kept s0 s) :
    Kept s0 (State.bolterClear s c) := by
  unfold State.bolterClear
  repeat' first
    | exact kc.same rfl | with_reducible assumption | with_reducible refine kept_onCx ?_ fun kc => ?_

theorem kept_execBolterClear {s0 s : State} {c : Fin 64} (hk : Kept s0 s) :
    KeptO s0 (execBolterClear c s) := by
  unfold execBolterClear
  repeat' first
    | with_reducible assumption | with_reducible apply kept_mgt | with_reducible apply kept_bolterClear | with_reducible apply keptO_next
    | (with_reducible intro _ _; try beta_reduce) | rfl

theorem kept_writeRecovery {s0 s : State} {b : Nat} {v : Nat} (hk : Kept s0 s) :
    Kept s0 (State.writeRecovery s b v) := by
  unfold State.writeRecovery
  repeat' first
    | with_reducible assumption | with_reducible apply kept_onBy | split | (with_reducible intro _ _; try beta_reduce) | exact ‹Bay.canon _›

theorem kept_execRecoveryWrite {s0 s : State} {b : Fin 32} {v : W32} (hk : Kept s0 s) :
    KeptO s0 (execRecoveryWrite b v s) := by
  unfold execRecoveryWrite
  repeat' first
    | with_reducible assumption | with_reducible apply kept_mgt | with_reducible apply kept_writeRecovery | with_reducible apply keptO_next
    | (with_reducible intro _ _; try beta_reduce) | rfl

theorem kept_dbgSample {s0 s : State} {b : Nat} (hk : Kept s0 s) :
    Kept s0 (State.dbgSample s b) := by
  unfold State.dbgSample
  repeat' first
    | with_reducible assumption | (extract_lets +onlyGivenNames x; subst x) | with_reducible apply kept_onBy | with_reducible apply kept_ite | split
    | ((with_reducible intro _ k); exact k)

theorem kept_afterFence {s0 s : State} {scope : Nat} {index : Nat} (hk : Kept s0 s) :
    Kept s0 (State.afterFence s scope index) := by
  unfold State.afterFence
  repeat' first
    | with_reducible assumption | with_reducible apply kept_drainPort | with_reducible apply kept_resendFrom | with_reducible apply kept_moveAcks
    | with_reducible apply kept_sweepLinks | split

theorem kept_fenceSet {s0 s : State} {v : Nat} (hk : Kept s0 s) :
    Kept s0 (State.fenceSet s v) := by
  unfold State.fenceSet
  repeat' first
    | with_reducible assumption
    | (extract_lets +onlyGivenNames x; refine kept_cut (s0 := s0) (a := x) ?_ ?_; subst x; rotate_left; (intro _; clear_value x); rotate_left)
    | (extract_lets +onlyGivenNames x; subst x) | with_reducible apply kept_logErr | with_reducible apply kept_fence
    | with_reducible apply kept_afterFence | with_reducible apply kept_ite

theorem kept_execFenceSet {s0 s : State} {v : W32} (hk : Kept s0 s) :
    KeptO s0 (execFenceSet v s) := by
  unfold execFenceSet
  repeat' first
    | with_reducible assumption | with_reducible apply kept_mgt | with_reducible apply kept_fenceSet | with_reducible apply keptO_next
    | (with_reducible intro _ _; try beta_reduce) | rfl

theorem kept_fenceClr {s0 s : State} {v : Nat} (hk : Kept s0 s) :
    Kept s0 (State.fenceClr s v) := by
  unfold State.fenceClr
  repeat' first
    | with_reducible assumption
    | (extract_lets +onlyGivenNames x; refine kept_cut (s0 := s0) (a := x) ?_ ?_; subst x; rotate_left; (intro _; clear_value x); rotate_left)
    | (extract_lets +onlyGivenNames x; subst x) | with_reducible apply kept_onCo | with_reducible apply kept_ite | split
    | ((with_reducible intro _ k); exact k) | with_reducible apply kept_prot | dsimp only

theorem kept_execFenceClr {s0 s : State} {v : W32} (hk : Kept s0 s) :
    KeptO s0 (execFenceClr v s) := by
  unfold execFenceClr
  repeat' first
    | with_reducible assumption | with_reducible apply kept_mgt | with_reducible apply kept_fenceClr | with_reducible apply keptO_next
    | (with_reducible intro _ _; try beta_reduce) | rfl

theorem kept_writeCons {s0 s : State} {v : Nat} (hk : Kept s0 s) :
    Kept s0 (State.writeCons s v) := by
  unfold State.writeCons
  repeat' first
    | with_reducible assumption | with_reducible apply kept_onLog | with_reducible apply kept_ite | (with_reducible intro _; with_reducible rfl)

theorem kept_execElogConsWrite {s0 s : State} {v : W32} (hk : Kept s0 s) :
    KeptO s0 (execElogConsWrite v s) := by
  unfold execElogConsWrite
  repeat' first
    | with_reducible assumption | with_reducible apply kept_mgt | with_reducible apply kept_writeCons | with_reducible apply keptO_next
    | (with_reducible intro _ _; try beta_reduce) | rfl

theorem kept_coreFault {s0 s : State} {g : Nat} {store : Nat} {slot : Nat} {n : Option Nat} (hk : Kept s0 s) :
    Kept s0 (State.coreFault s g store slot n) := by
  unfold State.coreFault
  repeat' first
    | with_reducible assumption | (extract_lets +onlyGivenNames x; subst x) | with_reducible apply kept_report | with_reducible apply kept_instFault
    | split

theorem kept_execCoreErrorDetect {s0 s : State} {core : Fin 2048} {store : Fin 5} {slot : Fin 6} {mid : Option Nat} (hk : Kept s0 s) :
    KeptO s0 (execCoreErrorDetect core store slot mid s) := by
  unfold execCoreErrorDetect
  extract_lets g
  refine keptO_ite (keptO_idle hk) ?_
  split
  · exact keptO_next (kept_coreFault hk)
  · rename_i k
    have hp : Kept s0 (if (s.startPass g false (some k)).2.isSome then s.startPass g false (some k)
        else s.startPass g true (some k)).1 := by
      split
      · exact kept_startPass hk
      · exact kept_startPass hk
    extract_lets p p'
    have hp' : Kept s0 p'.1 := hp
    clear_value p' p
    match p', hp' with
    | (_, none), _ => exact keptO_idle hk
    | (t, some (i, w)), ht =>
      refine keptO_next (kept_coreFault (kept_foldl ?_ _ ht))
      intro s a k
      exact kept_poisonTgt k

theorem kept_execBayErrorDetect {s0 s : State} {b : Fin 32} (hk : Kept s0 s) :
    KeptO s0 (execBayErrorDetect b s) := by
  unfold execBayErrorDetect
  repeat' first
    | with_reducible assumption | with_reducible apply kept_report | with_reducible apply kept_idle | with_reducible apply keptO_ite
    | with_reducible apply keptO_next

theorem kept_tapWrite {s0 s : State} {b : Nat} {t : TapTarget} {v : W32} (hk : Kept s0 s) :
    Kept s0 (State.tapWrite s b t v) := by
  unfold State.tapWrite
  repeat' first
    | with_reducible assumption | with_reducible apply kept_onCo | with_reducible apply kept_onBy | with_reducible apply kept_onSlot | split
    | ((with_reducible intro _ k); exact k) | (with_reducible intro _ _; try beta_reduce) | exact Map.wf_set ‹Bay.canon _› _ _
    | exact Map.wf_set ‹Core.canon _› _ _

theorem kept_millerFaultP {s0 s : State} {cause : Nat} (hk : Kept s0 s) :
    Kept s0 (State.millerFault' s cause) := by
  unfold State.millerFault'
  repeat' first
    | with_reducible assumption
    | ((with_reducible intro _ hq); (show Map.wf 0 (Miller.store _) = true); (repeat first | assumption | (with_reducible apply Map.wf_set) | (with_reducible apply Map.wf_setMany) | split | (show Map.wf 0 (Miller.store (Miller.next _)) = true; unfold Miller.next) | dsimp only); done)
    | (extract_lets +onlyGivenNames x; refine kept_cut (s0 := s0) (a := x) ?_ ?_; subst x; rotate_left; (intro _; clear_value x); rotate_left)
    | (extract_lets +onlyGivenNames x; subst x) | with_reducible apply kept_onMiller | with_reducible apply kept_logErr

theorem kept_millerShort {s0 s : State} {op : Nat} {w : W32} {f : State → Out} (hk : Kept s0 s) (hf : ∀ (x0 : State), Kept s0 x0 → KeptO s0 (f x0)) :
    KeptO s0 (millerShort op w s f) := by
  unfold millerShort
  repeat' first
    | with_reducible assumption | (extract_lets +onlyGivenNames x; subst x) | with_reducible apply hf | with_reducible apply kept_idle
    | with_reducible apply kept_millerFaultP | with_reducible apply keptO_ite | with_reducible apply keptO_next | with_reducible apply keptO_refused

theorem kept_regsOp {s0 s : State} {op : Nat} {x : Exe} {w : W32} {f : Regs → Regs} (hk : Kept s0 s) (hf : Regs.Keeps f) :
    KeptO s0 (regsOp op x w s f) := by
  unfold regsOp
  repeat' first
    | with_reducible assumption
    | ((with_reducible intro _ hq); (show Map.wf 0 (Miller.store _) = true); (repeat first | assumption | (with_reducible apply Map.wf_set) | (with_reducible apply Map.wf_setMany) | split | (show Map.wf 0 (Miller.store (Miller.next _)) = true; unfold Miller.next) | dsimp only); done)
    | with_reducible apply kept_onMiller | with_reducible apply kept_ctxRegs | with_reducible apply kept_millerShort | with_reducible apply keptO_next
    | split | (with_reducible intro _ _; try beta_reduce)

theorem kept_execNop {s0 s : State} {x : Exe} {w : W32} (hk : Kept s0 s) :
    KeptO s0 (execNop x w s) := by
  unfold execNop
  repeat' first
    | with_reducible assumption | with_reducible apply kept_regsOp | exact fun _ h k => ⟨h, k⟩

theorem kept_execAdd {s0 s : State} {x : Exe} {w : W32} (hk : Kept s0 s) :
    KeptO s0 (execAdd x w s) := by
  unfold execAdd
  repeat' first
    | with_reducible assumption | with_reducible apply kept_regsOp | exact Regs.keeps_s

theorem kept_execSub {s0 s : State} {x : Exe} {w : W32} (hk : Kept s0 s) :
    KeptO s0 (execSub x w s) := by
  unfold execSub
  repeat' first
    | with_reducible assumption | with_reducible apply kept_regsOp | exact Regs.keeps_s

theorem kept_execMul {s0 s : State} {x : Exe} {w : W32} (hk : Kept s0 s) :
    KeptO s0 (execMul x w s) := by
  unfold execMul
  repeat' first
    | with_reducible assumption | with_reducible apply kept_regsOp | exact Regs.keeps_s

theorem kept_execAnd {s0 s : State} {x : Exe} {w : W32} (hk : Kept s0 s) :
    KeptO s0 (execAnd x w s) := by
  unfold execAnd
  repeat' first
    | with_reducible assumption | with_reducible apply kept_regsOp | exact Regs.keeps_s

theorem kept_execOr {s0 s : State} {x : Exe} {w : W32} (hk : Kept s0 s) :
    KeptO s0 (execOr x w s) := by
  unfold execOr
  repeat' first
    | with_reducible assumption | with_reducible apply kept_regsOp | exact Regs.keeps_s

theorem kept_execXor {s0 s : State} {x : Exe} {w : W32} (hk : Kept s0 s) :
    KeptO s0 (execXor x w s) := by
  unfold execXor
  repeat' first
    | with_reducible assumption | with_reducible apply kept_regsOp | exact Regs.keeps_s

theorem kept_execShl {s0 s : State} {x : Exe} {w : W32} (hk : Kept s0 s) :
    KeptO s0 (execShl x w s) := by
  unfold execShl
  repeat' first
    | with_reducible assumption | with_reducible apply kept_regsOp | exact Regs.keeps_s

theorem kept_execShr {s0 s : State} {x : Exe} {w : W32} (hk : Kept s0 s) :
    KeptO s0 (execShr x w s) := by
  unfold execShr
  repeat' first
    | with_reducible assumption | with_reducible apply kept_regsOp | exact Regs.keeps_s

theorem kept_execSra {s0 s : State} {x : Exe} {w : W32} (hk : Kept s0 s) :
    KeptO s0 (execSra x w s) := by
  unfold execSra
  repeat' first
    | with_reducible assumption | with_reducible apply kept_regsOp | exact Regs.keeps_s

theorem kept_execAddi {s0 s : State} {x : Exe} {w : W32} (hk : Kept s0 s) :
    KeptO s0 (execAddi x w s) := by
  unfold execAddi
  repeat' first
    | with_reducible assumption | with_reducible apply kept_regsOp | exact Regs.keeps_s

theorem kept_execShli {s0 s : State} {x : Exe} {w : W32} (hk : Kept s0 s) :
    KeptO s0 (execShli x w s) := by
  unfold execShli
  repeat' first
    | with_reducible assumption | with_reducible apply kept_regsOp | exact Regs.keeps_s

theorem kept_execCmp {s0 s : State} {x : Exe} {w : W32} (hk : Kept s0 s) :
    KeptO s0 (execCmp x w s) := by
  unfold execCmp
  repeat' first
    | with_reducible assumption | with_reducible apply kept_regsOp | exact Regs.keeps_p

theorem kept_execPlog {s0 s : State} {x : Exe} {w : W32} (hk : Kept s0 s) :
    KeptO s0 (execPlog x w s) := by
  unfold execPlog
  repeat' first
    | with_reducible assumption | with_reducible apply kept_regsOp | exact Regs.keeps_p

theorem kept_ctxBranch {s0 s : State} {c : Nat} {w : W32} (hk : Kept s0 s) :
    Kept s0 (ctxBranch c w s) := by
  unfold ctxBranch
  repeat' first
    | with_reducible exact kc.adv _ | exact kc.same rfl | with_reducible assumption | (extract_lets +onlyGivenNames x; subst x)
    | with_reducible refine kept_onCx ?_ fun kc => ?_ | with_reducible apply kept_faultScalar | with_reducible apply kept_ite | split

theorem kept_execBr {s0 s : State} {x : Exe} {w : W32} (hk : Kept s0 s) :
    KeptO s0 (execBr x w s) := by
  unfold execBr
  repeat' first
    | with_reducible assumption
    | ((with_reducible intro _ hq); (show Map.wf 0 (Miller.store _) = true); (repeat first | assumption | (with_reducible apply Map.wf_set) | (with_reducible apply Map.wf_setMany) | split | (show Map.wf 0 (Miller.store (Miller.next _)) = true; unfold Miller.next) | dsimp only); done)
    | with_reducible apply kept_onMiller | with_reducible apply kept_ctxShort | with_reducible apply kept_millerShort
    | with_reducible apply kept_ctxBranch | with_reducible apply keptO_next | split | (with_reducible intro _ _; try beta_reduce)

theorem kept_ctxAccess {s0 s : State} {op : Nat} {c : Nat} {w : W32} {off : Int} {al : Nat} {f : State → Nat → State} (hk : Kept s0 s) (hf : ∀ (x0 : State) (x1 : Nat), Kept s0 x0 → Kept s0 (f x0 x1)) :
    KeptO s0 (ctxAccess op c w s off al f) := by
  unfold ctxAccess
  repeat' first
    | with_reducible assumption | with_reducible apply hf | with_reducible apply kept_refuseScalar | with_reducible apply kept_ctxShort
    | with_reducible apply keptO_ite | with_reducible apply keptO_next | split | (with_reducible intro _ _; try beta_reduce)

theorem kept_millerAccess {s0 s : State} {op : Nat} {w : W32} {f : State → Nat → State} (hk : Kept s0 s) (hf : ∀ (x0 : State) (x1 : Nat), Kept s0 x0 → Kept s0 (f x0 x1)) :
    KeptO s0 (millerAccess op w s f) := by
  unfold millerAccess
  repeat' first
    | with_reducible assumption | (extract_lets +onlyGivenNames x; subst x) | with_reducible apply hf | with_reducible apply kept_millerFaultP
    | with_reducible apply kept_millerShort | with_reducible apply keptO_ite | with_reducible apply keptO_next
    | (with_reducible intro _ _; try beta_reduce)

theorem kept_execLd {s0 s : State} {x : Exe} {w : W32} (hk : Kept s0 s) :
    KeptO s0 (execLd x w s) := by
  unfold execLd
  repeat' first
    | with_reducible exact kc.loaded _ _ | with_reducible assumption
    | ((with_reducible intro _ hq); (show Map.wf 0 (Miller.store _) = true); (repeat first | assumption | (with_reducible apply Map.wf_set) | (with_reducible apply Map.wf_setMany) | split | (show Map.wf 0 (Miller.store (Miller.next _)) = true; unfold Miller.next) | dsimp only); done)
    | with_reducible refine kept_onCx ?_ fun kc => ?_ | with_reducible apply kept_onMiller | with_reducible apply kept_scalarLoad
    | with_reducible apply kept_ctxAccess | with_reducible apply kept_millerAccess | split | (with_reducible intro _ _ _; try beta_reduce)
    | (with_reducible intro _ _; try beta_reduce)

theorem kept_execSt {s0 s : State} {x : Exe} {w : W32} (hk : Kept s0 s) :
    KeptO s0 (execSt x w s) := by
  unfold execSt
  repeat' first
    | with_reducible assumption
    | ((with_reducible intro _ hq); (show Map.wf 0 (Miller.store _) = true); (repeat first | assumption | (with_reducible apply Map.wf_set) | (with_reducible apply Map.wf_setMany) | split | (show Map.wf 0 (Miller.store (Miller.next _)) = true; unfold Miller.next) | dsimp only); done)
    | with_reducible apply kept_onMiller | with_reducible apply kept_scalarStore | with_reducible apply kept_ctxAccess
    | with_reducible apply kept_millerAccess | split | (with_reducible intro _ _ _; try beta_reduce)

theorem kept_execLdt {s0 s : State} {x : Exe} {w : W32} (hk : Kept s0 s) :
    KeptO s0 (execLdt x w s) := by
  unfold execLdt
  repeat' first
    | with_reducible exact kc.loaded _ _ | with_reducible assumption | with_reducible refine kept_onCx ?_ fun kc => ?_
    | with_reducible apply kept_scalarLoad | with_reducible apply kept_millerShort | with_reducible apply kept_ctxAccess
    | with_reducible apply keptO_next | split | (with_reducible intro _ _ _; try beta_reduce) | (with_reducible intro _ _; try beta_reduce)

theorem kept_execStt {s0 s : State} {x : Exe} {w : W32} (hk : Kept s0 s) :
    KeptO s0 (execStt x w s) := by
  unfold execStt
  repeat' first
    | with_reducible assumption | with_reducible apply kept_refuseScalar | with_reducible apply kept_scalarStore
    | with_reducible apply kept_millerShort | with_reducible apply kept_ctxAccess | with_reducible apply keptO_next | with_reducible apply kept_ite
    | split | (with_reducible intro _ _ _; try beta_reduce)

theorem kept_execLdl {s0 s : State} {x : Exe} {w : W32} (hk : Kept s0 s) :
    KeptO s0 (execLdl x w s) := by
  unfold execLdl
  repeat' first
    | with_reducible exact kc.loaded _ _ | with_reducible assumption | with_reducible refine kept_onCx ?_ fun kc => ?_
    | with_reducible apply kept_scalarLoad | with_reducible apply kept_millerShort | with_reducible apply kept_ctxAccess
    | with_reducible apply keptO_next | split | (with_reducible intro _ _ _; try beta_reduce) | (with_reducible intro _ _; try beta_reduce)

theorem kept_execLdh {s0 s : State} {x : Exe} {w : W32} (hk : Kept s0 s) :
    KeptO s0 (execLdh x w s) := by
  unfold execLdh
  repeat' first
    | exact kc.onH _ _ _ | with_reducible assumption | (extract_lets +onlyGivenNames x; subst x) | with_reducible refine kept_onCx ?_ fun kc => ?_
    | with_reducible apply kept_refuseScalar | with_reducible apply kept_ctxShort | with_reducible apply kept_millerShort
    | with_reducible apply keptO_ite | with_reducible apply keptO_next | split | (with_reducible intro _ _; try beta_reduce)

theorem kept_execEvr {s0 s : State} {x : Exe} {w : W32} (hk : Kept s0 s) :
    KeptO s0 (execEvr x w s) := by
  unfold execEvr
  repeat' first
    | with_reducible exact (kc.ws _ _).adv _ | with_reducible assumption | with_reducible refine kept_onCx ?_ fun kc => ?_
    | with_reducible apply kept_ctxShort | with_reducible apply kept_millerShort | with_reducible apply keptO_next | split
    | (with_reducible intro _ _; try beta_reduce)

theorem kept_execEvw {s0 s : State} {x : Exe} {w : W32} (hk : Kept s0 s) :
    KeptO s0 (execEvw x w s) := by
  unfold execEvw
  repeat' first
    | with_reducible exact (kc.wev _ _).adv _ | exact kc.same rfl | with_reducible assumption | with_reducible refine kept_onCx ?_ fun kc => ?_
    | with_reducible apply kept_ctxShort | with_reducible apply kept_millerShort | with_reducible apply keptO_ite | with_reducible apply keptO_next
    | split | (with_reducible intro _ _; try beta_reduce)

theorem kept_execCsrr {s0 s : State} {x : Exe} {w : W32} (hk : Kept s0 s) :
    KeptO s0 (execCsrr x w s) := by
  unfold execCsrr
  repeat' first
    | with_reducible exact (kc.ws _ _).adv _ | with_reducible assumption | with_reducible refine kept_onCx ?_ fun kc => ?_
    | with_reducible apply kept_refuseScalar | with_reducible apply kept_ctxShort | with_reducible apply kept_millerShort
    | with_reducible apply keptO_next | split | (with_reducible intro _ _; try beta_reduce)

theorem kept_execCsrw {s0 s : State} {x : Exe} {w : W32} (hk : Kept s0 s) :
    KeptO s0 (execCsrw x w s) := by
  unfold execCsrw
  repeat' first
    | exact (kc.csrWrite ‹_›).adv _ | with_reducible assumption | with_reducible refine kept_onCx ?_ fun kc => ?_
    | with_reducible apply kept_refuseScalar | with_reducible apply kept_ctxShort | with_reducible apply kept_millerShort
    | with_reducible apply keptO_next | split | (with_reducible intro _ _; try beta_reduce)

theorem kept_execHalt {s0 s : State} {x : Exe} {w : W32} (hk : Kept s0 s) :
    KeptO s0 (execHalt x w s) := by
  unfold execHalt
  repeat' first
    | exact kc.same rfl | exact (kc.adv _).same rfl | with_reducible assumption
    | ((with_reducible intro _ hq); (show Map.wf 0 (Miller.store _) = true); (repeat first | assumption | (with_reducible apply Map.wf_set) | (with_reducible apply Map.wf_setMany) | split | (show Map.wf 0 (Miller.store (Miller.next _)) = true; unfold Miller.next) | dsimp only); done)
    | (extract_lets +onlyGivenNames x; refine kept_cut (s0 := s0) (a := x) ?_ ?_; subst x; rotate_left; (intro _; clear_value x); rotate_left)
    | (extract_lets +onlyGivenNames x; subst x) | with_reducible refine kept_onCx ?_ fun kc => ?_ | with_reducible apply kept_onMiller
    | with_reducible apply kept_writeRec | with_reducible apply kept_ctxShort | with_reducible apply kept_millerShort | with_reducible apply keptO_ite
    | with_reducible apply keptO_next | split | (with_reducible intro _ _; try beta_reduce)

theorem kept_issueSystem {s0 s : State} {opc : Nat} {c : Nat} {w : Long} {bad : Bool} {f : State → Out} (hk : Kept s0 s) (hf : ∀ (x0 : State), Kept s0 x0 → KeptO s0 (f x0)) :
    KeptO s0 (issueSystem opc c w s bad f) := by
  unfold issueSystem
  repeat' first
    | exact kc.same rfl | with_reducible assumption | (extract_lets +onlyGivenNames x; subst x) | with_reducible apply hf
    | with_reducible refine kept_onCx ?_ fun kc => ?_ | with_reducible apply kept_idle | with_reducible apply kept_refuseScalar
    | with_reducible apply kept_retire | with_reducible apply keptO_ite | with_reducible apply keptO_next | with_reducible apply keptO_refused
    | refine (kept_fetchCode ?_) _ ‹State.fetchCode _ _ _ = some _› | split

theorem kept_stopErr {s0 s : State} {c : Nat} {opc : Nat} (hk : Kept s0 s) :
    Kept s0 (State.stopErr s c opc) := by
  unfold State.stopErr
  repeat' first
    | exact kc.same rfl | with_reducible assumption
    | (extract_lets +onlyGivenNames x; refine kept_cut (s0 := s0) (a := x) ?_ ?_; subst x; rotate_left; (intro _; clear_value x); rotate_left)
    | (extract_lets +onlyGivenNames x; subst x) | with_reducible refine kept_onCx ?_ fun kc => ?_ | with_reducible apply kept_writeRec
    | with_reducible apply kept_ite

theorem kept_completeSys {s0 s : State} {c : Nat} {w : Long} (hk : Kept s0 s) :
    Kept s0 (State.completeSys s c w) := by
  unfold State.completeSys
  repeat' first
    | with_reducible exact kc.adv _ | with_reducible assumption | with_reducible refine kept_onCx ?_ fun kc => ?_ | with_reducible apply kept_bump

theorem kept_fenceStep {s0 s : State} {c : Nat} {w : Long} (hk : Kept s0 s) :
    Kept s0 (State.fenceStep s c w) := by
  unfold State.fenceStep
  repeat' first
    | exact kc.same rfl | with_reducible assumption | with_reducible refine kept_onCx ?_ fun kc => ?_ | with_reducible apply kept_stopErr
    | with_reducible apply kept_completeSys | with_reducible apply kept_ite

theorem kept_execFence {s0 s : State} {c : Fin 64} {w : Long} (hk : Kept s0 s) :
    KeptO s0 (execFence c w s) := by
  unfold execFence
  repeat' first
    | with_reducible assumption | with_reducible apply kept_issueSystem | with_reducible apply kept_fenceStep | with_reducible apply keptO_next
    | (with_reducible intro _ _; try beta_reduce)

theorem kept_execFenceSatisfied {s0 s : State} {c : Fin 64} (hk : Kept s0 s) :
    KeptO s0 (execFenceSatisfied c s) := by
  unfold execFenceSatisfied
  repeat' first
    | with_reducible assumption | (extract_lets +onlyGivenNames x; subst x) | with_reducible apply kept_idle | with_reducible apply kept_fenceStep
    | with_reducible apply keptO_ite | with_reducible apply keptO_next | split

theorem kept_waitStep {s0 s : State} {c : Nat} {w : Long} (hk : Kept s0 s) :
    Kept s0 (State.waitStep s c w) := by
  unfold State.waitStep
  repeat' first
    | exact kc.same rfl | with_reducible assumption | with_reducible refine kept_onCx ?_ fun kc => ?_ | with_reducible apply kept_stopErr
    | with_reducible apply kept_completeSys | with_reducible apply kept_ite

theorem kept_execWait {s0 s : State} {c : Fin 64} {w : Long} (hk : Kept s0 s) :
    KeptO s0 (execWait c w s) := by
  unfold execWait
  repeat' first
    | with_reducible assumption | with_reducible apply kept_issueSystem | with_reducible apply kept_waitStep | with_reducible apply keptO_next
    | (with_reducible intro _ _; try beta_reduce)

theorem kept_execWaitSatisfied {s0 s : State} {c : Fin 64} (hk : Kept s0 s) :
    KeptO s0 (execWaitSatisfied c s) := by
  unfold execWaitSatisfied
  repeat' first
    | with_reducible assumption | (extract_lets +onlyGivenNames x; subst x) | with_reducible apply kept_idle | with_reducible apply kept_waitStep
    | with_reducible apply keptO_ite | with_reducible apply keptO_next | split

theorem kept_execSig {s0 s : State} {c : Fin 64} {w : Long} (hk : Kept s0 s) :
    KeptO s0 (execSig c w s) := by
  unfold execSig
  repeat' first
    | exact kc.same rfl | with_reducible assumption | (extract_lets +onlyGivenNames x; subst x) | with_reducible refine kept_onCx ?_ fun kc => ?_
    | with_reducible apply kept_refuseScalar | with_reducible apply kept_accept | with_reducible apply kept_issueSystem
    | with_reducible apply keptO_ite | with_reducible apply keptO_next | (with_reducible intro _ _; try beta_reduce)

theorem kept_execSigIncrement {s0 s : State} {n : Nat} (hk : Kept s0 s) :
    KeptO s0 (execSigIncrement n s) := by
  unfold execSigIncrement
  repeat' first
    | with_reducible exact kc.wev _ _ | exact kc.same rfl | with_reducible assumption
    | (extract_lets +onlyGivenNames x; refine kept_cut (s0 := s0) (a := x) ?_ ?_; subst x; rotate_left; (intro _; clear_value x); rotate_left)
    | (extract_lets +onlyGivenNames x; subst x) | with_reducible refine kept_onCx ?_ fun kc => ?_ | with_reducible apply kept_wakeLadder
    | with_reducible apply kept_writeRec | with_reducible apply kept_idle | with_reducible apply kept_bump | with_reducible apply keptO_ite
    | with_reducible apply keptO_next | with_reducible apply kept_ite | split | with_reducible apply kept_insts
    | (intro k; (try dsimp only); (repeat first | with_reducible apply Map.wf_set | with_reducible apply Map.wf_modify | with_reducible apply Map.wf_erase | with_reducible apply Map.wf_mapVals | with_reducible apply Map.wf_setMany | (with_reducible apply Map.wf_filter)); first | exact k.ext | exact k.ports | exact k.resv | exact k.pools | exact k.links | exact k.groups | exact k.ch | exact k.doms | exact k.store | exact k.ctx | exact k.insts)

theorem kept_execCall {s0 s : State} {c : Fin 64} {w : Long} (hk : Kept s0 s) :
    KeptO s0 (execCall c w s) := by
  unfold execCall
  repeat' first
    | exact (kc.adv _).same rfl | with_reducible assumption | (extract_lets +onlyGivenNames x; subst x)
    | with_reducible refine kept_onCx ?_ fun kc => ?_ | with_reducible apply kept_refuseScalar | with_reducible apply kept_faultScalar
    | with_reducible apply kept_issueSystem | with_reducible apply keptO_ite | with_reducible apply keptO_next | split
    | (with_reducible intro _ _; try beta_reduce)

theorem kept_execRet {s0 s : State} {c : Fin 64} {w : Long} (hk : Kept s0 s) :
    KeptO s0 (execRet c w s) := by
  unfold execRet
  repeat' first
    | with_reducible exact kc.adv _ | exact kc.same rfl | with_reducible assumption | (extract_lets +onlyGivenNames x; subst x)
    | with_reducible refine kept_onCx ?_ fun kc => ?_ | with_reducible apply kept_faultScalar | with_reducible apply kept_issueSystem
    | with_reducible apply keptO_next | split | (with_reducible intro _ _; try beta_reduce)

theorem kept_execConsAddrPoll {s0 s : State} {c : Fin 64} (hk : Kept s0 s) :
    KeptO s0 (execConsAddrPoll c s) := by
  unfold execConsAddrPoll
  repeat' first
    | with_reducible assumption | (extract_lets +onlyGivenNames x; subst x) | with_reducible apply kept_queueRead | with_reducible apply kept_logErr
    | with_reducible apply kept_report | with_reducible apply kept_idle | with_reducible apply keptO_ite | with_reducible apply keptO_next | split

end Sys2Proof.Machine
end

