-- ==== Sys2Proof/Laws/KeptUnits.lean ====
section
/-!
SUPPORT. `Kept` through the Sluice, the scarf commit, power and the registers.
-/

namespace Sys2Proof.Machine

theorem kept_setRt {s0 s : State} {bays : List Nat} {lim : Option Nat} {f : Nat} (hk : Kept s0 s) :
    Kept s0 (State.setRt s bays lim f) := by
  unfold State.setRt
  repeat' first
    | with_reducible assumption | (extract_lets +onlyGivenNames x; subst x) | with_reducible apply kept_onRv | with_reducible apply kept_foldl
    | (with_reducible intro _ _ _; try beta_reduce)

theorem kept_admitRes {s0 s : State} {r : Nat} (hk : Kept s0 s) :
    Kept s0 (State.admitRes s r) := by
  unfold State.admitRes
  repeat' first
    | with_reducible assumption
    | (extract_lets +onlyGivenNames x; refine kept_cut (s0 := s0) (a := x) ?_ ?_; subst x; rotate_left; (intro _; clear_value x); rotate_left)
    | (extract_lets +onlyGivenNames x; subst x) | with_reducible apply kept_onRv | with_reducible apply kept_onSluice
    | with_reducible apply kept_wakeDom | with_reducible apply kept_shortLink | with_reducible apply kept_setRt | with_reducible apply kept_foldl
    | with_reducible apply kept_ite | split | (with_reducible intro _; with_reducible rfl) | (with_reducible intro _ _ _; try beta_reduce)

theorem kept_execResAdmit {s0 s : State} {r : Fin 32} (hk : Kept s0 s) :
    KeptO s0 (execResAdmit r s) := by
  unfold execResAdmit
  repeat' first
    | with_reducible assumption | with_reducible apply kept_mgt | with_reducible apply kept_admitRes | with_reducible apply keptO_next
    | (with_reducible intro _ _; try beta_reduce) | rfl

theorem kept_releaseRes {s0 s : State} {r : Nat} (hk : Kept s0 s) :
    Kept s0 (State.releaseRes s r) := by
  unfold State.releaseRes
  repeat' first
    | with_reducible assumption | with_reducible apply kept_onRv | with_reducible apply kept_freeReleased | with_reducible apply kept_ite

theorem kept_execResRelease {s0 s : State} {r : Fin 32} (hk : Kept s0 s) :
    KeptO s0 (execResRelease r s) := by
  unfold execResRelease
  repeat' first
    | with_reducible assumption | with_reducible apply kept_mgt | with_reducible apply kept_releaseRes | with_reducible apply keptO_next
    | (with_reducible intro _ _; try beta_reduce) | rfl

theorem kept_execResRevoke {s0 s : State} {r : Fin 32} (hk : Kept s0 s) :
    KeptO s0 (execResRevoke r s) := by
  unfold execResRevoke
  repeat' first
    | with_reducible assumption | with_reducible apply kept_mgt | with_reducible apply kept_revoke | with_reducible apply keptO_next
    | (with_reducible intro _ _; try beta_reduce) | rfl

theorem kept_execWindowClose {s0 s : State} {r : Fin 32} (hk : Kept s0 s) :
    KeptO s0 (execWindowClose r s) := by
  unfold execWindowClose
  repeat' first
    | with_reducible assumption | (extract_lets +onlyGivenNames x; subst x) | with_reducible apply kept_onRv | with_reducible apply kept_idle
    | with_reducible apply keptO_ite | with_reducible apply keptO_next

theorem kept_execPendingClear {s0 s : State} {r : Fin 32} (hk : Kept s0 s) :
    KeptO s0 (execPendingClear r s) := by
  unfold execPendingClear
  repeat' first
    | with_reducible assumption | (extract_lets +onlyGivenNames x; subst x) | with_reducible apply kept_onRv | with_reducible apply kept_idle
    | with_reducible apply keptO_ite | with_reducible apply keptO_next

theorem kept_writeAen {s0 s : State} {v : Nat} (hk : Kept s0 s) :
    Kept s0 (State.writeAen s v) := by
  unfold State.writeAen
  repeat' first
    | with_reducible assumption
    | (extract_lets +onlyGivenNames x; refine kept_cut (s0 := s0) (a := x) ?_ ?_; subst x; rotate_left; (intro _; clear_value x); rotate_left)
    | (extract_lets +onlyGivenNames x; subst x) | with_reducible apply kept_onSluice | with_reducible apply kept_revoke
    | with_reducible apply kept_foldl | with_reducible apply kept_ite | (with_reducible intro _; with_reducible rfl)
    | (with_reducible intro _ _ _; try beta_reduce)

theorem kept_execAenWrite {s0 s : State} {v : W32} (hk : Kept s0 s) : KeptO s0 (execAenWrite v s) := by
  unfold execAenWrite
  with_reducible apply keptO_next
  refine kept_mgt hk rfl ?_
  with_reducible intro x k
  exact kept_writeAen k

theorem kept_execAenEffChange {s0 s : State} {b : Fin 32} (hk : Kept s0 s) :
    KeptO s0 (execAenEffChange b s) := by
  unfold execAenEffChange
  repeat' first
    | with_reducible assumption | (extract_lets +onlyGivenNames x; subst x) | with_reducible apply kept_onSluice | with_reducible apply kept_idle
    | with_reducible apply keptO_ite | with_reducible apply keptO_next | split | (with_reducible intro _; with_reducible rfl)

theorem kept_execDividerDecreaseEffect {s0 s : State} (hk : Kept s0 s) :
    KeptO s0 (execDividerDecreaseEffect s) := by
  unfold execDividerDecreaseEffect
  repeat' first
    | with_reducible assumption | with_reducible apply kept_idle | with_reducible apply keptO_ite | with_reducible apply keptO_next
    | with_reducible apply kept_pwr | dsimp only
    | (intro k; (try dsimp only); (repeat first | with_reducible apply Map.wf_set | with_reducible apply Map.wf_modify | with_reducible apply Map.wf_erase | with_reducible apply Map.wf_mapVals | with_reducible apply Map.wf_setMany | (with_reducible apply Map.wf_filter)); first | exact k.ext | exact k.ports | exact k.resv | exact k.pools | exact k.links | exact k.groups | exact k.ch | exact k.doms | exact k.store | exact k.ctx | exact k.insts)

theorem kept_limitBay {s0 : State} {b f : Nat} : ∀ {n : Nat} {s : State}, Kept s0 s → Kept s0 (State.limitBay b f n s)
  | 0, _, h => h
  | n + 1, s, h => by
    unfold State.limitBay
    refine kept_ite h ?_
    split
    · exact h
    · exact kept_limitBay (kept_revoke h)

theorem kept_writeLimit {s0 s : State} {b : Nat} {v : Nat} (hk : Kept s0 s) :
    Kept s0 (State.writeLimit s b v) := by
  unfold State.writeLimit
  repeat' first
    | with_reducible assumption
    | (extract_lets +onlyGivenNames x; refine kept_cut (s0 := s0) (a := x) ?_ ?_; subst x; rotate_left; (intro _; clear_value x); rotate_left)
    | (extract_lets +onlyGivenNames x; subst x) | with_reducible apply kept_onBy | with_reducible apply kept_setRt
    | with_reducible apply kept_limitBay | with_reducible apply kept_ite | ((with_reducible intro _ k); exact k)

theorem kept_execBayLimitWrite {s0 s : State} {b : Fin 32} {v : W32} (hk : Kept s0 s) :
    KeptO s0 (execBayLimitWrite b v s) := by
  unfold execBayLimitWrite
  repeat' first
    | with_reducible assumption | with_reducible apply kept_mgt | with_reducible apply kept_writeLimit | with_reducible apply keptO_next
    | with_reducible apply kept_ite | (with_reducible intro _ _; try beta_reduce) | rfl

theorem kept_scarfEnd {s0 s : State} {result : Nat} (hk : Kept s0 s) :
    Kept s0 (State.scarfEnd s result) := by
  unfold State.scarfEnd
  repeat' first
    | with_reducible assumption | with_reducible apply kept_onScarf

theorem kept_imageFails {s0 s : State} (hk : Kept s0 s) : Kept s0 (State.imageFails s) := by
  unfold State.imageFails
  exact kept_miller hk fun _ => rfl

theorem kept_scarfDiscard {s0 s : State} {result : Nat} (hk : Kept s0 s) :
    Kept s0 (State.scarfDiscard s result) := by
  unfold State.scarfDiscard
  repeat' first
    | with_reducible assumption
    | (extract_lets +onlyGivenNames x; refine kept_cut (s0 := s0) (a := x) ?_ ?_; subst x; rotate_left; (intro _; clear_value x); rotate_left)
    | with_reducible apply kept_logErr | with_reducible apply kept_scarfEnd | with_reducible apply kept_imageFails | with_reducible apply kept_ite

theorem kept_scarfOpen {s0 s : State} (hk : Kept s0 s) :
    Kept s0 (State.scarfOpen s) := by
  unfold State.scarfOpen
  repeat' first
    | with_reducible assumption | with_reducible apply kept_onScarf | with_reducible apply kept_ite

theorem kept_stage {s0 s : State} {op : Bool} {off : Nat} {v : W32} (hk : Kept s0 s) :
    Kept s0 (State.stage s op off v) := by
  unfold State.stage
  repeat' first
    | with_reducible assumption
    | (extract_lets +onlyGivenNames x; refine kept_cut (s0 := s0) (a := x) ?_ ?_; subst x; rotate_left; (intro _; clear_value x); rotate_left)
    | (extract_lets +onlyGivenNames x; subst x) | with_reducible apply kept_onScarf | with_reducible apply kept_scarfDiscard
    | with_reducible apply kept_scarfOpen | with_reducible apply kept_ite

theorem kept_scarfGo {s0 s : State} {op : Bool} (hk : Kept s0 s) :
    Kept s0 (State.scarfGo s op) := by
  unfold State.scarfGo
  repeat' first
    | with_reducible assumption
    | (extract_lets +onlyGivenNames x; refine kept_cut (s0 := s0) (a := x) ?_ ?_; subst x; rotate_left; (intro _; clear_value x); rotate_left)
    | (extract_lets +onlyGivenNames x; subst x) | with_reducible apply kept_onScarf | with_reducible apply kept_scarfDiscard
    | with_reducible apply kept_scarfOpen | with_reducible apply kept_ite

theorem kept_scarfAbandon {s0 s : State} (hk : Kept s0 s) :
    Kept s0 (State.scarfAbandon s) := by
  unfold State.scarfAbandon
  repeat' first
    | with_reducible assumption | with_reducible apply kept_scarfDiscard | with_reducible apply kept_scarfOpen

theorem kept_byParty {s0 s : State} {c : Instr} {operator : Bool} {f : State → State} (hk : Kept s0 s) (hc : c.wf = true) (hf : ∀ (x0 : State), Kept s0 x0 → Kept s0 (f x0)) :
    Kept s0 (State.byParty s c operator f) := by
  unfold State.byParty
  repeat' first
    | with_reducible assumption | with_reducible apply hf | with_reducible apply kept_holdAccess | with_reducible apply kept_mgt
    | with_reducible apply kept_ite

theorem kept_execScarfStageWrite {s0 s : State} {operator : Bool} {off : BitVec 12} {v : W32} (hk : Kept s0 s) :
    KeptO s0 (execScarfStageWrite operator off v s) := by
  unfold execScarfStageWrite
  repeat' first
    | with_reducible assumption | with_reducible apply kept_stage | with_reducible apply kept_byParty | with_reducible apply keptO_next
    | (with_reducible intro _ _; try beta_reduce) | rfl

theorem kept_execScarfGo {s0 s : State} {operator : Bool} (hk : Kept s0 s) :
    KeptO s0 (execScarfGo operator s) := by
  unfold execScarfGo
  repeat' first
    | with_reducible assumption | with_reducible apply kept_scarfGo | with_reducible apply kept_byParty | with_reducible apply keptO_next
    | (with_reducible intro _ _; try beta_reduce) | rfl

theorem kept_execScarfAbandon {s0 s : State} {operator : Bool} (hk : Kept s0 s) :
    KeptO s0 (execScarfAbandon operator s) := by
  unfold execScarfAbandon
  repeat' first
    | with_reducible assumption | with_reducible apply kept_scarfAbandon | with_reducible apply kept_byParty | with_reducible apply keptO_next | rfl

theorem kept_execScarfWindowExpiry {s0 s : State} (hk : Kept s0 s) :
    KeptO s0 (execScarfWindowExpiry s) := by
  unfold execScarfWindowExpiry
  repeat' first
    | with_reducible assumption | (extract_lets +onlyGivenNames x; subst x) | with_reducible apply kept_idle | with_reducible apply kept_scarfDiscard
    | with_reducible apply keptO_ite | with_reducible apply keptO_next

theorem kept_flushLog {s0 s : State} (hk : Kept s0 s) :
    Kept s0 (State.flushLog s) := by
  unfold State.flushLog
  repeat' first
    | with_reducible assumption | (extract_lets +onlyGivenNames x; subst x) | with_reducible apply kept_onLog | with_reducible apply kept_sendLog
    | with_reducible apply kept_foldl | (with_reducible intro _; with_reducible rfl) | (with_reducible intro _ _ _; try beta_reduce)

theorem kept_dropSlots {s0 s : State} {b : Nat} (hk : Kept s0 s) :
    Kept s0 (State.dropSlots s b) := by
  unfold State.dropSlots
  repeat' first
    | with_reducible assumption | with_reducible apply kept_onCo | with_reducible apply kept_foldl | ((with_reducible intro _ k); exact k)
    | (with_reducible intro _ _ _; try beta_reduce)

theorem kept_testBays {s0 : State} {old v : Nat} {l : List Nat} {s : State} (hk : Kept s0 s) :
    Kept s0 (l.foldl (fun (s : State) (b : Nat) =>
      let was := bitOf old b
      let now := bitOf v b
      if was == now then s
      else if !s.winOn b then (if now then s else s.onBy b fun x => { x with dropDue := true })
      else if now then s.onBy b fun x => { x with mode := 3 }
      else (s.onBy b fun x => { x with mode := 0, recovery := false }).dropSlots b) s) := by
  with_reducible apply kept_foldl
  · intro x b k
    exact kept_ite k (kept_ite (kept_ite k (kept_onBy k fun _ k => k))
      (kept_ite (kept_onBy k fun _ k => k) (kept_dropSlots (kept_onBy k fun _ k => k))))
  · exact hk

/-- What the rows that move governed fields or fuses still keep. -/
structure Holds (s t : State) : Prop where
  pending : t.pending = s.pending
  canon : s.Canon → t.Canon
  access : (∀ c ∈ s.boot.access, c.wf = true) → ∀ c ∈ t.boot.access, c.wf = true

theorem Kept.holds {s t : State} (h : Kept s t) : Holds s t := ⟨h.pending, h.canon, h.access⟩

theorem Holds.trans {a b c : State} (h : Holds a b) (k : Holds b c) : Holds a c := ⟨k.pending.trans h.pending, fun x => k.canon (h.canon x),
  fun x => k.access (h.access x)⟩

theorem Holds.ite {s0 a b : State} {p : Prop} [Decidable p] (ha : Holds s0 a) (hb : Holds s0 b) : Holds s0 (if p then a else b) := by
  split
  · exact ha
  · exact hb

theorem Holds.foldl {s0 : State} {β : Type} {f : State → β → State} (hf : ∀ s a, Holds s0 s → Holds s0 (f s a)) :
    ∀ (l : List β) {s : State}, Holds s0 s → Holds s0 (l.foldl f s)
  | [], _, h => h
  | a :: l, _, h => Holds.foldl hf l (hf _ a h)

theorem holds_onProt {s0 s : State} {f : Prot → Prot} (h : Holds s0 s) : Holds s0 (s.onProt f) := h.trans ⟨rfl, fun k => { k with }, id⟩

theorem holds_onLog {s0 s : State} {f : Log → Log} (h : Holds s0 s) : Holds s0 (s.onLog f) := h.trans ⟨rfl, fun k => { k with }, id⟩

theorem holds_testChange {s0 s : State} {v : W32} (h : Holds s0 s) : Holds s0 (s.testChange v) :=
  (holds_onProt h).trans (kept_testBays (Kept.refl _)).holds

theorem holds_applyGov {s0 s : State} {g : Gov} {v : Nat} (h : Holds s0 s) : Holds s0 (s.applyGov g v) := by
  unfold State.applyGov
  cases g <;> dsimp only
  case domain => exact h.trans (kept_onCx (Kept.refl _) fun kc => kc.same rfl).holds
  case testEn => exact holds_testChange h
  case imgAct => exact h
  case uCap =>
    refine h.trans (kept_onSluice (Kept.refl _) ?_).holds
    exact fun _ => rfl
  case scarfWin => refine h.trans (kept_onScarf (Kept.refl _)).holds
  case logLo => with_reducible apply holds_onLog; exact h
  case logHi => with_reducible apply holds_onLog; exact h
  all_goals with_reducible apply holds_onProt; exact h

theorem holds_scarfLand {s0 s : State} (h : Holds s0 s) : Holds s0 s.scarfLand := by
  unfold State.scarfLand
  extract_lets n s1 s2
  have k1 : Holds s0 s1 := by
    refine Holds.foldl ?_ _ h
    intro x e k
    split
    · exact holds_applyGov k
    · exact k
  clear_value s1
  have k2 : Holds s0 s2 := k1.trans (kept_raise (kept_scarfEnd (Kept.refl _))).holds
  clear_value s2
  exact Holds.ite (k2.trans (kept_flushLog (Kept.refl _)).holds) k2

theorem kept_startImage {s0 s : State} (hk : Kept s0 s) : Kept s0 (State.startImage s) := by
  unfold State.startImage
  extract_lets m s1 z s2
  have k1 : Kept s0 s1 := kept_onScarf hk
  have k2 : Kept s0 s2 := kept_miller k1 fun k => k.store
  clear_value s2
  refine kept_foldl ?_ _ k2
  intro x a k
  exact kept_ite (kept_onScarf k) (kept_queueRead k)

def HoldsO (s0 : State) (o : Host.Outcome State Fault Refusal) : Prop := ∀ t, o = .next t → Holds s0 t
theorem holdsO_next {s0 s : State} (h : Holds s0 s) : HoldsO s0 (.next s) := fun _ e => by cases e; exact h

theorem KeptO.holds {s0 : State} {o : Host.Outcome State Fault Refusal} (h : KeptO s0 o) : HoldsO s0 o := fun t e => (h t e).holds

theorem holds_execScarfCheckDone {s : State} : HoldsO s (execScarfCheckDone s) := by
  unfold execScarfCheckDone
  split
  · exact holdsO_next (Kept.refl _).holds
  · split
    · exact holdsO_next (kept_scarfDiscard (Kept.refl _)).holds
    · exact holdsO_next (Holds.ite (kept_startImage (Kept.refl _)).holds (holds_scarfLand (Kept.refl _).holds))

theorem kept_loadImage {s0 s : State} {bs : List Byte} (hk : Kept s0 s) : Kept s0 (State.loadImage s bs) := by
  unfold State.loadImage
  exact kept_miller hk fun _ => Map.wf_setMany rfl _

theorem holds_imageDone {s0 s : State} {p : Bool} (h : Holds s0 s) : Holds s0 (s.imageDone p) := by
  unfold State.imageDone
  extract_lets m bs
  clear_value bs
  refine Holds.ite ?_ (Holds.ite ?_ ?_)
  · exact h.trans (kept_scarfDiscard (Kept.refl _)).holds
  · exact h.trans (kept_scarfDiscard (Kept.refl _)).holds
  · exact (holds_scarfLand h).trans (kept_loadImage (Kept.refl _)).holds

theorem kept_dropSlice {s0 s : State} {g : Nat} (hk : Kept s0 s) :
    Kept s0 (State.dropSlice s g) := by
  unfold State.dropSlice
  repeat' first
    | with_reducible assumption | with_reducible apply kept_mem | dsimp only
    | (intro k; (try dsimp only); (repeat first | with_reducible apply Map.wf_set | with_reducible apply Map.wf_modify | with_reducible apply Map.wf_erase | with_reducible apply Map.wf_mapVals | with_reducible apply Map.wf_setMany | (with_reducible apply Map.wf_filter)); first | exact k.ext | exact k.ports | exact k.resv | exact k.pools | exact k.links | exact k.groups | exact k.ch | exact k.doms | exact k.store | exact k.ctx | exact k.insts)

theorem kept_allCtx {s0 s : State} {f : Ctx → Ctx} (hk : Kept s0 s) (hf : ∀ x : Ctx, x.canon → (f x).canon) :
    Kept s0 (State.allCtx s f) :=
  kept_foldl (fun _ _ k => kept_onCx k (hf _)) _ hk

theorem kept_toRetention {s0 s : State} {d : Nat} (hk : Kept s0 s) :
    Kept s0 (State.toRetention s d) := by
  unfold State.toRetention
  repeat' first
    | exact fun _ kc => kc.same rfl | exact { kc with streams := rfl } | with_reducible assumption
    | (extract_lets +onlyGivenNames x; refine kept_cut (s0 := s0) (a := x) ?_ ?_; subst x; rotate_left; (intro _; clear_value x); rotate_left)
    | (extract_lets +onlyGivenNames x; subst x) | with_reducible refine kept_onCx ?_ fun kc => ?_ | with_reducible apply kept_onLink
    | with_reducible apply kept_onGroup | with_reducible apply kept_onChan | with_reducible apply kept_onBy | with_reducible apply kept_onSluice
    | with_reducible apply kept_dropSlice | with_reducible apply kept_allCtx | with_reducible apply kept_foldl | with_reducible apply kept_ite
    | (with_reducible intro _; with_reducible rfl) | ((with_reducible intro _ k); exact k) | (with_reducible intro _ _ _; try beta_reduce)
    | with_reducible apply kept_sluice | with_reducible apply kept_pwu | with_reducible apply kept_weir | with_reducible apply kept_hop | dsimp only
    | (intro k; (try dsimp only); (repeat first | with_reducible apply Map.wf_set | with_reducible apply Map.wf_modify | with_reducible apply Map.wf_erase | with_reducible apply Map.wf_mapVals | with_reducible apply Map.wf_setMany | (with_reducible apply Map.wf_filter)); first | exact k.ext | exact k.ports | exact k.resv | exact k.pools | exact k.links | exact k.groups | exact k.ch | exact k.doms | exact k.store | exact k.ctx | exact k.insts)

theorem kept_toOff {s0 s : State} {d : Nat} (hk : Kept s0 s) : Kept s0 (State.toOff s d) := by
  unfold State.toOff
  refine kept_ite ?_ (kept_ite ?_ (kept_ite ?_ (kept_ite ?_ (kept_ite ?_ (kept_ite ?_ (kept_ite ?_ ?_))))))
  · extract_lets s1
    have k1 : Kept s0 s1 := kept_onBy hk fun _ _ => rfl
    clear_value s1
    refine kept_core k1 fun k => ⟨Map.wf_filter k.core _, ?_⟩
    intro p hp
    exact k.cores p (List.mem_filter.1 hp).1
  · with_reducible apply kept_foldl
    · intro x a k
      exact kept_onPort k
    · exact kept_dropSlice hk
  · with_reducible apply kept_foldl
    · intro x a k
      exact kept_onLink k
    · exact kept_onGroup hk
  · refine kept_allCtx ?_ fun _ kc => kc.same rfl
    exact hk.trans ⟨rfl, rfl, rfl, fun k => { k with resv := rfl, ch := rfl }, id⟩
  · refine kept_allCtx ?_ fun _ kc => kc.same rfl
    exact kept_pwu hk fun _ => rfl
  · exact kept_weir hk
  · with_reducible apply kept_foldl
    · intro x a k
      exact kept_onCx k fun _ => ⟨rfl, rfl, rfl, rfl, rfl, rfl, rfl, rfl⟩
    · exact kept_onChan hk
  · exact kept_onMiller hk fun _ k => k

theorem kept_hopUp {s0 s : State} (hk : Kept s0 s) :
    Kept s0 (State.hopUp s) := by
  unfold State.hopUp
  repeat' first
    | with_reducible assumption | with_reducible apply kept_onChan | with_reducible apply kept_foldl | with_reducible apply kept_ite
    | (with_reducible intro _ _ _; try beta_reduce)

theorem kept_resume {s0 s : State} {d : Nat} (hk : Kept s0 s) :
    Kept s0 (State.resume s d) := by
  unfold State.resume
  repeat' first
    | with_reducible assumption | with_reducible apply kept_startLinks | with_reducible apply kept_offer | with_reducible apply kept_pwuTurn
    | with_reducible apply kept_weirUp | with_reducible apply kept_hopUp | with_reducible apply kept_foldl | with_reducible apply kept_ite
    | (with_reducible intro _ _ _; try beta_reduce)

theorem kept_beginEntry {s0 s : State} {d : Nat} {target : Nat} (hk : Kept s0 s) :
    Kept s0 (State.beginEntry s d target) := by
  unfold State.beginEntry
  repeat' first
    | with_reducible assumption
    | (extract_lets +onlyGivenNames x; refine kept_cut (s0 := s0) (a := x) ?_ ?_; subst x; rotate_left; (intro _; clear_value x); rotate_left)
    | with_reducible apply kept_onChan | with_reducible apply kept_onDom | with_reducible apply kept_foldl | with_reducible apply kept_ite
    | (with_reducible intro _ _ _; try beta_reduce)

theorem kept_entryStep {s0 s : State} {d : Nat} (hk : Kept s0 s) :
    KeptOpt s0 (State.entryStep s d) := by
  unfold State.entryStep
  repeat' first
    | with_reducible assumption
    | (extract_lets +onlyGivenNames x; refine kept_cut (s0 := s0) (a := x) ?_ ?_; subst x; rotate_left; (intro _; clear_value x); rotate_left)
    | (extract_lets +onlyGivenNames x; subst x) | with_reducible apply kept_onDom | with_reducible apply kept_wakeDom
    | with_reducible apply kept_toRetention | with_reducible apply kept_toOff | with_reducible apply kept_resume
    | with_reducible apply kept_beginEntry | with_reducible apply keptOpt_some | with_reducible apply keptOpt_none | with_reducible apply kept_ite
    | split

theorem kept_execEntryStepDone {s0 s : State} {d : Fin 56} (hk : Kept s0 s) :
    KeptO s0 (execEntryStepDone d s) := by
  unfold execEntryStepDone
  repeat' first
    | with_reducible assumption | with_reducible apply kept_idle | with_reducible apply keptO_next
    | refine (kept_entryStep ?_) _ ‹State.entryStep _ _ = some _› | split

theorem kept_execIdleTimerExpiry {s0 s : State} {d : Fin 56} (hk : Kept s0 s) :
    KeptO s0 (execIdleTimerExpiry d s) := by
  unfold execIdleTimerExpiry
  repeat' first
    | with_reducible assumption | (extract_lets +onlyGivenNames x; subst x) | with_reducible apply kept_onDom | with_reducible apply kept_idle
    | with_reducible apply kept_beginEntry | with_reducible apply keptO_ite | with_reducible apply keptO_next

theorem kept_comeUp {s0 s : State} {d : Nat} (hk : Kept s0 s) :
    Kept s0 (State.comeUp s d) := by
  unfold State.comeUp
  repeat' first
    | with_reducible assumption
    | (extract_lets +onlyGivenNames x; refine kept_cut (s0 := s0) (a := x) ?_ ?_; subst x; rotate_left; (intro _; clear_value x); rotate_left)
    | (extract_lets +onlyGivenNames x; subst x) | with_reducible apply kept_onChan | with_reducible apply kept_onDom | with_reducible apply kept_onBy
    | with_reducible apply kept_onPwr | with_reducible apply kept_onProt | with_reducible apply kept_dropSlots | with_reducible apply kept_resume
    | with_reducible apply kept_ite | split | (with_reducible intro _; with_reducible rfl) | ((with_reducible intro _ k); exact k)

theorem kept_bootStep3 {s0 s : State} (hk : Kept s0 s) :
    Kept s0 (State.bootStep3 s) := by
  unfold State.bootStep3
  repeat' first
    | with_reducible assumption | with_reducible apply kept_onBoot | with_reducible apply kept_ite
    | (with_reducible intro _; with_reducible rfl)

theorem kept_execExitStepReady {s0 s : State} {d : Fin 56} (hk : Kept s0 s) :
    KeptO s0 (execExitStepReady d s) := by
  unfold execExitStepReady
  repeat' first
    | with_reducible assumption | (extract_lets +onlyGivenNames x; subst x) | with_reducible apply kept_onDom | with_reducible apply kept_idle
    | with_reducible apply kept_comeUp | with_reducible apply kept_bootStep3 | with_reducible apply keptO_ite | with_reducible apply keptO_next

theorem kept_supply {s0 s : State} {d : Nat} (hk : Kept s0 s) :
    Kept s0 (State.supply s d) := by
  unfold State.supply
  repeat' first
    | with_reducible assumption
    | (extract_lets +onlyGivenNames x; refine kept_cut (s0 := s0) (a := x) ?_ ?_; subst x; rotate_left; (intro _; clear_value x); rotate_left)
    | (extract_lets +onlyGivenNames x; subst x) | with_reducible apply kept_onDom | with_reducible apply kept_wakeDom | with_reducible apply kept_ite

theorem kept_execPwrGoodChange {s0 s : State} {d : Fin 56} {code : BitVec 2} (hk : Kept s0 s) :
    KeptO s0 (execPwrGoodChange d code s) := by
  unfold execPwrGoodChange
  repeat' first
    | with_reducible assumption | (extract_lets +onlyGivenNames x; subst x) | with_reducible apply kept_idle | with_reducible apply kept_supply
    | with_reducible apply keptO_ite | with_reducible apply keptO_next

theorem kept_pwrCmd {s0 s : State} {own : Bool} {d : Nat} {target : Nat} (hk : Kept s0 s) :
    Kept s0 (State.pwrCmd s own d target) := by
  unfold State.pwrCmd
  repeat' first
    | with_reducible assumption
    | (extract_lets +onlyGivenNames x; refine kept_cut (s0 := s0) (a := x) ?_ ?_; subst x; rotate_left; (intro _; clear_value x); rotate_left)
    | (extract_lets +onlyGivenNames x; subst x) | with_reducible apply kept_onDom | with_reducible apply kept_onPwr
    | with_reducible apply kept_wakeDom | with_reducible apply kept_startMiller | with_reducible apply kept_beginEntry | with_reducible apply kept_ite
    | (with_reducible intro _; with_reducible rfl)

theorem kept_execPwrCmdOn {s0 s : State} {d : Fin 64} (hk : Kept s0 s) :
    KeptO s0 (execPwrCmdOn d s) := by
  unfold execPwrCmdOn
  repeat' first
    | with_reducible assumption | with_reducible apply kept_mgt | with_reducible apply kept_pwrCmd | with_reducible apply keptO_next
    | (with_reducible intro _ _; try beta_reduce) | rfl

theorem kept_execPwrCmdRetention {s0 s : State} {d : Fin 64} (hk : Kept s0 s) :
    KeptO s0 (execPwrCmdRetention d s) := by
  unfold execPwrCmdRetention
  repeat' first
    | with_reducible assumption | with_reducible apply kept_mgt | with_reducible apply kept_pwrCmd | with_reducible apply keptO_next
    | (with_reducible intro _ _; try beta_reduce) | rfl

theorem kept_execPwrCmdOff {s0 s : State} {d : Fin 64} (hk : Kept s0 s) :
    KeptO s0 (execPwrCmdOff d s) := by
  unfold execPwrCmdOff
  repeat' first
    | with_reducible assumption | with_reducible apply kept_mgt | with_reducible apply kept_pwrCmd | with_reducible apply keptO_next
    | (with_reducible intro _ _; try beta_reduce) | rfl

theorem kept_driveV {s0 s : State} (hk : Kept s0 s) :
    Kept s0 (State.driveV s) := by
  unfold State.driveV
  repeat' first
    | with_reducible assumption | with_reducible apply kept_onPwr | with_reducible apply kept_ite | (with_reducible intro _; with_reducible rfl)

theorem kept_reqV {s0 s : State} {c : Nat} (hk : Kept s0 s) :
    Kept s0 (State.reqV s c) := by
  unfold State.reqV
  repeat' first
    | with_reducible assumption | with_reducible apply kept_onPwr | with_reducible apply kept_driveV | with_reducible apply kept_ite
    | (with_reducible intro _; with_reducible rfl)

theorem kept_reqDiv {s0 s : State} {code : Nat} (hk : Kept s0 s) :
    Kept s0 (State.reqDiv s code) := by
  unfold State.reqDiv
  repeat' first
    | with_reducible assumption | (extract_lets +onlyGivenNames x; subst x) | with_reducible apply kept_onPwr | with_reducible apply kept_ite
    | (with_reducible intro _; with_reducible rfl)

theorem kept_writeCdiv {s0 s : State} {v : Nat} (hk : Kept s0 s) :
    Kept s0 (State.writeCdiv s v) := by
  unfold State.writeCdiv
  repeat' first
    | with_reducible assumption | with_reducible apply kept_onPwr | with_reducible apply kept_reqDiv | (with_reducible intro _; with_reducible rfl)

theorem kept_writeVcode {s0 s : State} {v : Nat} (hk : Kept s0 s) :
    Kept s0 (State.writeVcode s v) := by
  unfold State.writeVcode
  repeat' first
    | with_reducible assumption | with_reducible apply kept_onPwr | with_reducible apply kept_reqV | (with_reducible intro _; with_reducible rfl)

theorem kept_execCdivWrite {s0 s : State} {v : W32} (hk : Kept s0 s) :
    KeptO s0 (execCdivWrite v s) := by
  unfold execCdivWrite
  repeat' first
    | with_reducible assumption | with_reducible apply kept_mgt | with_reducible apply kept_writeCdiv | with_reducible apply keptO_next
    | (with_reducible intro _ _; try beta_reduce) | rfl

theorem kept_execVcodeWrite {s0 s : State} {v : W32} (hk : Kept s0 s) :
    KeptO s0 (execVcodeWrite v s) := by
  unfold execVcodeWrite
  repeat' first
    | with_reducible assumption | with_reducible apply kept_mgt | with_reducible apply kept_writeVcode | with_reducible apply keptO_next
    | (with_reducible intro _ _; try beta_reduce) | rfl

theorem kept_bootStep2 {s0 s : State} (hk : Kept s0 s) :
    Kept s0 (State.bootStep2 s) := by
  unfold State.bootStep2
  repeat' first
    | with_reducible assumption | with_reducible apply kept_onBoot | with_reducible apply kept_wakeDom | with_reducible apply kept_bootStep3
    | with_reducible apply kept_foldl | with_reducible apply kept_ite
    | (with_reducible intro _; with_reducible rfl)

theorem kept_seeVgood {s0 s : State} (hk : Kept s0 s) :
    Kept s0 (State.seeVgood s) := by
  unfold State.seeVgood
  repeat' first
    | with_reducible assumption | (extract_lets +onlyGivenNames x; subst x) | with_reducible apply kept_onPwr | with_reducible apply kept_driveV
    | with_reducible apply kept_bootStep2 | with_reducible apply kept_ite | (with_reducible intro _; with_reducible rfl)

theorem kept_rootUsable {s0 s : State} (hk : Kept s0 s) :
    Kept s0 (State.rootUsable s) := by
  unfold State.rootUsable
  repeat' first
    | with_reducible assumption | with_reducible apply kept_onBoot | with_reducible apply kept_driveV | with_reducible apply kept_bootStep2
    | with_reducible apply kept_seeVgood | with_reducible apply kept_ite
    | (with_reducible intro _; with_reducible rfl)

theorem kept_rootWait {s0 s : State} (hk : Kept s0 s) :
    Kept s0 (State.rootWait s) := by
  unfold State.rootWait
  repeat' first
    | with_reducible assumption | (extract_lets +onlyGivenNames x; subst x) | with_reducible apply kept_rootUsable | with_reducible apply kept_ite

theorem kept_execVgoodChange {s0 s : State} {good : Bool} (hk : Kept s0 s) :
    KeptO s0 (execVgoodChange good s) := by
  unfold execVgoodChange
  repeat' first
    | with_reducible assumption | with_reducible apply kept_onPwr | with_reducible apply kept_seeVgood | with_reducible apply keptO_next
    | (with_reducible intro _; with_reducible rfl)

theorem holds_coldReset {s0 s : State} (h : Holds s0 s) : Holds s0 s.coldReset := by
  refine h.trans ⟨rfl, fun k => ?_, fun _ _ h => nomatch h⟩
  exact ⟨rfl, rfl, rfl, rfl, k.ext, rfl, rfl, rfl, Map.wf_setMany rfl _, rfl, rfl, Map.wf_setMany rfl _, rfl,
    (fun _ hp => nomatch hp), (fun _ hp => nomatch hp), (fun _ hp => nomatch hp)⟩

theorem holds_execNiaRstNAssert {s : State} : HoldsO s (execNiaRstNAssert s) :=
  holdsO_next (holds_coldReset (Kept.refl _).holds)

theorem kept_execNiaRstNRelease {s0 s : State} (hk : Kept s0 s) :
    KeptO s0 (execNiaRstNRelease s) := by
  unfold execNiaRstNRelease
  repeat' first
    | with_reducible assumption | with_reducible apply kept_onBoot | with_reducible apply kept_idle | with_reducible apply keptO_ite
    | with_reducible apply keptO_next
    | (with_reducible intro _; with_reducible rfl)

theorem holds_fuseSensed {s0 s : State} {f : Fuse} (h : Holds s0 s) : Holds s0 (s.fuseSensed f) := by
  unfold State.fuseSensed
  extract_lets s1 s2 s3
  have k1 : Holds s0 s1 := h.trans ⟨rfl, fun k => { k with store := rfl }, id⟩
  clear_value s1
  have k2 : Kept s1 s2 := by
    refine kept_foldl ?_ _ (Kept.refl _)
    intro x b k
    exact kept_ite k (kept_onDom k)
  clear_value s2
  have k3 : Kept s1 s3 := by
    subst s3
    refine kept_onPwr k2 ?_
    exact fun _ => rfl
  refine k1.trans (kept_onBoot k3 ?_).holds
  exact fun _ => rfl

theorem holds_execFuseSenseDone {s : State} {a : W32} {b c : BitVec 256} {d e f g : BitVec 8} :
    HoldsO s (execFuseSenseDone a b c d e f g s) := by
  unfold execFuseSenseDone
  split
  · exact holdsO_next (Kept.refl _).holds
  · exact holdsO_next (holds_fuseSensed (Kept.refl _).holds)

theorem kept_startRound {s0 s : State} (hk : Kept s0 s) :
    Kept s0 (State.startRound s) := by
  unfold State.startRound
  repeat' first
    | with_reducible assumption | with_reducible apply kept_onBoot | with_reducible apply kept_wakeDom | with_reducible apply kept_foldl
    | (with_reducible intro _; with_reducible rfl)

theorem holds_imageCheck {s0 s : State} {p : Bool} (h : Holds s0 s) : Holds s0 (s.imageCheck p) := by
  unfold State.imageCheck
  extract_lets t
  have k : Holds s0 t := holds_imageDone h
  clear_value t
  refine Holds.ite (k.trans (kept_startRound (kept_onBoot (Kept.refl _) ?_)).holds) k
  exact fun _ => rfl

theorem holds_execScarfImageCheck {s : State} {p : Bool} : HoldsO s (execScarfImageCheck p s) := by
  unfold execScarfImageCheck
  split
  · exact holdsO_next (Kept.refl _).holds
  · exact holdsO_next (holds_imageCheck (Kept.refl _).holds)

theorem kept_testDone {s0 s : State} {cores : List (Fin 2048 × Fin 5)} {bays : Nat} (hk : Kept s0 s) :
    Kept s0 (State.testDone s cores bays) := by
  unfold State.testDone
  repeat' first
    | with_reducible assumption
    | (extract_lets +onlyGivenNames x; refine kept_cut (s0 := s0) (a := x) ?_ ?_; subst x; rotate_left; (intro _; clear_value x); rotate_left)
    | (extract_lets +onlyGivenNames x; subst x) | with_reducible apply kept_onBoot | with_reducible apply kept_wakeDom
    | with_reducible apply kept_report | with_reducible apply kept_toOff | with_reducible apply kept_comeUp | with_reducible apply kept_startRound
    | with_reducible apply kept_foldl | with_reducible apply kept_ite | (with_reducible intro _ _ _; try beta_reduce)
    | (with_reducible intro _; with_reducible rfl)

theorem kept_execSelfTestDone {s0 s : State} {cores : List (Fin 2048 × Fin 5)} {bays : W32} (hk : Kept s0 s) :
    KeptO s0 (execSelfTestDone cores bays s) := by
  unfold execSelfTestDone
  repeat' first
    | with_reducible assumption | with_reducible apply kept_idle | with_reducible apply kept_testDone | with_reducible apply keptO_ite
    | with_reducible apply keptO_next

theorem kept_reachReady {s0 s : State} (hk : Kept s0 s) :
    Kept s0 (State.reachReady s) := by
  unfold State.reachReady
  repeat' first
    | with_reducible assumption
    | (extract_lets +onlyGivenNames x; refine kept_cut (s0 := s0) (a := x) ?_ ?_; subst x; rotate_left; (intro _; clear_value x); rotate_left)
    | with_reducible apply kept_onDom | with_reducible apply kept_onBy | with_reducible apply kept_onBoot | with_reducible apply kept_hopUp
    | with_reducible apply kept_foldl | ((with_reducible intro _ k); exact k) | (with_reducible intro _ _ _; try beta_reduce)
    | (with_reducible intro _; with_reducible rfl)

theorem kept_execReadyReached {s0 s : State} (hk : Kept s0 s) :
    KeptO s0 (execReadyReached s) := by
  unfold execReadyReached
  repeat' first
    | with_reducible assumption | with_reducible apply kept_idle | with_reducible apply kept_reachReady | with_reducible apply keptO_ite
    | with_reducible apply keptO_next

theorem kept_execEmthrotAssert {s0 s : State} (hk : Kept s0 s) :
    KeptO s0 (execEmthrotAssert s) := by
  unfold execEmthrotAssert
  repeat' first
    | with_reducible assumption
    | (extract_lets +onlyGivenNames x; refine kept_cut (s0 := s0) (a := x) ?_ ?_; subst x; rotate_left; (intro _; clear_value x); rotate_left)
    | with_reducible apply kept_onPwr | with_reducible apply kept_raise | with_reducible apply kept_idle | with_reducible apply keptO_ite
    | with_reducible apply keptO_next | with_reducible apply kept_ite | (with_reducible intro _; with_reducible rfl)

theorem kept_execEmthrotRelease {s0 s : State} (hk : Kept s0 s) :
    KeptO s0 (execEmthrotRelease s) := by
  unfold execEmthrotRelease
  repeat' first
    | with_reducible assumption
    | (extract_lets +onlyGivenNames x; refine kept_cut (s0 := s0) (a := x) ?_ ?_; subst x; rotate_left; (intro _; clear_value x); rotate_left)
    | with_reducible apply kept_onPwr | with_reducible apply kept_raise | with_reducible apply kept_idle | with_reducible apply keptO_ite
    | with_reducible apply keptO_next | with_reducible apply kept_ite | (with_reducible intro _; with_reducible rfl)

theorem kept_rootLost {s0 s : State} (hk : Kept s0 s) : Kept s0 (State.rootLost s) := by
  unfold State.rootLost
  extract_lets s1
  have k1 : Kept s0 s1 := kept_foldl (fun _ _ k => kept_ite k (kept_toOff (kept_onDom k))) _ hk
  clear_value s1
  have k2 : Kept s1 { s1 with insts := [], hop := {} } := ⟨rfl, rfl, rfl, fun k => { k with insts := rfl, ch := rfl }, id⟩
  exact kept_boot (k1.trans k2) fun _ _ h => nomatch h

theorem kept_execRootLockLoss {s0 s : State} (hk : Kept s0 s) :
    KeptO s0 (execRootLockLoss s) := by
  unfold execRootLockLoss
  repeat' first
    | with_reducible assumption
    | (extract_lets +onlyGivenNames x; refine kept_cut (s0 := s0) (a := x) ?_ ?_; subst x; rotate_left; (intro _; clear_value x); rotate_left)
    | with_reducible apply kept_onBoot | with_reducible apply kept_idle | with_reducible apply kept_rootLost | with_reducible apply keptO_ite
    | with_reducible apply keptO_next | with_reducible apply kept_ite
    | (with_reducible intro _; with_reducible rfl)

theorem kept_execRootLockRise {s0 s : State} (hk : Kept s0 s) :
    KeptO s0 (execRootLockRise s) := by
  unfold execRootLockRise
  repeat' first
    | with_reducible assumption | with_reducible apply kept_onBoot | with_reducible apply kept_idle | with_reducible apply keptO_ite
    | with_reducible apply keptO_next
    | (with_reducible intro _; with_reducible rfl)

theorem kept_execRootStop {s0 s : State} (hk : Kept s0 s) :
    KeptO s0 (execRootStop s) := by
  unfold execRootStop
  repeat' first
    | with_reducible assumption | with_reducible apply kept_onBoot | with_reducible apply kept_idle | with_reducible apply keptO_ite
    | with_reducible apply keptO_next
    | (with_reducible intro _; with_reducible rfl)

theorem kept_execRootRestart {s0 s : State} (hk : Kept s0 s) :
    KeptO s0 (execRootRestart s) := by
  unfold execRootRestart
  repeat' first
    | with_reducible assumption | with_reducible apply kept_rootRestart | with_reducible apply keptO_next

theorem kept_execNiaWake {s0 s : State} (hk : Kept s0 s) :
    KeptO s0 (execNiaWake s) := by
  unfold execNiaWake
  repeat' first
    | with_reducible assumption | (extract_lets +onlyGivenNames x; subst x) | with_reducible apply kept_holdAccess
    | with_reducible apply kept_startMiller | with_reducible apply kept_idle | with_reducible apply keptO_ite | with_reducible apply keptO_next | rfl

theorem kept_readReg {s0 s : State} {a : Nat} (hk : Kept s0 s) :
    Kept s0 (State.readReg s a).1 := by
  unfold State.readReg
  repeat' first
    | with_reducible assumption
    | (extract_lets +onlyGivenNames x; refine kept_cut (s0 := s0) (a := x) ?_ ?_; subst x; rotate_left; (intro _; clear_value x); rotate_left)
    | (extract_lets +onlyGivenNames x; subst x) | with_reducible apply kept_dbgSample | split

theorem kept_mgtRead {s0 s : State} {a : Nat} (hk : Kept s0 s) :
    Kept s0 (State.mgtRead s a) := by
  unfold State.mgtRead
  repeat' first
    | with_reducible assumption
    | (extract_lets +onlyGivenNames x; refine kept_cut (s0 := s0) (a := x.1) ?_ ?_; subst x; rotate_left; (intro _; clear_value x); rotate_left)
    | (extract_lets +onlyGivenNames x; subst x) | with_reducible apply kept_onPins | with_reducible apply kept_readReg | with_reducible apply kept_ite

theorem kept_sbRead {s0 s : State} {off : Nat} (hk : Kept s0 s) :
    Kept s0 (State.sbRead s off) := by
  unfold State.sbRead
  repeat' first
    | with_reducible assumption | with_reducible apply kept_onPins | with_reducible apply kept_ite

theorem kept_execAccmDbgRead {s0 s : State} {b : Fin 32} (hk : Kept s0 s) :
    KeptO s0 (execAccmDbgRead b s) := by
  unfold execAccmDbgRead
  repeat' first
    | with_reducible assumption | with_reducible apply kept_holdAccess | with_reducible apply kept_mgtRead | with_reducible apply keptO_next
    | with_reducible apply kept_ite | rfl

theorem kept_pokeResv {s0 s : State} {r : Nat} {off : Nat} {v : Nat} (hk : Kept s0 s) :
    Kept s0 (State.pokeResv s r off v) := by
  unfold State.pokeResv
  repeat' first
    | with_reducible assumption
    | (extract_lets +onlyGivenNames x; refine kept_cut (s0 := s0) (a := x) ?_ ?_; subst x; rotate_left; (intro _; clear_value x); rotate_left)
    | with_reducible apply kept_onRv | with_reducible apply kept_revoke | with_reducible apply kept_admitRes | with_reducible apply kept_releaseRes
    | with_reducible apply kept_ite

theorem kept_pokeSluice {s0 s : State} {off : Nat} {v : Nat} (hk : Kept s0 s) :
    Kept s0 (State.pokeSluice s off v) := by
  unfold State.pokeSluice
  repeat' first
    | exact kc.same rfl | with_reducible assumption | with_reducible refine kept_onCx ?_ fun kc => ?_ | with_reducible apply kept_onSluice
    | with_reducible apply kept_writeAen | with_reducible apply kept_pokeResv | with_reducible apply kept_ite | split
    | (with_reducible intro _; with_reducible rfl)

theorem kept_pokePwu {s0 s : State} {off : Nat} {v : Nat} (hk : Kept s0 s) :
    Kept s0 (State.pokePwu s off v) := by
  unfold State.pokePwu
  repeat' first
    | with_reducible assumption
    | (extract_lets +onlyGivenNames x; refine kept_cut (s0 := s0) (a := x) ?_ ?_; subst x; rotate_left; (intro _; clear_value x); rotate_left)
    | with_reducible apply kept_onPool | with_reducible apply kept_onPwu | with_reducible apply kept_parkAbort | with_reducible apply kept_pwuCommit
    | with_reducible apply kept_ite | split | (with_reducible intro _; with_reducible rfl)

theorem kept_pokeBolter {s0 s : State} {off : Nat} {v : Nat} (hk : Kept s0 s) :
    Kept s0 (State.pokeBolter s off v) := by
  unfold State.pokeBolter
  repeat' first
    | exact kc.same rfl | with_reducible assumption | with_reducible refine kept_onCx ?_ fun kc => ?_ | with_reducible apply kept_onPwu
    | with_reducible apply kept_bolterClear | with_reducible apply kept_ite | split | (with_reducible intro _; with_reducible rfl)

theorem kept_pokeWeir {s0 s : State} {off : Nat} {v : Nat} (hk : Kept s0 s) :
    Kept s0 (State.pokeWeir s off v) := by
  unfold State.pokeWeir
  repeat' first
    | with_reducible assumption | with_reducible apply kept_writeCstate | split | with_reducible apply kept_weir

theorem kept_pokeLeat {s0 s : State} {off : Nat} {v : Nat} (hk : Kept s0 s) :
    Kept s0 (State.pokeLeat s off v) := by
  unfold State.pokeLeat
  repeat' first
    | with_reducible assumption
    | (extract_lets +onlyGivenNames x; refine kept_cut (s0 := s0) (a := x) ?_ ?_; subst x; rotate_left; (intro _; clear_value x); rotate_left)
    | with_reducible apply kept_onGroup | with_reducible apply kept_writeLinkEn | with_reducible apply kept_leatCommit | with_reducible apply kept_ite
    | split

theorem kept_pokeMem {s0 s : State} {off : Nat} {v : Nat} (hk : Kept s0 s) :
    Kept s0 (State.pokeMem s off v) := by
  unfold State.pokeMem
  repeat' first
    | with_reducible assumption
    | (extract_lets +onlyGivenNames x; refine kept_cut (s0 := s0) (a := x) ?_ ?_; subst x; rotate_left; (intro _; clear_value x); rotate_left)
    | (extract_lets +onlyGivenNames x; subst x) | with_reducible apply kept_ginvAll | with_reducible apply kept_ginvRange
    | with_reducible apply kept_ite | split | with_reducible apply kept_mem | dsimp only
    | (intro k; (try dsimp only); (repeat first | with_reducible apply Map.wf_set | with_reducible apply Map.wf_modify | with_reducible apply Map.wf_erase | with_reducible apply Map.wf_mapVals | with_reducible apply Map.wf_setMany | (with_reducible apply Map.wf_filter)); first | exact k.ext | exact k.ports | exact k.resv | exact k.pools | exact k.links | exact k.groups | exact k.ch | exact k.doms | exact k.store | exact k.ctx | exact k.insts)

theorem kept_pokeCtx {s0 s : State} {c : Nat} {off : Nat} {v : Nat} (hk : Kept s0 s) :
    Kept s0 (State.pokeCtx s c off v) := by
  unfold State.pokeCtx
  repeat' first
    | exact kc.same rfl | with_reducible assumption
    | (extract_lets +onlyGivenNames x; refine kept_cut (s0 := s0) (a := x) ?_ ?_; subst x; rotate_left; (intro _; clear_value x); rotate_left)
    | with_reducible refine kept_onCx ?_ fun kc => ?_ | with_reducible apply kept_ctxEnable | with_reducible apply kept_ctxReset
    | with_reducible apply kept_ctxResume | with_reducible apply kept_ctxCommit | with_reducible apply kept_ite | split

theorem kept_pokeSeq {s0 s : State} {off : Nat} {v : Nat} (hk : Kept s0 s) :
    Kept s0 (State.pokeSeq s off v) := by
  unfold State.pokeSeq
  repeat' first
    | with_reducible exact kc.onStream _ _ | with_reducible assumption
    | (extract_lets +onlyGivenNames x; refine kept_cut (s0 := s0) (a := x) ?_ ?_; subst x; rotate_left; (intro _; clear_value x); rotate_left)
    | (extract_lets +onlyGivenNames x; subst x) | with_reducible refine kept_onCx ?_ fun kc => ?_ | with_reducible apply kept_inject
    | with_reducible apply kept_streamClear | with_reducible apply kept_pokeCtx | with_reducible apply kept_ite | split
    | with_reducible apply kept_hop | dsimp only
    | (intro k; (try dsimp only); (repeat first | with_reducible apply Map.wf_set | with_reducible apply Map.wf_modify | with_reducible apply Map.wf_erase | with_reducible apply Map.wf_mapVals | with_reducible apply Map.wf_setMany | (with_reducible apply Map.wf_filter)); first | exact k.ext | exact k.ports | exact k.resv | exact k.pools | exact k.links | exact k.groups | exact k.ch | exact k.doms | exact k.store | exact k.ctx | exact k.insts)

theorem kept_goWrite {s0 s : State} {op : Bool} {v : Nat} (hk : Kept s0 s) :
    Kept s0 (State.goWrite s op v) := by
  unfold State.goWrite
  repeat' first
    | with_reducible assumption | with_reducible apply kept_scarfGo | with_reducible apply kept_scarfAbandon | with_reducible apply kept_ite

theorem kept_pokeProt {s0 s : State} {off : Nat} {v : Nat} (hk : Kept s0 s) :
    Kept s0 (State.pokeProt s off v) := by
  unfold State.pokeProt
  repeat' first
    | with_reducible assumption | with_reducible apply kept_fenceSet | with_reducible apply kept_fenceClr | with_reducible apply kept_stage
    | with_reducible apply kept_goWrite | split

theorem kept_pokePwrCmd {s0 s : State} {own : Bool} {v : Nat} (hk : Kept s0 s) :
    Kept s0 (State.pokePwrCmd s own v) := by
  unfold State.pokePwrCmd
  repeat' first
    | with_reducible assumption | with_reducible apply kept_onPwr | with_reducible apply kept_pwrCmd | (with_reducible intro _; with_reducible rfl)

theorem kept_pokePwr {s0 s : State} {off : Nat} {v : Nat} (hk : Kept s0 s) :
    Kept s0 (State.pokePwr s off v) := by
  unfold State.pokePwr
  repeat' first
    | with_reducible assumption | with_reducible apply kept_onDom | with_reducible apply kept_writeLimit | with_reducible apply kept_writeCdiv
    | with_reducible apply kept_writeVcode | with_reducible apply kept_pokePwrCmd | with_reducible apply kept_ite | split

theorem kept_pokeLog {s0 s : State} {off : Nat} {v : Nat} (hk : Kept s0 s) :
    Kept s0 (State.pokeLog s off v) := by
  unfold State.pokeLog
  repeat' first
    | with_reducible assumption | with_reducible apply kept_onLog | with_reducible apply kept_writeCons | split
    | (with_reducible intro _; with_reducible rfl)

theorem kept_pokeBay {s0 s : State} {b : Nat} {off : Nat} {v : Nat} (hk : Kept s0 s) :
    Kept s0 (State.pokeBay s b off v) := by
  unfold State.pokeBay
  repeat' first
    | with_reducible assumption | with_reducible apply kept_onBy | with_reducible apply kept_writeRecovery | split
    | ((with_reducible intro _ k); exact k)

theorem kept_regPoke {s0 s : State} {a : Nat} {v : Nat} (hk : Kept s0 s) :
    Kept s0 (State.regPoke s a v) := by
  unfold State.regPoke
  repeat' first
    | with_reducible assumption | (extract_lets +onlyGivenNames x; subst x) | with_reducible apply kept_pokeSluice | with_reducible apply kept_pokePwu
    | with_reducible apply kept_pokeBolter | with_reducible apply kept_pokeWeir | with_reducible apply kept_pokeLeat
    | with_reducible apply kept_pokeMem | with_reducible apply kept_pokeSeq | with_reducible apply kept_pokeProt | with_reducible apply kept_pokePwr
    | with_reducible apply kept_pokeLog | with_reducible apply kept_pokeBay | with_reducible apply kept_ite | split

theorem kept_writeReg {s0 s : State} {a : Nat} {v : Nat} (hk : Kept s0 s) :
    Kept s0 (State.writeReg s a v) := by
  unfold State.writeReg
  repeat' first
    | with_reducible assumption | with_reducible apply kept_gated | with_reducible apply kept_pokePwrCmd | with_reducible apply kept_regPoke
    | with_reducible apply kept_ite | (with_reducible intro _ _; try beta_reduce)

theorem kept_execMgtWrite {s0 s : State} {addr : BitVec 24} {v : W32} (hk : Kept s0 s) :
    KeptO s0 (execMgtWrite addr v s) := by
  unfold execMgtWrite
  repeat' first
    | with_reducible assumption | (extract_lets +onlyGivenNames x; subst x) | with_reducible apply kept_mgt | with_reducible apply kept_regPoke
    | with_reducible apply keptO_next | (with_reducible intro _ _; try beta_reduce) | rfl

theorem kept_tapGet {s0 s : State} {b : Nat} {t : TapTarget} (hk : Kept s0 s) :
    Kept s0 (State.tapGet s b t).1 := by
  unfold State.tapGet
  repeat' first
    | with_reducible assumption | with_reducible apply kept_readReg | split

theorem kept_tapPut {s0 s : State} {b : Nat} {t : TapTarget} {v : W32} (hk : Kept s0 s) :
    Kept s0 (State.tapPut s b t v) := by
  unfold State.tapPut
  repeat' first
    | with_reducible assumption
    | ((with_reducible intro _ hq); (show Map.wf 0 (Miller.store _) = true); (repeat first | assumption | (with_reducible apply Map.wf_set) | (with_reducible apply Map.wf_setMany) | split | (show Map.wf 0 (Miller.store (Miller.next _)) = true; unfold Miller.next) | dsimp only); done)
    | with_reducible apply kept_onMiller | with_reducible apply kept_tapWrite | with_reducible apply kept_regPoke | with_reducible apply kept_ite
    | split

theorem kept_execTapInstrumentAccess {s0 s : State} {b : Fin 32} {t : TapTarget} {v : Option W32} (hk : Kept s0 s) :
    KeptO s0 (execTapInstrumentAccess b t v s) := by
  unfold execTapInstrumentAccess
  repeat' first
    | with_reducible assumption
    | (extract_lets +onlyGivenNames x; refine kept_cut (s0 := s0) (a := x.1) ?_ ?_; subst x; rotate_left; (intro _; clear_value x); rotate_left)
    | with_reducible apply kept_onPins | with_reducible apply kept_idle | with_reducible apply kept_tapGet | with_reducible apply kept_tapPut
    | with_reducible apply keptO_ite | with_reducible apply keptO_next | split

theorem kept_ctxPriv {s0 s : State} {op : Nat} {c : Nat} {w : W32} (hk : Kept s0 s) :
    KeptO s0 (ctxPriv op c w s) := by
  unfold ctxPriv
  repeat' first
    | with_reducible assumption | with_reducible apply kept_refuseScalar | with_reducible apply kept_ctxShort | with_reducible apply keptO_next
    | (with_reducible intro _ _; try beta_reduce)

theorem kept_execMrd {s0 s : State} {x : Exe} {w : W32} (hk : Kept s0 s) :
    KeptO s0 (execMrd x w s) := by
  unfold execMrd
  repeat' first
    | with_reducible assumption
    | ((with_reducible intro _ hq); (show Map.wf 0 (Miller.store _) = true); (repeat first | assumption | (with_reducible apply Map.wf_set) | (with_reducible apply Map.wf_setMany) | split | (show Map.wf 0 (Miller.store (Miller.next _)) = true; unfold Miller.next) | dsimp only); done)
    | (extract_lets +onlyGivenNames x; refine kept_cut (s0 := s0) (a := x.1) ?_ ?_; subst x; rotate_left; (intro _; clear_value x); rotate_left)
    | with_reducible apply kept_onMiller | with_reducible apply kept_millerShort | with_reducible apply kept_readReg
    | with_reducible apply kept_ctxPriv | with_reducible apply keptO_next | split | (with_reducible intro _ _; try beta_reduce)

theorem kept_execMwr {s0 s : State} {x : Exe} {w : W32} (hk : Kept s0 s) :
    KeptO s0 (execMwr x w s) := by
  unfold execMwr
  repeat' first
    | with_reducible assumption
    | ((with_reducible intro _ hq); (show Map.wf 0 (Miller.store _) = true); (repeat first | assumption | (with_reducible apply Map.wf_set) | (with_reducible apply Map.wf_setMany) | split | (show Map.wf 0 (Miller.store (Miller.next _)) = true; unfold Miller.next) | dsimp only); done)
    | (extract_lets +onlyGivenNames x; refine kept_cut (s0 := s0) (a := x) ?_ ?_; subst x; rotate_left; (intro _; clear_value x); rotate_left)
    | with_reducible apply kept_onMiller | with_reducible apply kept_millerShort | with_reducible apply kept_writeReg
    | with_reducible apply kept_ctxPriv | with_reducible apply keptO_next | split | (with_reducible intro _ _; try beta_reduce)

theorem kept_execEvq {s0 s : State} {x : Exe} {w : W32} (hk : Kept s0 s) :
    KeptO s0 (execEvq x w s) := by
  unfold execEvq
  repeat' first
    | with_reducible assumption
    | ((with_reducible intro _ hq); (show Map.wf 0 (Miller.store _) = true); (repeat first | assumption | (with_reducible apply Map.wf_set) | (with_reducible apply Map.wf_setMany) | split | (show Map.wf 0 (Miller.store (Miller.next _)) = true; unfold Miller.next) | dsimp only); done)
    | (extract_lets +onlyGivenNames x; refine kept_cut (s0 := s0) (a := x) ?_ ?_; subst x; rotate_left; (intro _; clear_value x); rotate_left)
    | with_reducible apply kept_onLog | with_reducible apply kept_onMiller | with_reducible apply kept_millerShort | with_reducible apply kept_ctxPriv
    | with_reducible apply keptO_next | split | (with_reducible intro _; with_reducible rfl) | (with_reducible intro _ _; try beta_reduce)

theorem kept_execWfe {s0 s : State} {x : Exe} {w : W32} (hk : Kept s0 s) :
    KeptO s0 (execWfe x w s) := by
  unfold execWfe
  repeat' first
    | with_reducible assumption
    | ((with_reducible intro _ hq); (show Map.wf 0 (Miller.store _) = true); (repeat first | assumption | (with_reducible apply Map.wf_set) | (with_reducible apply Map.wf_setMany) | split | (show Map.wf 0 (Miller.store (Miller.next _)) = true; unfold Miller.next) | dsimp only); done)
    | with_reducible apply kept_onMiller | with_reducible apply kept_millerShort | with_reducible apply kept_ctxPriv | with_reducible apply keptO_ite
    | with_reducible apply keptO_next | split | (with_reducible intro _ _; try beta_reduce)

theorem kept_execWfeRelease {s0 s : State} (hk : Kept s0 s) :
    KeptO s0 (execWfeRelease s) := by
  unfold execWfeRelease
  repeat' first
    | with_reducible assumption
    | ((with_reducible intro _ hq); (show Map.wf 0 (Miller.store _) = true); (repeat first | assumption | (with_reducible apply Map.wf_set) | (with_reducible apply Map.wf_setMany) | split | (show Map.wf 0 (Miller.store (Miller.next _)) = true; unfold Miller.next) | dsimp only); done)
    | with_reducible apply kept_onMiller | with_reducible apply kept_idle | with_reducible apply keptO_ite | with_reducible apply keptO_next

theorem kept_execMillerFault {s0 s : State} (hk : Kept s0 s) :
    KeptO s0 (execMillerFault s) := by
  unfold execMillerFault
  repeat' first
    | with_reducible assumption | with_reducible apply kept_idle | with_reducible apply kept_millerFaultP | with_reducible apply keptO_ite
    | with_reducible apply keptO_next | split

theorem kept_idleTick {s0 s : State} (hk : Kept s0 s) :
    Kept s0 (State.idleTick s) := by
  unfold State.idleTick
  repeat' first
    | with_reducible assumption | with_reducible apply kept_onDom | with_reducible apply kept_foldl | with_reducible apply kept_ite
    | (with_reducible intro _ _ _; try beta_reduce)

theorem kept_divNow {s0 s : State} (hk : Kept s0 s) :
    Kept s0 (State.divNow s) := by
  unfold State.divNow
  repeat' first
    | with_reducible assumption | (extract_lets +onlyGivenNames x; subst x) | with_reducible apply kept_ite | with_reducible apply kept_pwr
    | dsimp only
    | (intro k; (try dsimp only); (repeat first | with_reducible apply Map.wf_set | with_reducible apply Map.wf_modify | with_reducible apply Map.wf_erase | with_reducible apply Map.wf_mapVals | with_reducible apply Map.wf_setMany | (with_reducible apply Map.wf_filter)); first | exact k.ext | exact k.ports | exact k.resv | exact k.pools | exact k.links | exact k.groups | exact k.ch | exact k.doms | exact k.store | exact k.ctx | exact k.insts)

theorem kept_clocked {s0 s : State} (hk : Kept s0 s) :
    Kept s0 (State.clocked s) := by
  unfold State.clocked
  repeat' first
    | with_reducible assumption
    | (extract_lets +onlyGivenNames x; refine kept_cut (s0 := s0) (a := x) ?_ ?_; subst x; rotate_left; (intro _; clear_value x); rotate_left)
    | (extract_lets +onlyGivenNames x; subst x) | with_reducible apply kept_hearHopper | with_reducible apply kept_seeVgood
    | with_reducible apply kept_rootWait | with_reducible apply kept_idleTick | with_reducible apply kept_divNow | with_reducible apply kept_ite
    | with_reducible apply kept_time

theorem kept_storeError {s0 s : State} (hk : Kept s0 s) :
    Kept s0 (State.storeError s) := by
  unfold State.storeError
  repeat' first
    | with_reducible assumption | (extract_lets +onlyGivenNames x; subst x) | with_reducible apply kept_onPorts
    | with_reducible apply kept_poisonUnits | with_reducible apply kept_ite | split | with_reducible apply kept_mem | dsimp only
    | (intro k; (try dsimp only); (repeat first | with_reducible apply Map.wf_set | with_reducible apply Map.wf_modify | with_reducible apply Map.wf_erase | with_reducible apply Map.wf_mapVals | with_reducible apply Map.wf_setMany | (with_reducible apply Map.wf_filter)); first | exact k.ext | exact k.ports | exact k.resv | exact k.pools | exact k.links | exact k.groups | exact k.ch | exact k.doms | exact k.store | exact k.ctx | exact k.insts)

theorem kept_tick {s0 s : State} (hk : Kept s0 s) :
    Kept s0 (State.tick s) := by
  unfold State.tick
  repeat' first
    | with_reducible assumption | with_reducible apply kept_clocked | with_reducible apply kept_storeError

end Sys2Proof.Machine
end

