-- ==== Sys2Proof/Laws/Memory.lean ====
section
/-!
SUPPORT. What the memory operations do: the bytes that a write changes, and what a wake, an offer and a queued request
leave alone.
-/

namespace Sys2Proof.Machine

/-! ### Bytes -/

theorem cells_cons (a : Nat) (b : Byte) (bs : List Byte) : cells a (b :: bs) = (a, b) :: cells (a + 1) bs := by
  unfold cells
  rw [List.length_cons, List.range_succ_eq_map, List.zip_cons_cons, List.map_cons, Nat.add_zero, List.zip_map_left, List.map_map]
  congr 1
  apply List.map_congr_left
  intro p _
  show (a + (p.1 + 1), p.2) = (a + 1 + p.1, p.2)
  rw [Nat.add_assoc, Nat.add_comm 1]

/-- A byte after a run of bytes is written. -/
theorem get_setMany_cells {m : Map Byte} (h : Map.wf 0 m = true) (a : Nat) (bs : List Byte) (b : Nat) :
    Map.get 0 (Map.setMany 0 m (cells a bs)) b = if a ≤ b ∧ b < a + bs.length then bs.getD (b - a) 0 else Map.get 0 m b := by
  induction bs generalizing m a with
  | nil =>
    rw [if_neg (by simp only [List.length_nil]; omega)]
    rfl
  | cons x xs ih =>
    rw [cells_cons]
    simp only [Map.setMany]
    rw [ih (Map.wf_set h _ _) (a + 1), Map.get_set h]
    simp only [List.length_cons]
    by_cases h1 : b = a
    · subst h1
      rw [if_neg (by omega), if_pos rfl, if_pos (by omega)]
      simp
    · rw [if_neg h1]
      by_cases h2 : a + 1 ≤ b ∧ b < a + 1 + xs.length
      · rw [if_pos h2, if_pos (by omega), show b - a = (b - (a + 1)) + 1 by omega]
        simp
      · rw [if_neg h2, if_neg (by omega)]

theorem natLe_length (n x : Nat) : (natLe n x).length = n := by
  induction n generalizing x with
  | zero => rfl
  | succ n ih => simp [natLe, ih]

/-- Byte `k` of the little-endian bytes of a number. -/
theorem natLe_getD (n x k : Nat) (h : k < n) : (natLe n x).getD k 0 = BitVec.ofNat 8 (x / 256 ^ k) := by
  induction n generalizing x k with
  | zero => omega
  | succ n ih =>
    cases k with
    | zero => simp [natLe]
    | succ k =>
      simp only [natLe, List.getD_cons_succ]
      rw [ih (x / 256) k (by omega), Nat.pow_succ, Nat.mul_comm, Nat.div_div_eq_div_mul]

/-! ### What is left alone -/

/-- A wake changes the power domains only. -/
theorem wakeDom_only (s : State) (d : Nat) : ∃ q, s.wakeDom d = { s with pwr := q } := by
  unfold State.wakeDom
  dsimp only
  repeat' split
  all_goals exact ⟨_, rfl⟩

/-- An offer moves requests within its port. -/
theorem offer_only (p n : Nat) (s : State) : ∃ q, State.offer p n s = { s with mem := { s.mem with ports := q } } := by
  induction n generalizing s with
  | zero => exact ⟨_, rfl⟩
  | succ n ih =>
    unfold State.offer
    dsimp only
    split
    · exact ⟨_, rfl⟩
    · split
      · exact ⟨_, rfl⟩
      · split
        · exact ⟨_, rfl⟩
        · obtain ⟨q, hq⟩ := ih (s.onPort p _)
          exact ⟨q, hq⟩

/-- A request changes the ports, the count of requests and the power domains only. -/
theorem queueReq_only (s : State) (r : Req) :
    ∃ q w, s.queueReq r = { s with mem := { s.mem with ports := q, nextSeq := s.mem.nextSeq + 1 }, pwr := w } := by
  let p := homePort r.addr
  let s2 := State.onPort { s with mem := { s.mem with nextSeq := s.mem.nextSeq + 1 } } p fun x =>
    { x with waiting := x.waiting ++ [{ r with seq := if r.seq = 0 then s.mem.nextSeq else r.seq }] }
  obtain ⟨w, hw⟩ := wakeDom_only s2 (32 + p / 4)
  obtain ⟨q, hq⟩ := offer_only p 8 (s2.wakeDom (32 + p / 4))
  refine ⟨q, w, ?_⟩
  show State.offer p 8 (s2.wakeDom (32 + p / 4)) = _
  rw [hq, hw]
  rfl

/-- A write queued at a place changes memory, the ports and the power domains only: of memory the bytes of its run. -/
theorem queueWriteAt_only (s : State) (n d : Nat) (clsA : Bool) (y : Why) (a : Nat) (bs : List Byte) (bad : Bool) :
    ∃ q w, s.queueWriteAt n d clsA y a bs bad = { s with
      mem := { s.mem with ext := Map.setMany 0 s.mem.ext (cells a bs), gran := Map.erase s.mem.gran (a / 128), ports := q,
                          nextSeq := s.mem.nextSeq + 1 },
      pwr := w } := by
  unfold State.queueWriteAt
  exact queueReq_only { s with mem := { s.mem with ext := Map.setMany 0 s.mem.ext (cells a bs), gran := Map.erase s.mem.gran (a / 128) } } _

/-- The updates of a line that go first change the bytes of that line and the ports only. -/
theorem addFirst_only (s : State) (l : Nat) :
    ∃ bs q, s.addFirst l = { s with mem := { s.mem with ext := Map.setMany 0 s.mem.ext (cells l bs), ports := q } } := by
  unfold State.addFirst
  split
  · exact ⟨[], s.mem.ports, rfl⟩
  · exact ⟨_, _, rfl⟩

/-- Where no entry update of the line is pending, nothing goes first. -/
theorem addFirst_none {s : State} {l : Nat} (h : ((s.adds l).filter fun a => !a.hdr) = []) : s.addFirst l = s := by
  unfold State.addFirst
  rw [h]

/-- A queued write gives the bytes of its run; the other bytes are those after the updates that go first. -/
theorem queueWrite_byte {s : State} (d : Nat) (clsA : Bool) (y : Why) (a : Nat) (bs : List Byte) (bad : Bool) (b : Nat)
    (h : Map.wf 0 (s.addFirst (a / 64 * 64)).mem.ext = true) :
    (s.queueWrite d clsA y a bs bad).extByte b =
      if a ≤ b ∧ b < a + bs.length then bs.getD (b - a) 0 else (s.addFirst (a / 64 * 64)).extByte b := by
  obtain ⟨q, w, e⟩ := queueWriteAt_only (s.addFirst (a / 64 * 64)) 0 d clsA y a bs bad
  unfold State.queueWrite
  rw [e]
  exact get_setMany_cells h a bs b

/-- A queued read changes the ports, the count of requests and the power domains only. -/
theorem queueRead_only (s : State) (d : Nat) (clsA : Bool) (y : Why) (a n : Nat) (fill : Bool) (t : List Tgt) :
    ∃ q w, s.queueRead d clsA y a n fill t = { s with mem := { s.mem with ports := q, nextSeq := s.mem.nextSeq + 1 }, pwr := w } :=
  queueReq_only s _

end Sys2Proof.Machine
end

