-- ==== Sys2Proof/Laws/Rows.lean ====
section
/-!
SUPPORT. The rows that issue as tensor instructions: each is the shared issue path with what its row gives, and its words
name an opcode of R351.
-/

namespace Sys2Proof.Machine

/-- A well-formed tensor instruction is the shared issue path of its row. -/
theorem tensorRow_issue {i : Instr} {r : TRow} {c : Nat} {w : Long} (h : tensorRow i = some (r, c, w)) (hi : i.wf = true) (s : State) :
    exec i s = issueTensor r c w s ∧ bitOf w.w0.toNat 0 = true ∧ longOpcodes.contains w.opc = true ∧ (w.opc == r.opc && r.form w) = true := by
  cases i <;> simp only [tensorRow, Option.some.injEq, Prod.mk.injEq, reduceCtorEq] at h
  all_goals obtain ⟨rfl, rfl, rfl⟩ := h
  all_goals refine ⟨rfl, ?_⟩
  all_goals simp only [Instr.wf, longIs, Bool.and_eq_true, beq_iff_eq] at hi
  all_goals (try obtain ⟨⟨h1, h2⟩, h3⟩ := hi)
  all_goals (try obtain ⟨h1, h2⟩ := hi)
  all_goals refine ⟨h1, by rw [h2]; decide, ?_⟩
  all_goals rw [h2]
  all_goals first
    | rfl
    | (simp [fnxRowDef, fnxRowOf, fnxLoadRow, kvapRow, attmRow, pgcwRow, pgfrRow, pgfrLogRow, pwuRow, wredRow, TRow.plain, h3]; done)
    | (simp only [Bool.or_eq_true, beq_iff_eq] at h3; simp [wredRow, TRow.plain]; rcases h3 with h | h <;> simp [h]; done)

end Sys2Proof.Machine
end

