-- ==== Sys2Proof/Laws/State.lean ====
section
/-!
SUPPORT. What each update of the state leaves alone, one lemma per field per update, and what a read after an indexed
update gives.
-/

namespace Sys2Proof.Machine

variable (s : State)

/-! ### State.onCx -/

@[simp] theorem onCx_core (c : Nat) (f : Ctx → Ctx) : (s.onCx c f).core = s.core := rfl
@[simp] theorem onCx_bay (c : Nat) (f : Ctx → Ctx) : (s.onCx c f).bay = s.bay := rfl
@[simp] theorem onCx_insts (c : Nat) (f : Ctx → Ctx) : (s.onCx c f).insts = s.insts := rfl
@[simp] theorem onCx_nextInst (c : Nat) (f : Ctx → Ctx) : (s.onCx c f).nextInst = s.nextInst := rfl
@[simp] theorem onCx_mem (c : Nat) (f : Ctx → Ctx) : (s.onCx c f).mem = s.mem := rfl
@[simp] theorem onCx_sluice (c : Nat) (f : Ctx → Ctx) : (s.onCx c f).sluice = s.sluice := rfl
@[simp] theorem onCx_pwu (c : Nat) (f : Ctx → Ctx) : (s.onCx c f).pwu = s.pwu := rfl
@[simp] theorem onCx_leat (c : Nat) (f : Ctx → Ctx) : (s.onCx c f).leat = s.leat := rfl
@[simp] theorem onCx_weir (c : Nat) (f : Ctx → Ctx) : (s.onCx c f).weir = s.weir := rfl
@[simp] theorem onCx_hop (c : Nat) (f : Ctx → Ctx) : (s.onCx c f).hop = s.hop := rfl
@[simp] theorem onCx_prot (c : Nat) (f : Ctx → Ctx) : (s.onCx c f).prot = s.prot := rfl
@[simp] theorem onCx_log (c : Nat) (f : Ctx → Ctx) : (s.onCx c f).log = s.log := rfl
@[simp] theorem onCx_pwr (c : Nat) (f : Ctx → Ctx) : (s.onCx c f).pwr = s.pwr := rfl
@[simp] theorem onCx_fuse (c : Nat) (f : Ctx → Ctx) : (s.onCx c f).fuse = s.fuse := rfl
@[simp] theorem onCx_boot (c : Nat) (f : Ctx → Ctx) : (s.onCx c f).boot = s.boot := rfl
@[simp] theorem onCx_miller (c : Nat) (f : Ctx → Ctx) : (s.onCx c f).miller = s.miller := rfl
@[simp] theorem onCx_time (c : Nat) (f : Ctx → Ctx) : (s.onCx c f).time = s.time := rfl
@[simp] theorem onCx_pins (c : Nat) (f : Ctx → Ctx) : (s.onCx c f).pins = s.pins := rfl
@[simp] theorem onCx_pending (c : Nat) (f : Ctx → Ctx) : (s.onCx c f).pending = s.pending := rfl

/-! ### State.onCo -/

@[simp] theorem onCo_ctx (g : Nat) (f : Core → Core) : (s.onCo g f).ctx = s.ctx := rfl
@[simp] theorem onCo_bay (g : Nat) (f : Core → Core) : (s.onCo g f).bay = s.bay := rfl
@[simp] theorem onCo_insts (g : Nat) (f : Core → Core) : (s.onCo g f).insts = s.insts := rfl
@[simp] theorem onCo_nextInst (g : Nat) (f : Core → Core) : (s.onCo g f).nextInst = s.nextInst := rfl
@[simp] theorem onCo_mem (g : Nat) (f : Core → Core) : (s.onCo g f).mem = s.mem := rfl
@[simp] theorem onCo_sluice (g : Nat) (f : Core → Core) : (s.onCo g f).sluice = s.sluice := rfl
@[simp] theorem onCo_pwu (g : Nat) (f : Core → Core) : (s.onCo g f).pwu = s.pwu := rfl
@[simp] theorem onCo_leat (g : Nat) (f : Core → Core) : (s.onCo g f).leat = s.leat := rfl
@[simp] theorem onCo_weir (g : Nat) (f : Core → Core) : (s.onCo g f).weir = s.weir := rfl
@[simp] theorem onCo_hop (g : Nat) (f : Core → Core) : (s.onCo g f).hop = s.hop := rfl
@[simp] theorem onCo_prot (g : Nat) (f : Core → Core) : (s.onCo g f).prot = s.prot := rfl
@[simp] theorem onCo_log (g : Nat) (f : Core → Core) : (s.onCo g f).log = s.log := rfl
@[simp] theorem onCo_pwr (g : Nat) (f : Core → Core) : (s.onCo g f).pwr = s.pwr := rfl
@[simp] theorem onCo_fuse (g : Nat) (f : Core → Core) : (s.onCo g f).fuse = s.fuse := rfl
@[simp] theorem onCo_boot (g : Nat) (f : Core → Core) : (s.onCo g f).boot = s.boot := rfl
@[simp] theorem onCo_miller (g : Nat) (f : Core → Core) : (s.onCo g f).miller = s.miller := rfl
@[simp] theorem onCo_time (g : Nat) (f : Core → Core) : (s.onCo g f).time = s.time := rfl
@[simp] theorem onCo_pins (g : Nat) (f : Core → Core) : (s.onCo g f).pins = s.pins := rfl
@[simp] theorem onCo_pending (g : Nat) (f : Core → Core) : (s.onCo g f).pending = s.pending := rfl

/-! ### State.onBy -/

@[simp] theorem onBy_ctx (b : Nat) (f : Bay → Bay) : (s.onBy b f).ctx = s.ctx := rfl
@[simp] theorem onBy_core (b : Nat) (f : Bay → Bay) : (s.onBy b f).core = s.core := rfl
@[simp] theorem onBy_insts (b : Nat) (f : Bay → Bay) : (s.onBy b f).insts = s.insts := rfl
@[simp] theorem onBy_nextInst (b : Nat) (f : Bay → Bay) : (s.onBy b f).nextInst = s.nextInst := rfl
@[simp] theorem onBy_mem (b : Nat) (f : Bay → Bay) : (s.onBy b f).mem = s.mem := rfl
@[simp] theorem onBy_sluice (b : Nat) (f : Bay → Bay) : (s.onBy b f).sluice = s.sluice := rfl
@[simp] theorem onBy_pwu (b : Nat) (f : Bay → Bay) : (s.onBy b f).pwu = s.pwu := rfl
@[simp] theorem onBy_leat (b : Nat) (f : Bay → Bay) : (s.onBy b f).leat = s.leat := rfl
@[simp] theorem onBy_weir (b : Nat) (f : Bay → Bay) : (s.onBy b f).weir = s.weir := rfl
@[simp] theorem onBy_hop (b : Nat) (f : Bay → Bay) : (s.onBy b f).hop = s.hop := rfl
@[simp] theorem onBy_prot (b : Nat) (f : Bay → Bay) : (s.onBy b f).prot = s.prot := rfl
@[simp] theorem onBy_log (b : Nat) (f : Bay → Bay) : (s.onBy b f).log = s.log := rfl
@[simp] theorem onBy_pwr (b : Nat) (f : Bay → Bay) : (s.onBy b f).pwr = s.pwr := rfl
@[simp] theorem onBy_fuse (b : Nat) (f : Bay → Bay) : (s.onBy b f).fuse = s.fuse := rfl
@[simp] theorem onBy_boot (b : Nat) (f : Bay → Bay) : (s.onBy b f).boot = s.boot := rfl
@[simp] theorem onBy_miller (b : Nat) (f : Bay → Bay) : (s.onBy b f).miller = s.miller := rfl
@[simp] theorem onBy_time (b : Nat) (f : Bay → Bay) : (s.onBy b f).time = s.time := rfl
@[simp] theorem onBy_pins (b : Nat) (f : Bay → Bay) : (s.onBy b f).pins = s.pins := rfl
@[simp] theorem onBy_pending (b : Nat) (f : Bay → Bay) : (s.onBy b f).pending = s.pending := rfl

/-! ### State.onPort -/

@[simp] theorem onPort_ctx (p : Nat) (f : Port → Port) : (s.onPort p f).ctx = s.ctx := rfl
@[simp] theorem onPort_core (p : Nat) (f : Port → Port) : (s.onPort p f).core = s.core := rfl
@[simp] theorem onPort_bay (p : Nat) (f : Port → Port) : (s.onPort p f).bay = s.bay := rfl
@[simp] theorem onPort_insts (p : Nat) (f : Port → Port) : (s.onPort p f).insts = s.insts := rfl
@[simp] theorem onPort_nextInst (p : Nat) (f : Port → Port) : (s.onPort p f).nextInst = s.nextInst := rfl
@[simp] theorem onPort_sluice (p : Nat) (f : Port → Port) : (s.onPort p f).sluice = s.sluice := rfl
@[simp] theorem onPort_pwu (p : Nat) (f : Port → Port) : (s.onPort p f).pwu = s.pwu := rfl
@[simp] theorem onPort_leat (p : Nat) (f : Port → Port) : (s.onPort p f).leat = s.leat := rfl
@[simp] theorem onPort_weir (p : Nat) (f : Port → Port) : (s.onPort p f).weir = s.weir := rfl
@[simp] theorem onPort_hop (p : Nat) (f : Port → Port) : (s.onPort p f).hop = s.hop := rfl
@[simp] theorem onPort_prot (p : Nat) (f : Port → Port) : (s.onPort p f).prot = s.prot := rfl
@[simp] theorem onPort_log (p : Nat) (f : Port → Port) : (s.onPort p f).log = s.log := rfl
@[simp] theorem onPort_pwr (p : Nat) (f : Port → Port) : (s.onPort p f).pwr = s.pwr := rfl
@[simp] theorem onPort_fuse (p : Nat) (f : Port → Port) : (s.onPort p f).fuse = s.fuse := rfl
@[simp] theorem onPort_boot (p : Nat) (f : Port → Port) : (s.onPort p f).boot = s.boot := rfl
@[simp] theorem onPort_miller (p : Nat) (f : Port → Port) : (s.onPort p f).miller = s.miller := rfl
@[simp] theorem onPort_time (p : Nat) (f : Port → Port) : (s.onPort p f).time = s.time := rfl
@[simp] theorem onPort_pins (p : Nat) (f : Port → Port) : (s.onPort p f).pins = s.pins := rfl
@[simp] theorem onPort_pending (p : Nat) (f : Port → Port) : (s.onPort p f).pending = s.pending := rfl

/-! ### State.onPorts -/

@[simp] theorem onPorts_ctx (f : Port → Port) : (s.onPorts f).ctx = s.ctx := rfl
@[simp] theorem onPorts_core (f : Port → Port) : (s.onPorts f).core = s.core := rfl
@[simp] theorem onPorts_bay (f : Port → Port) : (s.onPorts f).bay = s.bay := rfl
@[simp] theorem onPorts_insts (f : Port → Port) : (s.onPorts f).insts = s.insts := rfl
@[simp] theorem onPorts_nextInst (f : Port → Port) : (s.onPorts f).nextInst = s.nextInst := rfl
@[simp] theorem onPorts_sluice (f : Port → Port) : (s.onPorts f).sluice = s.sluice := rfl
@[simp] theorem onPorts_pwu (f : Port → Port) : (s.onPorts f).pwu = s.pwu := rfl
@[simp] theorem onPorts_leat (f : Port → Port) : (s.onPorts f).leat = s.leat := rfl
@[simp] theorem onPorts_weir (f : Port → Port) : (s.onPorts f).weir = s.weir := rfl
@[simp] theorem onPorts_hop (f : Port → Port) : (s.onPorts f).hop = s.hop := rfl
@[simp] theorem onPorts_prot (f : Port → Port) : (s.onPorts f).prot = s.prot := rfl
@[simp] theorem onPorts_log (f : Port → Port) : (s.onPorts f).log = s.log := rfl
@[simp] theorem onPorts_pwr (f : Port → Port) : (s.onPorts f).pwr = s.pwr := rfl
@[simp] theorem onPorts_fuse (f : Port → Port) : (s.onPorts f).fuse = s.fuse := rfl
@[simp] theorem onPorts_boot (f : Port → Port) : (s.onPorts f).boot = s.boot := rfl
@[simp] theorem onPorts_miller (f : Port → Port) : (s.onPorts f).miller = s.miller := rfl
@[simp] theorem onPorts_time (f : Port → Port) : (s.onPorts f).time = s.time := rfl
@[simp] theorem onPorts_pins (f : Port → Port) : (s.onPorts f).pins = s.pins := rfl
@[simp] theorem onPorts_pending (f : Port → Port) : (s.onPorts f).pending = s.pending := rfl

/-! ### State.onInsts -/

@[simp] theorem onInsts_ctx (f : Inst → Inst) : (s.onInsts f).ctx = s.ctx := rfl
@[simp] theorem onInsts_core (f : Inst → Inst) : (s.onInsts f).core = s.core := rfl
@[simp] theorem onInsts_bay (f : Inst → Inst) : (s.onInsts f).bay = s.bay := rfl
@[simp] theorem onInsts_nextInst (f : Inst → Inst) : (s.onInsts f).nextInst = s.nextInst := rfl
@[simp] theorem onInsts_mem (f : Inst → Inst) : (s.onInsts f).mem = s.mem := rfl
@[simp] theorem onInsts_sluice (f : Inst → Inst) : (s.onInsts f).sluice = s.sluice := rfl
@[simp] theorem onInsts_pwu (f : Inst → Inst) : (s.onInsts f).pwu = s.pwu := rfl
@[simp] theorem onInsts_leat (f : Inst → Inst) : (s.onInsts f).leat = s.leat := rfl
@[simp] theorem onInsts_weir (f : Inst → Inst) : (s.onInsts f).weir = s.weir := rfl
@[simp] theorem onInsts_hop (f : Inst → Inst) : (s.onInsts f).hop = s.hop := rfl
@[simp] theorem onInsts_prot (f : Inst → Inst) : (s.onInsts f).prot = s.prot := rfl
@[simp] theorem onInsts_log (f : Inst → Inst) : (s.onInsts f).log = s.log := rfl
@[simp] theorem onInsts_pwr (f : Inst → Inst) : (s.onInsts f).pwr = s.pwr := rfl
@[simp] theorem onInsts_fuse (f : Inst → Inst) : (s.onInsts f).fuse = s.fuse := rfl
@[simp] theorem onInsts_boot (f : Inst → Inst) : (s.onInsts f).boot = s.boot := rfl
@[simp] theorem onInsts_miller (f : Inst → Inst) : (s.onInsts f).miller = s.miller := rfl
@[simp] theorem onInsts_time (f : Inst → Inst) : (s.onInsts f).time = s.time := rfl
@[simp] theorem onInsts_pins (f : Inst → Inst) : (s.onInsts f).pins = s.pins := rfl
@[simp] theorem onInsts_pending (f : Inst → Inst) : (s.onInsts f).pending = s.pending := rfl

/-! ### State.onLink -/

@[simp] theorem onLink_ctx (l : Nat) (f : Link → Link) : (s.onLink l f).ctx = s.ctx := rfl
@[simp] theorem onLink_core (l : Nat) (f : Link → Link) : (s.onLink l f).core = s.core := rfl
@[simp] theorem onLink_bay (l : Nat) (f : Link → Link) : (s.onLink l f).bay = s.bay := rfl
@[simp] theorem onLink_insts (l : Nat) (f : Link → Link) : (s.onLink l f).insts = s.insts := rfl
@[simp] theorem onLink_nextInst (l : Nat) (f : Link → Link) : (s.onLink l f).nextInst = s.nextInst := rfl
@[simp] theorem onLink_mem (l : Nat) (f : Link → Link) : (s.onLink l f).mem = s.mem := rfl
@[simp] theorem onLink_sluice (l : Nat) (f : Link → Link) : (s.onLink l f).sluice = s.sluice := rfl
@[simp] theorem onLink_pwu (l : Nat) (f : Link → Link) : (s.onLink l f).pwu = s.pwu := rfl
@[simp] theorem onLink_weir (l : Nat) (f : Link → Link) : (s.onLink l f).weir = s.weir := rfl
@[simp] theorem onLink_hop (l : Nat) (f : Link → Link) : (s.onLink l f).hop = s.hop := rfl
@[simp] theorem onLink_prot (l : Nat) (f : Link → Link) : (s.onLink l f).prot = s.prot := rfl
@[simp] theorem onLink_log (l : Nat) (f : Link → Link) : (s.onLink l f).log = s.log := rfl
@[simp] theorem onLink_pwr (l : Nat) (f : Link → Link) : (s.onLink l f).pwr = s.pwr := rfl
@[simp] theorem onLink_fuse (l : Nat) (f : Link → Link) : (s.onLink l f).fuse = s.fuse := rfl
@[simp] theorem onLink_boot (l : Nat) (f : Link → Link) : (s.onLink l f).boot = s.boot := rfl
@[simp] theorem onLink_miller (l : Nat) (f : Link → Link) : (s.onLink l f).miller = s.miller := rfl
@[simp] theorem onLink_time (l : Nat) (f : Link → Link) : (s.onLink l f).time = s.time := rfl
@[simp] theorem onLink_pins (l : Nat) (f : Link → Link) : (s.onLink l f).pins = s.pins := rfl
@[simp] theorem onLink_pending (l : Nat) (f : Link → Link) : (s.onLink l f).pending = s.pending := rfl

/-! ### State.onGroup -/

@[simp] theorem onGroup_ctx (g : Nat) (f : LinkGroup → LinkGroup) : (s.onGroup g f).ctx = s.ctx := rfl
@[simp] theorem onGroup_core (g : Nat) (f : LinkGroup → LinkGroup) : (s.onGroup g f).core = s.core := rfl
@[simp] theorem onGroup_bay (g : Nat) (f : LinkGroup → LinkGroup) : (s.onGroup g f).bay = s.bay := rfl
@[simp] theorem onGroup_insts (g : Nat) (f : LinkGroup → LinkGroup) : (s.onGroup g f).insts = s.insts := rfl
@[simp] theorem onGroup_nextInst (g : Nat) (f : LinkGroup → LinkGroup) : (s.onGroup g f).nextInst = s.nextInst := rfl
@[simp] theorem onGroup_mem (g : Nat) (f : LinkGroup → LinkGroup) : (s.onGroup g f).mem = s.mem := rfl
@[simp] theorem onGroup_sluice (g : Nat) (f : LinkGroup → LinkGroup) : (s.onGroup g f).sluice = s.sluice := rfl
@[simp] theorem onGroup_pwu (g : Nat) (f : LinkGroup → LinkGroup) : (s.onGroup g f).pwu = s.pwu := rfl
@[simp] theorem onGroup_weir (g : Nat) (f : LinkGroup → LinkGroup) : (s.onGroup g f).weir = s.weir := rfl
@[simp] theorem onGroup_hop (g : Nat) (f : LinkGroup → LinkGroup) : (s.onGroup g f).hop = s.hop := rfl
@[simp] theorem onGroup_prot (g : Nat) (f : LinkGroup → LinkGroup) : (s.onGroup g f).prot = s.prot := rfl
@[simp] theorem onGroup_log (g : Nat) (f : LinkGroup → LinkGroup) : (s.onGroup g f).log = s.log := rfl
@[simp] theorem onGroup_pwr (g : Nat) (f : LinkGroup → LinkGroup) : (s.onGroup g f).pwr = s.pwr := rfl
@[simp] theorem onGroup_fuse (g : Nat) (f : LinkGroup → LinkGroup) : (s.onGroup g f).fuse = s.fuse := rfl
@[simp] theorem onGroup_boot (g : Nat) (f : LinkGroup → LinkGroup) : (s.onGroup g f).boot = s.boot := rfl
@[simp] theorem onGroup_miller (g : Nat) (f : LinkGroup → LinkGroup) : (s.onGroup g f).miller = s.miller := rfl
@[simp] theorem onGroup_time (g : Nat) (f : LinkGroup → LinkGroup) : (s.onGroup g f).time = s.time := rfl
@[simp] theorem onGroup_pins (g : Nat) (f : LinkGroup → LinkGroup) : (s.onGroup g f).pins = s.pins := rfl
@[simp] theorem onGroup_pending (g : Nat) (f : LinkGroup → LinkGroup) : (s.onGroup g f).pending = s.pending := rfl

/-! ### State.onRv -/

@[simp] theorem onRv_ctx (r : Nat) (f : Resv → Resv) : (s.onRv r f).ctx = s.ctx := rfl
@[simp] theorem onRv_core (r : Nat) (f : Resv → Resv) : (s.onRv r f).core = s.core := rfl
@[simp] theorem onRv_bay (r : Nat) (f : Resv → Resv) : (s.onRv r f).bay = s.bay := rfl
@[simp] theorem onRv_insts (r : Nat) (f : Resv → Resv) : (s.onRv r f).insts = s.insts := rfl
@[simp] theorem onRv_nextInst (r : Nat) (f : Resv → Resv) : (s.onRv r f).nextInst = s.nextInst := rfl
@[simp] theorem onRv_mem (r : Nat) (f : Resv → Resv) : (s.onRv r f).mem = s.mem := rfl
@[simp] theorem onRv_pwu (r : Nat) (f : Resv → Resv) : (s.onRv r f).pwu = s.pwu := rfl
@[simp] theorem onRv_leat (r : Nat) (f : Resv → Resv) : (s.onRv r f).leat = s.leat := rfl
@[simp] theorem onRv_weir (r : Nat) (f : Resv → Resv) : (s.onRv r f).weir = s.weir := rfl
@[simp] theorem onRv_hop (r : Nat) (f : Resv → Resv) : (s.onRv r f).hop = s.hop := rfl
@[simp] theorem onRv_prot (r : Nat) (f : Resv → Resv) : (s.onRv r f).prot = s.prot := rfl
@[simp] theorem onRv_log (r : Nat) (f : Resv → Resv) : (s.onRv r f).log = s.log := rfl
@[simp] theorem onRv_pwr (r : Nat) (f : Resv → Resv) : (s.onRv r f).pwr = s.pwr := rfl
@[simp] theorem onRv_fuse (r : Nat) (f : Resv → Resv) : (s.onRv r f).fuse = s.fuse := rfl
@[simp] theorem onRv_boot (r : Nat) (f : Resv → Resv) : (s.onRv r f).boot = s.boot := rfl
@[simp] theorem onRv_miller (r : Nat) (f : Resv → Resv) : (s.onRv r f).miller = s.miller := rfl
@[simp] theorem onRv_time (r : Nat) (f : Resv → Resv) : (s.onRv r f).time = s.time := rfl
@[simp] theorem onRv_pins (r : Nat) (f : Resv → Resv) : (s.onRv r f).pins = s.pins := rfl
@[simp] theorem onRv_pending (r : Nat) (f : Resv → Resv) : (s.onRv r f).pending = s.pending := rfl

/-! ### State.onPool -/

@[simp] theorem onPool_ctx (p : Nat) (f : Pool → Pool) : (s.onPool p f).ctx = s.ctx := rfl
@[simp] theorem onPool_core (p : Nat) (f : Pool → Pool) : (s.onPool p f).core = s.core := rfl
@[simp] theorem onPool_bay (p : Nat) (f : Pool → Pool) : (s.onPool p f).bay = s.bay := rfl
@[simp] theorem onPool_insts (p : Nat) (f : Pool → Pool) : (s.onPool p f).insts = s.insts := rfl
@[simp] theorem onPool_nextInst (p : Nat) (f : Pool → Pool) : (s.onPool p f).nextInst = s.nextInst := rfl
@[simp] theorem onPool_mem (p : Nat) (f : Pool → Pool) : (s.onPool p f).mem = s.mem := rfl
@[simp] theorem onPool_sluice (p : Nat) (f : Pool → Pool) : (s.onPool p f).sluice = s.sluice := rfl
@[simp] theorem onPool_leat (p : Nat) (f : Pool → Pool) : (s.onPool p f).leat = s.leat := rfl
@[simp] theorem onPool_weir (p : Nat) (f : Pool → Pool) : (s.onPool p f).weir = s.weir := rfl
@[simp] theorem onPool_hop (p : Nat) (f : Pool → Pool) : (s.onPool p f).hop = s.hop := rfl
@[simp] theorem onPool_prot (p : Nat) (f : Pool → Pool) : (s.onPool p f).prot = s.prot := rfl
@[simp] theorem onPool_log (p : Nat) (f : Pool → Pool) : (s.onPool p f).log = s.log := rfl
@[simp] theorem onPool_pwr (p : Nat) (f : Pool → Pool) : (s.onPool p f).pwr = s.pwr := rfl
@[simp] theorem onPool_fuse (p : Nat) (f : Pool → Pool) : (s.onPool p f).fuse = s.fuse := rfl
@[simp] theorem onPool_boot (p : Nat) (f : Pool → Pool) : (s.onPool p f).boot = s.boot := rfl
@[simp] theorem onPool_miller (p : Nat) (f : Pool → Pool) : (s.onPool p f).miller = s.miller := rfl
@[simp] theorem onPool_time (p : Nat) (f : Pool → Pool) : (s.onPool p f).time = s.time := rfl
@[simp] theorem onPool_pins (p : Nat) (f : Pool → Pool) : (s.onPool p f).pins = s.pins := rfl
@[simp] theorem onPool_pending (p : Nat) (f : Pool → Pool) : (s.onPool p f).pending = s.pending := rfl

/-! ### State.onChan -/

@[simp] theorem onChan_ctx (c : Nat) (f : Channel → Channel) : (s.onChan c f).ctx = s.ctx := rfl
@[simp] theorem onChan_core (c : Nat) (f : Channel → Channel) : (s.onChan c f).core = s.core := rfl
@[simp] theorem onChan_bay (c : Nat) (f : Channel → Channel) : (s.onChan c f).bay = s.bay := rfl
@[simp] theorem onChan_insts (c : Nat) (f : Channel → Channel) : (s.onChan c f).insts = s.insts := rfl
@[simp] theorem onChan_nextInst (c : Nat) (f : Channel → Channel) : (s.onChan c f).nextInst = s.nextInst := rfl
@[simp] theorem onChan_mem (c : Nat) (f : Channel → Channel) : (s.onChan c f).mem = s.mem := rfl
@[simp] theorem onChan_sluice (c : Nat) (f : Channel → Channel) : (s.onChan c f).sluice = s.sluice := rfl
@[simp] theorem onChan_pwu (c : Nat) (f : Channel → Channel) : (s.onChan c f).pwu = s.pwu := rfl
@[simp] theorem onChan_leat (c : Nat) (f : Channel → Channel) : (s.onChan c f).leat = s.leat := rfl
@[simp] theorem onChan_weir (c : Nat) (f : Channel → Channel) : (s.onChan c f).weir = s.weir := rfl
@[simp] theorem onChan_prot (c : Nat) (f : Channel → Channel) : (s.onChan c f).prot = s.prot := rfl
@[simp] theorem onChan_log (c : Nat) (f : Channel → Channel) : (s.onChan c f).log = s.log := rfl
@[simp] theorem onChan_pwr (c : Nat) (f : Channel → Channel) : (s.onChan c f).pwr = s.pwr := rfl
@[simp] theorem onChan_fuse (c : Nat) (f : Channel → Channel) : (s.onChan c f).fuse = s.fuse := rfl
@[simp] theorem onChan_boot (c : Nat) (f : Channel → Channel) : (s.onChan c f).boot = s.boot := rfl
@[simp] theorem onChan_miller (c : Nat) (f : Channel → Channel) : (s.onChan c f).miller = s.miller := rfl
@[simp] theorem onChan_time (c : Nat) (f : Channel → Channel) : (s.onChan c f).time = s.time := rfl
@[simp] theorem onChan_pins (c : Nat) (f : Channel → Channel) : (s.onChan c f).pins = s.pins := rfl
@[simp] theorem onChan_pending (c : Nat) (f : Channel → Channel) : (s.onChan c f).pending = s.pending := rfl

/-! ### State.onDom -/

@[simp] theorem onDom_ctx (d : Nat) (f : Dom → Dom) : (s.onDom d f).ctx = s.ctx := rfl
@[simp] theorem onDom_core (d : Nat) (f : Dom → Dom) : (s.onDom d f).core = s.core := rfl
@[simp] theorem onDom_bay (d : Nat) (f : Dom → Dom) : (s.onDom d f).bay = s.bay := rfl
@[simp] theorem onDom_insts (d : Nat) (f : Dom → Dom) : (s.onDom d f).insts = s.insts := rfl
@[simp] theorem onDom_nextInst (d : Nat) (f : Dom → Dom) : (s.onDom d f).nextInst = s.nextInst := rfl
@[simp] theorem onDom_mem (d : Nat) (f : Dom → Dom) : (s.onDom d f).mem = s.mem := rfl
@[simp] theorem onDom_sluice (d : Nat) (f : Dom → Dom) : (s.onDom d f).sluice = s.sluice := rfl
@[simp] theorem onDom_pwu (d : Nat) (f : Dom → Dom) : (s.onDom d f).pwu = s.pwu := rfl
@[simp] theorem onDom_leat (d : Nat) (f : Dom → Dom) : (s.onDom d f).leat = s.leat := rfl
@[simp] theorem onDom_weir (d : Nat) (f : Dom → Dom) : (s.onDom d f).weir = s.weir := rfl
@[simp] theorem onDom_hop (d : Nat) (f : Dom → Dom) : (s.onDom d f).hop = s.hop := rfl
@[simp] theorem onDom_prot (d : Nat) (f : Dom → Dom) : (s.onDom d f).prot = s.prot := rfl
@[simp] theorem onDom_log (d : Nat) (f : Dom → Dom) : (s.onDom d f).log = s.log := rfl
@[simp] theorem onDom_fuse (d : Nat) (f : Dom → Dom) : (s.onDom d f).fuse = s.fuse := rfl
@[simp] theorem onDom_boot (d : Nat) (f : Dom → Dom) : (s.onDom d f).boot = s.boot := rfl
@[simp] theorem onDom_miller (d : Nat) (f : Dom → Dom) : (s.onDom d f).miller = s.miller := rfl
@[simp] theorem onDom_time (d : Nat) (f : Dom → Dom) : (s.onDom d f).time = s.time := rfl
@[simp] theorem onDom_pins (d : Nat) (f : Dom → Dom) : (s.onDom d f).pins = s.pins := rfl
@[simp] theorem onDom_pending (d : Nat) (f : Dom → Dom) : (s.onDom d f).pending = s.pending := rfl

/-! ### State.onPwu -/

@[simp] theorem onPwu_ctx (f : Pwu → Pwu) : (s.onPwu f).ctx = s.ctx := rfl
@[simp] theorem onPwu_core (f : Pwu → Pwu) : (s.onPwu f).core = s.core := rfl
@[simp] theorem onPwu_bay (f : Pwu → Pwu) : (s.onPwu f).bay = s.bay := rfl
@[simp] theorem onPwu_insts (f : Pwu → Pwu) : (s.onPwu f).insts = s.insts := rfl
@[simp] theorem onPwu_nextInst (f : Pwu → Pwu) : (s.onPwu f).nextInst = s.nextInst := rfl
@[simp] theorem onPwu_mem (f : Pwu → Pwu) : (s.onPwu f).mem = s.mem := rfl
@[simp] theorem onPwu_sluice (f : Pwu → Pwu) : (s.onPwu f).sluice = s.sluice := rfl
@[simp] theorem onPwu_leat (f : Pwu → Pwu) : (s.onPwu f).leat = s.leat := rfl
@[simp] theorem onPwu_weir (f : Pwu → Pwu) : (s.onPwu f).weir = s.weir := rfl
@[simp] theorem onPwu_hop (f : Pwu → Pwu) : (s.onPwu f).hop = s.hop := rfl
@[simp] theorem onPwu_prot (f : Pwu → Pwu) : (s.onPwu f).prot = s.prot := rfl
@[simp] theorem onPwu_log (f : Pwu → Pwu) : (s.onPwu f).log = s.log := rfl
@[simp] theorem onPwu_pwr (f : Pwu → Pwu) : (s.onPwu f).pwr = s.pwr := rfl
@[simp] theorem onPwu_fuse (f : Pwu → Pwu) : (s.onPwu f).fuse = s.fuse := rfl
@[simp] theorem onPwu_boot (f : Pwu → Pwu) : (s.onPwu f).boot = s.boot := rfl
@[simp] theorem onPwu_miller (f : Pwu → Pwu) : (s.onPwu f).miller = s.miller := rfl
@[simp] theorem onPwu_time (f : Pwu → Pwu) : (s.onPwu f).time = s.time := rfl
@[simp] theorem onPwu_pins (f : Pwu → Pwu) : (s.onPwu f).pins = s.pins := rfl
@[simp] theorem onPwu_pending (f : Pwu → Pwu) : (s.onPwu f).pending = s.pending := rfl

/-! ### State.onSluice -/

@[simp] theorem onSluice_ctx (f : Sluice → Sluice) : (s.onSluice f).ctx = s.ctx := rfl
@[simp] theorem onSluice_core (f : Sluice → Sluice) : (s.onSluice f).core = s.core := rfl
@[simp] theorem onSluice_bay (f : Sluice → Sluice) : (s.onSluice f).bay = s.bay := rfl
@[simp] theorem onSluice_insts (f : Sluice → Sluice) : (s.onSluice f).insts = s.insts := rfl
@[simp] theorem onSluice_nextInst (f : Sluice → Sluice) : (s.onSluice f).nextInst = s.nextInst := rfl
@[simp] theorem onSluice_mem (f : Sluice → Sluice) : (s.onSluice f).mem = s.mem := rfl
@[simp] theorem onSluice_pwu (f : Sluice → Sluice) : (s.onSluice f).pwu = s.pwu := rfl
@[simp] theorem onSluice_leat (f : Sluice → Sluice) : (s.onSluice f).leat = s.leat := rfl
@[simp] theorem onSluice_weir (f : Sluice → Sluice) : (s.onSluice f).weir = s.weir := rfl
@[simp] theorem onSluice_hop (f : Sluice → Sluice) : (s.onSluice f).hop = s.hop := rfl
@[simp] theorem onSluice_prot (f : Sluice → Sluice) : (s.onSluice f).prot = s.prot := rfl
@[simp] theorem onSluice_log (f : Sluice → Sluice) : (s.onSluice f).log = s.log := rfl
@[simp] theorem onSluice_pwr (f : Sluice → Sluice) : (s.onSluice f).pwr = s.pwr := rfl
@[simp] theorem onSluice_fuse (f : Sluice → Sluice) : (s.onSluice f).fuse = s.fuse := rfl
@[simp] theorem onSluice_boot (f : Sluice → Sluice) : (s.onSluice f).boot = s.boot := rfl
@[simp] theorem onSluice_miller (f : Sluice → Sluice) : (s.onSluice f).miller = s.miller := rfl
@[simp] theorem onSluice_time (f : Sluice → Sluice) : (s.onSluice f).time = s.time := rfl
@[simp] theorem onSluice_pins (f : Sluice → Sluice) : (s.onSluice f).pins = s.pins := rfl
@[simp] theorem onSluice_pending (f : Sluice → Sluice) : (s.onSluice f).pending = s.pending := rfl

/-! ### State.onLog -/

@[simp] theorem onLog_ctx (f : Log → Log) : (s.onLog f).ctx = s.ctx := rfl
@[simp] theorem onLog_core (f : Log → Log) : (s.onLog f).core = s.core := rfl
@[simp] theorem onLog_bay (f : Log → Log) : (s.onLog f).bay = s.bay := rfl
@[simp] theorem onLog_insts (f : Log → Log) : (s.onLog f).insts = s.insts := rfl
@[simp] theorem onLog_nextInst (f : Log → Log) : (s.onLog f).nextInst = s.nextInst := rfl
@[simp] theorem onLog_mem (f : Log → Log) : (s.onLog f).mem = s.mem := rfl
@[simp] theorem onLog_sluice (f : Log → Log) : (s.onLog f).sluice = s.sluice := rfl
@[simp] theorem onLog_pwu (f : Log → Log) : (s.onLog f).pwu = s.pwu := rfl
@[simp] theorem onLog_leat (f : Log → Log) : (s.onLog f).leat = s.leat := rfl
@[simp] theorem onLog_weir (f : Log → Log) : (s.onLog f).weir = s.weir := rfl
@[simp] theorem onLog_hop (f : Log → Log) : (s.onLog f).hop = s.hop := rfl
@[simp] theorem onLog_prot (f : Log → Log) : (s.onLog f).prot = s.prot := rfl
@[simp] theorem onLog_pwr (f : Log → Log) : (s.onLog f).pwr = s.pwr := rfl
@[simp] theorem onLog_fuse (f : Log → Log) : (s.onLog f).fuse = s.fuse := rfl
@[simp] theorem onLog_boot (f : Log → Log) : (s.onLog f).boot = s.boot := rfl
@[simp] theorem onLog_miller (f : Log → Log) : (s.onLog f).miller = s.miller := rfl
@[simp] theorem onLog_time (f : Log → Log) : (s.onLog f).time = s.time := rfl
@[simp] theorem onLog_pins (f : Log → Log) : (s.onLog f).pins = s.pins := rfl
@[simp] theorem onLog_pending (f : Log → Log) : (s.onLog f).pending = s.pending := rfl

/-! ### State.onPins -/

@[simp] theorem onPins_ctx (f : Pins → Pins) : (s.onPins f).ctx = s.ctx := rfl
@[simp] theorem onPins_core (f : Pins → Pins) : (s.onPins f).core = s.core := rfl
@[simp] theorem onPins_bay (f : Pins → Pins) : (s.onPins f).bay = s.bay := rfl
@[simp] theorem onPins_insts (f : Pins → Pins) : (s.onPins f).insts = s.insts := rfl
@[simp] theorem onPins_nextInst (f : Pins → Pins) : (s.onPins f).nextInst = s.nextInst := rfl
@[simp] theorem onPins_mem (f : Pins → Pins) : (s.onPins f).mem = s.mem := rfl
@[simp] theorem onPins_sluice (f : Pins → Pins) : (s.onPins f).sluice = s.sluice := rfl
@[simp] theorem onPins_pwu (f : Pins → Pins) : (s.onPins f).pwu = s.pwu := rfl
@[simp] theorem onPins_leat (f : Pins → Pins) : (s.onPins f).leat = s.leat := rfl
@[simp] theorem onPins_weir (f : Pins → Pins) : (s.onPins f).weir = s.weir := rfl
@[simp] theorem onPins_hop (f : Pins → Pins) : (s.onPins f).hop = s.hop := rfl
@[simp] theorem onPins_prot (f : Pins → Pins) : (s.onPins f).prot = s.prot := rfl
@[simp] theorem onPins_log (f : Pins → Pins) : (s.onPins f).log = s.log := rfl
@[simp] theorem onPins_pwr (f : Pins → Pins) : (s.onPins f).pwr = s.pwr := rfl
@[simp] theorem onPins_fuse (f : Pins → Pins) : (s.onPins f).fuse = s.fuse := rfl
@[simp] theorem onPins_boot (f : Pins → Pins) : (s.onPins f).boot = s.boot := rfl
@[simp] theorem onPins_miller (f : Pins → Pins) : (s.onPins f).miller = s.miller := rfl
@[simp] theorem onPins_time (f : Pins → Pins) : (s.onPins f).time = s.time := rfl
@[simp] theorem onPins_pending (f : Pins → Pins) : (s.onPins f).pending = s.pending := rfl

/-! ### State.onProt -/

@[simp] theorem onProt_ctx (f : Prot → Prot) : (s.onProt f).ctx = s.ctx := rfl
@[simp] theorem onProt_core (f : Prot → Prot) : (s.onProt f).core = s.core := rfl
@[simp] theorem onProt_bay (f : Prot → Prot) : (s.onProt f).bay = s.bay := rfl
@[simp] theorem onProt_insts (f : Prot → Prot) : (s.onProt f).insts = s.insts := rfl
@[simp] theorem onProt_nextInst (f : Prot → Prot) : (s.onProt f).nextInst = s.nextInst := rfl
@[simp] theorem onProt_mem (f : Prot → Prot) : (s.onProt f).mem = s.mem := rfl
@[simp] theorem onProt_sluice (f : Prot → Prot) : (s.onProt f).sluice = s.sluice := rfl
@[simp] theorem onProt_pwu (f : Prot → Prot) : (s.onProt f).pwu = s.pwu := rfl
@[simp] theorem onProt_leat (f : Prot → Prot) : (s.onProt f).leat = s.leat := rfl
@[simp] theorem onProt_weir (f : Prot → Prot) : (s.onProt f).weir = s.weir := rfl
@[simp] theorem onProt_hop (f : Prot → Prot) : (s.onProt f).hop = s.hop := rfl
@[simp] theorem onProt_log (f : Prot → Prot) : (s.onProt f).log = s.log := rfl
@[simp] theorem onProt_pwr (f : Prot → Prot) : (s.onProt f).pwr = s.pwr := rfl
@[simp] theorem onProt_fuse (f : Prot → Prot) : (s.onProt f).fuse = s.fuse := rfl
@[simp] theorem onProt_boot (f : Prot → Prot) : (s.onProt f).boot = s.boot := rfl
@[simp] theorem onProt_miller (f : Prot → Prot) : (s.onProt f).miller = s.miller := rfl
@[simp] theorem onProt_time (f : Prot → Prot) : (s.onProt f).time = s.time := rfl
@[simp] theorem onProt_pins (f : Prot → Prot) : (s.onProt f).pins = s.pins := rfl
@[simp] theorem onProt_pending (f : Prot → Prot) : (s.onProt f).pending = s.pending := rfl

/-! ### State.onScarf -/

@[simp] theorem onScarf_ctx (f : Scarf → Scarf) : (s.onScarf f).ctx = s.ctx := rfl
@[simp] theorem onScarf_core (f : Scarf → Scarf) : (s.onScarf f).core = s.core := rfl
@[simp] theorem onScarf_bay (f : Scarf → Scarf) : (s.onScarf f).bay = s.bay := rfl
@[simp] theorem onScarf_insts (f : Scarf → Scarf) : (s.onScarf f).insts = s.insts := rfl
@[simp] theorem onScarf_nextInst (f : Scarf → Scarf) : (s.onScarf f).nextInst = s.nextInst := rfl
@[simp] theorem onScarf_mem (f : Scarf → Scarf) : (s.onScarf f).mem = s.mem := rfl
@[simp] theorem onScarf_sluice (f : Scarf → Scarf) : (s.onScarf f).sluice = s.sluice := rfl
@[simp] theorem onScarf_pwu (f : Scarf → Scarf) : (s.onScarf f).pwu = s.pwu := rfl
@[simp] theorem onScarf_leat (f : Scarf → Scarf) : (s.onScarf f).leat = s.leat := rfl
@[simp] theorem onScarf_weir (f : Scarf → Scarf) : (s.onScarf f).weir = s.weir := rfl
@[simp] theorem onScarf_hop (f : Scarf → Scarf) : (s.onScarf f).hop = s.hop := rfl
@[simp] theorem onScarf_log (f : Scarf → Scarf) : (s.onScarf f).log = s.log := rfl
@[simp] theorem onScarf_pwr (f : Scarf → Scarf) : (s.onScarf f).pwr = s.pwr := rfl
@[simp] theorem onScarf_fuse (f : Scarf → Scarf) : (s.onScarf f).fuse = s.fuse := rfl
@[simp] theorem onScarf_boot (f : Scarf → Scarf) : (s.onScarf f).boot = s.boot := rfl
@[simp] theorem onScarf_miller (f : Scarf → Scarf) : (s.onScarf f).miller = s.miller := rfl
@[simp] theorem onScarf_time (f : Scarf → Scarf) : (s.onScarf f).time = s.time := rfl
@[simp] theorem onScarf_pins (f : Scarf → Scarf) : (s.onScarf f).pins = s.pins := rfl
@[simp] theorem onScarf_pending (f : Scarf → Scarf) : (s.onScarf f).pending = s.pending := rfl

/-! ### State.onPwr -/

@[simp] theorem onPwr_ctx (f : Pwr → Pwr) : (s.onPwr f).ctx = s.ctx := rfl
@[simp] theorem onPwr_core (f : Pwr → Pwr) : (s.onPwr f).core = s.core := rfl
@[simp] theorem onPwr_bay (f : Pwr → Pwr) : (s.onPwr f).bay = s.bay := rfl
@[simp] theorem onPwr_insts (f : Pwr → Pwr) : (s.onPwr f).insts = s.insts := rfl
@[simp] theorem onPwr_nextInst (f : Pwr → Pwr) : (s.onPwr f).nextInst = s.nextInst := rfl
@[simp] theorem onPwr_mem (f : Pwr → Pwr) : (s.onPwr f).mem = s.mem := rfl
@[simp] theorem onPwr_sluice (f : Pwr → Pwr) : (s.onPwr f).sluice = s.sluice := rfl
@[simp] theorem onPwr_pwu (f : Pwr → Pwr) : (s.onPwr f).pwu = s.pwu := rfl
@[simp] theorem onPwr_leat (f : Pwr → Pwr) : (s.onPwr f).leat = s.leat := rfl
@[simp] theorem onPwr_weir (f : Pwr → Pwr) : (s.onPwr f).weir = s.weir := rfl
@[simp] theorem onPwr_hop (f : Pwr → Pwr) : (s.onPwr f).hop = s.hop := rfl
@[simp] theorem onPwr_prot (f : Pwr → Pwr) : (s.onPwr f).prot = s.prot := rfl
@[simp] theorem onPwr_log (f : Pwr → Pwr) : (s.onPwr f).log = s.log := rfl
@[simp] theorem onPwr_fuse (f : Pwr → Pwr) : (s.onPwr f).fuse = s.fuse := rfl
@[simp] theorem onPwr_boot (f : Pwr → Pwr) : (s.onPwr f).boot = s.boot := rfl
@[simp] theorem onPwr_miller (f : Pwr → Pwr) : (s.onPwr f).miller = s.miller := rfl
@[simp] theorem onPwr_time (f : Pwr → Pwr) : (s.onPwr f).time = s.time := rfl
@[simp] theorem onPwr_pins (f : Pwr → Pwr) : (s.onPwr f).pins = s.pins := rfl
@[simp] theorem onPwr_pending (f : Pwr → Pwr) : (s.onPwr f).pending = s.pending := rfl

/-! ### State.onBoot -/

@[simp] theorem onBoot_ctx (f : Boot → Boot) : (s.onBoot f).ctx = s.ctx := rfl
@[simp] theorem onBoot_core (f : Boot → Boot) : (s.onBoot f).core = s.core := rfl
@[simp] theorem onBoot_bay (f : Boot → Boot) : (s.onBoot f).bay = s.bay := rfl
@[simp] theorem onBoot_insts (f : Boot → Boot) : (s.onBoot f).insts = s.insts := rfl
@[simp] theorem onBoot_nextInst (f : Boot → Boot) : (s.onBoot f).nextInst = s.nextInst := rfl
@[simp] theorem onBoot_mem (f : Boot → Boot) : (s.onBoot f).mem = s.mem := rfl
@[simp] theorem onBoot_sluice (f : Boot → Boot) : (s.onBoot f).sluice = s.sluice := rfl
@[simp] theorem onBoot_pwu (f : Boot → Boot) : (s.onBoot f).pwu = s.pwu := rfl
@[simp] theorem onBoot_leat (f : Boot → Boot) : (s.onBoot f).leat = s.leat := rfl
@[simp] theorem onBoot_weir (f : Boot → Boot) : (s.onBoot f).weir = s.weir := rfl
@[simp] theorem onBoot_hop (f : Boot → Boot) : (s.onBoot f).hop = s.hop := rfl
@[simp] theorem onBoot_prot (f : Boot → Boot) : (s.onBoot f).prot = s.prot := rfl
@[simp] theorem onBoot_log (f : Boot → Boot) : (s.onBoot f).log = s.log := rfl
@[simp] theorem onBoot_pwr (f : Boot → Boot) : (s.onBoot f).pwr = s.pwr := rfl
@[simp] theorem onBoot_fuse (f : Boot → Boot) : (s.onBoot f).fuse = s.fuse := rfl
@[simp] theorem onBoot_miller (f : Boot → Boot) : (s.onBoot f).miller = s.miller := rfl
@[simp] theorem onBoot_time (f : Boot → Boot) : (s.onBoot f).time = s.time := rfl
@[simp] theorem onBoot_pins (f : Boot → Boot) : (s.onBoot f).pins = s.pins := rfl
@[simp] theorem onBoot_pending (f : Boot → Boot) : (s.onBoot f).pending = s.pending := rfl

/-! ### State.onMiller -/

@[simp] theorem onMiller_ctx (f : Miller → Miller) : (s.onMiller f).ctx = s.ctx := rfl
@[simp] theorem onMiller_core (f : Miller → Miller) : (s.onMiller f).core = s.core := rfl
@[simp] theorem onMiller_bay (f : Miller → Miller) : (s.onMiller f).bay = s.bay := rfl
@[simp] theorem onMiller_insts (f : Miller → Miller) : (s.onMiller f).insts = s.insts := rfl
@[simp] theorem onMiller_nextInst (f : Miller → Miller) : (s.onMiller f).nextInst = s.nextInst := rfl
@[simp] theorem onMiller_mem (f : Miller → Miller) : (s.onMiller f).mem = s.mem := rfl
@[simp] theorem onMiller_sluice (f : Miller → Miller) : (s.onMiller f).sluice = s.sluice := rfl
@[simp] theorem onMiller_pwu (f : Miller → Miller) : (s.onMiller f).pwu = s.pwu := rfl
@[simp] theorem onMiller_leat (f : Miller → Miller) : (s.onMiller f).leat = s.leat := rfl
@[simp] theorem onMiller_weir (f : Miller → Miller) : (s.onMiller f).weir = s.weir := rfl
@[simp] theorem onMiller_hop (f : Miller → Miller) : (s.onMiller f).hop = s.hop := rfl
@[simp] theorem onMiller_prot (f : Miller → Miller) : (s.onMiller f).prot = s.prot := rfl
@[simp] theorem onMiller_log (f : Miller → Miller) : (s.onMiller f).log = s.log := rfl
@[simp] theorem onMiller_pwr (f : Miller → Miller) : (s.onMiller f).pwr = s.pwr := rfl
@[simp] theorem onMiller_fuse (f : Miller → Miller) : (s.onMiller f).fuse = s.fuse := rfl
@[simp] theorem onMiller_boot (f : Miller → Miller) : (s.onMiller f).boot = s.boot := rfl
@[simp] theorem onMiller_time (f : Miller → Miller) : (s.onMiller f).time = s.time := rfl
@[simp] theorem onMiller_pins (f : Miller → Miller) : (s.onMiller f).pins = s.pins := rfl
@[simp] theorem onMiller_pending (f : Miller → Miller) : (s.onMiller f).pending = s.pending := rfl

/-! ### State.onInst -/

@[simp] theorem onInst_ctx (n : Nat) (f : Inst → Inst) : (s.onInst n f).ctx = s.ctx := by unfold State.onInst; split <;> rfl
@[simp] theorem onInst_core (n : Nat) (f : Inst → Inst) : (s.onInst n f).core = s.core := by unfold State.onInst; split <;> rfl
@[simp] theorem onInst_bay (n : Nat) (f : Inst → Inst) : (s.onInst n f).bay = s.bay := by unfold State.onInst; split <;> rfl
@[simp] theorem onInst_nextInst (n : Nat) (f : Inst → Inst) : (s.onInst n f).nextInst = s.nextInst := by unfold State.onInst; split <;> rfl
@[simp] theorem onInst_mem (n : Nat) (f : Inst → Inst) : (s.onInst n f).mem = s.mem := by unfold State.onInst; split <;> rfl
@[simp] theorem onInst_sluice (n : Nat) (f : Inst → Inst) : (s.onInst n f).sluice = s.sluice := by unfold State.onInst; split <;> rfl
@[simp] theorem onInst_pwu (n : Nat) (f : Inst → Inst) : (s.onInst n f).pwu = s.pwu := by unfold State.onInst; split <;> rfl
@[simp] theorem onInst_leat (n : Nat) (f : Inst → Inst) : (s.onInst n f).leat = s.leat := by unfold State.onInst; split <;> rfl
@[simp] theorem onInst_weir (n : Nat) (f : Inst → Inst) : (s.onInst n f).weir = s.weir := by unfold State.onInst; split <;> rfl
@[simp] theorem onInst_hop (n : Nat) (f : Inst → Inst) : (s.onInst n f).hop = s.hop := by unfold State.onInst; split <;> rfl
@[simp] theorem onInst_prot (n : Nat) (f : Inst → Inst) : (s.onInst n f).prot = s.prot := by unfold State.onInst; split <;> rfl
@[simp] theorem onInst_log (n : Nat) (f : Inst → Inst) : (s.onInst n f).log = s.log := by unfold State.onInst; split <;> rfl
@[simp] theorem onInst_pwr (n : Nat) (f : Inst → Inst) : (s.onInst n f).pwr = s.pwr := by unfold State.onInst; split <;> rfl
@[simp] theorem onInst_fuse (n : Nat) (f : Inst → Inst) : (s.onInst n f).fuse = s.fuse := by unfold State.onInst; split <;> rfl
@[simp] theorem onInst_boot (n : Nat) (f : Inst → Inst) : (s.onInst n f).boot = s.boot := by unfold State.onInst; split <;> rfl
@[simp] theorem onInst_miller (n : Nat) (f : Inst → Inst) : (s.onInst n f).miller = s.miller := by unfold State.onInst; split <;> rfl
@[simp] theorem onInst_time (n : Nat) (f : Inst → Inst) : (s.onInst n f).time = s.time := by unfold State.onInst; split <;> rfl
@[simp] theorem onInst_pins (n : Nat) (f : Inst → Inst) : (s.onInst n f).pins = s.pins := by unfold State.onInst; split <;> rfl
@[simp] theorem onInst_pending (n : Nat) (f : Inst → Inst) : (s.onInst n f).pending = s.pending := by unfold State.onInst; split <;> rfl

/-! ### Reads after indexed updates -/

variable {s}

theorem cx_onCx (h : Map.wf {} s.ctx = true) (k j : Nat) (f) : (s.onCx k f).cx j = if j = k then f (s.cx k) else s.cx j :=
  Map.get_modify h k j f
theorem co_onCo (h : Map.wf {} s.core = true) (k j : Nat) (f) : (s.onCo k f).co j = if j = k then f (s.co k) else s.co j :=
  Map.get_modify h k j f
theorem by_onBy (h : Map.wf {} s.bay = true) (k j : Nat) (f) : (s.onBy k f).by j = if j = k then f (s.by k) else s.by j :=
  Map.get_modify h k j f
theorem port_onPort (h : Map.wf {} s.mem.ports = true) (k j : Nat) (f) : (s.onPort k f).port j = if j = k then f (s.port k) else s.port j :=
  Map.get_modify h k j f
theorem link_onLink (h : Map.wf {} s.leat.links = true) (k j : Nat) (f) : (s.onLink k f).link j = if j = k then f (s.link k) else s.link j :=
  Map.get_modify h k j f
theorem group_onGroup (h : Map.wf {} s.leat.groups = true) (k j : Nat) (f) : (s.onGroup k f).group j = if j = k then f (s.group k) else s.group j :=
  Map.get_modify h k j f
theorem rv_onRv (h : Map.wf {} s.sluice.resv = true) (k j : Nat) (f) : (s.onRv k f).rv j = if j = k then f (s.rv k) else s.rv j :=
  Map.get_modify h k j f
theorem pool_onPool (h : Map.wf {} s.pwu.pools = true) (k j : Nat) (f) : (s.onPool k f).pool j = if j = k then f (s.pool k) else s.pool j :=
  Map.get_modify h k j f
theorem chan_onChan (h : Map.wf {} s.hop.ch = true) (k j : Nat) (f) : (s.onChan k f).chan j = if j = k then f (s.chan k) else s.chan j :=
  Map.get_modify h k j f
theorem dom_onDom (h : Map.wf {} s.pwr.doms = true) (k j : Nat) (f) : (s.onDom k f).dom j = if j = k then f (s.dom k) else s.dom j :=
  Map.get_modify h k j f

/-! ### The registers of an executor -/

/-- Two updates of a context that agree on what it holds are one. -/
theorem onCx_congr {s : State} {c : Nat} {f g : Ctx → Ctx} (h : f (s.cx c) = g (s.cx c)) : s.onCx c f = s.onCx c g := by
  unfold State.cx at h
  simp only [State.onCx, Map.modify, h]
theorem onMiller_congr {s : State} {f g : Miller → Miller} (h : f s.miller = g s.miller) : s.onMiller f = s.onMiller g := by
  simp only [State.onMiller, h]

@[simp] theorem regRead_zero (m : Map Word) : regRead m 0 = 0 := rfl
@[simp] theorem predRead_zero (m : Map Bool) : predRead m 0 = true := rfl
theorem regWrite_zero (m : Map Word) (v : Word) : regWrite m 0 v = m := rfl
theorem predWrite_zero (m : Map Bool) (v : Bool) : predWrite m 0 v = m := rfl
theorem regRead_regWrite {m : Map Word} (h : Map.wf 0 m = true) (n k : Nat) (v : Word) :
    regRead (regWrite m n v) k = if k = n ∧ n ≠ 0 then v else regRead m k := by
  unfold regRead regWrite
  by_cases hk : k = 0
  · subst hk
    by_cases hn : 0 = n
    · simp [← hn]
    · simp [hn]
  · by_cases hn : n = 0
    · simp [hk, hn]
    · rw [if_neg hk, if_neg hn, Map.get_set h, if_neg hk]
      simp [hn]
theorem predRead_predWrite {m : Map Bool} (h : Map.wf false m = true) (n k : Nat) (v : Bool) :
    predRead (predWrite m n v) k = if k = n ∧ n ≠ 0 then v else predRead m k := by
  unfold predRead predWrite
  by_cases hk : k = 0
  · subst hk
    by_cases hn : 0 = n
    · simp [← hn]
    · simp [hn]
  · by_cases hn : n = 0
    · simp [hk, hn]
    · rw [if_neg hk, if_neg hn, Map.get_set h, if_neg hk]
      simp [hn]

end Sys2Proof.Machine
end

