-- ==== Sys2Proof/Laws/Step.lean ====
section
/-!
SUPPORT. What one command, one step and one cycle of the root clock keep: nearly every command keeps the queue, the fuses and the governed fields
(`exec_kept`); every one keeps the queue and the canonical form of every store (`exec_holds`).
-/

namespace Sys2Proof.Machine

/-- The rows that may move the governed fields or the fuses (R501, R504, R543). -/
def moves : Instr → Bool
  | .fuseSenseDone .. | .niaRstNAssert | .scarfCheckDone | .scarfImageCheck .. => true
  | _ => false

theorem exec_kept {s : State} (i : Instr) (h : moves i = false) : KeptO s (exec i s) := by
  have k := Kept.refl s
  cases i
  case nop => exact kept_execNop k
  case add => exact kept_execAdd k
  case sub => exact kept_execSub k
  case mul => exact kept_execMul k
  case and => exact kept_execAnd k
  case or => exact kept_execOr k
  case xor => exact kept_execXor k
  case shl => exact kept_execShl k
  case shr => exact kept_execShr k
  case sra => exact kept_execSra k
  case addi => exact kept_execAddi k
  case shli => exact kept_execShli k
  case cmp => exact kept_execCmp k
  case plog => exact kept_execPlog k
  case br => exact kept_execBr k
  case ld => exact kept_execLd k
  case st => exact kept_execSt k
  case ldt => exact kept_execLdt k
  case stt => exact kept_execStt k
  case ldl => exact kept_execLdl k
  case ldh => exact kept_execLdh k
  case evr => exact kept_execEvr k
  case evw => exact kept_execEvw k
  case csrr => exact kept_execCsrr k
  case csrw => exact kept_execCsrw k
  case halt => exact kept_execHalt k
  case mrd => exact kept_execMrd k
  case mwr => exact kept_execMwr k
  case evq => exact kept_execEvq k
  case wfe => exact kept_execWfe k
  case wfeRelease => exact kept_execWfeRelease k
  case millerFault => exact kept_execMillerFault k
  case mmp => exact kept_execMmp k
  case mmw => exact kept_execMmw k
  case mmc => exact kept_execMmc k
  case drain => exact kept_execDrain k
  case accz => exact kept_execAccz k
  case rstat => exact kept_execRstat k
  case accsv => exact kept_execAccsv k
  case accld => exact kept_execAccld k
  case attf => exact kept_execAttf k
  case attb => exact kept_execAttb k
  case attmConfirm => exact kept_execAttmConfirm k
  case attmMerge => exact kept_execAttmMerge k
  case bias => exact kept_execBias k
  case fnx => exact kept_execFnx k
  case fnxLoad => exact kept_execFnxLoad k
  case fnxCompat => exact kept_execFnxCompat k
  case gate => exact kept_execGate k
  case norm => exact kept_execNorm k
  case qnt => exact kept_execQnt k
  case kvap => exact kept_execKvap k
  case kvapSpec => exact kept_execKvapSpec k
  case kvcm => exact kept_execKvcm k
  case kvds => exact kept_execKvds k
  case kvfn => exact kept_execKvfn k
  case kviv => exact kept_execKviv k
  case pgcwCopy => exact kept_execPgcwCopy k
  case pgcwPromote => exact kept_execPgcwPromote k
  case pgcwDemote => exact kept_execPgcwDemote k
  case pgcwProtect => exact kept_execPgcwProtect k
  case pgcwUnprotect => exact kept_execPgcwUnprotect k
  case pgcwDigest => exact kept_execPgcwDigest k
  case pgfr => exact kept_execPgfr k
  case pgfrLog => exact kept_execPgfrLog k
  case pgpn => exact kept_execPgpn k
  case bolt => exact kept_execBolt k
  case bprf => exact kept_execBprf k
  case mov => exact kept_execMov k
  case ldop => exact kept_execLdop k
  case halo => exact kept_execHalo k
  case ring => exact kept_execRing k
  case send => exact kept_execSend k
  case recv => exact kept_execRecv k
  case wredContribute => exact kept_execWredContribute k
  case wredReduce => exact kept_execWredReduce k
  case topk => exact kept_execTopk k
  case fence => exact kept_execFence k
  case fenceSatisfied => exact kept_execFenceSatisfied k
  case wait => exact kept_execWait k
  case waitSatisfied => exact kept_execWaitSatisfied k
  case sig => exact kept_execSig k
  case sigIncrement => exact kept_execSigIncrement k
  case call => exact kept_execCall k
  case ret => exact kept_execRet k
  case tensorInstructionEnd => exact kept_execTensorInstructionEnd k
  case passStart => exact kept_execPassStart k
  case drainStart => exact kept_execDrainStart k
  case bundleAppend => exact kept_execBundleAppend k
  case bundleResync => exact kept_execBundleResync k
  case heldBundleRelease => exact kept_execHeldBundleRelease k
  case consAddrPoll => exact kept_execConsAddrPoll k
  case nmpReadReturn => exact kept_execNmpReadReturn k
  case nmpWriteAck => exact kept_execNmpWriteAck k
  case portTimeout => exact kept_execPortTimeout k
  case atomicLineUpdate => exact kept_execAtomicLineUpdate k
  case ginvAll => exact kept_execGinvAll k
  case ginvRange => exact kept_execGinvRange k
  case ginvDone => exact kept_execGinvDone k
  case dataPacket => exact kept_execDataPacket k
  case llctl => exact kept_execLlctl k
  case ready => exact kept_execReady k
  case cack => exact kept_execCack k
  case nack => exact kept_execNack k
  case init => exact kept_execInit k
  case packetSend => exact kept_execPacketSend k
  case replayTimeout => exact kept_execReplayTimeout k
  case llctlReportDeadline => exact kept_execLlctlReportDeadline k
  case initResend => exact kept_execInitResend k
  case readyResend => exact kept_execReadyResend k
  case lnkUpChange => exact kept_execLnkUpChange k
  case bucketDeadline => exact kept_execBucketDeadline k
  case resAdmit => exact kept_execResAdmit k
  case resRelease => exact kept_execResRelease k
  case resRevoke => exact kept_execResRevoke k
  case windowClose => exact kept_execWindowClose k
  case pendingClear => exact kept_execPendingClear k
  case aenWrite => exact kept_execAenWrite k
  case aenEffChange => exact kept_execAenEffChange k
  case batchHoldExpiry => exact kept_execBatchHoldExpiry k
  case dividerDecreaseEffect => exact kept_execDividerDecreaseEffect k
  case parkAbort => exact kept_execParkAbort k
  case pwuCommit => exact kept_execPwuCommit k
  case ctxEnable => exact kept_execCtxEnable k
  case ctxReset => exact kept_execCtxReset k
  case ctxResume => exact kept_execCtxResume k
  case ctxCommit => exact kept_execCtxCommit k
  case inject => exact kept_execInject k
  case streamClear => exact kept_execStreamClear k
  case bolterClear => exact kept_execBolterClear k
  case recoveryWrite => exact kept_execRecoveryWrite k
  case accmDbgRead => exact kept_execAccmDbgRead k
  case leatCommit => exact kept_execLeatCommit k
  case linkEnWrite => exact kept_execLinkEnWrite k
  case cstateWrite => exact kept_execCstateWrite k
  case fenceSet => exact kept_execFenceSet k
  case fenceClr => exact kept_execFenceClr k
  case elogConsWrite => exact kept_execElogConsWrite k
  case scarfStageWrite => exact kept_execScarfStageWrite k
  case scarfGo => exact kept_execScarfGo k
  case scarfAbandon => exact kept_execScarfAbandon k
  case scarfWindowExpiry => exact kept_execScarfWindowExpiry k
  case cdivWrite => exact kept_execCdivWrite k
  case vcodeWrite => exact kept_execVcodeWrite k
  case bayLimitWrite => exact kept_execBayLimitWrite k
  case pwrCmdOn => exact kept_execPwrCmdOn k
  case pwrCmdRetention => exact kept_execPwrCmdRetention k
  case pwrCmdOff => exact kept_execPwrCmdOff k
  case idleTimerExpiry => exact kept_execIdleTimerExpiry k
  case pwrGoodChange => exact kept_execPwrGoodChange k
  case exitStepReady => exact kept_execExitStepReady k
  case vgoodChange => exact kept_execVgoodChange k
  case emthrotAssert => exact kept_execEmthrotAssert k
  case emthrotRelease => exact kept_execEmthrotRelease k
  case rootLockLoss => exact kept_execRootLockLoss k
  case rootLockRise => exact kept_execRootLockRise k
  case rootStop => exact kept_execRootStop k
  case rootRestart => exact kept_execRootRestart k
  case niaWake => exact kept_execNiaWake k
  case niaRstNRelease => exact kept_execNiaRstNRelease k
  case selfTestDone => exact kept_execSelfTestDone k
  case readyReached => exact kept_execReadyReached k
  case coreErrorDetect => exact kept_execCoreErrorDetect k
  case bayErrorDetect => exact kept_execBayErrorDetect k
  case mgtWrite => exact kept_execMgtWrite k
  case syncBeatReceived => exact kept_execSyncBeatReceived k
  case entryStepDone => exact kept_execEntryStepDone k
  case nmpRequestAccepted => exact kept_execNmpRequestAccepted k
  case tapInstrumentAccess => exact kept_execTapInstrumentAccess k
  case fuseSenseDone => exact nomatch h
  case niaRstNAssert => exact nomatch h
  case scarfCheckDone => exact nomatch h
  case scarfImageCheck => exact nomatch h

/-- An uncorrectable error of a memory changes what is poisoned in bay memory, the Granary and the ports, and nothing else. -/
theorem storeError_only (s : State) : ∃ b m, s.storeError = { s with bay := b, mem := m } := by
  unfold State.storeError
  split
  · exact ⟨_, _, rfl⟩
  · repeat' split
    all_goals exact ⟨_, _, rfl⟩

/-- A cycle counts in its clocks alone. -/
theorem tick_time (s : State) : s.tick.time = s.clocked.time := by
  obtain ⟨b, m, h⟩ := storeError_only s.clocked
  rw [State.tick, h]

theorem exec_holds {s : State} (i : Instr) : HoldsO s (exec i s) := by
  by_cases h : moves i = false
  · exact (exec_kept i h).holds
  · cases i
    case fuseSenseDone => exact holds_execFuseSenseDone
    case niaRstNAssert => exact holds_execNiaRstNAssert
    case scarfCheckDone => exact holds_execScarfCheckDone
    case scarfImageCheck => exact holds_execScarfImageCheck
    all_goals exact absurd rfl h

end Sys2Proof.Machine
end

