-- ==== Sys2Proof/Laws/Total.lean ====
section
/-!
SUPPORT. Every well-formed command answers a next state (`exec_total`): the only other answer is the refusal of words that
name another row.
-/

namespace Sys2Proof.Machine

theorem completes_next {s : State} : completes (.next s) := ⟨s, rfl⟩
theorem completes_idle {s : State} : completes (idle s) := ⟨s, rfl⟩
theorem completes_ite {p : Prop} [Decidable p] {a b : Out} (ha : completes a) (hb : completes b) : completes (if p then a else b) := by
  split
  · exact ha
  · exact hb

theorem completes_ctxShort {op c : Nat} {w : W32} {s : State} {f : State → Out} (h : shortIs op w = true)
    (hf : ∀ t, completes (f t)) : completes (ctxShort op c w s f) := by
  simp only [shortIs, Bool.and_eq_true, Bool.not_eq_true', beq_iff_eq] at h
  unfold ctxShort
  simp only [h.1, h.2, bne_self_eq_false, Bool.false_and, Bool.or_self, Bool.false_eq_true, if_false]
  refine completes_ite completes_idle (completes_ite completes_next ?_)
  split
  · exact completes_next
  · exact completes_ite completes_idle (completes_ite completes_next (hf _))

theorem completes_millerShort {op : Nat} {w : W32} {s : State} {f : State → Out} (h : shortIs op w = true)
    (hf : ∀ t, completes (f t)) : completes (millerShort op w s f) := by
  simp only [shortIs, Bool.and_eq_true, Bool.not_eq_true', beq_iff_eq] at h
  unfold millerShort
  simp only [h.1, h.2, bne_self_eq_false, Bool.false_and, Bool.or_self, Bool.false_eq_true, if_false]
  exact completes_ite completes_idle (completes_ite completes_next (hf _))

theorem completes_regsOp {op : Nat} {x : Exe} {w : W32} {s : State} {f : Regs → Regs} (h : shortIs op w = true) :
    completes (regsOp op x w s f) := by
  cases x
  · exact completes_ctxShort h fun _ => completes_next
  · exact completes_millerShort h fun _ => completes_next

theorem completes_ctxAccess {op c : Nat} {w : W32} {s : State} {off : Int} {al : Nat} {f : State → Nat → State} (h : shortIs op w = true) :
    completes (ctxAccess op c w s off al f) := by
  refine completes_ctxShort h fun t => ?_
  split
  · exact completes_next
  · exact completes_ite completes_next completes_next

theorem completes_millerAccess {op : Nat} {w : W32} {s : State} {f : State → Nat → State} (h : shortIs op w = true) :
    completes (millerAccess op w s f) := by
  refine completes_millerShort h fun t => ?_
  dsimp only
  split
  · exact completes_next
  · exact completes_next

theorem completes_ctxPriv {op c : Nat} {w : W32} {s : State} (h : shortIs op w = true) : completes (ctxPriv op c w s) :=
  completes_ctxShort h fun _ => completes_next

theorem completes_issueSystem {opc c : Nat} {w : Long} {s : State} {bad : Bool} {f : State → Out} (h : longIs opc w = true)
    (hf : ∀ t, completes (f t)) : completes (issueSystem opc c w s bad f) := by
  simp only [longIs, Bool.and_eq_true, beq_iff_eq] at h
  unfold issueSystem
  simp only [h.1, h.2, Bool.not_true, bne_self_eq_false, Bool.or_self, Bool.false_eq_true, if_false]
  refine completes_ite completes_idle (completes_ite completes_next ?_)
  split
  · exact completes_next
  · exact completes_ite completes_idle (completes_ite completes_next (completes_ite completes_next (hf _)))

theorem completes_issueTensor {r : TRow} {c : Nat} {w : Long} {s : State} (h : longIs r.opc w = true) (hf : r.form w = true) :
    completes (issueTensor r c w s) := by
  have fin : ∀ {i}, completes (issueTensor.finish r c s i) := by
    intro i
    unfold issueTensor.finish
    split
    · exact completes_next
    · split <;> exact completes_next
  simp only [longIs, Bool.and_eq_true, beq_iff_eq] at h
  unfold issueTensor
  simp only [h.1, h.2, hf, Bool.not_true, beq_self_eq_true, Bool.and_self, Bool.and_false, Bool.or_self, Bool.false_eq_true, if_false]
  refine completes_ite completes_idle (completes_ite completes_next ?_)
  split
  · exact completes_next
  refine completes_ite completes_idle (completes_ite ?_ (completes_ite completes_next (completes_ite completes_next ?_)))
  · split <;> exact completes_next
  split
  · exact completes_next
  split
  · refine completes_ite ?_ ?_
    all_goals split
    all_goals first | exact completes_next | exact fin
  · split
    · exact completes_next
    · exact fin

theorem completes_rxPacket {typ l : Nat} {b : List Byte} {err : Bool} {s : State} {f : State → Hdr → List Byte → State} :
    completes (rxPacket typ l b err s f) :=
  completes_ite completes_idle (completes_ite completes_next (completes_ite completes_idle completes_next))

theorem completes_rxSequenced {typ l : Nat} {b : List Byte} {err : Bool} {s : State} {f : State → Hdr → List Byte → State} :
    completes (rxSequenced typ l b err s f) := completes_rxPacket

theorem wred_other {w : Long} (h : (w.role == 0 || w.role == 3) = true) : (wredRow false).form w = true := by
  simp only [wredRow, TRow.plain]
  rcases Bool.or_eq_true_iff.1 h with h | h <;> simp only [beq_iff_eq] at h <;> simp [h]

/-! ### One lemma per row -/

theorem total_nop {s : State} {x w} (h : (Instr.nop x w).wf = true) : completes (exec (.nop x w) s) := by
  show completes (execNop x w s)
  unfold execNop
  dsimp only [Instr.wf] at h
  exact completes_regsOp h

theorem total_add {s : State} {x w} (h : (Instr.add x w).wf = true) : completes (exec (.add x w) s) := by
  show completes (execAdd x w s)
  unfold execAdd
  dsimp only [Instr.wf] at h
  exact completes_regsOp h

theorem total_sub {s : State} {x w} (h : (Instr.sub x w).wf = true) : completes (exec (.sub x w) s) := by
  show completes (execSub x w s)
  unfold execSub
  dsimp only [Instr.wf] at h
  exact completes_regsOp h

theorem total_mul {s : State} {x w} (h : (Instr.mul x w).wf = true) : completes (exec (.mul x w) s) := by
  show completes (execMul x w s)
  unfold execMul
  dsimp only [Instr.wf] at h
  exact completes_regsOp h

theorem total_and {s : State} {x w} (h : (Instr.and x w).wf = true) : completes (exec (.and x w) s) := by
  show completes (execAnd x w s)
  unfold execAnd
  dsimp only [Instr.wf] at h
  exact completes_regsOp h

theorem total_or {s : State} {x w} (h : (Instr.or x w).wf = true) : completes (exec (.or x w) s) := by
  show completes (execOr x w s)
  unfold execOr
  dsimp only [Instr.wf] at h
  exact completes_regsOp h

theorem total_xor {s : State} {x w} (h : (Instr.xor x w).wf = true) : completes (exec (.xor x w) s) := by
  show completes (execXor x w s)
  unfold execXor
  dsimp only [Instr.wf] at h
  exact completes_regsOp h

theorem total_shl {s : State} {x w} (h : (Instr.shl x w).wf = true) : completes (exec (.shl x w) s) := by
  show completes (execShl x w s)
  unfold execShl
  dsimp only [Instr.wf] at h
  exact completes_regsOp h

theorem total_shr {s : State} {x w} (h : (Instr.shr x w).wf = true) : completes (exec (.shr x w) s) := by
  show completes (execShr x w s)
  unfold execShr
  dsimp only [Instr.wf] at h
  exact completes_regsOp h

theorem total_sra {s : State} {x w} (h : (Instr.sra x w).wf = true) : completes (exec (.sra x w) s) := by
  show completes (execSra x w s)
  unfold execSra
  dsimp only [Instr.wf] at h
  exact completes_regsOp h

theorem total_addi {s : State} {x w} (h : (Instr.addi x w).wf = true) : completes (exec (.addi x w) s) := by
  show completes (execAddi x w s)
  unfold execAddi
  dsimp only [Instr.wf] at h
  exact completes_regsOp h

theorem total_shli {s : State} {x w} (h : (Instr.shli x w).wf = true) : completes (exec (.shli x w) s) := by
  show completes (execShli x w s)
  unfold execShli
  dsimp only [Instr.wf] at h
  exact completes_regsOp h

theorem total_cmp {s : State} {x w} (h : (Instr.cmp x w).wf = true) : completes (exec (.cmp x w) s) := by
  show completes (execCmp x w s)
  unfold execCmp
  dsimp only [Instr.wf] at h
  exact completes_regsOp h

theorem total_plog {s : State} {x w} (h : (Instr.plog x w).wf = true) : completes (exec (.plog x w) s) := by
  show completes (execPlog x w s)
  unfold execPlog
  dsimp only [Instr.wf] at h
  exact completes_regsOp h

theorem total_br {s : State} {x w} (h : (Instr.br x w).wf = true) : completes (exec (.br x w) s) := by
  show completes (execBr x w s)
  unfold execBr
  dsimp only [Instr.wf] at h
  repeat' first
    | with_reducible exact completes_next | with_reducible exact completes_idle | with_reducible apply completes_ctxShort h | with_reducible apply completes_millerShort h | with_reducible apply completes_ite | extract_lets | (with_reducible intro _) | split

theorem total_ld {s : State} {x w} (h : (Instr.ld x w).wf = true) : completes (exec (.ld x w) s) := by
  show completes (execLd x w s)
  unfold execLd
  dsimp only [Instr.wf] at h
  repeat' first
    | with_reducible exact completes_next | with_reducible exact completes_idle | with_reducible apply completes_millerAccess h | with_reducible apply completes_ctxAccess h | with_reducible apply completes_ite | extract_lets | split

theorem total_st {s : State} {x w} (h : (Instr.st x w).wf = true) : completes (exec (.st x w) s) := by
  show completes (execSt x w s)
  unfold execSt
  dsimp only [Instr.wf] at h
  repeat' first
    | with_reducible exact completes_next | with_reducible exact completes_idle | with_reducible apply completes_millerAccess h | with_reducible apply completes_ctxAccess h | with_reducible apply completes_ite | extract_lets | split

theorem total_ldt {s : State} {x w} (h : (Instr.ldt x w).wf = true) : completes (exec (.ldt x w) s) := by
  show completes (execLdt x w s)
  unfold execLdt
  dsimp only [Instr.wf] at h
  repeat' first
    | with_reducible exact completes_next | with_reducible exact completes_idle | with_reducible apply completes_ctxAccess h | with_reducible apply completes_millerShort h | with_reducible apply completes_ite | extract_lets | (with_reducible intro _) | split

theorem total_stt {s : State} {x w} (h : (Instr.stt x w).wf = true) : completes (exec (.stt x w) s) := by
  show completes (execStt x w s)
  unfold execStt
  dsimp only [Instr.wf] at h
  repeat' first
    | with_reducible exact completes_next | with_reducible exact completes_idle | with_reducible apply completes_ctxAccess h | with_reducible apply completes_millerShort h | with_reducible apply completes_ite | extract_lets | (with_reducible intro _) | split

theorem total_ldl {s : State} {x w} (h : (Instr.ldl x w).wf = true) : completes (exec (.ldl x w) s) := by
  show completes (execLdl x w s)
  unfold execLdl
  dsimp only [Instr.wf] at h
  repeat' first
    | with_reducible exact completes_next | with_reducible exact completes_idle | with_reducible apply completes_ctxAccess h | with_reducible apply completes_millerShort h | with_reducible apply completes_ite | extract_lets | (with_reducible intro _) | split

theorem total_ldh {s : State} {x w} (h : (Instr.ldh x w).wf = true) : completes (exec (.ldh x w) s) := by
  show completes (execLdh x w s)
  unfold execLdh
  dsimp only [Instr.wf] at h
  repeat' first
    | with_reducible exact completes_next | with_reducible exact completes_idle | with_reducible apply completes_ctxShort h | with_reducible apply completes_millerShort h | with_reducible apply completes_ite | extract_lets | (with_reducible intro _) | split

theorem total_evr {s : State} {x w} (h : (Instr.evr x w).wf = true) : completes (exec (.evr x w) s) := by
  show completes (execEvr x w s)
  unfold execEvr
  dsimp only [Instr.wf] at h
  repeat' first
    | with_reducible exact completes_next | with_reducible exact completes_idle | with_reducible apply completes_ctxShort h | with_reducible apply completes_millerShort h | with_reducible apply completes_ite | extract_lets | (with_reducible intro _) | split

theorem total_evw {s : State} {x w} (h : (Instr.evw x w).wf = true) : completes (exec (.evw x w) s) := by
  show completes (execEvw x w s)
  unfold execEvw
  dsimp only [Instr.wf] at h
  repeat' first
    | with_reducible exact completes_next | with_reducible exact completes_idle | with_reducible apply completes_ctxShort h | with_reducible apply completes_millerShort h | with_reducible apply completes_ite | extract_lets | (with_reducible intro _) | split

theorem total_csrr {s : State} {x w} (h : (Instr.csrr x w).wf = true) : completes (exec (.csrr x w) s) := by
  show completes (execCsrr x w s)
  unfold execCsrr
  dsimp only [Instr.wf] at h
  repeat' first
    | with_reducible exact completes_next | with_reducible exact completes_idle | with_reducible apply completes_ctxShort h | with_reducible apply completes_millerShort h | with_reducible apply completes_ite | extract_lets | (with_reducible intro _) | split

theorem total_csrw {s : State} {x w} (h : (Instr.csrw x w).wf = true) : completes (exec (.csrw x w) s) := by
  show completes (execCsrw x w s)
  unfold execCsrw
  dsimp only [Instr.wf] at h
  repeat' first
    | with_reducible exact completes_next | with_reducible exact completes_idle | with_reducible apply completes_ctxShort h | with_reducible apply completes_millerShort h | with_reducible apply completes_ite | extract_lets | (with_reducible intro _) | split

theorem total_halt {s : State} {x w} (h : (Instr.halt x w).wf = true) : completes (exec (.halt x w) s) := by
  show completes (execHalt x w s)
  unfold execHalt
  dsimp only [Instr.wf] at h
  repeat' first
    | with_reducible exact completes_next | with_reducible exact completes_idle | with_reducible apply completes_ctxShort h | with_reducible apply completes_millerShort h | with_reducible apply completes_ite | extract_lets | (with_reducible intro _) | split

theorem total_mrd {s : State} {x w} (h : (Instr.mrd x w).wf = true) : completes (exec (.mrd x w) s) := by
  show completes (execMrd x w s)
  unfold execMrd
  dsimp only [Instr.wf] at h
  repeat' first
    | with_reducible exact completes_next | with_reducible exact completes_idle | with_reducible exact completes_ctxPriv h | with_reducible apply completes_millerShort h | with_reducible apply completes_ite | extract_lets | (with_reducible intro _) | split

theorem total_mwr {s : State} {x w} (h : (Instr.mwr x w).wf = true) : completes (exec (.mwr x w) s) := by
  show completes (execMwr x w s)
  unfold execMwr
  dsimp only [Instr.wf] at h
  repeat' first
    | with_reducible exact completes_next | with_reducible exact completes_idle | with_reducible exact completes_ctxPriv h | with_reducible apply completes_millerShort h | with_reducible apply completes_ite | extract_lets | (with_reducible intro _) | split

theorem total_evq {s : State} {x w} (h : (Instr.evq x w).wf = true) : completes (exec (.evq x w) s) := by
  show completes (execEvq x w s)
  unfold execEvq
  dsimp only [Instr.wf] at h
  repeat' first
    | with_reducible exact completes_next | with_reducible exact completes_idle | with_reducible exact completes_ctxPriv h | with_reducible apply completes_millerShort h | with_reducible apply completes_ite | extract_lets | (with_reducible intro _) | split

theorem total_wfe {s : State} {x w} (h : (Instr.wfe x w).wf = true) : completes (exec (.wfe x w) s) := by
  show completes (execWfe x w s)
  unfold execWfe
  dsimp only [Instr.wf] at h
  repeat' first
    | with_reducible exact completes_next | with_reducible exact completes_idle | with_reducible exact completes_ctxPriv h | with_reducible apply completes_millerShort h | with_reducible apply completes_ite | extract_lets | (with_reducible intro _) | split

theorem total_wfeRelease {s : State} (h : (Instr.wfeRelease).wf = true) : completes (exec .wfeRelease s) := by
  show completes (execWfeRelease s)
  unfold execWfeRelease
  dsimp only [Instr.wf] at h
  repeat' first
    | with_reducible exact completes_next | with_reducible exact completes_idle | with_reducible apply completes_ite | extract_lets

theorem total_millerFault {s : State} (h : (Instr.millerFault).wf = true) : completes (exec .millerFault s) := by
  show completes (execMillerFault s)
  unfold execMillerFault
  dsimp only [Instr.wf] at h
  repeat' first
    | with_reducible exact completes_next | with_reducible exact completes_idle | with_reducible apply completes_ite | extract_lets | split

theorem total_mmp {s : State} {c w} (h : (Instr.mmp c w).wf = true) : completes (exec (.mmp c w) s) := by
  show completes (execMmp c w s)
  unfold execMmp
  dsimp only [Instr.wf] at h
  first
    | with_reducible apply completes_issueTensor
      · exact h
      · rfl
    | with_reducible apply completes_issueTensor
      · exact (Bool.and_eq_true_iff.1 h).1
      · exact (Bool.and_eq_true_iff.1 h).2

theorem total_mmw {s : State} {c w} (h : (Instr.mmw c w).wf = true) : completes (exec (.mmw c w) s) := by
  show completes (execMmw c w s)
  unfold execMmw
  dsimp only [Instr.wf] at h
  first
    | with_reducible apply completes_issueTensor
      · exact h
      · rfl
    | with_reducible apply completes_issueTensor
      · exact (Bool.and_eq_true_iff.1 h).1
      · exact (Bool.and_eq_true_iff.1 h).2

theorem total_mmc {s : State} {c w} (h : (Instr.mmc c w).wf = true) : completes (exec (.mmc c w) s) := by
  show completes (execMmc c w s)
  unfold execMmc
  dsimp only [Instr.wf] at h
  first
    | with_reducible apply completes_issueTensor
      · exact h
      · rfl
    | with_reducible apply completes_issueTensor
      · exact (Bool.and_eq_true_iff.1 h).1
      · exact (Bool.and_eq_true_iff.1 h).2

theorem total_drain {s : State} {c w} (h : (Instr.drain c w).wf = true) : completes (exec (.drain c w) s) := by
  show completes (execDrain c w s)
  unfold execDrain
  dsimp only [Instr.wf] at h
  first
    | with_reducible apply completes_issueTensor
      · exact h
      · rfl
    | with_reducible apply completes_issueTensor
      · exact (Bool.and_eq_true_iff.1 h).1
      · exact (Bool.and_eq_true_iff.1 h).2

theorem total_accz {s : State} {c w} (h : (Instr.accz c w).wf = true) : completes (exec (.accz c w) s) := by
  show completes (execAccz c w s)
  unfold execAccz
  dsimp only [Instr.wf] at h
  first
    | with_reducible apply completes_issueTensor
      · exact h
      · rfl
    | with_reducible apply completes_issueTensor
      · exact (Bool.and_eq_true_iff.1 h).1
      · exact (Bool.and_eq_true_iff.1 h).2

theorem total_rstat {s : State} {c w} (h : (Instr.rstat c w).wf = true) : completes (exec (.rstat c w) s) := by
  show completes (execRstat c w s)
  unfold execRstat
  dsimp only [Instr.wf] at h
  first
    | with_reducible apply completes_issueTensor
      · exact h
      · rfl
    | with_reducible apply completes_issueTensor
      · exact (Bool.and_eq_true_iff.1 h).1
      · exact (Bool.and_eq_true_iff.1 h).2

theorem total_accsv {s : State} {c w} (h : (Instr.accsv c w).wf = true) : completes (exec (.accsv c w) s) := by
  show completes (execAccsv c w s)
  unfold execAccsv
  dsimp only [Instr.wf] at h
  first
    | with_reducible apply completes_issueTensor
      · exact h
      · rfl
    | with_reducible apply completes_issueTensor
      · exact (Bool.and_eq_true_iff.1 h).1
      · exact (Bool.and_eq_true_iff.1 h).2

theorem total_accld {s : State} {c w} (h : (Instr.accld c w).wf = true) : completes (exec (.accld c w) s) := by
  show completes (execAccld c w s)
  unfold execAccld
  dsimp only [Instr.wf] at h
  first
    | with_reducible apply completes_issueTensor
      · exact h
      · rfl
    | with_reducible apply completes_issueTensor
      · exact (Bool.and_eq_true_iff.1 h).1
      · exact (Bool.and_eq_true_iff.1 h).2

theorem total_attf {s : State} {c w} (h : (Instr.attf c w).wf = true) : completes (exec (.attf c w) s) := by
  show completes (execAttf c w s)
  unfold execAttf
  dsimp only [Instr.wf] at h
  first
    | with_reducible apply completes_issueTensor
      · exact h
      · rfl
    | with_reducible apply completes_issueTensor
      · exact (Bool.and_eq_true_iff.1 h).1
      · exact (Bool.and_eq_true_iff.1 h).2

theorem total_attb {s : State} {c w} (h : (Instr.attb c w).wf = true) : completes (exec (.attb c w) s) := by
  show completes (execAttb c w s)
  unfold execAttb
  dsimp only [Instr.wf] at h
  first
    | with_reducible apply completes_issueTensor
      · exact h
      · rfl
    | with_reducible apply completes_issueTensor
      · exact (Bool.and_eq_true_iff.1 h).1
      · exact (Bool.and_eq_true_iff.1 h).2

theorem total_attmConfirm {s : State} {c w} (h : (Instr.attmConfirm c w).wf = true) : completes (exec (.attmConfirm c w) s) := by
  show completes (execAttmConfirm c w s)
  unfold execAttmConfirm
  dsimp only [Instr.wf] at h
  first
    | with_reducible apply completes_issueTensor
      · exact h
      · rfl
    | with_reducible apply completes_issueTensor
      · exact (Bool.and_eq_true_iff.1 h).1
      · simpa [attmRow, kvapRow, pwuRow, wredRow, TRow.plain] using (Bool.and_eq_true_iff.1 h).2

theorem total_attmMerge {s : State} {c w} (h : (Instr.attmMerge c w).wf = true) : completes (exec (.attmMerge c w) s) := by
  show completes (execAttmMerge c w s)
  unfold execAttmMerge
  dsimp only [Instr.wf] at h
  first
    | with_reducible apply completes_issueTensor
      · exact h
      · rfl
    | with_reducible apply completes_issueTensor
      · exact (Bool.and_eq_true_iff.1 h).1
      · simpa [attmRow, kvapRow, pwuRow, wredRow, TRow.plain] using (Bool.and_eq_true_iff.1 h).2

theorem total_bias {s : State} {c w} (h : (Instr.bias c w).wf = true) : completes (exec (.bias c w) s) := by
  show completes (execBias c w s)
  unfold execBias
  dsimp only [Instr.wf] at h
  first
    | with_reducible apply completes_issueTensor
      · exact h
      · rfl
    | with_reducible apply completes_issueTensor
      · exact (Bool.and_eq_true_iff.1 h).1
      · exact (Bool.and_eq_true_iff.1 h).2

theorem total_fnx {s : State} {c w} (h : (Instr.fnx c w).wf = true) : completes (exec (.fnx c w) s) := by
  show completes (execFnx c w s)
  unfold execFnx
  dsimp only [Instr.wf] at h
  first
    | with_reducible apply completes_issueTensor
      · exact h
      · rfl
    | with_reducible apply completes_issueTensor
      · exact (Bool.and_eq_true_iff.1 h).1
      · exact (Bool.and_eq_true_iff.1 h).2

theorem total_fnxLoad {s : State} {c w} (h : (Instr.fnxLoad c w).wf = true) : completes (exec (.fnxLoad c w) s) := by
  show completes (execFnxLoad c w s)
  unfold execFnxLoad
  dsimp only [Instr.wf] at h
  first
    | with_reducible apply completes_issueTensor
      · exact h
      · rfl
    | with_reducible apply completes_issueTensor
      · exact (Bool.and_eq_true_iff.1 h).1
      · exact (Bool.and_eq_true_iff.1 h).2

theorem total_fnxCompat {s : State} {c w} (h : (Instr.fnxCompat c w).wf = true) : completes (exec (.fnxCompat c w) s) := by
  show completes (execFnxCompat c w s)
  unfold execFnxCompat
  dsimp only [Instr.wf] at h
  first
    | with_reducible apply completes_issueTensor
      · exact h
      · rfl
    | with_reducible apply completes_issueTensor
      · exact (Bool.and_eq_true_iff.1 h).1
      · exact (Bool.and_eq_true_iff.1 h).2

theorem total_gate {s : State} {c w} (h : (Instr.gate c w).wf = true) : completes (exec (.gate c w) s) := by
  show completes (execGate c w s)
  unfold execGate
  dsimp only [Instr.wf] at h
  first
    | with_reducible apply completes_issueTensor
      · exact h
      · rfl
    | with_reducible apply completes_issueTensor
      · exact (Bool.and_eq_true_iff.1 h).1
      · exact (Bool.and_eq_true_iff.1 h).2

theorem total_norm {s : State} {c w} (h : (Instr.norm c w).wf = true) : completes (exec (.norm c w) s) := by
  show completes (execNorm c w s)
  unfold execNorm
  dsimp only [Instr.wf] at h
  first
    | with_reducible apply completes_issueTensor
      · exact h
      · rfl
    | with_reducible apply completes_issueTensor
      · exact (Bool.and_eq_true_iff.1 h).1
      · exact (Bool.and_eq_true_iff.1 h).2

theorem total_qnt {s : State} {c w} (h : (Instr.qnt c w).wf = true) : completes (exec (.qnt c w) s) := by
  show completes (execQnt c w s)
  unfold execQnt
  dsimp only [Instr.wf] at h
  first
    | with_reducible apply completes_issueTensor
      · exact h
      · rfl
    | with_reducible apply completes_issueTensor
      · exact (Bool.and_eq_true_iff.1 h).1
      · exact (Bool.and_eq_true_iff.1 h).2

theorem total_kvap {s : State} {c w} (h : (Instr.kvap c w).wf = true) : completes (exec (.kvap c w) s) := by
  show completes (execKvap c w s)
  unfold execKvap
  dsimp only [Instr.wf] at h
  first
    | with_reducible apply completes_issueTensor
      · exact h
      · rfl
    | with_reducible apply completes_issueTensor
      · exact (Bool.and_eq_true_iff.1 h).1
      · simpa [attmRow, kvapRow, pwuRow, wredRow, TRow.plain] using (Bool.and_eq_true_iff.1 h).2

theorem total_kvapSpec {s : State} {c w} (h : (Instr.kvapSpec c w).wf = true) : completes (exec (.kvapSpec c w) s) := by
  show completes (execKvapSpec c w s)
  unfold execKvapSpec
  dsimp only [Instr.wf] at h
  first
    | with_reducible apply completes_issueTensor
      · exact h
      · rfl
    | with_reducible apply completes_issueTensor
      · exact (Bool.and_eq_true_iff.1 h).1
      · simpa [attmRow, kvapRow, pwuRow, wredRow, TRow.plain] using (Bool.and_eq_true_iff.1 h).2

theorem total_kvcm {s : State} {c w} (h : (Instr.kvcm c w).wf = true) : completes (exec (.kvcm c w) s) := by
  show completes (execKvcm c w s)
  unfold execKvcm
  dsimp only [Instr.wf] at h
  first
    | with_reducible apply completes_issueTensor
      · exact h
      · rfl
    | with_reducible apply completes_issueTensor
      · exact (Bool.and_eq_true_iff.1 h).1
      · exact (Bool.and_eq_true_iff.1 h).2

theorem total_kvds {s : State} {c w} (h : (Instr.kvds c w).wf = true) : completes (exec (.kvds c w) s) := by
  show completes (execKvds c w s)
  unfold execKvds
  dsimp only [Instr.wf] at h
  first
    | with_reducible apply completes_issueTensor
      · exact h
      · rfl
    | with_reducible apply completes_issueTensor
      · exact (Bool.and_eq_true_iff.1 h).1
      · exact (Bool.and_eq_true_iff.1 h).2

theorem total_kvfn {s : State} {c w} (h : (Instr.kvfn c w).wf = true) : completes (exec (.kvfn c w) s) := by
  show completes (execKvfn c w s)
  unfold execKvfn
  dsimp only [Instr.wf] at h
  first
    | with_reducible apply completes_issueTensor
      · exact h
      · rfl
    | with_reducible apply completes_issueTensor
      · exact (Bool.and_eq_true_iff.1 h).1
      · exact (Bool.and_eq_true_iff.1 h).2

theorem total_kviv {s : State} {c w} (h : (Instr.kviv c w).wf = true) : completes (exec (.kviv c w) s) := by
  show completes (execKviv c w s)
  unfold execKviv
  dsimp only [Instr.wf] at h
  first
    | with_reducible apply completes_issueTensor
      · exact h
      · rfl
    | with_reducible apply completes_issueTensor
      · exact (Bool.and_eq_true_iff.1 h).1
      · exact (Bool.and_eq_true_iff.1 h).2

theorem total_pgcwCopy {s : State} {c w} (h : (Instr.pgcwCopy c w).wf = true) : completes (exec (.pgcwCopy c w) s) := by
  show completes (execPgcwCopy c w s)
  unfold execPgcwCopy
  dsimp only [Instr.wf] at h
  first
    | with_reducible apply completes_issueTensor
      · exact h
      · rfl
    | with_reducible apply completes_issueTensor
      · exact (Bool.and_eq_true_iff.1 h).1
      · exact (Bool.and_eq_true_iff.1 h).2

theorem total_pgcwPromote {s : State} {c w} (h : (Instr.pgcwPromote c w).wf = true) : completes (exec (.pgcwPromote c w) s) := by
  show completes (execPgcwPromote c w s)
  unfold execPgcwPromote
  dsimp only [Instr.wf] at h
  first
    | with_reducible apply completes_issueTensor
      · exact h
      · rfl
    | with_reducible apply completes_issueTensor
      · exact (Bool.and_eq_true_iff.1 h).1
      · exact (Bool.and_eq_true_iff.1 h).2

theorem total_pgcwDemote {s : State} {c w} (h : (Instr.pgcwDemote c w).wf = true) : completes (exec (.pgcwDemote c w) s) := by
  show completes (execPgcwDemote c w s)
  unfold execPgcwDemote
  dsimp only [Instr.wf] at h
  first
    | with_reducible apply completes_issueTensor
      · exact h
      · rfl
    | with_reducible apply completes_issueTensor
      · exact (Bool.and_eq_true_iff.1 h).1
      · exact (Bool.and_eq_true_iff.1 h).2

theorem total_pgcwProtect {s : State} {c w} (h : (Instr.pgcwProtect c w).wf = true) : completes (exec (.pgcwProtect c w) s) := by
  show completes (execPgcwProtect c w s)
  unfold execPgcwProtect
  dsimp only [Instr.wf] at h
  first
    | with_reducible apply completes_issueTensor
      · exact h
      · rfl
    | with_reducible apply completes_issueTensor
      · exact (Bool.and_eq_true_iff.1 h).1
      · exact (Bool.and_eq_true_iff.1 h).2

theorem total_pgcwUnprotect {s : State} {c w} (h : (Instr.pgcwUnprotect c w).wf = true) : completes (exec (.pgcwUnprotect c w) s) := by
  show completes (execPgcwUnprotect c w s)
  unfold execPgcwUnprotect
  dsimp only [Instr.wf] at h
  first
    | with_reducible apply completes_issueTensor
      · exact h
      · rfl
    | with_reducible apply completes_issueTensor
      · exact (Bool.and_eq_true_iff.1 h).1
      · exact (Bool.and_eq_true_iff.1 h).2

theorem total_pgcwDigest {s : State} {c w} (h : (Instr.pgcwDigest c w).wf = true) : completes (exec (.pgcwDigest c w) s) := by
  show completes (execPgcwDigest c w s)
  unfold execPgcwDigest
  dsimp only [Instr.wf] at h
  first
    | with_reducible apply completes_issueTensor
      · exact h
      · rfl
    | with_reducible apply completes_issueTensor
      · exact (Bool.and_eq_true_iff.1 h).1
      · exact (Bool.and_eq_true_iff.1 h).2

theorem total_pgfr {s : State} {c w} (h : (Instr.pgfr c w).wf = true) : completes (exec (.pgfr c w) s) := by
  show completes (execPgfr c w s)
  unfold execPgfr
  dsimp only [Instr.wf] at h
  first
    | with_reducible apply completes_issueTensor
      · exact h
      · rfl
    | with_reducible apply completes_issueTensor
      · exact (Bool.and_eq_true_iff.1 h).1
      · exact (Bool.and_eq_true_iff.1 h).2

theorem total_pgfrLog {s : State} {c w} (h : (Instr.pgfrLog c w).wf = true) : completes (exec (.pgfrLog c w) s) := by
  show completes (execPgfrLog c w s)
  unfold execPgfrLog
  dsimp only [Instr.wf] at h
  first
    | with_reducible apply completes_issueTensor
      · exact h
      · rfl
    | with_reducible apply completes_issueTensor
      · exact (Bool.and_eq_true_iff.1 h).1
      · exact (Bool.and_eq_true_iff.1 h).2

theorem total_pgpn {s : State} {c w} (h : (Instr.pgpn c w).wf = true) : completes (exec (.pgpn c w) s) := by
  show completes (execPgpn c w s)
  unfold execPgpn
  dsimp only [Instr.wf] at h
  first
    | with_reducible apply completes_issueTensor
      · exact h
      · rfl
    | with_reducible apply completes_issueTensor
      · exact (Bool.and_eq_true_iff.1 h).1
      · exact (Bool.and_eq_true_iff.1 h).2

theorem total_bolt {s : State} {c w} (h : (Instr.bolt c w).wf = true) : completes (exec (.bolt c w) s) := by
  show completes (execBolt c w s)
  unfold execBolt
  dsimp only [Instr.wf] at h
  first
    | with_reducible apply completes_issueTensor
      · exact h
      · rfl
    | with_reducible apply completes_issueTensor
      · exact (Bool.and_eq_true_iff.1 h).1
      · exact (Bool.and_eq_true_iff.1 h).2

theorem total_bprf {s : State} {c w} (h : (Instr.bprf c w).wf = true) : completes (exec (.bprf c w) s) := by
  show completes (execBprf c w s)
  unfold execBprf
  dsimp only [Instr.wf] at h
  first
    | with_reducible apply completes_issueTensor
      · exact h
      · rfl
    | with_reducible apply completes_issueTensor
      · exact (Bool.and_eq_true_iff.1 h).1
      · exact (Bool.and_eq_true_iff.1 h).2

theorem total_mov {s : State} {c w} (h : (Instr.mov c w).wf = true) : completes (exec (.mov c w) s) := by
  show completes (execMov c w s)
  unfold execMov
  dsimp only [Instr.wf] at h
  first
    | with_reducible apply completes_issueTensor
      · exact h
      · rfl
    | with_reducible apply completes_issueTensor
      · exact (Bool.and_eq_true_iff.1 h).1
      · exact (Bool.and_eq_true_iff.1 h).2

theorem total_ldop {s : State} {c w} (h : (Instr.ldop c w).wf = true) : completes (exec (.ldop c w) s) := by
  show completes (execLdop c w s)
  unfold execLdop
  dsimp only [Instr.wf] at h
  first
    | with_reducible apply completes_issueTensor
      · exact h
      · rfl
    | with_reducible apply completes_issueTensor
      · exact (Bool.and_eq_true_iff.1 h).1
      · exact (Bool.and_eq_true_iff.1 h).2

theorem total_halo {s : State} {c w} (h : (Instr.halo c w).wf = true) : completes (exec (.halo c w) s) := by
  show completes (execHalo c w s)
  unfold execHalo
  dsimp only [Instr.wf] at h
  first
    | with_reducible apply completes_issueTensor
      · exact h
      · rfl
    | with_reducible apply completes_issueTensor
      · exact (Bool.and_eq_true_iff.1 h).1
      · exact (Bool.and_eq_true_iff.1 h).2

theorem total_ring {s : State} {c w} (h : (Instr.ring c w).wf = true) : completes (exec (.ring c w) s) := by
  show completes (execRing c w s)
  unfold execRing
  dsimp only [Instr.wf] at h
  first
    | with_reducible apply completes_issueTensor
      · exact h
      · rfl
    | with_reducible apply completes_issueTensor
      · exact (Bool.and_eq_true_iff.1 h).1
      · exact (Bool.and_eq_true_iff.1 h).2

theorem total_send {s : State} {c w} (h : (Instr.send c w).wf = true) : completes (exec (.send c w) s) := by
  show completes (execSend c w s)
  unfold execSend
  dsimp only [Instr.wf] at h
  first
    | with_reducible apply completes_issueTensor
      · exact h
      · rfl
    | with_reducible apply completes_issueTensor
      · exact (Bool.and_eq_true_iff.1 h).1
      · exact (Bool.and_eq_true_iff.1 h).2

theorem total_recv {s : State} {c w} (h : (Instr.recv c w).wf = true) : completes (exec (.recv c w) s) := by
  show completes (execRecv c w s)
  unfold execRecv
  dsimp only [Instr.wf] at h
  first
    | with_reducible apply completes_issueTensor
      · exact h
      · rfl
    | with_reducible apply completes_issueTensor
      · exact (Bool.and_eq_true_iff.1 h).1
      · exact (Bool.and_eq_true_iff.1 h).2

theorem total_wredContribute {s : State} {c w} (h : (Instr.wredContribute c w).wf = true) : completes (exec (.wredContribute c w) s) := by
  show completes (execWredContribute c w s)
  unfold execWredContribute
  dsimp only [Instr.wf] at h
  first
    | with_reducible apply completes_issueTensor
      · exact h
      · rfl
    | with_reducible apply completes_issueTensor
      · exact (Bool.and_eq_true_iff.1 h).1
      · exact wred_other (Bool.and_eq_true_iff.1 h).2

theorem total_wredReduce {s : State} {c w} (h : (Instr.wredReduce c w).wf = true) : completes (exec (.wredReduce c w) s) := by
  show completes (execWredReduce c w s)
  unfold execWredReduce
  dsimp only [Instr.wf] at h
  first
    | with_reducible apply completes_issueTensor
      · exact h
      · rfl
    | with_reducible apply completes_issueTensor
      · exact (Bool.and_eq_true_iff.1 h).1
      · simpa [attmRow, kvapRow, pwuRow, wredRow, TRow.plain] using (Bool.and_eq_true_iff.1 h).2

theorem total_topk {s : State} {c w} (h : (Instr.topk c w).wf = true) : completes (exec (.topk c w) s) := by
  show completes (execTopk c w s)
  unfold execTopk
  dsimp only [Instr.wf] at h
  first
    | with_reducible apply completes_issueTensor
      · exact h
      · rfl
    | with_reducible apply completes_issueTensor
      · exact (Bool.and_eq_true_iff.1 h).1
      · exact (Bool.and_eq_true_iff.1 h).2

theorem total_fence {s : State} {c w} (h : (Instr.fence c w).wf = true) : completes (exec (.fence c w) s) := by
  show completes (execFence c w s)
  unfold execFence
  dsimp only [Instr.wf] at h
  repeat' first
    | with_reducible exact completes_next | with_reducible exact completes_idle | with_reducible apply completes_issueSystem h | with_reducible apply completes_ite | extract_lets | (with_reducible intro _)

theorem total_fenceSatisfied {s : State} {c} (h : (Instr.fenceSatisfied c).wf = true) : completes (exec (.fenceSatisfied c) s) := by
  show completes (execFenceSatisfied c s)
  unfold execFenceSatisfied
  dsimp only [Instr.wf] at h
  repeat' first
    | with_reducible exact completes_next | with_reducible exact completes_idle | with_reducible apply completes_ite | extract_lets | split

theorem total_wait {s : State} {c w} (h : (Instr.wait c w).wf = true) : completes (exec (.wait c w) s) := by
  show completes (execWait c w s)
  unfold execWait
  dsimp only [Instr.wf] at h
  repeat' first
    | with_reducible exact completes_next | with_reducible exact completes_idle | with_reducible apply completes_issueSystem h | with_reducible apply completes_ite | extract_lets | (with_reducible intro _)

theorem total_waitSatisfied {s : State} {c} (h : (Instr.waitSatisfied c).wf = true) : completes (exec (.waitSatisfied c) s) := by
  show completes (execWaitSatisfied c s)
  unfold execWaitSatisfied
  dsimp only [Instr.wf] at h
  repeat' first
    | with_reducible exact completes_next | with_reducible exact completes_idle | with_reducible apply completes_ite | extract_lets | split

theorem total_sig {s : State} {c w} (h : (Instr.sig c w).wf = true) : completes (exec (.sig c w) s) := by
  show completes (execSig c w s)
  unfold execSig
  dsimp only [Instr.wf] at h
  repeat' first
    | with_reducible exact completes_next | with_reducible exact completes_idle | with_reducible apply completes_issueSystem h | with_reducible apply completes_ite | extract_lets | (with_reducible intro _)

theorem total_sigIncrement {s : State} {n} (h : (Instr.sigIncrement n).wf = true) : completes (exec (.sigIncrement n) s) := by
  show completes (execSigIncrement n s)
  unfold execSigIncrement
  dsimp only [Instr.wf] at h
  repeat' first
    | with_reducible exact completes_next | with_reducible exact completes_idle | with_reducible apply completes_ite | extract_lets | split

theorem total_call {s : State} {c w} (h : (Instr.call c w).wf = true) : completes (exec (.call c w) s) := by
  show completes (execCall c w s)
  unfold execCall
  dsimp only [Instr.wf] at h
  repeat' first
    | with_reducible exact completes_next | with_reducible exact completes_idle | with_reducible apply completes_issueSystem h | with_reducible apply completes_ite | extract_lets | (with_reducible intro _) | split

theorem total_ret {s : State} {c w} (h : (Instr.ret c w).wf = true) : completes (exec (.ret c w) s) := by
  show completes (execRet c w s)
  unfold execRet
  dsimp only [Instr.wf] at h
  repeat' first
    | with_reducible exact completes_next | with_reducible exact completes_idle | with_reducible apply completes_issueSystem h | with_reducible apply completes_ite | extract_lets | (with_reducible intro _) | split

theorem total_tensorInstructionEnd {s : State} {n} (h : (Instr.tensorInstructionEnd n).wf = true) : completes (exec (.tensorInstructionEnd n) s) := by
  show completes (execTensorInstructionEnd n s)
  unfold execTensorInstructionEnd
  dsimp only [Instr.wf] at h
  repeat' first
    | with_reducible exact completes_next | with_reducible exact completes_idle | with_reducible apply completes_ite | extract_lets | split

theorem total_passStart {s : State} {core bed} (h : (Instr.passStart core bed).wf = true) : completes (exec (.passStart core bed) s) := by
  show completes (execPassStart core bed s)
  unfold execPassStart
  dsimp only [Instr.wf] at h
  repeat' first
    | with_reducible exact completes_next | with_reducible exact completes_idle | with_reducible apply completes_ite | extract_lets | split

theorem total_drainStart {s : State} {core} (h : (Instr.drainStart core).wf = true) : completes (exec (.drainStart core) s) := by
  show completes (execDrainStart core s)
  unfold execDrainStart
  dsimp only [Instr.wf] at h
  repeat' first
    | with_reducible exact completes_next | with_reducible exact completes_idle | with_reducible apply completes_ite | extract_lets | split

theorem total_bundleAppend {s : State} {ch b} (h : (Instr.bundleAppend ch b).wf = true) : completes (exec (.bundleAppend ch b) s) := by
  show completes (execBundleAppend ch b s)
  unfold execBundleAppend
  dsimp only [Instr.wf] at h
  repeat' first
    | with_reducible exact completes_next | with_reducible exact completes_idle | (split; · exact absurd ‹_› (by simpa using h)) | with_reducible apply completes_ite | extract_lets

theorem total_bundleResync {s : State} {ch b} (h : (Instr.bundleResync ch b).wf = true) : completes (exec (.bundleResync ch b) s) := by
  show completes (execBundleResync ch b s)
  unfold execBundleResync
  dsimp only [Instr.wf] at h
  repeat' first
    | with_reducible exact completes_next | with_reducible exact completes_idle | (split; · exact absurd ‹_› (by simpa using h)) | with_reducible apply completes_ite | extract_lets

theorem total_heldBundleRelease {s : State} {ch} (h : (Instr.heldBundleRelease ch).wf = true) : completes (exec (.heldBundleRelease ch) s) := by
  show completes (execHeldBundleRelease ch s)
  unfold execHeldBundleRelease
  dsimp only [Instr.wf] at h
  repeat' first
    | with_reducible exact completes_next | with_reducible exact completes_idle | with_reducible apply completes_ite | extract_lets | split

theorem total_consAddrPoll {s : State} {c} (h : (Instr.consAddrPoll c).wf = true) : completes (exec (.consAddrPoll c) s) := by
  show completes (execConsAddrPoll c s)
  unfold execConsAddrPoll
  dsimp only [Instr.wf] at h
  repeat' first
    | with_reducible exact completes_next | with_reducible exact completes_idle | with_reducible apply completes_ite | extract_lets | split

theorem total_nmpReadReturn {s : State} {port tag err} (h : (Instr.nmpReadReturn port tag err).wf = true) : completes (exec (.nmpReadReturn port tag err) s) := by
  show completes (execNmpReadReturn port tag err s)
  unfold execNmpReadReturn
  dsimp only [Instr.wf] at h
  repeat' first
    | with_reducible exact completes_next | with_reducible exact completes_idle | with_reducible apply completes_ite | extract_lets | split

theorem total_nmpWriteAck {s : State} {port tag err} (h : (Instr.nmpWriteAck port tag err).wf = true) : completes (exec (.nmpWriteAck port tag err) s) := by
  show completes (execNmpWriteAck port tag err s)
  unfold execNmpWriteAck
  dsimp only [Instr.wf] at h
  repeat' first
    | with_reducible exact completes_next | with_reducible exact completes_idle | with_reducible apply completes_ite | extract_lets | split

theorem total_portTimeout {s : State} {port wr tag} (h : (Instr.portTimeout port wr tag).wf = true) : completes (exec (.portTimeout port wr tag) s) := by
  show completes (execPortTimeout port wr tag s)
  unfold execPortTimeout
  dsimp only [Instr.wf] at h
  repeat' first
    | with_reducible exact completes_next | with_reducible exact completes_idle | with_reducible apply completes_ite | extract_lets | split

theorem total_atomicLineUpdate {s : State} {port} {err} (h : (Instr.atomicLineUpdate port err).wf = true) : completes (exec (.atomicLineUpdate port err) s) := by
  show completes (execAtomicLineUpdate port err s)
  unfold execAtomicLineUpdate
  dsimp only [Instr.wf] at h
  repeat' first
    | with_reducible exact completes_next | with_reducible exact completes_idle | with_reducible apply completes_ite | extract_lets | split

theorem total_ginvAll {s : State} (h : (Instr.ginvAll).wf = true) : completes (exec .ginvAll s) := by
  show completes (execGinvAll s)
  unfold execGinvAll
  dsimp only [Instr.wf] at h
  repeat' first
    | with_reducible exact completes_next | with_reducible exact completes_idle | with_reducible apply completes_ite | extract_lets

theorem total_ginvRange {s : State} (h : (Instr.ginvRange).wf = true) : completes (exec .ginvRange s) := by
  show completes (execGinvRange s)
  unfold execGinvRange
  dsimp only [Instr.wf] at h
  repeat' first
    | with_reducible exact completes_next | with_reducible exact completes_idle | with_reducible apply completes_ite | extract_lets

theorem total_ginvDone {s : State} (h : (Instr.ginvDone).wf = true) : completes (exec .ginvDone s) := by
  show completes (execGinvDone s)
  unfold execGinvDone
  dsimp only [Instr.wf] at h
  repeat' first
    | with_reducible exact completes_next | with_reducible exact completes_idle | with_reducible apply completes_ite | extract_lets

theorem total_dataPacket {s : State} {l bytes err} (h : (Instr.dataPacket l bytes err).wf = true) : completes (exec (.dataPacket l bytes err) s) := by
  show completes (execDataPacket l bytes err s)
  unfold execDataPacket
  dsimp only [Instr.wf] at h
  repeat' first
    | with_reducible exact completes_next | with_reducible exact completes_idle | with_reducible exact completes_rxSequenced | with_reducible apply completes_ite | extract_lets

theorem total_llctl {s : State} {l bytes err} (h : (Instr.llctl l bytes err).wf = true) : completes (exec (.llctl l bytes err) s) := by
  show completes (execLlctl l bytes err s)
  unfold execLlctl
  dsimp only [Instr.wf] at h
  repeat' first
    | with_reducible exact completes_next | with_reducible exact completes_idle | with_reducible exact completes_rxPacket | with_reducible apply completes_ite | extract_lets | split

theorem total_ready {s : State} {l bytes err} (h : (Instr.ready l bytes err).wf = true) : completes (exec (.ready l bytes err) s) := by
  show completes (execReady l bytes err s)
  unfold execReady
  dsimp only [Instr.wf] at h
  repeat' first
    | with_reducible exact completes_next | with_reducible exact completes_idle | with_reducible exact completes_rxSequenced | with_reducible apply completes_ite | extract_lets

theorem total_cack {s : State} {l bytes err} (h : (Instr.cack l bytes err).wf = true) : completes (exec (.cack l bytes err) s) := by
  show completes (execCack l bytes err s)
  unfold execCack
  dsimp only [Instr.wf] at h
  repeat' first
    | with_reducible exact completes_next | with_reducible exact completes_idle | with_reducible exact completes_rxSequenced | with_reducible apply completes_ite | extract_lets

theorem total_nack {s : State} {l bytes err} (h : (Instr.nack l bytes err).wf = true) : completes (exec (.nack l bytes err) s) := by
  show completes (execNack l bytes err s)
  unfold execNack
  dsimp only [Instr.wf] at h
  repeat' first
    | with_reducible exact completes_next | with_reducible exact completes_idle | with_reducible exact completes_rxSequenced | with_reducible apply completes_ite | extract_lets

theorem total_init {s : State} {l bytes err} (h : (Instr.init l bytes err).wf = true) : completes (exec (.init l bytes err) s) := by
  show completes (execInit l bytes err s)
  unfold execInit
  dsimp only [Instr.wf] at h
  repeat' first
    | with_reducible exact completes_next | with_reducible exact completes_idle | with_reducible exact completes_rxPacket | with_reducible apply completes_ite | extract_lets | (with_reducible intro _)

theorem total_packetSend {s : State} {l} (h : (Instr.packetSend l).wf = true) : completes (exec (.packetSend l) s) := by
  show completes (execPacketSend l s)
  unfold execPacketSend
  dsimp only [Instr.wf] at h
  repeat' first
    | with_reducible exact completes_next | with_reducible exact completes_idle | with_reducible apply completes_ite | extract_lets | split

theorem total_replayTimeout {s : State} {l} (h : (Instr.replayTimeout l).wf = true) : completes (exec (.replayTimeout l) s) := by
  show completes (execReplayTimeout l s)
  unfold execReplayTimeout
  dsimp only [Instr.wf] at h
  repeat' first
    | with_reducible exact completes_next | with_reducible exact completes_idle | with_reducible apply completes_ite | extract_lets

theorem total_llctlReportDeadline {s : State} {l} (h : (Instr.llctlReportDeadline l).wf = true) : completes (exec (.llctlReportDeadline l) s) := by
  show completes (execLlctlReportDeadline l s)
  unfold execLlctlReportDeadline
  dsimp only [Instr.wf] at h
  repeat' first
    | with_reducible exact completes_next | with_reducible exact completes_idle | with_reducible apply completes_ite | extract_lets

theorem total_initResend {s : State} {l} (h : (Instr.initResend l).wf = true) : completes (exec (.initResend l) s) := by
  show completes (execInitResend l s)
  unfold execInitResend
  dsimp only [Instr.wf] at h
  repeat' first
    | with_reducible exact completes_next | with_reducible exact completes_idle | with_reducible apply completes_ite | extract_lets

theorem total_readyResend {s : State} {n} (h : (Instr.readyResend n).wf = true) : completes (exec (.readyResend n) s) := by
  show completes (execReadyResend n s)
  unfold execReadyResend
  dsimp only [Instr.wf] at h
  repeat' first
    | with_reducible exact completes_next | with_reducible exact completes_idle | with_reducible apply completes_ite | extract_lets | split

theorem total_lnkUpChange {s : State} {l up} (h : (Instr.lnkUpChange l up).wf = true) : completes (exec (.lnkUpChange l up) s) := by
  show completes (execLnkUpChange l up s)
  unfold execLnkUpChange
  dsimp only [Instr.wf] at h
  repeat' first
    | with_reducible exact completes_next | with_reducible exact completes_idle | with_reducible apply completes_ite | extract_lets

theorem total_bucketDeadline {s : State} {job bkt} (h : (Instr.bucketDeadline job bkt).wf = true) : completes (exec (.bucketDeadline job bkt) s) := by
  show completes (execBucketDeadline job bkt s)
  unfold execBucketDeadline
  dsimp only [Instr.wf] at h
  repeat' first
    | with_reducible exact completes_next | with_reducible exact completes_idle | with_reducible apply completes_ite | extract_lets | split

theorem total_resAdmit {s : State} {r} (h : (Instr.resAdmit r).wf = true) : completes (exec (.resAdmit r) s) := by
  show completes (execResAdmit r s)
  unfold execResAdmit
  dsimp only [Instr.wf] at h
  repeat' first
    | with_reducible exact completes_next | with_reducible exact completes_idle | with_reducible apply completes_ite | extract_lets

theorem total_resRelease {s : State} {r} (h : (Instr.resRelease r).wf = true) : completes (exec (.resRelease r) s) := by
  show completes (execResRelease r s)
  unfold execResRelease
  dsimp only [Instr.wf] at h
  repeat' first
    | with_reducible exact completes_next | with_reducible exact completes_idle | with_reducible apply completes_ite | extract_lets

theorem total_resRevoke {s : State} {r} (h : (Instr.resRevoke r).wf = true) : completes (exec (.resRevoke r) s) := by
  show completes (execResRevoke r s)
  unfold execResRevoke
  dsimp only [Instr.wf] at h
  repeat' first
    | with_reducible exact completes_next | with_reducible exact completes_idle | with_reducible apply completes_ite | extract_lets

theorem total_windowClose {s : State} {r} (h : (Instr.windowClose r).wf = true) : completes (exec (.windowClose r) s) := by
  show completes (execWindowClose r s)
  unfold execWindowClose
  dsimp only [Instr.wf] at h
  repeat' first
    | with_reducible exact completes_next | with_reducible exact completes_idle | with_reducible apply completes_ite | extract_lets

theorem total_pendingClear {s : State} {r} (h : (Instr.pendingClear r).wf = true) : completes (exec (.pendingClear r) s) := by
  show completes (execPendingClear r s)
  unfold execPendingClear
  dsimp only [Instr.wf] at h
  repeat' first
    | with_reducible exact completes_next | with_reducible exact completes_idle | with_reducible apply completes_ite | extract_lets

theorem total_aenWrite {s : State} {v} (h : (Instr.aenWrite v).wf = true) : completes (exec (.aenWrite v) s) := by
  show completes (execAenWrite v s)
  unfold execAenWrite
  dsimp only [Instr.wf] at h
  repeat' first
    | with_reducible exact completes_next | with_reducible exact completes_idle | with_reducible apply completes_ite | extract_lets

theorem total_aenEffChange {s : State} {b} (h : (Instr.aenEffChange b).wf = true) : completes (exec (.aenEffChange b) s) := by
  show completes (execAenEffChange b s)
  unfold execAenEffChange
  dsimp only [Instr.wf] at h
  repeat' first
    | with_reducible exact completes_next | with_reducible exact completes_idle | with_reducible apply completes_ite | extract_lets

theorem total_batchHoldExpiry {s : State} {n} (h : (Instr.batchHoldExpiry n).wf = true) : completes (exec (.batchHoldExpiry n) s) := by
  show completes (execBatchHoldExpiry n s)
  unfold execBatchHoldExpiry
  dsimp only [Instr.wf] at h
  repeat' first
    | with_reducible exact completes_next | with_reducible exact completes_idle | with_reducible apply completes_ite | extract_lets | split

theorem total_dividerDecreaseEffect {s : State} (h : (Instr.dividerDecreaseEffect).wf = true) : completes (exec .dividerDecreaseEffect s) := by
  show completes (execDividerDecreaseEffect s)
  unfold execDividerDecreaseEffect
  dsimp only [Instr.wf] at h
  repeat' first
    | with_reducible exact completes_next | with_reducible exact completes_idle | with_reducible apply completes_ite | extract_lets

theorem total_parkAbort {s : State} (h : (Instr.parkAbort).wf = true) : completes (exec .parkAbort s) := by
  show completes (execParkAbort s)
  unfold execParkAbort
  dsimp only [Instr.wf] at h
  repeat' first
    | with_reducible exact completes_next | with_reducible exact completes_idle | with_reducible apply completes_ite | extract_lets

theorem total_pwuCommit {s : State} (h : (Instr.pwuCommit).wf = true) : completes (exec .pwuCommit s) := by
  show completes (execPwuCommit s)
  unfold execPwuCommit
  dsimp only [Instr.wf] at h
  repeat' first
    | with_reducible exact completes_next | with_reducible exact completes_idle | with_reducible apply completes_ite | extract_lets

theorem total_ctxEnable {s : State} {c on} (h : (Instr.ctxEnable c on).wf = true) : completes (exec (.ctxEnable c on) s) := by
  show completes (execCtxEnable c on s)
  unfold execCtxEnable
  dsimp only [Instr.wf] at h
  repeat' first
    | with_reducible exact completes_next | with_reducible exact completes_idle | with_reducible apply completes_ite | extract_lets

theorem total_ctxReset {s : State} {c} (h : (Instr.ctxReset c).wf = true) : completes (exec (.ctxReset c) s) := by
  show completes (execCtxReset c s)
  unfold execCtxReset
  dsimp only [Instr.wf] at h
  repeat' first
    | with_reducible exact completes_next | with_reducible exact completes_idle | with_reducible apply completes_ite | extract_lets

theorem total_ctxResume {s : State} {c} (h : (Instr.ctxResume c).wf = true) : completes (exec (.ctxResume c) s) := by
  show completes (execCtxResume c s)
  unfold execCtxResume
  dsimp only [Instr.wf] at h
  repeat' first
    | with_reducible exact completes_next | with_reducible exact completes_idle | with_reducible apply completes_ite | extract_lets

theorem total_ctxCommit {s : State} {c} (h : (Instr.ctxCommit c).wf = true) : completes (exec (.ctxCommit c) s) := by
  show completes (execCtxCommit c s)
  unfold execCtxCommit
  dsimp only [Instr.wf] at h
  repeat' first
    | with_reducible exact completes_next | with_reducible exact completes_idle | with_reducible apply completes_ite | extract_lets

theorem total_inject {s : State} {v} (h : (Instr.inject v).wf = true) : completes (exec (.inject v) s) := by
  show completes (execInject v s)
  unfold execInject
  dsimp only [Instr.wf] at h
  repeat' first
    | with_reducible exact completes_next | with_reducible exact completes_idle | with_reducible apply completes_ite | extract_lets

theorem total_streamClear {s : State} {c strm} (h : (Instr.streamClear c strm).wf = true) : completes (exec (.streamClear c strm) s) := by
  show completes (execStreamClear c strm s)
  unfold execStreamClear
  dsimp only [Instr.wf] at h
  repeat' first
    | with_reducible exact completes_next | with_reducible exact completes_idle | with_reducible apply completes_ite | extract_lets

theorem total_bolterClear {s : State} {c} (h : (Instr.bolterClear c).wf = true) : completes (exec (.bolterClear c) s) := by
  show completes (execBolterClear c s)
  unfold execBolterClear
  dsimp only [Instr.wf] at h
  repeat' first
    | with_reducible exact completes_next | with_reducible exact completes_idle | with_reducible apply completes_ite | extract_lets

theorem total_recoveryWrite {s : State} {b v} (h : (Instr.recoveryWrite b v).wf = true) : completes (exec (.recoveryWrite b v) s) := by
  show completes (execRecoveryWrite b v s)
  unfold execRecoveryWrite
  dsimp only [Instr.wf] at h
  repeat' first
    | with_reducible exact completes_next | with_reducible exact completes_idle | with_reducible apply completes_ite | extract_lets

theorem total_accmDbgRead {s : State} {b} (h : (Instr.accmDbgRead b).wf = true) : completes (exec (.accmDbgRead b) s) := by
  show completes (execAccmDbgRead b s)
  unfold execAccmDbgRead
  dsimp only [Instr.wf] at h
  repeat' first
    | with_reducible exact completes_next | with_reducible exact completes_idle | with_reducible apply completes_ite | extract_lets

theorem total_leatCommit {s : State} {g} (h : (Instr.leatCommit g).wf = true) : completes (exec (.leatCommit g) s) := by
  show completes (execLeatCommit g s)
  unfold execLeatCommit
  dsimp only [Instr.wf] at h
  repeat' first
    | with_reducible exact completes_next | with_reducible exact completes_idle | with_reducible apply completes_ite | extract_lets

theorem total_linkEnWrite {s : State} {hi v} (h : (Instr.linkEnWrite hi v).wf = true) : completes (exec (.linkEnWrite hi v) s) := by
  show completes (execLinkEnWrite hi v s)
  unfold execLinkEnWrite
  dsimp only [Instr.wf] at h
  repeat' first
    | with_reducible exact completes_next | with_reducible exact completes_idle | with_reducible apply completes_ite | extract_lets

theorem total_cstateWrite {s : State} {k v} (h : (Instr.cstateWrite k v).wf = true) : completes (exec (.cstateWrite k v) s) := by
  show completes (execCstateWrite k v s)
  unfold execCstateWrite
  dsimp only [Instr.wf] at h
  repeat' first
    | with_reducible exact completes_next | with_reducible exact completes_idle | with_reducible apply completes_ite | extract_lets

theorem total_fenceSet {s : State} {v} (h : (Instr.fenceSet v).wf = true) : completes (exec (.fenceSet v) s) := by
  show completes (execFenceSet v s)
  unfold execFenceSet
  dsimp only [Instr.wf] at h
  repeat' first
    | with_reducible exact completes_next | with_reducible exact completes_idle | with_reducible apply completes_ite | extract_lets

theorem total_fenceClr {s : State} {v} (h : (Instr.fenceClr v).wf = true) : completes (exec (.fenceClr v) s) := by
  show completes (execFenceClr v s)
  unfold execFenceClr
  dsimp only [Instr.wf] at h
  repeat' first
    | with_reducible exact completes_next | with_reducible exact completes_idle | with_reducible apply completes_ite | extract_lets

theorem total_elogConsWrite {s : State} {v} (h : (Instr.elogConsWrite v).wf = true) : completes (exec (.elogConsWrite v) s) := by
  show completes (execElogConsWrite v s)
  unfold execElogConsWrite
  dsimp only [Instr.wf] at h
  repeat' first
    | with_reducible exact completes_next | with_reducible exact completes_idle | with_reducible apply completes_ite | extract_lets

theorem total_scarfStageWrite {s : State} {operator off v} (h : (Instr.scarfStageWrite operator off v).wf = true) : completes (exec (.scarfStageWrite operator off v) s) := by
  show completes (execScarfStageWrite operator off v s)
  unfold execScarfStageWrite
  dsimp only [Instr.wf] at h
  repeat' first
    | with_reducible exact completes_next | with_reducible exact completes_idle | with_reducible apply completes_ite | extract_lets

theorem total_scarfGo {s : State} {operator} (h : (Instr.scarfGo operator).wf = true) : completes (exec (.scarfGo operator) s) := by
  show completes (execScarfGo operator s)
  unfold execScarfGo
  dsimp only [Instr.wf] at h
  repeat' first
    | with_reducible exact completes_next | with_reducible exact completes_idle | with_reducible apply completes_ite | extract_lets

theorem total_scarfAbandon {s : State} {operator} (h : (Instr.scarfAbandon operator).wf = true) : completes (exec (.scarfAbandon operator) s) := by
  show completes (execScarfAbandon operator s)
  unfold execScarfAbandon
  dsimp only [Instr.wf] at h
  repeat' first
    | with_reducible exact completes_next | with_reducible exact completes_idle | with_reducible apply completes_ite | extract_lets

theorem total_scarfWindowExpiry {s : State} (h : (Instr.scarfWindowExpiry).wf = true) : completes (exec .scarfWindowExpiry s) := by
  show completes (execScarfWindowExpiry s)
  unfold execScarfWindowExpiry
  dsimp only [Instr.wf] at h
  repeat' first
    | with_reducible exact completes_next | with_reducible exact completes_idle | with_reducible apply completes_ite | extract_lets

theorem total_scarfCheckDone {s : State} (h : (Instr.scarfCheckDone).wf = true) : completes (exec .scarfCheckDone s) := by
  show completes (execScarfCheckDone s)
  unfold execScarfCheckDone
  dsimp only [Instr.wf] at h
  repeat' first
    | with_reducible exact completes_next | with_reducible exact completes_idle | with_reducible apply completes_ite | extract_lets | split

theorem total_scarfImageCheck {s : State} {poisoned} (h : (Instr.scarfImageCheck poisoned).wf = true) : completes (exec (.scarfImageCheck poisoned) s) := by
  show completes (execScarfImageCheck poisoned s)
  unfold execScarfImageCheck
  dsimp only [Instr.wf] at h
  repeat' first
    | with_reducible exact completes_next | with_reducible exact completes_idle | with_reducible apply completes_ite | extract_lets

theorem total_cdivWrite {s : State} {v} (h : (Instr.cdivWrite v).wf = true) : completes (exec (.cdivWrite v) s) := by
  show completes (execCdivWrite v s)
  unfold execCdivWrite
  dsimp only [Instr.wf] at h
  repeat' first
    | with_reducible exact completes_next | with_reducible exact completes_idle | with_reducible apply completes_ite | extract_lets

theorem total_vcodeWrite {s : State} {v} (h : (Instr.vcodeWrite v).wf = true) : completes (exec (.vcodeWrite v) s) := by
  show completes (execVcodeWrite v s)
  unfold execVcodeWrite
  dsimp only [Instr.wf] at h
  repeat' first
    | with_reducible exact completes_next | with_reducible exact completes_idle | with_reducible apply completes_ite | extract_lets

theorem total_bayLimitWrite {s : State} {b v} (h : (Instr.bayLimitWrite b v).wf = true) : completes (exec (.bayLimitWrite b v) s) := by
  show completes (execBayLimitWrite b v s)
  unfold execBayLimitWrite
  dsimp only [Instr.wf] at h
  repeat' first
    | with_reducible exact completes_next | with_reducible exact completes_idle | with_reducible apply completes_ite | extract_lets

theorem total_pwrCmdOn {s : State} {d} (h : (Instr.pwrCmdOn d).wf = true) : completes (exec (.pwrCmdOn d) s) := by
  show completes (execPwrCmdOn d s)
  unfold execPwrCmdOn
  dsimp only [Instr.wf] at h
  repeat' first
    | with_reducible exact completes_next | with_reducible exact completes_idle | with_reducible apply completes_ite | extract_lets

theorem total_pwrCmdRetention {s : State} {d} (h : (Instr.pwrCmdRetention d).wf = true) : completes (exec (.pwrCmdRetention d) s) := by
  show completes (execPwrCmdRetention d s)
  unfold execPwrCmdRetention
  dsimp only [Instr.wf] at h
  repeat' first
    | with_reducible exact completes_next | with_reducible exact completes_idle | with_reducible apply completes_ite | extract_lets

theorem total_pwrCmdOff {s : State} {d} (h : (Instr.pwrCmdOff d).wf = true) : completes (exec (.pwrCmdOff d) s) := by
  show completes (execPwrCmdOff d s)
  unfold execPwrCmdOff
  dsimp only [Instr.wf] at h
  repeat' first
    | with_reducible exact completes_next | with_reducible exact completes_idle | with_reducible apply completes_ite | extract_lets

theorem total_idleTimerExpiry {s : State} {d} (h : (Instr.idleTimerExpiry d).wf = true) : completes (exec (.idleTimerExpiry d) s) := by
  show completes (execIdleTimerExpiry d s)
  unfold execIdleTimerExpiry
  dsimp only [Instr.wf] at h
  repeat' first
    | with_reducible exact completes_next | with_reducible exact completes_idle | with_reducible apply completes_ite | extract_lets

theorem total_pwrGoodChange {s : State} {d code} (h : (Instr.pwrGoodChange d code).wf = true) : completes (exec (.pwrGoodChange d code) s) := by
  show completes (execPwrGoodChange d code s)
  unfold execPwrGoodChange
  dsimp only [Instr.wf] at h
  repeat' first
    | with_reducible exact completes_next | with_reducible exact completes_idle | with_reducible apply completes_ite | extract_lets

theorem total_exitStepReady {s : State} {d} (h : (Instr.exitStepReady d).wf = true) : completes (exec (.exitStepReady d) s) := by
  show completes (execExitStepReady d s)
  unfold execExitStepReady
  dsimp only [Instr.wf] at h
  repeat' first
    | with_reducible exact completes_next | with_reducible exact completes_idle | with_reducible apply completes_ite | extract_lets

theorem total_vgoodChange {s : State} {good} (h : (Instr.vgoodChange good).wf = true) : completes (exec (.vgoodChange good) s) := by
  show completes (execVgoodChange good s)
  unfold execVgoodChange
  dsimp only [Instr.wf] at h
  repeat' first
    | with_reducible exact completes_next | with_reducible exact completes_idle | with_reducible apply completes_ite | extract_lets

theorem total_emthrotAssert {s : State} (h : (Instr.emthrotAssert).wf = true) : completes (exec .emthrotAssert s) := by
  show completes (execEmthrotAssert s)
  unfold execEmthrotAssert
  dsimp only [Instr.wf] at h
  repeat' first
    | with_reducible exact completes_next | with_reducible exact completes_idle | with_reducible apply completes_ite | extract_lets

theorem total_emthrotRelease {s : State} (h : (Instr.emthrotRelease).wf = true) : completes (exec .emthrotRelease s) := by
  show completes (execEmthrotRelease s)
  unfold execEmthrotRelease
  dsimp only [Instr.wf] at h
  repeat' first
    | with_reducible exact completes_next | with_reducible exact completes_idle | with_reducible apply completes_ite | extract_lets

theorem total_rootLockLoss {s : State} (h : (Instr.rootLockLoss).wf = true) : completes (exec .rootLockLoss s) := by
  show completes (execRootLockLoss s)
  unfold execRootLockLoss
  dsimp only [Instr.wf] at h
  repeat' first
    | with_reducible exact completes_next | with_reducible exact completes_idle | with_reducible apply completes_ite | extract_lets

theorem total_rootLockRise {s : State} (h : (Instr.rootLockRise).wf = true) : completes (exec .rootLockRise s) := by
  show completes (execRootLockRise s)
  unfold execRootLockRise
  dsimp only [Instr.wf] at h
  repeat' first
    | with_reducible exact completes_next | with_reducible exact completes_idle | with_reducible apply completes_ite | extract_lets

theorem total_rootStop {s : State} (h : (Instr.rootStop).wf = true) : completes (exec .rootStop s) := by
  show completes (execRootStop s)
  unfold execRootStop
  dsimp only [Instr.wf] at h
  repeat' first
    | with_reducible exact completes_next | with_reducible exact completes_idle | with_reducible apply completes_ite | extract_lets

theorem total_rootRestart {s : State} (h : (Instr.rootRestart).wf = true) : completes (exec .rootRestart s) := by
  show completes (execRootRestart s)
  unfold execRootRestart
  dsimp only [Instr.wf] at h
  repeat' first
    | with_reducible exact completes_next | with_reducible exact completes_idle | with_reducible apply completes_ite | extract_lets

theorem total_niaWake {s : State} (h : (Instr.niaWake).wf = true) : completes (exec .niaWake s) := by
  show completes (execNiaWake s)
  unfold execNiaWake
  dsimp only [Instr.wf] at h
  repeat' first
    | with_reducible exact completes_next | with_reducible exact completes_idle | with_reducible apply completes_ite | extract_lets

theorem total_niaRstNAssert {s : State} (h : (Instr.niaRstNAssert).wf = true) : completes (exec .niaRstNAssert s) := by
  show completes (execNiaRstNAssert s)
  unfold execNiaRstNAssert
  dsimp only [Instr.wf] at h
  repeat' first
    | with_reducible exact completes_next | with_reducible exact completes_idle | with_reducible apply completes_ite | extract_lets

theorem total_niaRstNRelease {s : State} (h : (Instr.niaRstNRelease).wf = true) : completes (exec .niaRstNRelease s) := by
  show completes (execNiaRstNRelease s)
  unfold execNiaRstNRelease
  dsimp only [Instr.wf] at h
  repeat' first
    | with_reducible exact completes_next | with_reducible exact completes_idle | with_reducible apply completes_ite | extract_lets

theorem total_fuseSenseDone {s : State} {present keyP keyO vmin8 vmin10 vmin12 vmin16} (h : (Instr.fuseSenseDone present keyP keyO vmin8 vmin10 vmin12 vmin16).wf = true) : completes (exec (.fuseSenseDone present keyP keyO vmin8 vmin10 vmin12 vmin16) s) := by
  show completes (execFuseSenseDone present keyP keyO vmin8 vmin10 vmin12 vmin16 s)
  unfold execFuseSenseDone
  dsimp only [Instr.wf] at h
  repeat' first
    | with_reducible exact completes_next | with_reducible exact completes_idle | with_reducible apply completes_ite | extract_lets

theorem total_selfTestDone {s : State} {cores bays} (h : (Instr.selfTestDone cores bays).wf = true) : completes (exec (.selfTestDone cores bays) s) := by
  show completes (execSelfTestDone cores bays s)
  unfold execSelfTestDone
  dsimp only [Instr.wf] at h
  repeat' first
    | with_reducible exact completes_next | with_reducible exact completes_idle | with_reducible apply completes_ite | extract_lets

theorem total_readyReached {s : State} (h : (Instr.readyReached).wf = true) : completes (exec .readyReached s) := by
  show completes (execReadyReached s)
  unfold execReadyReached
  dsimp only [Instr.wf] at h
  repeat' first
    | with_reducible exact completes_next | with_reducible exact completes_idle | with_reducible apply completes_ite | extract_lets

theorem total_coreErrorDetect {s : State} {core store slot mid} (h : (Instr.coreErrorDetect core store slot mid).wf = true) : completes (exec (.coreErrorDetect core store slot mid) s) := by
  show completes (execCoreErrorDetect core store slot mid s)
  unfold execCoreErrorDetect
  refine completes_ite completes_idle ?_
  split
  · exact completes_next
  · extract_lets p q
    rcases q with ⟨t, _ | _⟩
    · exact completes_idle
    · exact completes_next

theorem total_bayErrorDetect {s : State} {b} (h : (Instr.bayErrorDetect b).wf = true) : completes (exec (.bayErrorDetect b) s) := by
  show completes (execBayErrorDetect b s)
  unfold execBayErrorDetect
  dsimp only [Instr.wf] at h
  repeat' first
    | with_reducible exact completes_next | with_reducible exact completes_idle | with_reducible apply completes_ite | extract_lets

theorem total_mgtWrite {s : State} {addr v} (h : (Instr.mgtWrite addr v).wf = true) : completes (exec (.mgtWrite addr v) s) := by
  show completes (execMgtWrite addr v s)
  unfold execMgtWrite
  dsimp only [Instr.wf] at h
  repeat' first
    | with_reducible exact completes_next | with_reducible exact completes_idle | with_reducible apply completes_ite | extract_lets

theorem total_syncBeatReceived {s : State} {l} (h : (Instr.syncBeatReceived l).wf = true) : completes (exec (.syncBeatReceived l) s) := by
  show completes (execSyncBeatReceived l s)
  unfold execSyncBeatReceived
  dsimp only [Instr.wf] at h
  repeat' first
    | with_reducible exact completes_next | with_reducible exact completes_idle | with_reducible apply completes_ite | extract_lets

theorem total_entryStepDone {s : State} {d} (h : (Instr.entryStepDone d).wf = true) : completes (exec (.entryStepDone d) s) := by
  show completes (execEntryStepDone d s)
  unfold execEntryStepDone
  dsimp only [Instr.wf] at h
  repeat' first
    | with_reducible exact completes_next | with_reducible exact completes_idle | with_reducible apply completes_ite | extract_lets | split

theorem total_nmpRequestAccepted {s : State} {port wr} (h : (Instr.nmpRequestAccepted port wr).wf = true) : completes (exec (.nmpRequestAccepted port wr) s) := by
  show completes (execNmpRequestAccepted port wr s)
  unfold execNmpRequestAccepted
  dsimp only [Instr.wf] at h
  repeat' first
    | with_reducible exact completes_next | with_reducible exact completes_idle | with_reducible apply completes_ite | extract_lets

theorem total_tapInstrumentAccess {s : State} {b t v} (h : (Instr.tapInstrumentAccess b t v).wf = true) : completes (exec (.tapInstrumentAccess b t v) s) := by
  show completes (execTapInstrumentAccess b t v s)
  unfold execTapInstrumentAccess
  dsimp only [Instr.wf] at h
  repeat' first
    | with_reducible exact completes_next | with_reducible exact completes_idle | with_reducible apply completes_ite | extract_lets | split

theorem exec_total {s : State} (i : Instr) (h : i.wf = true) : completes (exec i s) := by
  cases i
  case nop => exact total_nop h
  case add => exact total_add h
  case sub => exact total_sub h
  case mul => exact total_mul h
  case and => exact total_and h
  case or => exact total_or h
  case xor => exact total_xor h
  case shl => exact total_shl h
  case shr => exact total_shr h
  case sra => exact total_sra h
  case addi => exact total_addi h
  case shli => exact total_shli h
  case cmp => exact total_cmp h
  case plog => exact total_plog h
  case br => exact total_br h
  case ld => exact total_ld h
  case st => exact total_st h
  case ldt => exact total_ldt h
  case stt => exact total_stt h
  case ldl => exact total_ldl h
  case ldh => exact total_ldh h
  case evr => exact total_evr h
  case evw => exact total_evw h
  case csrr => exact total_csrr h
  case csrw => exact total_csrw h
  case halt => exact total_halt h
  case mrd => exact total_mrd h
  case mwr => exact total_mwr h
  case evq => exact total_evq h
  case wfe => exact total_wfe h
  case wfeRelease => exact total_wfeRelease h
  case millerFault => exact total_millerFault h
  case mmp => exact total_mmp h
  case mmw => exact total_mmw h
  case mmc => exact total_mmc h
  case drain => exact total_drain h
  case accz => exact total_accz h
  case rstat => exact total_rstat h
  case accsv => exact total_accsv h
  case accld => exact total_accld h
  case attf => exact total_attf h
  case attb => exact total_attb h
  case attmConfirm => exact total_attmConfirm h
  case attmMerge => exact total_attmMerge h
  case bias => exact total_bias h
  case fnx => exact total_fnx h
  case fnxLoad => exact total_fnxLoad h
  case fnxCompat => exact total_fnxCompat h
  case gate => exact total_gate h
  case norm => exact total_norm h
  case qnt => exact total_qnt h
  case kvap => exact total_kvap h
  case kvapSpec => exact total_kvapSpec h
  case kvcm => exact total_kvcm h
  case kvds => exact total_kvds h
  case kvfn => exact total_kvfn h
  case kviv => exact total_kviv h
  case pgcwCopy => exact total_pgcwCopy h
  case pgcwPromote => exact total_pgcwPromote h
  case pgcwDemote => exact total_pgcwDemote h
  case pgcwProtect => exact total_pgcwProtect h
  case pgcwUnprotect => exact total_pgcwUnprotect h
  case pgcwDigest => exact total_pgcwDigest h
  case pgfr => exact total_pgfr h
  case pgfrLog => exact total_pgfrLog h
  case pgpn => exact total_pgpn h
  case bolt => exact total_bolt h
  case bprf => exact total_bprf h
  case mov => exact total_mov h
  case ldop => exact total_ldop h
  case halo => exact total_halo h
  case ring => exact total_ring h
  case send => exact total_send h
  case recv => exact total_recv h
  case wredContribute => exact total_wredContribute h
  case wredReduce => exact total_wredReduce h
  case topk => exact total_topk h
  case fence => exact total_fence h
  case fenceSatisfied => exact total_fenceSatisfied h
  case wait => exact total_wait h
  case waitSatisfied => exact total_waitSatisfied h
  case sig => exact total_sig h
  case sigIncrement => exact total_sigIncrement h
  case call => exact total_call h
  case ret => exact total_ret h
  case tensorInstructionEnd => exact total_tensorInstructionEnd h
  case passStart => exact total_passStart h
  case drainStart => exact total_drainStart h
  case bundleAppend => exact total_bundleAppend h
  case bundleResync => exact total_bundleResync h
  case heldBundleRelease => exact total_heldBundleRelease h
  case consAddrPoll => exact total_consAddrPoll h
  case nmpReadReturn => exact total_nmpReadReturn h
  case nmpWriteAck => exact total_nmpWriteAck h
  case portTimeout => exact total_portTimeout h
  case atomicLineUpdate => exact total_atomicLineUpdate h
  case ginvAll => exact total_ginvAll h
  case ginvRange => exact total_ginvRange h
  case ginvDone => exact total_ginvDone h
  case dataPacket => exact total_dataPacket h
  case llctl => exact total_llctl h
  case ready => exact total_ready h
  case cack => exact total_cack h
  case nack => exact total_nack h
  case init => exact total_init h
  case packetSend => exact total_packetSend h
  case replayTimeout => exact total_replayTimeout h
  case llctlReportDeadline => exact total_llctlReportDeadline h
  case initResend => exact total_initResend h
  case readyResend => exact total_readyResend h
  case lnkUpChange => exact total_lnkUpChange h
  case bucketDeadline => exact total_bucketDeadline h
  case resAdmit => exact total_resAdmit h
  case resRelease => exact total_resRelease h
  case resRevoke => exact total_resRevoke h
  case windowClose => exact total_windowClose h
  case pendingClear => exact total_pendingClear h
  case aenWrite => exact total_aenWrite h
  case aenEffChange => exact total_aenEffChange h
  case batchHoldExpiry => exact total_batchHoldExpiry h
  case dividerDecreaseEffect => exact total_dividerDecreaseEffect h
  case parkAbort => exact total_parkAbort h
  case pwuCommit => exact total_pwuCommit h
  case ctxEnable => exact total_ctxEnable h
  case ctxReset => exact total_ctxReset h
  case ctxResume => exact total_ctxResume h
  case ctxCommit => exact total_ctxCommit h
  case inject => exact total_inject h
  case streamClear => exact total_streamClear h
  case bolterClear => exact total_bolterClear h
  case recoveryWrite => exact total_recoveryWrite h
  case accmDbgRead => exact total_accmDbgRead h
  case leatCommit => exact total_leatCommit h
  case linkEnWrite => exact total_linkEnWrite h
  case cstateWrite => exact total_cstateWrite h
  case fenceSet => exact total_fenceSet h
  case fenceClr => exact total_fenceClr h
  case elogConsWrite => exact total_elogConsWrite h
  case scarfStageWrite => exact total_scarfStageWrite h
  case scarfGo => exact total_scarfGo h
  case scarfAbandon => exact total_scarfAbandon h
  case scarfWindowExpiry => exact total_scarfWindowExpiry h
  case scarfCheckDone => exact total_scarfCheckDone h
  case scarfImageCheck => exact total_scarfImageCheck h
  case cdivWrite => exact total_cdivWrite h
  case vcodeWrite => exact total_vcodeWrite h
  case bayLimitWrite => exact total_bayLimitWrite h
  case pwrCmdOn => exact total_pwrCmdOn h
  case pwrCmdRetention => exact total_pwrCmdRetention h
  case pwrCmdOff => exact total_pwrCmdOff h
  case idleTimerExpiry => exact total_idleTimerExpiry h
  case pwrGoodChange => exact total_pwrGoodChange h
  case exitStepReady => exact total_exitStepReady h
  case vgoodChange => exact total_vgoodChange h
  case emthrotAssert => exact total_emthrotAssert h
  case emthrotRelease => exact total_emthrotRelease h
  case rootLockLoss => exact total_rootLockLoss h
  case rootLockRise => exact total_rootLockRise h
  case rootStop => exact total_rootStop h
  case rootRestart => exact total_rootRestart h
  case niaWake => exact total_niaWake h
  case niaRstNAssert => exact total_niaRstNAssert h
  case niaRstNRelease => exact total_niaRstNRelease h
  case fuseSenseDone => exact total_fuseSenseDone h
  case selfTestDone => exact total_selfTestDone h
  case readyReached => exact total_readyReached h
  case coreErrorDetect => exact total_coreErrorDetect h
  case bayErrorDetect => exact total_bayErrorDetect h
  case mgtWrite => exact total_mgtWrite h
  case syncBeatReceived => exact total_syncBeatReceived h
  case entryStepDone => exact total_entryStepDone h
  case nmpRequestAccepted => exact total_nmpRequestAccepted h
  case tapInstrumentAccess => exact total_tapInstrumentAccess h

end Sys2Proof.Machine
end

