-- ==== Sys2Proof/Tests/Slice0.lean ====
section
/-!
SUPPORT. Tests: an ill-formed term for each check of WellFormed, a witness for the hypotheses of each statement, and a few
operations on values worked out by hand from the rules of spec/ that each test names.
-/

namespace Sys2Proof.Tests
open Sys2Proof Sys2Proof.Machine

set_option Elab.async false

/-! ### Small states -/

/-- A short word: opcode, d, a, b, imm (R325). -/
def sw (op d a b imm : Nat) : W32 := BitVec.ofNat 32 (2 * op + 2 ^ 7 * d + 2 ^ 12 * a + 2 ^ 17 * b + 2 ^ 22 * imm)

/-- Word 0 of a long instruction: opcode, class, predicate (R326). -/
def lw0 (opc cls pred : Nat) : W32 := BitVec.ofNat 32 (1 + 2 * opc + 2 ^ 8 * cls + 2 ^ 12 * pred)

/-- The block in service: every domain on, the root clock in use. -/
def up : State :=
  { State.reset with
    boot := { rstN := true, step := 7, ready := true, rootLock := true, rootReq := true, onRef := false }
    pwr := { doms := (List.range 56).map fun d => (d, { state := 0, req := 3, good := 3 }) } }

/-- An enabled context with words to issue, and s1 = `a`, s2 = `b`. -/
def ctxOf (ws : List W32) (a b : Nat) : Ctx :=
  { enable := true, newest := ws.length, window := Map.setMany 0 [] ((List.range ws.length).zip ws), cfg := { cmplSize := 4 },
    s := Map.setMany 0 [] [(1, BitVec.ofNat 64 a), (2, BitVec.ofNat 64 b)] }

/-- Context 0 stands at the words. -/
def at0 (ws : List W32) (a b : Nat) : State := { up with ctx := [(0, ctxOf ws a b)] }

/-- The Miller runs and stands at a word. -/
def mil (w : W32) (a b : Nat) : State :=
  { up with miller :=
      { started := true, pc := 64, faultEntry := 128, s := Map.setMany 0 [] [(1, BitVec.ofNat 64 a), (2, BitVec.ofNat 64 b)],
        store := Map.setMany 0 [] (cells 64 (natLe 4 w.toNat)) } }

/-- An instruction in flight on bay 0, Core 0 (class A unless said). -/
def inst0 (opc : Nat) (w : Long) : Inst :=
  { n := 1, ctx := 0, opc := opc, w := w, spos := 0, called := false, issue := 1, seed := 0, cls := 0, dom := 0, bays := [0], cores := [0],
    s := [], t := [], l := 0, h := [] }

/-- The test of `State.Canon` that can be evaluated. -/
def canonB (s : State) : Bool :=
  Map.wf {} s.ctx && Map.wf {} s.core && Map.wf {} s.bay && Map.wf none s.insts && Map.wf 0 s.mem.ext && Map.wf {} s.mem.ports
  && Map.wf {} s.sluice.resv && Map.wf {} s.pwu.pools && Map.wf {} s.leat.links && Map.wf {} s.leat.groups && Map.wf {} s.hop.ch
  && Map.wf {} s.pwr.doms && Map.wf 0 s.miller.store && (s.bay.all fun p => Map.wf 0 p.2.mem) && (s.core.all fun p => Map.wf 0 p.2.ob)
  && (s.ctx.all fun p => Map.wf 0 p.2.s && Map.wf false p.2.p && Map.wf 0 p.2.t && Map.wf 0 p.2.l && Map.wf 0 p.2.e && Map.wf 0 p.2.h
    && Map.wf 0 p.2.window && Map.wf {} p.2.streams)

theorem canon_of {s : State} (h : canonB s = true) : s.Canon := by
  simp only [canonB, Bool.and_eq_true, List.all_eq_true] at h
  obtain ⟨⟨⟨⟨⟨⟨⟨⟨⟨⟨⟨⟨⟨⟨⟨a, b⟩, c⟩, d⟩, e⟩, f⟩, g⟩, h⟩, i⟩, j⟩, k⟩, l⟩, m⟩, n⟩, o⟩, p⟩ := h
  exact ⟨a, b, c, d, e, f, g, h, i, j, k, l, m, n, o, fun q hq => by
    obtain ⟨⟨⟨⟨⟨⟨⟨p1, p2⟩, p3⟩, p4⟩, p5⟩, p6⟩, p7⟩, p8⟩ := p q hq
    exact ⟨p1, p2, p3, p4, p5, p6, p7, p8⟩⟩

theorem stands_of {s : State} {c : Nat} {ws : List W32} (h : (s.readyAt c ws && (s.fetchCode c ws.length).isNone) = true) : s.Stands c ws := by
  simpa [State.Stands] using h

theorem takes_of {s : State} {c : Nat} {ws : List W32}
    (h : (s.readyAt c ws && (s.fetchCode c ws.length).isNone && !(s.cx c).ringFull) = true) : s.Takes c ws := by
  simpa [State.Takes, State.Stands] using h

theorem legal_of {op : Nat} {w : W32} (h : (shortIs op w && !shortBad op w.toNat) = true) : Legal op w := by
  simpa [Legal] using h

theorem millerAt_of {s : State} {w : W32} (h : (s.millerRuns && s.millerWord == some w) = true) : s.MillerAt w := by
  simpa [State.MillerAt] using h

theorem open_of {s : State} {d : Option Nat} (h : (s.mgtUp && d.all s.winOn) = true) : s.Open d := by
  simpa [State.Open] using h

/-! ### Well-formed commands -/

theorem test_wf_short : (Instr.add (.ctx 0) (sw 0x01 3 1 2 0)).wf = true ∧ (Instr.add (.ctx 0) (sw 0x02 3 1 2 0)).wf = false ∧
    (Instr.add (.ctx 0) (sw 0x01 3 1 2 0 ||| 1)).wf = false := by decide +kernel
theorem test_wf_long : (Instr.kvfn 0 ⟨lw0 0x43 2 0, 0, 0, 0⟩).wf = true ∧ (Instr.kvfn 0 ⟨lw0 0x44 2 0, 0, 0, 0⟩).wf = false ∧
    (Instr.kvfn 0 ⟨lw0 0x43 2 0 &&& ~~~1, 0, 0, 0⟩).wf = false := by decide +kernel
theorem test_wf_mod : (Instr.attmConfirm 0 ⟨lw0 0x22 2 0, 0, 0, 0⟩).wf = false ∧ (Instr.attmMerge 0 ⟨lw0 0x22 2 0 + 2 ^ 26, 0, 0, 0⟩).wf = false ∧
    (Instr.fnx 0 ⟨lw0 0x30 2 0 + 2 ^ 26, 0, 0, 0⟩).wf = false ∧ (Instr.fnxLoad 0 ⟨lw0 0x30 2 0, 0, 0, 0⟩).wf = false ∧
    (Instr.fnxCompat 0 ⟨lw0 0x30 2 0, 0, 0, 0⟩).wf = false ∧ (Instr.kvap 0 ⟨lw0 0x40 2 0 + 2 ^ 26, 0, 0, 0⟩).wf = false ∧
    (Instr.kvapSpec 0 ⟨lw0 0x40 2 0, 0, 0, 0⟩).wf = false ∧ (Instr.pgfr 0 ⟨lw0 0x46 2 0 + 2 ^ 27, 0, 0, 0⟩).wf = false ∧
    (Instr.pgfrLog 0 ⟨lw0 0x46 2 0, 0, 0, 0⟩).wf = false := by decide +kernel
theorem test_wf_form : (Instr.pgcwCopy 0 ⟨lw0 0x45 2 0, 0, 2 ^ 21, 0⟩).wf = false ∧ (Instr.pgcwDigest 0 ⟨lw0 0x45 2 0, 0, 2 ^ 21, 0⟩).wf = false ∧
    (Instr.pgcwPromote 0 ⟨lw0 0x45 2 0, 0, 2 ^ 21, 0⟩).wf = true := by decide +kernel
theorem test_wf_role : (Instr.wredReduce 0 ⟨lw0 0x63 2 0, 0, 0, 0⟩).wf = false ∧ (Instr.wredContribute 0 ⟨lw0 0x63 2 0, 0, 2 ^ 23, 0⟩).wf = false := by decide +kernel
theorem test_wf_bundle : (Instr.bundleAppend 0 (2 ^ 8)).wf = false ∧ (Instr.bundleResync 0 0).wf = false := by decide +kernel

/-! ### Witnesses: the step and short instructions -/

/-- A legal short word of an opcode. -/
def short (op : Nat) : W32 := BitVec.ofNat 32 ((sw op 4 1 2 0).toNat &&& shortMask op)

theorem short_stands : ∀ op ∈ List.range 64, reservedShort op = false →
    (at0 [short op] 64 7).Takes 0 [short op] ∧ (mil (short op) 64 7).MillerAt (short op) ∧ Legal op (short op) := by
  have h : ∀ op ∈ List.range 64, reservedShort op = false →
      ((at0 [short op] 64 7).readyAt 0 [short op] && ((at0 [short op] 64 7).fetchCode 0 1).isNone && !((at0 [short op] 64 7).cx 0).ringFull) = true ∧
      ((mil (short op) 64 7).millerRuns && (mil (short op) 64 7).millerWord == some (short op)) = true ∧
      (shortIs op (short op) && !shortBad op (short op).toNat) = true := by decide +kernel
  exact fun op ho hr => ⟨takes_of (h op ho hr).1, millerAt_of (h op ho hr).2.1, legal_of (h op ho hr).2.2⟩

/-- RegisterInstructions, PredicateInstructions, HandlesAndControlRegisters, Halts: every opcode stands somewhere, in a context and
in the Miller. -/
theorem witness_short : ∀ op ∈ [0x00, 0x01, 0x02, 0x03, 0x04, 0x05, 0x06, 0x07, 0x08, 0x09, 0x0A, 0x0B, 0x0C, 0x0D, 0x14, 0x15, 0x16, 0x17,
    0x18, 0x19, 0x20, 0x21, 0x22, 0x23], ∃ (s m : State) (w : W32), s.Takes 0 [w] ∧ m.MillerAt w ∧ Legal op w := by
  intro op h
  have h1 : op ∈ List.range 64 ∧ reservedShort op = false := by revert op; decide +kernel
  exact ⟨_, _, short op, short_stands op h1.1 h1.2⟩

/-- A cycle with no edge of SCLK, one with an edge at which the Sluice hears of a bundle of context 0, and an access that waited. -/
theorem witness_EmptyQueueTicks : up.pending = [] ∧ State.reset.pending = [] ∧
    (let s : State := { up with time := { root := 6 }, sluice := { resv := [(0, { state := 1, cfg := { ctx := 0, p := 10 } })], told := [0] } }
     s.pending = [] ∧ s.tick.time.sclk = s.time.sclk ∧ s.Canon ∧ s.boot.onRef = false ∧ s.pwr.vgood = s.pwr.vgoodPin ∧ s.boot.access = []) ∧
    (let s : State := { up with time := { root := 7 }, sluice := { resv := [(0, { state := 1, cfg := { ctx := 0, p := 10 } })], told := [0] } }
     s.tick.time.sclk ≠ s.time.sclk ∧ s.branchOn 48 = true ∧ s.admitted 0 = some 0) ∧
    (let s : State := { up with boot := { up.boot with access := [.niaWake] } }
     s.boot.access = .niaWake :: [] ∧ s.mgtUp = true) :=
  ⟨rfl, rfl, ⟨rfl, by rw [tick_time]; decide +kernel, canon_of (by decide +kernel), by decide +kernel⟩,
    ⟨by rw [tick_time]; decide +kernel, by decide +kernel⟩, by decide +kernel⟩

theorem witness_StepKeepsCanonical : up.Canon ∧ ∃ t, step up = .next t :=
  ⟨canon_of (by decide +kernel), ⟨_, rfl⟩⟩

theorem witness_EveryCommandCompletes : ({ up with pending := [.niaWake] } : State).queueWf := by
  intro i h
  have h : i ∈ [Instr.niaWake] := h
  rw [List.mem_singleton] at h
  subst h; rfl

theorem witness_FusesOnlyBySense : ∃ t, exec (.fuseSenseDone 1 0 0 0 0 0 0)
    { up with boot := { rstN := true, step := 1 }, time := { ref := 8704 } } = .next t ∧
    t.fuse ≠ up.fuse := ⟨_, rfl, by decide +kernel⟩

theorem witness_RegisterFrame : ∃ (s : State) (w : W32), s.Canon ∧ s.Takes 0 [w] ∧ Legal (fld w.toNat 1 6) w ∧ (Instr.add (.ctx 0) w).wf = true :=
  ⟨at0 [short 1] 64 7, short 1, canon_of (by decide +kernel), (short_stands 1 (by decide) rfl).1, legal_of (by decide +kernel), by decide +kernel⟩

/-- BR: predicate p, sense n, a 20-bit offset (R325). -/
def brw (p n off : Nat) : W32 := BitVec.ofNat 32 (2 * 0x0E + 2 ^ 7 * p + 2 ^ 10 * n + 2 ^ 12 * off)

def calledAt (w : W32) : State :=
  { up with ctx := [(0, { enable := true, code := some 64, codeBuf := [(64, natLe 4 w.toNat ++ zeroBytes 60)], cfg := { cmplSize := 4 } })] }

theorem witness_Branches :
    ((at0 [brw 0 1 5] 0 0).Takes 0 [brw 0 1 5] ∧ Legal 0x0E (brw 0 1 5) ∧ xor (((at0 [brw 0 1 5] 0 0).cx 0).rp 0) true = false) ∧
    ((calledAt (brw 0 0 5)).Takes 0 [brw 0 0 5] ∧ Legal 0x0E (brw 0 0 5) ∧ ((calledAt (brw 0 0 5)).cx 0).code = some 64) ∧
    ((at0 [brw 0 0 (2 ^ 20 - 1023)] 0 0).Takes 0 [brw 0 0 (2 ^ 20 - 1023)] ∧ sdiff (1 + 2 ^ 32 - 1) (wrapInt 32 (0 - 1023)) = 1023) ∧
    ((at0 [brw 0 0 (2 ^ 20 - 1024)] 0 0).Takes 0 [brw 0 0 (2 ^ 20 - 1024)] ∧ sdiff (1 + 2 ^ 32 - 1) (wrapInt 32 (0 - 1024)) = 1024) ∧
    (mil (brw 0 0 5) 0 0).MillerAt (brw 0 0 5) :=
  ⟨⟨takes_of (by decide +kernel), legal_of (by decide +kernel), by decide +kernel⟩, ⟨takes_of (by decide +kernel), legal_of (by decide +kernel), rfl⟩,
    ⟨takes_of (by decide +kernel), by decide +kernel⟩, ⟨takes_of (by decide +kernel), by decide +kernel⟩, millerAt_of (by decide +kernel)⟩

/-- Context 0 with a window of every right over the first MiB, a Granary that holds the lines up to 1,024, and words. -/
def mem0 (ws : List W32) (a : Nat) : State :=
  let s := at0 ws a 7
  { s with mem := { s.mem with gran := (List.range 8).map fun k => (k, zeroBytes 128) },
           prot := { s.prot with win := Map.setMany 0 [] [(0, 0x3F), (2, 0xFFFFF000), (3, 0x0)] } }

theorem witness_LoadsFromGranary : ∀ op ∈ [0x0F, 0x11, 0x13], (mem0 [short op] 256).Canon ∧ (mem0 [short op] 256).Takes 0 [short op] ∧
    Legal op (short op) ∧ scalarAddr (((mem0 [short op] 256).cx 0).rs (fa (short op))) 0 = some 256 ∧
    (mem0 [short op] 256).mayRead 0 256 256 = true ∧ (mem0 [short op] 256).granHas 256 256 = true := by
  have h : ∀ op ∈ [0x0F, 0x11, 0x13], canonB (mem0 [short op] 256) = true ∧
    ((mem0 [short op] 256).readyAt 0 [short op] && ((mem0 [short op] 256).fetchCode 0 1).isNone && !((mem0 [short op] 256).cx 0).ringFull) = true ∧
    (shortIs op (short op) && !shortBad op (short op).toNat) = true ∧
    scalarAddr (((mem0 [short op] 256).cx 0).rs (fa (short op))) 0 = some 256 ∧
    (mem0 [short op] 256).mayRead 0 256 256 = true ∧ (mem0 [short op] 256).granHas 256 256 = true := by decide +kernel
  exact fun op ho => ⟨canon_of (h op ho).1, takes_of (h op ho).2.1, legal_of (h op ho).2.2.1, (h op ho).2.2.2⟩

theorem witness_StoresWriteMemory : ∀ op ∈ [0x10, 0x12], (mem0 [short op] 256).Canon ∧ (mem0 [short op] 256).Takes 0 [short op] ∧
    Legal op (short op) ∧ (mem0 [short op] 256).checkAcc 0 false .wr 256 = .ok ∧ (mem0 [short op] 256).portFenced (homePort 256) = false := by
  have h : ∀ op ∈ [0x10, 0x12], canonB (mem0 [short op] 256) = true ∧
    ((mem0 [short op] 256).readyAt 0 [short op] && ((mem0 [short op] 256).fetchCode 0 1).isNone && !((mem0 [short op] 256).cx 0).ringFull) = true ∧
    (shortIs op (short op) && !shortBad op (short op).toNat) = true ∧
    (mem0 [short op] 256).checkAcc 0 false .wr 256 = .ok ∧ (mem0 [short op] 256).portFenced (homePort 256) = false := by decide +kernel
  exact fun op ho => ⟨canon_of (h op ho).1, takes_of (h op ho).2.1, legal_of (h op ho).2.2.1, (h op ho).2.2.2⟩

/-- The last word inside the local store, and the first outside it. -/
theorem witness_MillerLoadStore : ∀ op ∈ [0x0F, 0x10], (mil (short op) 0xBFF8 7).Canon ∧ (mil (short op) 0xBFF8 7).MillerAt (short op) ∧
    (mil (short op) 0xC000 7).MillerAt (short op) ∧ Legal op (short op) ∧ regRead (mil (short op) 0xBFF8 7).miller.s (fa (short op)) = 0xBFF8 := by
  have h : ∀ op ∈ [0x0F, 0x10], canonB (mil (short op) 0xBFF8 7) = true ∧
    ((mil (short op) 0xBFF8 7).millerRuns && (mil (short op) 0xBFF8 7).millerWord == some (short op)) = true ∧
    ((mil (short op) 0xC000 7).millerRuns && (mil (short op) 0xC000 7).millerWord == some (short op)) = true ∧
    (shortIs op (short op) && !shortBad op (short op).toNat) = true ∧ regRead (mil (short op) 0xBFF8 7).miller.s (fa (short op)) = 0xBFF8 := by decide +kernel
  exact fun op ho => ⟨canon_of (h op ho).1, millerAt_of (h op ho).2.1, millerAt_of (h op ho).2.2.1, legal_of (h op ho).2.2.2.1, (h op ho).2.2.2.2⟩

/-- LDH at both sides of 2^24; EVW with its counter free and named by an instruction in flight. -/
theorem witness_HandlesAndControlRegisters :
    ((at0 [short 0x14] (2 ^ 24 - 1) 0).cx 0).rs (fa (short 0x14)) = 2 ^ 24 - 1 ∧ ((at0 [short 0x14] (2 ^ 24) 0).cx 0).rs (fa (short 0x14)) = 2 ^ 24 ∧
    (at0 [short 0x16] 0 0).instList.any (fun i => i.ctx == 0 && i.w.evc == fd (short 0x16)) = false ∧
    ({ at0 [short 0x16] 0 0 with insts := [(1, some (inst0 0 ⟨0, 0, 0, 4⟩))] } : State).instList.any
      (fun i => i.ctx == 0 && i.w.evc == fd (short 0x16)) = true := by decide +kernel

/-- Each register number of CSRR and CSRW, and the first that is none. -/
theorem witness_ControlRegisters : ∀ n ∈ List.range 8, ∀ op ∈ [0x17, 0x18],
    (at0 [sw op 0 0 0 n] 0 0).Takes 0 [sw op 0 0 0 n] ∧ Legal op (sw op 0 0 0 n) ∧ fimm (sw op 0 0 0 n) = n := by
  have h : ∀ n ∈ List.range 8, ∀ op ∈ [0x17, 0x18],
    ((at0 [sw op 0 0 0 n] 0 0).readyAt 0 [sw op 0 0 0 n] && ((at0 [sw op 0 0 0 n] 0 0).fetchCode 0 1).isNone && !((at0 [sw op 0 0 0 n] 0 0).cx 0).ringFull) = true ∧
    (shortIs op (sw op 0 0 0 n) && !shortBad op (sw op 0 0 0 n).toNat) = true ∧ fimm (sw op 0 0 0 n) = n := by decide +kernel
  exact fun n hn op ho => ⟨takes_of (h n hn op ho).1, legal_of (h n hn op ho).2.1, (h n hn op ho).2.2⟩

/-- HALT with room in the ring and with none. -/
theorem witness_Halts : ((at0 [short 0x19] 0 0).cx 0).ringFull = false ∧
    ({ at0 [short 0x19] 0 0 with ctx := [(0, { ctxOf [short 0x19] 0 0 with rseq := 16 })] } : State).Stands 0 [short 0x19] ∧
    (({ at0 [short 0x19] 0 0 with ctx := [(0, { ctxOf [short 0x19] 0 0 with rseq := 16 })] } : State).cx 0).ringFull = true :=
  ⟨by decide +kernel, stands_of (by decide +kernel), by decide +kernel⟩

theorem witness_MillerManagementAndEvents : millerReg (mil (short 0x20) 0x060000 0) (short 0x20) = some 0x060000 ∧
    (mil (short 0x22) 0 0).log.evq = [] ∧ ∃ s : State, s.miller.waiting = true ∧ s.log.evq ≠ [] ∧ s.isOn 55 = true :=
  ⟨by decide +kernel, rfl, { mil 0 0 0 with miller := { waiting := true }, log := { evq := [1] } }, rfl, by decide, by decide +kernel⟩

theorem witness_MillerFaults :
    (∃ s : State, s.millerRuns = true ∧ 0xC000 < s.miller.pc + 4) ∧
    (∃ w, (mil w 0 0).millerWord = some w ∧ w.getLsbD 0 = true) ∧
    (∀ op ∈ [0x11, 0x18], (mil (short op) 0 0).millerWord = some (short op) ∧ (short op).getLsbD 0 = false) ∧
    (mil (short 0x0F) 0xBFF9 0).millerWord = some (short 0x0F) :=
  ⟨⟨{ mil 0 0 0 with miller := { started := true, pc := 0xBFFD } }, by decide +kernel, by decide⟩, ⟨1, by decide +kernel, by decide⟩,
    by decide +kernel, by decide +kernel⟩

theorem witness_ShortInstructionStops :
    (∃ s : State, ∃ w, shortRow (.add (.ctx 0) w) = some (1, .ctx 0, w) ∧ s.Takes 0 [w] ∧ (Instr.add (.ctx 0) w).wf = true ∧ shortBad 1 w.toNat = true) ∧
    (Legal 0x20 (short 0x20)) ∧ (((at0 [short 0x0F] (2 ^ 52) 0).cx 0).rs 1 = 2 ^ 52) ∧ (((at0 [short 0x0F] 4 0).cx 0).rs 1 = 4) ∧
    (∃ w, shortRow (.evr .miller w) = some (0x15, .miller, w) ∧ (mil w 0 0).MillerAt w) ∧
    (let s : State := { at0 [short 0x01] 0 0 with ctx := [(0, { ctxOf [short 0x01] 0 0 with rseq := 16 })] }
     s.canIssue 0 = true ∧ (s.cx 0).ringFull = true) ∧ (Desc.of (2 ^ 221)).rsv ≠ 0 ∧ (Desc.of 0).rsv = 0 :=
  ⟨⟨at0 [sw 1 3 1 2 1] 0 0, sw 1 3 1 2 1, rfl, takes_of (by decide +kernel), by decide +kernel, by decide +kernel⟩, legal_of (by decide +kernel),
    by decide +kernel, by decide +kernel, ⟨short 0x15, rfl, millerAt_of (by decide +kernel)⟩, by decide +kernel, by decide +kernel⟩

/-! ### Witnesses: tensor instructions at issue -/

theorem runs_of {s : State} {opc c : Nat} {w : Long}
    (h : (s.readyAt c w.words && (s.fetchCode c w.words.length).isNone && !(s.cx c).ringFull && longIs opc w && (s.cx c).goes w
      && decide (fld w.w0.toNat 8 4 < 4) && fld w.w0.toNat 16 16 == 0) = true) : s.Runs opc c w := by
  simp only [Bool.and_eq_true, beq_iff_eq, decide_eq_true_eq, Bool.not_eq_true'] at h
  obtain ⟨⟨⟨⟨⟨⟨a, b⟩, r⟩, n⟩, g⟩, k⟩, z⟩ := h
  exact ⟨⟨a, b⟩, r, n, g, k, z⟩

theorem issues_of {s : State} {r : TRow} {c : Nat} {w : Long} (ha : r.apb (s.capture c w) = none)
    (h : (s.readyAt c w.words && (s.fetchCode c w.words.length).isNone && !(s.cx c).ringFull && (s.cx c).goes w
      && decide (s.inflight c < 32) && (s.recDue r (s.capture c w)).isNone) = true) : s.Issues r c w := by
  simp only [Bool.and_eq_true, decide_eq_true_eq, Bool.not_eq_true'] at h
  obtain ⟨⟨⟨⟨⟨a, b⟩, n⟩, g⟩, k⟩, z⟩ := h
  exact ⟨⟨a, b⟩, n, g, k, by simp only [State.apbOk, ha], Option.isNone_iff_eq_none.1 z⟩

theorem passes_of {s : State} {r : TRow} {i : Inst}
    (h : ((s.commonCodes r i ++ r.checks s i).isEmpty && (s.offDoms r i).isEmpty && (r.hold s i).isNone && !r.zero s i) = true) : s.Passes r i := by
  simp only [Bool.and_eq_true, Bool.not_eq_true', List.isEmpty_iff, Option.isNone_iff_eq_none] at h
  exact ⟨h.1.1.1, h.1.1.2, h.1.2, h.2⟩

/-- KVFN of a class under a predicate. -/
def kvfn (cls pred : Nat) : Long := ⟨lw0 0x43 cls pred, 0, 0, 0⟩
def atW (w : Long) : State := at0 w.words 0 0

theorem witness_GovernedOnlyByScarf : ∃ t, exec .niaRstNAssert { up with prot := { up.prot with dbgEn := 1 } } = .next t ∧
    t.governed ≠ ({ up with prot := { up.prot with dbgEn := 1 } } : State).governed :=
  ⟨_, rfl, fun h => absurd (congrArg (fun g => g.2.1) h) (by decide +kernel)⟩

/-- The rows in flight, 31 and 32 of them. -/
def full (k : Nat) (w : Long) : State :=
  { atW w with insts := (List.range k).map fun n => (n + 1, some { inst0 0x43 (kvfn 2 0) with n := n + 1 }), nextInst := k + 1 }

/-- A KVFN predicated off, a KVCM with REC whose record the cache lacks, and each system instruction. -/
theorem witness_PredicatedOff :
    (tensorRow (.kvfn 0 (kvfn 2 1)) = some (kvfnRow, 0, kvfn 2 1) ∧ (Instr.kvfn 0 (kvfn 2 1)).wf = true ∧ (atW (kvfn 2 1)).Stands 0 (kvfn 2 1).words ∧
      ((atW (kvfn 2 1)).cx 0).ringFull = false ∧ ((atW (kvfn 2 1)).cx 0).goes (kvfn 2 1) = false) ∧
    (∀ opc ∈ [0x70, 0x71, 0x72, 0x73, 0x74], (atW ⟨lw0 opc 2 1, 0, 0, 0⟩).Stands 0 (⟨lw0 opc 2 1, 0, 0, 0⟩ : Long).words ∧
      ((atW ⟨lw0 opc 2 1, 0, 0, 0⟩).cx 0).goes ⟨lw0 opc 2 1, 0, 0, 0⟩ = false) ∧
    (let w : Long := ⟨lw0 0x41 2 1, 0, 0, 64⟩
     let s : State := { mem0 w.words 0 with pwu := { cfg := { enable := true } } }
     tensorRow (.kvcm 0 w) = some (kvcmRow 0x41, 0, w) ∧ (Instr.kvcm 0 w).wf = true ∧ s.Stands 0 w.words ∧ (s.cx 0).ringFull = false ∧
       (s.cx 0).goes w = false ∧ w.rec' = true ∧ s.recDue (kvcmRow 0x41) (s.capture 0 w) = some 0) := by
  refine ⟨⟨rfl, by decide +kernel, stands_of (by decide +kernel), by decide +kernel, by decide +kernel⟩, fun opc h => ⟨stands_of ?_, ?_⟩,
    ⟨rfl, by decide +kernel, stands_of (by decide +kernel), by decide +kernel⟩⟩ <;>
    (revert opc; decide +kernel)

theorem witness_TensorHolds :
    (tensorRow (.kvfn 0 (kvfn 2 0)) = some (kvfnRow, 0, kvfn 2 0) ∧ (Instr.kvfn 0 (kvfn 2 0)).wf = true) ∧
    (let s : State := { atW (kvfn 2 0) with ctx := [(0, { ctxOf (kvfn 2 0).words 0 0 with rseq := 16 })] }
     s.Stands 0 (kvfn 2 0).words ∧ (s.cx 0).ringFull = true) ∧
    ((full 32 (kvfn 2 0)).Stands 0 (kvfn 2 0).words ∧ ((full 32 (kvfn 2 0)).cx 0).ringFull = false ∧ 32 ≤ (full 32 (kvfn 2 0)).inflight 0) ∧
    (let s : State := { atW (kvfn 2 0) with pwr := { doms := Map.set {} (atW (kvfn 2 0)).pwr.doms 48 { state := 3, req := 1, good := 1 } } }
     s.Issues kvfnRow 0 (kvfn 2 0) ∧ s.commonCodes kvfnRow (s.atIssue kvfnRow 0 (kvfn 2 0)) ++ kvfnRow.checks s (s.atIssue kvfnRow 0 (kvfn 2 0)) = [] ∧
       s.offDoms kvfnRow (s.atIssue kvfnRow 0 (kvfn 2 0)) = [48]) ∧
    (let w : Long := ⟨lw0 0x46 2 0 + 2 ^ 27, 0, 0, 0⟩
     let s : State := { atW w with pwu := { cfg := { enable := true }, queue := List.range 64 } }
     tensorRow (.pgfrLog 0 w) = some (pgfrLogRow, 0, w) ∧ (Instr.pgfrLog 0 w).wf = true ∧ s.Issues pgfrLogRow 0 w ∧
       s.commonCodes pgfrLogRow (s.atIssue pgfrLogRow 0 w) ++ pgfrLogRow.checks s (s.atIssue pgfrLogRow 0 w) = [] ∧
       s.offDoms pgfrLogRow (s.atIssue pgfrLogRow 0 w) = [] ∧ pgfrLogRow.hold s (s.atIssue pgfrLogRow 0 w) = some .work) ∧
    (let w : Long := ⟨lw0 0x41 2 0, 0, 0, 0⟩
     let s : State := { mem0 w.words 0 with pwu := { cfg := { enable := true } } }
     tensorRow (.kvcm 0 w) = some (kvcmRow 0x41, 0, w) ∧ (Instr.kvcm 0 w).wf = true ∧ s.Stands 0 w.words ∧ (s.cx 0).ringFull = false ∧
       (s.cx 0).goes w = true ∧ s.inflight 0 < 32 ∧ s.recDue (kvcmRow 0x41) (s.capture 0 w) = some 0) :=
  ⟨⟨rfl, by decide +kernel⟩, ⟨stands_of (by decide +kernel), by decide +kernel⟩, ⟨stands_of (by decide +kernel), by decide +kernel, by decide +kernel⟩,
    ⟨issues_of rfl (by decide +kernel), by decide +kernel, by decide +kernel⟩, ⟨rfl, by decide +kernel, issues_of rfl (by decide +kernel),
      by decide +kernel, by decide +kernel, by decide +kernel⟩,
    ⟨rfl, by decide +kernel, stands_of (by decide +kernel), by decide +kernel⟩⟩

/-- A KVFN with a reserved bit set and one of reserved class, each refused with REFUSE.ENCODING. -/
theorem witness_TensorRefused : ∀ w ∈ [(⟨lw0 0x43 2 0, 1, 0, 0⟩ : Long), ⟨lw0 0x43 4 0, 0, 0, 0⟩],
    (Instr.kvfn 0 w).wf = true ∧ (atW w).Issues kvfnRow 0 w ∧
    (atW w).commonCodes kvfnRow ((atW w).atIssue kvfnRow 0 w) ++ kvfnRow.checks (atW w) ((atW w).atIssue kvfnRow 0 w) = [Code.encoding] := by
  have h : ∀ w ∈ [(⟨lw0 0x43 2 0, 1, 0, 0⟩ : Long), ⟨lw0 0x43 4 0, 0, 0, 0⟩], (Instr.kvfn 0 w).wf = true ∧
      ((atW w).readyAt 0 w.words && ((atW w).fetchCode 0 w.words.length).isNone && !((atW w).cx 0).ringFull && ((atW w).cx 0).goes w
        && decide ((atW w).inflight 0 < 32) && ((atW w).recDue kvfnRow ((atW w).capture 0 w)).isNone) = true ∧
      (atW w).commonCodes kvfnRow ((atW w).atIssue kvfnRow 0 w) ++ kvfnRow.checks (atW w) ((atW w).atIssue kvfnRow 0 w) = [Code.encoding] := by
    decide +kernel
  exact fun w hw => ⟨(h w hw).1, issues_of rfl (h w hw).2.1, (h w hw).2.2⟩

/-- Class B and C, with 31 in flight; ACCZ of zero length. -/
theorem witness_TensorAccepted :
    (∀ cls ∈ [2, 3], (full 31 (kvfn cls 0)).Issues kvfnRow 0 (kvfn cls 0) ∧
      (full 31 (kvfn cls 0)).Passes kvfnRow ((full 31 (kvfn cls 0)).atIssue kvfnRow 0 (kvfn cls 0)) ∧
      ((full 31 (kvfn cls 0)).atIssue kvfnRow 0 (kvfn cls 0)).cls ≠ 1) ∧
    (let w : Long := ⟨lw0 0x04 2 0, 0, 0, 0⟩
     let s : State := { atW w with ctx := [(0, { ctxOf w.words 0 0 with baymask := 1 })] }
     s.Issues zeroRow 0 w ∧ zeroRow.zero s (s.atIssue zeroRow 0 w) = true ∧ s.offDoms zeroRow (s.atIssue zeroRow 0 w) = []) := by
  refine ⟨fun cls h => ⟨issues_of rfl ?_, passes_of ?_, ?_⟩, issues_of rfl (by decide +kernel), by decide +kernel, by decide +kernel⟩ <;>
    (revert cls; decide +kernel)

theorem witness_AcceptanceFrame : (atW (kvfn 2 0)).Canon ∧ (Instr.kvfn 0 (kvfn 2 0)).wf = true ∧ (atW (kvfn 2 0)).Issues kvfnRow 0 (kvfn 2 0) ∧
    (atW (kvfn 2 0)).Passes kvfnRow ((atW (kvfn 2 0)).atIssue kvfnRow 0 (kvfn 2 0)) ∧ ((atW (kvfn 2 0)).atIssue kvfnRow 0 (kvfn 2 0)).cls ≠ 1 :=
  ⟨canon_of (by decide +kernel), by decide +kernel, issues_of rfl (by decide +kernel), passes_of (by decide +kernel), by decide +kernel⟩

/-- A reservation of context 0. -/
def withResv (s : State) (x : Resv) : State := { s with sluice := { s.sluice with resv := [(0, x)] } }

/-- A window with W just met, and the reasons 0x10 and 0x14; no reservation; a lower divider that waits. -/
theorem witness_ClassABudget :
    let w := kvfn 1 0
    let x : Resv := { state := 1, aseq := 1, opened := true, used := 10, cfg := { ctx := 0, bays := 1, cores := 1, w := 10, d := 0, p := 10 } }
    let s := withResv (atW w) x
    s.Issues kvfnRow 0 w ∧ s.Passes kvfnRow (s.atIssue kvfnRow 0 w) ∧ (s.atIssue kvfnRow 0 w).cls = 1 ∧ (s.openWindow 0).resvOf 0 = some 0 ∧
      ((s.openWindow 0).rv 0).opened = true ∧ granEntries none (kvfnRow.addrs s (s.atIssue kvfnRow 0 w)) = [] ∧
      10 + kvfnRow.cost s (s.atIssue kvfnRow 0 w) + s.cMem x [] (kvfnRow.dep s (s.atIssue kvfnRow 0 w)) ≤ 10 ∧ s.time.cclk - x.start + x.rt ≤ 0 ∧
    (withResv (atW w) { x with pending := true }).Passes kvfnRow ((withResv (atW w) { x with pending := true }).atIssue kvfnRow 0 w) ∧
    ((withResv (atW w) { x with state := 2 }).openWindow 0).resvOf 0 = some 0 ∧
    (atW w).Passes kvfnRow ((atW w).atIssue kvfnRow 0 w) ∧ ((atW w).openWindow 0).resvOf 0 = none ∧ (atW w).pwr.divPend = false ∧
    kvfnRow.late ((atW w).atIssue kvfnRow 0 w) = false ∧ kvfnRow.zero (atW w) ((atW w).atIssue kvfnRow 0 w) = false ∧
    (let v : Long := ⟨lw0 0x04 1 0, 0, 0, 0⟩
     let t := { atW v with ctx := [(0, { ctxOf v.words 0 0 with baymask := 1 })] }
     t.Issues zeroRow 0 v ∧ zeroRow.zero t (t.atIssue zeroRow 0 v) = true ∧ (t.atIssue zeroRow 0 v).cls = 1) :=
  ⟨issues_of rfl (by decide +kernel), passes_of (by decide +kernel), by decide +kernel, by decide +kernel, by decide +kernel, by decide +kernel,
    by decide +kernel, by decide +kernel, passes_of (by decide +kernel), by decide +kernel, passes_of (by decide +kernel), by decide +kernel, rfl, rfl, by decide +kernel,
    issues_of rfl (by decide +kernel), by decide +kernel⟩

/-! ### Witnesses: system instructions -/

/-- WAIT on e1 for an immediate of 0 and of 1: `e1 − v` is 0 and 2^32 − 1; its held form. -/
theorem witness_Waits : (∀ v ∈ [0, 1], (atW ⟨lw0 0x71 2 0, 1, BitVec.ofNat 32 v, 0⟩).Runs 0x71 0 ⟨lw0 0x71 2 0, 1, BitVec.ofNat 32 v, 0⟩) ∧
    (let w : Long := ⟨lw0 0x71 2 0, 1, 1, 0⟩
     let s : State := { atW w with ctx := [(0, { ctxOf w.words 0 0 with hold := .wait })] }
     (s.cx 0).hold = .wait ∧ s.canIssue 0 = true ∧ (s.cx 0).longAt = some w ∧ (s.cx 0).err = false) := by
  refine ⟨fun v h => runs_of ?_, by decide +kernel⟩
  revert v; decide +kernel

theorem witness_FencesAndStops :
    let w : Long := ⟨lw0 0x70 2 0, 0, 0, 0⟩
    let u : Long := ⟨lw0 0x71 2 0, 0, 0, 0⟩
    let bad : Long → State := fun w => { atW w with ctx := [(0, { ctxOf w.words 0 0 with err := true, lastErr := 0x103 })] }
    (atW w).Runs 0x70 0 w ∧ (full 1 w).Runs 0x70 0 w ∧ (full 1 w).instList.any (fun i => i.ctx == 0 && decide (i.n < (full 1 w).nextInst)) = true ∧
    (let s : State := { full 1 w with ctx := [(0, { ctxOf w.words 0 0 with hold := .fence })] }
     s.canIssue 0 = true ∧ (s.cx 0).longAt = some w) ∧
    ((bad w).Runs 0x70 0 w ∧ (bad u).Runs 0x71 0 u ∧ ((bad w).cx 0).err = true ∧ ((bad w).cx 0).ringFull = false) :=
  ⟨runs_of (by decide +kernel), runs_of (by decide +kernel), by decide +kernel, by decide +kernel, runs_of (by decide +kernel), runs_of (by decide +kernel),
    by decide +kernel, by decide +kernel⟩

/-- SIG to context 63, counter 31, in its own domain and in another; its increment. -/
theorem witness_Signals :
    let w : Long := ⟨lw0 0x72 2 0, 63 + 2 ^ 6 * 31, 0, 0⟩
    (atW w).Runs 0x72 0 w ∧ ((atW w).cx 63).domain = ((atW w).cx 0).domain ∧
    (let s : State := { atW w with ctx := (atW w).ctx ++ [(63, { domain := 1 })] }
     s.Runs 0x72 0 w ∧ (s.cx 63).domain ≠ (s.cx 0).domain) ∧
    (let i : Inst := { inst0 0x72 w with aux := [63, 31] }
     let s : State := { up with insts := [(1, some i)] }
     s.inst 1 = some i ∧ ∀ j ∈ s.instList, j.ctx = i.ctx → j.opc ≠ 0x72 → 1 ≤ j.n) :=
  ⟨runs_of (by decide +kernel), by decide +kernel, ⟨runs_of (by decide +kernel), by decide +kernel⟩, by decide +kernel⟩

/-- CALL from the stream and from called code, to the last aligned address, to a misaligned one and to 2^52, at depth 7 and 8;
RET with each kind of entry and with none. -/
theorem witness_CallsAndReturns :
    let w : Long := ⟨lw0 0x73 2 0, 1, 0, 0⟩
    let r : Long := ⟨lw0 0x74 2 0, 0, 0, 0⟩
    let st : Long → Nat → List (Bool × Nat) → State := fun w a l => { atW w with ctx := [(0, { ctxOf w.words a 0 with stack := l })] }
    (∀ a ∈ [2 ^ 52 - 4, 2 ^ 52 - 2, 2 ^ 52], (st w a (List.replicate 7 (true, 0))).Runs 0x73 0 w) ∧
    ((st w 64 (List.replicate 8 (true, 0))).Runs 0x73 0 w) ∧
    (∀ l ∈ [[(true, 4)], [(false, 64)], []], (st r 0 l).Runs 0x74 0 r) ∧
    (let s : State := { up with ctx := [(0, { enable := true, code := some 64, codeBuf := [(64, (w.words.map fun v => natLe 4 v.toNat).flatten ++ zeroBytes 48)], cfg := { cmplSize := 4 } })] }
     s.Runs 0x73 0 w ∧ (s.cx 0).code = some 64) := by
  refine ⟨fun a h => runs_of ?_, runs_of (by decide +kernel), fun l h => runs_of ?_, runs_of (by decide +kernel), by decide +kernel⟩
  · revert a; decide +kernel
  · revert l; decide +kernel

/-! ### Witnesses: work in progress, the Hopper -/

/-- Instructions in flight, numbered from 1. -/
def flying (l : List Inst) : State :=
  { up with insts := (List.range l.length).zip l |>.map (fun p => (p.1 + 1, some { p.2 with n := p.1 + 1 })), nextInst := l.length + 1 }

/-- An ACCZ that ends at its deadline, and one a cycle late. -/
theorem witness_InstructionEnds : ∀ d ∈ [10, 9],
    let i : Inst := { inst0 0x04 ⟨0, 0, 0, 0⟩ with cls := 1, resv := some 0, deadline := some d }
    let s : State := { flying [i] with time := { cclk := 10 } }
    s.inst 1 = some i ∧ s.mayEnd i = true ∧ i.link = none ∧ i.held = [] ∧ i.opc ∉ [0x20, 0x21, 0x22, 0x23, 0x41, 0x42] ∧ i.memErr = none ∧ i.aux = [] := by
  decide +kernel

/-- A work item of a pass, and of a drain, on core 0. -/
def mmOf (rows : Nat) (fetched : Bool) : Work := { core := 0, pass := true, bed := false, rows := rows, slots := [0], ix := [0], fetched := fetched }
def drOf (rows : Nat) (slots ix : List Nat) : Work := { core := 0, pass := false, bed := false, rows := rows, slots := slots, ix := ix }

/-- A pass of an MMP on core 0. -/
def passOf (cls : Nat) : Inst := { inst0 0x00 ⟨0, 0, 0, 0⟩ with cls := cls, work := [mmOf 8 true] }

/-- No pass ready, and one whose operands have not been asked for; a Class A one beside one of Class B; Class B beside Class C with
C_GAP 2 and a gap of 1 and of 2; a context that becomes ready beside one that was; a tile with two passes left. -/
theorem witness_PassStarts :
    (up.fetchReady 0 false).loadedItems 0 false = [] ∧
    (flying [{ passOf 2 with work := [mmOf 8 false] }]).loadedItems 0 false = [] ∧
    (((flying [passOf 2, { passOf 1 with ctx := 1 }]).fetchReady 0 false |>.loadedItems 0 false).map fun q => q.1.cls) = [2, 1] ∧
    (∀ g ∈ [1, 2], let s : State := { flying [passOf 2, { passOf 3 with ctx := 1 }] with sluice := { cGap := 2, gap := [(0, g)] } }
      (((s.fetchReady 0 false).loadedItems 0 false).map fun q => q.1.cls) = [2, 3] ∧
      ((s.choose ((s.fetchReady 0 false).loadedItems 0 false) g).1.map fun q => q.1.cls) = some (g + 1)) ∧
    (let s : State := { flying [passOf 2, { passOf 2 with ctx := 1 }] with sluice := { readyB := [1] } }
     let sf := s.fetchReady 0 false
     sf.sluice.readyB.filter sf.readyClassB.contains = [1] ∧ (sf.readyClassB.filter fun c => !([1] : List Nat).contains c) = [0]) ∧
    (let s : State := flying [{ passOf 2 with work := [{ mmOf 64 true with parts := [⟨0, false, 32⟩, ⟨0, false, 32⟩] }] }]
     (((s.fetchReady 0 false).rebase.loadedItems 0 false).map fun q => q.2.parts.length) = [2]) := by
  decide +kernel

/-- An item of ACCZ that is ready; a batch at the end of its hold and one before it. -/
theorem witness_DrainsAndBatches :
    let i : Inst := { inst0 0x04 ⟨0, 0, 0, 0⟩ with cls := 2, work := [drOf 0 [0, 1] [5]] }
    ((flying [i]).choose ((flying [i]).readyDrains 0) 0).1.map (fun q => q.2.ix.headD 0) = some 5 ∧
    up.readyDrains 0 = [] ∧
    (∀ r ∈ [0, 1, 2], let j : Inst := { inst0 0x31 ⟨0, 0, 0, 0⟩ with cls := 2, work := [drOf r [0, 1] [1]] }
      ((flying [j]).choose ((flying [j]).readyDrains 0) 0).1.map (fun q => q.2.rows) = some r) ∧
    (∀ t ∈ [15, 14], let s : State := { flying [passOf 2] with sluice := { holdBC := 5, batches := [⟨1, 10, [1]⟩] }, time := { cclk := t } }
      s.sluice.batches.find? (fun b => b.head == 1) = some ⟨1, 10, [1]⟩ ∧ (s.inst 1).map (fun j => 10 + s.holdOf j.cls) = some 15) := by
  decide +kernel

/-- A bundle: CTX, KIND, NW, BSEQ. -/
def bun (ctx kind nw bseq : Nat) : BitVec 512 := BitVec.ofNat 512 (ctx + 2 ^ 8 * kind + 2 ^ 16 * nw + 2 ^ 32 * bseq + 2 ^ 64)

/-- Channel 0 with bundles held, and context 0 enabled with `k` words that have not issued. -/
def hopAt (k exp : Nat) (held : List (BitVec 512)) : State :=
  { up with hop := { ch := [(0, { rdy := true, credits := 16, exp := exp, held := held })] },
            ctx := [(0, { enable := true, newest := k, cfg := { cmplSize := 4 } })] }

/-- A bundle that just fits and one that does not; one with NW 15; one out of sequence; each RESYNC. -/
theorem witness_Bundles :
    (∀ k ∈ [1010, 1011], bKind (bun 0 0 14 7) ≠ 1 ∧ (hopAt k 7 []).hopRdy 0 = true ∧ ((hopAt k 7 []).chan 0).held.length < 16 ∧
      ((hopAt k 7 []).chan 0).inSeq = true ∧ bSeq (bun 0 0 14 7) = ((hopAt k 7 []).chan 0).exp ∧ bNw (bun 0 0 14 7) ≤ 14 ∧ bReserved (bun 0 0 14 7) = false ∧
      decide (sdiff (k + 14) 0 ≤ 1024) = (k == 1010)) ∧
    (bNw (bun 0 0 15 7) = 15 ∧ bSeq (bun 0 0 15 7) = 7 ∧ bSeq (bun 0 0 1 8) ≠ 7) ∧
    ((hopAt 0 7 (List.replicate 15 (bun 0 0 14 6))).chan 0).held.length < 16 ∧
    (bKind (bun 0 1 0 9) = 1 ∧ bNw (bun 0 1 0 9) = 0 ∧ bNw (bun 0 1 1 9) = 1 ∧ bByte (bun 16 1 0 9) 0 = 16) := by decide +kernel

theorem witness_HopperOverrun :
    let s := hopAt 0 7 (List.replicate 16 (bun 0 0 14 6))
    s.Canon ∧ s.hopRdy 0 = true ∧ 16 ≤ (s.chan 0).held.length ∧
    (bKind (bun 0 0 1 7) ≠ 1 ∧ bSeq (bun 0 0 1 7) = (s.chan 0).exp ∧ bKind (bun 0 1 0 7) = 1 ∧ bSeq (bun 0 0 1 8) = (bSeq (bun 0 0 1 7) + 1) % 2 ^ 16) :=
  ⟨canon_of (by decide +kernel), by decide +kernel⟩

/-- A held bundle that has room, and one of a fenced context; an injection taken and one discarded; one that is held, and one that
waited for the Hopper, of a context of firmware's with room. -/
theorem witness_HeldAndInjected :
    (let s := hopAt 1010 7 [bun 0 0 14 6]
     s.isOn 48 = true ∧ (s.chan 0).held = [bun 0 0 14 6] ∧ s.ctxFenced 0 = false ∧ (s.cx 0).enable = true ∧ (s.cx 0).fits 14 = true ∧
     ({ s with prot := { ctxF := [(0, true)] } } : State).ctxFenced 0 = true) ∧
    (let s : State := { up with ctx := [(0, { enable := true, cfg := { fwOwned := true, cmplSize := 4 } })], hop := { inj := [(0, 0x20000)] } }
     s.Open none ∧ s.isOn 48 = true ∧ bKind s.hop.bundle = 0 ∧ bNw s.hop.bundle = 2 ∧ bReserved s.hop.bundle = false ∧ (s.cx 0).fits 2 = true ∧
     (s.cx 1).enable = false ∧ s.hop.injHeld = []) ∧
    ({ up with pwr := { doms := Map.set {} up.pwr.doms 48 { state := 3, req := 1, good := 1 } } } : State).isOn 48 = false ∧
    (let s : State := { hopAt 1010 7 [] with hop := { injHeld := [(0, bun 0 0 14 0)] } }
     s.isOn 48 = true ∧ (s.chan 0).held = [] ∧ (s.cx 0).fits 14 = true ∧ (s.cx 0).fits 15 = false) ∧
    (let own : State := { up with ctx := [(0, { enable := true, newest := 1010, cfg := { fwOwned := true, cmplSize := 4 } })] }
     own.bundleBad 0 (bun 0 0 14 0) true = false ∧ (own.cx 0).fits 14 = true ∧
     (∀ q ∈ ({ own with hop := { injHeld := [(0, bun 0 0 14 0)] } } : State).hop.injWait, q.1 / 16 ≠ 0) ∧
     (∀ q ∈ ({ own with hop := { injWait := [(0, bun 0 0 14 0)] } } : State).hop.injHeld, q.1 ≠ 0)) :=
  ⟨by decide +kernel, ⟨open_of (by decide +kernel), by decide +kernel⟩, by decide +kernel⟩

/-! ### Witnesses: the memory ports -/

/-- A read of tensor instruction 1 at its home port 0, or another purpose. -/
def rd (why : Why) (wr : Bool) (tag since : Nat) : Req := ⟨0, 0, 64, wr, false, 0, [], [], false, false, why, [], tag, since⟩

theorem witness_PortTraffic :
    (let s : State := { up with mem := { ports := [(0, { rq := [rd (.tensor 1) false 0 0], wr := [rd (.tensor 1) true 0 0] })] } }
     s.portFenced 0 = false ∧ (s.port 0).rq ≠ [] ∧ (s.port 0).wr ≠ []) ∧
    (∀ why ∈ [.tensor 1, .scalar 0], (({ up with mem := { ports := [(0, { rdOut := [rd why false 3071 0] })] } } : State).port 0).rdOut.find?
      (fun r => r.tag == 3071) = some (rd why false 3071 0)) ∧
    ((({ up with mem := { ports := [(0, { lateRd := [5] })] } } : State).port 0).rdOut.find? (fun r => r.tag == 5) = none) ∧
    (∀ why ∈ [.tensor 1, .scalar 0, .record 0 true, .record 0 false, .land 1 0 0],
      (({ up with mem := { ports := [(0, { wrOut := [rd why true 1023 0] })] } } : State).port 0).wrOut.find?
        (fun r => r.tag == 1023) = some (rd why true 1023 0)) ∧
    (({ up with mem := { ports := [(0, { lateWr := [5] })] } } : State).port 0).lateWr = [5] ∧ (up.sliceLines 0).length < 32768 ∧
    (∀ k ∈ [0, 1], decide (Map.get 0 ({ up with pins := { up.pins with cmplAt := [(0, k)] } } : State).pins.cmplAt 0 ≠ up.time.sclk + 1) = (k == 0)) ∧
    (let i := passOf 2
     i.spec = false ∧ (rd (.tensor 1) false 0 0).quiet = false) := by decide +kernel

theorem witness_PortTraffic_canon : ∀ why ∈ [.tensor 1, .scalar 0, .cons 0],
    ({ up with mem := { ports := [(0, { rdOut := [rd why false 3071 0] })] } } : State).Canon := by
  intro why h
  refine canon_of ?_
  revert why; decide +kernel

/-- A read of the image at one cycle before TMO and at TMO, and with TMO 0. -/
theorem witness_PortTimeouts : ∀ p ∈ [(99, 100), (100, 100), (100, 0)],
    let s : State := { up with mem := { tmo := p.2, ports := [(0, { rdOut := [rd .image false 0 0] })] }, time := { mclk := p.1 } }
    (s.port 0).rdOut.find? (fun r => r.tag == 0) = some (rd .image false 0 0) ∧ decide (s.mem.tmo ≠ 0 ∧ 0 + s.mem.tmo ≤ s.time.mclk) = (p == (100, 100)) := by
  decide +kernel

/-- A valid tile header of one row and one column (R46), and one that differs in ANCHOR. -/
def hdrAt (anchor : Nat) : List Byte := natLe 2 anchor ++ natLe 1 1 ++ natLe 1 1 ++ zeroBytes 60

def atomS (h : List Byte) (hdr : Bool) : State :=
  { up with mem := { ext := Map.setMany 0 [] (cells 0 (hdrAt 5)),
                     ports := [(0, { atoms := [⟨0, 0, 0, hdr, true, h, false, false, 0, .tensor 1, some false⟩] })] } }

/-- An entry line; a header that is not valid, one that differs, and one that is the same. -/
theorem witness_AtomicLineUpdates : (∀ p ∈ [(hdrAt 5, true), (hdrAt 6, true), (zeroBytes 64, true), (hdrAt 5, false)],
    ((atomS p.1 p.2).port 0).atoms.map (fun a => a.got.isSome && !(atomS p.1 p.2).addDue a && a.hdr == p.2) = [true] ∧ (atomS p.1 p.2).portFenced 0 = false ∧ (atomS p.1 p.2).isOn 32 = true) ∧
    tileOk ((atomS (hdrAt 5) true).extBytes 0 64) = true ∧ tileOk (hdrAt 5) = true ∧ tileOk (hdrAt 6) = true ∧ tileOk (zeroBytes 64) = false ∧
    wideSame (hdrAt 5) (hdrAt 5) = true ∧ wideSame (hdrAt 5) (hdrAt 6) = false := by decide +kernel

theorem witness_GranaryAndConsumedCount :
    up.Open none ∧ ({ up with mem := { ginvBusy := true } } : State).mem.ginvBusy = true ∧
    (let s : State := { mem0 [] 0 with ctx := [(0, { enable := true, hold := .ring, cfg := { cmplSize := 4, consAddr := 4096 } })] }
     (s.cx 0).hold = .ring ∧ s.ctxFenced 0 = false ∧ s.mem.ports = [] ∧ s.checkAcc 0 false .rd 4096 = .ok ∧ s.portFenced (homePort 4096) = false) ∧
    ((({ up with mem := { ports := [(0, { rdOut := [rd (.cons 0) false 7 0] })] } } : State).port 0).rdOut.find? (fun r => r.tag == 7)
      = some (rd (.cons 0) false 7 0)) :=
  ⟨open_of (by decide +kernel), rfl, by decide +kernel, by decide +kernel⟩

/-! ### Witnesses: links and the Weir -/

/-- A header-only packet with its CRC. -/
def pkt (h : Hdr) : List Byte := h.bytes ++ crcBytes h.bytes

/-- Link 0 up in a state, with the packet expected. -/
def linkAt (x : Link) : State := { up with leat := { links := [(0, x)], linkEn := [(0, true)] } }

/-- A packet expected, the newest and the oldest of the two halves of old and new; a receiver that ignores; a bad CRC. -/
theorem witness_SequencedPackets :
    (∀ q ∈ [0, 1, 2 ^ 15 - 1, 2 ^ 15, 2 ^ 16 - 1], let b := pkt ⟨3, 0, 0, 5, q, 7, 0⟩
      badPacket b = false ∧ b.length = 20 ∧ crcBytes (b.take 16) = (b.drop 16).take 4 ∧ (hdrOf b).typ = 3 ∧ (hdrOf b).seq = q) ∧
    (let x := (linkAt { st := 2, up := true }).link 0
     (linkAt { st := 2, up := true }).linkOn 0 = true ∧ x.st = 2 ∧ x.up = true ∧ x.ignoring = false ∧ x.expSeq = 0) ∧
    ((linkAt { st := 2, up := true, ignoring := true }).link 0).ignoring = true ∧ ((linkAt { st := 1, up := true }).link 0).st = 1 ∧
    crcBytes ((zeroBytes 20).take 16) ≠ ((zeroBytes 20).drop 16).take 4 ∧
    (∀ h ∈ [(⟨1, 3, 4, 5, 0, 0, 0⟩ : Hdr), ⟨4, 0, 1, 5, 0, 7, 0⟩, ⟨5, 0, 0, 5, 0, 7, 0⟩], badPacket h.bytes = false) := by decide +kernel

/-- A packet that waits for acknowledgement. -/
def pk (q : Nat) : Pkt := ⟨(⟨3, 0, 0, 5, q, 7, 0⟩ : Hdr).bytes, 0, 1, 0, true, none, none, 1, 0, false⟩

/-- LLCTL with and without NAK, for a link that trains, one that is UP with RETRY_MAX replays and one with fewer; INIT. -/
theorem witness_LinkControl :
    (∀ f ∈ [0, 1, 2], let b := pkt ⟨2, f, 0, 0, 3, 0, 0⟩
      badPacket b = false ∧ b.length = 20 ∧ crcBytes (b.take 16) = b.drop 16 ∧ (hdrOf b).typ = 2 ∧ bitOf (hdrOf b).vcf 0 = (f == 1)) ∧
    (∀ r ∈ [7, 8], let s := linkAt { st := 2, up := true, repCount := r, unacked := [pk 4] }
      s.linkOn 0 = true ∧ (s.link 0).st = 2 ∧ decide ((s.link 0).repCount < max 1 (s.group 0).retryMax) = (r == 7)) ∧
    (let s := linkAt { st := 1, up := true, seenInit := true }
     (s.link 0).st = 1 ∧ (s.link 0).up = true ∧ (s.link 0).ignoring = false) ∧
    (∀ v ∈ [512, 513], ∀ m ∈ [0, 1, 1016, 1017], let b := pkt ⟨6, 0, 0, 0, 0, v + 2 ^ 16 * m, 63⟩
     badPacket b = false ∧ (hdrOf b).typ = 6 ∧ b.length = 20 ∧ leAt b 8 2 = v ∧ leAt b 10 2 = m) := by decide +kernel

/-- A link that is down; an LLCTL and an INIT that are due; a replay that is due and one under way; a packet with credit on
virtual channel 0. -/
theorem witness_PacketSends :
    ((linkAt {}).link 0).up = false ∧
    (let s := linkAt { st := 2, up := true, queue := [pk 0], pvc0 := 1 }
     (s.link 0).ctlDue = false ∧ (s.link 0).replayDue = false ∧ (s.link 0).replay = [] ∧ (s.link 0).unacked.length < 1024 ∧
     0 ∈ vcOrder (s.link 0).lastVc ∧ (s.sendVc 0 0).isSome = true ∧ (vcOrder (s.link 0).lastVc).takeWhile (· != 0) = [] ∧
     (s.link 0).queue.find? (fun p => p.vc == 0) = some (pk 0) ∧ s.credit 0 0 (pk 0).cells (pk 0).resv = true) ∧
    ((linkAt { st := 1, up := true, initDue := true }).link 0).initDue = true ∧
    ((linkAt { st := 2, up := true, replayDue := true, unacked := [pk 0] }).link 0).replayDue = true ∧
    ((linkAt { st := 2, up := true, replay := [pk 0] }).link 0).replay = [pk 0] ∧ (pk 0).src = none ∧
    (∀ r ∈ [none, some false, some true], let p : Pkt := { pk 0 with src := some (64, 128), inst := 1 }
      let s : State := { linkAt { st := 2, up := true, replay := [p], reread := r } with insts := [(1, some (inst0 0x61 ⟨0, 0, 0, 0⟩))] }
      (s.link 0).reread = r ∧ (s.inst p.inst).isSome = true ∧ (up.inst p.inst) = none ∧ s.tgtOut (.resend 0) = false ∧ (s.link 0).ctlDue = false) ∧
    (let x := (linkAt { st := 1, up := true, replayDue := true }).link 0
     x.st = 1 ∧ x.replayDue = true ∧ x.initDue = false ∧ x.ctlDue = false) ∧
    1024 ≤ ((linkAt { st := 2, up := true, unacked := List.replicate 1024 (pk 0) }).link 0).unacked.length := by decide +kernel

theorem witness_PacketSends_canon : (linkAt { st := 2, up := true, queue := [pk 0], pvc0 := 1 }).Canon := canon_of (by decide +kernel)

/-- Each timer one cycle before its time and at it. -/
theorem witness_LinkTimersAndStates :
    (∀ t ∈ [4095, 4096], let s : State := { linkAt { st := 2, up := true, unacked := [pk 0] } with time := { xclk := t } }
      (s.link 0).unacked ≠ [] ∧ decide ((s.link 0).ackSince + max 1 (s.group 0).replayTmo ≤ s.time.xclk) = (t == 4096)) ∧
    (∀ t ∈ [63, 64], let s : State := { linkAt { st := 2, up := true, repSince := 1 } with time := { xclk := t } }
      (s.link 0).repSince ≠ 0 ∧ decide ((s.link 0).repSince - 1 + 64 ≤ s.time.xclk) = (t == 64)) ∧
    (let i : Inst := { inst0 0x62 ⟨0, 0, 0, 0⟩ with link := some { rx := 1, rlen := 64 } }
     let s : State := { linkAt { st := 2, up := true } with insts := [(1, some i)], time := { xclk := 4096 } }
     s.inst 1 = some i ∧ (bitsSet 64 1).filter (fun l => s.live l && decide (Map.get 0 [] l - 1 + s.replayTmo l ≤ s.time.xclk)) = [0]) ∧
    (let s : State := { up with leat := { groups := [(0, { sVc0 := 512, sVcmax := 1016 })] } }
     s.winOn 40 = true ∧ s.mgtUp = true ∧ (∀ k, k < 8 → Map.get false s.leat.linkEn k = false) ∧ (s.group 0).sVc0 ≤ 512 ∧ (s.group 0).sVcmax ≤ 1016) ∧
    (let s : State := { up with leat := { groups := [(0, { sVc0 := 513 })] } }
     513 = (s.group 0).sVc0) ∧
    (let s : State := { up with prot := { linkF := [(0, true)] } }
     Map.get false s.leat.linkEn 0 = false ∧ Map.get false s.prot.linkF 0 = true) := by decide +kernel

/-- A bucket one cycle before its deadline, and at it with nothing to fold. -/
theorem witness_WeirCommands : ∀ t ∈ [109, 110],
    let b : Bucket := { job := 5, bkt := 7, inst := 1, exclude := false, started := true, t0 := 10 }
    let i : Inst := { inst0 0x63 ⟨0, 0, 0, 0⟩ with link := some { dl := 100, isWred := true, role := 1 } }
    let s : State := { up with weir := { enable := true, buckets := [b] }, insts := [(1, some i)], time := { xclk := t } }
    s.bucket 5 7 = some b ∧ s.inst b.inst = some i ∧ b.closed = false ∧ s.folding 5 7 = false ∧ b.contribs = [] ∧
    up.weir.buckets = [] ∧ up.mgtUp = true ∧ up.winOn 50 = true := by decide +kernel

theorem witness_WeirCommands_folding : ∃ s : State, s.folding 5 7 = true ∧ s.bucket 5 7 ≠ none :=
  ⟨{ up with weir := { buckets := [{ job := 5, bkt := 7, inst := 1, exclude := false, started := true }] },
             mem := { ports := [(0, { wrOut := [rd (.weir 5 7) true 0 0] })] } }, by decide +kernel, by decide +kernel⟩

/-! ### Witnesses: reservations -/

/-- A request that passes every check at its limits: D of 8,000 and P of 8,000,000; D of 7,999 fails FIELD. -/
def asks (d : Nat) : State :=
  { up with sluice := { lMem := 100, aen := 1, aenEff := 1, uCap := 600,
                        resv := [(0, { staged := { bays := 1, cores := 1, w := 1000, p := 8000000, d := d, maxdiv := 3 } })] } }

theorem witness_Admission : (asks 8000).Open (some 48) ∧ (asks 8000).admitReason 0 = none ∧ (asks 7999).admitReason 0 = some rField ∧
    ({ asks 8000 with sluice := { (asks 8000).sluice with lMem := 0 } } : State).admitReason 0 = some rContext ∧
    ({ asks 8000 with sluice := { (asks 8000).sluice with aenEff := 0 } } : State).admitReason 0 = some rBays ∧
    ({ asks 8000 with prot := { coreF := [(0, true)] } } : State).admitReason 0 = some rCores ∧
    ({ asks 8000 with sluice := { (asks 8000).sluice with uCap := 0 } } : State).admitReason 0 = some rUcap ∧
    (withResv up { state := 1 }).rv 0 = { state := 1 } :=
  ⟨open_of (by decide +kernel), by decide +kernel⟩

/-- An admitted entry with PENDING and an open window at the end of its period, and one before it. -/
theorem witness_ReservationLife : ∀ t ∈ [8000000, 7999999],
    let s : State := { withResv up { state := 1, pending := true, opened := true, cfg := { p := 8000000, bays := 1 } } with time := { cclk := t } }
    s.Canon ∧ (s.rv 0).state = 1 ∧ s.Open (some 48) ∧ (s.rv 0).opened = true ∧ (s.rv 0).pending = true ∧ (s.rv 0).start + (s.rv 0).cfg.p = 8000000 := by
  have h : ∀ t ∈ [8000000, 7999999],
    let s : State := { withResv up { state := 1, pending := true, opened := true, cfg := { p := 8000000, bays := 1 } } with time := { cclk := t } }
    canonB s = true ∧ (s.rv 0).state = 1 ∧ (s.mgtUp && (some 48).all s.winOn) = true ∧ (s.rv 0).opened = true ∧ (s.rv 0).pending = true ∧
      (s.rv 0).start + (s.rv 0).cfg.p = 8000000 := by decide +kernel
  exact fun t ht => ⟨canon_of (h t ht).1, (h t ht).2.1, open_of (h t ht).2.2.1, (h t ht).2.2.2⟩

/-- AEN_EFF of bay 0 that rises, that falls, and that an instruction holds; a lower divider with and without a Class A
instruction in flight; row limits 0, 16 and 17. -/
theorem witness_Enablement :
    up.Open (some 48) ∧ up.isOn 48 = true ∧
    (let s : State := { up with sluice := { aen := 1 } }
     bitOf s.sluice.aen 0 = true ∧ bitOf s.sluice.aenEff 0 = false ∧ s.instList = []) ∧
    (let i : Inst := { inst0 0x00 ⟨0, 0, 0, 0⟩ with cls := 1 }
     let s : State := { up with sluice := { aenEff := 1 }, insts := [(1, some i)], pwr := { up.pwr with divPend := true } }
     s.instList = [i] ∧ i.bays = [0] ∧ s.pwr.divPend = true) ∧
    up.Open none ∧ up.present 0 = true ∧ (up.by 0).limitEff = 16 ∧ (∀ v ∈ [0, 17], fld v 0 5 = 0 ∨ 16 < fld v 0 5) ∧ fld 16 0 5 = 16 ∧ fld 1 0 5 = 1 :=
  ⟨open_of (by decide +kernel), by decide +kernel, by decide +kernel, by decide +kernel, open_of (by decide +kernel), by decide +kernel⟩

/-! ### Witnesses: contexts, pages, accumulator access, fences, errors -/

/-- A context that is not enabled with CMPL_SIZE staged at 4 and 16, and at 3 and 17; one enabled and stopped. -/
theorem witness_ContextAndPageControl :
    up.Open (some 51) ∧ up.Open (some 49) ∧ up.Canon ∧ (up.cx 0).enable = false ∧
    (∀ n ∈ [3, 4, 16, 17], decide (4 ≤ (({ up with ctx := [(0, { staged := { cmplSize := n } })] } : State).cx 0).staged.cmplSize ∧
      (({ up with ctx := [(0, { staged := { cmplSize := n } })] } : State).cx 0).staged.cmplSize ≤ 16) = (n == 4 || n == 16)) ∧
    (let s : State := { up with ctx := [(0, { enable := true, run := .stopped })] }
     (s.cx 0).enable = true ∧ (s.cx 0).run ≠ .going ∧ s.ctxFenced 0 = false) ∧
    ({ up with pwu := { pools := [(0, { staged := { kind := 1, enable := true, slots := 4, ringInit := 4 } })] } } : State).pwuBad = false ∧
    ({ up with pwu := { pools := [(0, { staged := { kind := 1, enable := true, slots := 4, ringInit := 5 } })] } } : State).pwuBad = true ∧
    (List.replicate 64 (⟨1, 0, 0, 0, 0⟩ : Park)).length ≤ 64 ∧
    (∀ l ∈ [4, 5], let c : PoolCfg := { kind := 1, enable := true, slots := 4, ringInit := 4 }
      let s : State := { up with pwu := { pools := [(0, { staged := c, last := { c with slots := l } })] } }
      (s.pool 0).cfg.enable = false ∧ decide ((s.pool 0).staged ≠ (s.pool 0).last) = (l == 5)) :=
  ⟨open_of (by decide +kernel), open_of (by decide +kernel), canon_of (by decide +kernel), by decide +kernel⟩

/-- Bay 0 in each mode; visible and not; an instrument that TEST_EN unlocks; the last byte of each memory. -/
theorem witness_AccmAccess :
    (∀ m ∈ [0, 1, 2, 3], let s : State := { up with bay := Map.set {} [] 0 { mode := m } }
      s.Canon ∧ s.Open (some 0) ∧ (s.by 0).mode = m) ∧
    ({ up with prot := { dbgEn := 1 } } : State).debugVis 0 = true ∧ up.debugVis 0 = false ∧
    (let s : State := { up with prot := { testEn := 1 } }
     s.Canon ∧ s.prot.testEn.getLsbD 0 = true ∧ s.isOn 0 = true) ∧
    (6291455#23).toNat < 6291456 ∧ (98303#23).toNat < 98304 ∧ up.prot.testEn.getLsbD 0 = false ∧ up.prot.testEn = 0 ∧
    ({ up with prot := { testEn := 1 } } : State).prot.testEn ≠ 0 ∧ (regDom 0x060000).all up.isOn = true ∧ 0x4000 ≤ (0x4000#16).toNat := by
  have h : ∀ m ∈ [0, 1, 2, 3], let s : State := { up with bay := Map.set {} [] 0 { mode := m } }
      canonB s = true ∧ (s.mgtUp && (some 0).all s.winOn) = true ∧ (s.by 0).mode = m := by decide +kernel
  exact ⟨fun m hm => ⟨canon_of (h m hm).1, open_of (h m hm).2.1, (h m hm).2.2⟩, by decide +kernel, by decide +kernel,
    ⟨canon_of (by decide +kernel), by decide +kernel⟩, by decide +kernel⟩

/-- Each scope at its last unit and above; a core that an instruction spans; ELOG_CONS 4,096 and 4,097 behind the head; an
error in a pass that is ready. -/
theorem witness_FencesAndErrors :
    up.Open none ∧
    (∀ p ∈ [(1, 2047), (2, 31), (3, 31), (4, 63), (5, 63), (7, 15)], p.2 < fenceUnits p.1 ∧ fenceUnits p.1 ≤ p.2 + 1 ∧ up.isFenced p.1 p.2 0 = false) ∧
    fenceUnits 0 ≤ 0 ∧ up.isFenced 6 5 1 = false ∧
    (let s : State := { flying [passOf 2] with prot := { coreF := [(0, true), (1, true)] } }
     Map.get false s.prot.coreF 0 = true ∧ (s.instList.any fun i => i.spans 0) = true ∧ (s.instList.any fun i => i.spans 1) = false) ∧
    (∀ h ∈ [4096, 4097], (({ up with log := { head := h } } : State).log.head + 2 ^ 32 - 0) % 2 ^ 32 = h) ∧
    ((flying [passOf 2]).startPass 0 false (some 3)).2.isSome = true ∧
    (let s := flying [{ passOf 2 with work := [{ mmOf 8 true with parts := [⟨0, true, 8⟩] }] }]
     (s.startPass 0 false (some 3)).2 = none ∧ (s.startPass 0 true (some 3)).2.isSome = true) ∧
    (∀ n ∈ [6, 7], let s : State := { up with prot := { landed := [(1, 0, 0)], landedAt := 7 }, time := { nclk := n } }
      (1, 0, 0) ∈ s.prot.landed ∧ decide (s.prot.landedAt = s.time.nclk + 1) = (n == 6)) :=
  ⟨open_of (by decide +kernel), by decide +kernel⟩

/-! ### Witnesses: the scarf commit -/

/-- An attempt open at a time, with the platform's GO or not. -/
def attempt (go : Bool) (t : Nat) : State :=
  { up with prot := { scarf := { phase := 1, start := 5, pGo := go, win := 1000 } }, time := { nclk := t } }

theorem witness_ScarfSteps :
    (attempt false 0).Open none ∧ (attempt true 0).prot.scarf.pGo = true ∧ (attempt false 0).prot.scarf.imaging = false ∧
    (∀ off ∈ [0, 0x7FC, 0x800, 0x804, 0x810, 0x81C], stageable off = true) ∧ (∀ off ∈ [1, 0x808, 0x80C, 0x820], stageable off = false) ∧
    (∀ t ∈ [1004, 1005], decide ((attempt false t).prot.scarf.start + (attempt false t).prot.scarf.win ≤ (attempt false t).time.nclk) = (t == 1005)) ∧
    up.prot.scarf.phase = 0 :=
  ⟨open_of (by decide +kernel), by decide +kernel⟩

/-- The digest of an empty change, CSEQ 0 and NENT 0: SHA-256 of eight zero bytes, by FIPS 180-4. -/
def digest0 : Nat := 0xfc3de8e08d32b2e54d1df9ba421ef50d0f660ac74baf8cf77a0b81a1f57055af

/-- Both parties have gone; the tags are those of the keys 1 and 2, by FIPS 198-1. -/
def checking (dp : Nat) (cseq : W32) (kp : BitVec 256) (tp to' : W32) (nent : W32) (off : W32) : State :=
  let area : List W32 → Map W32 := fun l => Map.setMany 0 [] ([(0, off), (0x800, nent)] ++ ([0x810, 0x814, 0x818, 0x81C].zip l))
  { up with
    fuse := { keyP := kp, keyO := 2 }
    prot := { scarf := { phase := 2, cseq := cseq, pGo := true, oGo := true, digP := dp, digO := digest0,
                         areaP := area [tp, 0x7494506d, 0xb33409fc, 0xaaf3f816], areaO := area [to', 0xa4d843f3, 0x120fdea5, 0x3b72c04e] } } }

def checking0 : State := checking digest0 0 1 0x3ea7d61c 0xc67702ff 0 0

theorem test_tags : scarfTag 1 0x50 digest0 = areaTag checking0.prot.scarf.areaP ∧ scarfTag 2 0x4F digest0 = areaTag checking0.prot.scarf.areaO := by
  decide +kernel

theorem witness_ScarfChecks :
    checking0.prot.scarf.phase = 2 ∧ checking0.prot.scarf.imaging = false ∧ checking0.scarfFails = none ∧ checking0.namesImage = false ∧
    (checking 0 0 1 0 0 0 0).scarfFails = some 2 ∧ (checking digest0 1 1 0 0 0 0).scarfFails = some 3 ∧ (checking digest0 0 0 0 0 0 0).scarfFails = some 4 ∧
    (checking digest0 0 1 0 0 0 0).scarfFails = some 5 ∧ (checking digest0 0 1 0x3ea7d61c 0 0 0).scarfFails = some 6 ∧
    (checking digest0 0 1 0x3ea7d61c 0xc67702ff 1 4).scarfFails = some 7 := by decide +kernel

/-- An image of 128 bytes (R508), with its digest by FIPS 180-4. -/
def imaged (imgBad : Bool) : State :=
  { up with
    mem := { ext := Map.setMany 0 [] (cells 4096 (natLe 4 0x4E494657 ++ natLe 4 128 ++ natLe 4 64 ++ natLe 4 68 ++ zeroBytes 112)) }
    prot := { imgAddr := 4096, imgLen := 128, scarf := { phase := 2, imaging := true, imgBad := imgBad },
              imgDigest := (List.range 8).zip [0xf545cc35, 0x5c646a5e, 0xdc36e1e3, 0x44a1c2fa, 0xedf21f4a, 0x7d1d8ef4, 0x8ca1fe9c, 0x33cc7142] } }

theorem witness_ScarfChecks_image : (imaged false).prot.scarf.imaging = true ∧ (imaged false).imageReads = false ∧
    Crypto.sha256 ((imaged false).extBytes (imaged false).imageOf.1 (imaged false).imageOf.2.1) = (imaged false).imageOf.2.2 ∧
    imageHeaderOk ((imaged false).extBytes 4096 128) 128 = true ∧ (imaged false).precondOk = true ∧ (imaged true).prot.scarf.imgBad = true := by decide +kernel

/-! ### Witnesses: clocks, power, start-up -/

/-- The divider 10 in use, with a voltage that each minimum allows. -/
def volted : State :=
  { up with pwr := { up.pwr with cdiv := 1, cdivEff := 1, vgood := true, vcode := 120, vcodeEff := 120, vreq := 120 },
            fuse := { vmin8 := 120, vmin10 := 100, vmin12 := 90, vmin16 := 80 } }

/-- A voltage code at its minimum and one below; each direction of the divider. -/
theorem witness_VoltageAndDivider : volted.Open none ∧ volted.pwr.vgood = true ∧ volted.pwr.cdivEff = 1 ∧ volted.sluice.resv = [] ∧
    (∀ v ∈ [100, 99], decide (volted.fuse.vmin10 ≤ v) = (v == 100)) ∧ volted.fuse.vmin8 ≤ volted.pwr.vcodeEff ∧
    volted.fuse.vmin8 > 119 ∧ (withResv up { state := 1, cfg := { maxdiv := 2 } }).sluice.resv ≠ [] := ⟨open_of (by decide +kernel), by decide +kernel⟩

/-- A state with one domain set apart. -/
def withDom (d : Nat) (x : Dom) : State := { up with pwr := { doms := Map.set {} up.pwr.doms d x }, time := { nclk := 100 } }

/-- A domain that is on and idle, one in OFF, one absent, one held, an unnamed one; a timer at its limit and one below it. -/
theorem witness_PowerCommands :
    (withDom 50 { state := 4 }).Open none ∧
    (let s := withDom 50 { state := 0, req := 3, good := 3 }
     (s.dom 50).state ≠ 5 ∧ s.held 50 = false ∧ s.domIdle 50 = true ∧ s.quiet 50 = true ∧ (s.dom 50).req = (s.dom 50).good) ∧
    ((withDom 50 { state := 4 }).dom 50).state = 4 ∧ ((withDom 3 { state := 5 }).dom 3).state = 5 ∧
    (withResv up { state := 1, cfg := { bays := 1 } }).held 0 = true ∧ (withResv up { state := 1, cfg := { bays := 1 } }).heldCluster 51 = true ∧
    (∀ n ∈ [9, 10], ∀ k ∈ [0, 2], let s := withDom 51 { state := k, req := 3, good := 3, t1 := 10, t3 := 10, idle := n }
      s.timing 51 = true ∧ decide ((s.dom 51).limit 51 ≤ (s.dom 51).idle) = (n == 10)) ∧
    (∀ k ∈ [0, 3], let s := withDom 50 { state := k, req := 3, good := 3, t1 := 10, t2 := 10, idle := 10 }
      s.timing 50 = true ∧ (s.dom 50).limit 50 ≤ (s.dom 50).idle) := ⟨open_of (by decide +kernel), by decide +kernel⟩

/-- Entries at each kind of step for bay 0, which saves 8 cycles; an entry undone; an exit one cycle early and at its time. -/
theorem witness_EntryAndExit :
    (∀ k ∈ [0, 9, 12], ((withDom 0 { state := 0, entering := true, target := 3, step := k, since := 99 }).dom 0).step + 1 = k + 1 ∧ saveCycles 0 3 = 8 ∧
      ((withDom 0 { state := 0, entering := true, target := 3, step := k, since := 99 }).dom 0).since < (withDom 0 { state := 0 }).time.nclk) ∧
    ((withDom 0 { state := 0, entering := true, target := 4, step := 4, since := 99 }).dom 0).step + 1 = 5 + saveCycles 0 4 ∧
    (∀ k ∈ [1, 2], ((withDom 0 { state := 0, entering := true, target := 0, step := k, since := 99 }).dom 0).target = 0 ∧
      ((withDom 0 { state := 0, entering := true, target := 0, step := k, since := 99 }).dom 0).step = k) ∧
    (1 + 1 ∈ [2, 2 + saveCycles 0 3, 3 + saveCycles 0 3, 4 + saveCycles 0 3]) ∧
    (∀ q ∈ [97, 96], let s := withDom 0 { state := 4, exiting := true, req := 3, good := 3, step := 1, since := q }
      decide (s.time.nclk < (s.dom 0).since + 4) = (q == 97) ∧ s.boot.step = 7) ∧
    ((withDom 0 { state := 4, exiting := true, req := 3, good := 0, step := 0 }).dom 0).good ≠ 3 ∧
    (∀ n ∈ [3, 4], let s := withDom 0 { state := 4, exiting := true, req := 3, good := 3, step := 3, since := 0 }
      decide (4 ≤ ({ s with pwr := { s.pwr with upAt := s.time.nclk + 1, ups := n } } : State).pwr.ups) = (n == 4)) := by decide +kernel

theorem witness_EntryAndExit_canon : (withDom 0 { state := 4, exiting := true, req := 3, good := 3, step := 3, since := 0 }).Canon := canon_of (by decide +kernel)

theorem witness_ClocksAndThrottle : up.Canon ∧
    (up.mgtUp = true ∧ up.pwr.emthrot = false ∧ ({ up with pwr := { up.pwr with emthrot := true } } : State).mgtUp = true ∧
     ({ up with boot := { up.boot with rootReq := false } } : State).boot.rootReq = false ∧ up.boot.rootLock = true ∧ up.boot.rstN = true ∧ up.boot.rootReq = true ∧ up.boot.onRef = false ∧
     up.pwr.vgood = false ∧ up.pwr.vgoodFrom ≤ up.time.nclk ∧ up.boot.step ≠ 2 ∧ up.pwr.vcode = up.pwr.vreq ∧
     (∀ n ∈ [17, 18], let s : State := { State.reset with
        boot := { rstN := true, step := 3, onRef := true, rootReq := true, rootLock := true, usableAt := 18 }, time := { root := 64 * n, ref := n } }
      s.pending = [] ∧ 3 ≤ s.boot.step ∧
        decide (s.boot.usableAt ≤ s.time.ref + if (s.time.root + 1) % 64 = 0 then 1 else 0) = (n == 18)) ∧
     (∀ c ∈ [0, 90], let s : State := { up with pwr := { up.pwr with vcode := c } }
      s.pwr.vgoodFrom ≤ s.time.nclk ∧ s.pwr.vgood = false ∧ decide (s.pwr.vcode = s.pwr.vreq) = (c == s.pwr.vreq)) ∧
     ({ up with boot := { up.boot with access := [.niaWake] } } : State).boot.access ≠ [] ∧
     (let s : State := { up with boot := { up.boot with onRef := true, rootReq := false } }
      s.boot.rstN = true ∧ s.boot.onRef = true ∧ 2 ≤ s.boot.step) ∧
     (let s : State := { up with pwr := { rootStopEn := true } }
      (∀ d, d < 56 → 3 ≤ (s.dom d).state ∧ (s.dom d).entering = false ∧ (s.dom d).exiting = false) ∧ s.boot.onRef = false) ∧
     2 ≤ ((withDom 55 { state := 4 }).dom 55).state ∧ ((withDom 55 { state := 4 }).dom 55).exiting = false) := ⟨canon_of (by decide +kernel), by decide +kernel⟩

theorem witness_ColdStart : State.reset.boot.rstN = false ∧
    (∀ n ∈ [8703, 8704], let s : State := { State.reset with boot := { rstN := true, step := 1 }, time := { ref := n } }
     s.Canon ∧ decide (s.boot.relAt + 8704 ≤ s.time.ref) = (n == 8704)) ∧
    (let s : State := { State.reset with boot := { rstN := true, step := 5 }, time := { nclk := 1356 },
                                         pwr := { doms := (List.range 4).map fun d => (d, { exiting := true, step := 1 }) } }
     s.boot.step = 5 ∧ s.round = [0, 1, 2, 3] ∧ ∀ b ∈ s.round, s.boot.roundAt + 1356 ≤ s.time.nclk ∧
       ((s.dom b).exiting = true ∧ 0 < (s.dom b).step ∧ (s.dom b).since + 1356 ≤ s.time.nclk ∨ s.isOn b = true)) ∧
    (let s : State := { up with boot := { up.boot with step := 6 } }
     s.Canon ∧ ∀ d, 48 ≤ d → d ≤ 54 → s.isOn d = true) := by
  refine ⟨rfl, fun n h => ⟨canon_of ?_, ?_⟩, by decide +kernel, canon_of (by decide +kernel), ?_⟩
  · revert n; decide +kernel
  · revert n; decide +kernel
  have h : ∀ d, d < 55 → 48 ≤ d → ({ up with boot := { up.boot with step := 6 } } : State).isOn d = true := by decide +kernel
  exact fun d h1 h2 => h d (by omega) h1

/-- Offsets of an open window, of a domain that is down and of an absent bay; the first and last word of the window table. -/
theorem witness_ManagementWrites : up.Open (regDom 0x060000) ∧ up.Open (regDom 0x010010) ∧ up.Open (regDom 0x100410) ∧
    (regDom 0x040000 = some 50 ∧ ((withDom 50 { state := 3 }).dom 50).state = 3 ∧ (withDom 50 { state := 3 }).mgtUp = true ∧
     regDom 0x100410 = some 0 ∧ ((withDom 0 { state := 5 }).dom 0).state = 5 ∧ regDom 0x084000 = none ∧ regDom 0x087FFC = none ∧
     State.reset.boot.rstN = false ∧ (let s : State := { up with boot := { up.boot with onRef := true } }
       s.boot.rstN = true ∧ 2 ≤ s.boot.step ∧ s.boot.onRef = true)) := ⟨open_of (by decide +kernel), open_of (by decide +kernel), open_of (by decide +kernel), by decide +kernel⟩

/-- The block with a reservation that nothing holds back, a batch, a divider, a full ring, a staged group and a parked request. -/
theorem witness_UnitCommandsComplete :
    (let s : State := { withResv up { state := 1, pending := true, opened := true, cfg := { p := 10, bays := 1 } } with time := { cclk := 10 } }
     s.Canon ∧ s.Open (some 48) ∧ s.instList = [] ∧ (s.rv 0).state = 1 ∧ (s.rv 0).start + (s.rv 0).cfg.p ≤ s.time.cclk ∧
       (∀ d ∈ (s.rv 0).cfg.doms, s.isOn d = true) ∧ (∀ k, k < 32 → k ≠ 0 → (s.rv k).opened = false)) ∧
    (∀ r, r < 32 → (up.rv r).state ≠ 1) ∧ bitOf ({ up with sluice := { aen := 1 } } : State).sluice.aen 0 = true ∧
    (let s : State := { up with sluice := { batches := [⟨1, 10, [1]⟩] } }
     s.sluice.batches.find? (fun b => b.head == 1) = some ⟨1, 10, [1]⟩ ∧ s.inst 1 = none) ∧
    (let s := linkAt { st := 1, up := true, initDue := true }
     s.linkOn 0 = true ∧ (s.link 0).ctlDue = false) ∧
    ((linkAt { st := 2, up := true, ctlDue := true }).linkOn 0 = true) ∧
    (({ up with leat := { groups := [(0, { sVc0 := 512, sVcmax := 1 })] } } : State).mgtUp = true) ∧
    (({ up with pwu := { parks := [⟨1, 0, 0, 0, 0⟩] } } : State).pwu.parks = [⟨1, 0, 0, 0, 0⟩]) ∧
    ({ up with pwu := { pools := [(0, { staged := { kind := 1, enable := true, slots := 4, ringInit := 4 } })] } } : State).pwuBad = false ∧ up.pwr.cdivEff = 3 ∧ (3#32).toNat % 4 = 3 ∧ up.winOn 48 = true :=
  ⟨⟨canon_of (by decide +kernel), open_of (by decide +kernel), by decide +kernel⟩, by decide +kernel⟩

/-! ### Operations on values worked out by hand -/

/-- The state that a command answers. -/
def after (i : Instr) (s : State) : State := match exec i s with
  | .next t => t
  | _ => State.reset

/-- The register that a short word's d names, after the word runs with s1 and s2 given. -/
def run2 (f : Exe → W32 → Instr) (w : W32) (a b : Nat) : Nat := (((after (f (.ctx 0) w) (at0 [w] a b)).cx 0).rs 4).toNat

/-- Addition wraps (R325). -/
theorem test_add_wraps : run2 .add (sw 0x01 4 1 2 0) (2 ^ 64 - 1) 1 = 0 := by decide +kernel
/-- The operands of SUB are not exchanged (R325). -/
theorem test_sub_order : run2 .sub (sw 0x02 4 1 2 0) 3 5 = 2 ^ 64 - 2 := by decide +kernel
/-- MUL keeps the low 64 bits (R325). -/
theorem test_mul_low : run2 .mul (sw 0x03 4 1 2 0) (2 ^ 63 + 3) 2 = 6 := by decide +kernel
/-- A shift takes s[b] modulo 64, and SRA copies the sign (R325). -/
theorem test_shifts : run2 .shl (sw 0x07 4 1 2 0) 1 65 = 2 ∧ run2 .shr (sw 0x08 4 1 2 0) (2 ^ 63) 63 = 1 ∧
    run2 .sra (sw 0x09 4 1 2 0) (2 ^ 63) 63 = 2 ^ 64 - 1 := by decide +kernel
/-- The immediate of ADDI is signed (R325). -/
theorem test_addi_signed : run2 .addi (sw 0x0A 4 1 0 0x3FF) 5 0 = 4 := by decide +kernel
/-- s0 stays zero (R321). -/
theorem test_s0 : ((after (.addi (.ctx 0) (sw 0x0A 0 1 0 7)) (at0 [sw 0x0A 0 1 0 7] 5 0)).cx 0).rs 0 = 0 := by decide +kernel

/-- The check value of CRC-32C for the digits 1 to 9, and SHA-256 of "abc" (FIPS 180-4). -/
theorem test_checks : Crypto.crc32c [0x31, 0x32, 0x33, 0x34, 0x35, 0x36, 0x37, 0x38, 0x39] = 0xE3069283 ∧
    (Crypto.sha256 [0x61, 0x62, 0x63]).take 8 = [0xBA, 0x78, 0x16, 0xBF, 0x8F, 0x01, 0xCF, 0xEA] := by decide +kernel

/-- The home port is the exclusive-or of the eight five-bit fields from bit 12 (R433). -/
theorem test_homePort : homePort 0x1F000 = 31 ∧ homePort (2 ^ 17) = 1 ∧ homePort (2 ^ 12 + 2 ^ 17) = 0 ∧ homePort (2 ^ 51) = 16 ∧ homePort 0xFFF = 0 := by
  decide +kernel

/-- Elements at the ends of their formats (R34, R36). -/
theorem test_decode : decodeElem .e4m3 0x7E = .fin false 448 ∧ decodeElem .e4m3 0x7F = .nan ∧ decodeElem .e4m3 1 = .fin false (1 / 512) ∧
    decodeElem .e5m2 0x7B = .fin false 57344 ∧ decodeElem .e5m2 0xFC = .inf true ∧ decodeElem .e2m1 7 = .fin false 6 ∧
    decodeElem .int8 0x80 = .fin true 2 ∧ decodeElem .bf16 0x3F80 = .fin false 1 ∧ decodeElem .f32 1 = .fin false (1 / 2 ^ 149) := by decide +kernel

/-- A tie rounds to even and what is above the largest value saturates (R42, R43). -/
theorem test_conv : conv .e4m3 .rne (.fin false 17) = ⟨0x58, .fin false 16, .none⟩ ∧ conv .e4m3 .rne (.fin false 19) = ⟨0x5A, .fin false 20, .none⟩ ∧
    conv .e4m3 .rne (.fin true 1000) = ⟨0xFE, .fin true 448, .sat⟩ := by decide +kernel

/-- The three buffers worked out after R312. -/
theorem test_buffers : 2 * 128 * stageBytes .e4m3 32 + 2 * stageBytes .e4m3 1024 = 10560 ∧ 2 * 128 * stageBytes .bf16 32 + 2 * stageBytes .bf16 1024 = 20480 ∧
    2 * 64 * stageBytes .f32 32 + 2 * stageBytes .f32 1024 = 24576 := by decide +kernel

/-- WAIT goes on at equality and holds one below (R339). -/
theorem test_wait : (((after (.wait 0 ⟨lw0 0x71 2 0, 1, 0, 0⟩) (atW ⟨lw0 0x71 2 0, 1, 0, 0⟩)).cx 0).nextPos,
    ((after (.wait 0 ⟨lw0 0x71 2 0, 1, 1, 0⟩) (atW ⟨lw0 0x71 2 0, 1, 1, 0⟩)).cx 0).hold) = (4, .wait) := by decide +kernel

/-- A refused instruction sets ERR and writes a record of KIND 1 at the ring's base (R337, R344). -/
theorem test_refused_record : (let t := after (.kvfn 0 ⟨lw0 0x43 2 0, 1, 0, 0⟩) (mem0 (⟨lw0 0x43 2 0, 1, 0, 0⟩ : Long).words 0)
    ((t.cx 0).err, (t.cx 0).lastErr.toNat % 2 ^ 16, (t.cx 0).rseq)) = (true, Code.encoding, 1) := by decide +kernel

/-- A bundle's words follow the newest of its context, and its credit returns (R329, R331). -/
theorem test_bundle : (let t := after (.bundleAppend 0 (bun 0 0 1 7)) (hopAt 0 7 [])
    ((t.cx 0).newest, Map.get 0 (t.cx 0).window 0, (t.chan 0).exp, (t.chan 0).held)) = (1, 1, 8, []) := by decide +kernel

/-- The management port after a lock loss answers nothing (R457, R519). -/
theorem test_lock_loss : (after .rootLockLoss up).mgtUp = false ∧ after (.mgtWrite 0x060000 5) (after .rootLockLoss up) = after .rootLockLoss up := by decide +kernel

/-- A landed change of no entry counts the attempt (R506). -/
theorem test_scarf : (let t := after .scarfCheckDone checking0
    (t.prot.scarf.cseq, t.prot.scarf.phase, t.prot.scarf.result)) = (1, 0, scLanded) := by decide +kernel

end Sys2Proof.Tests
end

section
/-!
SUPPORT. The traffic of a memory port: what an acceptance, a read return and a write acknowledgement do to the port, and what the
request that they answer completes. Each is said once for any request and then for what the request serves.
-/

namespace Sys2Proof.Map

/-- Writing back what a store holds changes nothing. -/
theorem modify_of_fixed {α : Type} [DecidableEq α] {d : α} {m : Map α} (h : wf d m = true) {k : Nat} {f : α → α}
    (hf : f (get d m k) = get d m k) : modify d m k f = m := by
  refine ext_of_wf (wf_modify h k f) h fun j => ?_
  rw [get_modify h, hf]
  split
  · next e => rw [e]
  · rfl

end Sys2Proof.Map

namespace Sys2Proof.Machine

section traffic
variable {s : State} {p : Fin 32} {tag n c : Nat} {r : Req}

theorem onPort_of_fixed {k : Nat} {f : Port → Port} (h : Map.wf {} s.mem.ports = true) (hf : f (s.port k) = s.port k) :
    s.onPort k f = s := by
  unfold State.onPort
  rw [Map.modify_of_fixed h hf]

/-! ### Whose request it is -/

@[simp] theorem actor_tensor : s.actor (.tensor n) = .tensor n := rfl
@[simp] theorem actor_scalar : s.actor (.scalar c) = .scalar c := rfl
@[simp] theorem actor_record (irq : Bool) : s.actor (.record c irq) = .record c irq := rfl
@[simp] theorem actor_land (l : Nat) : s.actor (.land n l c) = .land n l c := rfl

/-! ### Acceptance (R435) -/

theorem exec_nmpRequestAccepted_reads (hf : s.portFenced p = false) (hq : (s.port p).rq ≠ []) :
    exec (.nmpRequestAccepted p false) s = .next (State.offer p 8 (s.onPort p fun y =>
      { y with rq := [], rdOut := y.rdOut ++ (s.port p).rq.map fun r => { r with since := s.time.mclk },
               reads := holdAdd y.reads (s.port p).rq.length })) := by
  show execNmpRequestAccepted p false s = _
  simp [execNmpRequestAccepted, hf, hq]

theorem exec_nmpRequestAccepted_writes (hf : s.portFenced p = false) (hq : (s.port p).wr ≠ []) :
    exec (.nmpRequestAccepted p true) s = .next (State.offer p 8 (s.onPort p fun y =>
      { y with wr := [], wrOut := y.wrOut ++ (s.port p).wr.map fun r => { r with since := s.time.mclk },
               writes := holdAdd y.writes (s.port p).wr.length })) := by
  show execNmpRequestAccepted p true s = _
  simp [execNmpRequestAccepted, hf, hq]

/-! ### Read returns (R436, R441, R443) -/

/-- The read `tag` leaves port `p`, its error counted. -/
def State.readGone (s : State) (p tag : Nat) (err : Bool) : State := s.onPort p fun y =>
  { y with rdOut := y.rdOut.filter (fun q => q.tag != tag), errs := if err then holdAdd y.errs 1 else y.errs }

/-- The line of a read, where the read fills the Granary. -/
def State.readFill (s : State) (r : Req) : State := if r.fill then s.granFill r.addr else s

/-- What a read was for when its data is lost: a chunk is withheld, any other destination poisoned (R517). -/
def State.loseTgt (t : State) : Tgt → State
  | .chunk m c => t.withhold m c
  | g => t.poisonTgt g

theorem wf_ports_readGone (h : Map.wf {} s.mem.ports = true) (p tag : Nat) (err : Bool) :
    Map.wf {} (s.readGone p tag err).mem.ports = true := by
  simp only [State.readGone, State.onPort]
  exact Map.wf_modify h p _

/-- A return that answers an outstanding read completes it; then every port offers, and the Page Walk Unit goes on. -/
theorem exec_nmpReadReturn_found (h : (s.port p).rdOut.find? (fun q => q.tag == tag) = some r) (err : Bool) :
    exec (.nmpReadReturn p tag err) s =
      .next ((s.readGone p tag err).completeRead r (if err then some Code.fMemError else none)).offerAll.pwuTurn := by
  show execNmpReadReturn p tag err s = _
  simp only [execNmpReadReturn, h]
  rfl

theorem exec_nmpReadReturn_late (h : (s.port p).rdOut.find? (fun q => q.tag == tag) = none) (hl : tag ∈ (s.port p).lateRd)
    (err : Bool) : exec (.nmpReadReturn p tag err) s = .next (State.offer p 8 (s.onPort p fun y =>
      { y with lateRd := y.lateRd.filter (· != tag), errs := if err then holdAdd y.errs 1 else y.errs })) := by
  show execNmpReadReturn p tag err s = _
  simp only [execNmpReadReturn, h, List.contains_iff_mem.2 hl, if_true]

/-- No update of the atomic unit waits for a read that serves something else. -/
theorem atoms_unmarked (h : Map.wf {} s.mem.ports = true) (hr : ∀ q, r.why ≠ .line q) (k : Nat) (g : Option Bool) :
    (s.onPort k fun x => { x with atoms := x.atoms.map fun a => if r.why == .line a.seq then { a with got := g } else a }) = s := by
  refine onPort_of_fixed h ?_
  simp [hr]

theorem completeRead_tensor_ok (h : Map.wf {} s.mem.ports = true) (hw : r.why = .tensor n) :
    s.completeRead r none = s.readFill r := by
  have hu := atoms_unmarked h (r := r) (by simp [hw]) (homePort r.addr) (some false)
  simp only [State.completeRead, Option.isSome_none, Option.isNone_none, Bool.true_and, hu]
  simp only [hw, actor_tensor, State.readFill]

/-- A read in error of an instruction that is not speculative: what it was for is lost, the instruction is poisoned and keeps
its first failing port and address. -/
theorem completeRead_tensor_err (h : Map.wf {} s.mem.ports = true) (hw : r.why = .tensor n) {i : Inst} (hi : s.inst n = some i)
    (hs : i.spec = false) (hq : r.quiet = false) :
    s.completeRead r (some Code.fMemError) =
      ((r.tgt.foldl State.loseTgt s).markPoison n true).memError n (homePort r.addr) r.addr := by
  have hu := atoms_unmarked h (r := r) (by simp [hw]) (homePort r.addr) (some true)
  have hne : (Code.fMemError == Code.fPortTimeout) = false := by decide
  simp only [State.completeRead, Option.isSome_some, Option.isNone_some, Bool.false_and, Bool.false_eq_true, if_false, hu]
  simp only [hw, actor_tensor, hi, Option.map_some, Option.getD_some, hs, hq, hne, Bool.or_self, Bool.false_eq_true, if_false, if_true]
  rfl

theorem completeRead_scalar (h : Map.wf {} s.mem.ports = true) (hw : r.why = .scalar c) (bad : Option Nat) :
    s.completeRead r bad =
      (if bad.isNone then s.readFill r else s).scalarReturn c (bad.map fun code => (code, homePort r.addr)) := by
  have hu := atoms_unmarked h (r := r) (by simp [hw]) (homePort r.addr) (some bad.isSome)
  simp only [State.completeRead, hu]
  cases bad <;> simp [hw, State.readFill]

/-- A read enters the Granary in the slice of its home port's group; a slice with room gives up no line (R20, R448). -/
theorem granFill_of_room {a : Nat} (h : (s.sliceLines (homePort a / 4)).length < 32768) :
    s.granFill a = { s with mem := { s.mem with
      gran := Map.set [] s.mem.gran (a / 128) (s.extBytes (a / 128 * 128) 128),
      granBad := s.mem.granBad.filter (· != a / 128) } } := by
  simp only [State.granFill, h, decide_true, Bool.true_or, if_true]

/-! ### Write acknowledgements (R437, R441, R443) -/

/-- The write `tag` leaves port `p`, its error counted. -/
def State.writeGone (s : State) (p tag : Nat) (err : Bool) : State := s.onPort p fun y =>
  { y with wrOut := y.wrOut.filter (fun q => q.tag != tag), errs := if err then holdAdd y.errs 1 else y.errs }

/-- An acknowledgement that answers an outstanding write completes it and lets go on what waits for it. -/
theorem exec_nmpWriteAck_found (h : (s.port p).wrOut.find? (fun q => q.tag == tag) = some r) (err : Bool) :
    exec (.nmpWriteAck p tag err) s =
      .next ((State.offer p 8 ((s.writeGone p tag err).completeWrite r (if err then some Code.fMemError else none))).afterWrite r.why) := by
  show execNmpWriteAck p tag err s = _
  simp only [execNmpWriteAck, State.ackWrite, h]
  rfl

theorem exec_nmpWriteAck_late (h : (s.port p).wrOut.find? (fun q => q.tag == tag) = none) (hl : tag ∈ (s.port p).lateWr)
    (err : Bool) : exec (.nmpWriteAck p tag err) s = .next (State.offer p 8 (s.onPort p fun y =>
      { y with lateWr := y.lateWr.erase tag, errs := if err then holdAdd y.errs 1 else y.errs })) := by
  show execNmpWriteAck p tag err s = _
  simp only [execNmpWriteAck, State.ackWrite, h, List.contains_iff_mem.2 hl, if_true]

theorem completeWrite_tensor_ok (hw : r.why = .tensor n) : s.completeWrite r none = s := by
  simp [State.completeWrite, hw]

/-- A write in error did not take effect (log 16), and its instruction keeps its first failing port and address. -/
theorem completeWrite_tensor_err (hw : r.why = .tensor n) :
    s.completeWrite r (some Code.fMemError) = (s.unwrite r).memError n (homePort r.addr) r.addr := by
  simp [State.completeWrite, hw]

theorem completeWrite_scalar (hw : r.why = .scalar c) (bad : Option Nat) :
    s.completeWrite r bad = (if bad.isSome then s.unwrite r else s).scalarReturn c (bad.map fun code => (code, homePort r.addr)) := by
  simp [State.completeWrite, hw]

/-- A completion record that is to interrupt pulses its cluster's line, unless this SCLK cycle has (R346). -/
theorem completeWrite_record_ok {irq : Bool} (hw : r.why = .record c irq) :
    s.completeWrite r none = if irq = true ∧ Map.get 0 s.pins.cmplAt (c / 16) ≠ s.time.sclk + 1 then s.onPins fun q =>
      { q with cmplIrq := Map.modify 0 q.cmplIrq (c / 16) (· + 1), cmplAt := Map.set 0 q.cmplAt (c / 16) (s.time.sclk + 1) } else s := by
  cases irq with
  | false => simp [State.completeWrite, hw]
  | true =>
    by_cases hp : Map.get 0 s.pins.cmplAt (c / 16) = s.time.sclk + 1 <;> simp [State.completeWrite, State.pulseCmpl, hw, hp]

theorem completeWrite_land_ok {l : Nat} (hw : r.why = .land n l c) : s.completeWrite r none = s := by
  simp [State.completeWrite, hw]

end traffic

/-- Settles O37: each clause is the row's lemma for the request that it answers, with what that request completes. -/
theorem portTraffic : Obligations.PortTraffic := by
  unfold Obligations.PortTraffic
  refine ⟨fun s p hf => ⟨exec_nmpRequestAccepted_reads hf, exec_nmpRequestAccepted_writes hf⟩, fun s p tag hc => ?_, fun s p tag => ?_⟩
  · have hp := wf_ports_readGone hc.ports p tag
    refine ⟨fun r hf hr => ?fills, fun r n h hw => ⟨?tensorOk, fun i hi hs hq => ?tensorErr⟩, fun r c h hw => ⟨?scalarOk, ?scalarErr⟩,
      exec_nmpReadReturn_late⟩
    case fills =>
      simp only [hf, if_true]
      exact granFill_of_room hr
    case tensorOk =>
      rw [exec_nmpReadReturn_found h, if_neg Bool.false_ne_true, completeRead_tensor_ok (hp false) hw]
      rfl
    case tensorErr =>
      rw [exec_nmpReadReturn_found h, if_pos rfl, completeRead_tensor_err (hp true) hw hi hs hq]
      rfl
    case scalarOk =>
      rw [exec_nmpReadReturn_found h, if_neg Bool.false_ne_true, completeRead_scalar (hp false) hw]
      rfl
    case scalarErr =>
      rw [exec_nmpReadReturn_found h, if_pos rfl, completeRead_scalar (hp true) hw]
      rfl
  · refine ⟨fun r h => ⟨fun n hw => ⟨?tensorOk, ?tensorErr⟩, fun c hw => ⟨?scalarOk, ?scalarErr⟩, fun c irq hw => ?record,
      fun n l c hw => ?land⟩, exec_nmpWriteAck_late⟩
    case tensorOk =>
      rw [exec_nmpWriteAck_found h, if_neg Bool.false_ne_true, completeWrite_tensor_ok hw, hw]
      rfl
    case tensorErr =>
      rw [exec_nmpWriteAck_found h, if_pos rfl, completeWrite_tensor_err hw, hw]
      rfl
    case scalarOk =>
      rw [exec_nmpWriteAck_found h, if_neg Bool.false_ne_true, completeWrite_scalar hw, hw]
      rfl
    case scalarErr =>
      rw [exec_nmpWriteAck_found h, if_pos rfl, completeWrite_scalar hw, hw]
      rfl
    case record =>
      rw [exec_nmpWriteAck_found h, if_neg Bool.false_ne_true, completeWrite_record_ok hw, hw]
      rfl
    case land =>
      rw [exec_nmpWriteAck_found h, if_neg Bool.false_ne_true, completeWrite_land_ok hw, hw]
      rfl

end Sys2Proof.Machine
end

section
/-!
SUPPORT. Bytes as numbers: what a list of little-endian bytes reads after it is written as a number, and what an overwrite leaves.
-/

namespace Sys2Proof

theorem bitOf_eq_testBit (w i : Nat) : bitOf w i = w.testBit i := by
  rw [Nat.testBit_eq_decide_div_mod_eq]
  rfl

theorem leNat_lt (bs : List Byte) : leNat bs < 256 ^ bs.length := by
  induction bs with
  | nil => exact Nat.one_pos
  | cons b bs ih =>
    have hb : b.toNat < 256 := b.isLt
    simp only [leNat, List.length_cons, Nat.pow_succ]
    omega

@[simp] theorem leNat_natLe (n x : Nat) : leNat (natLe n x) = x % 256 ^ n := by
  induction n generalizing x with
  | zero => exact (Nat.mod_one x).symm
  | succ n ih =>
    rw [natLe, leNat, ih, Nat.pow_succ', BitVec.toNat_ofNat]
    exact Nat.mod_mul.symm

theorem leAt_lt (bs : List Byte) (i n : Nat) : leAt bs i n < 256 ^ n :=
  (leNat_lt _).trans_le (Nat.pow_le_pow_right (by decide) (List.length_take_le n _))

/-- A field reads the same in two lists that agree on its bytes. -/
theorem leAt_congr {bs cs : List Byte} {i n : Nat} (h : ∀ k, i ≤ k → k < i + n → bs[k]? = cs[k]?) : leAt bs i n = leAt cs i n := by
  have hf : (bs.drop i).take n = (cs.drop i).take n := by
    refine List.ext_getElem? fun k => ?_
    simp only [List.getElem?_take, List.getElem?_drop]
    split
    · exact h (i + k) (by omega) (by omega)
    · rfl
  rw [leAt, leAt, hf]

/-! ### Overwritten bytes -/

section patch
variable {bs v : List Byte} {i : Nat} (h : i + v.length ≤ bs.length)
include h

theorem length_patch : (patch bs i v).length = bs.length := by
  simp only [patch, List.length_append, List.length_take, List.length_drop]
  omega

theorem getElem?_patch_of_outside {k : Nat} (hk : k < i ∨ i + v.length ≤ k) : (patch bs i v)[k]? = bs[k]? := by
  rw [patch, List.append_assoc]
  rcases hk with hk | hk
  · rw [List.getElem?_append_left (by rw [List.length_take]; omega), List.getElem?_take_of_lt hk]
  · have hi : (bs.take i).length = i := List.length_take_of_le (by omega)
    rw [List.getElem?_append_right (by omega), List.getElem?_append_right (by omega), List.getElem?_drop, hi]
    congr 1
    omega

theorem leAt_patch_of_outside {j n : Nat} (hj : j + n ≤ i ∨ i + v.length ≤ j) : leAt (patch bs i v) j n = leAt bs j n :=
  leAt_congr fun _ _ _ => getElem?_patch_of_outside h (by omega)

theorem leAt_patch : leAt (patch bs i v) i v.length = leNat v := by
  rw [leAt, patch, List.append_assoc, List.drop_left' (List.length_take_of_le (by omega)), List.take_left]

end patch

/-- Block `j` of blocks of one length that stand one after another. -/
theorem take_drop_flatMap_range {α : Type} {f : Nat → List α} {n : Nat} (hf : ∀ i, (f i).length = n) {j m : Nat} (hj : j < m) :
    (((List.range m).flatMap f).drop (n * j)).take n = f j := by
  have hlen : ∀ m, ((List.range m).flatMap f).length = n * m := fun m => by simp [List.length_flatMap, hf, Nat.mul_comm]
  induction m with
  | zero => omega
  | succ m ih =>
    rw [List.range_succ, List.flatMap_append, List.flatMap_singleton]
    by_cases h : j < m
    · have hle : n * j + n ≤ n * m := Nat.mul_le_mul_left n h
      rw [List.drop_append_of_le_length (by rw [hlen]; omega), List.take_append_of_le_length (by rw [List.length_drop, hlen]; omega), ih h]
    · obtain rfl : j = m := by omega
      rw [List.drop_left' (hlen j), List.take_of_length_le (hf j).le]

end Sys2Proof
end

section
/-!
SUPPORT. The atomic add of one WIDE line (R125, R445, R446): the sums of an entry line and of a header line, which update a port
makes next, and what the row does with it.
-/

namespace Sys2Proof.Machine

theorem length_extBytes (s : State) (a n : Nat) : (s.extBytes a n).length = n := by
  simp [State.extBytes]

/-! ### Entries (R125, log 144) -/

/-- Reserved bits of an entry are 0 after an add, so it keeps its 16 bytes. -/
theorem wideEntryAdd_lt (x y : Nat) : wideEntryAdd x y < 2 ^ 100 := by
  have hflags : fld x 96 4 ||| fld y 96 4 < 2 ^ 4 := Nat.or_lt_two_pow (Nat.mod_lt _ (by decide)) (Nat.mod_lt _ (by decide))
  unfold wideEntryAdd
  omega

theorem wideEntryAdd_sum (x y : Nat) : wideEntryAdd x y % 2 ^ 96 = (x % 2 ^ 96 + y % 2 ^ 96) % 2 ^ 96 := by
  simp only [wideEntryAdd, fld, Nat.pow_zero, Nat.div_one, Nat.add_mul_mod_self_right, Nat.mod_mod]

theorem wideEntryAdd_flag (x y k : Nat) :
    bitOf (wideEntryAdd x y) (96 + k) = ((bitOf x (96 + k) || bitOf y (96 + k)) && decide (k < 4)) := by
  have hsum : (fld x 0 96 + fld y 0 96) % 2 ^ 96 < 2 ^ 96 := Nat.mod_lt _ (by decide)
  have hflag : ∀ z, (fld z 96 4).testBit k = (decide (k < 4) && z.testBit (96 + k)) := fun z => by
    rw [fld, Nat.testBit_mod_two_pow, Nat.testBit_div_two_pow, Nat.add_comm]
  simp only [bitOf_eq_testBit]
  rw [wideEntryAdd, Nat.add_comm, Nat.mul_comm, Nat.testBit_two_pow_mul_add _ hsum, if_neg (by omega), Nat.add_sub_cancel_left,
    Nat.testBit_or, hflag, hflag, ← Bool.and_or_distrib_left, Bool.and_comm]

theorem length_wideLineAdd (t k : List Byte) : (wideLineAdd t k).length = 64 := by
  simp [wideLineAdd, List.length_flatMap, natLe_length]

theorem wideLineAdd_entry (t k : List Byte) {j : Nat} (hj : j < 4) :
    leAt (wideLineAdd t k) (16 * j) 16 = wideEntryAdd (leAt t (16 * j) 16) (leAt k (16 * j) 16) := by
  rw [leAt, wideLineAdd, take_drop_flatMap_range (fun _ => natLe_length 16 _) hj, leNat_natLe]
  exact Nat.mod_eq_of_lt ((wideEntryAdd_lt _ _).trans (by decide))

/-! ### Headers (R125) -/

section header
variable {t : List Byte} (ht : t.length = 64) (k : List Byte)
include ht

theorem passes_inside (x : Nat) : 8 + (natLe 8 x).length ≤ t.length := by
  rw [natLe_length, ht]
  decide

theorem flags_inside (x : Nat) (b : Byte) : 4 + [b].length ≤ (patch t 8 (natLe 8 x)).length := by
  rw [length_patch (passes_inside ht x), ht, List.length_singleton]
  decide

theorem length_wideHeaderAdd : (wideHeaderAdd t k).length = 64 := by
  rw [wideHeaderAdd, length_patch (flags_inside ht _ _), length_patch (passes_inside ht _), ht]

theorem wideHeaderAdd_passes : leAt (wideHeaderAdd t k) 8 8 = (leAt t 8 8 + leAt k 8 8) % 2 ^ 64 := by
  have hsum := leAt_patch (passes_inside ht (leAt t 8 8 + leAt k 8 8))
  rw [natLe_length, leNat_natLe, show 256 ^ 8 = 2 ^ 64 from rfl] at hsum
  rw [wideHeaderAdd, leAt_patch_of_outside (flags_inside ht _ _) (.inr (Nat.le_add_right 5 3)), hsum]

theorem wideHeaderAdd_flags : leAt (wideHeaderAdd t k) 4 1 = (leAt t 4 1 ||| (leAt k 4 1 &&& 2)) := by
  have hbyte : leAt t 4 1 ||| (leAt k 4 1 &&& 2) < 2 ^ 8 :=
    Nat.or_lt_two_pow (leAt_lt t 4 1) (Nat.and_le_left.trans_lt (leAt_lt k 4 1))
  calc leAt (wideHeaderAdd t k) 4 1 = leNat [BitVec.ofNat 8 (leAt t 4 1 ||| (leAt k 4 1 &&& 2))] := leAt_patch (flags_inside ht _ _)
    _ = leAt t 4 1 ||| (leAt k 4 1 &&& 2) := by
      rw [leNat, leNat, BitVec.toNat_ofNat, Nat.mod_eq_of_lt hbyte, Nat.mul_zero, Nat.add_zero]

theorem wideHeaderAdd_outside {i : Nat} (hi : i ≠ 4) (ho : i < 8 ∨ 16 ≤ i) : (wideHeaderAdd t k)[i]? = t[i]? := by
  rw [wideHeaderAdd, getElem?_patch_of_outside (flags_inside ht _ _) (by rw [List.length_singleton]; omega),
    getElem?_patch_of_outside (passes_inside ht _) (by rw [natLe_length]; omega)]

end header

/-! ### The row (R439, R445, R446) -/

/-- The update that a port makes next is one of its own, and a Class A one where a Class A one can be made. -/
theorem mem_and_clsA_of_next {l : List Atom} {can : Atom → Bool} {a : Atom}
    (h : (l.find? fun b => b.clsA && can b).or (l.find? can) = some a) :
    a ∈ l ∧ ∀ b ∈ l, can b = true → b.clsA = true → a.clsA = true := by
  cases hA : l.find? fun b => b.clsA && can b with
  | some c =>
    obtain rfl : c = a := by simpa [hA] using h
    have hpicked := List.find?_some hA
    exact ⟨List.mem_of_find?_eq_some hA, fun _ _ _ _ => (Bool.and_eq_true_iff.1 hpicked).1⟩
  | none =>
    rw [hA, Option.none_or] at h
    refine ⟨List.mem_of_find?_eq_some h, fun b hb hcan hcls => absurd ?_ (List.find?_eq_none.1 hA b hb)⟩
    rw [hcls, hcan, Bool.and_true]

/-- The update leaves the atomic unit of its port. -/
def State.updateGone (s : State) (p : Nat) (a : Atom) : State :=
  s.onPort p fun y => { y with atoms := y.atoms.filter (fun b => b.seq != a.seq) }

/-- The update leaves the atomic unit and counts. -/
def State.updateMade (s : State) (p : Nat) (a : Atom) : State :=
  (s.updateGone p a).onPort p fun y => { y with atomics := holdAdd y.atomics 1 }

/-- The update's tile is dropped with a fault of instruction `n`; then lines that waited may enter the unit (R446). -/
def State.updateDropped (s : State) (p n : Nat) (a : Atom) (code : Nat) : State :=
  (((s.updateGone p a).dropTile a.why a.tile).wideFault n code a.line).takeAtoms p

/-- The new line is written back at the update's place in the order, with the poison of its sender and of its read (R441); then
lines that waited may enter the unit. -/
def State.updateBack (s : State) (p : Nat) (a : Atom) (err : Bool) (new : List Byte) : State :=
  (s.queueWriteAt a.seq a.dom a.clsA a.why a.line new (a.poison || err)).takeAtoms p

section row
variable {s : State} {p : Fin 32} {a : Atom} {n : Nat} {err : Bool}
  (hnext : ((s.port p).atoms.find? fun b => b.clsA && (b.got.isSome && !s.addDue b)).or
    ((s.port p).atoms.find? fun b => b.got.isSome && !s.addDue b) = some a)
  (hgot : a.got = some err) (hfence : s.portFenced p = false) (hon : s.isOn (32 + p.val / 4) = true)
  (how : s.owner a.why = .tensor n)
include hnext hgot hfence hon how

theorem exec_atomicLineUpdate_entry (hh : a.hdr = false) : exec (.atomicLineUpdate p err) s = .next
    (if entriesOk (s.extBytes a.tile 64) a.e0 (s.extBytes a.line 64) then
      (s.updateMade p a).updateBack p a err (wideLineAdd (s.extBytes a.line 64) a.data)
    else s.updateDropped p n a Code.fWideHeader) := by
  show execAtomicLineUpdate p err s = _
  cases hs : entriesOk (s.extBytes a.tile 64) a.e0 (s.extBytes a.line 64) <;>
    simp [execAtomicLineUpdate, hnext, hgot, hfence, hon, how, hh, hs, State.updateMade, State.updateBack, State.updateDropped,
      State.updateGone]

theorem exec_atomicLineUpdate_header (hh : a.hdr = true) : exec (.atomicLineUpdate p err) s = .next
    (if tileOk (s.extBytes a.line 64) = true ∧ tileOk a.data = true ∧ s.tileEntriesOk a.why a.tile a.data = true then
      if wideSame (s.extBytes a.line 64) a.data then
        ((s.updateMade p a).readyTile a.why a.tile).updateBack p a err (wideHeaderAdd (s.extBytes a.line 64) a.data)
      else s.updateDropped p n a Code.fWideAnchor
    else s.updateDropped p n a Code.fWideHeader) := by
  show execAtomicLineUpdate p err s = _
  by_cases hv : tileOk (s.extBytes a.line 64) = true ∧ tileOk a.data = true ∧ s.tileEntriesOk a.why a.tile a.data = true
  · obtain ⟨ht, hd, he⟩ := hv
    cases hsame : wideSame (s.extBytes a.line 64) a.data <;>
      simp [execAtomicLineUpdate, hnext, hgot, hfence, hon, how, hh, ht, hd, he, hsame, State.updateMade, State.updateBack,
        State.updateDropped, State.updateGone]
  · have hbad : (!tileOk (s.extBytes a.line 64) || !tileOk a.data || !s.tileEntriesOk a.why a.tile a.data) = true := by
      simp only [not_and_or, Bool.not_eq_true] at hv
      simpa [or_assoc] using hv
    rw [if_neg hv]
    simp only [execAtomicLineUpdate, hnext, hgot, hfence, hon, how, hh, hbad]
    simp [State.updateDropped, State.updateGone]

end row

/-- Settles O39: the row's lemma for the kind of line, with the sums that the added line holds. -/
theorem atomicLineUpdates : Obligations.AtomicLineUpdates := by
  unfold Obligations.AtomicLineUpdates
  intro s p a n err
  dsimp only
  intro hnext hgot hfence hon how
  have ht := length_extBytes s a.line 64
  have hentry := exec_atomicLineUpdate_entry hnext hgot hfence hon how
  have hheader := exec_atomicLineUpdate_header hnext hgot hfence hon how
  refine ⟨mem_and_clsA_of_next hnext, fun hh hbad => ?entryBad, fun hh hok => ?entryAdd, fun hh hbad => ?headerBad,
    fun hh hok hne => ?headerDiffers, fun hh hok heq => ?headerAdd⟩
  case entryBad =>
    rw [hentry hh, hbad]
    rfl
  case entryAdd =>
    refine ⟨wideLineAdd (s.extBytes a.line 64) a.data, length_wideLineAdd _ _, fun j hj => ?_, ?_⟩
    · rw [wideLineAdd_entry _ _ hj]
      exact ⟨wideEntryAdd_sum _ _, fun k _ => wideEntryAdd_flag _ _ k⟩
    · rw [hentry hh, hok]
      rfl
  case headerBad =>
    rw [hheader hh, if_neg hbad]
    rfl
  case headerDiffers =>
    rw [hheader hh, if_pos hok, hne]
    rfl
  case headerAdd =>
    refine ⟨wideHeaderAdd (s.extBytes a.line 64) a.data, length_wideHeaderAdd ht _, wideHeaderAdd_passes ht _, wideHeaderAdd_flags ht _,
      fun k _ => wideHeaderAdd_outside ht _, ?_⟩
    rw [hheader hh, if_pos hok, heq]
    rfl

end Sys2Proof.Machine
end

section
/-!
SUPPORT. The start of a pass (R418, R420, R421): which of an array's items is chosen, what the boundary does to the virtual times,
and what the row does with the chosen item.
-/

namespace Sys2Proof.Machine

/-! ### The least of a list -/

section least
variable {α : Type} {lt : α → α → Bool} {x : α} {l : List α}

theorem leastBy_eq_none : leastBy lt l = none ↔ l = [] := by
  cases l <;> simp [leastBy]

theorem exists_leastBy (h : x ∈ l) : ∃ y, leastBy lt l = some y :=
  Option.ne_none_iff_exists'.1 (mt leastBy_eq_none.1 (List.ne_nil_of_mem h))

theorem mem_of_leastBy (h : leastBy lt l = some x) : x ∈ l := by
  cases l with
  | nil => cases h
  | cons a l =>
    obtain rfl := Option.some.inj h
    clear h
    induction l generalizing a with
    | nil => exact List.mem_singleton_self a
    | cons b l ih =>
      rw [List.foldl_cons]
      split
      · exact List.mem_cons_of_mem a (ih b)
      · exact List.cons_subset_cons a (List.subset_cons_self b l) (ih a)

/-- An order that refines the order of a key gives an element of the least key. -/
theorem key_le_of_leastBy {β : Type} [Preorder β] {key : α → β} (hlt : ∀ a b, lt a b = true → key a ≤ key b)
    (hge : ∀ a b, lt a b = false → key b ≤ key a) (h : leastBy lt l = some x) : ∀ y ∈ l, key x ≤ key y := by
  cases l with
  | nil => cases h
  | cons a l =>
    obtain rfl := Option.some.inj h
    clear h
    induction l generalizing a with
    | nil => simp
    | cons b l ih =>
      rw [List.foldl_cons]
      have hle : key (if lt b a = true then b else a) ≤ key a ∧ key (if lt b a = true then b else a) ≤ key b := by
        cases hba : lt b a with
        | true => exact ⟨hlt b a hba, le_rfl⟩
        | false => exact ⟨le_rfl, hge b a hba⟩
      have hmin := ih (if lt b a = true then b else a)
      simp only [List.forall_mem_cons] at hmin ⊢
      obtain ⟨hhead, htail⟩ := hmin
      exact ⟨hhead.trans hle.1, hhead.trans hle.2, htail⟩

end least

/-! ### The orders of the classes -/

section orders
variable {s : State} {l : List (Inst × Work)} {q : Inst × Work}

/-- Class A goes by D and then ASEQ (R418). -/
theorem prioA_le_of_leastBy (h : leastBy s.beforeA l = some q) : ∀ r ∈ l, (s.prioA q.1).1 < (s.prioA r.1).1 ∨
    (s.prioA q.1).1 = (s.prioA r.1).1 ∧ (s.prioA q.1).2 ≤ (s.prioA r.1).2 := by
  have hmin := key_le_of_leastBy (key := fun r : Inst × Work => toLex (s.prioA r.1)) (fun a b hab => ?_) (fun a b hab => ?_) h
  · exact fun r hr => Prod.Lex.toLex_le_toLex.1 (hmin r hr)
  · simp only [State.beforeA, Bool.or_eq_true, Bool.and_eq_true, decide_eq_true_eq] at hab
    rw [Prod.Lex.toLex_le_toLex]
    omega
  · simp only [State.beforeA, Bool.or_eq_false_iff, Bool.and_eq_false_iff, decide_eq_false_iff_not] at hab
    rw [Prod.Lex.toLex_le_toLex]
    omega

/-- Class B goes by virtual time (R420). -/
theorem vtime_le_of_leastBy (h : leastBy s.beforeB l = some q) : ∀ r ∈ l, (s.cx q.1.ctx).vtime ≤ (s.cx r.1.ctx).vtime := by
  refine key_le_of_leastBy (key := fun r : Inst × Work => (s.cx r.1.ctx).vtime) (fun a b hab => ?_) (fun a b hab => ?_) h
  · simp only [State.beforeB, Bool.or_eq_true, Bool.and_eq_true, decide_eq_true_eq] at hab
    exact hab.elim le_of_lt fun hab => hab.1.le
  · simp only [State.beforeB, Bool.or_eq_false_iff, decide_eq_false_iff_not] at hab
    exact not_lt.1 hab.1

/-- Class C goes in order of issue (R421). -/
theorem issue_le_of_leastBy (h : leastBy beforeC l = some q) : ∀ r ∈ l, q.1.n ≤ r.1.n :=
  key_le_of_leastBy (key := fun r : Inst × Work => r.1.n) (fun _ _ hab => (of_decide_eq_true hab).le)
    (fun _ _ hab => not_lt.1 (of_decide_eq_false hab)) h

end orders

/-! ### The choice (R418, R420, R421) -/

def ofClassA (l : List (Inst × Work)) : List (Inst × Work) := l.filter fun q => q.1.cls == 1
def ofClassB (l : List (Inst × Work)) : List (Inst × Work) := l.filter fun q => q.1.cls == 2
def ofClassC (l : List (Inst × Work)) : List (Inst × Work) := l.filter fun q => 3 ≤ q.1.cls

section choice
variable {s : State} {l : List (Inst × Work)} {q : Inst × Work} {gap : Nat}

theorem mem_ofClassA : q ∈ ofClassA l ↔ q ∈ l ∧ q.1.cls = 1 := by simp [ofClassA]
theorem mem_ofClassB : q ∈ ofClassB l ↔ q ∈ l ∧ q.1.cls = 2 := by simp [ofClassB]
theorem mem_ofClassC : q ∈ ofClassC l ↔ q ∈ l ∧ 3 ≤ q.1.cls := by simp [ofClassC]

/-- C_GAP lets a Class C item go before Class B (R421). -/
def State.gapDue (s : State) (l : List (Inst × Work)) (gap : Nat) : Bool :=
  s.sluice.cGap != 0 && decide (s.sluice.cGap ≤ gap) && !(ofClassC l).isEmpty

theorem gapDue_of_le (hC : ∃ q ∈ l, 3 ≤ q.1.cls) (h0 : s.sluice.cGap ≠ 0) (hgap : s.sluice.cGap ≤ gap) : s.gapDue l gap = true := by
  obtain ⟨q, hq⟩ := hC
  have hne := List.ne_nil_of_mem (mem_ofClassC.2 hq)
  simp [State.gapDue, h0, hgap, hne]

theorem gapDue_of_lt (h : s.sluice.cGap = 0 ∨ gap < s.sluice.cGap) : s.gapDue l gap = false := by
  rcases h with h | h <;> simp [State.gapDue, h]

/-- Class A first; then Class C where C_GAP lets it, else Class B, and Class C where there is none of Class B. -/
theorem choose_fst (s : State) (l : List (Inst × Work)) (gap : Nat) : (s.choose l gap).1 = (leastBy s.beforeA (ofClassA l)).or
    (bif s.gapDue l gap then leastBy beforeC (ofClassC l)
     else (leastBy s.beforeB (ofClassB l)).or (leastBy beforeC (ofClassC l))) := by
  simp only [State.choose, State.gapDue, ofClassA, ofClassB, ofClassC]
  cases leastBy s.beforeA (l.filter fun q => q.1.cls == 1) with
  | some q => rfl
  | none =>
    dsimp only [Option.none_or]
    split
    · next hgap => rw [hgap, cond_true]
    · next hgap =>
      rw [Bool.eq_false_iff.2 hgap, cond_false]
      cases leastBy s.beforeB (l.filter fun q => q.1.cls == 2) <;> rfl

theorem leastBy_ofClassA_eq_none (hA : ∀ q ∈ l, q.1.cls ≠ 1) : leastBy s.beforeA (ofClassA l) = none := by
  rw [leastBy_eq_none, List.eq_nil_iff_forall_not_mem]
  exact fun q hq => hA q (mem_ofClassA.1 hq).1 (mem_ofClassA.1 hq).2

/-- With Class A work the choice is the least of it. -/
theorem choose_of_classA (hA : ∃ q ∈ l, q.1.cls = 1) (h : (s.choose l gap).1 = some q) : leastBy s.beforeA (ofClassA l) = some q := by
  obtain ⟨a, ha⟩ := hA
  obtain ⟨b, hb⟩ := exists_leastBy (lt := s.beforeA) (mem_ofClassA.2 ha)
  rwa [choose_fst, hb, Option.some_or, ← hb] at h

/-- Without Class A work, and where C_GAP lets no Class C item go first, the choice is the least of Class B. -/
theorem choose_of_classB (hA : ∀ q ∈ l, q.1.cls ≠ 1) (hB : ∃ q ∈ l, q.1.cls = 2) (hgap : s.gapDue l gap = false)
    (h : (s.choose l gap).1 = some q) : leastBy s.beforeB (ofClassB l) = some q := by
  obtain ⟨a, ha⟩ := hB
  obtain ⟨b, hb⟩ := exists_leastBy (lt := s.beforeB) (mem_ofClassB.2 ha)
  rwa [choose_fst, leastBy_ofClassA_eq_none hA, Option.none_or, hgap, cond_false, hb, Option.some_or, ← hb] at h

/-- Without Class A work, where C_GAP lets a Class C item go first, the choice is the least of Class C. -/
theorem choose_of_gapDue (hA : ∀ q ∈ l, q.1.cls ≠ 1) (hgap : s.gapDue l gap = true) (h : (s.choose l gap).1 = some q) :
    leastBy beforeC (ofClassC l) = some q := by
  rwa [choose_fst, leastBy_ofClassA_eq_none hA, Option.none_or, hgap, cond_true] at h

/-- The choice is the least of one of the three classes. -/
theorem mem_of_choose (h : (s.choose l gap).1 = some q) : q ∈ l := by
  rw [choose_fst, Option.or_eq_some_iff] at h
  rcases h with h | ⟨-, h⟩
  · exact (mem_ofClassA.1 (mem_of_leastBy h)).1
  cases hgap : s.gapDue l gap <;> rw [hgap] at h
  case true => exact (mem_ofClassC.1 (mem_of_leastBy h)).1
  rcases Option.or_eq_some_iff.1 h with h | ⟨-, h⟩
  · exact (mem_ofClassB.1 (mem_of_leastBy h)).1
  · exact (mem_ofClassC.1 (mem_of_leastBy h)).1

@[simp] theorem choose_nil : (s.choose [] gap).1 = none :=
  Option.eq_none_iff_forall_ne_some.2 fun _ h => List.not_mem_nil (mem_of_choose h)

/-- Nothing is chosen only where no class has work. -/
theorem cls_eq_zero_of_choose (h : (s.choose l gap).1 = none) : ∀ q ∈ l, q.1.cls = 0 := by
  rw [choose_fst, Option.or_eq_none_iff, leastBy_eq_none] at h
  obtain ⟨hA, h⟩ := h
  cases hgap : s.gapDue l gap <;> rw [hgap] at h
  case true => simp [State.gapDue, leastBy_eq_none.1 h] at hgap
  case false =>
    rw [cond_false, Option.or_eq_none_iff, leastBy_eq_none, leastBy_eq_none] at h
    obtain ⟨hB, hC⟩ := h
    intro q hq
    have h1 : q.1.cls ≠ 1 := fun e => List.not_mem_nil (hA ▸ mem_ofClassA.2 ⟨hq, e⟩)
    have h2 : q.1.cls ≠ 2 := fun e => List.not_mem_nil (hB ▸ mem_ofClassB.2 ⟨hq, e⟩)
    have h3 : ¬ 3 ≤ q.1.cls := fun e => List.not_mem_nil (hC ▸ mem_ofClassC.2 ⟨hq, e⟩)
    omega

/-- Where a class has work, an item is chosen. -/
theorem exists_choose (h : ∃ q ∈ l, q.1.cls ≠ 0) : ∃ i w, (s.choose l gap).1 = some (i, w) := by
  obtain ⟨q, hq, hne⟩ := h
  have hsome : (s.choose l gap).1 ≠ none := fun h => hne (cls_eq_zero_of_choose h q hq)
  obtain ⟨⟨i, w⟩, h⟩ := Option.ne_none_iff_exists'.1 hsome
  exact ⟨i, w, h⟩

end choice

/-! ### Virtual time (R420) -/

section vtime
variable {s : State} {c d : Nat} {ds : List Nat}

@[simp] theorem cx_onSluice (f : Sluice → Sluice) (k : Nat) : (s.onSluice f).cx k = s.cx k := rfl

theorem chargeB_eq (i : Inst) (cycles : Nat) : s.chargeB i cycles = if i.cls = 2 then s.onCx i.ctx fun x =>
    { x with vtime := x.vtime + (cycles : ℚ) * 256 / (max 1 x.weight : Nat) } else s := by
  simp [State.chargeB]

/-- Where every context with ready Class B work had some at the last boundary, no virtual time is set. -/
theorem rebase_of_none_new (h : ∀ c ∈ s.readyClassB, c ∈ s.sluice.readyB) :
    s.rebase = s.onSluice fun q => { q with readyB := s.readyClassB } := by
  have hnew : (s.readyClassB.filter fun c => !(s.sluice.readyB.filter s.readyClassB.contains).contains c) = [] := by
    simpa using fun c hc => ⟨h c hc, hc⟩
  simp only [State.rebase, hnew, List.foldl_nil]

/-- A context whose Class B work has become ready, beside contexts that had some: it alone gets a virtual time. -/
theorem rebase_of_one_new (hold : s.sluice.readyB.filter s.readyClassB.contains = d :: ds)
    (hnew : (s.readyClassB.filter fun c => !(d :: ds).contains c) = [c]) :
    s.rebase = (s.onCx c fun x => { x with vtime := max x.vtime (ds.foldl (fun a k => min a (s.cx k).vtime) (s.cx d).vtime) }).onSluice
      fun q => { q with readyB := s.readyClassB } := by
  simp only [State.rebase, hold, hnew, List.foldl_cons, List.foldl_nil]

theorem vtime_rebase_of_one_new (hs : Map.wf {} s.ctx = true) (hold : s.sluice.readyB.filter s.readyClassB.contains = d :: ds)
    (hnew : (s.readyClassB.filter fun c => !(d :: ds).contains c) = [c]) :
    (s.rebase.cx c).vtime = max (s.cx c).vtime (ds.foldl (fun a k => min a (s.cx k).vtime) (s.cx d).vtime) ∧
      ∀ e, e ≠ c → (s.rebase.cx e).vtime = (s.cx e).vtime := by
  rw [rebase_of_one_new hold hnew]
  simp only [cx_onSluice, cx_onCx hs, if_true, true_and]
  intro e he
  rw [if_neg he]

end vtime

/-! ### The row (R70, R299, R418; logs 120 and 123) -/

/-- A start of Class A leaves the count of C_GAP, one of Class B that leaves Class C waiting adds 1, any other sets it to 0 (R421). -/
def State.countGap (s : State) (key : Nat) (i : Inst) (waits : Bool) : State := s.onSluice fun q =>
  { q with gap := if i.cls = 1 then q.gap else if i.cls = 2 ∧ waits = true then Map.modify 0 q.gap key (· + 1) else Map.set 0 q.gap key 0 }

section row
variable {s s0 : State} {core : Fin 2048} {bed c : Bool} {i : Inst} {w : Work} {key : Nat} (hs0 : (s.fetchReady core bed).rebase = s0)
  (hkey : 2 * core.val + b2n bed = key)
include hs0 hkey

theorem exec_passStart_none (h : (s0.choose (s0.loadedItems core bed) (Map.get 0 s0.sluice.gap key)).1 = none) :
    exec (.passStart core bed) s = .next s0.runLanes := by
  show execPassStart core bed s = _
  simp only [execPassStart, State.startPass, hs0, hkey, h]

/-- A pass of a chained or key tile that is not its last. -/
theorem exec_passStart_part (h : s0.choose (s0.loadedItems core bed) (Map.get 0 s0.sluice.gap key) = (some (i, w), c))
    (hw : 1 < w.parts.length) : exec (.passStart core bed) s =
      .next (((s0.countGap key i c).chargeB i (w.nextRows + 8)).dropPart ((s0.countGap key i c).matesOf i w) w).runLanes := by
  show execPassStart core bed s = _
  simp [execPassStart, State.startPass, hs0, hkey, h, hw, State.countGap]

/-- The last pass of a tile runs it, and the operands of its instruction's next pass are asked for. -/
theorem exec_passStart_last (h : s0.choose (s0.loadedItems core bed) (Map.get 0 s0.sluice.gap key) = (some (i, w), c))
    (hw : w.parts.length ≤ 1) : exec (.passStart core bed) s =
      .next (((s0.countGap key i c).runStaged i w bed none).fetchNext i.n core).runLanes := by
  show execPassStart core bed s = _
  simp [execPassStart, State.startPass, hs0, hkey, h, not_lt.2 hw, State.countGap]

end row

/-- Settles O32: the row's lemmas for the item that is chosen, the least of its class by the order of its class. -/
theorem passStarts : Obligations.PassStarts := by
  unfold Obligations.PassStarts
  intro s core bed
  dsimp only
  refine ⟨fun hl => exec_passStart_none rfl rfl (by rw [hl, choose_nil]), fun c d ds hs hold hnew => ?becameReady, rebase_of_none_new,
    fun i w c hch => ⟨fun hw => ?part, fun hw => ?last⟩,
    fun i w h => ⟨mem_of_choose h, fun hA => ?classA, fun hA hB hgap => ?classB, fun hA hC h0 hgap => ?classC⟩, exists_choose⟩
  case becameReady => exact vtime_rebase_of_one_new ((kept_fetchReady (Kept.refl s)).canon hs).ctx hold hnew
  case part =>
    rw [exec_passStart_part rfl rfl hch hw, chargeB_eq]
    rfl
  case last =>
    rw [exec_passStart_last rfl rfl hch hw, State.runStaged, chargeB_eq]
    rfl
  case classA =>
    have hleast := choose_of_classA hA h
    exact ⟨(mem_ofClassA.1 (mem_of_leastBy hleast)).2, fun q hq hcls => prioA_le_of_leastBy hleast q (mem_ofClassA.2 ⟨hq, hcls⟩)⟩
  case classB =>
    have hleast := choose_of_classB hA hB (gapDue_of_lt hgap) h
    exact ⟨(mem_ofClassB.1 (mem_of_leastBy hleast)).2, fun q hq hcls => vtime_le_of_leastBy hleast q (mem_ofClassB.2 ⟨hq, hcls⟩)⟩
  case classC =>
    have hleast := choose_of_gapDue hA (gapDue_of_le hC h0 hgap) h
    exact ⟨(mem_ofClassC.1 (mem_of_leastBy hleast)).2, fun q hq hcls => issue_le_of_leastBy hleast q (mem_ofClassC.2 ⟨hq, hcls⟩)⟩

end Sys2Proof.Machine
end

section
/-!
SUPPORT. The start of a drain and the release of a held batch (R115, R118, R193, R419, R428): which items may take a core's drain
path, what an item charges, and what the two rows do.
-/

namespace Sys2Proof.Machine

/-! ### The drain path (R193, R419) -/

section path
variable {s : State} {g : Nat} {q : Inst × Work}

/-- What an item needs to take the drain path: it is ready, its data has come and, with epilogues, the lanes are free. -/
def State.MayDrain (s : State) (g : Nat) (q : Inst × Work) : Prop :=
  q ∈ s.readyItems g false false ∧ s.operandsOut [(q.1, 0)] q.2 = false ∧ (q.1.usesLanes q.2 = true → s.stageHeld g q.1.n = false)

theorem usesLanes_iff {i : Inst} {w : Work} : i.usesLanes w = true ↔ i.epi = true ∧ w.ix.headD 0 ∈ [1, 2, 4] := by
  rw [Inst.usesLanes, Bool.and_eq_true, List.contains_iff_mem]

/-- With an item between its halves on the path, only another such item or Class A may take it. -/
theorem mem_readyDrains : q ∈ s.readyDrains g ↔
    s.MayDrain g q ∧ ((∃ r, s.MayDrain g r ∧ r.2.rows = 2) → q.2.rows = 2 ∨ q.1.cls = 1) := by
  have hl : ∀ r, r ∈ ((s.readyItems g false false).filter fun q =>
      !s.operandsOut [(q.1, 0)] q.2 && !(q.1.usesLanes q.2 && s.stageHeld g q.1.n)) ↔ s.MayDrain g r := fun r => by
    cases h : r.1.usesLanes r.2 <;> simp [State.MayDrain, h]
  rw [State.readyDrains]
  generalize ((s.readyItems g false false).filter fun q =>
      !s.operandsOut [(q.1, 0)] q.2 && !(q.1.usesLanes q.2 && s.stageHeld g q.1.n)) = l at hl ⊢
  have hany : (l.any fun r => r.2.rows == 2) = true ↔ ∃ r, s.MayDrain g r ∧ r.2.rows = 2 := by
    simp only [List.any_eq_true, hl, beq_iff_eq]
  split
  · next h => simp [hl, hany.1 h]
  · next h => simp [hl, mt hany.2 h]

end path

/-! ### Halves and cycles (R115, R216, R419) -/

section item
variable {s : State} {i : Inst} {w : Work}

theorem gates_iff : w.gates = true ↔ 2 ≤ w.slots.length ∧ w.ix.headD 0 < 5 := by simp [Work.gates]

theorem halves_iff : s.halves i w = true ↔
    w.gates = true ∧ i.cls ≠ 1 ∧ s.aOn (w.core / 64) = true ∧ w.rows = 0 := by
  simp [State.halves, and_assoc]

theorem not_halves_of_zero (h : w.ix.headD 0 = 5) : s.halves i w = false := by
  rw [Bool.eq_false_iff, ne_eq, halves_iff, gates_iff]
  omega

/-- The cycles on the drain path of what starts. -/
theorem drainCycles_eq : (if s.halves i w = true then ({ w with rows := 1 } : Work) else w).drainCycles =
    if w.ix.headD 0 = 28 ∨ w.ix.headD 0 = 5 then 0
    else if ¬ w.gates = true ∨ s.halves i w = true ∨ w.rows = 1 then 40 else if w.rows = 2 then 32 else 72 := by
  cases h : s.halves i w <;> simp [Work.drainCycles]

end item

/-! ### The rows -/

section row
variable {s s0 : State} {core : Fin 2048} {i : Inst} {w : Work} (hs0 : s.rebase = s0)
include hs0

theorem exec_drainStart_none (h : (s0.choose (s0.readyDrains core) 0).1 = none) : exec (.drainStart core) s = .next s0 := by
  show execDrainStart core s = _
  simp only [execDrainStart, hs0, h, idle]

theorem exec_drainStart_half (h : (s0.choose (s0.readyDrains core) 0).1 = some (i, w)) (hh : s0.halves i w = true) :
    exec (.drainStart core) s = .next (((s0.chargeB i ({ w with rows := 1 } : Work).drainCycles).leaveHalf (s0.matesOf i w) w).runDrainItem i
      (s0.matesOf i w) { w with rows := 1 }) := by
  show execDrainStart core s = _
  simp only [execDrainStart, hs0, h, hh, if_true]

theorem exec_drainStart_whole (h : (s0.choose (s0.readyDrains core) 0).1 = some (i, w)) (hh : s0.halves i w = false) :
    exec (.drainStart core) s = .next (((s0.chargeB i w.drainCycles).takeItem (s0.matesOf i w) w).runDrainItem i
      (s0.matesOf i w) w).runLanes := by
  show execDrainStart core s = _
  simp only [execDrainStart, hs0, h, hh, Bool.false_eq_true, if_false]

end row

theorem runDrainItem_zero {s : State} {i : Inst} {ms : List Mate} {w : Work} (h : w.ix.headD 0 = 5) :
    s.runDrainItem i ms w = w.slots.foldl (fun t k => t.onSlot w.core k fun _ => Slot.zero) s := by
  simp only [State.runDrainItem, h, State.runZero]

section batch
variable {s : State} {n : Nat} {b : Batch} (hb : s.sluice.batches.find? (fun b => b.head == n) = some b)
include hb

/-- Held to its limit, or without its first member, a batch is released (R428). -/
theorem exec_batchHoldExpiry_due (h : ∀ i, s.inst n = some i → b.t0 + s.holdOf i.cls ≤ s.time.cclk) :
    exec (.batchHoldExpiry n) s = .next (s.releaseBatch n) := by
  show execBatchHoldExpiry n s = _
  simp only [execBatchHoldExpiry, hb]
  cases hi : s.inst n with
  | none => rfl
  | some i => exact if_neg (not_lt.2 (h i hi))

theorem exec_batchHoldExpiry_early {i : Inst} (hi : s.inst n = some i) (h : s.time.cclk < b.t0 + s.holdOf i.cls) :
    exec (.batchHoldExpiry n) s = .next s := by
  show execBatchHoldExpiry n s = _
  simp only [execBatchHoldExpiry, hb, hi, if_pos h, idle]

end batch

/-- Settles O33: the items that may take the path are those of `mem_readyDrains`, and the rows' lemmas say what the chosen one does. -/
theorem drainsAndBatches : Obligations.DrainsAndBatches := by
  unfold Obligations.DrainsAndBatches
  refine ⟨fun s9 core => ?_, fun s n b hb => ⟨exec_batchHoldExpiry_due hb, fun i => exec_batchHoldExpiry_early hb⟩⟩
  dsimp only
  generalize hs : s9.rebase = s
  refine ⟨fun hl => exec_drainStart_none hs (by rw [hl, choose_nil]), fun ⟨r, hr, hdata, hrows, hlanes⟩ q hq => ?between,
    fun q hq hepi hix => ?lanes, fun i w h => ⟨mem_of_choose h, ?_⟩⟩
  case between => exact (mem_readyDrains.1 hq).2 ⟨r, ⟨hr, hdata, by simp [hlanes]⟩, hrows⟩
  case lanes =>
    obtain ⟨-, -, hfree⟩ := (mem_readyDrains.1 hq).1
    exact hfree (usesLanes_iff.2 ⟨hepi, hix⟩)
  simp only [← halves_iff (s := s), ← gates_iff (w := w), ← drainCycles_eq, ← chargeB_eq]
  refine ⟨fun hh => ?half, fun hh => ?whole, fun h5 hcore => ?zero⟩
  case half => rw [exec_drainStart_half hs h hh, if_pos hh]
  case whole => rw [exec_drainStart_whole hs h (Bool.eq_false_iff.2 hh), if_neg hh]
  case zero =>
    have hh := not_halves_of_zero (s := s) (i := i) h5
    rw [exec_drainStart_whole hs h hh, if_neg (Bool.eq_false_iff.1 hh), runDrainItem_zero h5, hcore]

end Sys2Proof.Machine
end

section
/-!
SUPPORT. Class A enablement, the lower divider and the row limits (R97, R98, R423, R427, R531): what each row does, in the words of the
reservations and the instructions that it looks at.
-/

namespace Sys2Proof.Machine

/-! ### AEN (R97) -/

/-- A write of AEN revokes the admitted reservations that have a bay whose bit is clear. -/
theorem writeAen_eq (s : State) (v : W32) : s.writeAen v.toNat = (List.range 32).foldl (fun t r =>
    if (t.rv r).state = 1 ∧ (∃ b, b < 32 ∧ bitOf (t.rv r).cfg.bays b = true ∧ bitOf v.toNat b = false) then t.revoke r 2 else t)
    (s.onSluice fun q => { q with aen := v.toNat }) := by
  rw [State.writeAen, Nat.mod_eq_of_lt v.isLt]
  simp

theorem exec_aenWrite {s : State} (h : s.Open (some 48)) (v : W32) : exec (.aenWrite v) s = .next (s.writeAen v.toNat).wrote := by
  show execAenWrite v s = _
  rw [execAenWrite, State.mgt_open h]

/-! ### AEN_EFF (R98) -/

section aenEff
variable {s : State} {b : Fin 32}

theorem exec_aenEffChange_settled (h : bitOf s.sluice.aen b = bitOf s.sluice.aenEff b) : exec (.aenEffChange b) s = .next s := by
  show execAenEffChange b s = _
  simp [execAenEffChange, h, idle]

variable (hon : s.isOn 48 = true)
include hon

/-- A bit to be set is set unless a lower-class instruction bars Class A. -/
theorem exec_aenEffChange_set (hw : bitOf s.sluice.aen b = true) (he : bitOf s.sluice.aenEff b = false) :
    exec (.aenEffChange b) s = .next (if ∃ i ∈ s.instList, i.barsA b = true then s
      else s.onSluice fun q => { q with aenEff := setBit q.aenEff b }) := by
  show execAenEffChange b s = _
  simp only [← List.any_eq_true, execAenEffChange, hon, hw, he]
  cases s.instList.any fun i => i.barsA b <;> rfl

/-- A bit to be cleared is cleared unless a Class A or revoked instruction remains. -/
theorem exec_aenEffChange_clear (hw : bitOf s.sluice.aen b = false) (he : bitOf s.sluice.aenEff b = true) :
    exec (.aenEffChange b) s = .next (if ∃ i ∈ s.instList, (i.cls = 1 ∨ i.resv.isSome = true) ∧ b.val ∈ i.bays then s
      else s.onSluice fun q => { q with aenEff := clrBit q.aenEff b }) := by
  show execAenEffChange b s = _
  have hany : (s.instList.any fun i => (i.cls == 1 || i.resv.isSome) && i.bays.contains b.val) = true ↔
      ∃ i ∈ s.instList, (i.cls = 1 ∨ i.resv.isSome = true) ∧ b.val ∈ i.bays := by simp
  simp only [← hany, execAenEffChange, hon, hw, he]
  cases s.instList.any fun i => (i.cls == 1 || i.resv.isSome) && i.bays.contains b.val <;> rfl

end aenEff

/-! ### The divider (R427) -/

theorem exec_dividerDecreaseEffect {s : State} (hp : s.pwr.divPend = true) : exec .dividerDecreaseEffect s =
    .next (if ∃ i ∈ s.instList, i.cls = 1 then s else { s with pwr := { s.pwr with divGo := true } }) := by
  show execDividerDecreaseEffect s = _
  have hany : (s.instList.any fun i => i.cls == 1) = true ↔ ∃ i ∈ s.instList, i.cls = 1 := by simp
  simp only [← hany, execDividerDecreaseEffect, hp]
  cases s.instList.any fun i => i.cls == 1 <;> rfl

/-! ### Row limits (R423, R531) -/

section limit
variable {s : State} {b : Fin 32} {v : W32}

theorem exec_bayLimitWrite (ho : s.Open none) (hb : s.present b = true) :
    exec (.bayLimitWrite b v) s = .next (s.writeLimit b v.toNat).wrote := by
  show execBayLimitWrite b v s = _
  rw [execBayLimitWrite, State.mgt_open ho, if_pos hb]

variable {n x : Nat}

theorem writeLimit_ignored (h : fld x 0 5 = 0 ∨ 16 < fld x 0 5) : s.writeLimit n x = s := by
  simp [State.writeLimit, h]

/-- A limit from 1 to 16 takes effect, a lower one after the revocations and with the round-trip bound that it gives (log 69). -/
theorem writeLimit_eq (h0 : 0 < fld x 0 5) (h16 : fld x 0 5 ≤ 16) : s.writeLimit n x =
    (if fld x 0 5 < (s.by n).limitEff then (State.limitBay n (fld x 0 5) 33 s).setRt [n] (some n) (fld x 0 5) else s).onBy n fun y =>
      { y with limit := fld x 0 5, limitEff := fld x 0 5, limPend := false } := by
  simp [State.writeLimit, h0.ne', not_lt.2 h16]

end limit

/-- Settles O48: the lemmas of the four rows. -/
theorem enablement : Obligations.Enablement := by
  unfold Obligations.Enablement
  refine ⟨fun s v ho => ?aen, fun s b hon => ?aenEff, fun s hp => ⟨fun h => ?lower, fun h => ?waits⟩, fun s b v ho hb => ?limit⟩
  case aen => rw [exec_aenWrite ho, writeAen_eq]
  case aenEff =>
    dsimp only
    refine ⟨fun hw he h => ?_, fun hw he h => ?_, fun h => ?stays⟩
    · rw [exec_aenEffChange_set hon hw he, if_neg h]
    · rw [exec_aenEffChange_clear hon hw he, if_neg h]
    case stays =>
      by_cases hsame : bitOf s.sluice.aen b = bitOf s.sluice.aenEff b
      · exact exec_aenEffChange_settled hsame
      rcases h with ⟨hw, h⟩ | ⟨hw, h⟩ | h
      · rw [exec_aenEffChange_set hon hw (by simpa [hw] using hsame), if_pos h]
      · rw [exec_aenEffChange_clear hon hw (by simpa [hw] using hsame), if_pos h]
      · exact absurd h hsame
  case lower => rw [exec_dividerDecreaseEffect hp, if_neg (by simpa using h)]
  case waits => rw [exec_dividerDecreaseEffect hp, if_pos h]
  case limit =>
    rw [exec_bayLimitWrite ho hb]
    refine ⟨fun h => ?_, fun h0 h16 hle => ?_, fun h0 h16 hlt => ?_⟩
    · rw [writeLimit_ignored h]
    · rw [writeLimit_eq h0 h16, if_neg (not_lt.2 hle)]
    · rw [writeLimit_eq h0 h16, if_pos hlt]

end Sys2Proof.Machine
end

section
/-!
SUPPORT. What holds a tensor instruction at issue (R230, R334, R345, R536), in the order in which the shared issue path looks for it:
the ring, the count in flight, a sequence record, and past the checks a power domain and the row's own condition.
-/

namespace Sys2Proof.Machine

theorem not_off_of_goes {x : Ctx} {w : Long} (h : x.goes w = true) : (x.rp (fld w.w0.toNat 12 3) == bitOf w.w0.toNat 15) = false := by
  simpa [Ctx.goes, bne] using h

section holds
variable {r : TRow} {c : Nat} {w : Long} {s : State} (hw : bitOf w.w0.toNat 0 = true)
  (hr : (w.opc == r.opc && r.form w) = true)
include hw hr

/-- The ring is looked at before the words: whatever stands there holds (R345). -/
theorem issueTensor_ringFull (hs : s.canIssue c = true) (h : (s.cx c).ringFull = true) :
    issueTensor r c w s = .next (s.onCx c fun x => { x with hold := .ring }) := by
  simp [issueTensor, hw, hr, hs, h]

variable (ho : w.opc ∈ longOpcodes)
include ho

/-- One that reaches its checks and meets them goes on to its power domains and its row's own hold. -/
theorem issueTensor_checked (h : s.Issues r c w) (hc : s.commonCodes r (s.atIssue r c w) ++ r.checks s (s.atIssue r c w) = []) :
    issueTensor r c w s = issueTensor.finish r c s (s.atIssue r c w) := by
  have hf : s.fetchCode c 4 = none := h.stands.fetch
  have hapb := h.apb
  unfold State.apbOk at hapb
  unfold State.atIssue State.withApb at hc hapb ⊢
  cases ha : r.apb (s.capture c w) with
  | none =>
    simp only [ha] at hc ⊢
    simp [issueTensor, hw, ho, hr, h.stands.canIssue, h.stands.1, hf, h.room, h.not_off, not_le.2 h.flight, h.record, ha, hc]
  | some a =>
    simp only [ha] at hapb hc ⊢
    simp [issueTensor, hw, ho, hr, h.stands.canIssue, h.stands.1, hf, h.room, h.not_off, not_le.2 h.flight, h.record, ha, hapb, hc]

variable (hs : s.Stands c w.words) (hroom : (s.cx c).ringFull = false) (hg : (s.cx c).goes w = true)
include hs hroom hg

theorem issueTensor_inflight (h : 32 ≤ s.inflight c) :
    issueTensor r c w s = .next (s.onCx c fun x => { x with hold := .inflight }) := by
  have hf : s.fetchCode c 4 = none := hs.fetch
  simp [issueTensor, hw, ho, hr, hs.canIssue, hs.1, hf, hroom, not_off_of_goes hg, h]

theorem issueTensor_recDue (h : s.inflight c < 32) {no : Nat} (hd : s.recDue r (s.capture c w) = some no) :
    issueTensor r c w s = .next (s.readRec c (s.capture c w) no) := by
  have hf : s.fetchCode c 4 = none := hs.fetch
  simp [issueTensor, hw, ho, hr, hs.canIssue, hs.1, hf, hroom, not_off_of_goes hg, not_le.2 h, hd]

end holds

section finish
variable {r : TRow} {c : Nat} {s : State} {i : Inst}

/-- The domains that are not on are woken, and the instruction waits for them (R536). -/
theorem finish_offDoms (h : s.offDoms r i ≠ []) :
    issueTensor.finish r c s i = .next (((s.offDoms r i).foldl State.wakeDom s).onCx c fun x => { x with hold := .work }) := by
  rw [issueTensor.finish]
  cases hd : s.offDoms r i with
  | nil => exact absurd hd h
  | cons d ds => rfl

theorem finish_hold {k : Hold} (hd : s.offDoms r i = []) (h : r.hold s i = some k) :
    issueTensor.finish r c s i = .next (s.onCx c fun x => { x with hold := k }) := by
  simp only [issueTensor.finish, hd, h]

end finish

/-- Settles O22: the lemma of each thing that may hold the instruction, in the order of the issue path. -/
theorem tensorHolds : Obligations.TensorHolds := by
  unfold Obligations.TensorHolds
  intro s i r c w hrow hi
  obtain ⟨he, hw, ho, hr⟩ := tensorRow_issue hrow hi s
  rw [List.contains_iff_mem] at ho
  dsimp only
  rw [he]
  refine ⟨fun hs h => ?ring, fun hs hroom hg h => ?inflight, fun no hs hroom hg hfl h => ?record, fun h hc hd => ?domains, fun k h hc hd hk => ?row⟩
  case ring => exact issueTensor_ringFull hw hr hs.canIssue h
  case inflight => exact issueTensor_inflight hw hr ho hs hroom hg h
  case record => exact issueTensor_recDue hw hr ho hs hroom hg hfl h
  case domains => rw [issueTensor_checked hw hr ho h hc, finish_offDoms hd]
  case row => rw [issueTensor_checked hw hr ho h hc, finish_hold hd hk]

end Sys2Proof.Machine
end

section
/-!
SUPPORT. What the shared operations behind the units' commands leave alone, and a run of updates over distinct indices.
-/

namespace Sys2Proof.Map

/-- What a store in canonical form holds at a key is what is read there. -/
theorem get_of_mem {α : Type} [DecidableEq α] {d : α} {p : Nat × α} : ∀ {lo : Nat} {m : Map α} (_ : wfFrom d lo m = true) (_ : p ∈ m),
    lo ≤ p.1 ∧ get d m p.1 = p.2
  | lo, (i, v) :: m, h, hp => by
    simp only [wfFrom, Bool.and_eq_true, decide_eq_true_eq] at h
    obtain ⟨⟨hlo, -⟩, hm⟩ := h
    rcases List.mem_cons.1 hp with rfl | hp
    · exact ⟨hlo, by simp [get]⟩
    · obtain ⟨hi, hget⟩ := get_of_mem hm hp
      exact ⟨by omega, by rw [get, if_neg (by omega), if_neg (by omega), hget]⟩

/-- One update at each of distinct keys. -/
theorem get_foldl_modify {α : Type} [DecidableEq α] {d : α} {f : α → α} {j : Nat} {l : List Nat} (hl : l.Nodup) {m : Map α}
    (h : wf d m = true) : get d (l.foldl (fun n k => modify d n k f) m) j = if j ∈ l then f (get d m j) else get d m j := by
  induction l generalizing m with
  | nil => rfl
  | cons k l ih =>
    obtain ⟨hk, hl⟩ := List.nodup_cons.1 hl
    rw [List.foldl_cons, ih hl (wf_modify h k f), get_modify h]
    by_cases hj : j = k
    · simp [hj, hk]
    · simp [hj]

end Sys2Proof.Map

namespace Sys2Proof.Machine

/-! ### Events and error records (R509, R521) -/

section only
variable (s : State)

theorem startMiller_only (cause : Nat) : ∃ q b, s.startMiller cause = { s with pwr := q, boot := b } := by
  unfold State.startMiller
  dsimp only
  split
  · obtain ⟨q, hq⟩ := wakeDom_only { s with boot := { s.boot with wakeCause := cause } } 55
    exact ⟨q, _, hq⟩
  · obtain ⟨q, hq⟩ := wakeDom_only s 55
    exact ⟨q, s.boot, hq⟩

/-- An event changes the log, the power domains and the wake cause only. -/
theorem raise_only (code unit : Nat) (args : List Nat) : ∃ l q b, s.raise code unit args = { s with log := l, pwr := q, boot := b } := by
  unfold State.raise State.wakeMiller
  dsimp only
  split
  · exact ⟨_, s.pwr, s.boot, rfl⟩
  split
  · exact ⟨_, s.pwr, s.boot, rfl⟩
  · obtain ⟨q, b, h⟩ := startMiller_only (s.onLog fun l => { l with evq := l.evq ++ [eventBits code unit args] }) 1
    exact ⟨_, q, b, h⟩

theorem queueWrite_only (d : Nat) (clsA : Bool) (y : Why) (a : Nat) (bs : List Byte) (bad : Bool) :
    ∃ m w, s.queueWrite d clsA y a bs bad = { s with mem := m, pwr := w } := by
  obtain ⟨cs, p, hfirst⟩ := addFirst_only s (a / 64 * 64)
  obtain ⟨q, w, hwrite⟩ := queueWriteAt_only (s.addFirst (a / 64 * 64)) 0 d clsA y a bs bad
  rw [State.queueWrite, hwrite, hfirst]
  exact ⟨_, w, rfl⟩

/-- An error record changes the log, memory and the power domains only. -/
theorem logErr_only (e : Err) : ∃ l m w, s.logErr e = { s with log := l, mem := m, pwr := w } := by
  unfold State.logErr State.sendLog
  dsimp only
  split
  · exact ⟨_, s.mem, s.pwr, rfl⟩
  split
  · split
    · exact ⟨_, s.mem, s.pwr, rfl⟩
    · obtain ⟨m, w, h⟩ := queueWrite_only (s.onLog fun l => { l with head := (s.log.head + 1) % 2 ^ 32 }) 0 false
        (.elog s.log.head e.code) (s.log.base + 32 * (s.log.head % 4096)) (e.bytes s.log.head) false
      exact ⟨_, m, w, h⟩
  split
  · exact ⟨_, s.mem, s.pwr, rfl⟩
  · exact ⟨_, s.mem, s.pwr, rfl⟩

@[simp] theorem raise_sluice (code unit : Nat) (args : List Nat) : (s.raise code unit args).sluice = s.sluice := by
  obtain ⟨l, q, b, h⟩ := raise_only s code unit args
  rw [h]

@[simp] theorem logErr_prot (e : Err) : (s.logErr e).prot = s.prot := by
  obtain ⟨l, m, w, h⟩ := logErr_only s e
  rw [h]

@[simp] theorem wakeDom_ctx (d : Nat) : (s.wakeDom d).ctx = s.ctx := by
  obtain ⟨q, h⟩ := wakeDom_only s d
  rw [h]

@[simp] theorem cx_stir (d c : Nat) : (s.stir d).cx c = s.cx c := by
  unfold State.cx State.stir
  split
  · rw [wakeDom_ctx]
  · rfl

@[simp] theorem cx_wakeLadder (d c : Nat) : (s.wakeLadder d).cx c = s.cx c := by
  unfold State.cx State.wakeLadder
  dsimp only
  split
  · rfl
  · rw [wakeDom_ctx]

end only

/-! ### Commands that a register write gives (R345, R457) -/

section register
variable {s : State} {i : Instr} {d : Option Nat} {f : State → State}

@[simp] theorem wrote_mem : s.wrote.mem = s.mem := rfl
@[simp] theorem wrote_sluice : s.wrote.sluice = s.sluice := rfl
@[simp] theorem wrote_pwu : s.wrote.pwu = s.pwu := rfl
@[simp] theorem wrote_hop : s.wrote.hop = s.hop := rfl
@[simp] theorem wrote_log : s.wrote.log = s.log := rfl
@[simp] theorem wrote_pwr : s.wrote.pwr = s.pwr := rfl
@[simp] theorem cx_wrote (c : Nat) : s.wrote.cx c = s.cx c := rfl
@[simp] theorem rv_wrote (r : Nat) : s.wrote.rv r = s.rv r := rfl
@[simp] theorem pool_wrote (p : Nat) : s.wrote.pool p = s.pool p := rfl
@[simp] theorem group_wrote (g : Nat) : s.wrote.group g = s.group g := rfl

/-- A command of a register whose domain answers has the effect of its row. -/
theorem exec_of_mgt (hi : exec i s = .next (s.mgt i d f)) (h : s.Open d) : exec i s = .next (f s).wrote := by
  rw [hi, State.mgt_open h]

end register

end Sys2Proof.Machine
end

section
/-!
SUPPORT. What the commands of the units do where they have their effect, one lemma per row or per effect of a register write.
-/

namespace Sys2Proof.Machine

/-! ### Reservations (R403, R411, R424, R425) -/

section reservation
variable {s : State} {r : Nat}

/-- RELEASE was given and the last issued instruction has ended (R425). -/
def State.mayFree (s : State) (r : Nat) : Bool := (s.rv r).releasing && !(s.instList.any fun i => i.resv == some r)

theorem wf_onRv (h : Map.wf {} s.sluice.resv = true) (r : Nat) (f : Resv → Resv) : Map.wf {} (s.onRv r f).sluice.resv = true :=
  Map.wf_modify h r f

def Resv.freed (x : Resv) : Resv := { x with state := 0, releasing := false, pending := false, opened := false }

def State.freeRv (s : State) (r : Nat) : State := if s.mayFree r then s.onRv r Resv.freed else s

theorem freeReleased_eq (s : State) : s.freeReleased = (List.range 32).foldl State.freeRv s := rfl

theorem freeRv_only (s : State) (k : Nat) : ∃ m, s.freeRv k = { s with sluice := { s.sluice with resv := m } } := by
  unfold State.freeRv
  split
  · exact ⟨_, rfl⟩
  · exact ⟨s.sluice.resv, rfl⟩

theorem wf_resv_freeRv (h : Map.wf {} s.sluice.resv = true) (k : Nat) : Map.wf {} (s.freeRv k).sluice.resv = true := by
  unfold State.freeRv
  split
  · exact Map.wf_modify h k _
  · exact h

theorem rv_freeRv (h : Map.wf {} s.sluice.resv = true) (k : Nat) :
    (s.freeRv k).rv r = if r = k ∧ s.mayFree k = true then (s.rv k).freed else s.rv r := by
  unfold State.freeRv
  cases hk : s.mayFree k
  · simp
  · simp [rv_onRv h]

theorem mayFree_freeRv (h : Map.wf {} s.sluice.resv = true) {k : Nat} (hr : r ≠ k) : (s.freeRv k).mayFree r = s.mayFree r := by
  obtain ⟨m, hm⟩ := freeRv_only s k
  have hi : (s.freeRv k).instList = s.instList := by rw [hm]; rfl
  simp [State.mayFree, rv_freeRv h, hr, hi]

theorem rv_foldl_freeRv {l : List Nat} (hl : l.Nodup) (h : Map.wf {} s.sluice.resv = true) :
    (l.foldl State.freeRv s).rv r = if r ∈ l ∧ s.mayFree r = true then (s.rv r).freed else s.rv r := by
  induction l generalizing s with
  | nil => simp
  | cons k l ih =>
    obtain ⟨hk, hl⟩ := List.nodup_cons.1 hl
    rw [List.foldl_cons, ih hl (wf_resv_freeRv h k)]
    by_cases hr : r = k
    · subst hr
      simp [hk, rv_freeRv h]
    · simp [hr, rv_freeRv h, mayFree_freeRv h hr]

/-- A released reservation that no instruction in flight holds is FREE. -/
theorem state_releaseRes (h : Map.wf {} s.sluice.resv = true) (hr : r < 32) (hs : (s.rv r).state = 1)
    (hi : ∀ i ∈ s.instList, i.resv ≠ some r) : ((s.releaseRes r).rv r).state = 0 := by
  have hfree : (s.onRv r fun y => { y with releasing := true }).mayFree r = true := by
    have hlist : (s.onRv r fun y => { y with releasing := true }).instList = s.instList := rfl
    simpa [State.mayFree, rv_onRv h, hlist] using hi
  rw [State.releaseRes, if_pos hs, freeReleased_eq, rv_foldl_freeRv List.nodup_range (wf_onRv h r _), if_pos ⟨List.mem_range.2 hr, hfree⟩]
  rfl

theorem state_revoke (h : Map.wf {} s.sluice.resv = true) (hs : (s.rv r).state = 1) (cause : Nat) : ((s.revoke r cause).rv r).state = 2 := by
  rw [State.revoke, if_neg (not_not.2 hs)]
  show (Map.get {} (State.raise _ _ _ _).sluice.resv r).state = 2
  rw [raise_sluice]
  show ((s.onRv r fun y => { y with state := 2, pending := false, releasing := false }).rv r).state = 2
  rw [rv_onRv h, if_pos rfl]

theorem exec_windowClose {r : Fin 32} (ho : (s.rv r).opened = true) (ht : (s.rv r).start + (s.rv r).cfg.p ≤ s.time.cclk) :
    exec (.windowClose r) s = .next (s.onRv r fun y => { y with opened := false, used := 0 }) := by
  show execWindowClose r s = _
  simp [execWindowClose, ho, ht]

theorem pendingEnds_of_closed (h : Map.wf {} s.sluice.resv = true) (hc : ∀ k, k ≠ r → (s.rv k).opened = false)
    (hd : ∀ d ∈ (s.rv r).cfg.doms, s.isOn d = true) : s.pendingEnds r = true := by
  have hadm : ∀ q ∈ s.admittedList, q.1 = r ∨ q.2.opened = false := by
    intro q hq
    obtain ⟨-, hget⟩ := Map.get_of_mem h (List.mem_of_mem_filter hq)
    rw [or_iff_not_imp_left, ← hget]
    exact hc q.1
  simp only [State.pendingEnds, Bool.and_eq_true, List.all_eq_true]
  refine ⟨fun q hq => ?_, hd⟩
  rcases hadm q hq with h | h <;> simp [h]

theorem exec_pendingClear {r : Fin 32} (hs : (s.rv r).state = 1) (hp : (s.rv r).pending = true) (he : s.pendingEnds r = true) :
    exec (.pendingClear r) s = .next (s.onRv r fun y => { y with pending := false }) := by
  show execPendingClear r s = _
  simp [execPendingClear, hs, hp, he]

end reservation

/-! ### Enablement (R97, R98) -/

theorem writeAen_of_unadmitted {s : State} (h : ∀ r, r < 32 → (s.rv r).state ≠ 1) (v : W32) :
    s.writeAen v.toNat = s.onSluice fun q => { q with aen := v.toNat } := by
  rw [writeAen_eq]
  refine List.foldlRecOn (motive := fun t => t = s.onSluice fun q => { q with aen := v.toNat }) _ _ rfl fun t ht r hr => ?_
  rw [if_neg, ht]
  rw [ht]
  exact fun hadm => h r (List.mem_range.1 hr) hadm.1

theorem bitOf_setBit (w i : Nat) : bitOf (setBit w i) i = true := by
  unfold setBit
  split
  · assumption
  · next h => simpa [bitOf_eq_testBit, Nat.add_comm w, Nat.testBit_two_pow_add_eq] using h

/-- With nothing in flight a bit of AEN sets that of AEN_EFF. -/
theorem aenEff_set_of_idle {s : State} {b : Fin 32} (hon : s.isOn 48 = true) (hi : s.instList = []) (hw : bitOf s.sluice.aen b = true) :
    ∃ t, exec (.aenEffChange b) s = .next t ∧ bitOf t.sluice.aenEff b = true := by
  cases he : bitOf s.sluice.aenEff b
  · refine ⟨_, exec_aenEffChange_set hon hw he, ?_⟩
    rw [if_neg (by simp [hi])]
    exact bitOf_setBit _ _
  · exact ⟨s, exec_aenEffChange_settled (hw.trans he.symm), he⟩

/-! ### The Granary and the consumed count (R345, R449) -/

section granary
variable {s : State}

theorem gran_ginvAll : s.ginvAll.mem.gran = [] := by simp [State.ginvAll, State.granDrop]

theorem mem_gran_ginvRange {q} : q ∈ s.ginvRange.mem.gran ↔ q ∈ s.mem.gran ∧
    ¬ (s.mem.ginvBase / 4096 ≤ 128 * q.1 / 4096 ∧ 128 * q.1 / 4096 < s.mem.ginvBase / 4096 + s.mem.ginvPages) := by
  simp only [State.ginvRange, State.granDrop, List.mem_filter, Bool.not_eq_true', ← Bool.not_eq_true, Bool.and_eq_true, decide_eq_true_eq]

theorem exec_ginvDone (h : s.mem.ginvBusy = true) : exec .ginvDone s = .next { s with mem := { s.mem with ginvBusy := false } } := by
  show execGinvDone s = _
  simp [execGinvDone, h]

/-- A context that holds for its ring reads its consumed count. -/
theorem exec_consAddrPoll_read {c : Fin 64} (hh : (s.cx c).hold = .ring) (hf : s.ctxFenced c = false) (hp : s.mem.ports = [])
    (ha : s.checkAcc (s.cx c).domain false .rd (s.cx c).cfg.consAddr = .ok) (hpf : s.portFenced (homePort (s.cx c).cfg.consAddr) = false) :
    exec (.consAddrPoll c) s = .next (s.queueRead (s.cx c).domain false (.cons c.val) (s.cx c).cfg.consAddr 64 false []) := by
  show execConsAddrPoll c s = _
  simp [execConsAddrPoll, hh, hf, hp, ha, hpf]

end granary

/-! ### Links (R462, R464, R470, R475) -/

section link
variable {s : State} {l : Fin 64}

theorem length_crcBytes (b : List Byte) : (crcBytes b).length = 4 := natLe_length 4 _

section send
variable (hon : s.linkOn l = true) (hup : (s.link l).up = true)
include hon hup

theorem exec_packetSend_ctl (hst : (s.link l).st = 1 ∨ (s.link l).st = 2) (hc : (s.link l).ctlDue = true) :
    exec (.packetSend l) s = .next (s.sendLlctl l) := by
  show execPacketSend l s = _
  rcases hst with hst | hst <;> simp [execPacketSend, hon, hup, hst, hc]

theorem exec_packetSend_init (hst : (s.link l).st = 1) (hc : (s.link l).ctlDue = false) (hi : (s.link l).initDue = true) :
    exec (.packetSend l) s = .next (s.sendInit l) := by
  show execPacketSend l s = _
  simp [execPacketSend, hon, hup, hst, hc, hi]

/-- A SYNC beat comes before what is to be sent again. -/
theorem exec_packetSend_sync (hst : (s.link l).st = 2) (hc : (s.link l).ctlDue = false) (hr : (s.link l).replayDue = true) :
    exec (.packetSend l) s = .next (s.onLink l fun y => { y with replayDue := false, replay := y.unacked, lastTx := syncBeat }) := by
  show execPacketSend l s = _
  simp [execPacketSend, hon, hup, hst, hc, hr]

end send

theorem exec_syncBeatReceived (h : (s.link l).ignoring = true) :
    exec (.syncBeatReceived l) s = .next (s.onLink l fun x => { x with ignoring := false }) := by
  show execSyncBeatReceived l s = _
  simp [execSyncBeatReceived, h]

variable (hw : Map.wf {} s.leat.links = true)
include hw

theorem link_sendLlctl : ((s.sendLlctl l).link l).nakOwed = false ∧ ((s.sendLlctl l).link l).lastTx.length = 20 := by
  rw [State.sendLlctl, link_onLink hw, if_pos rfl]
  simp [natLe_length, zeroBytes, length_crcBytes]

theorem link_sendInit : ((s.sendInit l).link l).initDue = false ∧ ((s.sendInit l).link l).initSince = s.time.xclk ∧
    ((s.sendInit l).link l).lastTx.length = 20 := by
  rw [State.sendInit, link_onLink hw, if_pos rfl]
  simp [natLe_length, zeroBytes, length_crcBytes]

end link

/-- A group none of whose links is enabled takes staged limits that lie in their ranges. -/
theorem leatCommit_of_valid {s : State} {g : Nat} (he : ∀ k, k < 8 → Map.get false s.leat.linkEn (8 * g + k) = false)
    (h0 : (s.group g).sVc0 ≤ 512) (h1 : 1 ≤ (s.group g).sVcmax) (h2 : (s.group g).sVcmax ≤ 1016) :
    s.leatCommit g = s.onGroup g fun y => { y with sepmode := y.sSepmode, vc0 := y.sVc0, vcmax := y.sVcmax, commitErr := false } := by
  have hen : ((List.range 8).any fun k => Map.get false s.leat.linkEn (8 * g + k)) = false := by simpa using he
  simp [State.leatCommit, hen, not_lt.2 h0, Nat.one_le_iff_ne_zero.1 h1, not_lt.2 h2]

/-! ### Contexts (R58, R289, R345, R347) -/

section context
variable {s : State} {c : Nat} (h : Map.wf {} s.ctx = true)
include h

theorem enable_ctxEnable (on : Bool) : ((s.ctxEnable c on).cx c).enable = on := by
  cases on <;> simp [State.ctxEnable, cx_onCx h]

theorem cx_ctxReset (he : (s.cx c).enable = false) : (s.ctxReset c).cx c = (s.cx c).cleared := by
  rw [State.ctxReset, if_neg (by simp [he])]
  exact (cx_onCx (s := s.orphan c) h c c _).trans (if_pos rfl)

theorem cx_ctxResume (hr : (s.cx c).run ≠ .going) (hf : s.ctxFenced c = false) :
    (s.ctxResume c).cx c = { s.cx c with run := .going, err := false, hold := .none } := by
  simp [State.ctxResume, hr, hf, cx_onCx h]

theorem cx_ctxCommit (he : (s.cx c).enable = false) (h4 : 4 ≤ (s.cx c).staged.cmplSize) (h16 : (s.cx c).staged.cmplSize ≤ 16)
    (hb : (s.cx c).staged.cmplBase % 64 = 0) (ha : (s.cx c).staged.consAddr % 8 = 0) :
    (s.ctxCommit c).cx c = { s.cx c with cfg := (s.cx c).staged, commitErr := false } := by
  simp [State.ctxCommit, he, not_lt.2 h4, not_lt.2 h16, hb, ha, cx_onCx h]

theorem cx_streamClear (k : Nat) : (s.streamClear c k).cx c = { s.cx c with streams := Map.set {} (s.cx c).streams k {} } := by
  rw [State.streamClear, cx_onCx h, if_pos rfl]

theorem cx_bolterClear : (s.bolterClear c).cx c = { s.cx c with specDiscarded := 0, groupsConfirmed := 0, draftsCommitted := 0 } := by
  rw [State.bolterClear, cx_onCx h, if_pos rfl]

end context

/-! ### The Page Walk Unit (R256, R266) -/

section pages
variable {s : State}

theorem parkAbort_one {k : Park} (h : s.pwu.parks = [k]) : s.parkAbort =
    (((State.onPwu s fun p => { p with parks := [] }).leavePwu k.inst).onInst k.inst fun y => { y with parked := [], again := [], work := [] }).instFault
      k.inst { code := Code.fPageFar, unit := 0x02, poison := true, detail := k.page } := by
  simp [State.parkAbort, State.onPwu, h]

theorem foldl_onPool (l : List Nat) (f : Pool → Pool) (s : State) : l.foldl (fun t k => t.onPool k f) s =
    { s with pwu := { s.pwu with pools := l.foldl (fun m k => Map.modify {} m k f) s.pwu.pools } } := by
  induction l generalizing s with
  | nil => rfl
  | cons k l ih => exact ih (s.onPool k f)

theorem pool_foldl_onPool (h : Map.wf {} s.pwu.pools = true) {l : List Nat} (hl : l.Nodup) (f : Pool → Pool) (j : Nat) :
    (l.foldl (fun t k => t.onPool k f) s).pool j = if j ∈ l then f (s.pool j) else s.pool j := by
  rw [foldl_onPool]
  exact Map.get_foldl_modify hl h

/-- A commit with no bad staged field takes the staged fields of every pool. -/
theorem pwuCommit_of_valid (h : Map.wf {} s.pwu.pools = true) (hb : s.pwuBad = false) :
    s.pwuCommit.pwu.commitErr = false ∧ ∀ k, k < 64 → (s.pwuCommit.pool k).cfg = (s.pool k).staged := by
  rw [State.pwuCommit, if_neg (by simp [hb])]
  refine ⟨by rw [foldl_onPool]; rfl, fun k hk => ?_⟩
  dsimp only
  rw [pool_foldl_onPool ?wf List.nodup_range, if_pos (List.mem_range.2 hk)]
  · split <;> rfl
  case wf => exact h

end pages

/-! ### The log, the scarf window, the divider (R427, R503, R521) -/

section control
variable {s : State}

theorem writeCons_of_behind {v : W32} (h : (s.log.head + 2 ^ 32 - v.toNat) % 2 ^ 32 ≤ 4096) :
    (s.writeCons v.toNat).log.cons = v.toNat := by
  rw [State.writeCons, Nat.mod_eq_of_lt v.isLt, if_neg (not_lt.2 h)]
  rfl

theorem exec_scarfWindowExpiry_due (hp : s.prot.scarf.phase = 1) (ht : s.prot.scarf.start + s.prot.scarf.win ≤ s.time.nclk) :
    exec .scarfWindowExpiry s = .next (s.scarfDiscard scExpired) := by
  show execScarfWindowExpiry s = _
  rw [execScarfWindowExpiry, if_pos ⟨hp, ht⟩]

/-- A discarded attempt has ended, and is counted. -/
theorem scarf_scarfDiscard (result : Nat) :
    (s.scarfDiscard result).prot.scarf.phase = 0 ∧ (s.scarfDiscard result).prot.scarf.cseq = s.prot.scarf.cseq + 1 := by
  rw [State.scarfDiscard, logErr_prot]
  split <;> exact ⟨rfl, rfl⟩

/-- The code in effect is never refused, and waits for nothing. -/
theorem reqDiv_same : s.reqDiv s.pwr.cdivEff = s.onPwr fun p => { p with cdiv := s.pwr.cdivEff, divPend := false, divGo := false } := by
  simp [State.reqDiv]

theorem writeCdiv_same {v : Nat} (h : v % 4 = s.pwr.cdivEff) :
    (s.writeCdiv v).pwr.cdiv = v % 4 ∧ (s.writeCdiv v).pwr.divPend = false := by
  have hv : fld v 0 2 = (s.onPwr fun p => { p with divErr := p.divErr && !bitOf v 5, rootStopEn := bitOf v 6 }).pwr.cdivEff := by
    show fld v 0 2 = s.pwr.cdivEff
    simpa [fld] using h
  rw [State.writeCdiv, hv, reqDiv_same, h]
  exact ⟨rfl, rfl⟩

end control

/-! ### Registers of the management port (R31, R432, R444, R448, R457) -/

section registers
variable {s : State}

/-- A write of an offset whose domain answers takes it without its two low bits. -/
theorem exec_mgtWrite {a : BitVec 24} {v : W32} {n : Nat} {d : Option Nat} (ha : a.toNat / 4 * 4 = n) (hd : regDom n = d) (h : s.Open d) :
    exec (.mgtWrite a v) s = .next (s.regPoke n v.toNat).wrote := by
  subst ha hd
  exact exec_of_mgt (i := .mgtWrite a v) rfl h

variable (v : Nat)

theorem fld_zero (n : Nat) : fld v 0 n = v % 2 ^ n := by simp [fld]

theorem regPoke_tmo : s.regPoke 0x060000 v = { s with mem := { s.mem with tmo := v % 2 ^ 24 } } := by
  rw [← fld_zero]
  rfl

theorem regPoke_poisonKept : s.regPoke 0x060004 v = { s with mem := { s.mem with poisonKept := bitOf v 0 } } := rfl

theorem regPoke_hold : s.regPoke 0x010010 v = s.onSluice fun q => { q with holdA := v % 2 ^ 16, holdBC := fld v 16 16 } := by
  rw [← fld_zero]
  rfl

/-- The sixteen words of injection follow each other. -/
theorem regPoke_inj (k : Fin 16) : s.regPoke (0x070400 + 4 * k) v =
    { s with hop := { s.hop with inj := Map.set 0 s.hop.inj k (BitVec.ofNat 32 v) } } := by
  fin_cases k <;> rfl

theorem regDom_inj (k : Fin 16) : regDom (0x070400 + 4 * k) = some 48 := by
  fin_cases k <;> rfl

end registers

/-! ### The statement -/

/-- Settles O60: the lemma of each row, and what the state that it answers holds. -/
theorem unitCommandsComplete : Obligations.UnitCommandsComplete := by
  unfold Obligations.UnitCommandsComplete
  intro s hs
  refine ⟨fun g bed => ?pass, fun r => ?resv, fun v ho hr => ?aen, fun b hon hi hw => aenEff_set_of_idle hon hi hw, fun n b hb hn => ?batch,
    fun hp hi => ?lower, fun ho => ?ginvAll, fun ho => ?ginvRange, fun h => ⟨_, exec_ginvDone h, rfl, rfl⟩,
    fun c hh hf hp ha hpf => exec_consAddrPoll_read hh hf hp ha hpf, fun l hon hup => ?send, fun g ho he h0 h1 h2 => ?group, fun l h => ?sync,
    fun c ho => ?context, fun c ho => ?bolter, fun k ho hk => ?park, fun ho hb => ?pages, fun v ho hv => ?log,
    fun hp ht => ⟨_, exec_scarfWindowExpiry_due hp ht, scarf_scarfDiscard scExpired⟩, fun v ho hv => ?divider, fun v ho => ?registers,
    fun v ho => ?hold⟩
  case pass =>
    exact ⟨fun hl => exec_passStart_none rfl rfl (by rw [hl, choose_nil]), fun i w c hch =>
      ⟨exec_passStart_part rfl rfl hch, exec_passStart_last rfl rfl hch⟩⟩
  case resv =>
    refine ⟨fun ho h1 hi => ⟨_, exec_of_mgt rfl ho, ?release⟩, fun ho h1 => ⟨_, exec_of_mgt rfl ho, ?revoke⟩,
      fun ho ht => ⟨_, exec_windowClose ho ht, ?close⟩, fun h1 hp hc hd => ⟨_, exec_pendingClear h1 hp (pendingEnds_of_closed hs.resv hc hd), ?clear⟩⟩
    case release => rw [rv_wrote, state_releaseRes hs.resv r.isLt h1 hi]
    case revoke => rw [rv_wrote, state_revoke hs.resv h1]
    case close =>
      rw [rv_onRv hs.resv, if_pos rfl]
      exact ⟨rfl, rfl⟩
    case clear => rw [rv_onRv hs.resv, if_pos rfl]
  case aen => rw [exec_aenWrite ho, writeAen_of_unadmitted hr]
  case batch =>
    refine ⟨_, exec_batchHoldExpiry_due hb (by simp [hn]), fun b hb => ?_⟩
    simpa using (List.mem_filter.1 hb).2
  case lower =>
    refine ⟨_, exec_dividerDecreaseEffect hp, ?_⟩
    rw [if_neg (by simp [hi])]
    exact ⟨rfl, hp, rfl, rfl⟩
  case ginvAll =>
    refine ⟨_, exec_of_mgt rfl ho, ?_⟩
    rw [wrote_mem]
    exact ⟨gran_ginvAll, rfl⟩
  case ginvRange =>
    refine ⟨_, exec_of_mgt rfl ho, ?_⟩
    rw [wrote_mem]
    exact ⟨rfl, fun q => mem_gran_ginvRange⟩
  case send =>
    refine ⟨fun h1 hc hi => ⟨_, exec_packetSend_init hon hup h1 hc hi, link_sendInit hs.links⟩,
      fun h2 hc hr => ⟨_, exec_packetSend_sync hon hup h2 hc hr, ?_⟩, fun h hc => ⟨_, exec_packetSend_ctl hon hup h hc, link_sendLlctl hs.links⟩⟩
    rw [link_onLink hs.links, if_pos rfl]
    exact ⟨rfl, rfl⟩
  case group =>
    refine ⟨_, exec_of_mgt rfl ho, ?_⟩
    rw [group_wrote, leatCommit_of_valid he h0 h1 h2, group_onGroup hs.groups, if_pos rfl]
    exact ⟨rfl, rfl, rfl⟩
  case sync =>
    refine ⟨_, exec_syncBeatReceived h, ?_⟩
    rw [link_onLink hs.links, if_pos rfl]
  case context =>
    dsimp only
    refine ⟨fun on => ⟨_, exec_of_mgt rfl ho, ?enable⟩, fun he => ⟨_, exec_of_mgt rfl ho, ?reset⟩,
      fun hr hf => ⟨_, exec_of_mgt rfl ho, ?resume⟩, fun he h4 h16 hb ha => ⟨_, exec_of_mgt rfl ho, ?commit⟩,
      fun k => ⟨_, exec_of_mgt rfl ho, ?clear⟩⟩
    case enable => rw [cx_wrote, enable_ctxEnable hs.ctx]
    case reset =>
      rw [cx_wrote, cx_ctxReset hs.ctx he]
      exact ⟨rfl, rfl, rfl, rfl⟩
    case resume =>
      rw [cx_wrote, cx_ctxResume hs.ctx hr hf]
      exact ⟨rfl, rfl⟩
    case commit =>
      rw [cx_wrote, cx_ctxCommit hs.ctx he h4 h16 hb ha]
      exact ⟨rfl, rfl⟩
    case clear => rw [cx_wrote, cx_streamClear hs.ctx, Map.get_set (hs.cx c).streams, if_pos rfl]
  case bolter =>
    refine ⟨_, exec_of_mgt rfl ho, ?_⟩
    rw [cx_wrote, cx_bolterClear hs.ctx]
    exact ⟨rfl, rfl, rfl⟩
  case park =>
    rw [← parkAbort_one hk]
    exact exec_of_mgt (i := .parkAbort) rfl ho
  case pages =>
    refine ⟨_, exec_of_mgt rfl ho, ?_⟩
    simpa only [wrote_pwu, pool_wrote] using pwuCommit_of_valid hs.pools hb
  case log =>
    refine ⟨_, exec_of_mgt rfl ho, ?_⟩
    rw [wrote_log, writeCons_of_behind hv]
  case divider =>
    refine ⟨_, exec_of_mgt rfl ho, ?_⟩
    rw [wrote_pwr]
    exact writeCdiv_same hv
  case registers =>
    refine ⟨⟨_, exec_mgtWrite (n := 0x060000) rfl rfl ho, ?tmo⟩, ⟨_, exec_mgtWrite (n := 0x060004) rfl rfl ho, ?kept⟩,
      fun k hon => ⟨_, exec_mgtWrite ?offset (regDom_inj k) ⟨ho.1, hon⟩, ?inj⟩⟩
    case tmo =>
      rw [regPoke_tmo]
      exact ⟨rfl, rfl⟩
    case kept =>
      rw [regPoke_poisonKept, bitOf_eq_testBit]
      rfl
    case offset =>
      rw [BitVec.toNat_ofNat]
      omega
    case inj => rw [wrote_hop, regPoke_inj, BitVec.ofNat_toNat, BitVec.setWidth_eq]
  case hold =>
    refine ⟨_, exec_mgtWrite (n := 0x010010) rfl rfl ho, ?_⟩
    rw [regPoke_hold]
    refine ⟨rfl, Nat.mod_eq_of_lt ?_⟩
    have := v.isLt
    omega

end Sys2Proof.Machine
end

section
/-!
SUPPORT. Fields of an instruction word as bit vectors: the model reads a signed field as an integer, the statements as a
sign-extended bit vector.
-/

namespace Sys2Proof

theorem sextNat_eq_toInt (n x : Nat) : sextNat n x = (BitVec.ofNat n x).toInt := by
  rw [BitVec.toInt_eq_toNat_cond, BitVec.toNat_ofNat]
  simp [sextNat]

theorem bitOf_eq_getLsbD {n : Nat} (x : BitVec n) (i : Nat) : bitOf x.toNat i = x.getLsbD i :=
  bitOf_eq_testBit x.toNat i

namespace Machine

theorem ofInt_simm (w : W32) : BitVec.ofInt 64 (simm w) = (BitVec.ofNat 10 (fimm w)).signExtend 64 := by
  rw [simm, sextNat_eq_toInt]
  rfl

theorem brOff_eq_toInt (w : W32) : brOff w = (BitVec.ofNat 20 (fld w.toNat 12 20)).toInt := sextNat_eq_toInt _ _

end Machine

end Sys2Proof
end

section
/-!
SUPPORT. The short instructions that work on registers (R320, R325, R348): what one that writes s[d] or p[d] does in a context and in
the Miller, and what passing its words leaves alone.
-/

namespace Sys2Proof.Machine

/-! ### Passing words -/

section adv
variable (x : Ctx) (k n : Nat)

@[simp] theorem rs_adv : (x.adv k).rs n = x.rs n := by unfold Ctx.adv; split <;> rfl
@[simp] theorem rp_adv : (x.adv k).rp n = x.rp n := by unfold Ctx.adv; split <;> rfl
@[simp] theorem ev_adv : (x.adv k).ev n = x.ev n := by unfold Ctx.adv; split <;> rfl

/-- Passing words moves the issue position and ends what held it there. -/
theorem adv_of_stream (h : x.code = none) : x.adv k = { x with nextPos := (x.nextPos + k) % 2 ^ 32, hold := .none, recBad := none } := by
  simp [Ctx.adv, h]

theorem adv_of_called {a : Nat} (h : x.code = some a) : x.adv k = { x with code := some (a + 4 * k), hold := .none, recBad := none } := by
  simp [Ctx.adv, h]

end adv

/-! ### One register or predicate written -/

/-- The instructions that write s[d]: opcode, executor, word, and the value from the registers as they stand (R325). -/
def regRow : Instr → Option (Nat × Exe × W32 × (Regs → Word))
  | .add x w => some (0x01, x, w, fun r => regRead r.s (fa w) + regRead r.s (fb w))
  | .sub x w => some (0x02, x, w, fun r => regRead r.s (fa w) - regRead r.s (fb w))
  | .mul x w => some (0x03, x, w, fun r => regRead r.s (fa w) * regRead r.s (fb w))
  | .and x w => some (0x04, x, w, fun r => regRead r.s (fa w) &&& regRead r.s (fb w))
  | .or x w => some (0x05, x, w, fun r => regRead r.s (fa w) ||| regRead r.s (fb w))
  | .xor x w => some (0x06, x, w, fun r => regRead r.s (fa w) ^^^ regRead r.s (fb w))
  | .shl x w => some (0x07, x, w, fun r => regRead r.s (fa w) <<< ((regRead r.s (fb w)).toNat % 64))
  | .shr x w => some (0x08, x, w, fun r => regRead r.s (fa w) >>> ((regRead r.s (fb w)).toNat % 64))
  | .sra x w => some (0x09, x, w, fun r => (regRead r.s (fa w)).sshiftRight ((regRead r.s (fb w)).toNat % 64))
  | .addi x w => some (0x0A, x, w, fun r => regRead r.s (fa w) + (BitVec.ofNat 10 (fimm w)).signExtend 64)
  | .shli x w => some (0x0B, x, w, fun r => regRead r.s (fa w) <<< 10 + BitVec.ofNat 64 (fimm w))
  | _ => none

/-- The instructions that write p[d] (R325). -/
def predRow : Instr → Option (Nat × Exe × W32 × (Regs → Bool))
  | .cmp x w => some (0x0C, x, w, fun r => cmpRel (fimm w % 8) (regRead r.s (fa w)) (regRead r.s (fb w)))
  | .plog x w => some (0x0D, x, w, fun r => plogFn (fimm w % 4) (predRead r.p (fa w % 8)) (predRead r.p (fb w % 8)))
  | _ => none

theorem mul_1024_eq_shiftLeft (a : Word) : a * 1024 = a <<< 10 := by
  rw [BitVec.shiftLeft_eq_mul_twoPow]
  rfl

section row
variable {i : Instr} {op : Nat} {x : Exe} {w : W32} {s : State}

theorem exec_regRow {v : Regs → Word} (h : regRow i = some (op, x, w, v)) :
    exec i s = regsOp op x w s fun r => { r with s := regWrite r.s (fd w) (v r) } := by
  cases i <;> simp only [regRow, Option.some.injEq, Prod.mk.injEq, reduceCtorEq] at h
  all_goals obtain ⟨rfl, rfl, rfl, rfl⟩ := h
  case addi =>
    rw [← ofInt_simm]
    rfl
  case shli =>
    simp only [← mul_1024_eq_shiftLeft]
    rfl
  all_goals rfl

theorem exec_predRow {v : Regs → Bool} (h : predRow i = some (op, x, w, v)) :
    exec i s = regsOp op x w s fun r => { r with p := predWrite r.p (fd w % 8) (v r) } := by
  cases i <;> simp only [predRow, Option.some.injEq, Prod.mk.injEq, reduceCtorEq] at h
  all_goals obtain ⟨rfl, rfl, rfl, rfl⟩ := h
  all_goals rfl

end row

section ctx
variable {s : State} {i : Instr} {op : Nat} {c : Fin 64} {w : W32} (hs : s.Takes c [w])
include hs

theorem exec_nop_ctx (hl : Legal 0x00 w) : exec (.nop (.ctx c) w) s = .next (s.onCx c fun x => x.adv 1) := ctxRegs_run hs hl

theorem exec_regRow_ctx {v : Regs → Word} {a : Word} (h : regRow i = some (op, .ctx c, w, v)) (hv : v ⟨(s.cx c).s, (s.cx c).p⟩ = a)
    (hl : Legal op w) : exec i s = .next (s.onCx c fun x => (x.ws (fd w) a).adv 1) := by
  subst hv
  rw [exec_regRow h, regsOp, ctxRegs_run hs hl]
  exact congrArg _ (onCx_congr rfl)

theorem exec_predRow_ctx {v : Regs → Bool} {a : Bool} (h : predRow i = some (op, .ctx c, w, v)) (hv : v ⟨(s.cx c).s, (s.cx c).p⟩ = a)
    (hl : Legal op w) : exec i s = .next (s.onCx c fun x => (x.wp (fd w % 8) a).adv 1) := by
  subst hv
  rw [exec_predRow h, regsOp, ctxRegs_run hs hl]
  exact congrArg _ (onCx_congr rfl)

end ctx

section miller
variable {s : State} {i : Instr} {op : Nat} {w : W32} (hs : s.MillerAt w)
include hs

theorem exec_nop_miller (hl : Legal 0x00 w) : exec (.nop .miller w) s = .next (s.onMiller Miller.next) :=
  millerShort_run (f := fun s => .next (s.onMiller Miller.next)) hs hl rfl

theorem exec_regRow_miller {v : Regs → Word} {a : Word} (h : regRow i = some (op, .miller, w, v)) (hv : v ⟨s.miller.s, s.miller.p⟩ = a)
    (hx : millerExcluded op = false) (hl : Legal op w) :
    exec i s = .next (s.onMiller fun m => { m with s := regWrite m.s (fd w) a }.next) := by
  subst hv
  rw [exec_regRow h, regsOp, millerShort_run hs hl hx]
  rfl

theorem exec_predRow_miller {v : Regs → Bool} {a : Bool} (h : predRow i = some (op, .miller, w, v)) (hv : v ⟨s.miller.s, s.miller.p⟩ = a)
    (hx : millerExcluded op = false) (hl : Legal op w) :
    exec i s = .next (s.onMiller fun m => { m with p := predWrite m.p (fd w % 8) a }.next) := by
  subst hv
  rw [exec_predRow h, regsOp, millerShort_run hs hl hx]
  rfl

end miller

/-- Settles O9: the lemma of the instructions that write s[d], for the value of each row. -/
theorem registerInstructions : Obligations.RegisterInstructions := by
  unfold Obligations.RegisterInstructions
  refine ⟨fun s c w hs => ?ctx, fun s w hs => ?miller⟩
  case ctx =>
    have row {i op v a} (h : regRow i = some (op, .ctx c, w, v)) := exec_regRow_ctx hs (a := a) h
    exact ⟨exec_nop_ctx hs, row rfl rfl, row rfl rfl, row rfl rfl, row rfl rfl, row rfl rfl, row rfl rfl, row rfl rfl, row rfl rfl,
      row rfl rfl, row rfl rfl, row rfl rfl⟩
  case miller =>
    have row {i op v a} (h : regRow i = some (op, .miller, w, v)) := exec_regRow_miller hs (a := a) h
    exact ⟨exec_nop_miller hs, row rfl rfl rfl, row rfl rfl rfl, row rfl rfl rfl, row rfl rfl rfl, row rfl rfl rfl, row rfl rfl rfl,
      row rfl rfl rfl, row rfl rfl rfl, row rfl rfl rfl, row rfl rfl rfl, row rfl rfl rfl⟩

/-! ### CMP and PLOG (R325) -/

theorem cmpRel_ne (a b : Word) : cmpRel 1 a b = decide (a ≠ b) := by
  show (a != b) = _
  rw [decide_not]
  rfl

theorem cmpRel_ge (a b : Word) : cmpRel 3 a b = decide (b.toInt ≤ a.toInt) := by
  show (!a.slt b) = _
  rw [BitVec.slt, ← decide_not, decide_eq_decide, not_lt]

theorem cmpRel_uge (k : Nat) (a b : Word) : cmpRel (k + 5) a b = decide (b.toNat ≤ a.toNat) := by
  show (!a.ult b) = _
  rw [BitVec.ult, ← decide_not, decide_eq_decide, not_lt]

/-- Settles O10: the lemma of the instructions that write p[d], for the relation or function of each code. -/
theorem predicateInstructions : Obligations.PredicateInstructions := by
  unfold Obligations.PredicateInstructions
  intro rel fn
  have hrel : ∀ k a b, rel k a b = cmpRel k a b := fun k a b => by
    match k with
    | 0 => rfl
    | 1 => exact (cmpRel_ne a b).symm
    | 2 => rfl
    | 3 => exact (cmpRel_ge a b).symm
    | 4 => rfl
    | k + 5 => exact (cmpRel_uge k a b).symm
  have hfn : ∀ k a b, fn k a b = plogFn k a b := fun k a b => by
    match k with
    | 0 | 1 | 2 | k + 3 => rfl
  simp only [hrel, hfn]
  exact ⟨fun s c w hs => ⟨exec_predRow_ctx hs rfl rfl, exec_predRow_ctx hs rfl rfl⟩,
    fun s w hs => ⟨exec_predRow_miller hs rfl rfl rfl, exec_predRow_miller hs rfl rfl rfl⟩⟩

/-! ### The frame, register by register (R320, R325) -/

/-- A well-formed short instruction has the opcode of its row. -/
theorem shortIs_of_wf {i : Instr} {op : Nat} {x : Exe} {w : W32} (h : shortRow i = some (op, x, w)) (hi : i.wf = true) :
    shortIs op w = true := by
  cases i <;> simp only [shortRow, Option.some.injEq, Prod.mk.injEq, reduceCtorEq] at h
  all_goals obtain ⟨rfl, rfl, rfl⟩ := h
  all_goals exact hi

theorem legal_of_shortIs {op : Nat} {w : W32} (hi : shortIs op w = true) (hl : Legal (fld w.toNat 1 6) w) : Legal op w := by
  have hop : fld w.toNat 1 6 = op := by
    simp only [shortIs, Bool.and_eq_true, beq_iff_eq] at hi
    exact hi.2
  rwa [hop] at hl

theorem shortRow_of_regRow {i : Instr} {op : Nat} {x : Exe} {w : W32} {v : Regs → Word} (h : regRow i = some (op, x, w, v)) :
    shortRow i = some (op, x, w) := by
  cases i <;> simp only [regRow, Option.some.injEq, Prod.mk.injEq, reduceCtorEq] at h
  all_goals obtain ⟨rfl, rfl, rfl, -⟩ := h
  all_goals rfl

theorem shortRow_of_predRow {i : Instr} {op : Nat} {x : Exe} {w : W32} {v : Regs → Bool} (h : predRow i = some (op, x, w, v)) :
    shortRow i = some (op, x, w) := by
  cases i <;> simp only [predRow, Option.some.injEq, Prod.mk.injEq, reduceCtorEq] at h
  all_goals obtain ⟨rfl, rfl, rfl, -⟩ := h
  all_goals rfl

theorem rs_ws {x : Ctx} (h : x.canon) {n j : Nat} (hj : j ≠ n) (v : Word) : (x.ws n v).rs j = x.rs j := by
  rw [Ctx.rs, Ctx.ws, regRead_regWrite h.s, if_neg fun hn => hj hn.1]
  rfl

theorem rp_wp {x : Ctx} (h : x.canon) {n j : Nat} (hj : j ≠ n) (v : Bool) : (x.wp n v).rp j = x.rp j := by
  rw [Ctx.rp, Ctx.wp, predRead_predWrite h.p, if_neg fun hn => hj hn.1]
  rfl

theorem eq_cmp_or_plog_of_predRow {i : Instr} {op : Nat} {x : Exe} {w : W32} {v : Regs → Bool} (h : predRow i = some (op, x, w, v)) :
    i = .cmp x w ∨ i = .plog x w := by
  cases i <;> simp only [predRow, Option.some.injEq, Prod.mk.injEq, reduceCtorEq] at h
  all_goals obtain ⟨-, rfl, rfl, -⟩ := h
  · exact .inl rfl
  · exact .inr rfl

/-- What a context instruction leaves that changes at most the registers and passes its words. -/
theorem onCx_regs_frame {s : State} (hs : s.Canon) (c k : Nat) {f : Ctx → Ctx} {m : Map Word} {q : Map Bool}
    (hf : f (s.cx c) = { s.cx c with s := m, p := q }) :
    let t := s.onCx c fun x => (f x).adv k
    { t.cx c with s := (s.cx c).s, p := (s.cx c).p, nextPos := (s.cx c).nextPos, code := (s.cx c).code, hold := (s.cx c).hold,
                  recBad := (s.cx c).recBad } = s.cx c ∧
    (∀ c', c' ≠ c → t.cx c' = s.cx c') ∧ { t with ctx := s.ctx } = s := by
  dsimp only
  refine ⟨?_, fun c' hc => ?_, rfl⟩
  · rw [cx_onCx hs.ctx, if_pos rfl, hf]
    unfold Ctx.adv
    split <;> rfl
  · rw [cx_onCx hs.ctx, if_neg hc]

/-- Settles O11: NOP, a row that writes s[d], or a row that writes p[d]; each is an update of the registers alone. -/
theorem registerFrame : Obligations.RegisterFrame := by
  unfold Obligations.RegisterFrame
  intro s c w i hs ht hl hi hmem
  have hx := hs.cx c.val
  have hcases : i = .nop (.ctx c) w ∨ (∃ op v, regRow i = some (op, .ctx c, w, v)) ∨ ∃ op v, predRow i = some (op, .ctx c, w, v) := by
    simp only [List.mem_cons, List.not_mem_nil, or_false] at hmem
    obtain rfl | rfl | rfl | rfl | rfl | rfl | rfl | rfl | rfl | rfl | rfl | rfl | rfl | rfl := hmem
    · exact .inl rfl
    iterate 11 exact .inr (.inl ⟨_, _, rfl⟩)
    iterate 2 exact .inr (.inr ⟨_, _, rfl⟩)
  obtain rfl | ⟨op, v, hrow⟩ | ⟨op, v, hrow⟩ := hcases
  case inl =>
    obtain ⟨hframe, hrest⟩ := onCx_regs_frame hs c.val 1 (f := id) (m := (s.cx c).s) (q := (s.cx c).p) rfl
    refine ⟨_, exec_nop_ctx ht (legal_of_shortIs hi hl), rfl, rfl, ?_, ?_, ?_, ?_, hframe, hrest⟩
    all_goals simp [cx_onCx hs.ctx]
  case inr.inl =>
    have hop := legal_of_shortIs (shortIs_of_wf (shortRow_of_regRow hrow) hi) hl
    obtain ⟨hframe, hrest⟩ := onCx_regs_frame hs c.val 1 (f := fun x => x.ws (fd w) (v ⟨(s.cx c).s, (s.cx c).p⟩)) rfl
    refine ⟨_, exec_regRow_ctx ht hrow rfl hop, rfl, rfl, fun n hn => ?_, fun n _ => ?_, fun h => ?_, fun _ n => ?_, hframe, hrest⟩
    · rw [cx_onCx hs.ctx, if_pos rfl, rs_adv, rs_ws hx hn]
    · rw [cx_onCx hs.ctx, if_pos rfl, rp_adv]
      rfl
    · obtain rfl | rfl := h <;> cases hrow
    · rw [cx_onCx hs.ctx, if_pos rfl, rp_adv]
      rfl
  case inr.inr =>
    have hop := legal_of_shortIs (shortIs_of_wf (shortRow_of_predRow hrow) hi) hl
    obtain ⟨hframe, hrest⟩ := onCx_regs_frame hs c.val 1 (f := fun x => x.wp (fd w % 8) (v ⟨(s.cx c).s, (s.cx c).p⟩)) rfl
    refine ⟨_, exec_predRow_ctx ht hrow rfl hop, rfl, rfl, fun n _ => ?_, fun n hn => ?_, fun _ n => ?_, fun h => ?_, hframe, hrest⟩
    · rw [cx_onCx hs.ctx, if_pos rfl, rs_adv]
      rfl
    · rw [cx_onCx hs.ctx, if_pos rfl, rp_adv, rp_wp hx hn]
    · rw [cx_onCx hs.ctx, if_pos rfl, rs_adv]
      rfl
    · exact absurd (eq_cmp_or_plog_of_predRow hrow) (not_or.2 h)

end Sys2Proof.Machine
end

section
/-!
SUPPORT. BR (R325, R332) in the stream, in called code and in the Miller.
-/

namespace Sys2Proof.Machine

section branch
variable {s : State} {c : Fin 64} {w : W32}

theorem exec_br_ctx (hs : s.Takes c [w]) (hl : Legal 0x0E w) : exec (.br (.ctx c) w) s = .next (ctxBranch c w s) :=
  ctxShort_run (f := fun s => .next (ctxBranch c w s)) hs hl

theorem ctxBranch_notTaken (h : brTaken (s.cx c).p w = false) : ctxBranch c w s = s.onCx c fun x => x.adv 1 := by
  simp [ctxBranch, h]

theorem ctxBranch_called (h : brTaken (s.cx c).p w = true) {a : Nat} (ha : (s.cx c).code = some a) :
    ctxBranch c w s = s.onCx c fun x => { x with code := some (wrapInt 52 (a + 4 * brOff w)), hold := .none } := by
  simp [ctxBranch, h, ha]

section stream
variable (h : brTaken (s.cx c).p w = true) (hc : (s.cx c).code = none)
include h hc

theorem ctxBranch_inWindow (ht : sdiff ((s.cx c).newest + 2 ^ 32 - 1) (wrapInt 32 ((s.cx c).nextPos + brOff w)) ≤ 1023) :
    ctxBranch c w s = s.onCx c fun x => { x with nextPos := wrapInt 32 ((s.cx c).nextPos + brOff w), hold := .none } := by
  simp only [ctxBranch, h, hc, Bool.not_true, Bool.false_eq_true, if_false, if_neg (not_lt.2 ht)]

theorem ctxBranch_leftWindow (ht : 1023 < sdiff ((s.cx c).newest + 2 ^ 32 - 1) (wrapInt 32 ((s.cx c).nextPos + brOff w))) :
    ctxBranch c w s = (s.onCx c fun x => x.adv 1).faultScalar c 0x8E ((s.cx c).nextPos, false) { code := Code.fStream, unit := 0x07 } := by
  simp only [ctxBranch, h, hc, Bool.not_true, Bool.false_eq_true, if_false, if_pos ht, Ctx.sposNow]

end stream

theorem exec_br_miller (hs : s.MillerAt w) (hl : Legal 0x0E w) : exec (.br .miller w) s = .next (s.onMiller fun m =>
    { m with pc := if brTaken s.miller.p w then wrapInt 32 (m.pc + 4 * brOff w) else (m.pc + 4) % 2 ^ 32 }) := by
  show execBr .miller w s = _
  rw [execBr, millerShort_run hs hl rfl]
  refine congrArg _ (onMiller_congr ?_)
  cases brTaken s.miller.p w <;> rfl

end branch

/-- Settles O12: the lemma of each of the four ways of a context's branch, and of the Miller's. -/
theorem branches : Obligations.Branches := by
  unfold Obligations.Branches
  simp only [← brOff_eq_toInt]
  refine ⟨fun s c w hs hl => ?_, fun s w hs hl => exec_br_miller hs hl⟩
  rw [exec_br_ctx hs hl]
  exact ⟨fun h => congrArg _ (ctxBranch_notTaken h), fun a h ha => congrArg _ (ctxBranch_called h ha),
    fun h hc ht => congrArg _ (ctxBranch_inWindow h hc ht), fun h hc ht => congrArg _ (ctxBranch_leftWindow h hc ht)⟩

end Sys2Proof.Machine
end

section
/-!
SUPPORT. Scalar loads and stores (R325, R333, R348, R438, R448): a load that the Granary serves, what a store's write leaves in
memory, and the Miller's local store.
-/

namespace Sys2Proof.Machine

/-! ### Loads of lines that the Granary holds -/

theorem wf_onCx {s : State} (h : Map.wf {} s.ctx = true) (c : Nat) (f : Ctx → Ctx) : Map.wf {} (s.onCx c f).ctx = true :=
  Map.wf_modify h c f

/-- Updates of single ports change the ports only. -/
theorem foldl_onPort_only {α : Type} (f : α → Nat) (g : α → Port → Port) (l : List α) (s : State) :
    ∃ q, l.foldl (fun t k => t.onPort (f k) (g k)) s = { s with mem := { s.mem with ports := q } } := by
  induction l generalizing s with
  | nil => exact ⟨s.mem.ports, rfl⟩
  | cons k l ih =>
    obtain ⟨q, hq⟩ := ih (s.onPort (f k) (g k))
    exact ⟨q, hq⟩

section load
variable {s : State} {c opc a n : Nat} (hr : s.mayRead c a n = true) (hg : s.granHas a n = true)
include hr hg

/-- A load of lines that are all in the Granary is done at once; its ports count the hits. -/
theorem scalarLoad_hit (op : ScalarOp) (done : State → State) : ∃ q, s.scalarLoad c opc a n op done =
    done (State.onCx { s with mem := { s.mem with ports := q } } c fun y => y.adv 1) := by
  simp only [State.mayRead, State.granHas, List.all_eq_true, Bool.and_eq_true, Bool.not_eq_true'] at hr hg
  have hbad : (linesOf 64 a n).find? (fun l => s.checkAcc (s.cx c).domain false .rd (max l a) != .ok) = none :=
    List.find?_eq_none.2 fun l hl => by simpa using hr l hl
  have hmiss : (linesOf 128 a n).filter (fun l => (Map.get [] s.mem.gran (l / 128)).isEmpty) = [] :=
    List.filter_eq_nil_iff.2 fun l hl => by simp [(hg l hl).1]
  have herr : (linesOf 128 a n).find? s.granErr = none := List.find?_eq_none.2 fun l hl => by simp [(hg l hl).2]
  obtain ⟨q, hq⟩ := foldl_onPort_only (fun l => homePort l) (fun _ y => { y with hits := holdAdd y.hits 1 })
    ((linesOf 128 a n).filter fun l => !([] : List Nat).contains l) s
  refine ⟨q, ?_⟩
  simp only [State.scalarLoad, hbad, hmiss, herr, hq, List.find?_nil, List.isEmpty_nil, if_true]

theorem scalarLoad_hit_effect (hs : s.Canon) (op : ScalarOp) :
    let t := s.scalarLoad c opc a n op fun s => s.onCx c fun y => y.loaded op (s.granBytes a n)
    t.cx c = ((s.cx c).adv 1).loaded op (s.granBytes a n) ∧ (∀ c', c' ≠ c → t.cx c' = s.cx c') ∧
      (∀ b, t.extByte b = s.extByte b) ∧ t.mem.gran = s.mem.gran ∧ { t with ctx := s.ctx, mem := s.mem } = s := by
  obtain ⟨q, hq⟩ := scalarLoad_hit (opc := opc) hr hg op fun s => s.onCx c fun y => y.loaded op (s.granBytes a n)
  dsimp only
  rw [hq]
  refine ⟨?here, fun c' hc => ?elsewhere, fun _ => rfl, rfl, rfl⟩
  all_goals
    generalize hu : ({ s with mem := { s.mem with ports := q } } : State) = u
    have hctx : Map.wf {} u.ctx = true := by
      subst hu
      exact hs.ctx
  case here =>
    rw [cx_onCx (wf_onCx hctx c _), if_pos rfl, cx_onCx hctx, if_pos rfl]
    subst hu
    rfl
  case elsewhere =>
    rw [cx_onCx (wf_onCx hctx c _), if_neg hc, cx_onCx hctx, if_neg hc]
    subst hu
    rfl

end load

section access
variable {s : State} {c : Fin 64} {w : W32} {a : Nat} (hs : s.Takes c [w])
include hs

theorem exec_ld_ctx (hl : Legal 0x0F w) (ha : scalarAddr ((s.cx c).rs (fa w)) (simm w * 8) = some a) (h8 : a % 8 = 0) :
    exec (.ld (.ctx c) w) s = .next (s.scalarLoad c 0x8F a 8 (.ld (fd w)) fun s =>
      s.onCx c fun y => y.loaded (.ld (fd w)) (s.granBytes a 8)) := by
  show execLd (.ctx c) w s = _
  exact ctxAccess_run hs hl ha h8

theorem exec_ldt_ctx (hl : Legal 0x11 w) (ha : scalarAddr ((s.cx c).rs (fa w)) (simm w * 32) = some a) (h32 : a % 32 = 0) :
    exec (.ldt (.ctx c) w) s = .next (s.scalarLoad c 0x91 a 32 (.ldt (fd w)) fun s =>
      s.onCx c fun y => y.loaded (.ldt (fd w)) (s.granBytes a 32)) := by
  show execLdt (.ctx c) w s = _
  exact ctxAccess_run hs hl ha h32

theorem exec_ldl_ctx (hl : Legal 0x13 w) (ha : scalarAddr ((s.cx c).rs (fa w)) 0 = some a) (h64 : a % 64 = 0) :
    exec (.ldl (.ctx c) w) s = .next (s.scalarLoad c 0x93 a 256 (.ldl (fimm w % 64)) fun s =>
      s.onCx c fun y => y.loaded (.ldl (fimm w % 64)) (s.granBytes a 256)) := by
  show execLdl (.ctx c) w s = _
  exact ctxAccess_run hs hl ha h64

theorem exec_st_ctx (hl : Legal 0x10 w) (ha : scalarAddr ((s.cx c).rs (fa w)) (simm w * 8) = some a) (h8 : a % 8 = 0) :
    exec (.st (.ctx c) w) s = .next (s.scalarStore c 0x90 a (natLe 8 ((s.cx c).rs (fb w)).toNat)) := by
  show execSt (.ctx c) w s = _
  exact ctxAccess_run hs hl ha h8

theorem exec_stt_ctx (hl : Legal 0x12 w) (ha : scalarAddr ((s.cx c).rs (fa w)) (simm w * 32) = some a) (h32 : a % 32 = 0) :
    exec (.stt (.ctx c) w) s = .next (if (Desc.of (Map.get 0 (s.cx c).t (fd w))).rsv ≠ 0 then s.refuseScalar c 1 Code.operand 0x92
      else s.scalarStore c 0x92 a (natLe 32 (Map.get 0 (s.cx c).t (fd w)).toNat)) := by
  show execStt (.ctx c) w s = _
  exact ctxAccess_run hs hl ha h32

end access

/-- Settles O13: each load is the scalar load of its row, done at once where the Granary has its lines. -/
theorem loadsFromGranary : Obligations.LoadsFromGranary := by
  unfold Obligations.LoadsFromGranary
  intro s c w a hs ht
  dsimp only
  exact ⟨fun hl ha h8 hr hg => ⟨_, exec_ld_ctx ht hl ha h8, scalarLoad_hit_effect hr hg hs _⟩,
    fun hl ha h32 hr hg => ⟨_, exec_ldt_ctx ht hl ha h32, scalarLoad_hit_effect hr hg hs _⟩,
    fun hl ha h64 hr hg => ⟨_, exec_ldl_ctx ht hl ha h64, scalarLoad_hit_effect hr hg hs _⟩⟩

/-! ### Stores and the line updates that go before them (R438, R445) -/

/-- The line `l` after the entry updates of it that were sent before. -/
def State.lineAfterAdds (s : State) (l : Nat) : List Byte :=
  ((s.adds l).filter fun u => !u.hdr).foldl (fun y u => u.onto y) (s.extBytes l 64)

theorem length_foldl_onto {us : List Atom} (hu : ∀ u ∈ us, u.hdr = false) {bs : List Byte} (hb : bs.length = 64) :
    (us.foldl (fun y u => u.onto y) bs).length = 64 := by
  refine List.foldlRecOn (motive := fun y : List Byte => y.length = 64) _ _ hb fun y _ u hm => ?_
  rw [Atom.onto, hu u hm]
  exact length_wideLineAdd y u.data

theorem length_lineAfterAdds (s : State) (l : Nat) : (s.lineAfterAdds l).length = 64 :=
  length_foldl_onto (fun u hu => by simpa using (List.mem_filter.1 hu).2) (length_extBytes s l 64)

theorem getD_extBytes (s : State) (a n k : Nat) (h : k < n) : (s.extBytes a n).getD k 0 = s.extByte (a + k) := by
  simp [State.extBytes, h]

theorem extByte_addFirst {s : State} (h : Map.wf 0 s.mem.ext = true) (l b : Nat) :
    (s.addFirst l).extByte b = if l ≤ b ∧ b < l + 64 then (s.lineAfterAdds l).getD (b - l) 0 else s.extByte b := by
  unfold State.addFirst
  split
  · next hu =>
    split
    · next hb =>
      rw [State.lineAfterAdds, hu, List.foldl_nil, getD_extBytes s l 64 _ (by omega)]
      congr 1
      omega
    · rfl
  · have hget := get_setMany_cells h l (s.lineAfterAdds l) b
    rw [length_lineAfterAdds] at hget
    exact hget

theorem wf_ext_addFirst {s : State} (h : Map.wf 0 s.mem.ext = true) (l : Nat) : Map.wf 0 (s.addFirst l).mem.ext = true := by
  obtain ⟨bs, q, hq⟩ := addFirst_only s l
  rw [hq]
  exact Map.wf_setMany h _

section store
variable {s : State} {c opc a n v : Nat} (hs : s.Canon) (ha : s.checkAcc (s.cx c).domain false .wr a = .ok)
  (hp : s.portFenced (homePort a) = false)
include ha hp

theorem scalarStore_ok (bs : List Byte) : s.scalarStore c opc a bs = ((s.onCx c fun y => y.adv 1).onCx c fun y => { y with
    hold := .scalar, scalar := some (Scalar.mk .st a 1 none (BitVec.ofNat 32 opc) (s.cx c).sposNow.1 (s.cx c).sposNow.2) }).queueWrite
      (s.cx c).domain false (.scalar c) a bs false := by
  simp [State.scalarStore, ha, hp]

include hs

/-- An allowed store: its bytes, the bytes it leaves, its context, and the frame. -/
theorem scalarStore_effect :
    let t := s.scalarStore c opc a (natLe n v)
    (∀ k, k < n → t.extByte (a + k) = BitVec.ofNat 8 (v / 256 ^ k)) ∧
    (∀ b, b < a ∨ a + n ≤ b → t.extByte b = if b / 64 = a / 64 then (s.lineAfterAdds (a / 64 * 64)).getD (b % 64) 0 else s.extByte b) ∧
    t.cx c = { (s.cx c).adv 1 with
      hold := .scalar, scalar := some (Scalar.mk .st a 1 none (BitVec.ofNat 32 opc) (s.cx c).sposNow.1 (s.cx c).sposNow.2) } ∧
    (∀ c', c' ≠ c → t.cx c' = s.cx c') ∧ { t with ctx := s.ctx, mem := s.mem, pwr := s.pwr } = s := by
  dsimp only
  rw [scalarStore_ok ha hp]
  generalize hu : (s.onCx c fun y => y.adv 1).onCx c _ = u
  have hext : Map.wf 0 u.mem.ext = true := by
    subst hu
    exact hs.ext
  have hbyte := fun b => queueWrite_byte (s := u) (s.cx c).domain false (.scalar c) a (natLe n v) false b (wf_ext_addFirst hext _)
  rw [natLe_length] at hbyte
  obtain ⟨m, q, hq⟩ := queueWrite_only u (s.cx c).domain false (.scalar c) a (natLe n v) false
  have hcx : ∀ c', (u.queueWrite (s.cx c).domain false (.scalar c) a (natLe n v) false).cx c' = u.cx c' := fun c' => by
    rw [hq]
    rfl
  refine ⟨fun k hk => ?bytes, fun b hb => ?others, ?here, fun c' hc => ?elsewhere, ?frame⟩
  case bytes => rw [hbyte, if_pos (by omega), Nat.add_sub_cancel_left, natLe_getD n v k hk]
  case others =>
    rw [hbyte, if_neg (by omega), extByte_addFirst hext]
    subst hu
    by_cases hline : b / 64 = a / 64
    · rw [if_pos (by omega), if_pos hline, show b - a / 64 * 64 = b % 64 by omega]
      rfl
    · rw [if_neg (by omega), if_neg hline]
      rfl
  case here =>
    rw [hcx]
    subst hu
    rw [cx_onCx (wf_onCx hs.ctx c _), if_pos rfl, cx_onCx hs.ctx, if_pos rfl]
  case elsewhere =>
    rw [hcx]
    subst hu
    rw [cx_onCx (wf_onCx hs.ctx c _), if_neg hc, cx_onCx hs.ctx, if_neg hc]
  case frame =>
    rw [hq]
    subst hu
    rfl

end store

/-- Settles O14: each store is the scalar store of its row, with the bytes of its register. -/
theorem storesWriteMemory : Obligations.StoresWriteMemory := by
  unfold Obligations.StoresWriteMemory
  intro s c w a hs ht
  dsimp only
  intro hacc hp
  refine ⟨fun hl ha h8 => ⟨_, exec_st_ctx ht hl ha h8, scalarStore_effect hs hacc hp⟩,
    fun hl ha h32 hrsv => ⟨_, ?_, scalarStore_effect hs hacc hp⟩⟩
  rw [exec_stt_ctx ht hl ha h32, if_neg (not_not.2 hrsv)]

/-! ### The Miller's local store (R348, R509) -/

section miller
variable {s : State} {w : W32} {a : Nat} (hs : s.MillerAt w)
  (ha : (regRead s.miller.s (fa w) + BitVec.ofInt 64 (simm w * 8)).toNat = a)
include hs ha

section access
variable {op : Nat} (hl : Legal op w) (hx : millerExcluded op = false)
include hl hx

theorem millerAccess_inside (f : State → Nat → State) (h : a % 8 = 0 ∧ a + 8 ≤ 0xC000) : millerAccess op w s f = .next (f s a) := by
  obtain ⟨h8, hsize⟩ := h
  rw [millerAccess, millerShort_run hs hl hx]
  simp [ha, h8, millerSize, hsize]

theorem millerAccess_outside (f : State → Nat → State) (h : ¬ (a % 8 = 0 ∧ a + 8 ≤ 0xC000)) :
    millerAccess op w s f = .next (s.millerFault' 3) := by
  have hbad : (decide (a % 8 ≠ 0) || decide (millerSize < a + 8)) = true := by
    rw [Bool.or_eq_true, decide_eq_true_eq, decide_eq_true_eq, ← not_le, ← not_and_or]
    exact h
  rw [millerAccess, millerShort_run hs hl hx]
  simp only [ha, hbad, if_true]

end access

theorem exec_ld_miller (hl : Legal 0x0F w) :
    exec (.ld .miller w) s = .next (if a % 8 = 0 ∧ a + 8 ≤ 0xC000 then s.onMiller fun m => { m with
      s := regWrite m.s (fd w) (BitVec.ofNat 64 (leNat ((List.range 8).map fun k => Map.get 0 m.store (a + k)))) }.next
    else s.millerFault' 3) := by
  show execLd .miller w s = _
  rw [execLd]
  split
  · exact millerAccess_inside hs ha hl rfl _ ‹_›
  · exact millerAccess_outside hs ha hl rfl _ ‹_›

theorem exec_st_miller (hl : Legal 0x10 w) :
    exec (.st .miller w) s = .next (if a % 8 = 0 ∧ a + 8 ≤ 0xC000 then s.onMiller fun m =>
      { m with store := Map.setMany 0 m.store (cells a (natLe 8 (regRead s.miller.s (fb w)).toNat)) }.next
    else s.millerFault' 3) := by
  show execSt .miller w s = _
  rw [execSt]
  split
  · exact millerAccess_inside hs ha hl rfl _ ‹_›
  · exact millerAccess_outside hs ha hl rfl _ ‹_›

end miller

/-- Settles O15: an access of the Miller that lies in its store reads or writes its eight bytes, any other faults. -/
theorem millerLoadStore : Obligations.MillerLoadStore := by
  unfold Obligations.MillerLoadStore
  intro s w hs hm
  dsimp only
  generalize ha : (regRead s.miller.s (fa w) + BitVec.ofInt 64 (simm w * 8)).toNat = a
  refine ⟨fun hl h => ?load, fun hl h => ?store, fun hl h => ?loadOutside, fun hl h => ?storeOutside⟩
  case load => rw [exec_ld_miller hm ha hl, if_pos h]
  case loadOutside => rw [exec_ld_miller hm ha hl, if_neg h]
  case storeOutside => rw [exec_st_miller hm ha hl, if_neg h]
  case store =>
    refine ⟨_, exec_st_miller hm ha hl, ?_⟩
    rw [if_pos h]
    have hbyte := get_setMany_cells hs.store a (natLe 8 (regRead s.miller.s (fb w)).toNat)
    rw [natLe_length] at hbyte
    refine ⟨fun k hk => ?_, fun b hb => ?_, rfl, rfl⟩
    · exact (hbyte (a + k)).trans (by rw [if_pos (by omega), Nat.add_sub_cancel_left, natLe_getD 8 _ k hk])
    · exact (hbyte b).trans (if_neg (by omega))

end Sys2Proof.Machine
end

section
/-!
SUPPORT. Handles, event counters, control registers and HALT in a context, and the Miller's own instructions (R321, R325, R342, R345,
R348, R350).
-/

namespace Sys2Proof.Machine

/-! ### Handles and event counters (R325, R342) -/

section context
variable {s : State} {c : Fin 64} {w : W32} (hs : s.Takes c [w])
include hs

theorem exec_ldh_ctx (hl : Legal 0x14 w) : exec (.ldh (.ctx c) w) s =
    .next (if 2 ^ 24 ≤ ((s.cx c).rs (fa w)).toNat then s.refuseScalar c 1 Code.operand 0x94
      else s.onCx c fun x => { x with h := Map.set 0 x.h (fd w % 16) (((s.cx c).rs (fa w)).truncate 24) }.adv 1) := by
  show execLdh (.ctx c) w s = _
  rw [execLdh, ctxShort_run hs hl, apply_ite Host.Outcome.next, BitVec.truncate, ← BitVec.ofNat_toNat]

theorem exec_evr_ctx (hl : Legal 0x15 w) : exec (.evr (.ctx c) w) s =
    .next (s.onCx c fun x => (x.ws (fd w) ((x.ev (fa w)).zeroExtend 64)).adv 1) := by
  show execEvr (.ctx c) w s = _
  rw [execEvr, ctxShort_run hs hl]

theorem exec_evw_ctx (hl : Legal 0x16 w) : exec (.evw (.ctx c) w) s =
    .next (if s.instList.any fun i => i.ctx == c.val && i.w.evc == fd w then s.onCx c fun x => { x with hold := .evw }
      else s.onCx c fun x => (x.wev (fd w) (((s.cx c).rs (fa w)).truncate 32)).adv 1) := by
  show execEvw (.ctx c) w s = _
  rw [execEvw, ctxShort_run hs hl, apply_ite Host.Outcome.next]
  exact if_congr Iff.rfl rfl (congrArg _ (onCx_congr rfl))

/-! ### Control registers (R321) -/

theorem exec_csrr_listed (hl : Legal 0x17 w) {v : Word} (h : s.csrRead c (fimm w) = some v) :
    exec (.csrr (.ctx c) w) s = .next (s.onCx c fun x => (x.ws (fd w) v).adv 1) := by
  show execCsrr (.ctx c) w s = _
  rw [execCsrr, ctxShort_run hs hl, h]

theorem exec_csrr_unlisted (hl : Legal 0x17 w) (h : s.csrRead c (fimm w) = none) :
    exec (.csrr (.ctx c) w) s = .next (s.refuseScalar c 1 Code.encoding 0x97) := by
  show execCsrr (.ctx c) w s = _
  rw [execCsrr, ctxShort_run hs hl, h]

theorem exec_csrw_listed (hl : Legal 0x18 w) {f : Ctx → Ctx} (h : (s.cx c).csrWrite (fimm w) ((s.cx c).rs (fa w)) = some (f (s.cx c))) :
    exec (.csrw (.ctx c) w) s = .next (s.onCx c fun x => (f x).adv 1) := by
  show execCsrw (.ctx c) w s = _
  rw [execCsrw, ctxShort_run hs hl, h]
  exact congrArg _ (onCx_congr rfl)

theorem exec_csrw_unlisted (hl : Legal 0x18 w) (h : (s.cx c).csrWrite (fimm w) ((s.cx c).rs (fa w)) = none) :
    exec (.csrw (.ctx c) w) s = .next (s.refuseScalar c 1 Code.encoding 0x98) := by
  show execCsrw (.ctx c) w s = _
  rw [execCsrw, ctxShort_run hs hl, h]

end context

theorem csrRead_unlisted (s : State) (c : Nat) {n : Nat} (h : 7 ≤ n) : s.csrRead c n = none := by
  obtain ⟨k, rfl⟩ := Nat.exists_eq_add_of_le' h
  rfl

theorem csrWrite_unlisted (x : Ctx) (v : Word) {n : Nat} (h : 7 ≤ n) : x.csrWrite n v = none := by
  obtain ⟨k, rfl⟩ := Nat.exists_eq_add_of_le' h
  rfl

theorem csrWrite_status (x : Ctx) (v : Word) : x.csrWrite 3 v = some { x with err := x.err && !v.getLsbD 0 } := by
  simp only [Ctx.csrWrite, bitOf_eq_getLsbD]
  cases v.getLsbD 0 <;> simp

theorem csrWrite_defClass (x : Ctx) (v : Word) :
    x.csrWrite 5 v = some { x with defClass := if v.toNat % 4 = 0 then x.defClass else v.toNat % 4 } := by
  simp only [Ctx.csrWrite]
  split <;> rfl

theorem csrWrite_readOnly (x : Ctx) (v : Word) {n : Nat} (h : n = 1 ∨ n = 2 ∨ n = 4 ∨ n = 6) : x.csrWrite n v = some x := by
  obtain rfl | rfl | rfl | rfl := h <;> rfl

/-- Settles O16: the lemma of each row, with what the register of each number reads and takes. -/
theorem handlesAndControlRegisters : Obligations.HandlesAndControlRegisters := by
  unfold Obligations.HandlesAndControlRegisters
  refine ⟨fun s c w hs => ?handles, fun s c w hs => ⟨fun hl => ?reads, fun hl => ?writes⟩⟩
  case handles =>
    refine ⟨fun hl h => ?_, fun hl h => ?_, exec_evr_ctx hs, fun hl h => ?_, fun hl h => ?_⟩
    · rw [exec_ldh_ctx hs hl, if_neg (not_le.2 h)]
    · rw [exec_ldh_ctx hs hl, if_pos h]
    · rw [exec_evw_ctx hs hl, if_neg (by rw [h]; exact Bool.false_ne_true)]
    · rw [exec_evw_ctx hs hl, if_pos h]
  case reads =>
    have row {v} (h : s.csrRead c (fimm w) = some v) := exec_csrr_listed hs hl h
    exact ⟨fun hn => row (by rw [hn]; rfl), fun hn => row (by rw [hn]; rfl), fun hn => row (by rw [hn]; rfl), fun hn => row (by rw [hn]; rfl),
      fun hn => row (by rw [hn]; rfl), fun hn => row (by rw [hn]; rfl), fun hn => row (by rw [hn]; rfl),
      fun hn => exec_csrr_unlisted hs hl (csrRead_unlisted s c hn)⟩
  case writes =>
    refine ⟨fun hn => ?seed, fun hn => ?status, fun hn => ?defClass, fun hn => ?readOnly,
      fun hn => exec_csrw_unlisted hs hl (csrWrite_unlisted _ _ hn)⟩
    case seed => exact exec_csrw_listed hs hl (by rw [hn]; rfl)
    case status => exact exec_csrw_listed hs hl (by rw [hn]; exact csrWrite_status _ _)
    case defClass => exact exec_csrw_listed hs hl (by rw [hn]; exact csrWrite_defClass _ _)
    case readOnly => exact exec_csrw_listed hs hl (csrWrite_readOnly _ _ hn)

/-! ### HALT (R325, R345) -/

/-- Settles O17: with room for its record a context halts, without room it holds; the Miller stops. -/
theorem halts : Obligations.Halts := by
  unfold Obligations.Halts
  refine ⟨fun s c w hs hl => ⟨fun hr => ?room, fun hr => ?full⟩, fun s w hm hl => ?miller⟩
  case room =>
    show execHalt (.ctx c) w s = _
    rw [execHalt, ctxShort_run ⟨hs, hr⟩ hl]
    simp only [hr, Bool.false_eq_true, if_false]
  case full =>
    show execHalt (.ctx c) w s = _
    rw [execHalt, ctxShort_ring hs.canIssue hr hl.1]
  case miller =>
    show execHalt .miller w s = _
    rw [execHalt, millerShort_run hm hl rfl]

/-! ### Management registers and events in the Miller (R348, R350) -/

section miller
variable {s : State} {w : W32} (hm : s.MillerAt w)
include hm

theorem exec_mrd_miller (hl : Legal 0x20 w) {a : Nat} (ha : millerReg s w = some a) : exec (.mrd .miller w) s =
    .next ((s.readReg a).1.onMiller fun m => { m with s := regWrite m.s (fd w) ((s.readReg a).2.zeroExtend 64) }.next) := by
  show execMrd .miller w s = _
  rw [execMrd, millerShort_run hm hl rfl, ha]

theorem exec_mwr_miller (hl : Legal 0x21 w) {a : Nat} (ha : millerReg s w = some a) : exec (.mwr .miller w) s =
    .next ((s.onMiller Miller.next).writeReg a ((regRead s.miller.s (fb w)).toNat % 2 ^ 32)) := by
  show execMwr .miller w s = _
  rw [execMwr, millerShort_run hm hl rfl, ha]

theorem exec_evq_empty (hl : Legal 0x22 w) (he : s.log.evq = []) :
    exec (.evq .miller w) s = .next (s.onMiller fun m => { m with s := regWrite m.s (fd w) 0 }.next) := by
  show execEvq .miller w s = _
  rw [execEvq, millerShort_run hm hl rfl, he]

theorem exec_evq_cons (hl : Legal 0x22 w) {e : BitVec 128} {es : List (BitVec 128)} (he : s.log.evq = e :: es) :
    exec (.evq .miller w) s = .next ((s.onLog fun l => { l with evq := es }).onMiller fun m =>
      { m with s := regWrite (regWrite m.s (fd w) (e.extractLsb' 0 64)) (fd w + 1) (e.extractLsb' 64 64) }.next) := by
  show execEvq .miller w s = _
  have hlow : e.truncate 64 = e.extractLsb' 0 64 := by
    ext i hi
    simp
  have hhigh : (e >>> 64).truncate 64 = e.extractLsb' 64 64 := by
    ext i hi
    simp
  rw [execEvq, millerShort_run hm hl rfl, he]
  simp only [hlow, hhigh]

theorem exec_wfe_miller (hl : Legal 0x23 w) : exec (.wfe .miller w) s =
    .next (if s.log.evq = [] then s.onMiller fun m => { m with waiting := true } else s.onMiller Miller.next) := by
  show execWfe .miller w s = _
  rw [execWfe, millerShort_run hm hl rfl, apply_ite Host.Outcome.next]
  simp only [List.isEmpty_iff]

end miller

theorem exec_wfeRelease {s : State} (hw : s.miller.waiting = true) (he : s.log.evq ≠ []) (hon : s.isOn 55 = true) :
    exec .wfeRelease s = .next (s.onMiller fun m => { m.next with waiting := false }) := by
  show execWfeRelease s = _
  simp [execWfeRelease, hw, he, hon]

/-- Settles O18: the lemma of each row of the Miller. -/
theorem millerManagementAndEvents : Obligations.MillerManagementAndEvents := by
  unfold Obligations.MillerManagementAndEvents
  refine ⟨fun s w a hm ha => ⟨fun hl => exec_mrd_miller hm hl ha, fun hl => exec_mwr_miller hm hl ha⟩,
    fun s w hm => ⟨exec_evq_empty hm, fun e es hl => exec_evq_cons hm hl, fun hl he => ?_, fun hl he => ?_⟩, fun s => exec_wfeRelease⟩
  · rw [exec_wfe_miller hm hl, if_pos he]
  · rw [exec_wfe_miller hm hl, if_neg he]

end Sys2Proof.Machine
end

section
/-!
SUPPORT. Short instructions that stop (R325, R345, R348): each row goes through the shared path of its executor, which refuses, faults
or holds before the row's own meaning.
-/

namespace Sys2Proof.Machine

/-! ### The shared path of each row -/

section path
variable {i : Instr} {op : Nat} {w : W32}

theorem exec_shortRow_ctx {c : Fin 64} (h : shortRow i = some (op, .ctx c, w)) : ∃ f, ∀ s, exec i s = ctxShort op c w s f := by
  cases i <;> simp only [shortRow, Option.some.injEq, Prod.mk.injEq, reduceCtorEq] at h
  all_goals obtain ⟨rfl, rfl, rfl⟩ := h
  all_goals exact ⟨_, fun _ => rfl⟩

theorem exec_shortRow_miller (h : shortRow i = some (op, .miller, w)) : ∃ f, ∀ s, exec i s = millerShort op w s f := by
  cases i <;> simp only [shortRow, Option.some.injEq, Prod.mk.injEq, reduceCtorEq] at h
  all_goals obtain ⟨rfl, rfl, rfl⟩ := h
  all_goals exact ⟨_, fun _ => rfl⟩

/-- MRD, MWR, EVQ and WFE are the Miller's. -/
theorem exec_privileged_ctx {c : Fin 64} (h : shortRow i = some (op, .ctx c, w)) (hop : 0x20 ≤ op) (s : State) : exec i s = ctxPriv op c w s := by
  cases i <;> simp only [shortRow, Option.some.injEq, Prod.mk.injEq, reduceCtorEq] at h
  all_goals obtain ⟨rfl, rfl, rfl⟩ := h
  case mrd | mwr | evq | wfe => rfl
  all_goals exact absurd hop (by decide)

/-- The loads and stores: opcode, offset and alignment. -/
theorem exec_access_ctx {c : Fin 64} {n : Int} {al : Nat} (h : shortRow i = some (op, .ctx c, w))
    (hrow : (op, n, al) ∈ [(0x0F, simm w * 8, 8), (0x10, simm w * 8, 8), (0x11, simm w * 32, 32), (0x12, simm w * 32, 32), (0x13, 0, 64)]) :
    ∃ f, ∀ s, exec i s = ctxAccess op c w s n al f := by
  simp only [List.mem_cons, Prod.mk.injEq, List.not_mem_nil, or_false] at hrow
  obtain ⟨rfl, rfl, rfl⟩ | ⟨rfl, rfl, rfl⟩ | ⟨rfl, rfl, rfl⟩ | ⟨rfl, rfl, rfl⟩ | ⟨rfl, rfl, rfl⟩ := hrow
  all_goals
    cases i <;> cases h
    exact ⟨_, fun _ => rfl⟩

end path

/-! ### What stops it -/

theorem scalarAddr_eq {base : Word} {off : Int} : scalarAddr base off =
    if base.toNat < 2 ^ 52 ∧ (base + BitVec.ofInt 64 off).toNat < 2 ^ 52 then some (base + BitVec.ofInt 64 off).toNat else none := rfl

/-- A scalar access whose address has a reserved bit or is not aligned is refused (R325, log 18). -/
theorem ctxAccess_bad {op c : Nat} {w : W32} {s : State} {off : Int} {al : Nat} {f : State → Nat → State} (hs : s.Takes c [w])
    (hl : Legal op w) (h : 2 ^ 52 ≤ ((s.cx c).rs (fa w)).toNat ∨ 2 ^ 52 ≤ ((s.cx c).rs (fa w) + BitVec.ofInt 64 off).toNat ∨
      ((s.cx c).rs (fa w) + BitVec.ofInt 64 off).toNat % al ≠ 0) :
    ctxAccess op c w s off al f = .next (s.refuseScalar c 1 Code.operand (0x80 + op)) := by
  rw [ctxAccess, ctxShort_run hs hl, scalarAddr_eq]
  by_cases ha : ((s.cx c).rs (fa w)).toNat < 2 ^ 52 ∧ ((s.cx c).rs (fa w) + BitVec.ofInt 64 off).toNat < 2 ^ 52
  · have hal : ((s.cx c).rs (fa w) + BitVec.ofInt 64 off).toNat % al ≠ 0 := by
      rcases h with h | h | h
      · exact absurd ha.1 (not_lt.2 h)
      · exact absurd ha.2 (not_lt.2 h)
      · exact h
    simp only [if_pos ha, if_pos hal]
  · simp only [if_neg ha]

/-- An STT of a descriptor with a nonzero reserved bit is refused, whatever its address. -/
theorem exec_stt_reserved {s : State} {c : Fin 64} {w : W32} (hs : s.Takes c [w]) (hl : Legal 0x12 w)
    (hrsv : (Desc.of (Map.get 0 (s.cx c).t (fd w))).rsv ≠ 0) :
    exec (.stt (.ctx c) w) s = .next (s.refuseScalar c 1 Code.operand 0x92) := by
  by_cases h : 2 ^ 52 ≤ ((s.cx c).rs (fa w)).toNat ∨ 2 ^ 52 ≤ ((s.cx c).rs (fa w) + BitVec.ofInt 64 (simm w * 32)).toNat ∨
      ((s.cx c).rs (fa w) + BitVec.ofInt 64 (simm w * 32)).toNat % 32 ≠ 0
  · show execStt (.ctx c) w s = _
    rw [execStt, ctxAccess_bad hs hl h]
  · simp only [not_or, not_le, not_not] at h
    obtain ⟨hbase, hsum, hal⟩ := h
    rw [exec_stt_ctx hs hl (scalarAddr_eq.trans (if_pos ⟨hbase, hsum⟩)) hal, if_pos hrsv]

/-- A system instruction holds while the ring has no room (R345). -/
theorem issueSystem_ringFull {opc c : Nat} {w : Long} {s : State} {bad : Bool} {f : State → Out} (hc : s.canIssue c = true)
    (hr : (s.cx c).ringFull = true) (hi : longIs opc w = true) :
    issueSystem opc c w s bad f = .next (s.onCx c fun y => { y with hold := .ring }) := by
  simp only [longIs, Bool.and_eq_true, beq_iff_eq] at hi
  obtain ⟨h0, rfl⟩ := hi
  simp [issueSystem, h0, hc, hr]

/-- The system instructions, each through its shared path. -/
theorem exec_system {i : Instr} {c : Fin 64} {w : Long} (h : i ∈ [.fence c w, .wait c w, .sig c w, .call c w, .ret c w])
    (hi : i.wf = true) : ∃ opc bad f, longIs opc w = true ∧ ∀ s, exec i s = issueSystem opc c w s bad f := by
  simp only [List.mem_cons, List.not_mem_nil, or_false] at h
  obtain rfl | rfl | rfl | rfl | rfl := h
  all_goals exact ⟨_, _, _, hi, fun _ => rfl⟩

/-- Settles O20: the shared path of the row's executor, with the stop that comes first. -/
theorem shortInstructionStops : Obligations.ShortInstructionStops := by
  unfold Obligations.ShortInstructionStops
  refine ⟨fun s i op c w hrow hs hi => ⟨fun hbad => ?reserved, fun hl hop => ?priv, fun n al hl hmem haddr => ?address,
    fun hl hop hrsv => ?descriptor⟩,
    fun s i c hc hr hi hrow => ?ring, fun s i op w hrow hm hi hbad => ?miller⟩
  case reserved =>
    obtain ⟨f, hf⟩ := exec_shortRow_ctx hrow
    rw [hf, ctxShort_bad hs (shortIs_of_wf hrow hi) hbad]
  case priv => rw [exec_privileged_ctx hrow hop, ctxPriv, ctxShort_run hs hl]
  case address =>
    obtain ⟨f, hf⟩ := exec_access_ctx hrow hmem
    rw [hf, ctxAccess_bad hs hl haddr]
  case descriptor =>
    subst hop
    cases i <;> cases hrow
    exact exec_stt_reserved hs hl hrsv
  case ring =>
    obtain ⟨op, w, hrow⟩ | ⟨w, hmem⟩ := hrow
    · obtain ⟨f, hf⟩ := exec_shortRow_ctx hrow
      rw [hf, ctxShort_ring hc hr (shortIs_of_wf hrow hi)]
    · obtain ⟨opc, bad, f, hopc, hf⟩ := exec_system hmem hi
      rw [hf, issueSystem_ringFull hc hr hopc]
  case miller =>
    obtain ⟨f, hf⟩ := exec_shortRow_miller hrow
    refine (hf s).trans (millerShort_bad hm (shortIs_of_wf hrow hi) ?_)
    rw [Bool.or_eq_true, millerExcluded, Bool.and_eq_true, decide_eq_true_eq, decide_eq_true_eq]
    exact hbad

end Sys2Proof.Machine
end

section
/-!
SUPPORT. Tensor instructions at issue (R12, R327, R334, R337, R353, R357): one whose predicate fails, one that a check refuses, one that
is accepted or retires at zero length, and what acceptance leaves alone.
-/

namespace Sys2Proof.Machine

/-! ### A predicate that fails (R327, R344) -/

theorem off_of_not_goes {x : Ctx} {w : Long} (h : x.goes w = false) : (x.rp (fld w.w0.toNat 12 3) == bitOf w.w0.toNat 15) = true := by
  simpa [Ctx.goes, bne] using h

section off
variable {s : State} {c : Nat} {w : Long} (hs : s.Stands c w.words) (hroom : (s.cx c).ringFull = false) (hg : (s.cx c).goes w = false)
include hs hroom hg

section tensor
variable {r : TRow} (hw : bitOf w.w0.toNat 0 = true) (ho : w.opc ∈ longOpcodes) (hr : (w.opc == r.opc && r.form w) = true)
include hw ho hr

/-- Its record carries the SEQID of the sequence record it names, which is read first. -/
theorem issueTensor_off_record {no : Nat} (hrec : w.rec' = true) (hd : s.recDue r (s.capture c w) = some no) :
    issueTensor r c w s = .next (s.readRec c (s.capture c w) no) := by
  have hf : s.fetchCode c 4 = none := hs.fetch
  simp [issueTensor, hw, ho, hr, hs.canIssue, hs.1, hf, hroom, off_of_not_goes hg, hrec, hd]

theorem issueTensor_off (hd : w.rec' = false ∨ s.recDue r (s.capture c w) = none) :
    issueTensor r c w s = .next (s.retire c w (clsOf (s.cx c) w) false (r.prep s (s.capture c w)).seqid) := by
  have hf : s.fetchCode c 4 = none := hs.fetch
  obtain hd | hd := hd <;> simp [issueTensor, hw, ho, hr, hs.canIssue, hs.1, hf, hroom, off_of_not_goes hg, hd]

end tensor

theorem issueSystem_off {opc : Nat} {bad : Bool} {f : State → Out} (hi : longIs opc w = true) :
    issueSystem opc c w s bad f = .next (s.retire c w 0 false 0) := by
  simp only [longIs, Bool.and_eq_true, beq_iff_eq] at hi
  obtain ⟨hw, rfl⟩ := hi
  have hf : s.fetchCode c 4 = none := hs.fetch
  simp [issueSystem, hw, hs.canIssue, hs.1, hf, hroom, off_of_not_goes hg]

end off

/-- Settles O21: the shared path of tensor instructions or of system instructions, at the predicate. -/
theorem predicatedOff : Obligations.PredicatedOff := by
  unfold Obligations.PredicatedOff
  intro s i c w hi hs hroom hg
  refine ⟨fun r hrow => ?tensor, fun k hk hmem => ?system⟩
  case tensor =>
    obtain ⟨he, hw, ho, hr⟩ := tensorRow_issue hrow hi s
    rw [List.contains_iff_mem] at ho
    rw [he]
    refine ⟨fun no hrec hd => issueTensor_off_record hs hroom hg hw ho hr hrec hd, fun hd => ?_⟩
    rw [issueTensor_off hs hroom hg hw ho hr hd]
    rfl
  case system =>
    subst hk
    obtain ⟨opc, bad, f, hopc, hf⟩ := exec_system hmem hi
    rw [hf, issueSystem_off hs hroom hg hopc]
    rfl

/-! ### A check that fails (R12, R337) -/

theorem minOr_eq_of_least {d k : Nat} {l : List Nat} (hk : k ∈ l) (hle : ∀ j ∈ l, k ≤ j) : minOr d l = k := by
  cases l with
  | nil => cases hk
  | cons x xs =>
    have hmin : (x :: xs).min? = some k := List.min?_eq_some_iff.2 ⟨hk, hle⟩
    rw [List.min?_cons'] at hmin
    exact Option.some.inj hmin

/-- Settles O23: the refusal of the shared path, whose code is the least of those that apply. -/
theorem tensorRefused : Obligations.TensorRefused := by
  unfold Obligations.TensorRefused
  intro s i r c w hrow hi h
  dsimp only
  intro code hcode hleast
  obtain ⟨he, hw, ho, hr⟩ := tensorRow_issue hrow hi s
  rw [he, issueTensor_refused hw ho hr h (List.ne_nil_of_mem hcode), minOr_eq_of_least hcode hleast]
  rfl

/-! ### Acceptance (R334, R353, R357) -/

/-- What a row fills in at issue leaves the context and the words. -/
theorem prep_ctx_w {i : Instr} {r : TRow} {c : Nat} {w : Long} (h : tensorRow i = some (r, c, w)) (s : State) (j : Inst) :
    (r.prep s j).ctx = j.ctx ∧ (r.prep s j).w = j.w := by
  cases i <;> simp only [tensorRow, Option.some.injEq, Prod.mk.injEq, reduceCtorEq] at h
  all_goals obtain ⟨rfl, -, -⟩ := h
  case mmp | mmw | mmc | drain | attf | attb | kviv | mov =>
    simp only [mmRow, drRow, attfRow, attbRow, kvivRow, movRow]
    split <;> exact ⟨rfl, rfl⟩
  all_goals exact ⟨rfl, rfl⟩

theorem withApb_ctx_w (s : State) (r : TRow) (i : Inst) : (s.withApb r i).ctx = i.ctx ∧ (s.withApb r i).w = i.w := by
  unfold State.withApb
  split <;> exact ⟨rfl, rfl⟩

theorem atIssue_ctx_w {i : Instr} {r : TRow} {c : Nat} {w : Long} (h : tensorRow i = some (r, c, w)) (s : State) :
    (s.atIssue r c w).ctx = c ∧ (s.atIssue r c w).w = w := by
  obtain ⟨hc, hw⟩ := prep_ctx_w h s (s.withApb r (s.capture c w))
  obtain ⟨hc', hw'⟩ := withApb_ctx_w s r (s.capture c w)
  exact ⟨hc.trans hc', hw.trans hw'⟩

section accept
variable {s : State} {r : TRow} {j : Inst}

theorem finish_free {c : Nat} (hd : s.offDoms r j = []) (hh : r.hold s j = none) : issueTensor.finish r c s j = .next (s.sluiceDecide r j) := by
  simp only [issueTensor.finish, hd, hh]

/-- The Sluice takes on an instruction of Class B or C without a test (R412). -/
theorem sluiceDecide_notClassA (h : j.cls ≠ 1) : s.sluiceDecide r j = s.takeOn r j (r.zero s j) := by
  simp only [State.sluiceDecide, if_pos h]

theorem takeOn_long : s.takeOn r j false = r.effect (s.accept j true) j := rfl

theorem takeOn_zero : s.takeOn r j true = s.retire j.ctx j.w j.cls true j.seqid := rfl

/-- One of Class B or C that nothing refuses or holds is taken on. -/
theorem exec_tensor_taken {i : Instr} {c : Nat} {w : Long} (hrow : tensorRow i = some (r, c, w)) (hi : i.wf = true) (h : s.Issues r c w)
    (hc : s.commonCodes r (s.atIssue r c w) ++ r.checks s (s.atIssue r c w) = []) (hd : s.offDoms r (s.atIssue r c w) = [])
    (hh : r.hold s (s.atIssue r c w) = none) (hA : (s.atIssue r c w).cls ≠ 1) :
    exec i s = .next (s.takeOn r (s.atIssue r c w) (r.zero s (s.atIssue r c w))) := by
  obtain ⟨he, hw, ho, hr⟩ := tensorRow_issue hrow hi s
  rw [he, issueTensor_checked hw hr (List.contains_iff_mem.1 ho) h hc, finish_free hd hh, sluiceDecide_notClassA hA]

end accept

/-- Settles O24: one that is taken on is accepted with its row's effect, or retires where its length is zero. -/
theorem tensorAccepted : Obligations.TensorAccepted := by
  unfold Obligations.TensorAccepted
  refine ⟨fun s i r c w hrow hi h hp hA => ?_, fun s i r c w hrow hi h => ?_⟩
  · obtain ⟨hc, hd, hh, hz⟩ := hp
    rw [exec_tensor_taken hrow hi h hc hd hh hA, hz, takeOn_long]
  · dsimp only
    intro hc hd hh hz hA
    obtain ⟨hctx, hword⟩ := atIssue_ctx_w hrow s
    rw [exec_tensor_taken hrow hi h hc hd hh hA, hz, takeOn_zero, hctx, hword]

/-! ### The frame of acceptance, as KVFN shows it (R247, R334) -/

/-- A context passes the words of an instruction that is accepted, and reserves its record. -/
def Ctx.accepted (x : Ctx) (takes : Bool) : Ctx :=
  { x.adv 4 with issueSeq := if takes then ((x.adv 4).issueSeq + 1) % 2 ^ 24 else (x.adv 4).issueSeq, resv := (x.adv 4).resv + 1 }

section accepted
variable (x : Ctx) (n : Nat)

@[simp] theorem issueSeq_adv : (x.adv n).issueSeq = x.issueSeq := by unfold Ctx.adv; split <;> rfl
@[simp] theorem resv_adv : (x.adv n).resv = x.resv := by unfold Ctx.adv; split <;> rfl

theorem issueSeq_accepted : (x.accepted true).issueSeq = (x.issueSeq + 1) % 2 ^ 24 := by
  show ((x.adv 4).issueSeq + 1) % 2 ^ 24 = _
  rw [issueSeq_adv]

theorem resv_accepted (takes : Bool) : (x.accepted takes).resv = x.resv + 1 := congrArg (· + 1) (resv_adv x 4)
theorem rs_accepted (takes : Bool) : (x.accepted takes).rs n = x.rs n := rs_adv x 4 n
theorem ev_accepted (takes : Bool) : (x.accepted takes).ev n = x.ev n := ev_adv x 4 n

theorem nextPos_accepted (takes : Bool) (h : x.code = none) : (x.accepted takes).nextPos = (x.nextPos + 4) % 2 ^ 32 :=
  congrArg Ctx.nextPos (adv_of_stream x 4 h)

end accepted

section frame
variable {s : State} (hs : s.Canon) (j : Inst) (takes : Bool)
include hs

theorem inst_accept (n : Nat) : (s.accept j takes).inst n = if n = j.n then some j else s.inst n :=
  Map.get_set hs.insts j.n n (some j)

theorem cx_accept (c : Nat) : (s.accept j takes).cx c = if c = j.ctx then (s.cx j.ctx).accepted takes else s.cx c :=
  cx_onCx hs.ctx j.ctx c fun x => x.accepted takes

end frame

/-- Settles O25: KVFN is accepted as it was captured, and its row does nothing more. -/
theorem acceptanceFrame : Obligations.AcceptanceFrame := by
  unfold Obligations.AcceptanceFrame
  intro s c w hs hi h hp hA
  obtain ⟨hc, hd, hh, hz⟩ := hp
  have hexec := exec_tensor_taken (i := .kvfn c w) rfl hi h hc hd hh hA
  rw [hz, takeOn_long] at hexec
  have hj : s.atIssue kvfnRow c w = s.capture c w := rfl
  rw [hj] at hexec
  have hcx := cx_accept hs (s.capture c w) true
  have hhere : (s.accept (s.capture c w) true).cx c = (s.cx c).accepted true := (hcx c).trans (if_pos rfl)
  refine ⟨s.accept (s.capture c w) true, s.capture c w, hexec, ?inst, rfl, rfl, rfl, rfl, rfl, rfl, rfl, rfl, fun n hn => ?insts, ?issueSeq,
    ?resv, fun n => ?regs, fun n => ?counters, fun hstream => ?position, fun c' hc' => ?contexts, rfl⟩
  case inst => exact (inst_accept hs _ _ _).trans (if_pos rfl)
  case insts => exact (inst_accept hs _ _ _).trans (if_neg hn)
  case issueSeq => rw [hhere, issueSeq_accepted]
  case resv => rw [hhere, resv_accepted]
  case regs => rw [hhere, rs_accepted]
  case counters => rw [hhere, ev_accepted]
  case position => rw [hhere, nextPos_accepted _ _ hstream]
  case contexts => exact (hcx c').trans (if_neg hc')

end Sys2Proof.Machine
end

section
/-!
SUPPORT. The system instructions (R337, R339 to R341, R343, R398, R399): WAIT, FENCE, SIG, CALL and RET once their words are legal, and
the events that complete them.
-/

namespace Sys2Proof.Machine

theorem State.Runs.issue {s : State} {opc c : Nat} {w : Long} (h : s.Runs opc c w) {bad : Bool} (hb : bad = false) (f : State → Out) :
    issueSystem opc c w s bad f = f s :=
  issueSystem_run h.stands h.room h.names h.goes hb h.cls h.zero

/-! ### WAIT (R339) -/

/-- The comparison of R339 on numbers. -/
theorem waitMet_iff {x : Ctx} {w : Long} : x.waitMet w = true ↔ ((x.ev (fld w.w1.toNat 0 5)).toNat + 2 ^ 32 -
    ((x.rs (fld w.w1.toNat 5 5)).toNat + w.w2.toNat) % 2 ^ 32) % 2 ^ 32 < 2 ^ 31 := by
  rw [Ctx.waitMet, decide_eq_true_eq, BitVec.toNat_sub, Ctx.waitVal, BitVec.toNat_add, BitVec.truncate, BitVec.toNat_setWidth,
    Nat.mod_add_mod]
  have hv : ((x.rs (fld w.w1.toNat 5 5)).toNat + w.w2.toNat) % 2 ^ 32 < 2 ^ 32 := Nat.mod_lt _ (by decide)
  rw [← Nat.sub_add_comm hv.le, Nat.add_comm]

section wait
variable {s : State} {c : Nat} {w : Long} (he : (s.cx c).err = false)
include he

theorem waitStep_met (hm : (s.cx c).waitMet w = true) : s.waitStep c w = (s.onCx c fun x => x.adv 4).bump c w := by
  simp [State.waitStep, he, hm, State.completeSys]

theorem waitStep_unmet (hm : (s.cx c).waitMet w = false) : s.waitStep c w = s.onCx c fun x => { x with hold := .wait } := by
  simp [State.waitStep, he, hm]

end wait

theorem exec_wait {s : State} {c : Fin 64} {w : Long} (h : s.Runs 0x71 c w) (h1 : fld w.w1.toNat 10 22 = 0) (h3 : fld w.w3.toNat 6 26 = 0) :
    exec (.wait c w) s = .next (s.waitStep c w) :=
  h.issue (f := fun s => .next (s.waitStep c w)) (by simp [h1, h3])

theorem exec_waitSatisfied {s : State} {c : Fin 64} {w : Long} (he : (s.cx c).err = false) (hh : (s.cx c).hold = .wait) (hc : s.canIssue c = true)
    (hw : (s.cx c).longAt = some w) : exec (.waitSatisfied c) s = .next (if (s.cx c).waitMet w then s.waitStep c w else s) := by
  show execWaitSatisfied c s = _
  cases hm : (s.cx c).waitMet w <;> simp [execWaitSatisfied, hh, hc, hw, hm, he, idle]

/-- Settles O27: WAIT at the issue position and its release, where the count is met and where it is not. -/
theorem waits : Obligations.Waits := by
  unfold Obligations.Waits
  intro s c w he
  dsimp only
  rw [← waitMet_iff, Bool.not_eq_true]
  refine ⟨fun hr h1 h3 => ⟨fun hm => ?_, fun hm => ?_⟩, fun hh hc hw => ⟨fun hm => ?_, fun hm => ?_⟩⟩
  · rw [exec_wait hr h1 h3, waitStep_met he hm]
  · rw [exec_wait hr h1 h3, waitStep_unmet he hm]
  · rw [exec_waitSatisfied he hh hc hw, if_pos hm, waitStep_met he hm]
  · rw [exec_waitSatisfied he hh hc hw, if_neg (by simp [hm])]

/-! ### FENCE (R337, R340) -/

theorem ended_iff {s : State} {c n : Nat} : s.ended c n = true ↔ ∀ i ∈ s.instList, i.ctx = c → i.opc ≠ 0x72 → n ≤ i.n := by
  simp [State.ended]

section fence
variable {s : State} {c : Nat} {w : Long} (he : (s.cx c).err = false)
include he

theorem fenceStep_ended (hd : s.ended c s.nextInst = true) : s.fenceStep c w = (s.onCx c fun x => x.adv 4).bump c w := by
  simp [State.fenceStep, he, hd, State.completeSys]

theorem fenceStep_waits (hd : s.ended c s.nextInst = false) : s.fenceStep c w = s.onCx c fun x => { x with hold := .fence } := by
  simp [State.fenceStep, he, hd]

end fence

theorem exec_fence {s : State} {c : Fin 64} {w : Long} (h : s.Runs 0x70 c w) (h1 : w.w1 = 0) (h2 : w.w2 = 0) (h3 : fld w.w3.toNat 6 26 = 0) :
    exec (.fence c w) s = .next (s.fenceStep c w) :=
  h.issue (f := fun s => .next (s.fenceStep c w)) (by simp [h1, h2, h3])

theorem exec_fenceSatisfied {s : State} {c : Fin 64} {w : Long} (he : (s.cx c).err = false) (hh : (s.cx c).hold = .fence)
    (hc : s.canIssue c = true) (hw : (s.cx c).longAt = some w) :
    exec (.fenceSatisfied c) s = .next (if s.ended c s.nextInst then s.fenceStep c w else s) := by
  show execFenceSatisfied c s = _
  cases hd : s.ended c s.nextInst <;> simp [execFenceSatisfied, hh, hc, hw, hd, he, idle]

/-- With ERR set and room for its record a WAIT or FENCE stops its context (R337). -/
theorem stopErr_room {s : State} {c opc : Nat} (hr : (s.cx c).ringFull = false) : s.stopErr c opc =
    (s.onCx c fun x => { x with run := .stopped, hold := .none }).writeRec c false
      { kind := 3, code := (s.cx c).lastErr.toNat % 2 ^ 16, opc := opc, spos := (s.cx c).sposNow.1, called := (s.cx c).sposNow.2 } := by
  simp [State.stopErr, hr]

/-- Settles O28: FENCE at the issue position and its release; with ERR set the stop of either instruction. -/
theorem fencesAndStops : Obligations.FencesAndStops := by
  unfold Obligations.FencesAndStops
  refine ⟨fun s c w he => ?goes, fun s c w he hroom => ⟨fun hr h1 h3 => ?wait, fun hr h1 h2 h3 => ?fence⟩⟩
  case goes =>
    dsimp only
    rw [← ended_iff, Bool.not_eq_true]
    refine ⟨fun hr h1 h2 h3 => ⟨fun hd => ?_, fun hd => ?_⟩, fun hh hc hw => ⟨fun hd => ?_, fun hd => ?_⟩⟩
    · rw [exec_fence hr h1 h2 h3, fenceStep_ended he hd]
    · rw [exec_fence hr h1 h2 h3, fenceStep_waits he hd]
    · rw [exec_fenceSatisfied he hh hc hw, if_pos hd, fenceStep_ended he hd]
    · rw [exec_fenceSatisfied he hh hc hw, if_neg (by simp [hd])]
  case wait => rw [exec_wait hr h1 h3, State.waitStep, if_pos he, stopErr_room hroom]
  case fence => rw [exec_fence hr h1 h2 h3, State.fenceStep, if_pos he, stopErr_room hroom]

/-! ### SIG (R341, R399) -/

theorem exec_sig {s : State} {c : Fin 64} {w : Long} (h : s.Runs 0x72 c w) (h1 : fld w.w1.toNat 11 21 = 0) (h2 : w.w2 = 0)
    (h3 : fld w.w3.toNat 8 24 = 0) : exec (.sig c w) s = .next (
      if (s.cx (fld w.w1.toNat 0 6)).domain ≠ (s.cx c).domain then s.refuseScalar c 4 Code.priv 0x72
      else if 32 ≤ s.inflight c then s.onCx c fun x => { x with hold := .inflight }
      else s.accept { s.capture c w with cls := 0, bays := [], aux := [fld w.w1.toNat 0 6, fld w.w1.toNat 6 5] } false) := by
  show execSig c w s = _
  rw [execSig, h.issue (by simp [h1, h2, h3])]
  simp only [h.room, Bool.false_eq_true, if_false, apply_ite Host.Outcome.next]

theorem exec_sigIncrement {s : State} {n t k : Nat} {i : Inst} (hi : s.inst n = some i) (ho : i.opc = 0x72) (ha : i.aux = [t, k])
    (hd : s.ended i.ctx n = true) :
    let s1 := s.onCx i.ctx fun x => { x with resv := x.resv - 1 }
    let s2 := if i.w.rec' then s1.writeRec i.ctx false
      { kind := 4, opc := 0x72, int := i.w.int', spos := i.spos, called := i.called } else s1
    let s3 := ((s2.onCx t fun x => x.wev k (x.ev k + 1)).wakeLadder (51 + t / 16)).bump i.ctx i.w
    exec (.sigIncrement n) s = .next { s3 with insts := Map.erase s3.insts n } := by
  show execSigIncrement n s = _
  simp [execSigIncrement, hi, ho, ha, hd]

/-- Settles O29: SIG at the issue position, and its increment once what came before has ended. -/
theorem signals : Obligations.Signals := by
  unfold Obligations.Signals
  refine ⟨fun s c w hr h1 h2 h3 => ⟨fun hdom => ?_, fun hdom _ hfl => ?_⟩,
    fun s n t k i hi ho ha hd => exec_sigIncrement hi ho ha (ended_iff.2 hd)⟩
  · rw [exec_sig hr h1 h2 h3, if_pos hdom]
  · rw [exec_sig hr h1 h2 h3, if_neg (not_not.2 hdom), if_neg (not_le.2 hfl)]

/-! ### CALL and RET (R343) -/

section call
variable {s : State} {c : Fin 64} {w : Long}

/-- The address that a CALL names: 52 bits in the register and in the sum (log 18). -/
theorem callAddr_eq (x : Ctx) : x.callAddr w = if (x.rs (fld w.w1.toNat 0 5)).toNat < 2 ^ 52 ∧
    (x.rs (fld w.w1.toNat 0 5) + w.w2.signExtend 64).toNat < 2 ^ 52 then some (x.rs (fld w.w1.toNat 0 5) + w.w2.signExtend 64).toNat
    else none := by
  rw [Ctx.callAddr, sextNat_eq_toInt, BitVec.ofNat_toNat, BitVec.setWidth_eq]
  rfl

section legal
variable (h : s.Runs 0x73 c w) (h1 : fld w.w1.toNat 5 27 = 0) (h3 : w.w3 = 0)
include h h1 h3

theorem exec_call_refused (ha : ∀ a, (s.cx c).callAddr w = some a → a % 4 ≠ 0) :
    exec (.call c w) s = .next (s.refuseScalar c 4 Code.operand 0x73) := by
  show execCall c w s = _
  rw [execCall, h.issue (by simp [h1, h3])]
  cases hc : (s.cx c).callAddr w with
  | none => simp only [hc]
  | some a => simp only [hc, if_pos (ha a hc)]

variable {a : Nat} (ha : (s.cx c).callAddr w = some a) (h4 : a % 4 = 0)
include ha h4

theorem exec_call_deep (hd : 8 ≤ (s.cx c).stack.length) : exec (.call c w) s =
    .next ((s.onCx c fun x => x.adv 4).faultScalar c 0x73 (s.cx c).sposNow { code := Code.fCallDepth, unit := 0x07 }) := by
  show execCall c w s = _
  rw [execCall, h.issue (by simp [h1, h3])]
  simp only [ha, h4, ne_eq, not_true_eq_false, if_false, if_pos hd]

theorem exec_call_stream (hd : (s.cx c).stack.length < 8) (hc : (s.cx c).code = none) : exec (.call c w) s = .next (s.onCx c fun x =>
    { x.adv 4 with stack := (true, ((s.cx c).nextPos + 4) % 2 ^ 32) :: (s.cx c).stack, code := some a, codeBuf := [],
                   callSpos := (s.cx c).nextPos }) := by
  show execCall c w s = _
  rw [execCall, h.issue (by simp [h1, h3])]
  simp only [ha, h4, ne_eq, not_true_eq_false, if_false, if_neg (not_le.2 hd)]
  refine congrArg _ (onCx_congr ?_)
  rw [adv_of_stream _ _ hc, Ctx.sposNow, hc]

theorem exec_call_called (hd : (s.cx c).stack.length < 8) {p : Nat} (hc : (s.cx c).code = some p) : exec (.call c w) s =
    .next (s.onCx c fun x => { x.adv 4 with stack := (false, p + 16) :: (s.cx c).stack, code := some a, codeBuf := [] }) := by
  show execCall c w s = _
  rw [execCall, h.issue (by simp [h1, h3])]
  simp only [ha, h4, ne_eq, not_true_eq_false, if_false, if_neg (not_le.2 hd)]
  refine congrArg _ (onCx_congr ?_)
  rw [adv_of_called _ _ hc, Ctx.sposNow, hc]

end legal

section ret
variable (h : s.Runs 0x74 c w) (h1 : w.w1 = 0) (h2 : w.w2 = 0) (h3 : w.w3 = 0)
include h h1 h2 h3

theorem exec_ret_empty (hs : (s.cx c).stack = []) : exec (.ret c w) s =
    .next ((s.onCx c fun x => x.adv 4).faultScalar c 0x74 (s.cx c).sposNow { code := Code.fCallDepth, unit := 0x07 }) := by
  show execRet c w s = _
  rw [execRet, h.issue (by simp [h1, h2, h3])]
  simp only [hs]

theorem exec_ret_cons {b : Bool} {p : Nat} {rest : List (Bool × Nat)} (hs : (s.cx c).stack = (b, p) :: rest) : exec (.ret c w) s =
    .next (s.onCx c fun x => if b then { x with stack := rest, code := none, codeBuf := [], nextPos := p, hold := .none }
      else { x with stack := rest, code := some p, codeBuf := [], hold := .none }) := by
  show execRet c w s = _
  rw [execRet, h.issue (by simp [h1, h2, h3])]
  simp only [hs]

end ret

end call

/-- Settles O30: CALL by its address, its depth and where it stands; RET by the top of the stack. -/
theorem callsAndReturns : Obligations.CallsAndReturns := by
  unfold Obligations.CallsAndReturns
  intro s c w
  dsimp only
  refine ⟨fun hr h1 h3 => ?call, fun hr h1 h2 h3 => ⟨fun p rest hs => ?stream, fun p rest hs => ?called, exec_ret_empty hr h1 h2 h3⟩⟩
  case call =>
    have haddr := callAddr_eq (w := w) (s.cx c)
    generalize (s.cx c).rs (fld w.w1.toNat 0 5) = base at haddr ⊢
    refine ⟨fun hl hd hc => ?_, fun p hl hd hc => ?_, fun hl hd => ?_, fun hl => ?_⟩
    · rw [if_pos ⟨hl.1, hl.2.1⟩] at haddr
      exact exec_call_stream hr h1 h3 haddr hl.2.2 hd hc
    · rw [if_pos ⟨hl.1, hl.2.1⟩] at haddr
      exact exec_call_called hr h1 h3 haddr hl.2.2 hd hc
    · rw [if_pos ⟨hl.1, hl.2.1⟩] at haddr
      exact exec_call_deep hr h1 h3 haddr hl.2.2 hd
    · refine exec_call_refused hr h1 h3 fun a ha h4 => hl ?_
      rw [haddr, Option.ite_none_right_eq_some, Option.some.injEq] at ha
      obtain ⟨⟨hbase, hsum⟩, rfl⟩ := ha
      exact ⟨hbase, hsum, h4⟩
  case stream => exact exec_ret_cons hr h1 h2 h3 hs
  case called => exact exec_ret_cons hr h1 h2 h3 hs

end Sys2Proof.Machine
end

section
/-!
SUPPORT. The end of a tensor instruction (R335, R337, R344, R417): the row, an instruction with no last act of its own, and what the
end writes and counts.
-/

namespace Sys2Proof.Machine

section ends
variable {s : State} {n : Nat} {i : Inst}

theorem exec_tensorInstructionEnd (hi : s.inst n = some i) (he : s.mayEnd i = true) :
    exec (.tensorInstructionEnd n) s = .next ((s.lastActs i).finishInst n).settle.pwuTurn.runLanes := by
  show execTensorInstructionEnd n s = _
  simp only [execTensorInstructionEnd, hi, he, if_true]

theorem unreserve_of_none (h : i.held = []) : s.unreserve i = s := by
  rw [State.unreserve, h]
  rfl

theorem parkEnd_of_other (h1 : i.opc ≠ 0x44) (h2 : i.opc ≠ 0x45) : s.parkEnd i = s := by
  simp [State.parkEnd, h1, h2]

/-- The opcodes whose instructions do something at their end: ATTF, ATTB, ATTM, BIAS, KVCM, KVDS, KVIV, PGCW. -/
def endOpcodes : List Nat := [0x20, 0x21, 0x22, 0x23, 0x41, 0x42, 0x44, 0x45]

/-- An instruction with no last act of its own. -/
theorem lastActs_none (hl : i.link = none) (hh : i.held = []) (ho : i.opc ∉ endOpcodes) (hf : i.opc = 0x30 → i.fnLoad = false) :
    s.lastActs i = s := by
  simp only [endOpcodes, List.mem_cons, List.not_mem_nil, or_false, not_or] at ho
  obtain ⟨h20, h21, h22, h23, h41, h42, h44, h45⟩ := ho
  have hload : ¬ (i.opc = 0x30 ∧ i.fnLoad = true) := fun h => by simp [hf h.1] at h
  have hatt : i.isAtt = false := by simp [Inst.isAtt, h20, h21, h22]
  simp [State.lastActs, hl, hload, h23, h41, h42, hatt, unreserve_of_none hh, parkEnd_of_other h44 h45]

/-- ERR and LASTERR where the instruction has faulted, its place in the ring given back, its record and its counter (R337, R344). -/
def State.endWritten (s : State) (i : Inst) : State :=
  let s1 := if i.faults = [] then s else s.onCx i.ctx fun x => x.setErr i.endCode x.rseq
  let s2 := s1.onCx i.ctx fun x => { x with resv := x.resv - 1 }
  let s3 := if i.faults ≠ [] ∨ i.w.rec' = true then
      s2.writeRec i.ctx (i.cls == 1)
        { kind := if i.faults = [] then 0 else 2, code := i.endCode, opc := i.opc, spec := i.spec, poison := i.poison, int := i.w.int',
          called := i.called, spos := i.spos, issue := i.issue, result := if i.spec then 0 else i.result.toNat, seqid := i.seqid }
    else s2
  s3.bump i.ctx i.w

/-- A missed deadline is counted and raises SLUICE.MISS (R417). -/
def State.countMiss (s : State) (i : Inst) (r : Nat) : State :=
  ((s.onRv r fun y => { y with misses := holdAdd y.misses 1 }).onSluice fun q => { q with misses := holdAdd q.misses 1 }).raise
    0x0307 0x01 [r, i.issue]

/-- The deadline of a Class A instruction has passed (R417). -/
def Inst.late (i : Inst) (now : Nat) : Bool := match i.deadline with
  | some d => i.cls == 1 && decide (d < now)
  | none => false

theorem finishInst_eq (hi : s.inst n = some i) (hm : i.memErr = none) (ha : ∀ k ∈ i.aux, k < 1000 ∨ 1016 ≤ k) :
    s.finishInst n = State.freeReleased (let t := if i.late s.time.cclk then (s.endWritten i).countMiss i (i.resv.getD 0) else s.endWritten i
      { t with insts := Map.erase t.insts n }) := by
  have haux : i.aux.filter (fun k => decide (1000 ≤ k) && decide (k < 1016)) = [] :=
    List.filter_eq_nil_iff.2 fun k hk => by
      have := ha k hk
      simp only [Bool.and_eq_true, decide_eq_true_eq]
      omega
  simp only [State.finishInst, hi, hm, haux, List.foldl_nil]
  cases hfault : i.faults <;> cases hrec : i.w.rec' <;> simp only [State.endWritten, hfault, hrec] <;> rfl

end ends

/-- Settles O31: the row, with no last act, and what the end writes, by whether the deadline is met. -/
theorem instructionEnds : Obligations.InstructionEnds := by
  unfold Obligations.InstructionEnds
  intro s n i hi he
  have hrow := exec_tensorInstructionEnd hi he
  refine ⟨hrow, fun hl hh ho hf hm ha => ?_⟩
  rw [lastActs_none hl hh ho hf, finishInst_eq hi hm ha] at hrow
  refine ⟨fun hd => ?inTime, fun d r hd hA hpast hr => ?missed⟩
  case inTime =>
    have hlate : i.late s.time.cclk = false := by
      unfold Inst.late
      split
      · next d hdl => simpa using fun hA => hd d hdl hA
      · rfl
    rw [hrow, hlate]
    rfl
  case missed =>
    have hlate : i.late s.time.cclk = true := by simp [Inst.late, hd, hA, hpast]
    rw [hrow, hlate, hr]
    rfl

end Sys2Proof.Machine
end

section
/-!
SUPPORT. Enabling a context whose cluster is in IDLE returns the cluster to RUN (R538), which O49's first clause leaves out.
-/

namespace Sys2Proof.Machine

/-- A started machine whose first cluster, domain 51, is in IDLE. -/
def idleCluster : State :=
  { boot := { rstN := true, step := 2, onRef := false }, pwr := { doms := [(51, { state := 1 })] } }

theorem idleCluster_open : idleCluster.Open (some 51) :=
  ⟨by decide, by decide⟩

theorem ctxEnable_idleCluster : exec (.ctxEnable 0 true) idleCluster = .next (idleCluster.ctxEnable 0 true).wrote :=
  exec_of_mgt (i := .ctxEnable 0 true) rfl idleCluster_open

/-- The cluster has gone from IDLE to RUN. -/
theorem ctxEnable_idleCluster_dom : ((idleCluster.ctxEnable 0 true).wrote.dom 51).state = 0 := by
  decide

/-- Refutes O49: ENABLE set in a context whose cluster is in IDLE also returns that cluster to RUN (R538), so the next state is not
the one with ENABLE alone changed. -/
theorem not_contextAndPageControl : ¬ Obligations.ContextAndPageControl := by
  unfold Obligations.ContextAndPageControl
  rintro ⟨hctx, -⟩
  obtain ⟨henable, -⟩ := hctx idleCluster 0 idleCluster_open
  have hsame : (idleCluster.ctxEnable 0 true).wrote = (idleCluster.onCx (0 : Fin 64) fun y => { y with enable := true }).wrote :=
    Host.Outcome.next.inj (ctxEnable_idleCluster.symm.trans (henable true))
  have hidle : ((idleCluster.onCx (0 : Fin 64) fun y => { y with enable := true }).wrote.dom 51).state = 1 := by
    decide
  have hrun := ctxEnable_idleCluster_dom
  rw [hsame, hidle] at hrun
  exact absurd hrun (by decide)

end Sys2Proof.Machine
end

section
/-!
SUPPORT. The rows of the Hopper as equations, by what the bundle's header and its channel say (R328, R329, R331, R451).
-/

namespace Sys2Proof.Machine

section bundles
variable {s : State} {ch : Nat} {b : BitVec 512}

theorem fits_iff {x : Ctx} {n : Nat} : x.fits n = true ↔ (n = 0 ∨ sdiff (x.newest + n) x.nextPos ≤ 1024) := by
  simp [Ctx.fits]

theorem bundleBad_eq_false_iff {c : Nat} {owned : Bool} : s.bundleBad c b owned = false ↔
    (bKind b = 0 ∧ bNw b ≤ 14 ∧ bReserved b = false ∧ (s.cx c).enable = true ∧ (s.cx c).cfg.fwOwned = owned ∧ s.ctxFenced c = false) := by
  simp [State.bundleBad, and_assoc]

theorem holds_eq_false_iff {x : Channel} {c : Nat} : x.holds ch c = false ↔ ∀ h ∈ x.held, bCtx ch h ≠ c := by
  simp [Channel.holds]

/-- The state in which a bundle in sequence has been accepted: a buffer taken, the expected number advanced, the Sluice told. -/
def State.accepted (s : State) (ch : Nat) (b : BitVec 512) : State :=
  ((s.onChan ch fun y => { y with credits := y.credits - 1 }).onChan ch fun y =>
    { y with exp := (y.exp + 1) % 2 ^ 16 }).tellSluice (bCtx ch b)

theorem bundle_inSeq (hfree : (s.chan ch).held.length < 16) (hq : (s.chan ch).inSeq = true) (he : bSeq b = (s.chan ch).exp) :
    s.bundle ch b = if s.bundleBad (bCtx ch b) b false then ((s.accepted ch b).hopErr (some (bCtx ch b)) Code.fBundle ch).hopCredit ch
      else if (s.cx (bCtx ch b)).fits (bNw b) && !(s.chan ch).holds ch (bCtx ch b) then ((s.accepted ch b).append' (bCtx ch b) b).hopCredit ch
      else ((s.accepted ch b).onChan ch fun y => { y with held := y.held ++ [b] }).wakeLadder (51 + ch) := by
  simp only [State.bundle, Nat.not_le.2 hfree, hq, he, if_false, Bool.not_true, bne_self_eq_false, Bool.or_self, Bool.false_eq_true]
  rfl

theorem bundle_outOfSeq (hfree : (s.chan ch).held.length < 16) (h : (s.chan ch).inSeq = false ∨ bSeq b ≠ (s.chan ch).exp) :
    s.bundle ch b = (((s.onChan ch fun y => { y with credits := y.credits - 1 }).onChan ch fun y => { y with inSeq := false }).hopErr
      (some (bCtx ch b)) Code.fBundleSeq (s.chan ch).exp).hopCredit ch := by
  have hcond : (!(s.chan ch).inSeq || bSeq b != (s.chan ch).exp) = true := by simpa using h
  simp only [State.bundle, Nat.not_le.2 hfree, hcond, if_false, if_true]

theorem exec_bundleAppend {ch : Fin 4} (hk : bKind b ≠ 1) (hr : s.hopRdy ch = true) :
    exec (.bundleAppend ch b) s = .next (s.bundle ch b) := by
  show execBundleAppend ch b s = _
  simp [execBundleAppend, hk, hr]

theorem exec_bundleResync {ch : Fin 4} (hk : bKind b = 1) (hr : s.hopRdy ch = true) :
    exec (.bundleResync ch b) s = .next (s.resync ch b) := by
  show execBundleResync ch b s = _
  simp [execBundleResync, hk, hr]

/-- A RESYNC's reserved fields (R329). -/
def resyncBad (b : BitVec 512) : Bool := bNw b != 0 || decide (16 ≤ bByte b 0) || bByte b 3 != 0 || fld b.toNat 48 16 != 0

theorem resyncBad_iff : resyncBad b = true ↔ (bNw b ≠ 0 ∨ 16 ≤ bByte b 0 ∨ bByte b 3 ≠ 0 ∨ fld b.toNat 48 16 ≠ 0) := by
  simp [resyncBad, or_assoc]

/-- The state in which a RESYNC has been accepted. -/
def State.resynced (s : State) (ch : Nat) (b : BitVec 512) : State :=
  (s.onChan ch fun y => { y with credits := y.credits - 1 }).onChan ch fun y =>
    { y with exp := (bSeq b + 1) % 2 ^ 16, inSeq := true }

theorem resync_free (hfree : (s.chan ch).held.length < 16) :
    s.resync ch b = (if resyncBad b then (s.resynced ch b).hopErr none Code.fBundle ch else s.resynced ch b).hopCredit ch := by
  simp only [State.resync, Nat.not_le.2 hfree, if_false]
  rfl

end bundles

/-- Settles O34: by the bundle's KIND, its number, and what its header and its channel say. -/
theorem bundles : Obligations.Bundles := by
  unfold Obligations.Bundles
  refine ⟨fun s ch b hk hr hfree => ⟨fun hq he hgood hroom hnone => ?append, fun hq he hgood hfull => ?held,
    fun hq he hbad => ?discarded, fun h => ?outOfSeq⟩, fun s ch b hk hr hfree => ⟨fun hgood => ?resync, fun hbad => ?resyncBad⟩⟩
  case append =>
    rw [exec_bundleAppend hk hr, bundle_inSeq hfree hq he, bundleBad_eq_false_iff.2 hgood, fits_iff.2 hroom, holds_eq_false_iff.2 hnone]
    rfl
  case held =>
    have hwait : ((s.cx (bCtx ch b)).fits (bNw b) && !(s.chan ch).holds ch (bCtx ch b)) = false := by
      rw [Bool.eq_false_iff, Ne, Bool.and_eq_true, Bool.not_eq_true', fits_iff, holds_eq_false_iff]
      exact hfull
    rw [exec_bundleAppend hk hr, bundle_inSeq hfree hq he, bundleBad_eq_false_iff.2 hgood, hwait]
    rfl
  case discarded =>
    have hb : s.bundleBad (bCtx ch b) b false = true := Bool.eq_true_of_not_eq_false (mt bundleBad_eq_false_iff.1 hbad)
    rw [exec_bundleAppend hk hr, bundle_inSeq hfree hq he, hb]
    rfl
  case outOfSeq => rw [exec_bundleAppend hk hr, bundle_outOfSeq hfree h]
  case resync =>
    rw [exec_bundleResync hk hr, resync_free hfree, Bool.eq_false_iff.2 (mt resyncBad_iff.1 hgood)]
    rfl
  case resyncBad =>
    rw [exec_bundleResync hk hr, resync_free hfree, resyncBad_iff.2 hbad, if_pos rfl]
    rfl

end Sys2Proof.Machine
end

section
/-!
SUPPORT. HELD_BUNDLE_RELEASE and INJECT by what waits for them (R331, R349, R513, R542).
-/

namespace Sys2Proof.Machine

section held
variable {s : State} {ch c : Nat} {b : BitVec 512}

theorem leaves_head {rest : List (BitVec 512)}
    (h : s.ctxFenced (bCtx ch b) = true ∨ ((s.cx (bCtx ch b)).enable = true ∧ (s.cx (bCtx ch b)).fits (bNw b) = true)) :
    s.leaves ch [] (b :: rest) = some b := by
  have hgo : (s.ctxFenced (bCtx ch b) || ((s.cx (bCtx ch b)).enable && (s.cx (bCtx ch b)).fits (bNw b))) = true := by simpa using h
  simp [State.leaves, hgo]

theorem injLeaves_head {rest : List (Nat × BitVec 512)} (hc : c / 16 = ch) (hf : (s.cx c).fits (bNw b) = true) :
    s.injLeaves ch [] ((c, b) :: rest) = some (c, b) := by
  simp [State.injLeaves, hc, hf]

/-- No injection for the cluster waits for the Hopper. -/
theorem find_injWait_none (h : ∀ q ∈ s.hop.injWait, q.1 / 16 ≠ ch) : (s.hop.injWait.find? fun q => q.1 / 16 == ch) = none :=
  List.find?_eq_none.2 fun q hq => by simpa using h q hq

theorem exec_heldBundleRelease_held {ch : Fin 4} {rest : List (BitVec 512)} (hon : s.isOn 48 = true) (hh : (s.chan ch).held = b :: rest)
    (hw : ∀ q ∈ s.hop.injWait, q.1 / 16 ≠ ch.val) (h : s.leaves ch [] (b :: rest) = some b) :
    exec (.heldBundleRelease ch) s = .next (if s.ctxFenced (bCtx ch b) then
        ((s.onChan ch fun y => { y with held := y.held.erase b }).hopErr (some (bCtx ch b)) Code.fBundle ch).hopCredit ch
      else ((s.onChan ch fun y => { y with held := y.held.erase b }).append' (bCtx ch b) b).hopCredit ch) := by
  show execHeldBundleRelease ch s = _
  simp only [execHeldBundleRelease, hon, find_injWait_none hw, hh, h, Bool.not_true, Bool.false_eq_true, if_false]

theorem exec_heldBundleRelease_injHeld {ch : Fin 4} {rest : List (Nat × BitVec 512)} (hon : s.isOn 48 = true)
    (hh : (s.chan ch).held = []) (hi : s.hop.injHeld = (c, b) :: rest) (hw : ∀ q ∈ s.hop.injWait, q.1 / 16 ≠ ch.val)
    (h : s.injLeaves ch [] ((c, b) :: rest) = some (c, b)) :
    exec (.heldBundleRelease ch) s = .next (({ s with hop := { s.hop with injHeld := rest } } : State).injectNow c b) := by
  show execHeldBundleRelease ch s = _
  simp only [execHeldBundleRelease, hon, find_injWait_none hw, hh, State.leaves, hi, h, List.erase_cons_head, Bool.not_true,
    Bool.false_eq_true, if_false]

theorem exec_heldBundleRelease_injWait {ch : Fin 4} {rest : List (Nat × BitVec 512)} (hon : s.isOn 48 = true)
    (hi : s.hop.injWait = (c, b) :: rest) (hc : c / 16 = ch.val) :
    exec (.heldBundleRelease ch) s = .next (({ s with hop := { s.hop with injWait := rest } } : State).takeInject c b) := by
  have hfind : (((c, b) :: rest).find? fun q => q.1 / 16 == ch.val) = some (c, b) := by simp [hc]
  show execHeldBundleRelease ch s = _
  simp only [execHeldBundleRelease, hon, hi, hfind, List.erase_cons_head, Bool.not_true, Bool.false_eq_true, if_false]

theorem injectNow_good (h : s.bundleBad c b true = false) : s.injectNow c b = s.append' c b := by
  rw [State.injectNow, h]
  rfl

theorem injectNow_bad (h : s.bundleBad c b true = true) : s.injectNow c b = s.hopErr (some c) Code.fBundle (c / 16 + 256) := by
  rw [State.injectNow, h, if_pos rfl]

theorem any_injHeld : (s.hop.injHeld.any fun q => q.1 == c) = false ↔ ∀ q ∈ s.hop.injHeld, q.1 ≠ c := by
  simp

theorem fwOwned_of_good (h : s.bundleBad c b true = false) : (s.cx c).cfg.fwOwned = true := by
  obtain ⟨-, -, -, -, howned, -⟩ := bundleBad_eq_false_iff.1 h
  exact howned

/-- A good injection with room, behind no other of its context. -/
theorem takeInject_room (h : s.bundleBad c b true = false) (hf : (s.cx c).fits (bNw b) = true) (hn : ∀ q ∈ s.hop.injHeld, q.1 ≠ c) :
    s.takeInject c b = (s.tellSluice c).append' c b := by
  simp only [State.takeInject, fwOwned_of_good h, h, any_injHeld.2 hn, hf, if_true, Bool.not_true, Bool.or_self, Bool.and_false,
    Bool.false_eq_true, if_false]
  exact injectNow_good h

/-- A good injection without room, or behind another of its context. -/
theorem takeInject_full (h : s.bundleBad c b true = false) (hf : ¬ ((s.cx c).fits (bNw b) = true ∧ ∀ q ∈ s.hop.injHeld, q.1 ≠ c)) :
    s.takeInject c b = ({ s.tellSluice c with hop := { s.hop with injHeld := s.hop.injHeld ++ [(c, b)] } } : State).wakeLadder (51 + c / 16) := by
  have hwait : ((s.hop.injHeld.any fun q => q.1 == c) || !(s.cx c).fits (bNw b)) = true := by
    rw [Bool.or_eq_true, Bool.not_eq_true', ← Bool.not_eq_false, any_injHeld, ← Bool.not_eq_true, ← not_and_or, and_comm]
    exact hf
  simp only [State.takeInject, fwOwned_of_good h, h, hwait, if_true, Bool.not_false, Bool.and_self]
  rfl

theorem takeInject_bad (h : s.bundleBad c b true = true) :
    s.takeInject c b = (if (s.cx c).cfg.fwOwned then s.tellSluice c else s).hopErr (some c) Code.fBundle (c / 16 + 256) := by
  simp only [State.takeInject, h, Bool.not_true, Bool.false_and, Bool.false_eq_true, if_false]
  apply injectNow_bad
  split <;> exact h

/-- The Hopper takes an injection at once, or the management port keeps it while the Hopper wakes (R542). -/
theorem inject_taken {v : Nat} (h : s.isOn 48 = true ∧ ∀ q ∈ s.hop.injWait, q.1 ≠ fld v 0 6) :
    s.inject v = s.takeInject (fld v 0 6) s.hop.bundle := by
  obtain ⟨hon, hnone⟩ := h
  have hwait : (s.hop.injWait.any fun q => q.1 == fld v 0 6) = false := by simpa using hnone
  simp only [State.inject, hon, hwait, Bool.not_true, Bool.or_self, Bool.false_eq_true, if_false]

theorem hop_wakeDom {d : Nat} : (s.wakeDom d).hop = s.hop := by
  obtain ⟨q, hq⟩ := wakeDom_only s d
  rw [hq]

theorem inject_waits {v : Nat} (h : ¬ (s.isOn 48 = true ∧ ∀ q ∈ s.hop.injWait, q.1 ≠ fld v 0 6)) :
    s.inject v = { s.wakeDom 48 with hop := { s.hop with injWait := s.hop.injWait ++ [(fld v 0 6, s.hop.bundle)] } } := by
  have hwait : (!s.isOn 48 || s.hop.injWait.any fun q => q.1 == fld v 0 6) = true := by
    rw [not_and_or] at h
    simpa using h
  simp only [State.inject, hwait, if_true, hop_wakeDom]

end held

/-- Settles O36: what leaves a buffer, what an INJECT does by its bundle, its room and the Hopper's state, and what waits. -/
theorem heldAndInjected : Obligations.HeldAndInjected := by
  unfold Obligations.HeldAndInjected
  refine ⟨fun s ch b rest hon hh hw => ⟨fun hf he hfit => ?enters, fun hf => ?fenced⟩,
    fun s v ho => ⟨fun ht hg hfit hfree => ?now, fun ht hg => ?bad, fun ht hg hfull => ?held, fun ht => ?waits⟩,
    fun s ch c b rest hon hc hg hfit => ⟨fun hw hh hi => ?injHeld, fun hi hn => ?injWait⟩⟩
  case enters =>
    rw [exec_heldBundleRelease_held hon hh hw (leaves_head (.inr ⟨he, hfit⟩)), hf]
    rfl
  case fenced =>
    rw [exec_heldBundleRelease_held hon hh hw (leaves_head (.inl hf)), hf]
    rfl
  case now =>
    rw [exec_of_mgt rfl ho, inject_taken ht, takeInject_room (bundleBad_eq_false_iff.2 hg) hfit hfree]
    rfl
  case bad =>
    have hb := Bool.eq_true_of_not_eq_false (mt bundleBad_eq_false_iff.1 hg)
    rw [exec_of_mgt rfl ho, inject_taken ht, takeInject_bad hb]
    rfl
  case held =>
    rw [exec_of_mgt rfl ho, inject_taken ht, takeInject_full (bundleBad_eq_false_iff.2 hg) hfull]
    rfl
  case waits => rw [exec_of_mgt rfl ho, inject_waits ht]
  case injHeld =>
    have hnow := injectNow_good (s := { s with hop := { s.hop with injHeld := rest } }) hg
    rw [exec_heldBundleRelease_injHeld hon hh hi hw (injLeaves_head hc hfit), hnow]
  case injWait =>
    have htaken := takeInject_room (s := { s with hop := { s.hop with injWait := rest } }) hg hfit hn
    rw [exec_heldBundleRelease_injWait hon hi hc, htaken]
    rfl

end Sys2Proof.Machine
end

section
/-!
SUPPORT. A Class A instruction at the Sluice (R192, R403, R412 to R414, R427): the tests in their order, each with its reason, and what a
refusal and an acceptance do.
-/

namespace Sys2Proof.Machine

/-! ### The tests of the reservation (R412) -/

section tests
variable {s : State} {i : Inst} {k : Nat} {ents : List Nat} {charge : Nat} {x : Resv} (hx : s.rv k = x)

/-- The entry takes no instruction: it is not admitted, its admission has not taken effect, or it is being released. -/
def Resv.Closed (x : Resv) : Prop := x.state ≠ 1 ∨ x.pending = true ∨ x.releasing = true

/-- A core of the instruction is not the reservation's. -/
def Resv.Outside (x : Resv) (i : Inst) : Prop :=
  ∃ g ∈ i.cores, bitOf x.cfg.bays (g / 64) = false ∨ bitOf x.cfg.cores (g % 64) = false

/-- A granule lies behind a port of which the reservation has no share. -/
def Resv.NoPort (x : Resv) (ents : List Nat) : Prop := ∃ a ∈ ents, x.bw (homePort a) = 0

/-- USED of the open window. -/
def Resv.usedNow (x : Resv) : Nat := if x.opened = true then x.used else 0

/-- The offset into the open window (R404). -/
def State.offset (s : State) (x : Resv) : Nat := if x.opened = true then s.time.cclk - x.start else 0

theorem Resv.closed_iff : (decide (x.state ≠ 1) || x.pending || x.releasing) = true ↔ x.Closed := by
  simp [Resv.Closed, or_assoc]

theorem Resv.outside_iff : (i.cores.any fun g => !(bitOf x.cfg.bays (g / 64) && bitOf x.cfg.cores (g % 64))) = true ↔ x.Outside i := by
  simp [Resv.Outside, or_iff_not_imp_left]

theorem Resv.noPort_iff : (ents.any fun a => decide (x.bw (homePort a) = 0)) = true ↔ x.NoPort ents := by
  simp [Resv.NoPort]

include hx

/-- The first test of R412 that fails gives the reason. -/
theorem budget_reason {reason : Nat} (h : (reason = 0x10 ∧ x.Closed) ∨ (reason = 0x13 ∧ ¬ x.Closed ∧ x.Outside i) ∨
    (reason = 0x14 ∧ ¬ x.Closed ∧ ¬ x.Outside i ∧ x.NoPort ents) ∨
    (reason = 0x11 ∧ ¬ x.Closed ∧ ¬ x.Outside i ∧ ¬ x.NoPort ents ∧ x.cfg.w < x.usedNow + charge) ∨
    (reason = 0x12 ∧ ¬ x.Closed ∧ ¬ x.Outside i ∧ ¬ x.NoPort ents ∧ x.usedNow + charge ≤ x.cfg.w ∧ x.cfg.d < s.offset x + x.rt)) :
    s.budget i (some k) ents charge = some reason := by
  subst hx
  dsimp only [State.budget]
  obtain ⟨rfl, hc⟩ | ⟨rfl, hc, ho⟩ | ⟨rfl, hc, ho, hp⟩ | ⟨rfl, hc, ho, hp, hw⟩ | ⟨rfl, hc, ho, hp, hw, hd⟩ := h
  · rw [if_pos (Resv.closed_iff.2 hc)]
  all_goals rw [if_neg (mt Resv.closed_iff.1 hc)]
  · rw [if_pos (Resv.outside_iff.2 ho)]
  all_goals rw [if_neg (mt Resv.outside_iff.1 ho)]
  · rw [if_pos (Resv.noPort_iff.2 hp)]
  all_goals rw [if_neg (mt Resv.noPort_iff.1 hp)]
  · exact if_pos hw
  · exact (if_neg hw.not_gt).trans (if_pos hd)

theorem budget_met (hc : ¬ x.Closed) (ho : ¬ x.Outside i) (hp : ¬ x.NoPort ents) (hw : x.usedNow + charge ≤ x.cfg.w)
    (hd : s.offset x + x.rt ≤ x.cfg.d) : s.budget i (some k) ents charge = none := by
  subst hx
  dsimp only [State.budget]
  rw [if_neg (mt Resv.closed_iff.1 hc), if_neg (mt Resv.outside_iff.1 ho), if_neg (mt Resv.noPort_iff.1 hp)]
  exact (if_neg hw.not_gt).trans (if_neg hd.not_gt)

end tests

/-- Opening a window takes no time. -/
theorem time_openWindow (s : State) (c : Nat) : (s.openWindow c).time = s.time := by
  unfold State.openWindow
  split
  · rfl
  · split <;> rfl

/-! ### What the Sluice decides (R192, R413, R414, R427) -/

/-- The granule entries that an instruction is charged for: none where its length is zero (R357, R359). -/
def State.chargedEnts (s0 : State) (r : TRow) (j : Inst) (zero : Bool) : List Nat :=
  if zero = true then [] else granEntries none (r.addrs s0 j)

/-- HOLD_A where R414 adds it. -/
def State.holdCharge (s0 : State) (j : Inst) : Nat :=
  if (j.opc = 0 ∨ j.opc = 1) ∧ s0.sluice.holdA ≠ 0 ∧ j.roleBound (LoopE.of j.l) 0 < 32 then s0.sluice.holdA else 0

/-- The charge of R413 and R414 under a reservation. -/
def State.charge (s0 : State) (r : TRow) (j : Inst) (x : Resv) (zero : Bool) : Nat :=
  if zero = true then 0 else r.cost s0 j + s0.cMem x (s0.chargedEnts r j zero) (r.dep s0 j) + s0.holdCharge j

theorem holdCharge_eq (s0 : State) (j : Inst) :
    (if (j.opc = 0 || j.opc = 1) && s0.sluice.holdA ≠ 0 && j.roleBound (LoopE.of j.l) 0 < 32 then s0.sluice.holdA else 0) =
      s0.holdCharge j := by
  simp [State.holdCharge, and_assoc]

/-- An instruction under its reservation, with its cost. -/
def Inst.under (j : Inst) (k cost : Nat) : Inst := { j with resv := some k, cost := cost }

section decide
variable {s s0 : State} {r : TRow} {j : Inst} {k : Nat} (hA : j.cls = 1)
include hA

/-- While a lower divider waits, Class A holds at issue (R427). -/
theorem sluiceDecide_decrease (hd : s.pwr.divPend = true) :
    s.sluiceDecide r j = s.onCx j.ctx fun x => { x with hold := .decrease } := by
  rw [State.sluiceDecide, if_neg (not_not.2 hA), if_pos hd]

variable (hd : s.pwr.divPend = false) (hs0 : s.openWindow j.ctx = s0)
include hd hs0

/-- A context that has no reservation entry is refused. -/
theorem sluiceDecide_noResv (hk : s0.resvOf j.ctx = none) : s.sluiceDecide r j =
    (s0.onSluice fun q => { q with budget := holdAdd q.budget 1 }).refuseTensor j.ctx j.w Code.budget 1 j.seqid := by
  simp only [State.sluiceDecide, if_neg (not_not.2 hA), hd, hs0, hk, State.budget, Bool.false_eq_true, if_false]

variable (hk : s0.resvOf j.ctx = some k)
include hk

/-- A test that fails refuses the instruction, and LASTBUD takes its reason. -/
theorem sluiceDecide_refused {reason : Nat}
    (hb : s0.budget j (some k) (s0.chargedEnts r j (r.zero s j)) (s0.charge r j (s0.rv k) (r.zero s j)) = some reason) :
    s.sluiceDecide r j = ((s0.onSluice fun q => { q with budget := holdAdd q.budget 1 }).onRv k fun y => { y with lastbud := reason }).refuseTensor
      j.ctx j.w Code.budget 1 j.seqid := by
  simp only [State.charge, State.chargedEnts] at hb
  simp only [State.sluiceDecide, if_neg (not_not.2 hA), hd, hs0, hk, holdCharge_eq, hb, Bool.false_eq_true, if_false]

variable (hb : s0.budget j (some k) (s0.chargedEnts r j (r.zero s j)) (s0.charge r j (s0.rv k) (r.zero s j)) = none)
  {zero : Bool} (hz : r.zero s j = zero)
include hb hz

/-- One that meets the tests is taken on; one whose cost counts from a later event is not charged yet (R192). -/
theorem sluiceDecide_late (hl : r.late j = true) :
    s.sluiceDecide r j = s0.takeOn r (j.under k (s0.charge r j (s0.rv k) (r.zero s j))) zero := by
  subst hz
  simp only [State.charge, State.chargedEnts] at hb ⊢
  simp only [State.sluiceDecide, if_neg (not_not.2 hA), hd, hs0, hk, holdCharge_eq, hb, hl, Bool.false_eq_true, if_false, if_true]
  rfl

theorem sluiceDecide_charged (hl : r.late j = false) : s.sluiceDecide r j =
    (s0.countCost (j.under k (s0.charge r j (s0.rv k) (r.zero s j))) k).1.takeOn r
      (s0.countCost (j.under k (s0.charge r j (s0.rv k) (r.zero s j))) k).2 zero := by
  subst hz
  simp only [State.charge, State.chargedEnts] at hb ⊢
  simp only [State.sluiceDecide, if_neg (not_not.2 hA), hd, hs0, hk, holdCharge_eq, hb, hl, Bool.false_eq_true, if_false]
  rfl

end decide

/-- An instruction that nothing refuses or holds before the Sluice is decided there. -/
theorem exec_tensor_decided {s : State} {i : Instr} {r : TRow} {c : Nat} {w : Long} (hrow : tensorRow i = some (r, c, w)) (hi : i.wf = true)
    (h : s.Issues r c w) (hc : s.commonCodes r (s.atIssue r c w) ++ r.checks s (s.atIssue r c w) = [])
    (hd : s.offDoms r (s.atIssue r c w) = []) (hh : r.hold s (s.atIssue r c w) = none) :
    exec i s = .next (s.sluiceDecide r (s.atIssue r c w)) := by
  obtain ⟨he, hw, ho, hr⟩ := tensorRow_issue hrow hi s
  rw [he, issueTensor_checked hw hr (List.contains_iff_mem.1 ho) h hc, finish_free hd hh]

/-- Settles O26: what the Sluice decides, by the divider, the reservation entry and the tests of R412. -/
theorem classABudget : Obligations.ClassABudget := by
  unfold Obligations.ClassABudget
  intro s i r c w hrow hi h j hc hd hh hA hctx hword s0 zero ents refuses
  rw [exec_tensor_decided hrow hi h hc hd hh]
  have hs0 : s.openWindow j.ctx = s0 := by rw [hctx]
  refine ⟨fun hp => ?held, fun hp hk => ?noResv, fun k hp hk => ?entry⟩
  case held => rw [sluiceDecide_decrease hA hp, hctx]
  case noResv =>
    rw [sluiceDecide_noResv hA hp hs0 (hctx ▸ hk), hctx, hword]
  case entry =>
    rw [← hctx] at hk
    intro x holdA cost used past closed outside noPort
    have hpast : past = s0.offset x := by rw [State.offset, time_openWindow]
    rw [hpast]
    refine ⟨fun reason hreason => ?refused, fun hopen hin hport hw' hd' => ?accepted⟩
    case refused =>
      rw [sluiceDecide_refused hA hp hs0 hk (budget_reason rfl hreason), hctx, hword]
    case accepted =>
      intro s1 j1 j2
      have hb := budget_met rfl hopen hin hport hw' hd'
      refine ⟨fun hz hl => ?_, fun hz hl => ?_, fun hz hl => ?_, fun hz hl => ?_⟩
      · exact congrArg Host.Outcome.next (sluiceDecide_charged hA hp hs0 hk hb hz hl)
      · exact congrArg Host.Outcome.next (sluiceDecide_late hA hp hs0 hk hb hz hl)
      · rw [sluiceDecide_charged hA hp hs0 hk hb hz hl, ← hctx, ← hword, ← hA]
        rfl
      · rw [sluiceDecide_late hA hp hs0 hk hb hz hl, ← hctx, ← hword, ← hA]
        rfl

end Sys2Proof.Machine
end

section
/-!
SUPPORT. ADMIT (R401, R402, R405 to R410, R465): the checks in the order of R410, each in the words of its rule, and what a refusal and
an admission do.
-/

namespace Sys2Proof.Machine

theorem find?_cons_eq_ite {α : Type} (p : α → Bool) (a : α) (l : List α) :
    (a :: l).find? p = if p a = true then some a else l.find? p := by
  rw [List.find?_cons]
  cases p a <;> rfl

/-- The first of a list that meets a test, where those that stand before it do not. -/
theorem find?_eq_some_of_takeWhile {α : Type} [DecidableEq α] {p : α → Bool} {k : α} (hp : p k = true) : ∀ {l : List α} (_ : k ∈ l)
    (_ : ∀ j ∈ l.takeWhile (· != k), ¬ p j = true), l.find? p = some k
  | a :: l, hk, h => by
    by_cases ha : a = k
    · rw [ha, List.find?_cons_of_pos hp]
    · have htake : (a :: l).takeWhile (· != k) = a :: l.takeWhile (· != k) := List.takeWhile_cons_of_pos (by simpa using ha)
      rw [htake, List.forall_mem_cons] at h
      rw [List.find?_cons_of_neg h.1]
      exact find?_eq_some_of_takeWhile hp ((List.mem_cons.1 hk).resolve_left (Ne.symm ha)) h.2

/-! ### The checks of an admission (R401, R402, R405 to R409) -/

/-- The order of R410. -/
def admitOrder : List Nat := [1, 2, 3, 4, 9, 5, 6, 7, 8]

/-- Whether the check of a reason fails; the codes are those of R431. -/
def State.admitFails (s : State) (r : Nat) : Nat → Bool :=
  let c := (s.rv r).staged
  let adm := s.admittedList.map Prod.snd
  let bays := bitsSet 32 c.bays
  let me := Load.of r c s.sluice.nextAseq
  fun k => match k with
  | 1 => c.badField
  | 2 => s.sluice.lMem == 0 || adm.any fun x => x.cfg.ctx == c.ctx
  | 3 => bays.any fun b => !s.present b || Map.get false s.prot.bayF b || !(bitOf s.sluice.aen b && bitOf s.sluice.aenEff b)
  | 4 => (bays.any fun b => (bitsSet 64 c.cores).any fun k => Map.get false s.prot.coreF (64 * b + k)) ||
      adm.any fun x => (x.cfg.bays &&& c.bays) != 0 && (x.cfg.cores &&& c.cores) != 0
  | 9 => decide (divOf c.maxdiv < divOf s.pwr.cdivEff)
  | 5 => bays.any fun b => !utilOk s.sluice.uCap (me :: s.loads b)
  | 6 => (List.range 32).any fun p => decide (s.sluice.uCap * 512 < 1000 * ((adm.map fun x => x.bw p).sum + 4 * Map.get 0 c.portsh p))
  | 7 => (bitsSet 64 c.links).any fun l => decide (16 < c.lcred + ((adm.filter fun x => bitOf x.cfg.links l).map fun x => x.cfg.lcred).sum)
  | _ => bays.any fun b => !respOk 176 (me :: s.loads b)

section checks
variable {s : State} {r : Nat}

/-- The reason of a refusal is that of the first check that fails. -/
theorem admitReason_eq_find? : s.admitReason r = admitOrder.find? (s.admitFails r) := by
  simp only [admitOrder, find?_cons_eq_ite, List.find?_nil, State.admitFails, State.admitReason, Bool.or_eq_true, ite_or, decide_eq_true_eq]
  rfl

/-- A field outside its range (R401). -/
theorem admitFails_field : (let c := (s.rv r).staged
    c.bays = 0 ∨ c.cores = 0 ∨ c.w = 0 ∨ c.d < c.w ∨ c.p < c.d ∨ 8000000 < c.p ∨ c.d < 8000 ∨ 16 < c.lcred) ↔ s.admitFails r 1 = true := by
  simp [State.admitFails, ResvCfg.badField, or_assoc]

/-- The latency of the memory is not set, or the context has a reservation (R409). -/
theorem admitFails_context : (s.sluice.lMem = 0 ∨ ∃ x ∈ s.admittedList.map Prod.snd, x.cfg.ctx = (s.rv r).staged.ctx) ↔
    s.admitFails r 2 = true := by
  simp only [State.admitFails, Bool.or_eq_true, List.any_eq_true, beq_iff_eq]

/-- A bay that is absent, fenced or not enabled for Class A (R409). -/
theorem admitFails_bays : (∃ b ∈ bitsSet 32 (s.rv r).staged.bays, s.present b = false ∨ Map.get false s.prot.bayF b = true ∨
    bitOf s.sluice.aen b = false ∨ bitOf s.sluice.aenEff b = false) ↔ s.admitFails r 3 = true := by
  simp only [State.admitFails, List.any_eq_true, Bool.or_eq_true, Bool.not_eq_true', Bool.and_eq_false_iff, or_assoc]

/-- A core that is fenced, or that an admitted reservation has (R402, R409). -/
theorem admitFails_cores : (let c := (s.rv r).staged
    (∃ b ∈ bitsSet 32 c.bays, ∃ k ∈ bitsSet 64 c.cores, Map.get false s.prot.coreF (64 * b + k) = true) ∨
      ∃ x ∈ s.admittedList.map Prod.snd, x.cfg.bays &&& c.bays ≠ 0 ∧ x.cfg.cores &&& c.cores ≠ 0) ↔ s.admitFails r 4 = true := by
  simp only [State.admitFails, List.any_eq_true, Bool.or_eq_true, Bool.and_eq_true, bne_iff_ne]

theorem admitFails_divider : divOf (s.rv r).staged.maxdiv < divOf s.pwr.cdivEff ↔ s.admitFails r 9 = true := by
  simp only [State.admitFails, decide_eq_true_eq]

/-- R405 fails on a bay. -/
theorem admitFails_ucap : (∃ b ∈ bitsSet 32 (s.rv r).staged.bays, (s.sluice.uCap : ℚ) <
    1000 * ((((s.rv r).staged.w, (s.rv r).staged.p) :: (s.loads b).map fun x => (x.w, x.p)).map fun x => (x.1 : ℚ) / x.2).sum) ↔
    s.admitFails r 5 = true := by
  simp [State.admitFails, utilOk, Load.of, Function.comp_def]

/-- R407 fails at a port. -/
theorem admitFails_port : (∃ p, p < 32 ∧ s.sluice.uCap * 512 <
    1000 * (((s.admittedList.map Prod.snd).map fun x => 4 * Map.get 0 x.cfg.portsh p).sum + 4 * Map.get 0 (s.rv r).staged.portsh p)) ↔
    s.admitFails r 6 = true := by
  simp only [State.admitFails, List.any_eq_true, List.mem_range, decide_eq_true_eq]
  rfl

/-- R408 fails on a link. -/
theorem admitFails_link : (∃ l ∈ bitsSet 64 (s.rv r).staged.links, 16 < (s.rv r).staged.lcred +
    (((s.admittedList.map Prod.snd).filter fun x => bitOf x.cfg.links l).map fun x => x.cfg.lcred).sum) ↔ s.admitFails r 7 = true := by
  simp only [State.admitFails, List.any_eq_true, decide_eq_true_eq]

/-- R406 fails on a bay. -/
theorem admitFails_response : (∃ b ∈ bitsSet 32 (s.rv r).staged.bays,
    respOk 176 (Load.of r (s.rv r).staged s.sluice.nextAseq :: s.loads b) = false) ↔ s.admitFails r 8 = true := by
  simp only [State.admitFails, List.any_eq_true, Bool.not_eq_true']

theorem admitReason_of_first {k : Nat} (hk : k ∈ admitOrder) (hf : s.admitFails r k = true)
    (h : ∀ j ∈ admitOrder.takeWhile (· != k), ¬ s.admitFails r j = true) : s.admitReason r = some k := by
  rw [admitReason_eq_find?, find?_eq_some_of_takeWhile hf hk h]

theorem admitReason_of_none (h : ∀ k ∈ admitOrder, ¬ s.admitFails r k = true) : s.admitReason r = none := by
  rw [admitReason_eq_find?, List.find?_eq_none.2 h]

end checks

/-! ### The row -/

section row
variable {s : State} {r : Nat}

/-- An admitted entry ignores ADMIT. -/
theorem admitRes_admitted (h : (s.rv r).state = 1) : s.admitRes r = s := if_pos h

theorem admitRes_refused {k : Nat} (h : (s.rv r).state ≠ 1) (hk : s.admitReason r = some k) :
    s.admitRes r = s.onRv r fun y => { y with state := 3, reason := k } := by
  simp only [State.admitRes, if_neg h, hk]

theorem admitRes_taken (h : (s.rv r).state ≠ 1) (hk : s.admitReason r = none) : s.admitRes r =
    let s1 := s.onRv r fun y =>
      { y with cfg := y.staged, state := 1, pending := true, opened := false, used := 0, reason := 0, releasing := false,
               aseq := s.sluice.nextAseq }
    let s2 := s1.onSluice fun q => { q with nextAseq := (q.nextAseq + 1) % 2 ^ 32 }
    let s3 := (s.rv r).staged.doms.foldl (fun t d => if t.isOn d then t else t.wakeDom d) (s2.setRt (bitsSet 32 (s.rv r).staged.bays) none 16)
    (bitsSet 64 (s.rv r).staged.links).foldl State.shortLink s3 := by
  simp only [State.admitRes, if_neg h, hk]

theorem exec_resAdmit {r : Fin 32} (h : s.Open (some 48)) : exec (.resAdmit r) s = .next (s.admitRes r).wrote :=
  exec_of_mgt (f := fun s => s.admitRes r) rfl h

end row

/-- Settles O46: ADMIT by the entry's state, and by the first check that fails in the order of R410. -/
theorem admission : Obligations.Admission := by
  unfold Obligations.Admission
  intro s r ho c adm onBay fails order
  have hfails : ∀ k ∈ order, fails k ↔ s.admitFails r k = true := by
    simp only [order, List.forall_mem_cons]
    exact ⟨admitFails_field, admitFails_context, admitFails_bays, admitFails_cores, admitFails_divider, admitFails_ucap, admitFails_port,
      admitFails_link, admitFails_response, List.forall_mem_nil _⟩
  rw [exec_resAdmit ho]
  refine ⟨fun h => ?ignored, fun k hk h hf hfirst => ?refused, fun h hpass => ?taken⟩
  case ignored => rw [admitRes_admitted h]
  case refused =>
    have hbefore : ∀ j ∈ order.takeWhile (· != k), ¬ s.admitFails r j = true := fun j hj =>
      mt (hfails j ((List.takeWhile_sublist _).subset hj)).2 (hfirst j hj)
    rw [admitRes_refused h (admitReason_of_first hk ((hfails k hk).1 hf) hbefore)]
  case taken =>
    rw [admitRes_taken h (admitReason_of_none fun k hk => mt (hfails k hk).2 (hpass k hk))]

end Sys2Proof.Machine
end

section
/-!
SUPPORT. What a link's receiver does with a packet (R467, R468), one lemma per outcome: not listened to, misframed, framed; and of a
framed sequenced one by its number.
-/

namespace Sys2Proof.Machine

/-- Link `l` listens: it trains or is UP on a lane that is up, its group is on, and it does not wait for a SYNC beat. -/
def State.Listens (s : State) (l : Nat) : Prop :=
  s.linkOn l = true ∧ ((s.link l).st = 1 ∨ (s.link l).st = 2) ∧ (s.link l).up = true ∧ (s.link l).ignoring = false

/-- The payload bytes that a header announces: those of a DATA packet (R461). -/
def Hdr.payLen (h : Hdr) : Nat := if h.typ = 1 then h.len else 0

/-- The payload of a packet. -/
def payOf (b : List Byte) : List Byte := (b.drop 16).take (hdrOf b).payLen

/-- A packet without a framing error (R467, R468): its fields are those of its TYPE, and its length and CRC are right. -/
def Framed (b : List Byte) (err : Bool) : Prop :=
  err = false ∧ badPacket b = false ∧ b.length = 20 + (hdrOf b).payLen ∧
    crcBytes (b.take (16 + (hdrOf b).payLen)) = (b.drop (16 + (hdrOf b).payLen)).take 4

/-- A framing error is counted and NAKed, and what follows is ignored. -/
def State.misframed (s : State) (l : Nat) : State := s.onLink l fun y =>
  { y with frameErrs := holdAdd y.frameErrs 1, nakOwed := true, ctlDue := true, ignoring := true }

/-- The packet expected is counted, and its report falls due within 64 cycles (R467). -/
def State.tookPkt (s : State) (l : Nat) : State := s.onLink l fun y =>
  { y with expSeq := (y.expSeq + 1) % 2 ^ 16, rxPkts := holdAdd y.rxPkts 1,
           repSince := if y.repSince = 0 then s.time.xclk + 1 else y.repSince }

section receiver
variable {s : State} {typ l : Nat} {b : List Byte} {err : Bool} {f : State → Hdr → List Byte → State}

theorem listens_iff : (!s.linkOn l || ((s.link l).st != 1 && (s.link l).st != 2) || !(s.link l).up || (s.link l).ignoring) = false ↔
    s.Listens l := by
  simp only [Bool.or_eq_false_iff, Bool.not_eq_false', Bool.and_eq_false_iff, bne_eq_false_iff_eq, State.Listens, and_assoc]

theorem framed_iff : (err || badPacket b || b.length != 20 + (hdrOf b).payLen ||
    crcBytes (b.take (16 + (hdrOf b).payLen)) != (b.drop (16 + (hdrOf b).payLen)).take 4) = false ↔ Framed b err := by
  simp only [Bool.or_eq_false_iff, bne_eq_false_iff_eq, Framed, and_assoc]

theorem rxPacket_deaf (h : ¬ s.Listens l) : rxPacket typ l b err s f = .next s := by
  rw [← listens_iff, Bool.not_eq_false] at h
  rw [rxPacket, if_pos h, idle]

theorem rxPacket_misframed (h : s.Listens l) (hf : ¬ Framed b err) : rxPacket typ l b err s f = .next (s.misframed l) := by
  rw [← framed_iff, Bool.not_eq_false] at hf
  rw [rxPacket, if_neg (Bool.eq_false_iff.1 (listens_iff.2 h))]
  exact if_pos hf

theorem rxPacket_framed (h : s.Listens l) (hf : Framed b err) (ht : (hdrOf b).typ = typ) :
    rxPacket typ l b err s f = .next (f s (hdrOf b) (payOf b)) := by
  subst ht
  rw [rxPacket, if_neg (Bool.eq_false_iff.1 (listens_iff.2 h))]
  refine (if_neg (Bool.eq_false_iff.1 (framed_iff.2 hf))).trans ?_
  exact if_neg (by simp)

/-! ### Sequenced packets (R464, R468, R470) -/

/-- How far the number of a packet lies past the one expected. -/
def State.ahead (s : State) (l : Nat) (h : Hdr) : Nat := (h.seq + 2 ^ 16 - (s.link l).expSeq) % 2 ^ 16

/-- A packet's cells are freed. -/
def State.freePkt (s : State) (l : Nat) (b : List Byte) : State := s.freeCells l ((hdrOf b).vcf % 8) (cellsOf (payOf b).length)

section framed
variable (h : s.Listens l) (hf : Framed b err) (ht : (hdrOf b).typ = typ)
include h hf ht

theorem rxSequenced_training (hst : (s.link l).st = 1) : rxSequenced typ l b err s f = .next (s.freePkt l b) := by
  rw [rxSequenced, rxPacket_framed h hf ht]
  simp only [hst]
  rfl

/-- The packet expected has the effect of its TYPE. -/
theorem rxSequenced_expected (hst : (s.link l).st = 2) (hd : s.ahead l (hdrOf b) = 0) : rxSequenced typ l b err s f =
    .next (f (if typ = 1 ∧ 3 ≤ (hdrOf b).vcf % 8 ∧ s.isOn 50 = false then s.tookPkt l else (s.tookPkt l).freePkt l b)
      (hdrOf b) (payOf b)) := by
  unfold State.ahead at hd
  rw [rxSequenced, rxPacket_framed h hf ht]
  simp only [hst, hd, bne_self_eq_false, Bool.false_eq_true, if_false, if_true]
  simp only [Bool.and_eq_true, decide_eq_true_eq, Bool.not_eq_true', and_assoc]
  rfl

/-- An old packet is acknowledged again. -/
theorem rxSequenced_old (hst : (s.link l).st = 2) (hd : 2 ^ 15 ≤ s.ahead l (hdrOf b)) : rxSequenced typ l b err s f =
    .next ((s.freePkt l b).onLink l fun y => { y with ctlDue := true }) := by
  unfold State.ahead at hd
  have h0 : ¬ (((hdrOf b).seq + 2 ^ 16 - (s.link l).expSeq) % 2 ^ 16 = 0) := by omega
  rw [rxSequenced, rxPacket_framed h hf ht]
  simp only [hst, h0, not_lt.2 hd, bne_self_eq_false, Bool.false_eq_true, if_false, decide_false, Bool.or_false]
  rfl

/-- A new packet is NAKed. -/
theorem rxSequenced_new (hst : (s.link l).st = 2) (h0 : 0 < s.ahead l (hdrOf b)) (hd : s.ahead l (hdrOf b) < 2 ^ 15) :
    rxSequenced typ l b err s f = .next ((s.freePkt l b).onLink l fun y => { y with ctlDue := true, nakOwed := true }) := by
  unfold State.ahead at h0 hd
  rw [rxSequenced, rxPacket_framed h hf ht]
  simp only [hst, h0.ne', hd, bne_self_eq_false, Bool.false_eq_true, if_false, decide_true, Bool.or_true]
  rfl

end framed

/-- The rows of the four sequenced TYPEs, each with what the packet expected does. -/
theorem sequencedRows {l : Fin 64} {i : Instr} {g : State → State}
    (hi : (i, typ, g) ∈ [(Instr.dataPacket l b err, 1, fun t =>
        if 3 ≤ (hdrOf b).vcf % 8 then t.toWeir l (hdrOf b) (payOf b) else t.ringData l (hdrOf b) (payOf b)),
      (.ready l b err, 3, fun t => t.gotReady l (hdrOf b).job (hdrOf b).step), (.cack l b err, 4, fun t => t.gotCack (hdrOf b)),
      (.nack l b err, 5, fun t => t.gotNack (hdrOf b))]) :
    ∃ f, exec i s = rxSequenced typ l b err s f ∧ ∀ t, f t (hdrOf b) (payOf b) = g t := by
  simp only [List.mem_cons, Prod.mk.injEq, List.not_mem_nil, or_false] at hi
  obtain ⟨rfl, rfl, rfl⟩ | ⟨rfl, rfl, rfl⟩ | ⟨rfl, rfl, rfl⟩ | ⟨rfl, rfl, rfl⟩ := hi
  · exact ⟨fun t h pay => if 3 ≤ h.vcf % 8 then t.toWeir l h pay else t.ringData l h pay, rfl, fun _ => rfl⟩
  · exact ⟨fun t h _ => t.gotReady l h.job h.step, rfl, fun _ => rfl⟩
  · exact ⟨fun t h _ => t.gotCack h, rfl, fun _ => rfl⟩
  · exact ⟨fun t h _ => t.gotNack h, rfl, fun _ => rfl⟩

end receiver

/-- Settles O41: each row is the shared receiver of sequenced packets, whose outcomes are the clauses. -/
theorem sequencedPackets : Obligations.SequencedPackets := by
  unfold Obligations.SequencedPackets
  intro s l b err i typ g h pay hi x listens n framed d took dropped
  obtain ⟨f, hrow, hf⟩ := sequencedRows (s := s) hi
  rw [hrow]
  refine ⟨rxPacket_deaf, rxPacket_misframed, fun hl hb ht => rxSequenced_training hl hb ht, fun hl hb ht hst hd => ?expected,
    fun hl hb ht => rxSequenced_old hl hb ht, fun hl hb ht => rxSequenced_new hl hb ht⟩
  case expected =>
    rw [rxSequenced_expected hl hb ht hst hd, hf]
    rfl

end Sys2Proof.Machine
end

section
/-!
SUPPORT. LLCTL and INIT on a link that listens (R462, R464, R470): what LLCTL acknowledges and returns, the replay that its NAK bit starts
(R469), and what an INIT gives.
-/

namespace Sys2Proof.Machine

section control
variable {s : State} {b : List Byte}

/-- A packet of a TYPE without payload is 20 bytes long and ends with its CRC. -/
theorem framed_of_short (ht : (hdrOf b).typ ≠ 1) (hbad : badPacket b = false) (hlen : b.length = 20)
    (hcrc : crcBytes (b.take 16) = b.drop 16) : Framed b false := by
  have hn : (hdrOf b).payLen = 0 := if_neg ht
  refine ⟨rfl, hbad, by rw [hn, hlen], ?_⟩
  rw [hn, hcrc, List.take_of_length_le (by simp [hlen])]

/-- When a link becomes UP (R470). -/
theorem goUp_eq (x : Link) : x.goUp = if x.st = 1 ∧ x.seenInit = true ∧ x.initAcked = true then
    { x with st := 2, nextSeq := 0, expSeq := 0, unacked := [], replay := [], repCount := 0, held := [], vc0Q := [], initDue := false }
    else x := by
  simp only [Link.goUp, Bool.and_eq_true, decide_eq_true_eq, and_assoc]

/-! ### Replay (R469) -/

theorem startReplay_again {l : Nat} (h : (s.link l).repCount < max 1 (s.group (l / 8)).retryMax) : s.startReplay l = s.onLink l fun y =>
    { y with repCount := y.repCount + 1, replays := holdAdd y.replays 1, replayDue := true, reread := none, ackSince := s.time.xclk } := by
  rw [State.startReplay, if_neg (not_le.2 h)]

theorem startReplay_spent {l : Nat} (h : max 1 (s.group (l / 8)).retryMax ≤ (s.link l).repCount) : s.startReplay l = s.dropLink l 1 := by
  rw [State.startReplay, if_pos h]

/-! ### LLCTL (R462, R464, R472) -/

/-- How many packets the number of an LLCTL acknowledges: those up to it, of a link that is UP. -/
def Link.ackedBy (x : Link) (h : Hdr) : Nat :=
  let first := match x.unacked with
    | p :: _ => leAt p.bytes 6 2
    | [] => 0
  let k := (h.seq + 2 ^ 16 + 1 - first) % 2 ^ 16
  if k ≤ x.unacked.length ∧ x.st = 2 then k else 0

/-- A link takes an LLCTL that acknowledges `n` packets. -/
def Link.takeLlctl (x : Link) (b : List Byte) (n now : Nat) : Link :=
  Link.goUp { x with
    unacked := x.unacked.drop n, repCount := if 0 < n then 0 else x.repCount, ackSince := if 0 < n then now else x.ackSince,
    replay := x.replay.filter fun p => (x.unacked.drop n).contains p,
    held := (List.range 7).foldl (fun m v => Map.modify 0 m v (· - (llctlCells b).getD v 0)) x.held,
    vc0Q := takeCells ((llctlCells b).getD 0 0) x.vc0Q, initAcked := x.initAcked || bitOf (hdrOf b).vcf 1 }

/-- The link takes the LLCTL; where it has come UP, the acknowledgements that waited for a link go (R472). -/
def State.takeLlctl (s : State) (l : Nat) (b : List Byte) : State :=
  let t := s.onLink l fun y => y.takeLlctl b ((s.link l).ackedBy (hdrOf b)) s.time.xclk
  if (t.link l).st = (s.link l).st then t else t.flushAll

/-- An LLCTL is taken; then its NAK bit starts a replay, of which a link that still trains sends the SYNC beat alone. -/
theorem exec_llctl {l : Fin 64} (h : s.Listens l) (hf : Framed b false) (ht : (hdrOf b).typ = 2) :
    exec (.llctl l b false) s = .next (if bitOf (hdrOf b).vcf 0 = false then s.takeLlctl l b
      else if ((s.takeLlctl l b).link l).st = 2 then (s.takeLlctl l b).startReplay l
      else (s.takeLlctl l b).onLink l fun y => { y with replayDue := true }) := by
  show execLlctl l b false s = _
  rw [execLlctl, rxPacket_framed h hf ht]
  simp only [Bool.not_eq_true', beq_iff_eq, Bool.and_eq_true, decide_eq_true_eq]
  rfl

/-! ### INIT (R465, R470, R475) -/

theorem validInit_iff : validInit b = true ↔ (leAt b 8 2 ≤ 512 ∧ 1 ≤ leAt b 10 2 ∧ leAt b 10 2 ≤ 1016) := by
  simp [validInit, Nat.one_le_iff_ne_zero, and_assoc]

/-- A link takes its partner's number and cells. -/
def State.takeInit (s : State) (l : Nat) (b : List Byte) : State :=
  (s.onLink l fun y =>
    Link.goUp { y with partner := leAt b 12 1, pvc0 := leAt b 8 2, pvcmax := leAt b 10 2, seenInit := true, ctlDue := true }).flushAll

theorem exec_init {l : Fin 64} (h : s.Listens l) (hf : Framed b false) (ht : (hdrOf b).typ = 6) :
    exec (.init l b false) s = .next (if validInit b = true then (s.takeInit l b).shortLink l else s) := by
  show execInit l b false s = _
  rw [execInit, rxPacket_framed h hf ht]
  cases validInit b <;> rfl

/-- VC0_SHORT is raised where the partner has sent its INIT and its cells do not cover the admitted reservations of the link (R465). -/
theorem shortLink_eq {l : Nat} : s.shortLink l = if (s.link l).seenInit = true ∧ (s.link l).pvc0 < 32 *
    ((List.range 32).map fun r => if (s.rv r).state = 1 ∧ bitOf (s.rv r).cfg.links l = true then (s.rv r).cfg.lcred else 0).sum
    then s.raise 0x0309 0x05 [l] else s := by
  simp only [State.shortLink, Bool.and_eq_true, decide_eq_true_eq]

end control

/-- Settles O42: LLCTL and INIT on a link that listens, and the replay that a NAK starts. -/
theorem linkControl : Obligations.LinkControl := by
  unfold Obligations.LinkControl
  intro s l b h x hon hst hup hig hbad hlen hcrc first k n up
  have hl : s.Listens l := ⟨hon, hst, hup, hig⟩
  have hgo : up = Link.goUp := funext fun y => (goUp_eq y).symm
  refine ⟨?llctl, ?init⟩
  case llctl =>
    intro ht s1 s2 y most
    have hf := framed_of_short (by rw [ht]; decide) hbad hlen hcrc
    have hs2 : s.takeLlctl l b = s2 := by
      unfold State.takeLlctl Link.takeLlctl
      rw [← hgo]
      rfl
    rw [exec_llctl hl hf ht, hs2]
    refine ⟨fun hn => ?acked, fun hn hy => ?trains, fun hn hy hr => ?again, fun hn hy hr => ?spent⟩
    case acked => rw [if_pos hn]
    all_goals rw [if_neg (by rw [hn]; decide)]
    case trains => rw [if_neg hy]
    case again => rw [if_pos hy, startReplay_again hr]
    case spent => rw [if_pos hy, startReplay_spent hr]
  case init =>
    intro ht s1 s2 valid sum
    have hf := framed_of_short (by rw [ht]; decide) hbad hlen hcrc
    have hs2 : s.takeInit l b = s2 := by
      rw [State.takeInit, ← hgo]
    rw [exec_init hl hf ht, hs2]
    refine ⟨fun hv => ?valid, fun hv => ?invalid⟩
    case valid => rw [if_pos (validInit_iff.2 hv), shortLink_eq]
    case invalid => rw [if_neg (mt validInit_iff.1 hv)]

end Sys2Proof.Machine
end

section
/-!
SUPPORT. What a link sends next (R459, R466, R469), one lemma per turn of PACKET_SEND, and what sending a queued packet does to its link.
-/

namespace Sys2Proof.Machine

/-- The first value that a search finds is that of the first element of which everything before gives none. -/
theorem findSome?_eq_some_of_takeWhile {β : Type} {f : Nat → Option β} {v : Nat} {t : β} (hf : f v = some t) :
    ∀ {l : List Nat}, v ∈ l → (∀ k ∈ l.takeWhile (· != v), f k = none) → l.findSome? f = some t
  | a :: l, hv, h => by
    by_cases ha : a = v
    · subst ha
      rw [List.findSome?_cons, hf]
    · have hne : (a != v) = true := bne_iff_ne.2 ha
      have htake : (a :: l).takeWhile (· != v) = a :: l.takeWhile (· != v) := List.takeWhile_cons_of_pos hne
      rw [htake, List.forall_mem_cons] at h
      rw [List.findSome?_cons, h.1]
      exact findSome?_eq_some_of_takeWhile hf ((List.mem_cons.1 hv).resolve_left (Ne.symm ha)) h.2

/-- Link `l` sends: it trains or is UP on a lane that is up, and its group is on. -/
def State.Sends (s : State) (l : Nat) : Prop :=
  s.linkOn l = true ∧ (s.link l).up = true ∧ ((s.link l).st = 1 ∨ (s.link l).st = 2)

theorem sends_iff {s : State} {l : Nat} :
    (!s.linkOn l || !(s.link l).up || ((s.link l).st != 1 && (s.link l).st != 2)) = false ↔ s.Sends l := by
  simp only [Bool.or_eq_false_iff, Bool.not_eq_false', Bool.and_eq_false_iff, bne_eq_false_iff_eq, State.Sends, and_assoc]

/-! ### The turns (R459, R469, R470) -/

section turn
variable {s : State} {l : Fin 64}

theorem exec_packetSend_off (h : ¬ s.Sends l) : exec (.packetSend l) s = .next s := by
  rw [← sends_iff, Bool.not_eq_false] at h
  exact if_pos h

theorem exec_packetSend_trains (hc : (s.link l).ctlDue = false) (hst : (s.link l).st = 1) (hi : (s.link l).initDue = false)
    (hr : (s.link l).replayDue = false) : exec (.packetSend l) s = .next s := by
  show execPacketSend l s = _
  simp [execPacketSend, hc, hst, hi, hr, idle]

theorem exec_packetSend_full (hc : (s.link l).ctlDue = false) (hst : (s.link l).st = 2) (hr : (s.link l).replayDue = false)
    (hp : (s.link l).replay = []) (hn : 1024 ≤ (s.link l).unacked.length) : exec (.packetSend l) s = .next s := by
  show execPacketSend l s = _
  simp [execPacketSend, hc, hst, hr, hp, hn, idle]

section sends
variable (h : s.Sends l) (hc : (s.link l).ctlDue = false)
include h hc

/-- A SYNC beat is sent where a replay is due, on a link that trains too, once its INIT has gone. -/
theorem exec_packetSend_replayDue (hi : (s.link l).st = 2 ∨ (s.link l).initDue = false) (hr : (s.link l).replayDue = true) :
    exec (.packetSend l) s = .next (s.onLink l fun y => { y with replayDue := false, replay := y.unacked, lastTx := syncBeat }) := by
  have hinit : ((s.link l).initDue && (s.link l).st == 1) = false := by
    rcases hi with hi | hi <;> simp [hi]
  show execPacketSend l s = _
  simp only [execPacketSend, sends_iff.2 h, hc, hinit, hr, Bool.false_eq_true, if_false, if_true]

variable (hst : (s.link l).st = 2) (hr : (s.link l).replayDue = false)
include hst hr

theorem exec_packetSend_replay {p : Pkt} {ps : List Pkt} (hp : (s.link l).replay = p :: ps) :
    exec (.packetSend l) s = .next (s.sendReplay l p) := by
  obtain ⟨hon, hup, -⟩ := h
  show execPacketSend l s = _
  simp [execPacketSend, hon, hup, hc, hst, hr, hp]

section fresh
variable (hp : (s.link l).replay = []) (hn : (s.link l).unacked.length < 1024)
include hp hn

/-- With nothing to send again, the virtual channels are searched; the data of what each sends next is asked for first. -/
theorem exec_packetSend_fresh : exec (.packetSend l) s =
    .next (((vcOrder (s.link l).lastVc).findSome? ((s.fetchChunks l).sendVc l)).getD (s.fetchChunks l)) := by
  obtain ⟨hon, hup, -⟩ := h
  show execPacketSend l s = _
  simp only [execPacketSend, hon, hup, hc, hst, hr, hp, not_le.2 hn, Bool.not_true, Bool.or_self, Bool.and_false, Bool.false_eq_true,
    if_false, bne_self_eq_false, Nat.reduceBEq]
  generalize (vcOrder (s.link l).lastVc).findSome? ((s.fetchChunks l).sendVc l) = o
  cases o <;> simp only [Option.getD]

theorem exec_packetSend_first {v : Nat} {t : State} (hv : v ∈ vcOrder (s.link l).lastVc) (ht : (s.fetchChunks l).sendVc l v = some t)
    (hfirst : ∀ k ∈ (vcOrder (s.link l).lastVc).takeWhile (· != v), (s.fetchChunks l).sendVc l k = none) :
    exec (.packetSend l) s = .next t := by
  rw [exec_packetSend_fresh h hc hst hr hp hn, findSome?_eq_some_of_takeWhile ht hv hfirst, Option.getD_some]

theorem exec_packetSend_none (hnone : ∀ k ∈ vcOrder (s.link l).lastVc, (s.fetchChunks l).sendVc l k = none) :
    exec (.packetSend l) s = .next (s.fetchChunks l) := by
  rw [exec_packetSend_fresh h hc hst hr hp hn, List.findSome?_eq_none_iff.2 hnone, Option.getD_none]

end fresh

end sends

/-! ### Replay of one packet (R469, R497, R517) -/

/-- The packet in front of the replay goes, with its payload. -/
def State.resend (s : State) (l : Nat) (p : Pkt) (pay : List Byte) : State := s.onLink l fun x =>
  { x with replay := x.replay.drop 1, reread := none, lastTx := p.bytes ++ pay ++ crcBytes (p.bytes ++ pay) }

section replay
variable {k : Nat} {p : Pkt}

theorem sendReplay_header (hs : p.src = none) : s.sendReplay k p = s.resend k p [] := by
  simp only [State.sendReplay, hs]
  rfl

variable {a n : Nat} (hs : p.src = some (a, n))
include hs

/-- The payload of an instruction that has ended is asked for again for the domain that it was sent for. -/
theorem sendReplay_ask_ended (hi : s.inst p.inst = none) (hr : (s.link k).reread = none) :
    s.sendReplay k p = (s.leatRead p k a n).1.onLink k fun y => { y with reread := some (s.leatRead p k a n).2 } := by
  simp only [State.sendReplay, hs, hr, hi, Option.isNone_none, if_true]

theorem sendReplay_ask {i : Inst} (hi : s.inst p.inst = some i) (hr : (s.link k).reread = none) : s.sendReplay k p =
    (s.readExt p.inst false [.resend k] a n).1.onLink k fun y => { y with reread := some (s.readExt p.inst false [.resend k] a n).2.2 } := by
  simp only [State.sendReplay, hs, hr, hi, Option.isNone_some, Bool.false_eq_true, if_false]

theorem sendReplay_come (hr : (s.link k).reread = some false) (ho : s.tgtOut (.resend k) = false) :
    s.sendReplay k p = s.resend k p (s.extBytes a n) := by
  simp only [State.sendReplay, hs, hr, ho, Bool.or_self, Bool.false_eq_true, if_false]
  rfl

/-- A payload that was denied or came poisoned is not sent, nor one that has not come yet. -/
theorem sendReplay_stays {bad : Bool} (hr : (s.link k).reread = some bad) (h : bad = true ∨ s.tgtOut (.resend k) = true) :
    s.sendReplay k p = s := by
  simp only [State.sendReplay, hs, hr, Bool.or_eq_true, h, if_true]

end replay

/-! ### A queued packet (R464, R466) -/

/-- The link sends a packet of its queue. -/
def State.sendQueued (s : State) (k : Nat) (p : Pkt) : State := (s.onLink k fun x => { x with queue := x.queue.erase p }).emit k p []

theorem sendVc_queued {k v : Nat} {p : Pkt} (hq : (s.link k).queue.find? (fun p => p.vc == v) = some p)
    (hc : s.credit k v p.cells p.resv = true) : s.sendVc k v = some (s.sendQueued k p) := by
  simp only [State.sendVc, hq, hc, if_true]
  rfl

/-- It takes the next number, leaves the queue, and is kept under its number until it is acknowledged. -/
theorem link_sendQueued (h : Map.wf {} s.leat.links = true) (k : Nat) (p : Pkt) :
    ((s.sendQueued k p).link k).nextSeq = ((s.link k).nextSeq + 1) % 2 ^ 16 ∧
    ((s.sendQueued k p).link k).queue = (s.link k).queue.erase p ∧
    ((s.sendQueued k p).link k).unacked =
      (s.link k).unacked ++ [{ p with bytes := patch p.bytes 6 (natLe 2 ((s.link k).nextSeq % 2 ^ 16)) }] := by
  have hwf : Map.wf {} (s.onLink k fun x => { x with queue := x.queue.erase p }).leat.links = true := by
    simp only [State.onLink]
    exact Map.wf_modify h k _
  rw [State.sendQueued, State.emit, link_onLink hwf, if_pos rfl, link_onLink h, if_pos rfl]
  exact ⟨rfl, rfl, rfl⟩

end turn

/-- Settles O43: the turns in their order, the packet in front of the replay, the search for a virtual channel, and a queued packet. -/
theorem packetSends : Obligations.PacketSends := by
  unfold Obligations.PacketSends
  intro s l x runs sends s1
  refine ⟨exec_packetSend_off, fun ⟨hon, hup, hst⟩ hc => exec_packetSend_ctl hon hup hst hc,
    fun ⟨hon, hup, _⟩ hc hst hi => exec_packetSend_init hon hup hst hc hi, fun h hc => exec_packetSend_replayDue h hc,
    fun _ hc => exec_packetSend_trains hc, fun p ps h hc hst hr hp => ?replay, fun _ hc => exec_packetSend_full hc,
    fun v t h hc hst hr hp hn => exec_packetSend_first h hc hst hr hp hn, fun h hc hst hr hp hn => exec_packetSend_none h hc hst hr hp hn,
    fun p v hcan hq hcr => ?queued⟩
  case replay =>
    have hrow := exec_packetSend_replay h hc hst hr hp
    refine ⟨fun hs => ?header, fun a n hs hi hre => ?askEnded, fun a n i hs hi hre => ?ask, fun a n hs hre ho => ?come,
      fun a n bad hs hre hb => ?stays⟩
    case header => exact hrow.trans (congrArg Host.Outcome.next (sendReplay_header hs))
    case askEnded => rw [hrow, sendReplay_ask_ended hs hi hre]
    case ask => rw [hrow, sendReplay_ask hs hi hre]
    case come => exact hrow.trans (congrArg Host.Outcome.next (sendReplay_come hs hre ho))
    case stays => rw [hrow, sendReplay_stays hs hre hb]
  case queued => exact ⟨s.sendQueued l p, sendVc_queued hq hcr, link_sendQueued hcan.links l p⟩

end Sys2Proof.Machine
end

section
/-!
SUPPORT. A bundle that overruns its channel (R452): what the Hopper's report of it does, which leaves the channels and the pins alone.
-/

namespace Sys2Proof.Machine

/-! ### What an error report leaves alone -/

/-- The Hopper and the pins. -/
def State.hopPins (s : State) : Hop × Pins := (s.hop, s.pins)

theorem hopPins_foldl {α : Type} {f : State → α → State} (hf : ∀ t a, (f t a).hopPins = t.hopPins) (l : List α) (s : State) :
    (l.foldl f s).hopPins = s.hopPins :=
  List.foldlRecOn (motive := fun t => t.hopPins = s.hopPins) l f rfl fun t ht a _ => (hf t a).trans ht

section reports
variable (s : State)

@[simp] theorem hopPins_onCx (c : Nat) (f : Ctx → Ctx) : (s.onCx c f).hopPins = s.hopPins := rfl
@[simp] theorem hopPins_onLink (l : Nat) (f : Link → Link) : (s.onLink l f).hopPins = s.hopPins := rfl
@[simp] theorem hopPins_onInst (n : Nat) (f : Inst → Inst) : (s.onInst n f).hopPins = s.hopPins := by simp [State.hopPins]

@[simp] theorem hopPins_raise (code unit : Nat) (args : List Nat) : (s.raise code unit args).hopPins = s.hopPins := by
  obtain ⟨l, q, b, h⟩ := raise_only s code unit args
  rw [h]
  rfl

@[simp] theorem hopPins_logErr (e : Err) : (s.logErr e).hopPins = s.hopPins := by
  obtain ⟨l, m, w, h⟩ := logErr_only s e
  rw [h]
  rfl

@[simp] theorem hopPins_queueWrite (d : Nat) (clsA : Bool) (y : Why) (a : Nat) (bs : List Byte) (bad : Bool) :
    (s.queueWrite d clsA y a bs bad).hopPins = s.hopPins := by
  obtain ⟨m, w, h⟩ := queueWrite_only s d clsA y a bs bad
  rw [h]
  rfl

@[simp] theorem hopPins_poisonTgt (t : Tgt) : (s.poisonTgt t).hopPins = s.hopPins := by
  cases t with
  | work | keys => exact hopPins_onInst s _ _
  | slot | bay | ob | ext | resend | chunk => rfl

@[simp] theorem hopPins_leavePwu (n : Nat) : (s.leavePwu n).hopPins = s.hopPins := hopPins_onInst _ n _

@[simp] theorem hopPins_endFenced (scope cause : Nat) (i : Inst) : (s.endFenced scope cause i).hopPins = s.hopPins := by
  have hslots := hopPins_foldl (f := fun t p => t.poisonTgt (.slot p.1 p.2)) (fun t p => hopPins_poisonTgt t _) i.wrote s
  unfold State.endFenced
  dsimp only
  rw [hopPins_onInst, hopPins_leavePwu]
  change State.hopPins (ite _ _ _) = _
  split
  · exact (hopPins_logErr _ _).trans hslots
  · exact hslots

@[simp] theorem hopPins_revoke (r cause : Nat) : (s.revoke r cause).hopPins = s.hopPins := by
  unfold State.revoke
  dsimp only
  split
  · rfl
  · exact hopPins_raise _ _ _ _

@[simp] theorem hopPins_setFence (scope index gen dom : Nat) : (s.setFence scope index gen dom).1.hopPins = s.hopPins := by
  unfold State.setFence
  dsimp only
  split
  case h_6 => split <;> rfl
  all_goals rfl

@[simp] theorem hopPins_noteFence (scope index gen : Nat) : (s.noteFence scope index gen).hopPins = s.hopPins := rfl

@[simp] theorem hopPins_fenceDomCtxs (d : Nat) : (s.fenceDomCtxs d).hopPins = s.hopPins :=
  hopPins_foldl (fun t c => by split <;> rfl) _ s

@[simp] theorem hopPins_fence (scope index gen cause dom : Nat) : (s.fence scope index gen cause dom).hopPins = s.hopPins := by
  unfold State.fence
  dsimp only
  split
  · rfl
  rw [hopPins_foldl fun t r => by split <;> simp, hopPins_foldl fun t i => hopPins_endFenced t _ _ i]
  simp only [apply_ite State.hopPins, hopPins_onLink, hopPins_fenceDomCtxs, hopPins_raise, hopPins_noteFence, hopPins_setFence, ite_self]

@[simp] theorem hopPins_report (e : Err) (dom : Nat) : (s.report e dom).hopPins = s.hopPins := by
  unfold State.report
  dsimp only
  split
  · exact hopPins_logErr s e
  · rw [hopPins_fence, hopPins_logErr]

@[simp] theorem hopPins_writeRec (c : Nat) (clsA : Bool) (r : Rec) : (s.writeRec c clsA r).hopPins = s.hopPins := by
  unfold State.writeRec
  dsimp only
  split
  · rw [hopPins_report, hopPins_onCx]
  · split
    · rw [hopPins_logErr, hopPins_onCx]
    · rw [hopPins_queueWrite, hopPins_onCx]

@[simp] theorem hopPins_hopErr (c : Option Nat) (code detail : Nat) : (s.hopErr c code detail).hopPins = s.hopPins := by
  cases c with
  | none => exact hopPins_logErr s _
  | some c =>
    have hrec : ∀ t : State, (t.hopRec c code).hopPins = t.hopPins := fun t => by
      unfold State.hopRec
      dsimp only
      split
      · rfl
      · exact hopPins_writeRec t _ _ _
    exact (hrec _).trans (hopPins_logErr s _)

end reports

/-! ### The overrun (R452) -/

section overrun
variable {s : State} {ch : Nat} {b : BitVec 512}

/-- A bundle arrives, and its credit is spent. -/
def State.spendCredit (s : State) (ch : Nat) : State := s.onChan ch fun z => { z with credits := z.credits - 1 }

/-- A bundle of KIND 1 is a RESYNC, and no other is. -/
theorem kind_of_append {t : State} {ch : Fin 4} (h : exec (.bundleAppend ch b) s = .next t) : bKind b ≠ 1 := fun hk => by
  have hrow : exec (.bundleAppend ch b) s = .refused .otherRow := if_pos hk
  rw [hrow] at h
  cases h

theorem kind_of_resync {t : State} {ch : Fin 4} (h : exec (.bundleResync ch b) s = .next t) : bKind b = 1 := by
  by_contra hk
  have hrow : exec (.bundleResync ch b) s = .refused .otherRow := if_pos hk
  rw [hrow] at h
  cases h

/-- After an overrun the channel has what it had but for the credit, and no credit has been returned. -/
theorem overrun_leaves (hwf : Map.wf {} s.hop.ch = true) {c : Option Nat} {t : State}
    (ht : t = (s.spendCredit ch).hopErr c Code.fHopOverrun ch) :
    t.chan ch = { s.chan ch with credits := (s.chan ch).credits - 1 } ∧ t.pins = s.pins := by
  have hkept := hopPins_hopErr (s.spendCredit ch) c Code.fHopOverrun ch
  rw [← ht, State.hopPins, State.hopPins, Prod.mk.injEq] at hkept
  obtain ⟨hhop, hpins⟩ := hkept
  have hchan : (s.spendCredit ch).chan ch = _ := (chan_onChan hwf ch ch _).trans (if_pos rfl)
  refine ⟨?_, hpins⟩
  rw [← hchan, State.chan, hhop]
  rfl

/-- The number after a bundle's own is not its own. -/
theorem bSeq_succ_ne : (bSeq b + 1) % 2 ^ 16 ≠ bSeq b := by
  have hlt : bSeq b < 2 ^ 16 := Nat.mod_lt _ (by decide)
  omega

variable (hfull : 16 ≤ (s.chan ch).held.length)
include hfull

theorem bundle_overrun : s.bundle ch b = (s.spendCredit ch).hopErr (some (bCtx ch b)) Code.fHopOverrun ch := if_pos hfull

theorem resync_overrun : s.resync ch b = (s.spendCredit ch).hopErr none Code.fHopOverrun ch := if_pos hfull

end overrun

/-- Settles O35: the bundle is reported alone; its number stays the one expected, so the next does not follow. -/
theorem hopperOverrun : Obligations.HopperOverrun := by
  unfold Obligations.HopperOverrun
  intro s ch b hr hfull s0
  refine ⟨fun hk => ?append, fun hk => ?resync, fun hc he t b' ht hk' hb' => ?next⟩
  case append => rw [exec_bundleAppend hk hr, bundle_overrun hfull]; rfl
  case resync => rw [exec_bundleResync hk hr, resync_overrun hfull]; rfl
  case next =>
    have htaken : ∃ c, t = (s.spendCredit ch).hopErr c Code.fHopOverrun ch := by
      rcases ht with ht | ht
      · rw [exec_bundleAppend (kind_of_append ht) hr, bundle_overrun hfull] at ht
        exact ⟨_, (Host.Outcome.next.inj ht).symm⟩
      · rw [exec_bundleResync (kind_of_resync ht) hr, resync_overrun hfull] at ht
        exact ⟨_, (Host.Outcome.next.inj ht).symm⟩
    obtain ⟨c, hc'⟩ := htaken
    obtain ⟨hchan, hpins⟩ := overrun_leaves hc.ch hc'
    rw [hchan, hpins]
    refine ⟨rfl, rfl, .inr ?_⟩
    rw [hb', ← he]
    exact bSeq_succ_ne

end Sys2Proof.Machine
end

section
/-!
SUPPORT. PORT_TIMEOUT (R443, R444), and the commands of the Granary and of the consumed count (R345, R449).
-/

namespace Sys2Proof.Machine

/-! ### PORT_TIMEOUT (R443, R444) -/

section timeout
variable {s : State} {p : Fin 32} {wr : Bool} {tag : Nat} {r : Req}

/-- The outstanding requests of a kind at a port. -/
def Port.out (x : Port) (wr : Bool) : List Req := if wr then x.wrOut else x.rdOut

/-- What the timeout of a request does at its port once it is reported: every read outstanding completes, the one that timed out with its
own code and the others with that of the fence (log 56), and the write that timed out; what returns of them will be discarded. -/
def State.timedOut (s : State) (p : Nat) (wr : Bool) (tag : Nat) : State :=
  let gone := (s.port p).wrOut.filter fun q => wr && q.tag == tag
  let s1 := s.onPort p fun z =>
    { z with rdOut := [], lateRd := z.lateRd ++ z.rdOut.map Req.tag,
             wrOut := z.wrOut.filter (fun q => !(wr && q.tag == tag)), lateWr := z.lateWr ++ gone.map Req.tag }
  let s2 := (s.port p).rdOut.foldl (fun t q =>
    t.completeRead q (some (if wr = false ∧ q.tag = tag then Code.fPortTimeout else Code.fPortFenced))) s1
  gone.foldl (fun t q => t.completeWrite q (some Code.fPortTimeout)) s2

theorem exec_portTimeout_early (h : ((s.port p).out wr).find? (fun q => q.tag == tag) = some r)
    (ht : s.mem.tmo = 0 ∨ s.time.mclk < r.since + s.mem.tmo) : exec (.portTimeout p wr tag) s = .next s := by
  have hearly : (decide (s.mem.tmo = 0) || decide (s.time.mclk < r.since + s.mem.tmo)) = true := by simpa using ht
  unfold Port.out at h
  show execPortTimeout p wr tag s = _
  simp only [execPortTimeout, h, hearly, if_true, idle]

theorem exec_portTimeout_late (h : ((s.port p).out wr).find? (fun q => q.tag == tag) = some r) (h0 : s.mem.tmo ≠ 0)
    (ht : r.since + s.mem.tmo ≤ s.time.mclk) : exec (.portTimeout p wr tag) s =
    .next (((s.timeoutReport p wr tag r).timedOut p wr tag).drainPort p).pwuTurn := by
  unfold Port.out at h
  show execPortTimeout p wr tag s = _
  simp only [execPortTimeout, h, h0, not_lt.2 ht, decide_false, Bool.or_self, Bool.false_eq_true, if_false, Bool.and_eq_true,
    Bool.not_eq_true', beq_iff_eq]
  rfl

@[simp] theorem actor_image : s.actor .image = .image := rfl

/-- A request that no context made is reported of its port alone. -/
theorem timeoutReport_image {k : Nat} (hw : r.why = .image) : s.timeoutReport k wr tag r =
    (s.onPort k fun y => { y with timeouts := holdAdd y.timeouts 1 }).report
      { code := Code.fPortTimeout, scope := 3, unit := 0x06, index := k, addr := r.addr, poison := !wr,
        detail := tag + if wr then 4096 else 0 } 0 := by
  simp only [State.timeoutReport, hw, actor_image]

end timeout

/-- Settles O38: before its time a request waits; at its time it is reported, and its port is drained. -/
theorem portTimeouts : Obligations.PortTimeouts := by
  unfold Obligations.PortTimeouts
  intro s p wr tag r x hfind
  refine ⟨exec_portTimeout_early hfind, exec_portTimeout_late hfind, fun _ _ hw => ?_⟩
  rw [timeoutReport_image hw]
  cases wr <;> rfl

end Sys2Proof.Machine
end

section
/-!
SUPPORT. The invalidations of the Granary (R449), and the read of the consumed count while a context holds on a full ring (R345).
-/

namespace Sys2Proof.Machine

section granary
variable {s : State}

theorem ginvAll_eq : s.ginvAll = { s with mem := { s.mem with gran := [], ginvBusy := true } } := by
  simp [State.ginvAll, State.granDrop]

/-! ### The consumed count (R345) -/

/-- The consumed count of context `c` is being read. -/
def State.readsCons (s : State) (c : Nat) : Bool := s.mem.ports.any fun p => p.2.allReqs.any fun r => r.why == .cons c

theorem readsCons_iff {c : Nat} : s.readsCons c = true ↔ ∃ p x, (p, x) ∈ s.mem.ports ∧ ∃ q ∈ x.allReqs, q.why = .cons c := by
  simp [State.readsCons, List.any_eq_true]

section poll
variable {c : Fin 64}

theorem exec_consAddrPoll_idle (h : (s.cx c).hold ≠ .ring ∨ s.readsCons c = true) : exec (.consAddrPoll c) s = .next s := by
  show execConsAddrPoll c s = _
  unfold execConsAddrPoll
  dsimp only
  split
  · rfl
  · next hgo =>
    have hring : (s.cx c).hold = .ring := by
      by_contra hne
      exact hgo (by simp [hne])
    exact if_pos (h.resolve_left (not_not.2 hring))

theorem exec_consAddrPoll_asks (hh : (s.cx c).hold = .ring) (hf : s.ctxFenced c = false) (hb : ¬ s.readsCons c = true)
    (ha : s.checkAcc (s.cx c).domain false .rd (s.cx c).cfg.consAddr = .ok) (hp : s.portFenced (homePort (s.cx c).cfg.consAddr) = false) :
    exec (.consAddrPoll c) s = .next (s.queueRead (s.cx c).domain false (.cons c.val) (s.cx c).cfg.consAddr 64 false []) := by
  unfold State.readsCons at hb
  show execConsAddrPoll c s = _
  simp only [execConsAddrPoll, hh, hf, hb, ha, hp, bne_self_eq_false, Bool.or_self, Bool.false_eq_true, if_false]

end poll

theorem completeRead_cons_ok {r : Req} {c : Nat} (h : Map.wf {} s.mem.ports = true) (hw : r.why = .cons c) (hf : r.fill = false) :
    s.completeRead r none = s.onCx c fun x => { x with consRead := leNat (s.extBytes x.cfg.consAddr 8) } := by
  have hu := atoms_unmarked h (r := r) (by simp [hw]) (homePort r.addr) (some false)
  simp only [State.completeRead, Option.isSome_none, Option.isNone_none, Bool.true_and, hu, hf, Bool.false_eq_true, if_false]
  simp only [hw]
  rfl

end granary

/-- Settles O40: the three commands of the Granary, when the consumed count is asked for, and what its return sets. -/
theorem granaryAndConsumedCount : Obligations.GranaryAndConsumedCount := by
  unfold Obligations.GranaryAndConsumedCount
  refine ⟨⟨fun s ho => ?all, fun s ho => exec_of_mgt (f := State.ginvRange) rfl ho, fun s => exec_ginvDone⟩, ?count⟩
  case all => rw [exec_of_mgt rfl ho, ginvAll_eq]
  case count =>
    intro s c x a busy
    refine ⟨fun h => ?idle, fun hh hf hb => ?asks, fun p tag r hc hr hw hfill => ?returns⟩
    case idle => exact exec_consAddrPoll_idle (h.imp_right readsCons_iff.2)
    case asks => exact exec_consAddrPoll_asks hh hf (mt readsCons_iff.1 hb)
    case returns =>
      rw [exec_nmpReadReturn_found hr, if_neg Bool.false_ne_true, completeRead_cons_ok (wf_ports_readGone hc.ports p tag false) hw hfill]
      rfl

end Sys2Proof.Machine
end

section
/-!
SUPPORT. The timers of a link (R187, R464, R469, R470), its lane, its enable and the commit of its group (R470, R472, R475, R513).
-/

namespace Sys2Proof.Machine

/-! ### Timers -/

section timers
variable {s : State} {l : Fin 64}

/-- Packets wait for acknowledgement longer than REPLAY_TMO. -/
def State.ReplayLate (s : State) (l : Nat) : Prop :=
  (s.link l).st = 2 ∧ (s.link l).unacked ≠ [] ∧ (s.link l).ackSince + s.replayTmo l ≤ s.time.xclk

theorem replayLate_iff : (decide ((s.link l).st = 2) && !(s.link l).unacked.isEmpty &&
    decide ((s.link l).ackSince + s.replayTmo l ≤ s.time.xclk)) = true ↔ s.ReplayLate l := by
  simp [State.ReplayLate, and_assoc]

theorem exec_replayTimeout_late (h : s.ReplayLate l) : exec (.replayTimeout l) s = .next (s.startReplay l) :=
  if_pos (replayLate_iff.2 h)

theorem exec_replayTimeout_early (h : ¬ s.ReplayLate l) : exec (.replayTimeout l) s = .next s :=
  if_neg (mt replayLate_iff.1 h)

theorem exec_llctlReportDeadline_due (h0 : (s.link l).repSince ≠ 0) (hc : (s.link l).ctlDue = false)
    (ht : (s.link l).repSince - 1 + 64 ≤ s.time.xclk) :
    exec (.llctlReportDeadline l) s = .next (s.onLink l fun y => { y with ctlDue := true }) :=
  if_pos (by simp [h0, hc, ht])

theorem exec_initResend_due (hst : (s.link l).st = 1) (hi : (s.link l).initDue = false)
    (ht : (s.link l).initSince + s.replayTmo l ≤ s.time.xclk) :
    exec (.initResend l) s = .next (s.onLink l fun y => { y with initDue := true }) :=
  if_pos (by simp [hst, hi, ht])

/-- READY goes again on the links where none of its data has arrived. -/
theorem exec_readyResend_due {n : Nat} {i : Inst} {o : LinkOp} (hi : s.inst n = some i) (ho : i.link = some o)
    (hr : o.receives = true ∨ o.isWred = true ∧ o.role ≠ 0) (hout : o.readyOut = false)
    (hd : ((bitsSet 64 o.rx).filter fun l => s.live l && decide (Map.get 0 o.sent l - 1 + s.replayTmo l ≤ s.time.xclk)) ≠ []) :
    exec (.readyResend n) s = .next (s.sendReady i o
      ((bitsSet 64 o.rx).filter fun l => s.live l && decide (Map.get 0 o.sent l - 1 + s.replayTmo l ≤ s.time.xclk))) := by
  have hrow : (o.receives || o.isWred && o.role != 0) = true := by simpa using hr
  have hne := Bool.eq_false_iff.2 (mt List.isEmpty_iff.1 hd)
  show execReadyResend n s = _
  simp only [execReadyResend, hi, ho, hrow, hout, hne, Bool.not_false, Bool.and_self, if_true]

end timers

/-! ### Lanes (R470) -/

section lanes
variable {s : State} {l : Fin 64}

theorem exec_lnkUpChange_same {u : Bool} (h : (s.link l).up = u) : exec (.lnkUpChange l u) s = .next s :=
  if_pos (by simp [h])

theorem exec_lnkUpChange_trained (h : (s.link l).up = false) :
    exec (.lnkUpChange l true) s = .next ((s.onLink l fun y => { y with up := true }).startLink l) := by
  show execLnkUpChange l true s = _
  simp [execLnkUpChange, h]

theorem exec_lnkUpChange_lost (h : (s.link l).up = true) (hst : (s.link l).st = 1 ∨ (s.link l).st = 2) :
    exec (.lnkUpChange l false) s = .next ((s.onLink l fun y => { y with up := false }).dropLink l 0) := by
  show execLnkUpChange l false s = _
  simp [execLnkUpChange, h, hst]

theorem exec_lnkUpChange_rests (h : (s.link l).up = true) (h1 : (s.link l).st ≠ 1) (h2 : (s.link l).st ≠ 2) :
    exec (.lnkUpChange l false) s = .next (s.onLink l fun y => { y with up := false }) := by
  show execLnkUpChange l false s = _
  simp [execLnkUpChange, h, h1, h2]

end lanes

/-! ### LINK_EN (R470, R472, R513, R536) -/

section enables
variable (s : State) (l : Nat)

/-- The enable of a link is written. -/
def State.setLinkEn (on : Bool) : State := { s with leat := { s.leat with linkEn := Map.set false s.leat.linkEn l on } }

/-- A link that is disabled is DOWN, its acknowledgements handed on to a live link. -/
def State.takeDown : State := (((s.setLinkEn l false).onLink l fun y => { y with st := 0 }).moveAcks l).onLink l Link.down

/-- The fence of a link is cleared. -/
def State.clearLinkFence : State := { s with prot := { s.prot with linkF := Map.set false s.prot.linkF l false } }

/-- What LINK_EN does to one link. -/
def State.writeLinkBit (on : Bool) : State :=
  if on && Map.get false s.leat.linkEn l then s.wakeDom (40 + l / 8)
  else if !on && !Map.get false s.leat.linkEn l && !Map.get false s.prot.linkF l then s
  else if on then ((s.setLinkEn l on).wakeDom (40 + l / 8)).startLink l
  else (((s.takeDown l).clearLinkFence l).resendFrom l).sweepLinks

variable {s l}

theorem writeLinkBit_enabled (h : Map.get false s.leat.linkEn l = true) : s.writeLinkBit l true = s.wakeDom (40 + l / 8) := by
  simp [State.writeLinkBit, h]

theorem writeLinkBit_starts (h : Map.get false s.leat.linkEn l = false) :
    s.writeLinkBit l true = ((s.setLinkEn l true).wakeDom (40 + l / 8)).startLink l := by
  simp [State.writeLinkBit, h]

/-- A 0 changes a link only where it was enabled or fenced. -/
theorem writeLinkBit_false : s.writeLinkBit l false =
    if Map.get false s.leat.linkEn l = false ∧ Map.get false s.prot.linkF l = false then s
    else (((s.takeDown l).clearLinkFence l).resendFrom l).sweepLinks := by
  simp [State.writeLinkBit]

theorem writeLinkEn_eq {hi : Bool} {v : Nat} : s.writeLinkEn hi v =
    (List.range 32).foldl (fun t k => t.writeLinkBit (k + if hi then 32 else 0) (bitOf v k)) s := by
  refine congrArg (fun f => List.foldl f s (List.range 32)) (funext fun t => funext fun k => ?_)
  unfold State.writeLinkBit State.takeDown State.clearLinkFence State.setLinkEn
  generalize bitOf v k = on
  cases on <;> simp only [Bool.false_eq_true, if_false, if_true]

end enables

/-! ### The commit of a group (R475) -/

/-- A group's staged fields may be applied: none of its links is enabled, and its cells lie in their ranges. -/
def State.CommitOk (s : State) (g : Nat) : Prop :=
  (∀ k, k < 8 → Map.get false s.leat.linkEn (8 * g + k) = false) ∧ (s.group g).sVc0 ≤ 512 ∧ 1 ≤ (s.group g).sVcmax ∧
    (s.group g).sVcmax ≤ 1016

theorem commitBad_iff {s : State} {g : Nat} : (((List.range 8).any fun k => Map.get false s.leat.linkEn (8 * g + k)) ||
    decide (512 < (s.group g).sVc0) || (s.group g).sVcmax == 0 || decide (1016 < (s.group g).sVcmax)) = false ↔ s.CommitOk g := by
  simp [State.CommitOk, Nat.one_le_iff_ne_zero, and_assoc]

theorem leatCommit_rejected {s : State} {g : Nat} (h : ¬ s.CommitOk g) :
    s.leatCommit g = s.onGroup g fun y => { y with commitErr := true } := by
  rw [← commitBad_iff, Bool.not_eq_false] at h
  exact if_pos h

/-- Settles O44: the timers one by one, the lane, LINK_EN link by link, and the commit of a group. -/
theorem linkTimersAndStates : Obligations.LinkTimersAndStates := by
  unfold Obligations.LinkTimersAndStates
  refine ⟨?timers, ?lanes, ?enable, ?commit⟩
  case timers =>
    intro s l x tmo late
    refine ⟨fun h hr => ?again, fun h hr => ?spent, exec_replayTimeout_early, exec_llctlReportDeadline_due, exec_initResend_due,
      exec_syncBeatReceived, fun n i o hi ho => exec_readyResend_due hi ho⟩
    case again => rw [exec_replayTimeout_late h, startReplay_again hr]
    case spent => rw [exec_replayTimeout_late h, startReplay_spent hr]
  case lanes =>
    intro s l x
    exact ⟨exec_lnkUpChange_trained, exec_lnkUpChange_lost, exec_lnkUpChange_rests, fun u => exec_lnkUpChange_same⟩
  case enable =>
    intro s hi v ho
    have hrow := exec_of_mgt (i := .linkEnWrite hi v) (f := fun s => s.writeLinkEn hi v.toNat) rfl ho
    rw [hrow, writeLinkEn_eq]
    refine congrArg (fun f => Host.Outcome.next (List.foldl f s (List.range 32)).wrote) (funext fun t => funext fun k => ?_)
    dsimp only
    cases bitOf v.toNat k
    case false => exact writeLinkBit_false
    case true =>
      cases hen : Map.get false t.leat.linkEn (k + if hi then 32 else 0)
      case false => exact writeLinkBit_starts hen
      case true => exact writeLinkBit_enabled hen
  case commit =>
    intro s g ho x ok
    have hrow := exec_of_mgt (i := .leatCommit g) (f := fun s => s.leatCommit g) rfl ho
    refine ⟨fun ⟨he, h0, h1, h2⟩ => ?taken, fun h => ?rejected⟩
    case taken => rw [hrow, leatCommit_of_valid he h0 h1 h2]
    case rejected => rw [hrow, leatCommit_rejected h]

end Sys2Proof.Machine
end

section
/-!
SUPPORT. A management-port write (R30, R31, R432, R457, R546): by the port, the root clock and the power domain of the register, and then
what the register at an offset takes.
-/

namespace Sys2Proof.Machine

/-! ### The port, the root clock, the power domain -/

section port
variable {s : State} {c : Instr} {d : Nat} {f : State → State}

theorem mgtUp_iff : s.mgtUp = true ↔ (s.boot.rstN = true ∧ 2 ≤ s.boot.step ∧ s.boot.onRef = false) := by
  simp [State.mgtUp, and_assoc]

/-- A command is held only once the port answers but for the root clock. -/
theorem holdAccess_off (h : s.boot.rstN = false ∨ s.boot.step < 2) : s.holdAccess c = s := by
  have hoff : ¬ (s.boot.rstN && s.boot.onRef && decide (2 ≤ s.boot.step)) = true := by
    rcases h with h | h <;> simp [h]
  exact if_neg hoff

/-- A command that finds the root clock stopped waits, and restarts it. -/
theorem holdAccess_stopped (hr : s.boot.rstN = true) (h2 : 2 ≤ s.boot.step) (hf : s.boot.onRef = true) : s.holdAccess c =
    { s with boot := { s.boot with
      access := s.boot.access ++ [c], rootReq := true,
      usableAt := if s.boot.rootReq then s.boot.usableAt else max (s.boot.lockSince + 2) s.time.ref + 16 } } := by
  simp only [State.holdAccess, if_true, State.rootRestart, hr, hf, h2, Bool.and_self, Bool.true_and, decide_true, Bool.and_true]
  cases hreq : s.boot.rootReq
  case false => rfl
  case true =>
    simp only [Bool.not_true, Bool.false_eq_true, if_false, if_true]

/-- A domain in RETENTION, DEEP SLEEP or OFF takes nothing and is told. -/
theorem mgt_asleep (hu : s.mgtUp = true) (hd : (s.dom d).state = 3 ∨ (s.dom d).state = 4) :
    s.mgt c (some d) f = s.onPins fun q => { q with mgtPwr := true } := by
  have hwin : ¬ s.winOn d = true := by
    simp only [State.winOn, decide_eq_true_eq]
    omega
  have hoff : (decide ((s.dom d).state = 3) || decide ((s.dom d).state = 4)) = true := by simpa using hd
  simp only [State.mgt, State.gated, hu, hwin, hoff, Option.map_some, Option.getD_some, Bool.not_true, Bool.false_eq_true, if_false]

/-- An absent bay takes nothing, and clears MGT_PWR. -/
theorem mgt_absent (hu : s.mgtUp = true) (hd : (s.dom d).state = 5) : s.mgt c (some d) f = s.wrote := by
  have hwin : ¬ s.winOn d = true := by
    simp only [State.winOn, decide_eq_true_eq]
    omega
  simp [State.mgt, State.gated, hu, hwin, hd, State.wrote]

end port

/-! ### Offsets -/

/-- Entry `k` of a table of `n` entries of `w` bytes each, at byte `r` of it. -/
theorem slotAt_entry {a base w n k r : Nat} (ha : a = base + w * k + r) (hr : r < w) (hk : k < n) : slotAt a base w n = some (k, r) := by
  subst ha
  have hend : w * k + r < w * n := by
    calc w * k + r < w * (k + 1) := by rw [Nat.mul_succ]; omega
      _ ≤ w * n := Nat.mul_le_mul_left w hk
  have hsub : base + w * k + r - base = r + w * k := by omega
  rw [slotAt, if_pos ⟨by omega, by omega⟩, hsub, Nat.add_mul_div_left _ _ (by omega), Nat.div_eq_of_lt hr, Nat.add_mul_mod_self_left,
    Nat.mod_eq_of_lt hr, Nat.zero_add]

theorem slotAt_outside {a base w n : Nat} (h : a < base ∨ base + w * n ≤ a) : slotAt a base w n = none :=
  if_neg (by omega)

/-! ### What a register takes -/

section registers
variable {s : State} (v : Nat)

theorem regPoke_cGap : s.regPoke 0x010014 v = s.onSluice fun q => { q with cGap := v % 2 ^ 8 } := by
  rw [← fld_zero]
  rfl

theorem regPoke_boltEnable : s.regPoke 0x030000 v = s.onPwu fun p => { p with boltEnable := bitOf v 0 } := rfl

theorem regPoke_weir : s.regPoke 0x040000 v = { s with weir := { s.weir with enable := bitOf v 0, nanPolicy := bitOf v 1 } } := rfl

variable {k : Nat}

/-! The registers of a table: the offset in its window is that of no single register, and names one entry. -/

theorem regPoke_weight (hk : k < 64) : s.regPoke (0x010200 + 4 * k) v = s.onCx k fun x => { x with weight := v % 2 ^ 8 } := by
  have hwin : (0x010200 + 4 * k) / 0x10000 = 0x01 := by omega
  have hoff : (0x010200 + 4 * k) % 0x10000 = 0x200 + 4 * k := by omega
  have hslot : slotAt (0x200 + 4 * k) 0x200 4 64 = some (k, 0) := slotAt_entry (r := 0) rfl (by decide) hk
  simp only [State.regPoke, hwin, hoff, State.pokeSluice, ← fld_zero]
  split
  case h_5 => simp only [hslot]
  all_goals omega

theorem regPoke_baymask (hk : k < 64) : s.regPoke (0x010300 + 4 * k) v = s.onCx k fun x => { x with baymask := v } := by
  have hwin : (0x010300 + 4 * k) / 0x10000 = 0x01 := by omega
  have hoff : (0x010300 + 4 * k) % 0x10000 = 0x300 + 4 * k := by omega
  have hout : slotAt (0x300 + 4 * k) 0x200 4 64 = none := slotAt_outside (by omega)
  have hslot : slotAt (0x300 + 4 * k) 0x300 4 64 = some (k, 0) := slotAt_entry (r := 0) rfl (by decide) hk
  simp only [State.regPoke, hwin, hoff, State.pokeSluice]
  split
  case h_5 => simp only [hout, hslot]
  all_goals omega

theorem regPoke_sink (hk : k < 64) : s.regPoke (0x030100 + 4 * k) v =
    s.onCx k fun x => { x with sink := v % 2 ^ 5, win := fld v 8 7 } := by
  have hwin : (0x030100 + 4 * k) / 0x10000 = 0x03 := by omega
  have hoff : (0x030100 + 4 * k) % 0x10000 = 0x100 + 4 * k := by omega
  have hslot : slotAt (0x100 + 4 * k) 0x100 4 64 = some (k, 0) := slotAt_entry (r := 0) rfl (by decide) hk
  simp only [State.regPoke, hwin, hoff, State.pokeBolter, ← fld_zero]
  split
  case h_2 => simp only [hslot]
  all_goals omega

theorem regPoke_t1 (hk : k < 56) : s.regPoke (0x090104 + 16 * k) v = s.onDom k fun x => { x with t1 := v } := by
  have hwin : (0x090104 + 16 * k) / 0x10000 = 0x09 := by omega
  have hoff : (0x090104 + 16 * k) % 0x10000 = 0x104 + 16 * k := by omega
  have hslot : slotAt (0x104 + 16 * k) 0x100 0x10 56 = some (k, 4) := slotAt_entry (r := 4) (by omega) (by decide) hk
  simp only [State.regPoke, hwin, hoff, State.pokePwr]
  split
  case h_4 => simp only [hslot]
  all_goals omega

/-- The window of bay `k` holds its debug address. -/
theorem regPoke_dbgAddr (hk : k < 32) : s.regPoke (0x100410 + 0x10000 * k) v = s.onBy k fun x => { x with dbgAddr := v % 2 ^ 19 } := by
  have hwin : (0x100410 + 0x10000 * k) / 0x10000 = 0x10 + k := by omega
  have hoff : (0x100410 + 0x10000 * k) % 0x10000 = 0x410 := by omega
  simp only [State.regPoke, hwin, hoff, State.pokeBay, ← fld_zero]
  split
  case h_11 => rw [if_pos (by omega), Nat.add_sub_cancel_left]
  all_goals omega

/-! Offsets without a register that software writes. -/

variable {a : Nat}

/-- The identification window is read-only (R31). -/
theorem regPoke_id (ha : a < 0x010000) : s.regPoke a v = s := by
  have hwin : a / 0x10000 = 0 := by omega
  simp only [State.regPoke, hwin]
  rfl

/-- The windows of the protection unit are read-only (R502). -/
theorem regPoke_windows (h1 : 0x084000 ≤ a) (h2 : a < 0x088000) : s.regPoke a v = s := by
  have hwin : a / 0x10000 = 0x08 := by omega
  have hout : slotAt (a % 0x10000) 0x1000 0x1000 1 = none := slotAt_outside (by omega)
  simp only [State.regPoke, hwin, State.pokeProt]
  split
  case h_4 => simp only [hout]
  all_goals omega

end registers

/-- Settles O59: a write by the state of the port and of the register's domain, and the register at each offset shown. -/
theorem managementWrites : Obligations.ManagementWrites := by
  unfold Obligations.ManagementWrites
  intro s addr v a n
  have hrow : exec (.mgtWrite addr v) s = .next (s.mgt (.mgtWrite addr v) (regDom a) fun s => s.regPoke a n) := rfl
  refine ⟨fun h => ?down, fun hr h2 hf => ?stopped, fun d hu hd hs => ?asleep, fun d hu hd hs => ?absent, fun ho => ?takes⟩
  case down =>
    have hup : s.mgtUp = false := by
      rw [← Bool.not_eq_true, mgtUp_iff]
      rintro ⟨hr, h2, -⟩
      rcases h with h | h
      · exact absurd (h.symm.trans hr) (by decide)
      · omega
    rw [hrow, State.mgt_down hup, holdAccess_off h]
  case stopped =>
    have hup : s.mgtUp = false := by
      rw [← Bool.not_eq_true, mgtUp_iff]
      rintro ⟨-, -, href⟩
      exact absurd (hf.symm.trans href) (by decide)
    rw [hrow, State.mgt_down hup, holdAccess_stopped hr h2 hf]
  case asleep => rw [hrow, hd, mgt_asleep hu hs]
  case absent => rw [hrow, hd, mgt_absent hu hs]
  case takes =>
    rw [hrow, State.mgt_open ho]
    refine ⟨fun h => ?tmo, fun h => ?kept, fun h => ?hold, fun h => ?gap, fun h => ?bolt, fun h => ?weir, fun k hk h => ?inj,
      fun c hc h => ?weight, fun c hc h => ?baymask, fun c hc h => ?sink, fun d hd h => ?t1, fun b hb h => ?dbg, fun h => ?id,
      fun h1 h2 => ?windows⟩
    case tmo => rw [h, regPoke_tmo]
    case kept => rw [h, regPoke_poisonKept, bitOf_eq_testBit]; rfl
    case hold =>
      have hlt : fld n 16 16 = n / 2 ^ 16 := Nat.mod_eq_of_lt (by have := v.isLt; omega)
      rw [h, regPoke_hold, hlt]
      rfl
    case gap => rw [h, regPoke_cGap]; rfl
    case bolt => rw [h, regPoke_boltEnable, bitOf_eq_testBit]; rfl
    case weir => rw [h, regPoke_weir, bitOf_eq_testBit, bitOf_eq_testBit]; rfl
    case inj => rw [h, regPoke_inj n ⟨k, hk⟩, BitVec.ofNat_toNat, BitVec.setWidth_eq]
    case weight => rw [h, regPoke_weight n hc]
    case baymask => rw [h, regPoke_baymask n hc]
    case sink => rw [h, regPoke_sink n hc]; rfl
    case t1 => rw [h, regPoke_t1 n hd]
    case dbg => rw [h, regPoke_dbgAddr n hb]
    case id => rw [regPoke_id n h]
    case windows => rw [regPoke_windows n h1 h2]

end Sys2Proof.Machine
end

section
/-!
SUPPORT. The Weir's own commands (R485, R491, R493): what the deadline of a bucket closes where its folds are not all acknowledged, and
what CSTATE sets while no bucket is open.
-/

namespace Sys2Proof.Machine

/-! ### Buckets by their key -/

section key
variable {s : State} {job bkt : Nat}

/-- A bucket that is found has the job and number it was looked for by. -/
theorem key_of_bucket {b : Bucket} (hb : s.bucket job bkt = some b) : b.job = job ∧ b.bkt = bkt := by
  have hk : b.is job bkt = true := List.find?_some (p := fun y : Bucket => y.is job bkt) hb
  simpa [Bucket.is] using hk

/-- An update that keeps every bucket's key is read back through that key. -/
theorem bucket_onBucket {f : Bucket → Bucket} (hf : ∀ b, (f b).is job bkt = b.is job bkt) :
    (s.onBucket job bkt f).bucket job bkt = (s.bucket job bkt).map f := by
  have hkeep : (fun b : Bucket => b.is job bkt) ∘ (fun b => if b.is job bkt then f b else b) = fun b => b.is job bkt := by
    funext b
    by_cases h : b.is job bkt = true <;> simp [h, hf]
  simp only [State.bucket, State.onBucket, List.find?_map, hkeep]
  cases h : s.weir.buckets.find? (fun b => b.is job bkt) with
  | none => rfl
  | some b => simp [List.find?_some h]

end key

/-! ### The deadline of a bucket (R485) -/

section deadline
variable {s : State} {job : BitVec 12} {bkt : W32} {b : Bucket} {i : Inst} {o : LinkOp}

/-- An open bucket of an operation in flight: it goes on at its deadline, and not before. -/
theorem exec_bucketDeadline (hb : s.bucket job.toNat bkt.toNat = some b) (hi : s.inst b.inst = some i) (ho : i.link = some o)
    (hs : b.started = true) (hc : b.closed = false) : exec (.bucketDeadline job bkt) s =
      .next (if b.t0 + o.dl ≤ s.time.xclk then s.weirProgress job.toNat bkt.toNat else s) := by
  show execBucketDeadline job bkt s = _
  by_cases hd : b.t0 + o.dl ≤ s.time.xclk <;> simp [execBucketDeadline, idle, hb, hi, ho, hs, hc, hd]

end deadline

/-- A bucket closed after `n` cycles. -/
def Bucket.closedAfter (b : Bucket) (n : Nat) : Bucket := { b with closed := true, closeAt := n % 2 ^ 32 }

@[simp] theorem closedAfter_is (b : Bucket) (n job bkt : Nat) : (b.closedAfter n).is job bkt = b.is job bkt := rfl

section close
variable {s : State} {job bkt : Nat} {b : Bucket} {i : Inst} {o : LinkOp}

/-- A bucket with no contribution has no local one to decide. -/
theorem settleLocal_empty (hn : b.contribs = []) : s.settleLocal i o b = s := by
  simp [State.settleLocal, hn]

/-- The close of a bucket with no contribution makes none late: it marks the bucket, and keeps its key (R486). -/
theorem closeBucket_empty (hn : b.contribs = []) : s.closeBucket i o b =
    (let t := s.onBucket b.job b.bkt (·.closedAfter (min (s.time.xclk - b.t0) o.dl))
     { t with weir := { t.weir with closedKeys := (⟨b.job, b.bkt, o.rx, []⟩ :: t.weir.closedKeys).take 64 } }) := by
  simp only [State.closeBucket, hn, List.filter_nil, List.foldl_nil]
  rfl

theorem folding_closeBucket_empty (hn : b.contribs = []) : (s.closeBucket i o b).folding job bkt = s.folding job bkt := by
  rw [closeBucket_empty hn]
  rfl

/-- At its deadline a bucket closes, and it ends only once its folds are acknowledged (R490). -/
theorem weirProgress_due_folding (hb : s.bucket job bkt = some b) (hi : s.inst b.inst = some i) (ho : i.link = some o)
    (hs : b.started = true) (hc : b.closed = false) (hd : b.t0 + o.dl ≤ s.time.xclk) (hn : b.contribs = [])
    (hf : s.folding job bkt = true) : s.weirProgress job bkt = s.closeBucket i o b := by
  have hfold : (s.closeBucket i o b).folding job bkt = true := (folding_closeBucket_empty hn).trans hf
  simp [State.weirProgress, hb, hi, ho, settleLocal_empty hn, hs, hc, hd, hfold]

/-- The bucket that a deadline closes was closed after DL cycles, however late the command notices it. -/
theorem bucket_closeBucket_due (hb : s.bucket job bkt = some b) (hd : b.t0 + o.dl ≤ s.time.xclk) (hn : b.contribs = []) :
    (s.closeBucket i o b).bucket job bkt = some (b.closedAfter o.dl) := by
  obtain ⟨rfl, rfl⟩ := key_of_bucket hb
  have hat : min (s.time.xclk - b.t0) o.dl = o.dl := by omega
  have hread : (s.onBucket b.job b.bkt (·.closedAfter o.dl)).bucket b.job b.bkt = some (b.closedAfter o.dl) := by
    rw [bucket_onBucket fun y => closedAfter_is y _ _ _, hb, Option.map_some]
  rw [closeBucket_empty hn, hat]
  exact hread

end close

/-! ### CSTATE (R491, R493) -/

/-- The contributor states after a write of word `w` (R495): each of its 16 fields, but one that holds the reserved 3. -/
def cstatesAfter (w v : Nat) (m : Map Nat) : Map Nat :=
  (List.range 16).foldl (fun m j => if fld v (2 * j) 2 = 3 then m else Map.set 0 m (16 * w + j) (fld v (2 * j) 2)) m

/-- With no bucket, a contributor written DEAD has none to leave. -/
theorem writeCstate_of_no_bucket {s : State} (hb : s.weir.buckets = []) (w v : Nat) :
    s.writeCstate w v = { s with weir := { s.weir with cstate := cstatesAfter w v s.weir.cstate } } := by
  refine List.foldl_hom (fun m : Map Nat => { s with weir := { s.weir with cstate := m } }) fun m j => ?_
  by_cases hx : fld v (2 * j) 2 = 3 <;> simp [hx, hb]

/-- Settles O45: the row at and before the deadline, the close of a bucket that still folds, and CSTATE with no bucket. -/
theorem weirCommands : Obligations.WeirCommands := by
  unfold Obligations.WeirCommands
  refine ⟨fun s job bkt b i o hb hi ho hs hc => ?deadline, fun s k v hopen hb => ?cstate⟩
  case deadline =>
    have hrow := exec_bucketDeadline hb hi ho hs hc
    refine ⟨fun hd => ?due, fun hd => ?early, fun hd _ _ hn hf => ?closes⟩
    case due => rw [hrow, if_pos hd]
    case early => rw [hrow, if_neg (Nat.not_le.2 hd)]
    case closes =>
      rw [hrow, if_pos hd, weirProgress_due_folding hb hi ho hs hc hd hn hf]
      exact ⟨_, rfl, _, bucket_closeBucket_due hb hd hn, rfl, rfl⟩
  case cstate =>
    show execCstateWrite k v s = _
    rw [execCstateWrite, State.mgt_open hopen, writeCstate_of_no_bucket hb]
    rfl

end Sys2Proof.Machine
end

section
/-!
SUPPORT. Miller faults (R348, R509): the cause that the word at the Miller's instruction address gives, and the restart.
-/

namespace Sys2Proof.Machine

section faults
variable {s : State} {w : W32}

/-- Outside its local store the Miller finds no word. -/
theorem millerCause_outside (h : millerSize < s.miller.pc + 4) : s.millerCause = some 3 := by
  simp [State.millerCause, State.millerWord, Nat.not_le.2 h]

theorem millerCause_long (hw : s.millerWord = some w) (h : w.getLsbD 0 = true) : s.millerCause = some 1 := by
  simp [State.millerCause, hw, bitOf_eq_getLsbD, h]

theorem millerCause_excluded (hw : s.millerWord = some w) (h : w.getLsbD 0 = false) (hx : millerExcluded (fld w.toNat 1 6) = true) :
    s.millerCause = some 2 := by
  rw [← bitOf_eq_getLsbD] at h
  simp [State.millerCause, hw, h, hx]

/-- A load or store whose eight bytes do not all lie in the local store. -/
theorem millerCause_access {op : Nat} (hw : s.millerWord = some w) (hl : Legal op w) (hop : op = 0x0F ∨ op = 0x10)
    (ha : millerSize < (regRead s.miller.s (fa w) + BitVec.ofInt 64 (simm w * 8)).toNat + 8) : s.millerCause = some 3 := by
  obtain ⟨hi, hbad⟩ := hl
  simp only [shortIs, Bool.and_eq_true, beq_iff_eq, Bool.not_eq_true'] at hi
  obtain ⟨h0, rfl⟩ := hi
  have hx : millerExcluded (fld w.toNat 1 6) = false := by rcases hop with h | h <;> rw [h] <;> rfl
  simp only [State.millerCause, hw, h0, hx, hbad, hop, ha, Bool.false_eq_true, Bool.or_self, if_false, if_true, or_true]

theorem exec_millerFault {k : Nat} (hr : s.millerRuns = true) (hk : s.millerCause = some k) :
    exec .millerFault s = .next (s.millerFault' k) := by
  show execMillerFault s = _
  simp [execMillerFault, hr, hk]

end faults

/-- Settles O19, cause by cause: where there is no word, a long word, an excluded opcode, an access outside the store. -/
theorem millerFaults : Obligations.MillerFaults := by
  unfold Obligations.MillerFaults
  intro s hr
  refine ⟨fun h => ?outside, fun w hw h => ?long, fun w hw h hlo hhi => ?excluded, fun w hw hl ha => ?access⟩
  case outside => exact exec_millerFault hr (millerCause_outside h)
  case long => exact exec_millerFault hr (millerCause_long hw h)
  case excluded =>
    have hx : millerExcluded (fld w.toNat 1 6) = true := by simp [millerExcluded, hlo, hhi]
    exact exec_millerFault hr (millerCause_excluded hw h hx)
  case access =>
    rcases hl with hl | hl
    · exact exec_millerFault hr (millerCause_access hw hl (.inl rfl) ha)
    · exact exec_millerFault hr (millerCause_access hw hl (.inr rfl) ha)

end Sys2Proof.Machine
end

section
/-!
SUPPORT. The scarf commit (R502 to R510): a party's step over the sideband port, the checks of a change in their order, and the image check.
-/

namespace Sys2Proof.Machine

/-- A step that the operator takes over the sideband port, while the management registers answer. -/
theorem byParty_operator {s : State} {c : Instr} {f : State → State} (h : s.mgtUp = true) : s.byParty c true f = f s := by
  simp [State.byParty, h]

theorem exec_scarfStageWrite_operator {s : State} (h : s.mgtUp = true) (off : BitVec 12) (v : W32) :
    exec (.scarfStageWrite true off v) s = .next (s.stage true off.toNat v) :=
  congrArg Host.Outcome.next (byParty_operator h)

/-- A machine that answers, whose last access of the management port found a domain down: MGT_PWR is 1 (R457). -/
def mgtPwrHigh : State :=
  { boot := { rstN := true, step := 2, onRef := false }, pins := { mgtPwr := true } }

theorem mgtPwrHigh_open : mgtPwrHigh.Open none := ⟨by decide, rfl⟩

/-- The operator's word is kept, and MGT_PWR is as it was. -/
theorem stage_mgtPwrHigh : Map.get 0 (mgtPwrHigh.stage true 0 1).prot.scarf.areaO 0 = 1 ∧ (mgtPwrHigh.stage true 0 1).pins.mgtPwr = true := by
  decide

/-- Refutes O52: a step of the operator goes over the sideband port, which has no MGT_PWR (R457, R458). Where an access of the management
port left it 1, the operator's write of a word leaves it 1; the statement has each step of either party clear it. -/
theorem not_scarfSteps : ¬ Obligations.ScarfSteps := by
  unfold Obligations.ScarfSteps
  intro h
  obtain ⟨hstage, -⟩ := h mgtPwrHigh true mgtPwrHigh_open rfl
  obtain ⟨hkept, -⟩ := hstage 0 1 (by decide)
  have hclears := Host.Outcome.next.inj ((exec_scarfStageWrite_operator mgtPwrHigh_open.1 0 1).symm.trans (hkept (by decide) (by decide)))
  have hlow : (mgtPwrHigh.stage true 0 1).pins.mgtPwr = false := congrArg (fun t : State => t.pins.mgtPwr) hclears
  rw [stage_mgtPwrHigh.2] at hlow
  exact absurd hlow (by decide)

/-! ### The checks in their order (R505) -/

/-- The order of R505, by result code. -/
def checkOrder : List Nat := [2, 3, 4, 5, 6, 7, 8]

/-- Whether the check of a result code fails. -/
def State.checkFails (s : State) (k : Nat) : Bool :=
  let x := s.prot.scarf
  match k with
  | 2 => x.digP != x.digO
  | 3 => areaWord x.areaP 0x804 != x.cseq.toNat
  | 4 => decide (s.fuse.keyP = 0 ∨ s.fuse.keyO = 0)
  | 5 => scarfTag s.fuse.keyP 0x50 x.digP != areaTag x.areaP
  | 6 => scarfTag s.fuse.keyO 0x4F x.digO != areaTag x.areaO
  | 7 => !s.entriesOk
  | _ => !s.precondOk

section checks
variable {s : State}

/-- The result of the checks is that of the first one that fails. -/
theorem scarfFails_eq_find? : s.scarfFails = checkOrder.find? s.checkFails := by
  simp only [checkOrder, find?_cons_eq_ite, List.find?_nil, State.checkFails, State.scarfFails, decide_eq_true_eq, bne_iff_ne]
  rfl

theorem scarfFails_of_first {k : Nat} (hk : k ∈ checkOrder) (hf : s.checkFails k = true)
    (hb : ∀ j ∈ checkOrder.takeWhile (· != k), ¬ s.checkFails j = true) : s.scarfFails = some k := by
  rw [scarfFails_eq_find?, find?_eq_some_of_takeWhile hf hk hb]

theorem scarfFails_of_none (h : ∀ k ∈ checkOrder, ¬ s.checkFails k = true) : s.scarfFails = none := by
  rw [scarfFails_eq_find?, List.find?_eq_none.2 h]

variable (hp : s.prot.scarf.phase = 2) (hi : s.prot.scarf.imaging = false)
include hp hi

theorem exec_scarfCheckDone_fails {k : Nat} (h : s.scarfFails = some k) : exec .scarfCheckDone s = .next (s.scarfDiscard k) := by
  show execScarfCheckDone s = _
  simp [execScarfCheckDone, hp, hi, h]

theorem exec_scarfCheckDone_passes (h : s.scarfFails = none) :
    exec .scarfCheckDone s = .next (if s.namesImage then s.startImage else s.scarfLand) := by
  show execScarfCheckDone s = _
  simp [execScarfCheckDone, hp, hi, h]

end checks

/-! ### The image check (R508, R510) -/

/-- The bytes of the image that the change names. -/
def State.imageBytes (s : State) : List Byte := s.extBytes s.imageOf.1 s.imageOf.2.1

/-- The image came in whole, its digest is the change's and its header is well formed (R508). -/
def State.ImageGood (s : State) (poisoned : Bool) : Prop :=
  poisoned = false ∧ s.prot.scarf.imgBad = false ∧ Crypto.sha256 s.imageBytes = s.imageOf.2.2 ∧
    imageHeaderOk s.imageBytes s.imageOf.2.1 = true

section image
variable {s : State} {poisoned : Bool}

theorem imageBad_iff : (poisoned || s.prot.scarf.imgBad || Crypto.sha256 s.imageBytes != s.imageOf.2.2 ||
    !imageHeaderOk s.imageBytes s.imageOf.2.1) = false ↔ s.ImageGood poisoned := by
  simp [State.ImageGood, and_assoc]

theorem imageDone_bad (h : ¬ s.ImageGood poisoned) : s.imageDone poisoned = s.scarfDiscard scImage :=
  if_pos (Bool.of_not_eq_false (mt imageBad_iff.1 h))

theorem imageDone_precond (h : s.ImageGood poisoned) (hp : s.precondOk = false) : s.imageDone poisoned = s.scarfDiscard scPrecond := by
  refine (if_neg (Bool.eq_false_iff.1 (imageBad_iff.2 h))).trans (if_pos ?_)
  rw [hp]
  rfl

theorem imageDone_good (h : s.ImageGood poisoned) (hp : s.precondOk = true) :
    s.imageDone poisoned = s.scarfLand.loadImage s.imageBytes := by
  refine (if_neg (Bool.eq_false_iff.1 (imageBad_iff.2 h))).trans (if_neg ?_)
  rw [hp]
  decide

theorem exec_scarfImageCheck (hi : s.prot.scarf.imaging = true) (hr : s.imageReads = false) :
    exec (.scarfImageCheck poisoned) s = .next (s.imageCheck poisoned) := by
  show execScarfImageCheck poisoned s = _
  simp [execScarfImageCheck, hi, hr]

theorem result_scarfDiscard (k : Nat) : (s.scarfDiscard k).prot.scarf.result = k := by
  rw [State.scarfDiscard, logErr_prot]
  rfl

/-- Cold start goes on only with a change that lands. -/
theorem imageCheck_of_discard {k : Nat} (h : s.imageDone poisoned = s.scarfDiscard k) (hk : k ≠ scLanded) :
    s.imageCheck poisoned = s.scarfDiscard k := by
  unfold State.imageCheck
  rw [h]
  refine if_neg fun hland => hk ?_
  rw [← hland.2, result_scarfDiscard]

theorem miller_startRound : s.startRound.miller = s.miller := by
  refine List.foldlRecOn (motive := fun t : State => t.miller = s.miller) s.round State.wakeDom rfl fun t ht d _ => ?_
  obtain ⟨q, hq⟩ := wakeDom_only t d
  rw [hq]
  exact ht

/-- The self-test that a landing may begin leaves the Miller as the image left it. -/
theorem miller_imageCheck : (s.imageCheck poisoned).miller = (s.imageDone poisoned).miller := by
  unfold State.imageCheck
  dsimp only
  split
  · exact miller_startRound
  · rfl

/-- The local store holds the image, and zero above it. -/
theorem store_loadImage (bs : List Byte) (k : Nat) : Map.get 0 (s.loadImage bs).miller.store k = bs[k]?.getD 0 := by
  show Map.get 0 (Map.setMany 0 [] (cells 0 bs)) k = _
  rw [get_setMany_cells rfl]
  by_cases hk : k < bs.length <;> simp [hk]

/-- The Miller starts at the image's RESET_ENTRY with its registers zero. -/
theorem miller_loadImage (bs : List Byte) :
    let t := (s.loadImage bs).miller
    t.pc = leAt bs 8 4 ∧ t.resetEntry = leAt bs 8 4 ∧ t.faultEntry = leAt bs 12 4 ∧ t.started = true ∧ t.inReset = false ∧ t.s = [] ∧
      t.p = [] :=
  ⟨rfl, rfl, rfl, rfl, rfl, rfl, rfl⟩

end image

/-- Settles O53: the checks are a search for the first that fails; the image check by what came in, and a landing by what it loads. -/
theorem scarfChecks : Obligations.ScarfChecks := by
  unfold Obligations.ScarfChecks
  refine ⟨fun s hp hi => ?checks, fun s poisoned hi hr => ?image⟩
  case checks =>
    intro x tag fails
    have hfails : ∀ k ∈ checkOrder, fails k ↔ s.checkFails k = true := by
      simp [checkOrder, State.checkFails, fails, x, tag, scarfTag, areaWord]
    refine ⟨fun k hk hf hb => ?fails, fun hn => ?passes⟩
    case fails =>
      refine exec_scarfCheckDone_fails hp hi (scarfFails_of_first hk ((hfails k hk).1 hf) fun j hj => ?_)
      exact fun h => hb j hj ((hfails j (List.takeWhile_subset _ hj)).2 h)
    case passes =>
      exact exec_scarfCheckDone_passes hp hi (scarfFails_of_none fun k hk h => hn k hk ((hfails k hk).2 h))
  case image =>
    intro m bs good
    have hrow := exec_scarfImageCheck (poisoned := poisoned) hi hr
    refine ⟨fun hbad => ?bad, fun hgood hpre => ?precond, fun hgood hpre => ⟨_, hrow, ?lands⟩⟩
    case bad => rw [hrow, imageCheck_of_discard (imageDone_bad hbad) (by decide)]; rfl
    case precond => rw [hrow, imageCheck_of_discard (imageDone_precond hgood hpre) (by decide)]; rfl
    case lands =>
      rw [miller_imageCheck, imageDone_good hgood hpre]
      have habove : ∀ k, bs.length ≤ k → bs[k]?.getD 0 = 0 := fun k hk => by rw [List.getElem?_eq_none hk]; rfl
      exact ⟨fun k _ => store_loadImage bs k, fun k hk => (store_loadImage bs k).trans (habove k hk), miller_loadImage bs⟩

end Sys2Proof.Machine
end

section
/-!
SUPPORT. Fences that firmware sets and clears (R513, R515), detected errors (R518, R524) and ELOG_CONS (R521).
-/

namespace Sys2Proof.Machine

/-! ### FENCE_SET (R513, R470) -/

section setting
variable {s : State} {v : Nat}

theorem exec_fenceSet (ho : s.Open none) (v : W32) : exec (.fenceSet v) s = .next (s.fenceSet v.toNat).wrote :=
  exec_of_mgt (i := .fenceSet v) rfl ho

/-- The fence of no unit, or of one that is fenced, changes nothing. -/
theorem fenceSet_ignored (h : fenceUnits (fld v 0 4) ≤ fld v 8 16 ∨ s.isFenced (fld v 0 4) (fld v 8 16) (fld v 24 8) = true) :
    s.fenceSet v = s := by
  have hbad : (decide (fenceUnits (fld v 0 4) ≤ fld v 8 16) || s.isFenced (fld v 0 4) (fld v 8 16) (fld v 24 8)) = true := by
    simpa using h
  exact if_pos hbad

/-- What a FENCE_SET writes to the log before the fence: for a link FAULT.LINK_DOWN, cause firmware (R470, R524). -/
def State.tellFence (s : State) (scope index : Nat) : State :=
  if scope = 4 then s.logErr { code := Code.fLinkDown, scope := 4, unit := 0x05, index := index, first := true, detail := 2 } else s

theorem tellFence_link (index : Nat) : s.tellFence 4 index =
    s.logErr { code := Code.fLinkDown, scope := 4, unit := 0x05, index := index, first := true, detail := 2 } :=
  if_pos rfl

/-- A fenced link hands on what it holds (R470). -/
theorem afterFence_link (index : Nat) : s.afterFence 4 index = ((s.resendFrom index).moveAcks index).sweepLinks := rfl

/-- The fence of a unit that is not fenced lands. -/
theorem fenceSet_lands (hu : fld v 8 16 < fenceUnits (fld v 0 4)) (hf : s.isFenced (fld v 0 4) (fld v 8 16) (fld v 24 8) = false) :
    s.fenceSet v = ((s.tellFence (fld v 0 4) (fld v 8 16)).fence (fld v 0 4) (fld v 8 16) (fld v 24 8) 0
      (if fld v 0 4 = 6 then (s.seqRec (fld v 8 16)).dom % 16 else 0)).afterFence (fld v 0 4) (fld v 8 16) := by
  have hgood : ¬ (decide (fenceUnits (fld v 0 4) ≤ fld v 8 16) || s.isFenced (fld v 0 4) (fld v 8 16) (fld v 24 8)) = true := by
    simp [hf, hu]
  exact if_neg hgood

end setting

/-! ### FENCE_CLR (R515) -/

/-- The fence that the word names landed in this NCLK cycle. -/
def State.landedNow (s : State) (v : Nat) : Prop :=
  (fld v 0 4, fld v 8 16, if fld v 0 4 = 6 then fld v 24 8 else 0) ∈ s.prot.landed ∧ s.prot.landedAt = s.time.nclk + 1

section clearing
variable {s : State} {v : Nat}

theorem exec_fenceClr (ho : s.Open none) (v : W32) : exec (.fenceClr v) s = .next (s.fenceClr v.toNat).wrote :=
  exec_of_mgt (i := .fenceClr v) rfl ho

theorem landedNow_iff : (s.prot.landed.contains (fld v 0 4, fld v 8 16, if fld v 0 4 = 6 then fld v 24 8 else 0) &&
    s.prot.landedAt == s.time.nclk + 1) = true ↔ s.landedNow v := by
  simp [State.landedNow]

theorem fenceClr_landed (h : s.landedNow v) : s.fenceClr v = s :=
  if_pos (landedNow_iff.2 h)

variable (hn : ¬ s.landedNow v)
include hn

/-- Only a core, a sequence and a domain can be cleared. -/
theorem fenceClr_other (h1 : fld v 0 4 ≠ 1) (h6 : fld v 0 4 ≠ 6) (h7 : fld v 0 4 ≠ 7) : s.fenceClr v = s := by
  refine (if_neg (mt landedNow_iff.1 hn)).trans ?_
  split
  · contradiction
  · contradiction
  · contradiction
  · rfl

/-- A core comes back with nothing in it, where no instruction in flight names it. -/
theorem fenceClr_core_free (hs : fld v 0 4 = 1) (hi : fld v 8 16 < 2048) (hf : Map.get false s.prot.coreF (fld v 8 16) = true)
    (hu : ∀ i ∈ s.instList, i.spans (fld v 8 16) = false) : s.fenceClr v =
    State.onCo { s with prot := { s.prot with coreF := Map.set false s.prot.coreF (fld v 8 16) false } } (fld v 8 16)
      fun x => { x with slots := [], obTag := [] } := by
  have hnone : (s.instList.any fun i => i.spans (fld v 8 16)) = false := by simpa using hu
  refine (if_neg (mt landedNow_iff.1 hn)).trans ?_
  simp [hs, hi, hf, hnone]

theorem fenceClr_core_used (hs : fld v 0 4 = 1) (hu : ∃ i ∈ s.instList, i.spans (fld v 8 16) = true) : s.fenceClr v = s := by
  have hsome : (s.instList.any fun i => i.spans (fld v 8 16)) = true := by simpa using hu
  refine (if_neg (mt landedNow_iff.1 hn)).trans ?_
  simp [hs, hsome]

theorem fenceClr_sequence (hs : fld v 0 4 = 6) : s.fenceClr v = { s with prot := { s.prot with
    seqF := s.prot.seqF.filter fun q => q.2 != some (fld v 8 16, fld v 24 8) } } := by
  refine (if_neg (mt landedNow_iff.1 hn)).trans ?_
  rw [hs]
  rfl

theorem fenceClr_domain (hs : fld v 0 4 = 7) (hi : fld v 8 16 < 16) : s.fenceClr v =
    { s with prot := { s.prot with domF := Map.set false s.prot.domF (fld v 8 16) false } } := by
  refine (if_neg (mt landedNow_iff.1 hn)).trans ?_
  simp [hs, hi]

end clearing

/-! ### Detected errors (R518, R524) -/

section detect
variable {s : State} {g : Fin 2048} {store : Fin 5} {slot : Fin 6}

/-- The error record of a core's store. -/
def coreErr (g : Fin 2048) (store : Fin 5) (slot : Fin 6) : Err :=
  { code := Code.fCoreError, scope := 1, unit := 0x10 + g.val / 64, index := g, detail := store.val + 8 * slot.val }

theorem exec_coreErrorDetect_rest (hon : s.isOn (g.val / 64) = true) :
    exec (.coreErrorDetect g store slot none) s = .next (s.report (coreErr g store slot) 0) := by
  show execCoreErrorDetect g store slot none s = _
  simp only [execCoreErrorDetect, hon, Bool.not_true, Bool.false_eq_true, if_false]
  rfl

/-- The pass of core `g` that an error stops after `k` rows: one of the first bed if it has one ready, else one of the other. -/
def State.stopsPass (s : State) (g k : Nat) : State × Option (Inst × Work) :=
  if (s.startPass g false (some k)).2.isSome then s.startPass g false (some k) else s.startPass g true (some k)

theorem stopsPass_some {k : Nat} {t : State} {q : Inst × Work} (h : s.startPass g false (some k) = (t, some q) ∨
    (s.startPass g false (some k)).2 = none ∧ s.startPass g true (some k) = (t, some q)) : s.stopsPass g k = (t, some q) := by
  unfold State.stopsPass
  rcases h with h | ⟨hno, h⟩
  · simp [h]
  · simp [hno, h]

theorem stopsPass_none {k : Nat} (h1 : (s.startPass g false (some k)).2 = none) (h2 : (s.startPass g true (some k)).2 = none) :
    (s.stopsPass g k).2 = none := by
  simp [State.stopsPass, h1, h2]

theorem exec_coreErrorDetect_pass {k : Nat} {t : State} {i : Inst} {w : Work} (hon : s.isOn (g.val / 64) = true)
    (h : s.stopsPass g k = (t, some (i, w))) : exec (.coreErrorDetect g store slot (some k)) s =
      .next ((((i.touches w).filter fun q => q.1 == g.val).foldl (fun u q => u.poisonTgt (.slot q.1 q.2)) t).instFault i.n
        { coreErr g store slot with poison := true }) := by
  show execCoreErrorDetect g store slot (some k) s = _
  unfold State.stopsPass at h
  simp only [execCoreErrorDetect, hon, Bool.not_true, Bool.false_eq_true, if_false, h]
  rfl

theorem exec_coreErrorDetect_idle {k : Nat} (hon : s.isOn (g.val / 64) = true) (h : (s.stopsPass g k).2 = none) :
    exec (.coreErrorDetect g store slot (some k)) s = .next s := by
  show execCoreErrorDetect g store slot (some k) s = _
  have hp : s.stopsPass g k = ((s.stopsPass g k).1, none) := Prod.ext rfl h
  unfold State.stopsPass at hp
  simp only [execCoreErrorDetect, hon, Bool.not_true, Bool.false_eq_true, if_false]
  rw [hp]
  rfl

theorem exec_bayErrorDetect {b : Fin 32} (hon : s.isOn b = true) :
    exec (.bayErrorDetect b) s = .next (s.report { code := Code.fBayError, scope := 2, unit := 0x10 + b.val, index := b } 0) := by
  show execBayErrorDetect b s = _
  simp [execBayErrorDetect, hon]

end detect

/-! ### ELOG_CONS (R521) -/

section consumed
variable {s : State} {v : W32}

theorem exec_elogConsWrite (ho : s.Open none) : exec (.elogConsWrite v) s = .next (s.writeCons v.toNat).wrote :=
  exec_of_mgt (i := .elogConsWrite v) rfl ho

theorem writeCons_taken (h : (s.log.head + 2 ^ 32 - v.toNat) % 2 ^ 32 ≤ 4096) :
    s.writeCons v.toNat = s.onLog fun l => { l with cons := v.toNat } := by
  rw [State.writeCons, Nat.mod_eq_of_lt v.isLt, if_neg (not_lt.2 h)]

theorem writeCons_ignored (h : 4096 < (s.log.head + 2 ^ 32 - v.toNat) % 2 ^ 32) : s.writeCons v.toNat = s := by
  rw [State.writeCons, Nat.mod_eq_of_lt v.isLt, if_pos h]

end consumed

/-- Settles O51: FENCE_SET and FENCE_CLR by their scope, a core's error by the pass it stops, ELOG_CONS by its distance. -/
theorem fencesAndErrors : Obligations.FencesAndErrors := by
  unfold Obligations.FencesAndErrors
  refine ⟨fun s v ho => ?fences, fun s g store slot hon => ?core, fun s b hon => exec_bayErrorDetect hon, fun s v ho => ?cons⟩
  case fences =>
    intro scope index gen now
    have hlands : index < fenceUnits scope → s.isFenced scope index gen = false → exec (.fenceSet v) s =
        .next (((s.tellFence scope index).fence scope index gen 0 (if scope = 6 then (s.seqRec index).dom % 16 else 0)).afterFence
          scope index).wrote := fun hu hf => by rw [exec_fenceSet ho, fenceSet_lands hu hf]
    refine ⟨fun h => ?ignored, fun hu hf hs => ?unit, fun hs hu hf => ?port, fun hs hu hf => ?link, fun hs hf => ?sequence,
      fun h => ?landed, fun hn hs hi hf => ⟨fun hu => ?free, fun hu => ?used⟩, fun hn hs => ?sequences, fun hn hs hi => ?domain,
      fun h1 h6 h7 => ?other⟩
    case ignored => rw [exec_fenceSet ho, fenceSet_ignored h]
    case unit =>
      rw [hlands hu hf]
      clear_value scope
      rcases hs with rfl | rfl | rfl | rfl <;> rfl
    case port =>
      clear_value scope
      subst hs
      exact hlands hu hf
    case link =>
      clear_value scope
      subst hs
      rw [hlands hu hf, tellFence_link, if_neg (by decide), afterFence_link]
    case sequence =>
      have hu : index < 2 ^ 16 := Nat.mod_lt _ (by decide)
      clear_value scope
      subst hs
      exact hlands hu hf
    case landed => rw [exec_fenceClr ho, fenceClr_landed h]
    case free => rw [exec_fenceClr ho, fenceClr_core_free hn hs hi hf hu]
    case used => rw [exec_fenceClr ho, fenceClr_core_used hn hs hu]
    case sequences => rw [exec_fenceClr ho, fenceClr_sequence hn hs]
    case domain => rw [exec_fenceClr ho, fenceClr_domain hn hs hi]
    case other =>
      rw [exec_fenceClr ho]
      by_cases h : now
      · rw [fenceClr_landed h]
      · rw [fenceClr_other h h1 h6 h7]
  case core =>
    refine ⟨exec_coreErrorDetect_rest hon, fun k t i w h => ?pass, fun k h1 h2 => ?idle⟩
    case pass => exact exec_coreErrorDetect_pass hon (stopsPass_some h)
    case idle => exact exec_coreErrorDetect_idle hon (stopsPass_none h1 h2)
  case cons =>
    rw [exec_elogConsWrite ho]
    exact ⟨fun h => by rw [writeCons_taken h], fun h => by rw [writeCons_ignored h]⟩

end Sys2Proof.Machine
end

section
/-!
SUPPORT. Throttle, voltage confirmation, loss of root, and the root clock (R519, R527, R529, R546).
-/

namespace Sys2Proof.Machine

/-! ### The throttle (R519) -/

section throttle
variable {s : State}

theorem exec_emthrotAssert (h : s.pwr.emthrot = false) (hu : s.mgtUp = true) :
    exec .emthrotAssert s = .next (State.raise { s with pwr := { s.pwr with emthrot := true } } 0x0310 0x09 [1]) := by
  show execEmthrotAssert s = _
  simp only [execEmthrotAssert, h, hu, Bool.false_eq_true, if_false, if_true]
  rfl

theorem exec_emthrotRelease (h : s.pwr.emthrot = true) (hu : s.mgtUp = true) :
    exec .emthrotRelease s = .next (State.raise { s with pwr := { s.pwr with emthrot := false } } 0x0310 0x09 [0]) := by
  show execEmthrotRelease s = _
  simp only [execEmthrotRelease, h, hu, Bool.not_true, Bool.false_eq_true, if_false, if_true]
  rfl

end throttle

/-! ### Voltage confirmation (R529) -/

/-- The input VGOOD counts: not within 4 cycles of a change of VREQ, nor under reset, nor off NCLK. -/
def State.seesVgood (s : State) : Prop := s.pwr.vgoodFrom ≤ s.time.nclk ∧ s.boot.rstN = true ∧ s.boot.onRef = false

section vgood
variable {s : State}

theorem seeVgood_unseen (h : ¬ s.seesVgood ∨ s.pwr.vgood = s.pwr.vgoodPin) : s.seeVgood = s := by
  refine if_pos ?_
  rcases h with h | h
  · simp only [State.seesVgood] at h
    grind
  · exact .inl h

theorem seeVgood_seen (hs : s.seesVgood) (h : s.pwr.vgood ≠ s.pwr.vgoodPin) : s.seeVgood =
    if s.pwr.vgoodPin then ((s.onPwr fun p => { p with vgood := true, vcodeEff := p.vreq }).driveV).bootStep2
    else s.onPwr fun p => { p with vgood := false } := by
  obtain ⟨hfrom, hrst, href⟩ := hs
  refine if_neg ?_
  simp [h, hrst, href, hfrom]

theorem bootStep2_of_ne (h : s.boot.step ≠ 2) : s.bootStep2 = s :=
  if_neg fun h2 => h h2.1

theorem driveV_same (h : s.pwr.vcode = s.pwr.vreq) : s.driveV = s :=
  if_neg fun hd => hd.2.2 h

theorem driveV_new (href : s.boot.onRef = false) (hg : s.pwr.vgood = true) (h : s.pwr.vcode ≠ s.pwr.vreq) :
    s.driveV = s.onPwr fun p => { p with vreq := p.vcode, vgood := false, vgoodFrom := s.time.nclk + 4 } :=
  if_pos ⟨by simp [href], hg, h⟩

@[simp] theorem driveV_boot : s.driveV.boot = s.boot := by
  unfold State.driveV
  split <;> rfl

@[simp] theorem driveV_time : s.driveV.time = s.time := by
  unfold State.driveV
  split <;> rfl

/-- In no step of cold start but the second does VGOOD move it. -/
theorem seeVgood_boot (h : s.boot.step ≠ 2) : s.seeVgood.boot = s.boot ∧ s.seeVgood.time = s.time := by
  unfold State.seeVgood
  dsimp only
  split
  · exact ⟨rfl, rfl⟩
  split
  · rw [bootStep2_of_ne (by simpa using h)]
    simp
  · exact ⟨rfl, rfl⟩

theorem exec_vgoodChange_unseen {g : Bool} (h : ¬ s.seesVgood ∨ s.pwr.vgood = g) :
    exec (.vgoodChange g) s = .next { s with pwr := { s.pwr with vgoodPin := g } } :=
  congrArg Host.Outcome.next (seeVgood_unseen (s := s.onPwr fun p => { p with vgoodPin := g }) h)

/-- VGOOD confirms the code that VREQ requests. -/
def State.confirmed (s : State) : State := s.onPwr fun p => { p with vgoodPin := true, vgood := true, vcodeEff := p.vreq }

theorem exec_vgoodChange_rises (hs : s.seesVgood) (h : s.pwr.vgood = false) (h2 : s.boot.step ≠ 2) :
    exec (.vgoodChange true) s = .next s.confirmed.driveV := by
  have hsee := seeVgood_seen (s := s.onPwr fun p => { p with vgoodPin := true }) hs (by simp [State.onPwr, h])
  have hboot : s.confirmed.driveV.bootStep2 = s.confirmed.driveV := bootStep2_of_ne (by rw [driveV_boot]; exact h2)
  exact congrArg Host.Outcome.next (hsee.trans hboot)

theorem exec_vgoodChange_falls (hs : s.seesVgood) (h : s.pwr.vgood = true) :
    exec (.vgoodChange false) s = .next { s with pwr := { s.pwr with vgoodPin := false, vgood := false } } :=
  congrArg Host.Outcome.next (seeVgood_seen (s := s.onPwr fun p => { p with vgoodPin := false }) hs (by simp [State.onPwr, h]))

end vgood

/-! ### A loss of root (R527) -/

theorem pwr_foldl {α : Type} {f : State → α → State} (hf : ∀ t a, (f t a).pwr = t.pwr) (l : List α) (s : State) :
    (l.foldl f s).pwr = s.pwr :=
  List.foldlRecOn (motive := fun t => t.pwr = s.pwr) l f rfl fun t ht a _ => (hf t a).trans ht

/-- What a domain loses in OFF leaves the supplies of every domain. -/
theorem toOff_pwr (s : State) (d : Nat) : (s.toOff d).pwr = s.pwr := by
  unfold State.toOff State.allCtx
  dsimp only
  split
  · rfl
  split
  · rw [pwr_foldl fun _ _ => onPort_pwr _ _ _]; rfl
  split
  · rw [pwr_foldl fun _ _ => onLink_pwr _ _ _]; rfl
  split
  · rw [pwr_foldl fun _ _ => onCx_pwr _ _ _]
  split
  · rw [pwr_foldl fun _ _ => onCx_pwr _ _ _]
  split
  · rfl
  split
  · rw [pwr_foldl fun _ _ => onCx_pwr _ _ _]; rfl
  · rfl

/-- What a loss of root leaves of a present domain: off, no supply requested, its limits and what the supplies confirm as they were. -/
def Dom.lost (x : Dom) : Dom := { good := x.good, t1 := x.t1, t2 := x.t2, t3 := x.t3 }

/-- A domain isolated by a loss of root, where it is present. -/
def Dom.isolated (x : Dom) : Dom := if x.state = 5 then x else x.lost

def State.isolate (s : State) (d : Nat) : State := if (s.dom d).state = 5 then s else (s.onDom d Dom.lost).toOff d

section loss
variable {s : State}

theorem wf_doms_isolate (h : Map.wf {} s.pwr.doms = true) (d : Nat) : Map.wf {} (s.isolate d).pwr.doms = true := by
  unfold State.isolate
  split
  · exact h
  · rw [toOff_pwr]
    exact Map.wf_modify h d Dom.lost

theorem dom_isolate (h : Map.wf {} s.pwr.doms = true) (d k : Nat) :
    (s.isolate d).dom k = if k = d then (s.dom d).isolated else s.dom k := by
  unfold State.isolate Dom.isolated
  split
  · split
    · next e => rw [e]
    · rfl
  · rw [State.dom, toOff_pwr]
    exact dom_onDom h d k Dom.lost

theorem dom_foldl_isolate {l : List Nat} (hl : l.Nodup) (h : Map.wf {} s.pwr.doms = true) (k : Nat) :
    (l.foldl State.isolate s).dom k = if k ∈ l then (s.dom k).isolated else s.dom k := by
  induction l generalizing s with
  | nil => rfl
  | cons d l ih =>
    obtain ⟨hd, hl⟩ := List.nodup_cons.1 hl
    rw [List.foldl_cons, ih hl (wf_doms_isolate h d), dom_isolate h]
    by_cases hk : k = d
    · subst hk
      simp [hd]
    · simp [hk]

theorem rootLost_eq (s : State) : s.rootLost = ({ allDoms.foldl State.isolate s with insts := [], hop := {} } : State).onBoot fun b =>
    { b with rootLoss := true, onRef := true, ready := false, step := 0, access := [] } := rfl

theorem pwr_rootLost (s : State) : s.rootLost.pwr = (allDoms.foldl State.isolate s).pwr := by
  rw [rootLost_eq]
  generalize allDoms.foldl State.isolate s = t
  rfl

theorem dom_rootLost (h : Map.wf {} s.pwr.doms = true) {d : Nat} (hd : d < 56) (hp : (s.dom d).state ≠ 5) :
    (s.rootLost.dom d).state = 4 ∧ (s.rootLost.dom d).req = 0 := by
  have hmem : d ∈ allDoms := by simpa [allDoms] using hd
  have hnodup : allDoms.Nodup := by
    unfold allDoms
    exact List.nodup_range
  have hdom : s.rootLost.dom d = (s.dom d).isolated := by
    rw [State.dom, pwr_rootLost]
    exact (dom_foldl_isolate hnodup h d).trans (if_pos hmem)
  rw [hdom, Dom.isolated, if_neg hp]
  exact ⟨rfl, rfl⟩

/-- A loss of root is told, nothing is in flight, and the management registers answer only once a cold start has come that far. -/
theorem rootLost_ends : s.rootLost.boot.rootLoss = true ∧ s.rootLost.boot.onRef = true ∧ s.rootLost.boot.ready = false ∧
    s.rootLost.mgtUp = false ∧ s.rootLost.insts = [] := by
  rw [rootLost_eq]
  generalize allDoms.foldl State.isolate s = t
  exact ⟨rfl, rfl, rfl, by simp [State.mgtUp, State.onBoot], rfl⟩

/-- A loss of lock while the clock is requested. -/
theorem exec_rootLockLoss_requested (h : s.boot.rootLock = true) (hr : s.boot.rstN = true) (hq : s.boot.rootReq = true) :
    exec .rootLockLoss s = .next (State.rootLost { s with boot := { s.boot with rootLock := false } }) :=
  (if_neg (by simp [h])).trans (congrArg Host.Outcome.next (if_pos (by simp [hr, hq])))

theorem exec_rootLockLoss_unrequested (h : s.boot.rootLock = true) (hq : s.boot.rootReq = false) :
    exec .rootLockLoss s = .next { s with boot := { s.boot with rootLock := false } } :=
  (if_neg (by simp [h])).trans (congrArg Host.Outcome.next (if_neg (by simp [hq])))

theorem exec_rootLockRise (h : s.boot.rootLock = false) : exec .rootLockRise s =
    .next { s with boot := { s.boot with rootLock := true, lockSince := s.time.ref, usableAt := s.time.ref + 18 } } := by
  show execRootLockRise s = _
  simp only [execRootLockRise, h, Bool.false_eq_true, if_false]
  rfl

end loss

/-! ### The island on REF_CLK (R527, R546) -/

section island
variable {s : State}

theorem rootUsable_boot (h : 3 ≤ s.boot.step) :
    s.rootUsable.boot = { s.boot with onRef := false } ∧ s.rootUsable.time = s.time := by
  have hu : s.rootUsable = ((s.onBoot fun b => { b with onRef := false }).driveV).seeVgood.bootStep2 := if_neg (by omega)
  have hstep : (s.onBoot fun b => { b with onRef := false }).driveV.boot.step ≠ 2 := by
    rw [driveV_boot]
    show s.boot.step ≠ 2
    omega
  obtain ⟨hboot, htime⟩ := seeVgood_boot hstep
  rw [hu, bootStep2_of_ne (by rw [hboot]; exact hstep), hboot, htime, driveV_boot, driveV_time]
  exact ⟨rfl, rfl⟩

theorem rootWait_boot (hr : s.boot.rstN = true) (hf : s.boot.onRef = true) (hq : s.boot.rootReq = true) (hl : s.boot.rootLock = true)
    (h : 3 ≤ s.boot.step) : s.rootWait.time = s.time ∧
      s.rootWait.boot = if s.boot.usableAt ≤ s.time.ref then { s.boot with onRef := false } else s.boot := by
  obtain ⟨hboot, htime⟩ := rootUsable_boot h
  have hwait : (s.boot.rstN && s.boot.onRef && s.boot.rootReq && s.boot.rootLock && decide (s.boot.usableAt ≤ s.time.ref)) =
      decide (s.boot.usableAt ≤ s.time.ref) := by
    simp [hr, hf, hq, hl]
  unfold State.rootWait
  simp only [hwait, decide_eq_true_eq]
  split
  · exact ⟨htime, hboot⟩
  · exact ⟨rfl, rfl⟩

/-- With no command waiting and the root clock not in use, a cycle of it passes. -/
theorem step_onRef (hp : s.pending = []) (hf : s.boot.onRef = true) : step s = .next s.tick := by
  have hdown : ¬ s.mgtUp = true := by simp [State.mgtUp, hf]
  unfold step
  rw [hp]
  dsimp only
  split
  · rw [if_neg hdown]
  · rfl

theorem tick_boot (s : State) : s.tick.boot = s.clocked.boot := by
  obtain ⟨b, m, h⟩ := storeError_only s.clocked
  rw [State.tick, h]

theorem edge_ref (n : Nat) : edge n 64 false = if n % 64 = 0 then 1 else 0 := by
  by_cases h : n % 64 = 0 <;> simp [edge, b2n, h]

/-- A cycle of the root clock as the island on REF_CLK counts it. -/
def State.refTick (s : State) : State :=
  { s with time := { s.time with root := s.time.root + 1, ref := s.time.ref + if (s.time.root + 1) % 64 = 0 then 1 else 0 } }

theorem clocked_onRef (hf : s.boot.onRef = true) : s.clocked = s.refTick.rootWait := by
  rw [State.refTick, ← edge_ref]
  exact if_pos hf

/-- Every domain is in RETENTION, DEEP SLEEP, OFF or absent, and stays there. -/
def State.AllDown (s : State) : Prop := ∀ d, d < 56 → 3 ≤ (s.dom d).state ∧ (s.dom d).entering = false ∧ (s.dom d).exiting = false

theorem allDown_iff : (allDoms.all fun d => decide (3 ≤ (s.dom d).state) && !(s.dom d).entering && !(s.dom d).exiting) = true ↔
    s.AllDown := by
  simp [State.AllDown, allDoms, and_assoc]

theorem exec_rootStop_stops (he : s.pwr.rootStopEn = true) (hf : s.boot.onRef = false) (hr : s.boot.rstN = true)
    (ha : s.boot.access = []) (hd : s.AllDown) :
    exec .rootStop s = .next { s with boot := { s.boot with onRef := true, rootReq := false } } :=
  if_pos ⟨he, by rw [hf]; rfl, hr, ha, allDown_iff.2 hd⟩

theorem exec_rootStop_goes (h : s.pwr.rootStopEn = false ∨ s.boot.access ≠ [] ∨ ¬ s.AllDown) : exec .rootStop s = .next s := by
  refine if_neg fun ⟨he, _, _, ha, hd⟩ => ?_
  rcases h with h | h | h
  · exact absurd he (by simp [h])
  · exact h ha
  · exact h (allDown_iff.1 hd)

theorem exec_rootRestart_requests (hr : s.boot.rstN = true) (hf : s.boot.onRef = true) (h : 2 ≤ s.boot.step) (hq : s.boot.rootReq = false) :
    exec .rootRestart s = .next { s with boot := { s.boot with
      rootReq := true, usableAt := max (s.boot.lockSince + 2) s.time.ref + 16 } } :=
  congrArg Host.Outcome.next (if_pos (by simp [hr, hf, h, hq]))

theorem exec_rootRestart_requested (hq : s.boot.rootReq = true) : exec .rootRestart s = .next s :=
  congrArg Host.Outcome.next (if_neg (by simp [hq]))

theorem exec_niaWake_stopped (hf : s.boot.onRef = true) : exec .niaWake s = .next (s.holdAccess .niaWake) :=
  if_pos hf

/-- A Miller that is down wakes with cause 2. -/
theorem exec_niaWake_down (hr : s.boot.rstN = true) (h : 4 ≤ s.boot.step) (hf : s.boot.onRef = false) (hd : 2 ≤ (s.dom 55).state)
    (hx : (s.dom 55).exiting = false) :
    exec .niaWake s = .next (State.wakeDom { s with boot := { s.boot with wakeCause := 2 } } 55) := by
  have hrow : exec .niaWake s = .next (s.startMiller 2) := by
    show execNiaWake s = _
    have h4 : ¬ s.boot.step < 4 := by omega
    have h0 : ¬ (s.dom 55).state = 0 := by omega
    simp [execNiaWake, hf, hr, h4, h0, hx]
  rw [hrow, State.startMiller]
  simp [hd]

end island

/-- Settles O57: VGOOD by whether it is seen, a loss of root by a run over the domains, the island's move by the cycle that makes it. -/
theorem clocksAndThrottle : Obligations.ClocksAndThrottle := by
  unfold Obligations.ClocksAndThrottle
  intro s
  refine ⟨exec_emthrotAssert, exec_emthrotRelease, ?vgood, fun hc hl hr hq => ?loss, exec_rootLockLoss_unrequested, exec_rootLockRise,
    fun hp hf hr hq hl h3 => ?cycle, ⟨exec_rootStop_stops, exec_rootStop_goes⟩, fun hr hf h2 => ?restart, exec_niaWake_down⟩
  case vgood =>
    intro sees
    refine ⟨fun g h => exec_vgoodChange_unseen h, exec_vgoodChange_falls, fun hs hg h2 hv => ?confirms, fun hs hg h2 hv => ?goesOut⟩
    case confirms => rw [exec_vgoodChange_rises hs hg h2, driveV_same (s := s.confirmed) hv]; rfl
    case goesOut =>
      rw [exec_vgoodChange_rises hs hg h2, driveV_new (s := s.confirmed) hs.2.2 rfl hv, ← hg]
      rfl
  case loss =>
    let unlocked : State := { s with boot := { s.boot with rootLock := false } }
    obtain ⟨hloss, href, hready, hup, hinsts⟩ := rootLost_ends (s := unlocked)
    exact ⟨_, exec_rootLockLoss_requested hl hr hq, hloss, href, hready, hup, hinsts, fun d hd hp =>
      dom_rootLost (s := unlocked) hc.doms hd hp⟩
  case cycle =>
    intro ref
    refine ⟨_, step_onRef hp hf, ?_⟩
    obtain ⟨htime, hboot⟩ := rootWait_boot (s := s.refTick) hr hf hq hl h3
    rw [tick_time, tick_boot, clocked_onRef hf, htime, hboot]
    exact ⟨rfl, rfl⟩
  case restart =>
    intro again
    refine ⟨exec_rootRestart_requests hr hf h2, exec_rootRestart_requested, ?wake⟩
    rw [exec_niaWake_stopped hf, holdAccess_stopped hr h2 hf]

end Sys2Proof.Machine
end

section
/-!
SUPPORT. Only the fuse sense changes the fuses (R548, R549): what a scarf commit may move besides the governed fields.
-/

namespace Sys2Proof.Machine

theorem fuse_foldl {α : Type} {f : State → α → State} (hf : ∀ t a, (f t a).fuse = t.fuse) (l : List α) (s : State) :
    (l.foldl f s).fuse = s.fuse :=
  List.foldlRecOn (motive := fun t => t.fuse = s.fuse) l f rfl fun t ht a _ => (hf t a).trans ht

section commit
variable (s : State)

theorem testChange_fuse (v : W32) : (s.testChange v).fuse = s.fuse := by
  unfold State.testChange
  exact (kept_testBays (Kept.refl (s.onProt fun p => { p with testEn := v }))).fuse

theorem applyGov_fuse (g : Gov) (v : Nat) : (s.applyGov g v).fuse = s.fuse := by
  unfold State.applyGov
  cases g
  case testEn => exact testChange_fuse s _
  case imgHi => exact onProt_fuse s _
  all_goals rfl

/-- A landing moves what its entries name, raises SCARF.LANDED and may send records that were held: no fuse. -/
theorem scarfLand_fuse : s.scarfLand.fuse = s.fuse := by
  unfold State.scarfLand
  extract_lets n s1 s2
  have happlied : s1.fuse = s.fuse := by
    refine fuse_foldl (fun t e => ?_) s.lastEntries s
    split
    · exact applyGov_fuse t _ _
    · rfl
  clear_value s1
  have htold : s2.fuse = s.fuse := (kept_raise (kept_scarfEnd (Kept.refl s1))).fuse.trans happlied
  clear_value s2
  split
  · exact (kept_flushLog (Kept.refl s2)).fuse.trans htold
  · exact htold

theorem scarfDiscard_fuse (k : Nat) : (s.scarfDiscard k).fuse = s.fuse := (kept_scarfDiscard (Kept.refl s)).fuse

theorem imageDone_fuse (poisoned : Bool) : (s.imageDone poisoned).fuse = s.fuse := by
  unfold State.imageDone
  dsimp only
  split
  · exact scarfDiscard_fuse s _
  split
  · exact scarfDiscard_fuse s _
  · exact (kept_loadImage (Kept.refl s.scarfLand)).fuse.trans (scarfLand_fuse s)

theorem imageCheck_fuse (poisoned : Bool) : (s.imageCheck poisoned).fuse = s.fuse := by
  unfold State.imageCheck
  extract_lets t
  have hdone : t.fuse = s.fuse := imageDone_fuse s poisoned
  clear_value t
  split
  · have hround := kept_startRound (Kept.refl (t.onBoot fun b => { b with step := 5 }))
    exact hround.fuse.trans hdone
  · exact hdone

end commit

section rows
variable {s t : State}

theorem exec_scarfCheckDone_fuse (h : exec .scarfCheckDone s = .next t) : t.fuse = s.fuse := by
  replace h : execScarfCheckDone s = .next t := h
  unfold execScarfCheckDone at h
  split at h
  · cases h; rfl
  split at h
  · cases h; exact scarfDiscard_fuse s _
  · cases h
    split
    · exact (kept_startImage (Kept.refl s)).fuse
    · exact scarfLand_fuse s

theorem exec_scarfImageCheck_fuse {poisoned : Bool} (h : exec (.scarfImageCheck poisoned) s = .next t) : t.fuse = s.fuse := by
  replace h : execScarfImageCheck poisoned s = .next t := h
  unfold execScarfImageCheck at h
  split at h
  · cases h; rfl
  · cases h; exact imageCheck_fuse s poisoned

end rows

/-- Settles O7: a command keeps the fuses, unless it is one of the four that `exec_kept` leaves out; of these, the two of a scarf commit
and the cold reset keep them too. -/
theorem fusesOnlyBySense : Obligations.FusesOnlyBySense := by
  unfold Obligations.FusesOnlyBySense
  intro i s t h hne
  by_cases hm : moves i = false
  · exact absurd (exec_kept i hm t h).fuse hne
  · cases i
    case fuseSenseDone => exact ⟨_, _, _, _, _, _, _, rfl⟩
    case niaRstNAssert => cases h; exact absurd rfl hne
    case scarfCheckDone => exact absurd (exec_scarfCheckDone_fuse h) hne
    case scarfImageCheck => exact absurd (exec_scarfImageCheck_fuse h) hne
    all_goals exact absurd rfl hm

end Sys2Proof.Machine
end

section
/-!
SUPPORT. Voltage before frequency (R426, R526, R529, R530): a request of a voltage code and a request of a divider, each where it is
taken and where it is an error.
-/

namespace Sys2Proof

theorem le_foldl_min_iff {k : Nat} (xs : List Nat) (x : Nat) : k ≤ xs.foldl min x ↔ k ≤ x ∧ ∀ j ∈ xs, k ≤ j := by
  induction xs generalizing x with
  | nil => simp
  | cons y ys ih => simp [ih, and_assoc]

theorem le_minOr_iff {d k : Nat} (hk : k ≤ d) (l : List Nat) : k ≤ minOr d l ↔ ∀ j ∈ l, k ≤ j := by
  cases l with
  | nil => simpa [minOr] using hk
  | cons x xs => simpa [minOr] using le_foldl_min_iff xs x

namespace Machine

/-! ### A voltage code (R529, R530) -/

section voltage
variable {s : State} {c : Nat}

theorem reqV_low (h : c < s.fuse.vmin (min s.pwr.cdiv s.pwr.cdivEff)) : s.reqV c = s.onPwr fun p => { p with voltErr := true } :=
  if_pos h

theorem reqV_taken (h : s.fuse.vmin (min s.pwr.cdiv s.pwr.cdivEff) ≤ c) : s.reqV c = (s.onPwr fun p => { p with vcode := c }).driveV :=
  if_neg h.not_gt

/-- A change of VREQ that is not confirmed holds back the next. -/
theorem driveV_unconfirmed (h : s.pwr.vgood = false) : s.driveV = s :=
  if_neg fun hd => by simp [h] at hd

theorem reqV_held (h : s.fuse.vmin (min s.pwr.cdiv s.pwr.cdivEff) ≤ c) (hv : s.pwr.vgood = false ∨ c = s.pwr.vreq) :
    s.reqV c = s.onPwr fun p => { p with vcode := c } := by
  rw [reqV_taken h]
  rcases hv with hg | he
  · exact driveV_unconfirmed hg
  · exact driveV_same he

theorem reqV_driven (h : s.fuse.vmin (min s.pwr.cdiv s.pwr.cdivEff) ≤ c) (href : s.boot.onRef = false) (hg : s.pwr.vgood = true)
    (hv : c ≠ s.pwr.vreq) :
    s.reqV c = s.onPwr fun p => { p with vcode := c, vreq := c, vgood := false, vgoodFrom := s.time.nclk + 4 } := by
  rw [reqV_taken h]
  exact driveV_new href hg hv

/-- The management registers answer on the root clock alone. -/
theorem onRef_of_mgtUp (h : s.mgtUp = true) : s.boot.onRef = false := by
  simp only [State.mgtUp, Bool.and_eq_true, Bool.not_eq_true'] at h
  exact h.2

theorem exec_vcodeWrite (h : s.Open none) (v : W32) : exec (.vcodeWrite v) s =
    .next (State.reqV { s with pwr := { s.pwr with voltErr := s.pwr.voltErr && !v.getLsbD 17 } } (v.toNat % 256)).wrote := by
  rw [exec_of_mgt (i := .vcodeWrite v) (f := fun s => s.writeVcode v.toNat) rfl h, State.writeVcode, fld_zero, bitOf_eq_getLsbD]
  rfl

end voltage

/-! ### A divider code (R426, R526, R530) -/

section divider
variable {s : State} {k : Nat}

theorem reqDiv_effective (h : k = s.pwr.cdivEff) :
    s.reqDiv k = s.onPwr fun p => { p with cdiv := k, divPend := false, divGo := false } := by
  subst h
  exact reqDiv_same

theorem reqDiv_larger (h : s.pwr.cdivEff < k) (hmax : k ≤ s.maxDiv) :
    s.reqDiv k = s.onPwr fun p => { p with cdiv := k, divPend := false, divGo := true } := by
  simp [State.reqDiv, h, h.not_gt, hmax]

theorem reqDiv_aboveMax (h : s.pwr.cdivEff < k) (hmax : s.maxDiv < k) : s.reqDiv k = s.onPwr fun p => { p with divErr := true } := by
  simp [State.reqDiv, h.not_gt, h.ne, hmax]

theorem reqDiv_smaller (h : k < s.pwr.cdivEff) (hg : s.pwr.vgood = true) (hv : s.fuse.vmin k ≤ s.pwr.vcodeEff) :
    s.reqDiv k = s.onPwr fun p => { p with cdiv := k, divPend := true, divGo := false } := by
  simp [State.reqDiv, h, h.not_gt, hg, hv]

theorem reqDiv_lowVoltage (h : k < s.pwr.cdivEff) (hv : s.pwr.vgood = false ∨ s.pwr.vcodeEff < s.fuse.vmin k) :
    s.reqDiv k = s.onPwr fun p => { p with divErr := true } := by
  simp [State.reqDiv, h, hv]

/-- MAXDIV_EFF is the least MAXDIV of an admitted reservation (R426). -/
theorem le_maxDiv_iff (hk : k ≤ 3) : k ≤ s.maxDiv ↔ ∀ r x, (r, x) ∈ s.sluice.resv → x.state = 1 → k ≤ x.cfg.maxdiv := by
  simp only [State.maxDiv, le_minOr_iff hk, State.admittedList, List.mem_map, List.mem_filter, beq_iff_eq]
  exact ⟨fun h r x hx h1 => h _ ⟨(r, x), ⟨hx, h1⟩, rfl⟩, fun h _ ⟨q, ⟨hq, h1⟩, e⟩ => e ▸ h q.1 q.2 hq h1⟩

theorem exec_cdivWrite (h : s.Open none) (v : W32) : exec (.cdivWrite v) s = .next (State.wrote (State.reqDiv
    { s with pwr := { s.pwr with divErr := s.pwr.divErr && !v.getLsbD 5, rootStopEn := v.getLsbD 6 } } (v.toNat % 4))) := by
  rw [exec_of_mgt (i := .cdivWrite v) (f := fun s => s.writeCdiv v.toNat) rfl h, State.writeCdiv, fld_zero, bitOf_eq_getLsbD,
    bitOf_eq_getLsbD]
  rfl

end divider

/-- Settles O54: either register is a request, taken or an error; what VCODE drives is `driveV`. -/
theorem voltageAndDivider : Obligations.VoltageAndDivider := by
  unfold Obligations.VoltageAndDivider
  intro s v ho vmin
  refine ⟨?voltage, ?divider⟩
  case voltage =>
    intro c smaller p
    let acked : State := { s with pwr := p }
    rw [exec_vcodeWrite ho v]
    refine ⟨fun h => ?low, fun h hsame => ?held, fun h hg hne => ?driven⟩
    case low => rw [reqV_low (s := acked) h]; rfl
    case held => rw [reqV_held (s := acked) h hsame]; rfl
    case driven =>
      rw [reqV_driven (s := acked) h (onRef_of_mgtUp ho.1) hg hne]
      rfl
  case divider =>
    intro k e p within
    have hk : k ≤ 3 := by omega
    let acked : State := { s with pwr := p }
    have hmax : k ≤ acked.maxDiv ↔ within := le_maxDiv_iff hk
    rw [exec_cdivWrite ho v]
    refine ⟨fun h => ?same, fun h hw => ?larger, fun h hw => ?aboveMax, fun h hg hv => ?smaller, fun h hv => ?lowVoltage⟩
    case same => rw [reqDiv_effective (s := acked) h]; rfl
    case larger => rw [reqDiv_larger (s := acked) h (hmax.2 hw)]; rfl
    case aboveMax => rw [reqDiv_aboveMax (s := acked) h (not_le.1 (mt hmax.1 hw))]; rfl
    case smaller => rw [reqDiv_smaller (s := acked) h hg hv]; rfl
    case lowVoltage => rw [reqDiv_lowVoltage (s := acked) h hv]; rfl

end Machine

end Sys2Proof
end

section
/-!
SUPPORT. Power commands and the timers of power domains (R537, R538, R539, R554): PWR_CMD by what the domain can take, and a timer by the
domain's ladder.
-/

namespace Sys2Proof.Machine

/-! ### PWR_CMD (R537, R554) -/

section command
variable {s : State} {d k : Nat}

/-- No command reaches the domain: there is none, it is absent, or an admitted reservation holds it. -/
def State.Barred (s : State) (d : Nat) : Prop := 56 ≤ d ∨ (s.dom d).state = 5 ∨ s.held d = true

/-- The domain is in the state, or in OFF, and stays there. -/
def Dom.Rests (x : Dom) (k : Nat) : Prop := (x.state = 4 ∨ x.state = k) ∧ x.entering = false ∧ x.exiting = false

/-- An entry may begin: none runs, nor an exit; the supplies rest, and the domain is idle or in RETENTION. -/
def State.MayEnter (s : State) (d : Nat) : Prop :=
  (s.dom d).entering = false ∧ (s.dom d).exiting = false ∧ (s.dom d).req = (s.dom d).good ∧
    ((s.dom d).state = 3 ∨ s.domIdle d = true ∧ s.quiet d = true)

theorem cmdBad_iff : s.cmdBad d k = true ↔ s.Barred d ∨ k ≠ 0 ∧ s.heldCluster d = true := by
  simp [State.cmdBad, State.Barred, or_assoc]

theorem cmdBad_eq_false (hb : ¬ s.Barred d) (hc : k = 0 ∨ s.heldCluster d = false) : s.cmdBad d k = false := by
  refine Bool.eq_false_iff.2 fun h => ?_
  rcases cmdBad_iff.1 h with h | ⟨hk, hheld⟩
  · exact hb h
  · rcases hc with h0 | hc
    · exact hk h0
    · simp [hc] at hheld

theorem cmdReady_iff (hb : ¬ s.Barred d) (hc : s.heldCluster d = false) : s.cmdReady d = true ↔ s.MayEnter d := by
  have hheld : s.held d = false := Bool.eq_false_iff.2 fun h => hb (.inr (.inr h))
  simp [State.cmdReady, State.MayEnter, hheld, hc, and_assoc]

theorem pwrCmd_bad (h : s.cmdBad d k = true) : s.pwrCmd false d k = s.onPwr fun p => { p with cmdErr := true } :=
  if_pos (by simp [h])

section down
variable (hk : k = 3 ∨ k = 4) (hb : s.cmdBad d k = false)
include hk hb

theorem pwrCmd_down : s.pwrCmd false d k = if ((s.dom d).state = 4 ∨ (s.dom d).state = k) ∧ !(s.dom d).entering ∧ !(s.dom d).exiting then s
    else if s.cmdReady d = true then s.beginEntry d k else s.onDom d fun y => { y with cmd := k } := by
  rcases hk with rfl | rfl <;> simp [State.pwrCmd, hb]

theorem pwrCmd_there (h : (s.dom d).Rests k) : s.pwrCmd false d k = s := by
  obtain ⟨hstate, hentry, hexit⟩ := h
  rw [pwrCmd_down hk hb]
  exact if_pos ⟨hstate, by simp [hentry], by simp [hexit]⟩

theorem pwrCmd_begins (h : ¬ (s.dom d).Rests k) (hr : s.cmdReady d = true) : s.pwrCmd false d k = s.beginEntry d k := by
  rw [pwrCmd_down hk hb, if_neg (by simpa [Dom.Rests] using h), if_pos hr]

theorem pwrCmd_waits (h : ¬ (s.dom d).Rests k) (hr : ¬ s.cmdReady d = true) :
    s.pwrCmd false d k = s.onDom d fun y => { y with cmd := k } := by
  rw [pwrCmd_down hk hb, if_neg (by simpa [Dom.Rests] using h), if_neg hr]

end down

section on
variable (hb : s.cmdBad d 0 = false)
include hb

theorem pwrCmd_wakes (hd : d ≠ 55) : s.pwrCmd false d 0 = (s.onDom d fun y => { y with cmd := 0 }).wakeDom d := by
  simp [State.pwrCmd, hb, hd]

/-- ON does not wake a Miller that is in OFF or on its way there. -/
theorem pwrCmd_millerOff (hd : d = 55) (h : (s.dom d).state = 4 ∨ (s.dom d).entering = true ∧ (s.dom d).target = 4) :
    s.pwrCmd false d 0 = s := by
  subst hd
  simp [State.pwrCmd, hb, h]

end on

theorem exec_pwrCmdOn (h : s.Open none) (d : Fin 64) : exec (.pwrCmdOn d) s = .next (s.pwrCmd false d.val 0).wrote :=
  exec_of_mgt (i := .pwrCmdOn d) (f := fun s => s.pwrCmd false d.val 0) rfl h

/-- RETENTION and OFF are one command with the state that it names. -/
theorem exec_pwrCmd_down (h : s.Open none) {d : Fin 64} {k : Nat} {row : Instr}
    (hr : (k, row) ∈ [(3, Instr.pwrCmdRetention d), (4, Instr.pwrCmdOff d)]) :
    (k = 3 ∨ k = 4) ∧ exec row s = .next (s.pwrCmd false d.val k).wrote := by
  rcases List.mem_pair.1 hr with e | e <;> cases e
  · exact ⟨.inl rfl, exec_of_mgt (i := .pwrCmdRetention d) (f := fun s => s.pwrCmd false d.val 3) rfl h⟩
  · exact ⟨.inr rfl, exec_of_mgt (i := .pwrCmdOff d) (f := fun s => s.pwrCmd false d.val 4) rfl h⟩

end command

/-! ### The timers (R538, R539) -/

section timer
variable {s : State} {d : Fin 56}

/-- The running timer has reached its limit, and the supplies rest. -/
def State.TimerDue (s : State) (d : Nat) : Prop :=
  (s.dom d).limit d ≠ 0 ∧ (s.dom d).limit d ≤ (s.dom d).idle ∧ s.timing d = true ∧ (s.dom d).req = (s.dom d).good

theorem ladder_iff (d : Fin 56) : ladder d.val = true ↔ 51 ≤ d.val := by
  have := d.isLt
  simp [ladder]
  omega

theorem exec_idleTimerExpiry_early (h : ¬ s.TimerDue d.val) : exec (.idleTimerExpiry d) s = .next s := by
  refine if_pos ?_
  simp only [State.TimerDue] at h
  grind

theorem exec_idleTimerExpiry_due (h : s.TimerDue d.val) : exec (.idleTimerExpiry d) s =
    if ladder d.val then
      if (s.dom d.val).state < 2 then .next (s.onDom d.val fun y => { y with state := y.state + 1, idle := 0 })
      else .next (s.beginEntry d.val 3)
    else .next (s.beginEntry d.val (if (s.dom d.val).state = 0 then 3 else 4)) := by
  obtain ⟨hlimit, hidle, htiming, hrest⟩ := h
  refine if_neg ?_
  simp [hlimit, hidle, htiming, hrest]

end timer

/-- Settles O55: a command by whether the domain can take it and where it stands; a timer by whether it is due, and the ladder. -/
theorem powerCommands : Obligations.PowerCommands := by
  unfold Obligations.PowerCommands
  refine ⟨fun s d ho => ?command, fun s d => ?timer⟩
  case command =>
    intro x errs begins bad there ready
    refine ⟨fun k row hrow => ?down, fun hb => ?barred, fun hb hd => ?wakes, fun hb hd hoff => ?millerOff⟩
    case down =>
      obtain ⟨hk, hexec⟩ := exec_pwrCmd_down ho hrow
      rw [hexec]
      refine ⟨fun hbad => ?bad, fun hb hc => ?free⟩
      case bad =>
        have hne : k ≠ 0 := by omega
        rw [pwrCmd_bad (cmdBad_iff.2 (hbad.imp_right fun hc => ⟨hne, hc⟩))]
      case free =>
        have hfree : s.cmdBad d.val k = false := cmdBad_eq_false hb (.inr hc)
        have hready : s.cmdReady d.val = true ↔ ready := cmdReady_iff hb hc
        refine ⟨fun h => ?there, fun h hr => ?begins, fun h hr => ?waits⟩
        case there => rw [pwrCmd_there hk hfree h]
        case begins => rw [pwrCmd_begins hk hfree h (hready.2 hr)]; rfl
        case waits => rw [pwrCmd_waits hk hfree h (mt hready.1 hr)]
    case barred => rw [exec_pwrCmdOn ho, pwrCmd_bad (cmdBad_iff.2 (.inl hb))]
    case wakes => rw [exec_pwrCmdOn ho, pwrCmd_wakes (cmdBad_eq_false hb (.inl rfl)) hd]
    case millerOff => rw [exec_pwrCmdOn ho, pwrCmd_millerOff (cmdBad_eq_false hb (.inl rfl)) hd hoff]
  case timer =>
    intro x t due
    refine ⟨fun h => exec_idleTimerExpiry_early h, fun h hl hs => ?down, fun h hl hs => ?deep, fun h hl => ?next⟩
    case down => rw [exec_idleTimerExpiry_due h, if_pos ((ladder_iff d).2 hl), if_pos hs]
    case deep => rw [exec_idleTimerExpiry_due h, if_pos ((ladder_iff d).2 hl), if_neg hs.not_gt]
    case next => rw [exec_idleTimerExpiry_due h, if_neg (mt (ladder_iff d).1 hl.not_ge)]

end Sys2Proof.Machine
end

section
/-!
SUPPORT. The steps of a power domain's entry, of its abort and of its exit, and the confirmation of its supplies (R532, R534, R540 to
R542).
-/

namespace Sys2Proof.Machine

/-! ### Entry and abort (R534, R540, R541) -/

/-- The next step of the entry ends at one of the four abort points of R540: clock stopped, saved, isolated, memory prepared. -/
def Dom.atAbortPoint (x : Dom) (d : Nat) : Prop :=
  x.step + 1 ∈ [2, 2 + saveCycles d x.target, 3 + saveCycles d x.target, 4 + saveCycles d x.target]

theorem Dom.turns_iff (x : Dom) (d : Nat) : (x.abort && (x.step + 1 == 2 || x.step + 1 == 2 + saveCycles d x.target ||
    x.step + 1 == 3 + saveCycles d x.target || x.step + 1 == 4 + saveCycles d x.target)) = true ↔ x.abort = true ∧ x.atAbortPoint d := by
  simp [Dom.atAbortPoint, or_assoc]

section entry
variable {s : State} {d : Nat} (he : (s.dom d).entering = true)
include he

theorem entryStep_early (h : s.time.nclk ≤ (s.dom d).since) : s.entryStep d = none := by
  simp [State.entryStep, he, h]

variable (hn : (s.dom d).since < s.time.nclk)
include hn

section forward
variable (ht : (s.dom d).target ≠ 0)
include ht

theorem entryStep_turns (ha : (s.dom d).abort = true) (hk : (s.dom d).atAbortPoint d) : s.entryStep d =
    some (s.onDom d fun y => { y with target := 0, abort := false, saved := false, since := s.time.nclk, step :=
      if (s.dom d).step + 1 = 4 + saveCycles d (s.dom d).target then 3
      else if (s.dom d).step + 1 = 3 + saveCycles d (s.dom d).target then 2 else 1 }) := by
  have hturn := (Dom.turns_iff (s.dom d) d).2 ⟨ha, hk⟩
  unfold State.entryStep
  dsimp only
  rw [if_neg (by simp [he]), if_neg hn.not_ge, if_neg ht, if_pos hturn]

variable (ha : ¬ ((s.dom d).abort = true ∧ (s.dom d).atAbortPoint d))
include ha

theorem entryStep_goesOn (hk : (s.dom d).step + 1 ≠ 5 + saveCycles d (s.dom d).target) : s.entryStep d =
    some (s.onDom d fun y => { y with step := (s.dom d).step + 1, since := s.time.nclk, saved :=
      y.saved || ((s.dom d).target == 3 && (s.dom d).step + 1 == 2 + saveCycles d (s.dom d).target) }) := by
  have hturn := mt (Dom.turns_iff (s.dom d) d).1 ha
  unfold State.entryStep
  dsimp only
  rw [if_neg (by simp [he]), if_neg hn.not_ge, if_neg ht, if_neg hturn, if_neg hk]

theorem entryStep_last (hk : (s.dom d).step + 1 = 5 + saveCycles d (s.dom d).target) : s.entryStep d =
    let t := s.onDom d fun y => { y with
      entering := false, step := 0, target := 0, state := (s.dom d).target, req := (if (s.dom d).target = 3 then 1 else 0),
      cmd := (if (s.dom d).target = 4 ∨ (s.dom d).cmd = 3 then 0 else (s.dom d).cmd),
      saved := ((s.dom d).target == 3), idle := 0, since := s.time.nclk }
    some (if (s.dom d).target = 3 then t.toRetention d else t.toOff d) := by
  have hturn := mt (Dom.turns_iff (s.dom d) d).1 ha
  unfold State.entryStep
  dsimp only
  rw [if_neg (by simp [he]), if_neg hn.not_ge, if_neg ht, if_neg hturn, if_pos hk]

theorem entryStep_retention (hk : (s.dom d).step + 1 = 5 + saveCycles d (s.dom d).target) (h3 : (s.dom d).target = 3) :
    s.entryStep d = some (State.toRetention (s.onDom d fun y => { y with
      entering := false, step := 0, target := 0, state := 3, req := 1, cmd := (if (s.dom d).cmd = 3 then 0 else (s.dom d).cmd),
      saved := true, idle := 0, since := s.time.nclk }) d) := by
  rw [entryStep_last he hn ht ha hk]
  simp [h3]

theorem entryStep_off (hk : (s.dom d).step + 1 = 5 + saveCycles d (s.dom d).target) (h4 : (s.dom d).target = 4) :
    s.entryStep d = some (State.toOff (s.onDom d fun y => { y with
      entering := false, step := 0, target := 0, state := 4, req := 0, cmd := 0, saved := false, idle := 0, since := s.time.nclk }) d) := by
  rw [entryStep_last he hn ht ha hk]
  simp [h4]

end forward

theorem entryStep_undoes (ht : (s.dom d).target = 0) (hk : 1 < (s.dom d).step) :
    s.entryStep d = some (s.onDom d fun y => { y with step := y.step - 1, since := s.time.nclk }) := by
  simp [State.entryStep, he, hn.not_ge, ht, hk]

theorem entryStep_undone (ht : (s.dom d).target = 0) (hk : (s.dom d).step ≤ 1) : s.entryStep d =
    let t := s.onDom d fun y => { y with entering := false, step := 0, since := s.time.nclk }
    some (if (s.dom d).state ≤ 1 then t.resume d else t.wakeDom d) := by
  simp [State.entryStep, he, hn.not_ge, ht, hk.not_gt]

end entry

theorem exec_entryStepDone {s t : State} {d : Fin 56} (h : s.entryStep d.val = some t) : exec (.entryStepDone d) s = .next t := by
  show execEntryStepDone d s = _
  rw [execEntryStepDone, h]

theorem exec_entryStepDone_early {s : State} {d : Fin 56} (h : s.entryStep d.val = none) : exec (.entryStepDone d) s = .next s := by
  show execEntryStepDone d s = _
  rw [execEntryStepDone, h]
  rfl

/-! ### What coming up leaves (R536, R542, R543) -/

/-- `t` has the power domains and the start-up state of `s`. -/
def State.SamePower (s t : State) : Prop := t.pwr.doms = s.pwr.doms ∧ t.boot = s.boot

theorem State.SamePower.trans {a b c : State} (h : a.SamePower b) (k : b.SamePower c) : a.SamePower c :=
  ⟨k.1.trans h.1, k.2.trans h.2⟩

theorem samePower_foldl {α : Type} {f : State → α → State} (hf : ∀ (t : State) a, t.SamePower (f t a)) (l : List α) (s : State) :
    s.SamePower (l.foldl f s) :=
  List.foldlRecOn (motive := fun t => s.SamePower t) l f ⟨rfl, rfl⟩ fun t ht a _ => ht.trans (hf t a)

theorem samePower_startLink (s : State) (l : Nat) : s.SamePower (s.startLink l) := by
  unfold State.startLink
  split <;> exact ⟨rfl, rfl⟩

theorem samePower_hopUp (s : State) : s.SamePower s.hopUp := by
  refine samePower_foldl (fun t c => ?_) _ s
  split <;> exact ⟨rfl, rfl⟩

theorem samePower_offer (s : State) (p n : Nat) : s.SamePower (State.offer p n s) := by
  obtain ⟨q, h⟩ := offer_only p n s
  rw [h]
  exact ⟨rfl, rfl⟩

theorem samePower_dropSlots (s : State) (b : Nat) : s.SamePower (s.dropSlots b) := by
  unfold State.dropSlots
  refine samePower_foldl (fun t k => ?_) _ s
  exact ⟨rfl, rfl⟩

/-- The requesters of a domain that go on wake no domain, but for the PWU and the Weir, whose work may. -/
theorem samePower_resume (s : State) {d : Nat} (h : d ∉ [49, 50]) : s.SamePower (s.resume d) := by
  simp only [List.mem_cons, List.not_mem_nil, or_false, not_or] at h
  unfold State.resume
  split
  · exact ⟨rfl, rfl⟩
  split
  · exact samePower_foldl (fun t p => samePower_offer t p 8) _ s
  split
  · exact samePower_foldl (fun t k => samePower_startLink t _) _ s
  split
  · split
    · exact samePower_hopUp s
    · exact ⟨rfl, rfl⟩
  rw [if_neg h.1, if_neg h.2]
  exact ⟨rfl, rfl⟩

/-- A domain that has come up in NCLK cycle `n`. -/
def Dom.cameUp (x : Dom) (n : Nat) : Dom :=
  { x with state := 0, exiting := false, step := 0, saved := false, wake := false, idle := 0, since := n }

theorem samePower_comeUp (s : State) {d : Nat} (h : d ∉ [49, 50]) : (s.onDom d fun x => x.cameUp s.time.nclk).SamePower (s.comeUp d) := by
  unfold State.comeUp
  extract_lets fromOff s1 ups left s2 s3 ps s4
  have hbay : s1.SamePower s3 := by
    have h2 : s1.SamePower s2 := ⟨rfl, rfl⟩
    clear_value s2
    unfold s3
    split
    · exact h2.trans (samePower_dropSlots s2 d)
    · exact h2
  have hport : s1.SamePower s4 := by
    unfold s4
    split <;> exact ⟨rfl, rfl⟩
  clear_value s3 s4
  show s1.SamePower _
  split
  · split
    · exact hbay
    · exact hbay
  split
  · exact hport.trans (samePower_resume s4 h)
  split
  · exact ⟨rfl, rfl⟩
  · exact samePower_resume s1 h

theorem dom_comeUp {s : State} (hw : Map.wf {} s.pwr.doms = true) {d : Nat} (h : d ∉ [49, 50]) (k : Nat) :
    (s.comeUp d).dom k = if k = d then (s.dom d).cameUp s.time.nclk else s.dom k := by
  rw [State.dom, (samePower_comeUp s h).1]
  exact dom_onDom hw d k _

/-- Cold start goes on from step 3 alone. -/
theorem bootStep3_of_ne {s : State} (h : s.boot.step ≠ 3) : s.bootStep3 = s :=
  if_neg fun h3 => h h3.1

/-- The domain is on, and every other as it was. -/
theorem comeUp_on {s : State} (hw : Map.wf {} s.pwr.doms = true) {d : Nat} (hd : d ∉ [49, 50]) (h3 : s.boot.step ≠ 3)
    (he : (s.dom d).entering = false) : let t := (s.comeUp d).bootStep3
    t.isOn d = true ∧ (t.dom d).state = 0 ∧ ∀ k, k ≠ d → t.dom k = s.dom k := by
  have hboot : (s.comeUp d).boot = s.boot := (samePower_comeUp s hd).2
  have hdom := dom_comeUp hw hd d
  rw [if_pos rfl] at hdom
  rw [bootStep3_of_ne (by rw [hboot]; exact h3)]
  refine ⟨?_, by rw [hdom]; rfl, fun k hk => (dom_comeUp hw hd k).trans (if_neg hk)⟩
  simp [State.isOn, hdom, Dom.cameUp, he]

/-! ### Exit (R542) -/

/-- The exit counts: past the wait for its supplies, outside the self-test of a bay, and not in step 3 of cold start. -/
def State.Exits (s : State) (d : Nat) : Prop :=
  (s.dom d).exiting = true ∧ (s.dom d).step ≠ 0 ∧ (s.boot.step ≠ 5 ∨ 32 ≤ d)

/-- Four bays have left OFF or RETENTION in this NCLK cycle. -/
def State.Fifth (s : State) (d : Nat) : Prop := d < 32 ∧ s.pwr.upAt = s.time.nclk + 1 ∧ 4 ≤ s.pwr.ups

theorem Dom.exitCount_eq (x : Dom) (d : Nat) : x.exitCount d = if x.step = 1 then 4
    else if x.step = 2 then (if x.state = 3 then 2 + saveCycles d 3 else if d < 32 then 96 else 2) else 2 := by
  unfold Dom.exitCount
  split <;> simp_all

section exit
variable {s : State} {d : Fin 56}

theorem baysUp_iff : s.baysUp d.val = true ↔ s.Fifth d.val := by
  simp [State.baysUp, State.Fifth, and_assoc]

theorem exec_exitStepReady_early (h : s.time.nclk < (s.dom d.val).since + (s.dom d.val).exitCount d.val) :
    exec (.exitStepReady d) s = .next s :=
  if_pos (.inr (.inr (.inr h)))

variable (hgo : s.Exits d.val) (hn : (s.dom d.val).since + (s.dom d.val).exitCount d.val ≤ s.time.nclk)
include hgo hn

theorem exec_exitStepReady_counted : exec (.exitStepReady d) s =
    if (s.dom d.val).state = 2 ∨ 3 ≤ (s.dom d.val).step then
      if s.baysUp d.val = true then .next s else .next (s.comeUp d.val).bootStep3
    else .next (s.onDom d.val fun y => { y with step := y.step + 1, since := s.time.nclk }) := by
  obtain ⟨hexit, hstep, htest⟩ := hgo
  refine if_neg ?_
  rw [hexit]
  simp only [Bool.not_true, Bool.false_eq_true, false_or, not_or, not_and, not_lt]
  exact ⟨hstep, fun h5 => htest.resolve_left (not_not_intro h5), hn⟩

theorem exec_exitStepReady_next (h2 : (s.dom d.val).state ≠ 2) (h3 : (s.dom d.val).step < 3) :
    exec (.exitStepReady d) s = .next (s.onDom d.val fun y => { y with step := y.step + 1, since := s.time.nclk }) := by
  rw [exec_exitStepReady_counted hgo hn, if_neg (by omega)]

variable (hl : (s.dom d.val).state = 2 ∨ 3 ≤ (s.dom d.val).step)
include hl

theorem exec_exitStepReady_fifth (h : s.Fifth d.val) : exec (.exitStepReady d) s = .next s := by
  rw [exec_exitStepReady_counted hgo hn, if_pos hl, if_pos (baysUp_iff.2 h)]

theorem exec_exitStepReady_up (h : ¬ s.Fifth d.val) : exec (.exitStepReady d) s = .next (s.comeUp d.val).bootStep3 := by
  rw [exec_exitStepReady_counted hgo hn, if_pos hl, if_neg (mt baysUp_iff.1 h)]

end exit

/-! ### The supplies (R534, R542) -/

section supply
variable {s : State} {d : Fin 56}

theorem exec_pwrGoodChange_stale {code : BitVec 2} (h : code.toNat ≠ (s.dom d.val).req) : exec (.pwrGoodChange d code) s = .next s :=
  if_pos (.inl h.symm)

theorem exec_pwrGoodChange_confirms (hg : (s.dom d.val).good ≠ (s.dom d.val).req) (hr : (s.dom d.val).req < 4) :
    exec (.pwrGoodChange d (BitVec.ofNat 2 (s.dom d.val).req)) s = .next (s.supply d.val) := by
  have hcode : (BitVec.ofNat 2 (s.dom d.val).req).toNat = (s.dom d.val).req := by
    rw [BitVec.toNat_ofNat, Nat.mod_eq_of_lt hr]
  refine if_neg ?_
  rw [hcode]
  simp [hg]

theorem supply_of_exit {d : Nat} (hx : (s.dom d).exiting = true) (h0 : (s.dom d).step = 0) (h3 : (s.dom d).req = 3) :
    s.supply d = (s.onDom d fun y => { y with good := y.req }).onDom d fun y => { y with step := 1, since := s.time.nclk } :=
  if_pos (by simp [hx, h0, h3])

theorem supply_of_rest {d : Nat} (hx : (s.dom d).exiting = false) (hw : (s.dom d).wake = false) :
    s.supply d = s.onDom d fun y => { y with good := y.req } :=
  (if_neg (by simp [hx])).trans (if_neg (by simp [hw]))

/-- An exit that waited for full supply counts from its confirmation. -/
theorem dom_supply_of_exit (hw : Map.wf {} s.pwr.doms = true) {d : Nat} (hx : (s.dom d).exiting = true) (h0 : (s.dom d).step = 0)
    (h3 : (s.dom d).req = 3) (k : Nat) : (s.supply d).dom k =
      if k = d then { s.dom d with good := (s.dom d).req, step := 1, since := s.time.nclk } else s.dom k := by
  have hconfirmed : Map.wf {} (s.onDom d fun y => { y with good := y.req }).pwr.doms = true :=
    Map.wf_modify hw d fun y => { y with good := y.req }
  rw [supply_of_exit hx h0 h3, dom_onDom hconfirmed, dom_onDom hw, dom_onDom hw, if_pos rfl]
  split <;> rfl

end supply

/-- Settles O56: a cycle of an entry or of its undoing by its step, a count of an exit by its time, a confirmation by what waits for it. -/
theorem entryAndExit : Obligations.EntryAndExit := by
  unfold Obligations.EntryAndExit
  intro s d x m k sets
  refine ⟨fun he hn => ?early, fun he hn ht ha => ?forward, fun he hn ht ha hk => ?turns, fun he hn ht hk => ?undoes,
    fun he hn ht hk => ?undone, ?exits, fun hg hr => ?supplies, fun code h => exec_pwrGoodChange_stale h⟩
  case early => exact exec_entryStepDone_early (entryStep_early he hn)
  case forward =>
    have hgoes : ¬ (x.abort = true ∧ x.atAbortPoint d) := fun ⟨h1, h2⟩ => ha.elim (by simp [h1]) fun h => h h2
    refine ⟨fun hk => ?goesOn, fun hk h3 => ?retention, fun hk h4 => ?off⟩
    case goesOn => exact exec_entryStepDone (entryStep_goesOn he hn ht hgoes hk)
    case retention => exact exec_entryStepDone (entryStep_retention he hn ht hgoes hk h3)
    case off => exact exec_entryStepDone (entryStep_off he hn ht hgoes hk h4)
  case turns => exact exec_entryStepDone (entryStep_turns he hn ht ha hk)
  case undoes => exact exec_entryStepDone (entryStep_undoes he hn ht hk)
  case undone => exact exec_entryStepDone (entryStep_undone he hn ht hk)
  case exits =>
    intro go count
    have hcount : count = x.exitCount d := (Dom.exitCount_eq x d).symm
    have hexits : go → s.Exits d.val := fun ⟨hx, _, h0, h5, _⟩ => ⟨hx, h0, h5⟩
    rw [hcount]
    refine ⟨fun _ hn => exec_exitStepReady_early hn, fun hgo hn h2 h3 => exec_exitStepReady_next (hexits hgo) hn h2 h3,
      fun hgo hn hl hf => ?fifth, fun hgo hn hl hf => ?up, fun hc hgo hn hl hf hd => ?isOn⟩
    case fifth => exact exec_exitStepReady_fifth (hexits hgo) hn hl hf
    case up => exact exec_exitStepReady_up (hexits hgo) hn hl hf
    case isOn =>
      have ⟨_, he, _, _, h3⟩ := hgo
      exact ⟨_, exec_exitStepReady_up (hexits hgo) hn hl hf, comeUp_on hc.doms hd h3 he⟩
  case supplies =>
    refine ⟨fun hx h0 h3 hc => ⟨_, exec_pwrGoodChange_confirms hg hr, ?counts, fun j hj => ?others⟩, fun hx hw => ?rests⟩
    case counts => rw [dom_supply_of_exit hc.doms hx h0 h3, if_pos rfl]
    case others => rw [dom_supply_of_exit hc.doms hx h0 h3, if_neg hj]
    case rests => rw [exec_pwrGoodChange_confirms hg hr, supply_of_rest hx hw]

end Sys2Proof.Machine
end

section
/-!
SUPPORT. Cold reset and the steps of cold start (R23, R522, R527, R548 to R552).
-/

namespace Sys2Proof.Map

/-- One update at each of distinct keys, each by its own key. -/
theorem get_foldl_modify_key {α : Type} [DecidableEq α] {d : α} {f : Nat → α → α} {j : Nat} {l : List Nat} (hl : l.Nodup) {m : Map α}
    (h : wf d m = true) : get d (l.foldl (fun n k => modify d n k (f k)) m) j = if j ∈ l then f j (get d m j) else get d m j := by
  induction l generalizing m with
  | nil => rfl
  | cons k l ih =>
    obtain ⟨hk, hl⟩ := List.nodup_cons.1 hl
    rw [List.foldl_cons, ih hl (wf_modify h k _), get_modify h]
    by_cases hj : j = k
    · simp [hj, hk]
    · simp [hj]

end Sys2Proof.Map

namespace Sys2Proof.Machine

/-! ### Runs of updates -/

theorem foldl_onDom (l : List Nat) (f : Dom → Dom) (s : State) : l.foldl (fun t d => t.onDom d f) s =
    { s with pwr := { s.pwr with doms := l.foldl (fun m d => Map.modify {} m d f) s.pwr.doms } } := by
  induction l generalizing s with
  | nil => rfl
  | cons d l ih => exact ih (s.onDom d f)

theorem foldl_onBy (l : List Nat) (f : Nat → Bay → Bay) (s : State) : l.foldl (fun t b => t.onBy b (f b)) s =
    { s with bay := l.foldl (fun m b => Map.modify {} m b (f b)) s.bay } := by
  induction l generalizing s with
  | nil => rfl
  | cons b l ih => exact ih (s.onBy b (f b))

theorem dom_foldl_onDom {s : State} (hw : Map.wf {} s.pwr.doms = true) {l : List Nat} (hl : l.Nodup) (f : Dom → Dom) (k : Nat) :
    (l.foldl (fun t d => t.onDom d f) s).dom k = if k ∈ l then f (s.dom k) else s.dom k := by
  rw [foldl_onDom]
  exact Map.get_foldl_modify hl hw

theorem by_foldl_onBy {s : State} (hw : Map.wf {} s.bay = true) {l : List Nat} (hl : l.Nodup) (f : Nat → Bay → Bay) (k : Nat) :
    (l.foldl (fun t b => t.onBy b (f b)) s).by k = if k ∈ l then f k (s.by k) else s.by k := by
  rw [foldl_onBy]
  exact Map.get_foldl_modify_key hl hw

/-! ### Reset and the fuses (R548, R549) -/

section sense
variable {s : State} {f : Fuse}

theorem exec_niaRstNRelease (h : s.boot.rstN = false) : exec .niaRstNRelease s =
    .next { s with boot := { s.boot with rstN := true, step := 1, onRef := true, relAt := s.time.ref } } :=
  if_neg (by simp [h])

/-- The bays that the fuses leave absent. -/
def Fuse.absent (f : Fuse) : List Nat := (List.range 32).filter fun b => !bitOf f.present b

theorem Fuse.mem_absent {f : Fuse} {b : Nat} : b ∈ f.absent ↔ b < 32 ∧ bitOf f.present b = false := by
  simp [Fuse.absent]

/-- The fuses with the values that are sensed. -/
def Fuse.of (p : W32) (kp ko : BitVec 256) (v8 v10 v12 v16 : BitVec 8) : Fuse :=
  { present := p.toNat, keyP := kp, keyO := ko
    vmin8 := v8.toNat, vmin10 := v10.toNat, vmin12 := v12.toNat, vmin16 := v16.toNat }

/-- The fuses are sensed, the Miller's copies are gone and the absent bays are marked. -/
def State.sensed (s : State) (f : Fuse) : State :=
  f.absent.foldl (fun t b => t.onDom b fun x => { x with state := 5 }) { s with fuse := f, miller := {} }

theorem fuseSensed_eq : s.fuseSensed f = ((s.sensed f).onPwr fun p => { p with vcode := f.vmin16, vcodeEff := f.vmin16 }).onBoot fun b =>
    { b with step := 2, rootReq := true, usableAt := max (b.lockSince + 2) s.time.ref + 16 } := by
  unfold State.fuseSensed State.sensed Fuse.absent
  dsimp only
  rw [List.foldl_filter]
  simp only [Bool.not_eq_true', ← Bool.not_eq_true, ite_not]

theorem sensed_only : ∃ m, s.sensed f = { s with fuse := f, miller := {}, pwr := { s.pwr with doms := m } } :=
  ⟨_, foldl_onDom _ _ _⟩

theorem dom_fuseSensed (hw : Map.wf {} s.pwr.doms = true) (b : Nat) : (s.fuseSensed f).dom b =
    if b < 32 ∧ bitOf f.present b = false then { s.dom b with state := 5 } else s.dom b := by
  have hl : f.absent.Nodup := List.nodup_range.filter _
  have hdom := dom_foldl_onDom (s := { s with fuse := f, miller := {} }) hw hl (fun x => { x with state := 5 }) b
  simp only [Fuse.mem_absent] at hdom
  rw [fuseSensed_eq]
  exact hdom

theorem fuseSensed_rest : (s.fuseSensed f).fuse = f ∧ (s.fuseSensed f).pwr.vcode = f.vmin16 ∧ (s.fuseSensed f).pwr.vcodeEff = f.vmin16 ∧
    (s.fuseSensed f).boot = { s.boot with step := 2, rootReq := true, usableAt := max (s.boot.lockSince + 2) s.time.ref + 16 } := by
  obtain ⟨m, h⟩ := sensed_only (s := s) (f := f)
  rw [fuseSensed_eq, h]
  exact ⟨rfl, rfl, rfl, rfl⟩

variable {p : W32} {kp ko : BitVec 256} {v8 v10 v12 v16 : BitVec 8}

theorem exec_fuseSenseDone_early (h : s.time.ref < s.boot.relAt + 8704) : exec (.fuseSenseDone p kp ko v8 v10 v12 v16) s = .next s :=
  if_pos (.inr (.inr h))

theorem exec_fuseSenseDone_due (hr : s.boot.rstN = true) (h1 : s.boot.step = 1) (h : s.boot.relAt + 8704 ≤ s.time.ref) :
    exec (.fuseSenseDone p kp ko v8 v10 v12 v16) s = .next (s.fuseSensed (.of p kp ko v8 v10 v12 v16)) :=
  if_neg (by simp [hr, h1, h])

end sense

/-! ### The self-test (R551) -/

section selfTest
variable {s : State}

/-- Every bay of the round has had its 1,356 NCLK cycles. -/
def State.roundDue (s : State) : Prop := ∀ b ∈ s.round, s.boot.roundAt + 1356 ≤ s.time.nclk ∧
  ((s.dom b).exiting = true ∧ 0 < (s.dom b).step ∧ (s.dom b).since + 1356 ≤ s.time.nclk ∨ s.isOn b = true)

theorem exec_selfTestDone (h5 : s.boot.step = 5) (hd : s.roundDue) (cores : List (Fin 2048 × Fin 5)) (bays : W32) :
    exec (.selfTestDone cores bays) s = .next (s.testDone cores bays.toNat) := by
  refine if_pos ⟨h5, List.all_eq_true.2 fun b hb => ?_⟩
  obtain ⟨hround, ⟨hexit, hstep, hsince⟩ | hon⟩ := hd b hb
  · have hmax : max (s.dom b).since s.boot.roundAt + 1356 ≤ s.time.nclk := by omega
    simp [hexit, hstep, hmax]
  · simp [hon, hround]

end selfTest

/-! ### READY (R552) -/

section ready
variable {s : State}

/-- HOP_RDY of a channel is high, and the host holds its credits. -/
def Channel.opened (x : Channel) : Channel := { x with rdy := true, credits := 16 }

theorem hop_foldl {α : Type} {f : State → α → State} (hf : ∀ (t : State) a, ∃ h, f t a = { t with hop := h }) (l : List α)
    (s : State) : ∃ h, l.foldl f s = { s with hop := h } := by
  induction l generalizing s with
  | nil => exact ⟨s.hop, rfl⟩
  | cons a l ih =>
    obtain ⟨h, ha⟩ := hf s a
    obtain ⟨k, hk⟩ := ih (f s a)
    exact ⟨k, by rw [List.foldl_cons, hk, ha]⟩

theorem hopUp_only (s : State) : ∃ h, s.hopUp = { s with hop := h } := by
  refine hop_foldl (fun t c => ?_) _ s
  split
  · exact ⟨t.hop, rfl⟩
  · exact ⟨_, rfl⟩

theorem ch_foldl_opened (l : List Nat) (h : ∀ c ∈ l, (s.dom (51 + c)).state ≠ 4) :
    (l.foldl (fun t c => if (t.dom (51 + c)).state = 4 then t else t.onChan c Channel.opened) s).hop.ch =
      l.foldl (fun m c => Map.modify {} m c Channel.opened) s.hop.ch := by
  induction l generalizing s with
  | nil => rfl
  | cons c l ih =>
    rw [List.foldl_cons, if_neg (h c (List.mem_cons_self ..))]
    exact ih (s := s.onChan c Channel.opened) fun k hk => h k (List.mem_cons_of_mem _ hk)

theorem hopUp_eq (s : State) : s.hopUp =
    (List.range 4).foldl (fun t c => if (t.dom (51 + c)).state = 4 then t else t.onChan c Channel.opened) s := rfl

theorem chan_hopUp (hw : Map.wf {} s.hop.ch = true) (h : ∀ c, c < 4 → (s.dom (51 + c)).state ≠ 4) {c : Nat} (hc : c < 4) :
    s.hopUp.chan c = (s.chan c).opened := by
  rw [State.chan, hopUp_eq, ch_foldl_opened _ fun c hc => h c (List.mem_range.1 hc), Map.get_foldl_modify List.nodup_range hw,
    if_pos (List.mem_range.2 hc)]
  rfl

/-- READY is high, and every present bay is in service or in test. -/
def State.inService (s : State) : State :=
  let s1 := s.onBoot fun b => { b with step := 7, ready := true }
  s1.presentBays.foldl (fun t b => t.onBy b fun x => { x with mode := s1.modeUp b false }) s1

theorem reachReady_eq : s.reachReady = allDoms.foldl (fun t d => t.onDom d fun x => { x with idle := 0 }) s.inService.hopUp := rfl

theorem inService_only (s : State) : ∃ m, s.inService = { s with boot := { s.boot with step := 7, ready := true }, bay := m } :=
  ⟨_, foldl_onBy _ (fun b x => { x with mode := (s.onBoot fun b => { b with step := 7, ready := true }).modeUp b false }) _⟩

theorem dom_inService (d : Nat) : s.inService.dom d = s.dom d := by
  obtain ⟨m, hm⟩ := inService_only s
  rw [hm]
  rfl

theorem hop_inService : s.inService.hop = s.hop := by
  obtain ⟨m, hm⟩ := inService_only s
  rw [hm]

theorem mode_inService (hw : Map.wf {} s.bay = true) {b : Nat} (hb : b ∈ s.presentBays) :
    (s.inService.by b).mode = if s.prot.testEn.getLsbD b then 3 else 0 := by
  let started := s.onBoot fun b => { b with step := 7, ready := true }
  have hl : s.presentBays.Nodup := List.nodup_range.filter _
  have hby : s.inService.by b = { s.by b with mode := started.modeUp b false } :=
    (by_foldl_onBy (s := started) hw hl (fun b x => { x with mode := started.modeUp b false }) b).trans (if_pos hb)
  rw [hby, ← bitOf_eq_getLsbD]
  rfl

theorem exec_readyReached (h6 : s.boot.step = 6) (hon : ∀ d, 48 ≤ d → d ≤ 54 → s.isOn d = true) :
    exec .readyReached s = .next s.reachReady :=
  if_pos ⟨h6, by simp [hon]⟩

theorem state_of_isOn {d : Nat} (h : s.isOn d = true) : (s.dom d).state ≤ 1 := by
  simp only [State.isOn, Bool.and_eq_true, decide_eq_true_eq] at h
  exact h.2

/-- The rest of the block is as it was but for its channels and its idle counts. -/
theorem reachReady_parts (s : State) : s.reachReady.boot = s.inService.boot ∧ s.reachReady.bay = s.inService.bay ∧
    s.reachReady.hop = s.inService.hopUp.hop := by
  obtain ⟨h, hh⟩ := hopUp_only s.inService
  rw [reachReady_eq, foldl_onDom, hh]
  exact ⟨rfl, rfl, rfl⟩

theorem chan_reachReady (hw : Map.wf {} s.hop.ch = true) (hon : ∀ d, 48 ≤ d → d ≤ 54 → s.isOn d = true) {c : Nat} (hc : c < 4) :
    s.reachReady.chan c = (s.chan c).opened := by
  obtain ⟨-, -, hhop⟩ := reachReady_parts s
  have hup : ∀ k, k < 4 → (s.inService.dom (51 + k)).state ≠ 4 := fun k hk => by
    have hstate := state_of_isOn (hon (51 + k) (by omega) (by omega))
    rw [dom_inService]
    omega
  rw [State.chan, hhop]
  refine (chan_hopUp (by rw [hop_inService]; exact hw) hup hc).trans ?_
  rw [State.chan, hop_inService, State.chan]

theorem idle_reachReady (hw : Map.wf {} s.pwr.doms = true) {d : Nat} (hd : d < 56) : (s.reachReady.dom d).idle = 0 := by
  obtain ⟨h, hh⟩ := hopUp_only s.inService
  obtain ⟨m, hm⟩ := inService_only s
  have hdoms : Map.wf {} s.inService.hopUp.pwr.doms = true := by
    rw [hh, hm]
    exact hw
  have hl : allDoms.Nodup := List.nodup_range
  have hmem : d ∈ allDoms := List.mem_range.2 hd
  rw [reachReady_eq, dom_foldl_onDom hdoms hl, if_pos hmem]

end ready

/-- Settles O58: the row of each step, and what it leaves of the parts that the step names. -/
theorem coldStart : Obligations.ColdStart := by
  unfold Obligations.ColdStart
  refine ⟨fun s => ?reset, fun s h => exec_niaRstNRelease h,
    fun s p kp ko v8 v10 v12 v16 hc hr h1 => ⟨exec_fuseSenseDone_early, fun h => ?sensed⟩,
    fun s cores bays h5 hd => ?selfTest, fun s hc h6 hon => ⟨_, exec_readyReached h6 hon, ?ready⟩⟩
  case reset =>
    exact ⟨s.coldReset, rfl, rfl, rfl, rfl, rfl, rfl, rfl, rfl, rfl, rfl, rfl, rfl, rfl, rfl, rfl, rfl, rfl, rfl, rfl, rfl, rfl⟩
  case sensed =>
    obtain ⟨hfuse, hcode, heff, hboot⟩ := fuseSensed_rest (s := s) (f := .of p kp ko v8 v10 v12 v16)
    refine ⟨_, exec_fuseSenseDone_due hr h1 h, hfuse, fun b hb hp => ?absent, fun b hb hp => ?present, hcode, heff, hboot⟩
    case absent => rw [dom_fuseSensed hc.doms, if_pos ⟨hb, (bitOf_eq_getLsbD p b).trans hp⟩]
    case present =>
      have hbit : bitOf p.toNat b = true := (bitOf_eq_getLsbD p b).trans hp
      rw [dom_fuseSensed hc.doms, if_neg (by simp [Fuse.of, hbit])]
  case selfTest =>
    intro r mine s1 s2 s3 failed s4
    rw [exec_selfTestDone h5 hd]
    exact congrArg Host.Outcome.next (if_congr List.isEmpty_iff rfl rfl)
  case ready =>
    obtain ⟨hboot, hbay, -⟩ := reachReady_parts s
    obtain ⟨m, hm⟩ := inService_only s
    refine ⟨by rw [hboot, hm], fun b hb => ?mode, fun c hc4 => ?chan, fun d hd => idle_reachReady hc.doms hd⟩
    case mode => rw [State.by, hbay]; exact mode_inService hc.bay hb
    case chan => rw [chan_reachReady hc.ch hon hc4]; exact ⟨rfl, rfl⟩

end Sys2Proof.Machine
end

section
/-!
SUPPORT. A step with no command waiting (R403, R404, R518, R526, R546): the cycle of the root clock, part by part.
-/

namespace Sys2Proof.Machine

/-! ### What a cycle leaves of the counters -/

section time
variable (s : State)

theorem time_foldl {α : Type} {f : State → α → State} (hf : ∀ (t : State) a, (f t a).time = t.time) (l : List α) :
    (l.foldl f s).time = s.time :=
  List.foldlRecOn (motive := fun t => t.time = s.time) l f rfl fun t ht a _ => (hf t a).trans ht

theorem time_wakeDom (d : Nat) : (s.wakeDom d).time = s.time := by
  obtain ⟨q, h⟩ := wakeDom_only s d
  rw [h]

theorem time_bootStep3 : s.bootStep3.time = s.time := by
  unfold State.bootStep3
  split <;> rfl

theorem time_bootStep2 : s.bootStep2.time = s.time := by
  unfold State.bootStep2
  split
  · rw [time_bootStep3]
    exact time_foldl _ time_wakeDom _
  · rfl

theorem time_seeVgood : s.seeVgood.time = s.time := by
  unfold State.seeVgood
  dsimp only
  split
  · rfl
  split
  · rw [time_bootStep2, driveV_time]
    rfl
  · rfl

theorem time_rootWait : s.rootWait.time = s.time := by
  unfold State.rootWait State.rootUsable
  dsimp only
  split
  · split
    · rfl
    · rw [time_bootStep2, time_seeVgood, driveV_time]
      rfl
  · rfl

theorem time_divNow : s.divNow.time = s.time := by
  unfold State.divNow
  dsimp only
  split <;> rfl

theorem time_hearHopper : s.hearHopper.time = s.time :=
  time_foldl s time_openWindow _

theorem doms_foldl {α : Type} {f : State → α → State}
    (hf : ∀ (t : State) a, ∃ m, f t a = { t with pwr := { t.pwr with doms := m } }) (l : List α) :
    ∃ m, l.foldl f s = { s with pwr := { s.pwr with doms := m } } := by
  induction l generalizing s with
  | nil => exact ⟨s.pwr.doms, rfl⟩
  | cons a l ih =>
    obtain ⟨m, ha⟩ := hf s a
    obtain ⟨k, hk⟩ := ih (f s a)
    exact ⟨k, by rw [List.foldl_cons, hk, ha]⟩

/-- The idle timers count in the power domains alone. -/
theorem idleTick_only : ∃ m, s.idleTick = { s with pwr := { s.pwr with doms := m } } := by
  refine doms_foldl s (fun t d => ?_) _
  split <;> exact ⟨_, rfl⟩

end time

/-! ### The windows that the Sluice opens (R403, R404) -/

/-- A reservation whose window is open, from cycle `n` where it was not. -/
def Resv.openedAt (x : Resv) (n : Nat) : Resv := if x.opened then x else { x with opened := true, start := n, used := 0 }

section windows
variable (x : Resv) (n : Nat)

theorem Resv.opened_openedAt : (x.openedAt n).opened = true := by
  unfold Resv.openedAt
  split
  · assumption
  · rfl

theorem Resv.openedAt_of_opened {x : Resv} (h : x.opened = true) : x.openedAt n = x := if_pos h

theorem Resv.openedAt_openedAt : (x.openedAt n).openedAt n = x.openedAt n := Resv.openedAt_of_opened n (x.opened_openedAt n)

theorem Resv.start_openedAt {x : Resv} (h : x.opened = false) : (x.openedAt n).start = n := by
  simp [Resv.openedAt, h]

theorem Resv.state_openedAt : (x.openedAt n).state = x.state := by
  unfold Resv.openedAt
  split <;> rfl

theorem Resv.cfg_openedAt : (x.openedAt n).cfg = x.cfg := by
  unfold Resv.openedAt
  split <;> rfl

variable {s : State} (hw : Map.wf {} s.sluice.resv = true)
include hw

theorem wf_resv_openWindow (c : Nat) : Map.wf {} (s.openWindow c).sluice.resv = true := by
  unfold State.openWindow
  split
  · exact hw
  · split
    · exact hw
    · exact Map.wf_modify hw _ fun x => { x with opened := true, start := s.time.cclk, used := 0 }

theorem rv_openWindow (c r : Nat) :
    (s.openWindow c).rv r = if s.admitted c = some r then (s.rv r).openedAt s.time.cclk else s.rv r := by
  unfold State.openWindow
  cases ha : s.admitted c with
  | none => rfl
  | some k =>
    by_cases hk : r = k
    · subst hk
      dsimp only
      rw [if_pos rfl]
      split
      · next ho => rw [Resv.openedAt_of_opened _ ho]
      · next ho => rw [rv_onRv hw, if_pos rfl, Resv.openedAt, if_neg ho]
    · have hne : some k ≠ some r := fun h => hk (Option.some.inj h).symm
      dsimp only
      rw [if_neg hne]
      split
      · rfl
      · rw [rv_onRv hw, if_neg hk]

theorem admitted_openWindow (c k : Nat) : (s.openWindow c).admitted k = s.admitted k := by
  have hsame : ∀ r, ((s.openWindow c).rv r).state = (s.rv r).state ∧ ((s.openWindow c).rv r).cfg = (s.rv r).cfg := fun r => by
    rw [rv_openWindow hw]
    split
    · exact ⟨Resv.state_openedAt _ _, Resv.cfg_openedAt _ _⟩
    · exact ⟨rfl, rfl⟩
  simp only [State.admitted, hsame]

theorem rv_foldl_openWindow (l : List Nat) (r : Nat) : (l.foldl (fun t c => t.openWindow c) s).rv r =
    if ∃ c ∈ l, s.admitted c = some r then (s.rv r).openedAt s.time.cclk else s.rv r := by
  induction l generalizing s with
  | nil => simp
  | cons c l ih =>
    rw [List.foldl_cons, ih (wf_resv_openWindow hw c), rv_openWindow hw, time_openWindow]
    simp only [admitted_openWindow hw, List.exists_mem_cons_iff]
    by_cases hc : s.admitted c = some r
    · simp [hc, Resv.openedAt_openedAt]
    · simp [hc]

end windows

theorem hearHopper_only (s : State) : ∃ m, s.hearHopper = { s with sluice := { s.sluice with resv := m, told := [] } } := by
  have hfold : ∃ m, s.sluice.told.foldl (fun t c => t.openWindow c) s = { s with sluice := { s.sluice with resv := m } } := by
    refine List.foldlRecOn (motive := fun t : State => ∃ m, t = { s with sluice := { s.sluice with resv := m } }) _ _ ⟨s.sluice.resv, rfl⟩
      fun t ⟨m, ht⟩ c _ => ?_
    unfold State.openWindow
    split
    · exact ⟨m, ht⟩
    split
    · exact ⟨m, ht⟩
    · rw [ht]
      exact ⟨_, rfl⟩
  obtain ⟨m, h⟩ := hfold
  exact ⟨m, by rw [State.hearHopper, h]; rfl⟩

theorem rv_hearHopper {s : State} (hw : Map.wf {} s.sluice.resv = true) (r : Nat) : s.hearHopper.rv r =
    if ∃ c ∈ s.sluice.told, s.admitted c = some r then (s.rv r).openedAt s.time.cclk else s.rv r :=
  rv_foldl_openWindow hw _ r

/-! ### An uncorrectable error of a memory (R518, log 146) -/

section error
variable {s : State}

theorem storeError_none (h : Config.upset s.time.fresh s.time.root = none) : s.storeError = s := by
  rw [State.storeError, h]

/-- Of bay memory it marks poison, of memory what the Granary and the ports hold poisoned. -/
theorem storeError_poisons (hw : Map.wf {} s.bay = true) :
    (∀ b, { s.storeError.by b with memPoison := (s.by b).memPoison } = s.by b) ∧
      { s.storeError.mem with ports := s.mem.ports, granBad := s.mem.granBad } = s.mem := by
  unfold State.storeError
  split
  · exact ⟨fun b => rfl, rfl⟩
  · dsimp only
    split
    · split
      · refine ⟨fun b => ?_, rfl⟩
        rw [State.poisonUnits, by_onBy hw]
        split
        · next hb => rw [hb]
        · rfl
      · exact ⟨fun b => rfl, rfl⟩
    split
    · exact ⟨fun b => rfl, rfl⟩
    · exact ⟨fun b => rfl, rfl⟩

end error

/-! ### A cycle on the root clock (R526, R553) -/

section cycle
variable {s : State}

/-- The counters after a cycle of the root clock in use. -/
def State.counted (s : State) : State :=
  { s with time := { s.time with
      root := s.time.root + 1, ref := s.time.ref + edge (s.time.root + 1) 64 false, nclk := s.time.nclk + edge (s.time.root + 1) 64 false,
      cclk := s.time.cclk + edge (s.time.root + 1) (divOf s.pwr.cdivEff) s.pwr.emthrot,
      mclk := s.time.mclk + edge (s.time.root + 1) 4 s.pwr.emthrot, xclk := s.time.xclk + edge (s.time.root + 1) 4 s.pwr.emthrot,
      sclk := s.time.sclk + edge (s.time.root + 1) 8 s.pwr.emthrot } }

/-- At an edge of SCLK that the Hopper's branch receives the Sluice hears. -/
def State.heard (s : State) : State := if s.counted.clockEdge 53 = true then s.counted.hearHopper else s.counted

theorem clocked_running (h : s.boot.onRef = false) :
    s.clocked = if s.counted.clockEdge 59 = true then s.heard.divNow.seeVgood.idleTick else s.heard.divNow :=
  if_neg (by simp [h])

theorem clockEdge_hopper : s.clockEdge 53 = (!s.boot.onRef && s.branchOn 48 && edge s.time.root 8 s.pwr.emthrot == 1) := rfl

theorem edge_eq_one {n div : Nat} {e : Bool} (h : edge n div e ≠ 0) : edge n div e = 1 := by
  unfold edge b2n at *
  split <;> simp_all

theorem heard_of_noEdge (h : s.counted.time.sclk = s.time.sclk ∨ s.branchOn 48 = false) : s.heard = s.counted := by
  refine if_neg fun hedge => ?_
  simp only [clockEdge_hopper, Bool.and_eq_true, beq_iff_eq] at hedge
  obtain ⟨⟨-, hon⟩, hone⟩ := hedge
  rcases h with hs | hoff
  · have hsum : s.time.sclk + edge s.counted.time.root 8 s.counted.pwr.emthrot = s.time.sclk := hs
    omega
  · have hsame : s.counted.branchOn 48 = s.branchOn 48 := rfl
    simp [hsame, hoff] at hon

theorem heard_of_edge (href : s.boot.onRef = false) (hs : s.counted.time.sclk ≠ s.time.sclk) (hon : s.branchOn 48 = true) :
    s.heard = s.counted.hearHopper := by
  have hone : edge s.counted.time.root 8 s.counted.pwr.emthrot = 1 := edge_eq_one fun h => hs (by
    show s.time.sclk + edge s.counted.time.root 8 s.counted.pwr.emthrot = _
    omega)
  have hsame : s.counted.branchOn 48 = s.branchOn 48 := rfl
  have hclock : s.counted.boot.onRef = false := href
  refine if_pos ?_
  simp [clockEdge_hopper, hone, hsame, hon, hclock]

theorem heard_only (s : State) : ∃ m l, s.heard = { s.counted with sluice := { s.sluice with resv := m, told := l } } := by
  unfold State.heard
  split
  · obtain ⟨m, h⟩ := hearHopper_only s.counted
    exact ⟨m, [], h⟩
  · exact ⟨s.sluice.resv, s.sluice.told, rfl⟩

/-- The divider after the cycle (R526). -/
def Pwr.divided (p : Pwr) (n : Nat) : Pwr :=
  if p.divGo = true ∧ n % Nat.lcm (divOf p.cdiv) (divOf p.cdivEff) = 0 then
    { p with cdivEff := p.cdiv, divPend := false, divGo := false }
  else p

theorem divNow_eq (s : State) : s.divNow = { s with pwr := s.pwr.divided s.time.root } := by
  unfold State.divNow Pwr.divided
  dsimp only
  simp only [Bool.and_eq_true, beq_iff_eq]
  split <;> rfl

theorem vgood_divided (p : Pwr) (n : Nat) : (p.divided n).vgood = p.vgood ∧ (p.divided n).vgoodPin = p.vgoodPin := by
  unfold Pwr.divided
  split <;> exact ⟨rfl, rfl⟩

theorem Pwr.divided_waits {p : Pwr} (h : p.divGo = false) (n : Nat) : p.divided n = p :=
  if_neg (by simp [h])

theorem Pwr.divided_common {p : Pwr} {n : Nat} (h : p.divGo = true) (hn : n % Nat.lcm (divOf p.cdiv) (divOf p.cdivEff) = 0) :
    p.divided n = { p with cdivEff := p.cdiv, divPend := false, divGo := false } :=
  if_pos ⟨h, hn⟩

theorem Pwr.divided_only (p : Pwr) (n : Nat) :
    { p.divided n with doms := p.doms, cdivEff := p.cdivEff, divPend := p.divPend, divGo := p.divGo } = p := by
  unfold Pwr.divided
  split <;> rfl

/-- With VGOOD as it was seen, a cycle moves the counters, what the Sluice hears, the divider and the idle counts. -/
theorem clocked_quiet (href : s.boot.onRef = false) (hv : s.pwr.vgood = s.pwr.vgoodPin) : ∃ m, s.clocked =
    { s with time := s.counted.time, sluice := s.heard.sluice, pwr := { s.pwr.divided (s.time.root + 1) with doms := m } } := by
  obtain ⟨r, l, hheard⟩ := heard_only s
  have hdiv : s.heard.divNow = { s with time := s.counted.time, sluice := s.heard.sluice, pwr := s.pwr.divided (s.time.root + 1) } := by
    rw [divNow_eq, hheard]
    rfl
  rw [clocked_running href, hdiv]
  split
  · obtain ⟨hgood, hpin⟩ := vgood_divided s.pwr (s.time.root + 1)
    rw [seeVgood_unseen (.inr (by rw [hgood, hpin]; exact hv))]
    exact idleTick_only _
  · exact ⟨_, rfl⟩

theorem time_heard (s : State) : s.heard.time = s.counted.time := by
  obtain ⟨r, l, h⟩ := heard_only s
  rw [h]

theorem time_clocked_running (href : s.boot.onRef = false) : s.clocked.time = s.counted.time := by
  have hdiv : s.heard.divNow.time = s.counted.time := (time_divNow _).trans (time_heard s)
  rw [clocked_running href]
  split
  · obtain ⟨m, h⟩ := idleTick_only s.heard.divNow.seeVgood
    rw [h]
    exact (time_seeVgood _).trans hdiv
  · exact hdiv

/-- Each cycle counts one of the root clock, and takes no free value. -/
theorem time_tick (s : State) : s.tick.time.root = s.time.root + 1 ∧ s.tick.time.fresh = s.time.fresh := by
  rw [tick_time]
  cases href : s.boot.onRef with
  | true =>
    rw [clocked_onRef href, time_rootWait]
    exact ⟨rfl, rfl⟩
  | false =>
    rw [time_clocked_running href]
    exact ⟨rfl, rfl⟩

end cycle

/-! ### The step (R546) -/

section step
variable {s : State} (hp : s.pending = [])
include hp

theorem step_serves {c : Instr} {rest : List Instr} (ha : s.boot.access = c :: rest) (hu : s.mgtUp = true) :
    step s = exec c { s with boot := { s.boot with access := rest } } := by
  unfold step
  rw [hp]
  dsimp only
  rw [ha]
  exact if_pos hu

theorem step_ticks (h : s.boot.access = [] ∨ s.mgtUp = false) : step s = .next s.tick := by
  unfold step
  rw [hp]
  dsimp only
  split
  · next ha =>
    refine if_neg fun hu => ?_
    rcases h with h | h
    · rw [h] at ha; cases ha
    · rw [h] at hu; cases hu
  · rfl

end step

/-- Settles O2: the cycle part by part; an error of a memory adds poison alone. -/
theorem emptyQueueTicks : Obligations.EmptyQueueTicks := by
  unfold Obligations.EmptyQueueTicks
  intro s hp
  obtain ⟨hroot, hfresh⟩ := time_tick s
  refine ⟨fun c rest => step_serves hp, fun h => ⟨s.tick, step_ticks hp h, hroot, hfresh, fun href hv hc => ?_⟩⟩
  obtain ⟨m, hclocked⟩ := clocked_quiet href hv
  obtain ⟨b, e, herror⟩ := storeError_only s.clocked
  have htime : s.tick.time = s.counted.time := (tick_time s).trans (time_clocked_running href)
  have hpwr : s.tick.pwr = { s.pwr.divided (s.time.root + 1) with doms := m } := by rw [State.tick, herror, hclocked]
  have hsluice : s.tick.sluice = s.heard.sluice := by rw [State.tick, herror, hclocked]
  have hbay : s.clocked.bay = s.bay := by rw [hclocked]
  have hmem : s.clocked.mem = s.mem := by rw [hclocked]
  obtain ⟨hbays, hmems⟩ := storeError_poisons (s := s.clocked) (by rw [hbay]; exact hc.bay)
  have hby : ∀ k, s.clocked.by k = s.by k := fun k => by rw [State.by, hbay, State.by]
  refine ⟨?frame, ?power, fun hgo => ?waits, fun hgo hn => ?common, fun hup => ?noError, fun k => ?bays, ?memory, ?sluice, fun hs => ?silent,
    fun hs hon => ?hears⟩
  case frame => rw [State.tick, herror, hclocked]
  case power =>
    rw [hpwr]
    exact Pwr.divided_only s.pwr _
  case waits =>
    rw [hpwr, Pwr.divided_waits hgo]
    exact ⟨rfl, rfl⟩
  case common =>
    rw [hpwr, Pwr.divided_common hgo hn]
    exact ⟨rfl, rfl, rfl⟩
  case noError =>
    have hnone : Config.upset s.clocked.time.fresh s.clocked.time.root = none := by
      rw [time_clocked_running href]
      exact hup
    rw [State.tick, storeError_none hnone]
    exact ⟨hbay, hmem⟩
  case bays => exact hby k ▸ hbays k
  case memory => exact hmem ▸ hmems
  case sluice =>
    obtain ⟨r, l, hheard⟩ := heard_only s
    rw [hsluice, hheard]
  case silent =>
    rw [htime] at hs
    rw [hsluice, heard_of_noEdge hs]
    rfl
  case hears =>
    rw [htime] at hs
    have hheard : s.heard = s.counted.hearHopper := heard_of_edge href hs hon
    refine ⟨by rw [hsluice, hheard]; rfl, fun c hc' r hr => ?_⟩
    have hrv : s.tick.rv r = (s.rv r).openedAt s.counted.time.cclk := by
      rw [State.rv, hsluice, hheard]
      exact (rv_hearHopper (s := s.counted) hc.resv r).trans (if_pos ⟨c, hc', hr⟩)
    rw [hrv, htime]
    exact ⟨Resv.opened_openedAt _ _, fun ho => Resv.openedAt_of_opened _ ho, fun ho => Resv.start_openedAt _ ho⟩

end Sys2Proof.Machine
end

section
/-!
SUPPORT. One step, whatever waits: what it runs, what it keeps of the queue and of the stores, and that it answers.
-/

namespace Sys2Proof.Machine

/-! ### What a step runs (R546, log 2) -/

theorem step_front {s : State} {c : Instr} {rest : List Instr} (h : s.pending = c :: rest) :
    step s = exec c { s with pending := rest } := by
  unfold step
  rw [h]

/-- A step runs the front command, serves an access that waited for the root clock, or lets a cycle pass. -/
theorem step_cases (s : State) :
    (∃ c rest, s.pending = c :: rest ∧ step s = exec c { s with pending := rest }) ∨
    (∃ c rest, s.pending = [] ∧ s.boot.access = c :: rest ∧ step s = exec c { s with boot := { s.boot with access := rest } }) ∨
    (s.pending = [] ∧ step s = .next s.tick) := by
  by_cases hp : s.pending = []
  · by_cases hs : s.boot.access = [] ∨ s.mgtUp = false
    · exact .inr (.inr ⟨hp, step_ticks hp hs⟩)
    · obtain ⟨ha, hu⟩ := not_or.1 hs
      obtain ⟨c, rest, ha⟩ := List.exists_cons_of_ne_nil ha
      exact .inr (.inl ⟨c, rest, hp, ha, step_serves hp ha (Bool.eq_true_of_not_eq_false hu)⟩)
  · obtain ⟨c, rest, hp⟩ := List.exists_cons_of_ne_nil hp
    exact .inl ⟨c, rest, hp, step_front hp⟩

/-! ### What it keeps -/

theorem tick_holds (s : State) : Holds s s.tick := (kept_tick (Kept.refl s)).holds

theorem queueWf_iff {s : State} : s.queueWf ↔ (∀ c ∈ s.pending, c.wf = true) ∧ ∀ c ∈ s.boot.access, c.wf = true :=
  List.forall_mem_append

theorem Holds.queueWf {s t : State} (h : Holds s t) (hq : s.queueWf) : t.queueWf := by
  obtain ⟨hp, ha⟩ := queueWf_iff.1 hq
  exact queueWf_iff.2 ⟨h.pending ▸ hp, h.access ha⟩

/-- A well-formed command that runs with the rest of a well-formed queue answers and leaves that rest. -/
theorem exec_leaves_queue {s : State} {c : Instr} (hc : c.wf = true) (hq : s.queueWf) :
    ∃ t, exec c s = .next t ∧ t.pending = s.pending ∧ t.queueWf := by
  obtain ⟨t, ht⟩ := exec_total (s := s) c hc
  have hk : Holds s t := exec_holds c t ht
  exact ⟨t, ht, hk.pending, hk.queueWf hq⟩

/-! ### Reset (R320, R321, R475, R548) -/

@[simp] theorem cx_reset (c : Nat) : State.reset.cx c = {} := rfl
@[simp] theorem by_reset (b : Nat) : State.reset.by b = {} := rfl
@[simp] theorem dom_reset (d : Nat) : State.reset.dom d = {} := rfl
@[simp] theorem group_reset (g : Nat) : State.reset.group g = {} := rfl

@[simp] theorem Ctx.rs_default (n : Nat) : ({} : Ctx).rs n = 0 := ite_self _
@[simp] theorem Ctx.ev_default (n : Nat) : ({} : Ctx).ev n = 0 := Map.get_nil 0 n

/-- With no predicate set, p0 alone reads 1 (R320). -/
@[simp] theorem Ctx.rp_default (n : Nat) : ({} : Ctx).rp n = decide (n = 0) := by
  unfold Ctx.rp predRead
  by_cases h : n = 0
  · rw [if_pos h, decide_eq_true h]
  · rw [if_neg h, decide_eq_false h, Map.get_nil]

theorem reset_canon : State.reset.Canon where
  ctx := rfl
  core := rfl
  bay := rfl
  insts := rfl
  ext := rfl
  ports := rfl
  resv := rfl
  pools := rfl
  links := rfl
  groups := rfl
  ch := rfl
  doms := rfl
  store := rfl
  bays := List.forall_mem_nil _
  cores := List.forall_mem_nil _
  ctxs := List.forall_mem_nil _

/-! ### The statements -/

/-- Settles O5, by what the step runs: a command or a cycle keeps the canonical form, and taking the front of a queue changes no
store. -/
theorem stepKeepsCanonical : Obligations.StepKeepsCanonical := by
  unfold Obligations.StepKeepsCanonical
  intro s t hs ht
  obtain ⟨c, rest, -, hstep⟩ | ⟨c, rest, -, -, hstep⟩ | ⟨-, hstep⟩ := step_cases s
  · have htook : State.Canon { s with pending := rest } := { hs with }
    exact (exec_holds c t (hstep ▸ ht)).canon htook
  · have htook : State.Canon { s with boot := { s.boot with access := rest } } := { hs with }
    exact (exec_holds c t (hstep ▸ ht)).canon htook
  · have htick : s.tick = t := by rw [hstep] at ht; cases ht; rfl
    exact htick ▸ (tick_holds s).canon hs

/-- Settles O8, by what the step runs: a command taken from a well-formed queue answers and leaves the rest. -/
theorem everyCommandCompletes : Obligations.EveryCommandCompletes := by
  unfold Obligations.EveryCommandCompletes
  intro s hq
  obtain ⟨hp, ha⟩ := queueWf_iff.1 hq
  obtain ⟨c, rest, hfront, hstep⟩ | ⟨c, rest, hnone, hfront, hstep⟩ | ⟨hnone, hstep⟩ := step_cases s
  · obtain ⟨hc, hrest⟩ := List.forall_mem_cons.1 (hfront ▸ hp)
    rw [hstep, hfront]
    exact exec_leaves_queue (s := { s with pending := rest }) hc (queueWf_iff.2 ⟨hrest, ha⟩)
  · obtain ⟨hc, hrest⟩ := List.forall_mem_cons.1 (hfront ▸ ha)
    obtain ⟨t, ht, hleft, htq⟩ := exec_leaves_queue (s := { s with boot := { s.boot with access := rest } }) hc (queueWf_iff.2 ⟨hp, hrest⟩)
    exact ⟨t, hstep.trans ht, by rw [hleft, hnone]; rfl, htq⟩
  · have hk := tick_holds s
    exact ⟨s.tick, hstep, by rw [hk.pending, hnone]; rfl, hk.queueWf hq⟩

/-- Settles O1: the queue is not empty, so its front runs. -/
theorem stepRunsFront : Obligations.StepRunsFront := by
  unfold Obligations.StepRunsFront
  intro c rest s
  exact step_front rfl

/-- Settles O3: no store lists anything at reset, so each read gives its default. -/
theorem resetValues : Obligations.ResetValues := by
  unfold Obligations.ResetValues
  refine ⟨fun c n => ?registers, fun c => ?context, fun b => ?bay, fun d => ?domain, fun g => ?group, rfl, rfl, rfl, rfl, rfl, rfl⟩
  case registers => rw [cx_reset]; exact ⟨Ctx.rs_default n, Ctx.ev_default n, Ctx.rp_default n⟩
  case context => rw [cx_reset]; exact ⟨rfl, rfl, rfl⟩
  case bay => rw [by_reset]; exact ⟨rfl, rfl, rfl⟩
  case domain => rw [dom_reset]; exact ⟨rfl, rfl⟩
  case group => rw [group_reset]; exact ⟨rfl, rfl, rfl⟩

/-- Settles O4: no store lists anything, and no command waits. -/
theorem resetCanonical : Obligations.ResetCanonical := by
  unfold Obligations.ResetCanonical
  exact ⟨reset_canon, queueWf_iff.2 ⟨List.forall_mem_nil _, List.forall_mem_nil _⟩⟩

end Sys2Proof.Machine
end
